-- ==== Sys2Proof/Word.lean ====
section
/-! DEFINITION. The machine's word types. -/

namespace Sys2Proof

/-- One byte of memory (R4). -/
abbrev Byte := BitVec 8

/-- A 64-bit register, address or predicate word (one bit per lane). -/
abbrev Word := BitVec 64

/-- Data held by number, lowest number first; a number with no entry reads as its table's default. -/
abbrev Tab (α : Type) := List (Nat × α)

end Sys2Proof
end

