-- ==== Sys2Proof/Syntax.lean ====
section
/-! DEFINITION. The instructions and events of the opcode table, one constructor a row (R36 to R52, R90 to R205).
Where one opcode has several rows, each row is a constructor. An event row has no encoding: it is a step that an agent
other than a context makes, and its arguments say which request, command or port it concerns. -/

namespace Sys2Proof

/-- Length of the instruction as written, natural or long form (R36, R37). -/
inductive Len | b8 | b12 | b16
deriving DecidableEq, Repr

/-- Register files (R5, R42). -/
inductive FileId | v | s | g | h
deriving DecidableEq, Repr

/-- Operand width codes (R42). -/
inductive WCode | w1 | w2 | w3 | w4 | w6 | w8 | w16 | w32
deriving DecidableEq, Repr

/-- An operand descriptor (R42). The null descriptor 0xFFFF is `h2047:32`. -/
structure Opnd where
  file : FileId
  w : WCode
  start : BitVec 11
deriving DecidableEq, Repr

/-- A guard: predicate p0 to p14, and whether it is inverted (R40). -/
structure Guard where
  pred : Fin 15
  inv : Bool
deriving DecidableEq, Repr

/-- The common header less the opcode (R40). -/
structure Hdr where
  len : Len
  guard : Option Guard
  ea1 : Bool
  ea2 : Bool
  ea3 : Bool
deriving DecidableEq, Repr

/-- Type suffixes (R47). -/
inductive Ty
  | i4 | i8 | i12 | i16 | i24 | i32 | i64
  | n4 | n8 | n12 | n16 | n24 | n32 | n64
  | f32 | f16 | b16 | e4 | e5 | q2
deriving DecidableEq, Repr

/-- Rounding modes (R48). -/
inductive Rnd | rne | rtz | rup | rdn | rna | rs
deriving DecidableEq, Repr

/-- Scopes with an encoding (R49, R230). -/
inductive Scope | core | die | pkg | sys
deriving DecidableEq, Repr

/-- Integer conditions (R100). -/
inductive CC | eq | ne | lt | le | gt | ge
deriving DecidableEq, Repr

/-- Floating-point conditions (R120). -/
inductive FCC | eq | ne | lt | le | gt | ge | un | or
deriving DecidableEq, Repr

/-- Block formats (R81). -/
inductive BFmt | fp32 | fp16 | bf16 | e4m3 | e5m2 | e2m1 | i8 | i4
deriving DecidableEq, Repr

/-- Plain array formats of the matrix engine's C and D (R196). -/
inductive CFmt | fp32 | fp16 | bf16 | e4m3 | e5m2
deriving DecidableEq, Repr

/-- L2 hints (R49). -/
inductive Hint | normal | evictFirst | keep | noAlloc
deriving DecidableEq, Repr

/-- ORDER of a memory qualifier: plain, acquire or release, home (R49). -/
inductive MOrder | plain | sync | home
deriving DecidableEq, Repr

/-- ORDER of an atomic (R155). -/
inductive AOrder | relaxed | acquire | release | acqRel
deriving DecidableEq, Repr

/-- The memory qualifier; FEACT is fixed by the row (R49, R136). -/
structure Qual where
  scope : Scope
  order : MOrder
  colour : BitVec 3
  byp : Bool
  hint : Hint
deriving DecidableEq, Repr

/-- A scalar operand, or an immediate used when the operand field holds 0xFFFF (R167). -/
inductive OpImm (n : Nat)
  | reg (o : Opnd)
  | imm (v : BitVec n)
deriving DecidableEq, Repr

/-- System registers (R183, R225, R308, R331, R349, R360, R367, R368, R371, R376, R377). -/
inductive SysReg
  | cwin | wlim | flg | spx | spc | splim | sra | wsp | rpr | xstate | xpc | xcause | xaddr | xinfo | xlm
  | xb (q : BitVec 2) | cycle | efcr | efca | efmr | efma | rtn (n : BitVec 3) | atbl | shst | evbase | evctl
  | hcfg | iocfg (n : Fin 6) | inga (n : BitVec 2) | ingl (n : BitVec 2) | ingc (n : BitVec 2) | gov | kreq
deriving DecidableEq, Repr

structure Int3 where
  (h : Hdr) (ty : Ty) (sat mkd : Bool) (d a b : Opnd)
deriving DecidableEq, Repr

structure AddI where
  (h : Hdr) (ty : Ty) (sat mkd : Bool) (d a : Opnd) (imm : BitVec 32)
deriving DecidableEq, Repr

structure Int4 where
  (h : Hdr) (ty : Ty) (sat mkd : Bool) (d a b c : Opnd)
deriving DecidableEq, Repr

structure Int2 where
  (h : Hdr) (ty : Ty) (sat mkd : Bool) (d a : Opnd)
deriving DecidableEq, Repr

structure LeaF where
  (h : Hdr) (ty : Ty) (mkd : Bool) (d base : Opnd) (index : Option Opnd) (sh : BitVec 2) (disp : BitVec 32)
deriving DecidableEq, Repr

structure AidxF where
  (h : Hdr) (ty : Ty) (mkd : Bool) (dblk doff j : Opnd) (fmt : BFmt)
deriving DecidableEq, Repr

structure MovI where
  (h : Hdr) (ty : Ty) (mkd : Bool) (d : Opnd) (imm : BitVec 32)
deriving DecidableEq, Repr

structure CmpF where
  (h : Hdr) (ty : Ty) (cc : CC) (pd : BitVec 4) (a b : Opnd)
deriving DecidableEq, Repr

structure ShiftF where
  (h : Hdr) (ty : Ty) (mkd : Bool) (d a : Opnd) (n : OpImm 7)
deriving DecidableEq, Repr

structure BfxF where
  (h : Hdr) (ty : Ty) (mkd : Bool) (d a : Opnd) (pos : BitVec 6) (len : BitVec 7)
deriving DecidableEq, Repr

structure BfiF where
  (h : Hdr) (ty : Ty) (mkd : Bool) (d a b : Opnd) (pos : BitVec 6) (len : BitVec 7)
deriving DecidableEq, Repr

structure SelF where
  (h : Hdr) (ty : Ty) (mkd : Bool) (d a b : Opnd) (ps : BitVec 4)
deriving DecidableEq, Repr

structure PackF where
  (h : Hdr) (mkd : Bool) (d a b : Opnd)
deriving DecidableEq, Repr

structure UnpkF where
  (h : Hdr) (mkd : Bool) (d1 d2 a : Opnd)
deriving DecidableEq, Repr

structure SwzF where
  (h : Hdr) (ty : Ty) (mkd : Bool) (d a x : Opnd)
deriving DecidableEq, Repr

structure SwzMF where
  (h : Hdr) (ty : Ty) (mkd : Bool) (d a : Opnd) (m k : BitVec 6)
deriving DecidableEq, Repr

structure LaneF where
  (h : Hdr) (ty : Ty) (mkd : Bool) (d a : Opnd) (k : OpImm 6)
deriving DecidableEq, Repr

structure Pred3 where
  (h : Hdr) (pd pa pb : BitVec 4)
deriving DecidableEq, Repr

structure Pred2 where
  (h : Hdr) (pd pa : BitVec 4)
deriving DecidableEq, Repr

structure PRedF where
  (h : Hdr) (ty : Ty) (mkd : Bool) (d : Opnd) (x : Option Opnd) (pa : BitVec 4)
deriving DecidableEq, Repr

structure Fp3 where
  (h : Hdr) (ty : Ty) (rnd : Rnd) (mkd : Bool) (d a b : Opnd)
deriving DecidableEq, Repr

structure Fp4 where
  (h : Hdr) (ty : Ty) (rnd : Rnd) (mkd : Bool) (d a b c : Opnd)
deriving DecidableEq, Repr

structure Fp2 where
  (h : Hdr) (ty : Ty) (rnd : Rnd) (mkd : Bool) (d a : Opnd)
deriving DecidableEq, Repr

structure FcmpF where
  (h : Hdr) (ty : Ty) (cc : FCC) (pd : BitVec 4) (a b : Opnd)
deriving DecidableEq, Repr

structure CvtF where
  (h : Hdr) (dt st : Ty) (rnd : Rnd) (sat mkd : Bool) (d a : Opnd)
deriving DecidableEq, Repr

structure QblkF where
  (h : Hdr) (st : Ty) (rnd : Rnd) (mkd : Bool) (d a : Opnd) (fmt : BFmt) (sc sp : Option Opnd)
deriving DecidableEq, Repr

structure BhdrF where
  (h : Hdr) (mkd : Bool) (d sc sp : Opnd) (fmt : BFmt)
deriving DecidableEq, Repr

structure BsetF where
  (h : Hdr) (mkd : Bool) (d i c : Opnd)
deriving DecidableEq, Repr

structure BchkF where
  (h : Hdr) (pd pf : BitVec 4) (a : Opnd)
deriving DecidableEq, Repr

structure MemF where
  (h : Hdr) (data base : Opnd) (index : Option Opnd) (disp : BitVec 16) (q : Qual)
deriving DecidableEq, Repr

structure ElemF where
  (h : Hdr) (data base : Opnd) (index : Option Opnd) (ty : Ty) (rnd : Rnd) (q : Qual)
deriving DecidableEq, Repr

structure PrefF where
  (h : Hdr) (base : Opnd) (index : Option Opnd) (disp : BitVec 16) (byp : Bool) (hint : Hint)
deriving DecidableEq, Repr

structure AgldF where
  (h : Hdr) (mkd : Bool) (dv da base : Opnd) (disp lag : BitVec 16) (pf pa : BitVec 4)
deriving DecidableEq, Repr

structure FemarkF where
  (h : Hdr) (base : Opnd) (n : OpImm 32)
deriving DecidableEq, Repr

structure BlkF where
  (h : Hdr) (base : Opnd) (file : FileId) (first : BitVec 5) (count : BitVec 6) (colour : BitVec 3)
deriving DecidableEq, Repr

structure FenceF where
  (h : Hdr) (mask : BitVec 8) (scope : Scope)
deriving DecidableEq, Repr

structure AtomF where
  (h : Hdr) (ty : Ty) (mkd : Bool) (d : Option Opnd) (base b : Opnd) (order : AOrder) (scope : Scope) (mask : BitVec 8)
deriving DecidableEq, Repr

structure CasF where
  (h : Hdr) (ty : Ty) (mkd : Bool) (d : Option Opnd) (base c nv : Opnd) (order : AOrder) (scope : Scope) (mask : BitVec 8)
deriving DecidableEq, Repr

structure WaitcF where
  (h : Hdr) (base target : Opnd) (scope : Scope)
deriving DecidableEq, Repr

structure WaitcNtF where
  (h : Hdr) (base target : Opnd) (scope : Scope) (pn : BitVec 4)
deriving DecidableEq, Repr

structure CntAddF where
  (h : Hdr) (base n : Opnd) (scope : Scope) (mask : BitVec 8)
deriving DecidableEq, Repr

structure WaitfF where
  (h : Hdr) (ty : Ty) (cc : CC) (base v : Opnd) (m : Option Opnd) (scope : Scope)
deriving DecidableEq, Repr

structure NulF where
  (h : Hdr)
deriving DecidableEq, Repr

structure BrF where
  (h : Hdr) (off : BitVec 28)
deriving DecidableEq, Repr

structure BrcF where
  (h : Hdr) (c : Opnd) (off : BitVec 28)
deriving DecidableEq, Repr

structure JmpF where
  (h : Hdr) (t : Opnd)
deriving DecidableEq, Repr

structure CalliF where
  (h : Hdr) (lk t : Opnd)
deriving DecidableEq, Repr

structure OneF (n : Nat) where
  (h : Hdr) (v : OpImm n)
deriving DecidableEq, Repr

structure HstartF where
  (h : Hdr) (mkd : Bool) (d : Opnd) (mask : OpImm 10) (entry : Opnd) (vblk sblk : BitVec 6)
deriving DecidableEq, Repr

structure SpawnF where
  (h : Hdr) (mkd : Bool) (d : Option Opnd) (tcb : Opnd)
deriving DecidableEq, Repr

structure IdrdF where
  (h : Hdr) (mkd : Bool) (d : Opnd) (sel : BitVec 3)
deriving DecidableEq, Repr

structure DstF where
  (h : Hdr) (mkd : Bool) (d : Opnd)
deriving DecidableEq, Repr

structure TrapF where
  (h : Hdr) (code : BitVec 8)
deriving DecidableEq, Repr

structure SysRdF where
  (h : Hdr) (mkd : Bool) (d : Opnd) (reg : SysReg)
deriving DecidableEq, Repr

structure SysWrF where
  (h : Hdr) (reg : SysReg) (a : Opnd)
deriving DecidableEq, Repr

structure SysWrRtnF where
  (h : Hdr) (n : BitVec 3) (a : Opnd)
deriving DecidableEq, Repr

structure SrcF where
  (h : Hdr) (a : Opnd)
deriving DecidableEq, Repr

structure TlbiAllF where
  (h : Hdr) (scope : Scope)
deriving DecidableEq, Repr

structure TlbiAsidF where
  (h : Hdr) (scope : Scope) (asid : Opnd)
deriving DecidableEq, Repr

structure TlbiVaF where
  (h : Hdr) (scope : Scope) (asid va : Opnd)
deriving DecidableEq, Repr

structure ObjdefF where
  (h : Hdr) (id rcd : Opnd)
deriving DecidableEq, Repr

structure PerfF where
  (h : Hdr) (mkd : Bool) (d : Opnd) (ev : BitVec 4)
deriving DecidableEq, Repr

structure CpsetF where
  (h : Hdr) (reg : BitVec 4) (a : OpImm 32)
deriving DecidableEq, Repr

structure CpgoF where
  (h : Hdr) (mkd : Bool) (d : Option Opnd)
deriving DecidableEq, Repr

structure CpredF where
  (h : Hdr) (ty : Ty) (mkd : Bool) (d : Option Opnd)
deriving DecidableEq, Repr

structure CpredRF where
  (h : Hdr) (ty : Ty) (mkd : Bool) (d : Option Opnd) (rank rmax : BitVec 4)
deriving DecidableEq, Repr

structure CpqF where
  (h : Hdr) (mkd : Bool) (d x : Opnd)
deriving DecidableEq, Repr

structure MmcfgF where
  (h : Hdr) (k s : Opnd) (ctr : Option Opnd) (mask : BitVec 8) (m1 n1 : BitVec 5) (fa fb : BFmt) (fc : Option CFmt)
  (fd : CFmt)
deriving DecidableEq, Repr

structure MmaF where
  (h : Hdr) (a b : Opnd) (c : Option Opnd) (d : Opnd) (row : BitVec 5)
deriving DecidableEq, Repr

structure MmaRpF where
  (h : Hdr) (a b : Opnd) (c : Option Opnd) (d : Opnd)
deriving DecidableEq, Repr

structure PrentF where
  (h : Hdr) (mkd : Bool) (d : Opnd) (c : BitVec 4) (key : OpImm 32) (pw : BitVec 4)
deriving DecidableEq, Repr

structure PrresF where
  (h : Hdr) (mkd : Bool) (d : Opnd) (c : BitVec 4)
deriving DecidableEq, Repr

structure PrrelF where
  (h : Hdr) (c : BitVec 4)
deriving DecidableEq, Repr

/-- The status of a host AtomicOp completion (R285). -/
inductive HostStatus | success (old : Word) | unsupported | abort
deriving DecidableEq, Repr

/-- An incoming AtomicOp (R287); `wide128` is the 128-bit CAS. -/
inductive AtomicOp | fetchAdd | swap | cas | cas128
deriving DecidableEq, Repr

/-- One row of the opcode table. -/
inductive Instr
  -- class 0 (R94 to R100)
  | add (f : Int3) | sub (f : Int3) | addi (f : AddI) | mul (f : Int3) | mulh (f : Int3) | mad (f : Int4)
  | div (f : Int3) | rem (f : Int3) | min (f : Int3) | max (f : Int3) | abs (f : Int2) | neg (f : Int2)
  | clz (f : Int2) | popc (f : Int2) | sad (f : Int4) | lea (f : LeaF) | aidx (f : AidxF) | movi (f : MovI)
  | movhi (f : MovI) | cmp (f : CmpF)
  -- class 1 (R101 to R110)
  | and (f : Int3) | or (f : Int3) | xor (f : Int3) | andn (f : Int3) | not (f : Int2)
  | shl (f : ShiftF) | shr (f : ShiftF) | sar (f : ShiftF) | rot (f : ShiftF) | bfx (f : BfxF) | bfi (f : BfiF)
  | sext (f : Int2) | zext (f : Int2) | mov (f : Int2) | sel (f : SelF) | pack (f : PackF) | unpk (f : UnpkF)
  | swz (f : SwzF) | swzMask (f : SwzMF) | bcast (f : LaneF) | lrot (f : LaneF)
  | pand (f : Pred3) | por (f : Pred3) | pxor (f : Pred3) | pnot (f : Pred2)
  | pany (f : PRedF) | pall (f : PRedF) | pcnt (f : PRedF)
  -- class 2 (R111 to R121)
  | fadd (f : Fp3) | fsub (f : Fp3) | fmul (f : Fp3) | fdiv (f : Fp3) | fma (f : Fp4) | fms (f : Fp4) | fnma (f : Fp4)
  | fmin (f : Fp3) | fmax (f : Fp3) | fabs (f : Fp2) | fneg (f : Fp2) | fsqrt (f : Fp2) | frcp (f : Fp2) | frsq (f : Fp2)
  | fexp2 (f : Fp2) | flog2 (f : Fp2) | fsin (f : Fp2) | fcos (f : Fp2) | ftanh (f : Fp2) | fclass (f : Fp2)
  | fscale (f : Fp3) | frnd (f : Fp2) | fcmp (f : FcmpF) | fred (f : Fp2)
  -- class 3 (R122 to R131)
  | cvt (f : CvtF) | cvts (f : CvtF) | qblk (f : QblkF) | dqblk (f : Fp2) | bhdr (f : BhdrF) | bset (f : BsetF)
  | bchk (f : BchkF) | idot4 (f : Int4)
  -- class 4 (R139 to R154)
  | ld (f : MemF) | st (f : MemF) | gath (f : ElemF) | scat (f : ElemF) | pref (f : PrefF)
  | agldWait (f : AgldF) | agldTry (f : AgldF) | agst (f : MemF) | ldfWf (f : MemF) | ldfWfc (f : MemF) | stf (f : MemF)
  | femarkFull (f : FemarkF) | femarkEmpty (f : FemarkF) | spill (f : BlkF) | fill (f : BlkF)
  | fenceLL (f : FenceF) | fenceSL (f : FenceF) | fenceSS (f : FenceF) | fenceFull (f : FenceF)
  -- class 5 (R155 to R164)
  | atadd (f : AtomF) | atmin (f : AtomF) | atmax (f : AtomF) | atand (f : AtomF) | ator (f : AtomF) | atxor (f : AtomF)
  | atxch (f : AtomF) | atcas (f : CasF) | atfadd (f : AtomF) | atinc (f : AtomF) | atdec (f : AtomF)
  | waitc (f : WaitcF) | waitcNt (f : WaitcNtF) | cntadd (f : CntAddF) | cntaddErr (f : CntAddF) | cntrd (f : MemF)
  | waitf (f : WaitfF) | iflush (f : NulF)
  -- class 6 (R168 to R188)
  | br (f : BrF) | brc (f : BrcF) | jmp (f : JmpF) | call (f : BrcF) | calli (f : CalliF) | ret (f : JmpF) | loop (f : BrcF)
  | safe (f : BrF) | rbdone (f : NulF) | nop64 (f : NulF) | yield (f : OneF 12) | done (f : NulF) | hstart (f : HstartF)
  | hjoin (f : OneF 10) | spawn (f : SpawnF) | idrd (f : IdrdF) | itset (f : OneF 12) | itinc (f : OneF 12) | itrd (f : DstF)
  | seed (f : OneF 12) | trap (f : TrapF) | tret (f : NulF) | tretNext (f : NulF) | sysrd (f : SysRdF) | sysrdClr (f : DstF)
  | syswr (f : SysWrF) | syswrRtn (f : SysWrRtnF) | syswrHcfg (f : SrcF) | syswrShst (f : SrcF) | syswrKreq (f : SrcF)
  | tlbiAll (f : TlbiAllF) | tlbiAsid (f : TlbiAsidF) | tlbiVa (f : TlbiVaF) | objdef (f : ObjdefF) | objdefClr (f : SrcF)
  | genb (f : NulF) | perf (f : PerfF) | perfClr (f : PerfF) | unpin (f : OneF 3)
  -- class 7 (R189 to R205)
  | cpset (f : CpsetF) | cpgo (f : CpgoF) | cpred (f : CpredF) | cpredRanked (f : CpredRF) | cpq (f : CpqF)
  | cpqCount (f : DstF) | mmcfg (f : MmcfgF) | mma (f : MmaF) | mmaRp (f : MmaRpF) | mmw (f : MmaF) | mmwRp (f : MmaRpF)
  | mmrp (f : DstF) | prentOnce (f : PrentF) | prentHold (f : PrentF) | prres (f : PrresF) | prrel (f : PrrelF)
  | leave (f : OneF 8)
  -- events of a core
  | fixedWriteback (core wb : Nat) | longWriteback (core wb : Nat) | waitLimitExpiry (core ctx : Nat)
  | yieldExpiry (core ctx : Nat) | fetchBlockRead (core ctx : Nat) (block : Word) | tableWalk (die asid : Nat) (va : Word)
  -- events at homes
  | homeRead (fl part : Nat) | homeWrite (fl part : Nat) | requestResend (fl part : Nat) | l1Fill (core k : Nat)
  | mirrorFill (die k : Nat) | hostReadCompletion (fl part : Nat) | zeroLengthReadDone (port : Nat)
  | atomicPointEvent (fl part : Nat) | hostAtomicCompletion (fl part : Nat) (st : HostStatus) | counterUpdate (k : Nat)
  | watchReread (fl : Nat) | watchWithdrawal (fl : Nat) | ldfAtScratchpad (fl : Nat) | ldfResend (fl : Nat)
  | stfAtScratchpad (fl : Nat) | granuleWithdrawal (fl : Nat) | agldHomeRequest (fl : Nat) | agstAtHome (fl : Nat)
  | agedWithdrawal (fl : Nat)
  -- events of the engines
  | copyPacketIssue (core : Nat) | copyPacketLand (core k : Nat) | peerAck (core k : Nat) | rankedStaging (core k : Nat)
  | heavyLeaveRequest (core : Nat) (matrix : Bool) | governorGrant (die : Nat) | matrixRow (core : Nat)
  -- events of Prism
  | prismEntryRegister (c k : Nat) | prismRoundStart (c : Nat) | prismLatch (c : Nat) | prismWithdrawal (c k : Nat)
  -- events of the schedulers
  | taskDispatch (die : Nat) | priorityAging (die : Nat) | quantumExpiry (core : Nat) | taskSuspend (core : Nat)
  | stealAttempt (die : Nat) | stealRetry (die : Nat) | stealShip (victim thief : Nat)
  -- events of the ports and links
  | hostWriteIn (addr : Word) (data : List Byte) | hostReadIn (addr : Word) (n : Nat)
  | hostAtomicopIn (op : AtomicOp) (addr : Word) (bytes : Nat) (val cmp : Word)
  | peerPacketIn (port : Nat) (addr : Word) (data : List Byte) | storageIngestWrite (addr : Word) (data : List Byte)
  | linkFailure (link : Nat) | linkRetrain (link : Nat) | linkWidthChange (link width : Nat) | linkFreqChange (die freq : Nat)
  -- boot and the Loupe
  | packageReset | dieTrainingComplete (die : Nat) | getVersion | getCapabilities | negotiateAlgorithms | getDigests
  | getCertificate | challenge | getMeasurements | keyExchange | finish
  -- further events
  | leaveWithdrawal (core ctx : Nat) | flitReplay (link : Nat) | ticketNotice (fl part : Nat)
deriving DecidableEq, Repr

end Sys2Proof
end

