-- ==== Sys2Proof/Machine/Shape.lean ====
section
/-! DEFINITION. What the issue checks and the decoder need to know of each instruction: its operands in field order,
which of them are sources, destinations, scalars or vectors, their exact widths, the predicates it names, its kind
and latency (R12, R18 to R31, R40 to R50, R90 to R126, R166, R167). -/

namespace Sys2Proof

/-- Slices of an operand (R42). -/
def WCode.slices : WCode → Nat
  | .w1 => 1 | .w2 => 2 | .w3 => 3 | .w4 => 4 | .w6 => 6 | .w8 => 8 | .w16 => 16 | .w32 => 32

/-- Number of slices of an operand. -/
def Opnd.width (o : Opnd) : Nat := o.w.slices

/-- Width of an operand in bits (R18). -/
def Opnd.bits (o : Opnd) : Nat := 4 * o.width

/-- Files v and g hold one copy of a slice in each lane (R5, R19). -/
def FileId.isVec : FileId → Bool
  | .v | .g => true
  | .s | .h => false

def Opnd.isVec (o : Opnd) : Bool := o.file.isVec

/-- The null descriptor 0xFFFF (R43). -/
def Opnd.null : Opnd := ⟨.h, .w32, 2047#11⟩

/-- Bits of a type (R47, R64, R66). -/
def Ty.bits : Ty → Nat
  | .i4 | .n4 | .q2 => 4
  | .i8 | .n8 | .e4 | .e5 => 8
  | .i12 | .n12 => 12
  | .i16 | .n16 | .f16 | .b16 => 16
  | .i24 | .n24 => 24
  | .i32 | .n32 | .f32 => 32
  | .i64 | .n64 => 64

def Ty.slices (t : Ty) : Nat := t.bits / 4

/-- The signed integer types (R20). -/
def Ty.isSigned : Ty → Bool
  | .i4 | .i8 | .i12 | .i16 | .i24 | .i32 | .i64 => true
  | _ => false

def Ty.isUnsigned : Ty → Bool
  | .n4 | .n8 | .n12 | .n16 | .n24 | .n32 | .n64 => true
  | _ => false

def Ty.isInt (t : Ty) : Bool := t.isSigned || t.isUnsigned

/-- The arithmetic floating types (R111). -/
def Ty.isArith : Ty → Bool
  | .f32 | .f16 | .b16 => true
  | _ => false

/-- All floating types but .Q2 (R101, R111). -/
def Ty.isFp : Ty → Bool
  | .f32 | .f16 | .b16 | .e4 | .e5 => true
  | _ => false

/-- The types of the atomics (R155). -/
def Ty.isAtomic : Ty → Bool
  | .i32 | .n32 | .i64 | .n64 => true
  | _ => false

def BFmt.code : BFmt → Nat
  | .fp32 => 1 | .fp16 => 2 | .bf16 => 3 | .e4m3 => 4 | .e5m2 => 5 | .e2m1 => 6 | .i8 => 7 | .i4 => 8

/-- Element width in bits of a block format (R81). -/
def BFmt.bits : BFmt → Nat
  | .fp32 => 32 | .fp16 | .bf16 => 16 | .e4m3 | .e5m2 | .i8 => 8 | .e2m1 | .i4 => 4

/-- Element count of a block format (R81). -/
def BFmt.count : BFmt → Nat
  | .fp32 => 15 | .fp16 | .bf16 => 30 | .e4m3 | .e5m2 | .i8 => 60 | .e2m1 | .i4 => 120

/-- Elements in one payload lane of a block image (R126). -/
def BFmt.perLane (f : BFmt) : Nat := 32 / f.bits

def CFmt.code : CFmt → Nat
  | .fp32 => 1 | .fp16 => 2 | .bf16 => 3 | .e4m3 => 4 | .e5m2 => 5

/-- Bytes of one element of a plain array format (R196). -/
def CFmt.bytes : CFmt → Nat
  | .fp32 => 4 | .fp16 | .bf16 => 2 | .e4m3 | .e5m2 => 1

/-- The natural formats (R37, R45). -/
inductive Fmt | a64 | j64 | b96 | m96 | c128
deriving DecidableEq, Repr

/-- Bytes of a format's natural form (R37). -/
def Fmt.bytes : Fmt → Nat
  | .a64 | .j64 => 8 | .b96 | .m96 => 12 | .c128 => 16

/-- Bytes of an instruction as its length bits give it (R36). -/
def Len.bytes : Len → Nat
  | .b8 => 8 | .b12 => 12 | .b16 => 16

/-- When an instruction writes its slices or predicates (R12, R13, R166). -/
inductive Kind
  | none
  | fixed (cycles : Nat)
  | long (cycles : Nat)
  /-- The time depends on memory or on the device state. -/
  | late
deriving DecidableEq, Repr

/-- The encoding errors of R50; each traps UNDEF at check 1 of R34. -/
inductive DecErr
  | noBytes | reservedLength | crossesBlock | unassignedOpcode | shortForm | appendedBits | guardSense | emptyAction
  | unusedOperand | markedNull | badType | badRound | badSat | unassignedBits | badQualifier | badField | badRegister
  | notAnInstruction
deriving DecidableEq, Repr

/-- Operands and predicates of an instruction, as the issue checks of R34 see them. -/
structure Shape where
  /-- Source operand fields in field order with their field numbers; a null field keeps its place (R44). -/
  srcs : List (Nat × Option Opnd) := []
  /-- Operands read besides, with empty action 0 (R97, R126, and LOOP's counter). -/
  reads : List (Nat × Opnd) := []
  /-- Slice destinations. -/
  dsts : List (Nat × Opnd) := []
  /-- Operands that must be scalar, and those that must be vector. -/
  scal : List (Nat × Opnd) := []
  vect : List (Nat × Opnd) := []
  /-- Exact widths in slices, any of the list (R21). -/
  widths : List (Nat × Opnd × List Nat) := []
  /-- A block range of SPILL or FILL: file, first block, count (R150). -/
  range : Option (FileId × Nat × Nat) := none
  /-- Predicates read and written; 15 is LMASK (R91). -/
  prd : List Nat := []
  pwr : List Nat := []
  /-- A scalar destination may have a vector source (R19). -/
  vs : Bool := false
  /-- Vector data in a store or scatter: waits for a write of LMASK (R92). -/
  vdata : Bool := false
  priv : Bool := false
  kind : Kind := .none
  /-- The MK bit (R31). -/
  mkd : Bool := false
  /-- Octets written that no field names: private scalar block 0, which TRET restores (R182). -/
  more : List (FileId × Nat) := []
deriving DecidableEq, Repr

/-- All operand fields present, in field order. -/
def Shape.fields (s : Shape) : List (Nat × Opnd) :=
  s.dsts ++ s.srcs.filterMap (fun p => p.2.map (fun o => (p.1, o))) ++ s.reads

/-- All operands read. -/
def Shape.sources (s : Shape) : List (Nat × Opnd) :=
  s.srcs.filterMap (fun p => p.2.map (fun o => (p.1, o))) ++ s.reads

/-- .MK makes any producer a long-latency producer of unchanged latency (R31). -/
def Kind.mark (mkd : Bool) : Kind → Kind
  | .fixed n => if mkd then .long n else .fixed n
  | k => k

/-- Exact floating widths where the type is floating (R21). -/
def fpWidths (t : Ty) (os : List (Nat × Opnd)) : List (Nat × Opnd × List Nat) :=
  if t.isInt then [] else os.map (fun o => (o.1, o.2, [t.slices]))

def shape1 (k : Kind) (mkd : Bool) (t : Ty) (d a : Opnd) : Shape :=
  { srcs := [(2, some a)], dsts := [(1, d)], widths := fpWidths t [(1, d), (2, a)], kind := k.mark mkd, mkd := mkd }

def shape2 (k : Kind) (mkd : Bool) (t : Ty) (d a b : Opnd) : Shape :=
  { srcs := [(2, some a), (3, some b)], dsts := [(1, d)], widths := fpWidths t [(1, d), (2, a), (3, b)]
    kind := k.mark mkd, mkd := mkd }

def shape3 (k : Kind) (mkd : Bool) (t : Ty) (d a b c : Opnd) : Shape :=
  { srcs := [(2, some a), (3, some b), (4, some c)], dsts := [(1, d)]
    widths := fpWidths t [(1, d), (2, a), (3, b), (4, c)], kind := k.mark mkd, mkd := mkd }

def Int3.shape (k : Kind) (f : Int3) : Shape := shape2 k f.mkd f.ty f.d f.a f.b
def Int4.shape (k : Kind) (f : Int4) : Shape := shape3 k f.mkd f.ty f.d f.a f.b f.c
def Int2.shape (k : Kind) (f : Int2) : Shape := shape1 k f.mkd f.ty f.d f.a
def Fp3.shape (k : Kind) (f : Fp3) : Shape := shape2 k f.mkd f.ty f.d f.a f.b
def Fp4.shape (k : Kind) (f : Fp4) : Shape := shape3 k f.mkd f.ty f.d f.a f.b f.c
def Fp2.shape (k : Kind) (f : Fp2) : Shape := shape1 k f.mkd f.ty f.d f.a
def AddI.shape (f : AddI) : Shape := shape1 (.fixed 4) f.mkd f.ty f.d f.a

def LeaF.shape (f : LeaF) : Shape :=
  { srcs := [(2, some f.base), (3, f.index)], dsts := [(1, f.d)], kind := (Kind.fixed 4).mark f.mkd, mkd := f.mkd }

def AidxF.shape (f : AidxF) : Shape :=
  { srcs := [(3, some f.j)], dsts := [(1, f.dblk), (2, f.doff)], kind := (Kind.fixed 8).mark f.mkd, mkd := f.mkd }

def MovI.shape (f : MovI) (rd : Bool) : Shape :=
  { reads := if rd then [(1, f.d)] else [], dsts := [(1, f.d)], kind := (Kind.fixed 4).mark f.mkd, mkd := f.mkd }

def CmpF.shape (f : CmpF) : Shape :=
  { srcs := [(1, some f.a), (2, some f.b)], pwr := [f.pd.toNat], kind := .fixed 4 }

def FcmpF.shape (f : FcmpF) : Shape :=
  { srcs := [(1, some f.a), (2, some f.b)], pwr := [f.pd.toNat], widths := fpWidths f.ty [(1, f.a), (2, f.b)]
    kind := .fixed 4 }

/-- The operand of an operand or immediate (R167). -/
def OpImm.opnd {n : Nat} : OpImm n → Option Opnd
  | .reg o => some o
  | .imm _ => none

/-- A list with the operand, where there is one. -/
def optAt (i : Nat) (o : Option Opnd) : List (Nat × Opnd) := (o.map (fun x => (i, x))).toList

def ShiftF.shape (f : ShiftF) : Shape :=
  { srcs := [(2, some f.a), (3, f.n.opnd)], dsts := [(1, f.d)], kind := (Kind.fixed 4).mark f.mkd, mkd := f.mkd }

def BfxF.shape (f : BfxF) : Shape := shape1 (.fixed 4) f.mkd f.ty f.d f.a
def BfiF.shape (f : BfiF) : Shape := shape2 (.fixed 4) f.mkd f.ty f.d f.a f.b

def SelF.shape (f : SelF) : Shape := { shape2 (.fixed 4) f.mkd f.ty f.d f.a f.b with prd := [f.ps.toNat] }

def PackF.shape (f : PackF) : Shape := shape2 (.fixed 4) f.mkd .n64 f.d f.a f.b

def UnpkF.shape (f : UnpkF) : Shape :=
  { srcs := [(3, some f.a)], dsts := [(1, f.d1), (2, f.d2)], kind := (Kind.fixed 4).mark f.mkd, mkd := f.mkd }

/-- SWZ's d is a vector with any sources (R108; DEDUCED, log 136), and likewise below. -/
def SwzF.shape (f : SwzF) : Shape :=
  { srcs := [(2, some f.a), (3, some f.x)], dsts := [(1, f.d)], vect := [(1, f.d)]
    widths := fpWidths f.ty [(1, f.d), (2, f.a)], kind := (Kind.fixed 4).mark f.mkd, mkd := f.mkd }

/-- SWZ with m and k, log 136. -/
def SwzMF.shape (f : SwzMF) : Shape :=
  { srcs := [(2, some f.a)], dsts := [(1, f.d)], vect := [(1, f.d)]
    widths := fpWidths f.ty [(1, f.d), (2, f.a)], kind := (Kind.fixed 4).mark f.mkd, mkd := f.mkd }

/-- BCAST and LROT, log 136. -/
def LaneF.shape (f : LaneF) : Shape :=
  { srcs := [(2, some f.a), (3, f.k.opnd)], dsts := [(1, f.d)], vect := [(1, f.d)], scal := optAt 3 f.k.opnd
    widths := fpWidths f.ty [(1, f.d), (2, f.a)], kind := (Kind.fixed 4).mark f.mkd, mkd := f.mkd }

def Pred3.shape (f : Pred3) : Shape := { prd := [f.pa.toNat, f.pb.toNat], pwr := [f.pd.toNat], kind := .fixed 4 }
def Pred2.shape (f : Pred2) : Shape := { prd := [f.pa.toNat], pwr := [f.pd.toNat], kind := .fixed 4 }

/-- PANY, PALL and PCNT read LMASK as well (R110). -/
def PRedF.shape (f : PRedF) : Shape :=
  { srcs := [(2, f.x)], dsts := [(1, f.d)], vect := optAt 2 f.x, prd := [f.pa.toNat, 15], vs := true
    kind := (Kind.fixed 4).mark f.mkd, mkd := f.mkd }

/-- k packed elements of a conversion, or none where the widths do not fit (R123). -/
def cvtCount (f : CvtF) : Option Nat :=
  let wd := f.d.width
  let wa := f.a.width
  let Wd := f.dt.slices
  let Wa := f.st.slices
  match f.dt.isInt, f.st.isInt with
  | true, true => some 1
  | false, false => if wd % Wd = 0 ∧ wa % Wa = 0 ∧ wd / Wd = wa / Wa then some (wd / Wd) else none
  | true, false => if wa % Wa = 0 ∧ (wa / Wa = 1 ∨ wd = wa / Wa * Wd) then some (wa / Wa) else none
  | false, true => if wd % Wd = 0 ∧ (wd / Wd = 1 ∨ wa = wd / Wd * Wa) then some (wd / Wd) else none

/-- The first operand of a conversion whose width does not fit: the destination where its own width is no whole number
of elements, else the source (DEDUCED, log 17). -/
def CvtF.shape (f : CvtF) : Shape :=
  { srcs := [(2, some f.a)], dsts := [(1, f.d)], kind := (Kind.fixed 8).mark f.mkd, mkd := f.mkd
    widths := if (cvtCount f).isSome then []
      else if ¬ f.dt.isInt ∧ f.d.width % f.dt.slices ≠ 0 then [(1, f.d, [])]
      else if f.dt.isInt ∧ f.a.width % f.st.slices = 0 then [(1, f.d, [])] else [(2, f.a, [])] }

def QblkF.shape (f : QblkF) : Shape :=
  { srcs := [(2, some f.a), (3, f.sc), (4, f.sp)], dsts := [(1, f.d)], vect := [(1, f.d), (2, f.a)]
    widths := [(1, f.d, [8]), (2, f.a, [f.fmt.perLane * f.st.slices])], kind := (Kind.fixed 12).mark f.mkd, mkd := f.mkd }

/-- DQBLK's d depends on the blocks read; its width is a check of the instruction (R126). -/
def dqblkShape (f : Fp2) : Shape :=
  { srcs := [(2, some f.a)], dsts := [(1, f.d)], vect := [(1, f.d), (2, f.a)], widths := [(2, f.a, [8])]
    kind := (Kind.fixed 12).mark f.mkd, mkd := f.mkd }

/-- BHDR's sp is a source of E2M1 blocks alone; it is null with any other format (R80, R126), log 134. -/
def BhdrF.shape (f : BhdrF) : Shape :=
  { srcs := [(2, some f.sc), (3, if f.fmt = .e2m1 then some f.sp else none)], reads := [(1, f.d)], dsts := [(1, f.d)], vect := [(1, f.d)]
    widths := [(1, f.d, [8])], kind := (Kind.fixed 12).mark f.mkd, mkd := f.mkd }

def BsetF.shape (f : BsetF) : Shape :=
  { srcs := [(2, some f.i), (3, some f.c)], reads := [(1, f.d)], dsts := [(1, f.d)], vect := [(1, f.d)]
    widths := [(1, f.d, [8])], kind := (Kind.fixed 12).mark f.mkd, mkd := f.mkd }

def BchkF.shape (f : BchkF) : Shape :=
  { srcs := [(1, some f.a)], vect := [(1, f.a)], widths := [(1, f.a, [8])], pwr := [f.pd.toNat, f.pf.toNat]
    kind := .fixed 12 }

/-- IDOT4's exact widths (R131). -/
def idot4Shape (f : Int4) : Shape :=
  let e := 4 * f.ty.slices
  { Int4.shape (.fixed 12) f with widths := [(1, f.d, [8]), (2, f.a, [e]), (3, f.b, [e]), (4, f.c, [8])] }

/-- FRED's x is a vector; its d may be of either kind (R121). -/
def fredShape (f : Fp2) : Shape := { Fp2.shape (.fixed 12) f with vect := [(2, f.a)], vs := true, prd := [15] }

/-- FCLASS has an integer destination, FSCALE an integer n (R111). -/
def fclassShape (f : Fp2) : Shape := { Fp2.shape (.fixed 4) f with widths := fpWidths f.ty [(2, f.a)] }
def fscaleShape (f : Fp3) : Shape := { Fp3.shape (.fixed 8) f with widths := fpWidths f.ty [(1, f.d), (2, f.a)] }

/-- Widths of M96 data (R132). -/
def memWidths : List Nat := [2, 4, 8, 16, 32]

/-- Scalar data makes every address term scalar (R133). -/
def memScal (data base : Opnd) (index : Option Opnd) : List (Nat × Opnd) :=
  if data.isVec then [] else (2, base) :: optAt 3 index

def MemF.load (f : MemF) : Shape :=
  { srcs := [(2, some f.base), (3, f.index)], dsts := [(1, f.data)], scal := memScal f.data f.base f.index
    widths := [(1, f.data, memWidths)], kind := .late }

def MemF.store (f : MemF) : Shape :=
  { srcs := [(1, some f.data), (2, some f.base), (3, f.index)], scal := memScal f.data f.base f.index
    widths := [(1, f.data, memWidths)], vdata := f.data.isVec }

def ElemF.load (f : ElemF) : Shape :=
  { srcs := [(2, some f.base), (3, f.index)], dsts := [(1, f.data)], scal := memScal f.data f.base f.index
    widths := [(1, f.data, [f.ty.slices])], kind := .late }

def ElemF.store (f : ElemF) : Shape :=
  { srcs := [(1, some f.data), (2, some f.base), (3, f.index)], scal := memScal f.data f.base f.index
    widths := [(1, f.data, [f.ty.slices])], vdata := f.data.isVec }

/-- PREF has no data operand; per lane where an address term is a vector (R133), so it reads LMASK then. -/
def PrefF.shape (f : PrefF) : Shape :=
  { srcs := [(2, some f.base), (3, f.index)]
    vdata := f.base.isVec || (f.index.map Opnd.isVec).getD false }

/-- PF and PA: 15 means no predicate (R143). -/
def optPred (p : BitVec 4) : List Nat := if p.toNat = 15 then [] else [p.toNat]

def AgldF.shape (f : AgldF) : Shape :=
  { srcs := [(3, some f.base)], dsts := [(1, f.dv), (2, f.da)], vect := [(1, f.dv)], scal := [(2, f.da), (3, f.base)]
    widths := [(1, f.dv, [2, 4, 8]), (2, f.da, [4])], pwr := optPred f.pf ++ optPred f.pa, kind := .late
    mkd := f.mkd }

def agstShape (f : MemF) : Shape :=
  { f.store with vect := [(1, f.data)], scal := (2, f.base) :: optAt 3 f.index, widths := [(1, f.data, [2, 4, 8])] }

def ldfShape (f : MemF) : Shape := { f.load with scal := (1, f.data) :: (2, f.base) :: optAt 3 f.index }
def stfShape (f : MemF) : Shape := { f.store with scal := (1, f.data) :: (2, f.base) :: optAt 3 f.index }
def cntrdShape (f : MemF) : Shape := { ldfShape f with widths := [(1, f.data, [16])] }

/-- Scalar sources of an instruction without destinations. -/
def scalSrc (l : List (Nat × Option Opnd)) : Shape :=
  { srcs := l, scal := l.filterMap (fun p => p.2.map (fun o => (p.1, o))) }

def FemarkF.shape (f : FemarkF) : Shape := scalSrc [(1, some f.base), (2, f.n.opnd)]

def BlkF.spillShape (f : BlkF) : Shape :=
  { scalSrc [(1, some f.base)] with range := some (f.file, f.first.toNat, f.count.toNat) }

def BlkF.fillShape (f : BlkF) : Shape := { f.spillShape with kind := .late }

def AtomF.shape (f : AtomF) : Shape :=
  { srcs := [(2, some f.base), (3, some f.b)], dsts := optAt 1 f.d, kind := if f.d.isSome then .late else .none
    widths := (optAt 1 f.d).map (fun o => (o.1, o.2, [f.ty.slices])), vdata := f.base.isVec || f.b.isVec }

def atfaddShape (f : AtomF) : Shape := { f.shape with widths := f.shape.widths ++ [(3, f.b, [8])] }

def CasF.shape (f : CasF) : Shape :=
  { srcs := [(2, some f.base), (3, some f.c), (4, some f.nv)], dsts := optAt 1 f.d
    kind := if f.d.isSome then .late else .none
    widths := (optAt 1 f.d).map (fun o => (o.1, o.2, [f.ty.slices]))
    vdata := f.base.isVec || f.c.isVec || f.nv.isVec }

def WaitcF.shape (f : WaitcF) : Shape := scalSrc [(1, some f.base), (2, some f.target)]
def WaitcNtF.shape (f : WaitcNtF) : Shape :=
  { scalSrc [(1, some f.base), (2, some f.target)] with pwr := [f.pn.toNat], kind := .late }
def CntAddF.shape (f : CntAddF) : Shape := scalSrc [(1, some f.base), (2, some f.n)]
def WaitfF.shape (f : WaitfF) : Shape := scalSrc [(1, some f.base), (2, some f.v), (3, f.m)]

def OneF.shape {n : Nat} (f : OneF n) : Shape := scalSrc [(1, f.v.opnd)]
def JmpF.shape (f : JmpF) : Shape := scalSrc [(1, some f.t)]
def brcShape (f : BrcF) : Shape := scalSrc [(1, some f.c)]

/-- The link is a scalar of exactly 16 slices, always a marked write (R56, R166, R168). -/
def callShape (f : BrcF) : Shape :=
  { dsts := [(1, f.c)], scal := [(1, f.c)], widths := [(1, f.c, [16])], kind := .long 4 }
def CalliF.shape (f : CalliF) : Shape :=
  { srcs := [(2, some f.t)], dsts := [(1, f.lk)], scal := [(1, f.lk), (2, f.t)], widths := [(1, f.lk, [16])]
    kind := .long 4 }

/-- LOOP reads and writes its counter; the counter is a destination field, so it has no empty-action bit
(DEDUCED, log 17). -/
def loopShape (f : BrcF) : Shape :=
  { reads := [(1, f.c)], dsts := [(1, f.c)], scal := [(1, f.c)], kind := .fixed 4 }

def HstartF.shape (f : HstartF) : Shape :=
  { srcs := [(2, f.mask.opnd), (3, some f.entry)], dsts := [(1, f.d)]
    scal := (1, f.d) :: optAt 2 f.mask.opnd ++ [(3, f.entry)], kind := (Kind.fixed 4).mark f.mkd, mkd := f.mkd }

def SpawnF.shape (f : SpawnF) : Shape :=
  { srcs := [(2, some f.tcb)], dsts := optAt 1 f.d, scal := optAt 1 f.d ++ [(2, f.tcb)]
    kind := if f.d.isSome then .late else .none }

def dstShape (k : Kind) (mkd : Bool) (d : Opnd) : Shape := { dsts := [(1, d)], kind := k.mark mkd, mkd := mkd }

def srcShape (priv : Bool) (a : Opnd) : Shape := { scalSrc [(1, some a)] with priv := priv }

def CpgoShape (mkd : Bool) (d : Option Opnd) : Shape :=
  { dsts := optAt 1 d, kind := if d.isSome then (Kind.fixed 4).mark mkd else .none, mkd := mkd }

def CpqF.shape (f : CpqF) : Shape :=
  { srcs := [(2, some f.x)], dsts := [(1, f.d)], kind := (Kind.fixed 4).mark f.mkd, mkd := f.mkd }

def MmcfgF.shape (f : MmcfgF) : Shape :=
  { scalSrc [(1, some f.k), (2, some f.s), (3, f.ctr)] with widths := [(2, f.s, [32])] }

/-- A fourth source operand always has action 0 (R26). -/
def mmaShape (a b : Opnd) (c : Option Opnd) (d : Opnd) : Shape :=
  { srcs := [(1, some a), (2, some b), (3, c)], reads := [(4, d)]
    scal := (1, a) :: (2, b) :: optAt 3 c ++ [(4, d)] }

def PrentF.shape (f : PrentF) : Shape :=
  { srcs := [(2, f.key.opnd)], dsts := [(1, f.d)], scal := (1, f.d) :: optAt 2 f.key.opnd, pwr := optPred f.pw
    kind := .late, mkd := f.mkd }

/-- TRET writes private scalar block 0 and LMASK at once: it waits for the handler's writes to them that are under way, so that
they land before it (R23, R182; DEDUCED, log 128). -/
def tretShape : Shape := { priv := true, pwr := [15], more := (List.range 8).map (fun o => (.s, o)) }

/-- Latency of DIV and REM by W (R12). -/
def divLat (t : Ty) : Nat := if t.bits ≤ 16 then 12 else if t.bits ≤ 32 then 20 else 36
/-- Latency of FDIV, FSQRT, FRCP, FRSQ (R12). -/
def fdivLat (t : Ty) : Nat := if t = .f32 then 28 else 16
/-- Latency of the transcendental instructions (R12). -/
def ftransLat (t : Ty) : Nat := if t = .f32 then 32 else 20

/-- The shape of each instruction; an event has none. -/
def Instr.shape : Instr → Shape
  | .add f => f.shape (.fixed 4) | .sub f => f.shape (.fixed 4) | .addi f => f.shape
  | .mul f => f.shape (.fixed 8) | .mulh f => f.shape (.fixed 8) | .mad f => f.shape (.fixed 8)
  | .div f => f.shape (.long (divLat f.ty)) | .rem f => f.shape (.long (divLat f.ty))
  | .min f => f.shape (.fixed 4) | .max f => f.shape (.fixed 4) | .abs f => f.shape (.fixed 4)
  | .neg f => f.shape (.fixed 4) | .clz f => f.shape (.fixed 4) | .popc f => f.shape (.fixed 4)
  | .sad f => f.shape (.fixed 8) | .lea f => f.shape | .aidx f => f.shape | .movi f => f.shape false
  | .movhi f => f.shape true | .cmp f => f.shape
  | .and f => f.shape (.fixed 4) | .or f => f.shape (.fixed 4) | .xor f => f.shape (.fixed 4)
  | .andn f => f.shape (.fixed 4) | .not f => f.shape (.fixed 4)
  | .shl f => f.shape | .shr f => f.shape | .sar f => f.shape | .rot f => f.shape | .bfx f => f.shape | .bfi f => f.shape
  | .sext f => f.shape (.fixed 4) | .zext f => f.shape (.fixed 4) | .mov f => f.shape (.fixed 4) | .sel f => f.shape
  | .pack f => f.shape | .unpk f => f.shape | .swz f => f.shape | .swzMask f => f.shape | .bcast f => f.shape
  | .lrot f => f.shape | .pand f => f.shape | .por f => f.shape | .pxor f => f.shape | .pnot f => f.shape
  | .pany f => f.shape | .pall f => f.shape | .pcnt f => f.shape
  | .fadd f => f.shape (.fixed 8) | .fsub f => f.shape (.fixed 8) | .fmul f => f.shape (.fixed 8)
  | .fdiv f => f.shape (.long (fdivLat f.ty)) | .fma f => f.shape (.fixed 8) | .fms f => f.shape (.fixed 8)
  | .fnma f => f.shape (.fixed 8) | .fmin f => f.shape (.fixed 4) | .fmax f => f.shape (.fixed 4)
  | .fabs f => f.shape (.fixed 4) | .fneg f => f.shape (.fixed 4) | .fsqrt f => f.shape (.long (fdivLat f.ty))
  | .frcp f => f.shape (.long (fdivLat f.ty)) | .frsq f => f.shape (.long (fdivLat f.ty))
  | .fexp2 f => f.shape (.long (ftransLat f.ty)) | .flog2 f => f.shape (.long (ftransLat f.ty))
  | .fsin f => f.shape (.long (ftransLat f.ty)) | .fcos f => f.shape (.long (ftransLat f.ty))
  | .ftanh f => f.shape (.long (ftransLat f.ty)) | .fclass f => fclassShape f | .fscale f => fscaleShape f
  | .frnd f => f.shape (.fixed 8) | .fcmp f => f.shape | .fred f => fredShape f
  | .cvt f => f.shape | .cvts f => f.shape | .qblk f => f.shape | .dqblk f => dqblkShape f | .bhdr f => f.shape
  | .bset f => f.shape | .bchk f => f.shape | .idot4 f => idot4Shape f
  | .ld f => f.load | .st f => f.store | .gath f => f.load | .scat f => f.store | .pref f => f.shape
  | .agldWait f => f.shape | .agldTry f => f.shape | .agst f => agstShape f | .ldfWf f => ldfShape f
  | .ldfWfc f => ldfShape f | .stf f => stfShape f | .femarkFull f => f.shape | .femarkEmpty f => f.shape
  | .spill f => f.spillShape | .fill f => f.fillShape
  | .fenceLL _ => {} | .fenceSL _ => {} | .fenceSS _ => {} | .fenceFull _ => {}
  | .atadd f => f.shape | .atmin f => f.shape | .atmax f => f.shape | .atand f => f.shape | .ator f => f.shape
  | .atxor f => f.shape | .atxch f => f.shape | .atcas f => f.shape | .atfadd f => atfaddShape f | .atinc f => f.shape
  | .atdec f => f.shape | .waitc f => f.shape | .waitcNt f => f.shape | .cntadd f => f.shape | .cntaddErr f => f.shape
  | .cntrd f => cntrdShape f | .waitf f => f.shape | .iflush _ => {}
  | .br _ => {} | .brc f => brcShape f | .jmp f => f.shape | .call f => callShape f | .calli f => f.shape
  | .ret f => f.shape | .loop f => loopShape f | .safe _ => {} | .rbdone _ => {} | .nop64 _ => {} | .yield f => f.shape
  | .done _ => {} | .hstart f => f.shape | .hjoin f => f.shape | .spawn f => f.shape
  | .idrd f => dstShape (.fixed 4) f.mkd f.d | .itset f => f.shape | .itinc f => f.shape
  | .itrd f => dstShape (.fixed 4) f.mkd f.d | .seed f => f.shape | .trap _ => {}
  | .tret _ => tretShape | .tretNext _ => tretShape
  | .sysrd f => dstShape .late f.mkd f.d | .sysrdClr f => dstShape .late f.mkd f.d
  | .syswr f => srcShape true f.a | .syswrRtn f => srcShape true f.a | .syswrHcfg f => srcShape true f.a
  | .syswrShst f => srcShape true f.a | .syswrKreq f => srcShape true f.a
  | .tlbiAll _ => { priv := true }
  | .tlbiAsid f => srcShape true f.asid
  | .tlbiVa f => { scalSrc [(1, some f.asid), (2, some f.va)] with priv := true }
  | .objdef f => { scalSrc [(1, some f.id), (2, some f.rcd)] with priv := true }
  | .objdefClr f => srcShape true f.a
  | .genb _ => {} | .perf f => dstShape .late f.mkd f.d | .perfClr f => dstShape .late f.mkd f.d | .unpin f => f.shape
  | .cpset f => scalSrc [(1, f.a.opnd)]
  | .cpgo f => CpgoShape f.mkd f.d | .cpred f => CpgoShape f.mkd f.d | .cpredRanked f => CpgoShape f.mkd f.d
  | .cpq f => f.shape | .cpqCount f => dstShape (.fixed 4) f.mkd f.d | .mmcfg f => f.shape
  | .mma f => mmaShape f.a f.b f.c f.d | .mmaRp f => mmaShape f.a f.b f.c f.d
  | .mmw f => mmaShape f.a f.b f.c f.d | .mmwRp f => mmaShape f.a f.b f.c f.d
  | .mmrp f => dstShape .late f.mkd f.d
  | .prentOnce f => f.shape | .prentHold f => f.shape | .prres f => dstShape (.fixed 4) f.mkd f.d
  | .prrel _ => {} | .leave f => f.shape
  | .fixedWriteback .. => {} | .longWriteback .. => {} | .waitLimitExpiry .. => {} | .yieldExpiry .. => {}
  | .fetchBlockRead .. => {} | .tableWalk .. => {} | .homeRead .. => {} | .homeWrite .. => {} | .requestResend .. => {}
  | .l1Fill .. => {} | .mirrorFill .. => {} | .hostReadCompletion .. => {} | .zeroLengthReadDone .. => {}
  | .atomicPointEvent .. => {} | .hostAtomicCompletion .. => {} | .counterUpdate .. => {} | .watchReread .. => {}
  | .watchWithdrawal .. => {} | .ldfAtScratchpad .. => {} | .ldfResend .. => {} | .stfAtScratchpad .. => {}
  | .granuleWithdrawal .. => {} | .agldHomeRequest .. => {} | .agstAtHome .. => {} | .agedWithdrawal .. => {}
  | .copyPacketIssue .. => {} | .copyPacketLand .. => {} | .peerAck .. => {} | .rankedStaging .. => {}
  | .heavyLeaveRequest .. => {} | .governorGrant .. => {} | .matrixRow .. => {} | .prismEntryRegister .. => {}
  | .prismRoundStart .. => {} | .prismLatch .. => {} | .prismWithdrawal .. => {} | .taskDispatch .. => {}
  | .priorityAging .. => {} | .quantumExpiry .. => {} | .taskSuspend .. => {} | .stealAttempt .. => {}
  | .stealRetry .. => {} | .stealShip .. => {} | .hostWriteIn .. => {} | .hostReadIn .. => {} | .hostAtomicopIn .. => {}
  | .peerPacketIn .. => {} | .storageIngestWrite .. => {} | .linkFailure .. => {} | .linkRetrain .. => {}
  | .linkWidthChange .. => {} | .linkFreqChange .. => {} | .packageReset => {} | .dieTrainingComplete .. => {}
  | .getVersion => {} | .getCapabilities => {} | .negotiateAlgorithms => {} | .getDigests => {} | .getCertificate => {}
  | .challenge => {} | .getMeasurements => {} | .keyExchange => {} | .finish => {} | .leaveWithdrawal .. => {}
  | .flitReplay .. => {} | .ticketNotice .. => {}

end Sys2Proof
end

