-- ==== Sys2Proof/Machine/Checks.lean ====
section
/-! DEFINITION. The undefined encodings of R50, as one check of an instruction: what its syntax can say and its
encoding or its description forbids. -/

namespace Sys2Proof

/-- The first error of a list of checks. -/
def firstErr (l : List (Option DecErr)) : Option DecErr := l.findSome? id

/-- The format R51 assigns to each instruction; an event has none. -/
def Instr.fmt : Instr → Option Fmt
  | .add _ | .sub _ | .mul _ | .mulh _ | .div _ | .rem _ | .min _ | .max _ | .aidx _ | .cmp _ => some .b96
  | .addi _ | .mad _ | .sad _ | .lea _ | .movi _ | .movhi _ => some .c128
  | .abs _ | .neg _ | .clz _ | .popc _ => some .a64
  | .and _ | .or _ | .xor _ | .andn _ | .shl _ | .shr _ | .sar _ | .rot _ | .bfx _ | .bfi _ | .sel _ | .pack _ | .unpk _
  | .bcast _ | .lrot _ | .pand _ | .por _ | .pxor _ | .pnot _ | .pany _ | .pall _ | .pcnt _ => some .b96
  | .not _ | .sext _ | .zext _ | .mov _ => some .a64
  | .swz _ | .swzMask _ => some .c128
  | .fadd _ | .fsub _ | .fmul _ | .fdiv _ | .fmin _ | .fmax _ | .fscale _ | .fcmp _ => some .b96
  | .fma _ | .fms _ | .fnma _ => some .c128
  | .fabs _ | .fneg _ | .fsqrt _ | .frcp _ | .frsq _ | .fexp2 _ | .flog2 _ | .fsin _ | .fcos _ | .ftanh _ | .fclass _
  | .frnd _ | .fred _ => some .a64
  | .cvt _ | .cvts _ | .bhdr _ | .bset _ | .bchk _ => some .b96
  | .qblk _ | .dqblk _ | .idot4 _ => some .c128
  | .ld _ | .st _ | .gath _ | .scat _ | .pref _ | .agst _ | .ldfWf _ | .ldfWfc _ | .stf _ | .cntrd _ => some .m96
  | .agldWait _ | .agldTry _ | .femarkFull _ | .femarkEmpty _ | .spill _ | .fill _ => some .c128
  | .fenceLL _ | .fenceSL _ | .fenceSS _ | .fenceFull _ | .iflush _ => some .a64
  | .atadd _ | .atmin _ | .atmax _ | .atand _ | .ator _ | .atxor _ | .atxch _ | .atcas _ | .atfadd _ | .atinc _
  | .atdec _ | .waitc _ | .waitcNt _ | .cntadd _ | .cntaddErr _ | .waitf _ => some .c128
  | .br _ | .brc _ | .call _ | .loop _ | .safe _ => some .j64
  | .jmp _ | .calli _ | .ret _ | .rbdone _ | .nop64 _ | .yield _ | .done _ | .hjoin _ | .idrd _ | .itset _ | .itinc _
  | .itrd _ | .seed _ | .trap _ | .tret _ | .tretNext _ | .genb _ | .unpin _ => some .a64
  | .hstart _ | .spawn _ | .sysrd _ | .sysrdClr _ | .syswr _ | .syswrRtn _ | .syswrHcfg _ | .syswrShst _ | .syswrKreq _
  | .tlbiAll _ | .tlbiAsid _ | .tlbiVa _ | .objdef _ | .objdefClr _ | .perf _ | .perfClr _ => some .c128
  | .cpset _ | .cpgo _ | .cpred _ | .cpredRanked _ | .mmcfg _ | .mma _ | .mmaRp _ | .mmw _ | .mmwRp _ | .prentOnce _
  | .prentHold _ => some .c128
  | .cpq _ | .cpqCount _ | .mmrp _ | .prres _ | .prrel _ | .leave _ => some .a64
  | .fixedWriteback .. | .longWriteback .. | .waitLimitExpiry .. | .yieldExpiry .. | .fetchBlockRead .. | .tableWalk ..
  | .homeRead .. | .homeWrite .. | .requestResend .. | .l1Fill .. | .mirrorFill .. | .hostReadCompletion ..
  | .zeroLengthReadDone .. | .atomicPointEvent .. | .hostAtomicCompletion .. | .counterUpdate .. | .watchReread ..
  | .watchWithdrawal .. | .ldfAtScratchpad .. | .ldfResend .. | .stfAtScratchpad .. | .granuleWithdrawal ..
  | .agldHomeRequest .. | .agstAtHome .. | .agedWithdrawal .. | .copyPacketIssue .. | .copyPacketLand .. | .peerAck ..
  | .rankedStaging .. | .heavyLeaveRequest .. | .governorGrant .. | .matrixRow .. | .prismEntryRegister ..
  | .prismRoundStart .. | .prismLatch .. | .prismWithdrawal .. | .taskDispatch .. | .priorityAging ..
  | .quantumExpiry .. | .taskSuspend .. | .stealAttempt .. | .stealRetry .. | .stealShip .. | .hostWriteIn ..
  | .hostReadIn .. | .hostAtomicopIn .. | .peerPacketIn .. | .storageIngestWrite .. | .linkFailure ..
  | .linkRetrain .. | .linkWidthChange .. | .linkFreqChange .. | .packageReset | .dieTrainingComplete .. | .getVersion
  | .getCapabilities | .negotiateAlgorithms | .getDigests | .getCertificate | .challenge | .getMeasurements
  | .keyExchange | .finish | .leaveWithdrawal .. | .flitReplay .. | .ticketNotice .. => none

/-- An empty header, for the events, which have none. -/
def Hdr.zero : Hdr := ⟨.b8, none, false, false, false⟩

/-- The header of an instruction. -/
def Instr.hdr : Instr → Hdr
  | .add f => f.h | .sub f => f.h | .addi f => f.h | .mul f => f.h | .mulh f => f.h | .mad f => f.h | .div f => f.h
  | .rem f => f.h | .min f => f.h | .max f => f.h | .abs f => f.h | .neg f => f.h | .clz f => f.h | .popc f => f.h
  | .sad f => f.h | .lea f => f.h | .aidx f => f.h | .movi f => f.h | .movhi f => f.h | .cmp f => f.h | .and f => f.h
  | .or f => f.h | .xor f => f.h | .andn f => f.h | .not f => f.h | .shl f => f.h | .shr f => f.h | .sar f => f.h
  | .rot f => f.h | .bfx f => f.h | .bfi f => f.h | .sext f => f.h | .zext f => f.h | .mov f => f.h | .sel f => f.h
  | .pack f => f.h | .unpk f => f.h | .swz f => f.h | .swzMask f => f.h | .bcast f => f.h | .lrot f => f.h
  | .pand f => f.h | .por f => f.h | .pxor f => f.h | .pnot f => f.h | .pany f => f.h | .pall f => f.h | .pcnt f => f.h
  | .fadd f => f.h | .fsub f => f.h | .fmul f => f.h | .fdiv f => f.h | .fma f => f.h | .fms f => f.h | .fnma f => f.h
  | .fmin f => f.h | .fmax f => f.h | .fabs f => f.h | .fneg f => f.h | .fsqrt f => f.h | .frcp f => f.h | .frsq f => f.h
  | .fexp2 f => f.h | .flog2 f => f.h | .fsin f => f.h | .fcos f => f.h | .ftanh f => f.h | .fclass f => f.h
  | .fscale f => f.h | .frnd f => f.h | .fcmp f => f.h | .fred f => f.h | .cvt f => f.h | .cvts f => f.h | .qblk f => f.h
  | .dqblk f => f.h | .bhdr f => f.h | .bset f => f.h | .bchk f => f.h | .idot4 f => f.h | .ld f => f.h | .st f => f.h
  | .gath f => f.h | .scat f => f.h | .pref f => f.h | .agldWait f => f.h | .agldTry f => f.h | .agst f => f.h
  | .ldfWf f => f.h | .ldfWfc f => f.h | .stf f => f.h | .femarkFull f => f.h | .femarkEmpty f => f.h | .spill f => f.h
  | .fill f => f.h | .fenceLL f => f.h | .fenceSL f => f.h | .fenceSS f => f.h | .fenceFull f => f.h | .atadd f => f.h
  | .atmin f => f.h | .atmax f => f.h | .atand f => f.h | .ator f => f.h | .atxor f => f.h | .atxch f => f.h
  | .atcas f => f.h | .atfadd f => f.h | .atinc f => f.h | .atdec f => f.h | .waitc f => f.h | .waitcNt f => f.h
  | .cntadd f => f.h | .cntaddErr f => f.h | .cntrd f => f.h | .waitf f => f.h | .iflush f => f.h | .br f => f.h
  | .brc f => f.h | .jmp f => f.h | .call f => f.h | .calli f => f.h | .ret f => f.h | .loop f => f.h | .safe f => f.h
  | .rbdone f => f.h | .nop64 f => f.h | .yield f => f.h | .done f => f.h | .hstart f => f.h | .hjoin f => f.h
  | .spawn f => f.h | .idrd f => f.h | .itset f => f.h | .itinc f => f.h | .itrd f => f.h | .seed f => f.h | .trap f => f.h
  | .tret f => f.h | .tretNext f => f.h | .sysrd f => f.h | .sysrdClr f => f.h | .syswr f => f.h | .syswrRtn f => f.h
  | .syswrHcfg f => f.h | .syswrShst f => f.h | .syswrKreq f => f.h | .tlbiAll f => f.h | .tlbiAsid f => f.h
  | .tlbiVa f => f.h | .objdef f => f.h | .objdefClr f => f.h | .genb f => f.h | .perf f => f.h | .perfClr f => f.h
  | .unpin f => f.h | .cpset f => f.h | .cpgo f => f.h | .cpred f => f.h | .cpredRanked f => f.h | .cpq f => f.h
  | .cpqCount f => f.h | .mmcfg f => f.h | .mma f => f.h | .mmaRp f => f.h | .mmw f => f.h | .mmwRp f => f.h
  | .mmrp f => f.h | .prentOnce f => f.h | .prentHold f => f.h | .prres f => f.h | .prrel f => f.h | .leave f => f.h
  | .fixedWriteback .. | .longWriteback .. | .waitLimitExpiry .. | .yieldExpiry .. | .fetchBlockRead .. | .tableWalk ..
  | .homeRead .. | .homeWrite .. | .requestResend .. | .l1Fill .. | .mirrorFill .. | .hostReadCompletion ..
  | .zeroLengthReadDone .. | .atomicPointEvent .. | .hostAtomicCompletion .. | .counterUpdate .. | .watchReread ..
  | .watchWithdrawal .. | .ldfAtScratchpad .. | .ldfResend .. | .stfAtScratchpad .. | .granuleWithdrawal ..
  | .agldHomeRequest .. | .agstAtHome .. | .agedWithdrawal .. | .copyPacketIssue .. | .copyPacketLand .. | .peerAck ..
  | .rankedStaging .. | .heavyLeaveRequest .. | .governorGrant .. | .matrixRow .. | .prismEntryRegister ..
  | .prismRoundStart .. | .prismLatch .. | .prismWithdrawal .. | .taskDispatch .. | .priorityAging ..
  | .quantumExpiry .. | .taskSuspend .. | .stealAttempt .. | .stealRetry .. | .stealShip .. | .hostWriteIn ..
  | .hostReadIn .. | .hostAtomicopIn .. | .peerPacketIn .. | .storageIngestWrite .. | .linkFailure ..
  | .linkRetrain .. | .linkWidthChange .. | .linkFreqChange .. | .packageReset | .dieTrainingComplete .. | .getVersion
  | .getCapabilities | .negotiateAlgorithms | .getDigests | .getCertificate | .challenge | .getMeasurements
  | .keyExchange | .finish | .leaveWithdrawal .. | .flitReplay .. | .ticketNotice .. => Hdr.zero

/-- The registers SYSWR may write by its plain row; the rows of RTN, HCFG, SHST and KREQ are their own (R183). -/
def SysReg.writable : SysReg → Bool
  | .wlim | .flg | .spx | .spc | .wsp | .rpr | .xstate | .xpc | .xlm | .xb _ | .efcr | .efca | .efmr | .efma | .atbl
  | .evbase | .evctl | .iocfg _ | .inga _ | .ingl _ | .ingc _ => true
  | .cwin | .splim | .sra | .xcause | .xaddr | .xinfo | .cycle | .rtn _ | .shst | .hcfg | .gov | .kreq => false

/-- One check: the error where the condition fails. -/
def chk (ok : Bool) (e : DecErr) : Option DecErr := if ok then none else some e

def int3Err (acc : Ty → Bool) (sat : Bool) (f : Int3) : Option DecErr :=
  firstErr [chk (acc f.ty) .badType, chk (sat || !f.sat) .badSat]
def int4Err (acc : Ty → Bool) (f : Int4) : Option DecErr := chk (acc f.ty) .badType
def int2Err (acc : Ty → Bool) (sat : Bool) (f : Int2) : Option DecErr :=
  firstErr [chk (acc f.ty) .badType, chk (sat || !f.sat) .badSat]
def is64 (t : Ty) : Bool := t = .i64 || t = .n64
def fp3Err (rnd : Bool) (acc : Ty → Bool) (f : Fp3) : Option DecErr :=
  firstErr [chk (acc f.ty) .badType, chk (f.rnd = .rne || (rnd && f.rnd ≠ .rs)) .badRound]
def fp2Err (rnd : Bool) (acc : Ty → Bool) (f : Fp2) : Option DecErr :=
  firstErr [chk (acc f.ty) .badType, chk (f.rnd = .rne || (rnd && f.rnd ≠ .rs)) .badRound]
def fp4Err (f : Fp4) : Option DecErr := firstErr [chk f.ty.isArith .badType, chk (f.rnd ≠ .rs) .badRound]

/-- The null descriptor is not an operand of a form that has an optional one. -/
def optErr (o : Option Opnd) : Option DecErr := chk (o ≠ some Opnd.null) .unusedOperand
def immErr {n : Nat} (o : OpImm n) : Option DecErr := optErr o.opnd

/-- MK needs a slice destination (R31). -/
def mkErr (mkd : Bool) (d : Option Opnd) : Option DecErr :=
  firstErr [optErr d, chk (!mkd || d.isSome) .markedNull]

def bfxErr (t : Ty) (pos : BitVec 6) (len : BitVec 7) : Option DecErr :=
  firstErr [chk t.isInt .badType, chk (1 ≤ len.toNat ∧ len.toNat ≤ 64 ∧ pos.toNat + len.toNat ≤ t.bits) .badField]

/-- R122: which pairings, rounding codes and .SAT CVT and CVTS accept. -/
def cvtErr (s : Bool) (f : CvtF) : Option DecErr :=
  firstErr [
    chk ((f.dt ≠ .q2 || f.st.isArith) && (f.st ≠ .q2 || f.dt.isArith)) .badType,
    chk (!s || !f.dt.isInt) .badType,
    chk ((f.rnd ≠ .rs || s) && (!(f.dt.isInt && f.st.isInt) || f.rnd = .rne)) .badRound,
    chk (!f.sat || f.dt.isInt) .badSat]

/-- Where SCOPE is not stated as used it is 00 (R136). -/
def scopeOk (q : Qual) : Bool := q.order = .sync || q.scope = .core
def qualErr (hint byp colour home : Bool) (q : Qual) : Option DecErr :=
  chk ((hint || q.hint = .normal) && (byp || !q.byp) && (colour || q.colour = 0) && (home || q.order ≠ .home)
    && scopeOk q) .badQualifier

def elemErr (byp colour : Bool) (f : ElemF) : Option DecErr :=
  firstErr [chk (f.ty.isArith && f.rnd ≠ .rs) .badField, qualErr true byp colour true f.q, optErr f.index]
def memErr (hint byp colour home : Bool) (f : MemF) : Option DecErr :=
  firstErr [qualErr hint byp colour home f.q, optErr f.index]

/-- R155: relaxed forms have no SCOPE and no MASK, acquire forms no MASK. -/
def orderErr (o : AOrder) (sc : Scope) (m : BitVec 8) : Option DecErr :=
  chk ((o ≠ .relaxed || sc = .core) && ((o ≠ .relaxed && o ≠ .acquire) || m = 0)) .badField

def atomErr (acc : Ty → Bool) (f : AtomF) : Option DecErr :=
  firstErr [chk (acc f.ty) .badType, mkErr f.mkd f.d, orderErr f.order f.scope f.mask]

def cpredTy (t : Ty) : Bool := t.isArith || t = .i32

/-- FA and FB name block formats of equal element count (R196). -/
def mmPair (a b : BFmt) : Bool := a.count = b.count

def blkErr (colour : Bool) (f : BlkF) : Option DecErr :=
  chk (1 ≤ f.count.toNat ∧ f.count.toNat ≤ 32 ∧ (colour ∨ f.colour = 0)) .badField

/-- Bound of an immediate, where one is used. -/
def immOk {n : Nat} (p : Nat → Bool) : OpImm n → Bool
  | .reg _ => true
  | .imm v => p v.toNat

/-- The conditions of R50 that an instruction's description adds to its syntax. -/
def fieldErr : Instr → Option DecErr
  | .add f | .sub f | .mul f | .div f => int3Err Ty.isInt true f
  | .mulh f | .rem f | .min f | .max f | .and f | .or f | .xor f | .andn f => int3Err Ty.isInt false f
  | .addi f => chk f.ty.isInt .badType
  | .mad f | .sad f => int4Err Ty.isInt f
  | .abs f => int2Err Ty.isSigned true f
  | .neg f | .sext f | .zext f => int2Err Ty.isInt true f
  | .clz f | .popc f | .not f => int2Err Ty.isInt false f
  | .mov f => int2Err (fun t => t.isInt || t.isFp) false f
  | .lea f => firstErr [chk (is64 f.ty) .badType, optErr f.index]
  | .aidx f => chk f.ty.isUnsigned .badType
  | .movi f => chk f.ty.isInt .badType
  | .movhi f => chk (is64 f.ty) .badType
  | .cmp f => chk f.ty.isInt .badType
  | .shl f | .shr f | .sar f | .rot f => firstErr [chk f.ty.isInt .badType, immErr f.n]
  | .bfx f => bfxErr f.ty f.pos f.len
  | .bfi f => bfxErr f.ty f.pos f.len
  | .sel f => chk (f.ty.isInt || f.ty.isFp) .badType
  | .pack _ | .unpk _ => none
  | .swz f => firstErr [chk (f.ty.isInt || f.ty.isFp) .badType, optErr (some f.x)]
  | .swzMask f => chk (f.ty.isInt || f.ty.isFp) .badType
  | .bcast f | .lrot f => firstErr [chk (f.ty.isInt || f.ty.isFp) .badType, immErr f.k]
  | .pand _ | .por _ | .pxor _ | .pnot _ => none
  | .pany f | .pall f | .pcnt f => firstErr [chk f.ty.isInt .badType, optErr f.x]
  | .fadd f | .fsub f | .fmul f | .fdiv f | .fscale f => fp3Err true Ty.isArith f
  | .fma f | .fms f | .fnma f => fp4Err f
  | .fmin f | .fmax f => fp3Err false Ty.isFp f
  | .fabs f | .fneg f | .fclass f => fp2Err false Ty.isFp f
  | .fsqrt f | .frcp f | .frsq f | .frnd f => fp2Err true Ty.isArith f
  | .fexp2 f | .flog2 f | .fsin f | .fcos f | .ftanh f | .fred f => fp2Err false Ty.isArith f
  | .fcmp f => chk f.ty.isFp .badType
  | .cvt f => cvtErr false f
  | .cvts f => cvtErr true f
  | .qblk f => firstErr [chk f.st.isArith .badType, chk (f.rnd ≠ .rs) .badRound, optErr f.sc, optErr f.sp,
      chk (f.sp.isNone || f.fmt = .e2m1) .badField]
  | .dqblk f => fp2Err true Ty.isArith f
  | .bhdr f => chk (f.fmt = .e2m1 ∨ f.sp = Opnd.null) .unusedOperand
  | .bset _ | .bchk _ => none
  | .idot4 f => chk (f.ty = .i8 || f.ty = .n8 || f.ty = .i4 || f.ty = .n4) .badType
  | .ld f => memErr true true false true f
  | .st f => memErr true false true true f
  | .gath f => elemErr true false f
  | .scat f => elemErr false true f
  | .pref f => optErr f.index
  | .agldWait _ | .agldTry _ => none
  | .agst f => memErr true false true false f
  | .ldfWf f | .ldfWfc f => memErr false false false false f
  | .stf f => memErr false false true false f
  | .femarkFull f | .femarkEmpty f => immErr f.n
  | .spill f => blkErr true f
  | .fill f => blkErr false f
  | .fenceLL f => chk (f.mask = 0) .badField
  | .fenceSL _ | .fenceSS _ | .fenceFull _ => none
  | .atadd f | .atmin f | .atmax f | .atand f | .ator f | .atxor f | .atxch f => atomErr Ty.isAtomic f
  | .atcas f => firstErr [chk f.ty.isAtomic .badType, mkErr f.mkd f.d, orderErr f.order f.scope f.mask]
  | .atfadd f => atomErr (· = .f32) f
  | .atinc f | .atdec f => atomErr (fun t => t = .n32 || t = .n64) f
  | .waitc _ | .waitcNt _ | .cntadd _ | .cntaddErr _ => none
  | .cntrd f => memErr false false false false f
  | .waitf f => firstErr [chk f.ty.isAtomic .badType, optErr f.m]
  | .iflush _ | .br _ | .brc _ | .jmp _ | .call _ | .calli _ | .ret _ | .loop _ | .safe _ | .rbdone _ | .nop64 _
  | .done _ => none
  | .yield f => immErr f.v
  | .hstart f => firstErr [immErr f.mask, chk (f.vblk.toNat ≤ 32 ∧ 1 ≤ f.sblk.toNat ∧ f.sblk.toNat ≤ 32) .badField]
  | .hjoin f => immErr f.v
  | .spawn f => mkErr f.mkd f.d
  | .idrd f => chk (f.sel ≠ 3 || f.d.isVec) .badField
  | .itset f | .itinc f | .seed f => immErr f.v
  | .itrd _ | .trap _ | .tret _ | .tretNext _ | .sysrd _ | .sysrdClr _ => none
  | .syswr f => chk f.reg.writable .badRegister
  | .syswrRtn _ | .syswrHcfg _ | .syswrShst _ | .syswrKreq _ => none
  | .tlbiAll f => chk (f.scope ≠ .sys) .badField
  | .tlbiAsid f => chk (f.scope ≠ .sys) .badField
  | .tlbiVa f => chk (f.scope ≠ .sys) .badField
  | .objdef _ | .objdefClr _ | .genb _ => none
  | .perf f => chk (f.ev.toNat ≤ 10) .badField
  | .perfClr f => chk (f.ev.toNat ≤ 8) .badField
  | .unpin f => immErr f.v
  | .cpset f => firstErr [chk (f.reg.toNat ≤ 9) .badRegister, immErr f.a]
  | .cpgo f => mkErr f.mkd f.d
  | .cpred f => firstErr [chk (cpredTy f.ty) .badType, mkErr f.mkd f.d]
  | .cpredRanked f => firstErr [chk (cpredTy f.ty) .badType, mkErr f.mkd f.d, chk (f.rank.toNat ≤ f.rmax.toNat) .badField]
  | .cpq f => optErr (some f.x)
  | .cpqCount _ => none
  | .mmcfg f => firstErr [optErr f.ctr, chk (mmPair f.fa f.fb) .badField]
  | .mma f | .mmw f => optErr f.c
  | .mmaRp f | .mmwRp f => optErr f.c
  | .mmrp _ => none
  | .prentOnce f | .prentHold f => immErr f.key
  | .prres _ | .prrel _ => none
  | .leave f => firstErr [immErr f.v, chk (immOk (· ≠ 0) f.v) .badField]
  | .fixedWriteback .. | .longWriteback .. | .waitLimitExpiry .. | .yieldExpiry .. | .fetchBlockRead .. | .tableWalk ..
  | .homeRead .. | .homeWrite .. | .requestResend .. | .l1Fill .. | .mirrorFill .. | .hostReadCompletion ..
  | .zeroLengthReadDone .. | .atomicPointEvent .. | .hostAtomicCompletion .. | .counterUpdate .. | .watchReread ..
  | .watchWithdrawal .. | .ldfAtScratchpad .. | .ldfResend .. | .stfAtScratchpad .. | .granuleWithdrawal ..
  | .agldHomeRequest .. | .agstAtHome .. | .agedWithdrawal .. | .copyPacketIssue .. | .copyPacketLand .. | .peerAck ..
  | .rankedStaging .. | .heavyLeaveRequest .. | .governorGrant .. | .matrixRow .. | .prismEntryRegister ..
  | .prismRoundStart .. | .prismLatch .. | .prismWithdrawal .. | .taskDispatch .. | .priorityAging ..
  | .quantumExpiry .. | .taskSuspend .. | .stealAttempt .. | .stealRetry .. | .stealShip .. | .hostWriteIn ..
  | .hostReadIn .. | .hostAtomicopIn .. | .peerPacketIn .. | .storageIngestWrite .. | .linkFailure ..
  | .linkRetrain .. | .linkWidthChange .. | .linkFreqChange .. | .packageReset | .dieTrainingComplete .. | .getVersion
  | .getCapabilities | .negotiateAlgorithms | .getDigests | .getCertificate | .challenge | .getMeasurements
  | .keyExchange | .finish | .leaveWithdrawal .. | .flitReplay .. | .ticketNotice .. => some .notAnInstruction

/-- An EA bit set for a missing source or for a source field that holds the null descriptor (R40, R44). -/
def eaErr (h : Hdr) (srcs : List (Nat × Option Opnd)) : Option DecErr :=
  let has := fun (n : Nat) => ((srcs[n]?).bind (fun p => p.2)).any (fun o => o ≠ Opnd.null)
  chk ((!h.ea1 || has 0) && (!h.ea2 || has 1) && (!h.ea3 || has 2)) .emptyAction

/-- An MK bit where a slice destination field holds the null descriptor (R31, R50). -/
def nullErr (sh : Shape) : Option DecErr := chk (!sh.mkd || sh.dsts.all (fun d => d.2 ≠ Opnd.null)) .markedNull

/-- The length code is not shorter than the natural format (R37). -/
def lenErr (h : Hdr) (f : Option Fmt) : Option DecErr :=
  match f with
  | some f => chk (f.bytes ≤ h.len.bytes) .shortForm
  | none => some .notAnInstruction

/-- All of R50 that an instruction's syntax leaves to check; none where the encoding is defined. -/
def encErr (i : Instr) : Option DecErr :=
  firstErr [lenErr i.hdr i.fmt, eaErr i.hdr i.shape.srcs, nullErr i.shape, fieldErr i]

end Sys2Proof
end

