-- ==== Sys2Proof/WellFormed.lean ====
section
/-! DEFINITION. A well-formed instruction: one the encoding can hold and R50 does not make undefined. -/

namespace Sys2Proof

/-- No condition of R50 holds of the instruction. -/
abbrev Instr.WellFormed (i : Instr) : Prop := encErr i = none

/-- The constructor is a row an agent issues, not an event. -/
abbrev Instr.IsInstruction (i : Instr) : Prop := i.fmt ≠ none

end Sys2Proof
end

