-- ==== Sys2Proof/Decode.lean ====
section
/-! DEFINITION. The decoder, total on any bytes and rejecting by name, and after it the encoder from the same tables
(R36 to R52, and the field tables of each instruction). A word is a natural number; its fields are listed from bit 0
up as (width, value). -/

namespace Sys2Proof

/-- Bits of a value given field by field, from bit 0 up. -/
def packBits : List (Nat × Nat) → Nat
  | [] => 0
  | (w, v) :: r => v + 2 ^ w * packBits r

/-- The fields of a value, from bit 0 up. -/
def unpackBits : List Nat → Nat → List Nat
  | [], _ => []
  | w :: r, n => n % 2 ^ w :: unpackBits r (n / 2 ^ w)

/-- The value of little-endian bytes (R36). -/
def leVal : List Byte → Nat
  | [] => 0
  | b :: r => b.toNat + 256 * leVal r

/-- The n low bytes of a value, least significant first. -/
def leBytes : Nat → Nat → List Byte
  | 0, _ => []
  | n + 1, v => BitVec.ofNat 8 v :: leBytes n (v / 256)

def boolBit (b : Bool) : Nat := if b then 1 else 0

/-- The fields above the header (R45). -/
inductive Body
  | a64 (o1 o2 imm : Nat)
  | j64 (o1 off : Nat)
  | b96 (o1 o2 o3 m : Nat)
  | m96 (data base index disp qual : Nat)
  | c128 (o1 o2 o3 o4 m imm : Nat)
deriving DecidableEq, Repr

/-- Widths of the header and of each format's fields (R40, R45). -/
def headWidths : List Nat := [2, 10, 4, 1, 1, 1, 1]
def Fmt.widths : Fmt → List Nat
  | .a64 => [16, 16, 12]
  | .j64 => [16, 28]
  | .b96 => [16, 16, 16, 28]
  | .m96 => [16, 16, 16, 16, 12]
  | .c128 => [16, 16, 16, 16, 12, 32]

def Body.fmt : Body → Fmt
  | .a64 .. => .a64 | .j64 .. => .j64 | .b96 .. => .b96 | .m96 .. => .m96 | .c128 .. => .c128

def Body.vals : Body → List Nat
  | .a64 a b i => [a, b, i]
  | .j64 a o => [a, o]
  | .b96 a b c m => [a, b, c, m]
  | .m96 d b i s q => [d, b, i, s, q]
  | .c128 a b c d m i => [a, b, c, d, m, i]

def bodyOf : Fmt → List Nat → Option Body
  | .a64, [a, b, i] => some (.a64 a b i)
  | .j64, [a, o] => some (.j64 a o)
  | .b96, [a, b, c, m] => some (.b96 a b c m)
  | .m96, [d, b, i, s, q] => some (.m96 d b i s q)
  | .c128, [a, b, c, d, m, i] => some (.c128 a b c d m i)
  | _, _ => none

/-! Codes of the small fields. -/

def Len.code : Len → Nat
  | .b8 => 0 | .b12 => 1 | .b16 => 2
def lenOf : Nat → Option Len
  | 0 => some .b8 | 1 => some .b12 | 2 => some .b16 | _ => none

def FileId.code : FileId → Nat
  | .v => 0 | .s => 1 | .g => 2 | .h => 3
def fileOf (n : Nat) : FileId :=
  match n % 4 with
  | 0 => .v | 1 => .s | 2 => .g | _ => .h

def WCode.code : WCode → Nat
  | .w1 => 0 | .w2 => 1 | .w3 => 2 | .w4 => 3 | .w6 => 4 | .w8 => 5 | .w16 => 6 | .w32 => 7
def wcodeOf (n : Nat) : WCode :=
  match n % 8 with
  | 0 => .w1 | 1 => .w2 | 2 => .w3 | 3 => .w4 | 4 => .w6 | 5 => .w8 | 6 => .w16 | _ => .w32

/-- The 16-bit descriptor of an operand, and back (R42). -/
def Opnd.code (o : Opnd) : Nat := o.start.toNat + 2048 * o.w.code + 16384 * o.file.code
def opndOf (n : Nat) : Opnd := ⟨fileOf (n / 16384), wcodeOf (n / 2048), BitVec.ofNat 11 n⟩

/-- The null descriptor's bits (R43). -/
def nullCode : Nat := 65535
def optCode (o : Option Opnd) : Nat := (o.map Opnd.code).getD nullCode
def optOf (n : Nat) : Option Opnd := if n = nullCode then none else some (opndOf n)

/-- An operand, or an immediate where the operand field is null (R167): the two fields. -/
def OpImm.codes {n : Nat} : OpImm n → Nat × Nat
  | .reg o => (o.code, 0)
  | .imm v => (nullCode, v.toNat)
def opImmOf (n op v : Nat) : Except DecErr (OpImm n) :=
  if op = nullCode then .ok (.imm (BitVec.ofNat n v))
  else if v = 0 then .ok (.reg (opndOf op)) else .error .unassignedBits

def Ty.code : Ty → Nat
  | .i4 => 1 | .i8 => 2 | .i12 => 3 | .i16 => 4 | .i24 => 5 | .i32 => 6 | .i64 => 7
  | .n4 => 9 | .n8 => 10 | .n12 => 11 | .n16 => 12 | .n24 => 13 | .n32 => 14 | .n64 => 15
  | .f32 => 17 | .f16 => 18 | .b16 => 19 | .e4 => 20 | .e5 => 21 | .q2 => 24
def tyOf : Nat → Except DecErr Ty
  | 1 => .ok .i4 | 2 => .ok .i8 | 3 => .ok .i12 | 4 => .ok .i16 | 5 => .ok .i24 | 6 => .ok .i32 | 7 => .ok .i64
  | 9 => .ok .n4 | 10 => .ok .n8 | 11 => .ok .n12 | 12 => .ok .n16 | 13 => .ok .n24 | 14 => .ok .n32 | 15 => .ok .n64
  | 17 => .ok .f32 | 18 => .ok .f16 | 19 => .ok .b16 | 20 => .ok .e4 | 21 => .ok .e5 | 24 => .ok .q2
  | _ => .error .badType

def Rnd.code : Rnd → Nat
  | .rne => 0 | .rtz => 1 | .rup => 2 | .rdn => 3 | .rna => 4 | .rs => 5
def rndOf : Nat → Except DecErr Rnd
  | 0 => .ok .rne | 1 => .ok .rtz | 2 => .ok .rup | 3 => .ok .rdn | 4 => .ok .rna | 5 => .ok .rs
  | _ => .error .badRound

def Scope.code : Scope → Nat
  | .core => 0 | .die => 1 | .pkg => 2 | .sys => 3
def scopeOf (n : Nat) : Scope :=
  match n % 4 with
  | 0 => .core | 1 => .die | 2 => .pkg | _ => .sys

def CC.code : CC → Nat
  | .eq => 0 | .ne => 1 | .lt => 2 | .le => 3 | .gt => 4 | .ge => 5
def ccOf : Nat → Except DecErr CC
  | 0 => .ok .eq | 1 => .ok .ne | 2 => .ok .lt | 3 => .ok .le | 4 => .ok .gt | 5 => .ok .ge | _ => .error .badField

def FCC.code : FCC → Nat
  | .eq => 0 | .ne => 1 | .lt => 2 | .le => 3 | .gt => 4 | .ge => 5 | .un => 6 | .or => 7
def fccOf (n : Nat) : FCC :=
  match n % 8 with
  | 0 => .eq | 1 => .ne | 2 => .lt | 3 => .le | 4 => .gt | 5 => .ge | 6 => .un | _ => .or

def bfmtOf : Nat → Except DecErr BFmt
  | 1 => .ok .fp32 | 2 => .ok .fp16 | 3 => .ok .bf16 | 4 => .ok .e4m3 | 5 => .ok .e5m2 | 6 => .ok .e2m1 | 7 => .ok .i8
  | 8 => .ok .i4 | _ => .error .badField

def cfmtOf : Nat → Except DecErr CFmt
  | 1 => .ok .fp32 | 2 => .ok .fp16 | 3 => .ok .bf16 | 4 => .ok .e4m3 | 5 => .ok .e5m2 | _ => .error .badField
def optCfmtOf (n : Nat) : Except DecErr (Option CFmt) := if n = 0 then .ok none else (cfmtOf n).map some

def Hint.code : Hint → Nat
  | .normal => 0 | .evictFirst => 1 | .keep => 2 | .noAlloc => 3
def hintOf (n : Nat) : Hint :=
  match n % 4 with
  | 0 => .normal | 1 => .evictFirst | 2 => .keep | _ => .noAlloc

def MOrder.code : MOrder → Nat
  | .plain => 0 | .sync => 1 | .home => 2
def morderOf : Nat → Except DecErr MOrder
  | 0 => .ok .plain | 1 => .ok .sync | 2 => .ok .home | _ => .error .badQualifier

def AOrder.code : AOrder → Nat
  | .relaxed => 0 | .acquire => 1 | .release => 2 | .acqRel => 3
def aorderOf (n : Nat) : AOrder :=
  match n % 4 with
  | 0 => .relaxed | 1 => .acquire | 2 => .release | _ => .acqRel

/-- The M96 qualifier with its FEACT code (R49). -/
def qualWidths : List Nat := [2, 1, 3, 2, 2, 2]
def Qual.bits (q : Qual) (feact : Nat) : Nat :=
  packBits [(2, q.hint.code), (1, boolBit q.byp), (3, q.colour.toNat), (2, feact), (2, q.order.code), (2, q.scope.code)]
def qualOf (n : Nat) : Except DecErr (Qual × Nat) :=
  match unpackBits qualWidths n with
  | [h, b, c, f, o, s] => do
    let o ← morderOf o
    .ok (⟨scopeOf s, o, BitVec.ofNat 3 c, b == 1, hintOf h⟩, f)
  | _ => .error .badQualifier

/-- Numbers of the system registers (R183 and the tables it gathers). -/
def SysReg.code : SysReg → Nat
  | .cwin => 0x000 | .wlim => 0x001 | .flg => 0x002 | .spx => 0x003 | .spc => 0x004 | .splim => 0x005 | .sra => 0x006
  | .wsp => 0x007 | .rpr => 0x008 | .xstate => 0x009 | .xpc => 0x00A | .xcause => 0x00B | .xaddr => 0x00C
  | .xinfo => 0x00D | .xlm => 0x00E | .xb q => 0x010 + q.toNat | .cycle => 0x020 | .efcr => 0x030 | .efca => 0x031
  | .efmr => 0x032 | .efma => 0x033 | .rtn n => 0x040 + n.toNat | .atbl => 0x050 | .shst => 0x051 | .evbase => 0x052
  | .evctl => 0x053 | .hcfg => 0x054 | .iocfg n => 0x058 + n.val | .inga n => 0x060 + n.toNat
  | .ingl n => 0x064 + n.toNat | .ingc n => 0x068 + n.toNat | .gov => 0x06C | .kreq => 0x06D

def sysRegOf (n : Nat) : Except DecErr SysReg :=
  match n with
  | 0x000 => .ok .cwin | 0x001 => .ok .wlim | 0x002 => .ok .flg | 0x003 => .ok .spx | 0x004 => .ok .spc
  | 0x005 => .ok .splim | 0x006 => .ok .sra | 0x007 => .ok .wsp | 0x008 => .ok .rpr | 0x009 => .ok .xstate
  | 0x00A => .ok .xpc | 0x00B => .ok .xcause | 0x00C => .ok .xaddr | 0x00D => .ok .xinfo | 0x00E => .ok .xlm
  | 0x010 => .ok (.xb 0) | 0x011 => .ok (.xb 1) | 0x012 => .ok (.xb 2) | 0x013 => .ok (.xb 3) | 0x020 => .ok .cycle
  | 0x030 => .ok .efcr | 0x031 => .ok .efca | 0x032 => .ok .efmr | 0x033 => .ok .efma
  | 0x040 => .ok (.rtn 0) | 0x041 => .ok (.rtn 1) | 0x042 => .ok (.rtn 2) | 0x043 => .ok (.rtn 3)
  | 0x044 => .ok (.rtn 4) | 0x045 => .ok (.rtn 5) | 0x046 => .ok (.rtn 6) | 0x047 => .ok (.rtn 7)
  | 0x050 => .ok .atbl | 0x051 => .ok .shst | 0x052 => .ok .evbase | 0x053 => .ok .evctl | 0x054 => .ok .hcfg
  | 0x058 => .ok (.iocfg 0) | 0x059 => .ok (.iocfg 1) | 0x05A => .ok (.iocfg 2) | 0x05B => .ok (.iocfg 3)
  | 0x05C => .ok (.iocfg 4) | 0x05D => .ok (.iocfg 5)
  | 0x060 => .ok (.inga 0) | 0x061 => .ok (.inga 1) | 0x062 => .ok (.inga 2) | 0x063 => .ok (.inga 3)
  | 0x064 => .ok (.ingl 0) | 0x065 => .ok (.ingl 1) | 0x066 => .ok (.ingl 2) | 0x067 => .ok (.ingl 3)
  | 0x068 => .ok (.ingc 0) | 0x069 => .ok (.ingc 1) | 0x06A => .ok (.ingc 2) | 0x06B => .ok (.ingc 3)
  | 0x06C => .ok .gov | 0x06D => .ok .kreq
  | _ => .error .badRegister

/-! The modifier fields (R46) and the fields of the instructions. -/

/-- The standard sub-fields of a modifier: TYPE, RND, SAT, MK, then the rest (R46). -/
def stdMod (ty rnd : Nat) (sat mkd : Bool) (xf : List (Nat × Nat)) : Nat :=
  packBits ([(5, ty), (3, rnd), (1, boolBit sat), (1, boolBit mkd)] ++ xf)

/-- A check of the decoder. -/
def need (ok : Bool) (e : DecErr) : Except DecErr Unit := if ok then .ok () else .error e

/-- An unused operand field holds the null descriptor (R43). -/
def unused (n : Nat) : Except DecErr Unit := need (n == nullCode) .unusedOperand
def zero (n : Nat) : Except DecErr Unit := need (n == 0) .unassignedBits
def noRnd (n : Nat) : Except DecErr Unit := need (n == 0) .badRound
def noSat (n : Nat) : Except DecErr Unit := need (n == 0) .badSat

/-- An integer form of B96 with three operands. -/
def encInt3 (f : Int3) : Body := .b96 f.d.code f.a.code f.b.code (stdMod f.ty.code 0 f.sat f.mkd [(18, 0)])
def decInt3 (h : Hdr) : Body → Except DecErr Int3
  | .b96 a b c m =>
    match unpackBits [5, 3, 1, 1, 18] m with
    | [t, r, s, k, x] => do
      let t ← tyOf t; noRnd r; zero x
      .ok ⟨h, t, s == 1, k == 1, opndOf a, opndOf b, opndOf c⟩
    | _ => .error .unassignedBits
  | _ => .error .unassignedOpcode

def encAddI (f : AddI) : Body :=
  .c128 f.d.code f.a.code nullCode nullCode (stdMod f.ty.code 0 f.sat f.mkd [(2, 0)]) f.imm.toNat
def decAddI (h : Hdr) : Body → Except DecErr AddI
  | .c128 a b c d m i =>
    match unpackBits [5, 3, 1, 1, 2] m with
    | [t, r, s, k, x] => do
      let t ← tyOf t; noRnd r; zero x; unused c; unused d
      .ok ⟨h, t, s == 1, k == 1, opndOf a, opndOf b, BitVec.ofNat 32 i⟩
    | _ => .error .unassignedBits
  | _ => .error .unassignedOpcode

def encInt4 (f : Int4) : Body :=
  .c128 f.d.code f.a.code f.b.code f.c.code (stdMod f.ty.code 0 f.sat f.mkd [(2, 0)]) 0
def decInt4 (h : Hdr) : Body → Except DecErr Int4
  | .c128 a b c d m i =>
    match unpackBits [5, 3, 1, 1, 2] m with
    | [t, r, s, k, x] => do
      let t ← tyOf t; noRnd r; zero x; zero i
      .ok ⟨h, t, s == 1, k == 1, opndOf a, opndOf b, opndOf c, opndOf d⟩
    | _ => .error .unassignedBits
  | _ => .error .unassignedOpcode

def encInt2 (f : Int2) : Body := .a64 f.d.code f.a.code (stdMod f.ty.code 0 f.sat f.mkd [(2, 0)])
def decInt2 (h : Hdr) : Body → Except DecErr Int2
  | .a64 a b m =>
    match unpackBits [5, 3, 1, 1, 2] m with
    | [t, r, s, k, x] => do
      let t ← tyOf t; noRnd r; zero x
      .ok ⟨h, t, s == 1, k == 1, opndOf a, opndOf b⟩
    | _ => .error .unassignedBits
  | _ => .error .unassignedOpcode

def encLea (f : LeaF) : Body :=
  .c128 f.d.code f.base.code (optCode f.index) nullCode (stdMod f.ty.code 0 false f.mkd [(2, f.sh.toNat)]) f.disp.toNat
def decLea (h : Hdr) : Body → Except DecErr LeaF
  | .c128 a b c d m i =>
    match unpackBits [5, 3, 1, 1, 2] m with
    | [t, r, s, k, x] => do
      let t ← tyOf t; noRnd r; noSat s; unused d
      .ok ⟨h, t, k == 1, opndOf a, opndOf b, optOf c, BitVec.ofNat 2 x, BitVec.ofNat 32 i⟩
    | _ => .error .unassignedBits
  | _ => .error .unassignedOpcode

def encAidx (f : AidxF) : Body :=
  .b96 f.dblk.code f.doff.code f.j.code (stdMod f.ty.code 0 false f.mkd [(5, f.fmt.code), (13, 0)])
def decAidx (h : Hdr) : Body → Except DecErr AidxF
  | .b96 a b c m =>
    match unpackBits [5, 3, 1, 1, 5, 13] m with
    | [t, r, s, k, f, x] => do
      let t ← tyOf t; noRnd r; noSat s; zero x
      let f ← bfmtOf f
      .ok ⟨h, t, k == 1, opndOf a, opndOf b, opndOf c, f⟩
    | _ => .error .unassignedBits
  | _ => .error .unassignedOpcode

def encMovI (f : MovI) : Body :=
  .c128 f.d.code nullCode nullCode nullCode (stdMod f.ty.code 0 false f.mkd [(2, 0)]) f.imm.toNat
def decMovI (h : Hdr) : Body → Except DecErr MovI
  | .c128 a b c d m i =>
    match unpackBits [5, 3, 1, 1, 2] m with
    | [t, r, s, k, x] => do
      let t ← tyOf t; noRnd r; noSat s; zero x; unused b; unused c; unused d
      .ok ⟨h, t, k == 1, opndOf a, BitVec.ofNat 32 i⟩
    | _ => .error .unassignedBits
  | _ => .error .unassignedOpcode

def encCmp (f : CmpF) : Body :=
  .b96 f.a.code f.b.code nullCode (stdMod f.ty.code 0 false false [(4, f.pd.toNat), (3, f.cc.code), (11, 0)])
def decCmp (h : Hdr) : Body → Except DecErr CmpF
  | .b96 a b c m =>
    match unpackBits [5, 3, 1, 1, 4, 3, 11] m with
    | [t, r, s, k, p, cc, x] => do
      let t ← tyOf t; noRnd r; noSat s; zero k; zero x; unused c
      let cc ← ccOf cc
      .ok ⟨h, t, cc, BitVec.ofNat 4 p, opndOf a, opndOf b⟩
    | _ => .error .unassignedBits
  | _ => .error .unassignedOpcode

def encShift (f : ShiftF) : Body :=
  .b96 f.d.code f.a.code f.n.codes.1 (stdMod f.ty.code 0 false f.mkd [(7, f.n.codes.2), (11, 0)])
def decShift (h : Hdr) : Body → Except DecErr ShiftF
  | .b96 a b c m =>
    match unpackBits [5, 3, 1, 1, 7, 11] m with
    | [t, r, s, k, n, x] => do
      let t ← tyOf t; noRnd r; noSat s; zero x
      let n ← opImmOf 7 c n
      .ok ⟨h, t, k == 1, opndOf a, opndOf b, n⟩
    | _ => .error .unassignedBits
  | _ => .error .unassignedOpcode

def encBfx (f : BfxF) : Body :=
  .b96 f.d.code f.a.code nullCode (stdMod f.ty.code 0 false f.mkd [(6, f.pos.toNat), (7, f.len.toNat), (5, 0)])
def decBfx (h : Hdr) : Body → Except DecErr BfxF
  | .b96 a b c m =>
    match unpackBits [5, 3, 1, 1, 6, 7, 5] m with
    | [t, r, s, k, p, l, x] => do
      let t ← tyOf t; noRnd r; noSat s; zero x; unused c
      .ok ⟨h, t, k == 1, opndOf a, opndOf b, BitVec.ofNat 6 p, BitVec.ofNat 7 l⟩
    | _ => .error .unassignedBits
  | _ => .error .unassignedOpcode

def encBfi (f : BfiF) : Body :=
  .b96 f.d.code f.a.code f.b.code (stdMod f.ty.code 0 false f.mkd [(6, f.pos.toNat), (7, f.len.toNat), (5, 0)])
def decBfi (h : Hdr) : Body → Except DecErr BfiF
  | .b96 a b c m =>
    match unpackBits [5, 3, 1, 1, 6, 7, 5] m with
    | [t, r, s, k, p, l, x] => do
      let t ← tyOf t; noRnd r; noSat s; zero x
      .ok ⟨h, t, k == 1, opndOf a, opndOf b, opndOf c, BitVec.ofNat 6 p, BitVec.ofNat 7 l⟩
    | _ => .error .unassignedBits
  | _ => .error .unassignedOpcode

def encSel (f : SelF) : Body :=
  .b96 f.d.code f.a.code f.b.code (stdMod f.ty.code 0 false f.mkd [(4, f.ps.toNat), (14, 0)])
def decSel (h : Hdr) : Body → Except DecErr SelF
  | .b96 a b c m =>
    match unpackBits [5, 3, 1, 1, 4, 14] m with
    | [t, r, s, k, p, x] => do
      let t ← tyOf t; noRnd r; noSat s; zero x
      .ok ⟨h, t, k == 1, opndOf a, opndOf b, opndOf c, BitVec.ofNat 4 p⟩
    | _ => .error .unassignedBits
  | _ => .error .unassignedOpcode

def encPack (f : PackF) : Body := .b96 f.d.code f.a.code f.b.code (stdMod 0 0 false f.mkd [(18, 0)])
def decPack (h : Hdr) : Body → Except DecErr PackF
  | .b96 a b c m =>
    match unpackBits [5, 3, 1, 1, 18] m with
    | [t, r, s, k, x] => do
      need (t == 0) .badType; noRnd r; noSat s; zero x
      .ok ⟨h, k == 1, opndOf a, opndOf b, opndOf c⟩
    | _ => .error .unassignedBits
  | _ => .error .unassignedOpcode

def encUnpk (f : UnpkF) : Body := .b96 f.d1.code f.d2.code f.a.code (stdMod 0 0 false f.mkd [(18, 0)])
def decUnpk (h : Hdr) : Body → Except DecErr UnpkF
  | .b96 a b c m =>
    match unpackBits [5, 3, 1, 1, 18] m with
    | [t, r, s, k, x] => do
      need (t == 0) .badType; noRnd r; noSat s; zero x
      .ok ⟨h, k == 1, opndOf a, opndOf b, opndOf c⟩
    | _ => .error .unassignedBits
  | _ => .error .unassignedOpcode

/-- SWZ with an operand selector, or with m and k where op3 is null (R108). -/
def encSwz (f : SwzF) : Body :=
  .c128 f.d.code f.a.code f.x.code nullCode (stdMod f.ty.code 0 false f.mkd [(2, 0)]) 0
def encSwzM (f : SwzMF) : Body :=
  .c128 f.d.code f.a.code nullCode nullCode (stdMod f.ty.code 0 false f.mkd [(2, 0)])
    (packBits [(6, f.m.toNat), (2, 0), (6, f.k.toNat), (18, 0)])
def decSwz (h : Hdr) : Body → Except DecErr Instr
  | .c128 a b c d m i =>
    match unpackBits [5, 3, 1, 1, 2] m with
    | [t, r, s, k, x] => do
      let t ← tyOf t; noRnd r; noSat s; zero x; unused d
      if c = nullCode then
        match unpackBits [6, 2, 6, 18] i with
        | [mm, y, kk, z] => do
          zero y; zero z
          .ok (.swzMask ⟨h, t, k == 1, opndOf a, opndOf b, BitVec.ofNat 6 mm, BitVec.ofNat 6 kk⟩)
        | _ => .error .unassignedBits
      else do
        zero i
        .ok (.swz ⟨h, t, k == 1, opndOf a, opndOf b, opndOf c⟩)
    | _ => .error .unassignedBits
  | _ => .error .unassignedOpcode

def encLane (f : LaneF) : Body :=
  .b96 f.d.code f.a.code f.k.codes.1 (stdMod f.ty.code 0 false f.mkd [(6, f.k.codes.2), (12, 0)])
def decLane (h : Hdr) : Body → Except DecErr LaneF
  | .b96 a b c m =>
    match unpackBits [5, 3, 1, 1, 6, 12] m with
    | [t, r, s, k, n, x] => do
      let t ← tyOf t; noRnd r; noSat s; zero x
      let n ← opImmOf 6 c n
      .ok ⟨h, t, k == 1, opndOf a, opndOf b, n⟩
    | _ => .error .unassignedBits
  | _ => .error .unassignedOpcode

def predWidths : List Nat := [5, 3, 1, 1, 4, 4, 4, 6]
def encPred3 (f : Pred3) : Body :=
  .b96 nullCode nullCode nullCode (stdMod 0 0 false false [(4, f.pd.toNat), (4, f.pa.toNat), (4, f.pb.toNat), (6, 0)])
def decPred3 (h : Hdr) : Body → Except DecErr Pred3
  | .b96 a b c m =>
    match unpackBits predWidths m with
    | [t, r, s, k, d, p, q, x] => do
      need (t == 0) .badType; noRnd r; noSat s; zero k; zero x; unused a; unused b; unused c
      .ok ⟨h, BitVec.ofNat 4 d, BitVec.ofNat 4 p, BitVec.ofNat 4 q⟩
    | _ => .error .unassignedBits
  | _ => .error .unassignedOpcode

def encPred2 (f : Pred2) : Body :=
  .b96 nullCode nullCode nullCode (stdMod 0 0 false false [(4, f.pd.toNat), (4, f.pa.toNat), (4, 0), (6, 0)])
def decPred2 (h : Hdr) (b : Body) : Except DecErr Pred2 := do
  let f ← decPred3 h b
  zero f.pb.toNat
  .ok ⟨h, f.pd, f.pa⟩

def encPRed (f : PRedF) : Body :=
  .b96 f.d.code (optCode f.x) nullCode (stdMod f.ty.code 0 false f.mkd [(4, 0), (4, f.pa.toNat), (10, 0)])
def decPRed (h : Hdr) : Body → Except DecErr PRedF
  | .b96 a b c m =>
    match unpackBits [5, 3, 1, 1, 4, 4, 10] m with
    | [t, r, s, k, z, p, x] => do
      let t ← tyOf t; noRnd r; noSat s; zero z; zero x; unused c
      .ok ⟨h, t, k == 1, opndOf a, optOf b, BitVec.ofNat 4 p⟩
    | _ => .error .unassignedBits
  | _ => .error .unassignedOpcode

def encFp3 (f : Fp3) : Body := .b96 f.d.code f.a.code f.b.code (stdMod f.ty.code f.rnd.code false f.mkd [(18, 0)])
def decFp3 (h : Hdr) : Body → Except DecErr Fp3
  | .b96 a b c m =>
    match unpackBits [5, 3, 1, 1, 18] m with
    | [t, r, s, k, x] => do
      let t ← tyOf t; noSat s; zero x
      let r ← rndOf r
      .ok ⟨h, t, r, k == 1, opndOf a, opndOf b, opndOf c⟩
    | _ => .error .unassignedBits
  | _ => .error .unassignedOpcode

def encFp4 (f : Fp4) : Body :=
  .c128 f.d.code f.a.code f.b.code f.c.code (stdMod f.ty.code f.rnd.code false f.mkd [(2, 0)]) 0
def decFp4 (h : Hdr) : Body → Except DecErr Fp4
  | .c128 a b c d m i =>
    match unpackBits [5, 3, 1, 1, 2] m with
    | [t, r, s, k, x] => do
      let t ← tyOf t; noSat s; zero x; zero i
      let r ← rndOf r
      .ok ⟨h, t, r, k == 1, opndOf a, opndOf b, opndOf c, opndOf d⟩
    | _ => .error .unassignedBits
  | _ => .error .unassignedOpcode

def encFp2 (f : Fp2) : Body := .a64 f.d.code f.a.code (stdMod f.ty.code f.rnd.code false f.mkd [(2, 0)])
def decFp2 (h : Hdr) : Body → Except DecErr Fp2
  | .a64 a b m =>
    match unpackBits [5, 3, 1, 1, 2] m with
    | [t, r, s, k, x] => do
      let t ← tyOf t; noSat s; zero x
      let r ← rndOf r
      .ok ⟨h, t, r, k == 1, opndOf a, opndOf b⟩
    | _ => .error .unassignedBits
  | _ => .error .unassignedOpcode

/-- DQBLK is C128 (R126). -/
def encDqblk (f : Fp2) : Body :=
  .c128 f.d.code f.a.code nullCode nullCode (stdMod f.ty.code f.rnd.code false f.mkd [(2, 0)]) 0
def decDqblk (h : Hdr) : Body → Except DecErr Fp2
  | .c128 a b c d m i =>
    match unpackBits [5, 3, 1, 1, 2] m with
    | [t, r, s, k, x] => do
      let t ← tyOf t; noSat s; zero x; zero i; unused c; unused d
      let r ← rndOf r
      .ok ⟨h, t, r, k == 1, opndOf a, opndOf b⟩
    | _ => .error .unassignedBits
  | _ => .error .unassignedOpcode

def encFcmp (f : FcmpF) : Body :=
  .b96 f.a.code f.b.code nullCode (stdMod f.ty.code 0 false false [(4, f.pd.toNat), (3, f.cc.code), (11, 0)])
def decFcmp (h : Hdr) : Body → Except DecErr FcmpF
  | .b96 a b c m =>
    match unpackBits [5, 3, 1, 1, 4, 3, 11] m with
    | [t, r, s, k, p, cc, x] => do
      let t ← tyOf t; noRnd r; noSat s; zero k; zero x; unused c
      .ok ⟨h, t, fccOf cc, BitVec.ofNat 4 p, opndOf a, opndOf b⟩
    | _ => .error .unassignedBits
  | _ => .error .unassignedOpcode

def encCvt (f : CvtF) : Body :=
  .b96 f.d.code f.a.code nullCode (stdMod f.dt.code f.rnd.code f.sat f.mkd [(5, f.st.code), (13, 0)])
def decCvt (h : Hdr) : Body → Except DecErr CvtF
  | .b96 a b c m =>
    match unpackBits [5, 3, 1, 1, 5, 13] m with
    | [t, r, s, k, u, x] => do
      let t ← tyOf t; zero x; unused c
      let u ← tyOf u
      let r ← rndOf r
      .ok ⟨h, t, u, r, s == 1, k == 1, opndOf a, opndOf b⟩
    | _ => .error .unassignedBits
  | _ => .error .unassignedOpcode

def encQblk (f : QblkF) : Body :=
  .c128 f.d.code f.a.code (optCode f.sc) (optCode f.sp) (stdMod f.st.code f.rnd.code false f.mkd [(2, 0)])
    (packBits [(5, f.fmt.code), (27, 0)])
def decQblk (h : Hdr) : Body → Except DecErr QblkF
  | .c128 a b c d m i =>
    match unpackBits [5, 3, 1, 1, 2] m, unpackBits [5, 27] i with
    | [t, r, s, k, x], [f, y] => do
      let t ← tyOf t; noSat s; zero x; zero y
      let r ← rndOf r
      let f ← bfmtOf f
      .ok ⟨h, t, r, k == 1, opndOf a, opndOf b, f, optOf c, optOf d⟩
    | _, _ => .error .unassignedBits
  | _ => .error .unassignedOpcode

def encBhdr (f : BhdrF) : Body :=
  .b96 f.d.code f.sc.code f.sp.code (stdMod 0 0 false f.mkd [(5, f.fmt.code), (13, 0)])
def decBhdr (h : Hdr) : Body → Except DecErr BhdrF
  | .b96 a b c m =>
    match unpackBits [5, 3, 1, 1, 5, 13] m with
    | [t, r, s, k, f, x] => do
      need (t == 0) .badType; noRnd r; noSat s; zero x
      let f ← bfmtOf f
      .ok ⟨h, k == 1, opndOf a, opndOf b, opndOf c, f⟩
    | _ => .error .unassignedBits
  | _ => .error .unassignedOpcode

def encBset (f : BsetF) : Body := .b96 f.d.code f.i.code f.c.code (stdMod 0 0 false f.mkd [(18, 0)])
def decBset (h : Hdr) : Body → Except DecErr BsetF
  | .b96 a b c m =>
    match unpackBits [5, 3, 1, 1, 18] m with
    | [t, r, s, k, x] => do
      need (t == 0) .badType; noRnd r; noSat s; zero x
      .ok ⟨h, k == 1, opndOf a, opndOf b, opndOf c⟩
    | _ => .error .unassignedBits
  | _ => .error .unassignedOpcode

def encBchk (f : BchkF) : Body :=
  .b96 f.a.code nullCode nullCode (stdMod 0 0 false false [(4, f.pd.toNat), (4, f.pf.toNat), (10, 0)])
def decBchk (h : Hdr) : Body → Except DecErr BchkF
  | .b96 a b c m =>
    match unpackBits [5, 3, 1, 1, 4, 4, 10] m with
    | [t, r, s, k, p, q, x] => do
      need (t == 0) .badType; noRnd r; noSat s; zero k; zero x; unused b; unused c
      .ok ⟨h, BitVec.ofNat 4 p, BitVec.ofNat 4 q, opndOf a⟩
    | _ => .error .unassignedBits
  | _ => .error .unassignedOpcode

/-- M96 with a data operand; FEACT is the row's (R49, R136). -/
def encMem (feact : Nat) (f : MemF) : Body :=
  .m96 f.data.code f.base.code (optCode f.index) f.disp.toNat (f.q.bits feact)
def decMem (h : Hdr) : Body → Except DecErr (MemF × Nat)
  | .m96 d b i s q => do
    let q ← qualOf q
    .ok (⟨h, opndOf d, opndOf b, optOf i, BitVec.ofNat 16 s, q.1⟩, q.2)
  | _ => .error .unassignedOpcode
def decMemAs (fe : Nat) (h : Hdr) (b : Body) : Except DecErr MemF := do
  let f ← decMem h b
  need (f.2 == fe) .badQualifier
  .ok f.1

def encElem (f : ElemF) : Body :=
  .m96 f.data.code f.base.code (optCode f.index) (packBits [(5, f.ty.code), (3, f.rnd.code), (8, 0)]) (f.q.bits 0)
def decElem (h : Hdr) : Body → Except DecErr ElemF
  | .m96 d b i s q =>
    match unpackBits [5, 3, 8] s with
    | [t, r, x] => do
      let q ← qualOf q
      need (q.2 == 0) .badQualifier; zero x
      let t ← tyOf t
      let r ← rndOf r
      .ok ⟨h, opndOf d, opndOf b, optOf i, t, r, q.1⟩
    | _ => .error .unassignedBits
  | _ => .error .unassignedOpcode

def encPref (f : PrefF) : Body :=
  .m96 nullCode f.base.code (optCode f.index) f.disp.toNat (Qual.bits ⟨.core, .plain, 0, f.byp, f.hint⟩ 0)
def decPref (h : Hdr) : Body → Except DecErr PrefF
  | .m96 d b i s q => do
    let q ← qualOf q
    unused d
    need (q.2 == 0 && q.1.scope == .core && q.1.order == .plain && q.1.colour == 0) .badQualifier
    .ok ⟨h, opndOf b, optOf i, BitVec.ofNat 16 s, q.1.byp, q.1.hint⟩
  | _ => .error .unassignedOpcode

def encAgld (mode : Nat) (f : AgldF) : Body :=
  .c128 f.dv.code f.da.code f.base.code nullCode
    (packBits [(4, f.pa.toNat), (1, 0), (4, f.pf.toNat), (1, boolBit f.mkd), (2, mode)])
    (packBits [(16, f.lag.toNat), (16, f.disp.toNat)])
def decAgld (h : Hdr) : Body → Except DecErr Instr
  | .c128 a b c d m i =>
    match unpackBits [4, 1, 4, 1, 2] m, unpackBits [16, 16] i with
    | [pa, z, pf, k, mode], [l, s] => do
      zero z; unused d
      let f : AgldF := ⟨h, k == 1, opndOf a, opndOf b, opndOf c, BitVec.ofNat 16 s, BitVec.ofNat 16 l,
        BitVec.ofNat 4 pf, BitVec.ofNat 4 pa⟩
      match mode with
      | 0 => .ok (.agldWait f)
      | 1 => .ok (.agldTry f)
      | _ => .error .badField
    | _, _ => .error .unassignedBits
  | _ => .error .unassignedOpcode

def encFemark (full : Bool) (f : FemarkF) : Body :=
  .c128 f.base.code f.n.codes.1 nullCode nullCode (packBits [(10, 0), (1, boolBit full), (1, 0)]) f.n.codes.2
def decFemark (h : Hdr) : Body → Except DecErr Instr
  | .c128 a b c d m i =>
    match unpackBits [10, 1, 1] m with
    | [x, f, y] => do
      zero x; zero y; unused c; unused d
      let n ← opImmOf 32 b i
      .ok (if f == 1 then .femarkFull ⟨h, opndOf a, n⟩ else .femarkEmpty ⟨h, opndOf a, n⟩)
    | _ => .error .unassignedBits
  | _ => .error .unassignedOpcode

def encBlk (f : BlkF) : Body :=
  .c128 f.base.code nullCode nullCode nullCode 0
    (packBits [(2, f.file.code), (6, 0), (5, f.first.toNat), (3, 0), (6, f.count.toNat), (2, 0), (3, f.colour.toNat),
      (5, 0)])
def decBlk (h : Hdr) : Body → Except DecErr BlkF
  | .c128 a b c d m i =>
    match unpackBits [2, 6, 5, 3, 6, 2, 3, 5] i with
    | [f, x, s, y, n, z, col, u] => do
      zero m; zero x; zero y; zero z; zero u; unused b; unused c; unused d
      .ok ⟨h, opndOf a, fileOf f, BitVec.ofNat 5 s, BitVec.ofNat 6 n, BitVec.ofNat 3 col⟩
    | _ => .error .unassignedBits
  | _ => .error .unassignedOpcode

def encFence (kind : Nat) (f : FenceF) : Body :=
  .a64 nullCode nullCode (packBits [(2, kind), (2, f.scope.code), (8, f.mask.toNat)])
def decFence (h : Hdr) : Body → Except DecErr Instr
  | .a64 a b m =>
    match unpackBits [2, 2, 8] m with
    | [k, s, x] => do
      unused a; unused b
      let f : FenceF := ⟨h, BitVec.ofNat 8 x, scopeOf s⟩
      .ok (match k with
        | 0 => .fenceLL f | 1 => .fenceSL f | 2 => .fenceSS f | _ => .fenceFull f)
    | _ => .error .unassignedBits
  | _ => .error .unassignedOpcode

def atomImm (m : BitVec 8) (s : Scope) (o : AOrder) : Nat :=
  packBits [(8, m.toNat), (2, s.code), (2, o.code), (20, 0)]
def encAtom (f : AtomF) : Body :=
  .c128 (optCode f.d) f.base.code f.b.code nullCode (stdMod f.ty.code 0 false f.mkd [(2, 0)])
    (atomImm f.mask f.scope f.order)
def decAtom (h : Hdr) : Body → Except DecErr AtomF
  | .c128 a b c d m i =>
    match unpackBits [5, 3, 1, 1, 2] m, unpackBits [8, 2, 2, 20] i with
    | [t, r, s, k, x], [mm, sc, o, y] => do
      let t ← tyOf t; noRnd r; noSat s; zero x; zero y; unused d
      .ok ⟨h, t, k == 1, optOf a, opndOf b, opndOf c, aorderOf o, scopeOf sc, BitVec.ofNat 8 mm⟩
    | _, _ => .error .unassignedBits
  | _ => .error .unassignedOpcode

def encCas (f : CasF) : Body :=
  .c128 (optCode f.d) f.base.code f.c.code f.nv.code (stdMod f.ty.code 0 false f.mkd [(2, 0)])
    (atomImm f.mask f.scope f.order)
def decCas (h : Hdr) : Body → Except DecErr CasF
  | .c128 a b c d m i =>
    match unpackBits [5, 3, 1, 1, 2] m, unpackBits [8, 2, 2, 20] i with
    | [t, r, s, k, x], [mm, sc, o, y] => do
      let t ← tyOf t; noRnd r; noSat s; zero x; zero y
      .ok ⟨h, t, k == 1, optOf a, opndOf b, opndOf c, opndOf d, aorderOf o, scopeOf sc, BitVec.ofNat 8 mm⟩
    | _, _ => .error .unassignedBits
  | _ => .error .unassignedOpcode

def scopeImm (s : Scope) : Nat := packBits [(8, 0), (2, s.code), (22, 0)]
def encWaitc (f : WaitcF) : Body := .c128 f.base.code f.target.code nullCode nullCode 0 (scopeImm f.scope)
def encWaitcNt (f : WaitcNtF) : Body :=
  .c128 f.base.code f.target.code nullCode nullCode (packBits [(4, f.pn.toNat), (6, 0), (1, 1), (1, 0)])
    (scopeImm f.scope)
def decWaitc (h : Hdr) : Body → Except DecErr Instr
  | .c128 a b c d m i =>
    match unpackBits [4, 6, 1, 1] m, unpackBits [8, 2, 22] i with
    | [p, x, n, y], [z, s, u] => do
      zero x; zero y; zero z; zero u; unused c; unused d
      if n = 1 then .ok (.waitcNt ⟨h, opndOf a, opndOf b, scopeOf s, BitVec.ofNat 4 p⟩)
      else do
        zero p
        .ok (.waitc ⟨h, opndOf a, opndOf b, scopeOf s⟩)
    | _, _ => .error .unassignedBits
  | _ => .error .unassignedOpcode

def encCntadd (err : Bool) (f : CntAddF) : Body :=
  .c128 f.base.code f.n.code nullCode nullCode (packBits [(10, 0), (1, boolBit err), (1, 0)])
    (packBits [(8, f.mask.toNat), (2, f.scope.code), (22, 0)])
def decCntadd (h : Hdr) : Body → Except DecErr Instr
  | .c128 a b c d m i =>
    match unpackBits [10, 1, 1] m, unpackBits [8, 2, 22] i with
    | [x, e, y], [mm, s, u] => do
      zero x; zero y; zero u; unused c; unused d
      let f : CntAddF := ⟨h, opndOf a, opndOf b, scopeOf s, BitVec.ofNat 8 mm⟩
      .ok (if e == 1 then .cntaddErr f else .cntadd f)
    | _, _ => .error .unassignedBits
  | _ => .error .unassignedOpcode

def encWaitf (f : WaitfF) : Body :=
  .c128 f.base.code f.v.code (optCode f.m) nullCode (packBits [(5, f.ty.code), (3, f.cc.code), (4, 0)])
    (scopeImm f.scope)
def decWaitf (h : Hdr) : Body → Except DecErr WaitfF
  | .c128 a b c d m i =>
    match unpackBits [5, 3, 4] m, unpackBits [8, 2, 22] i with
    | [t, cc, x], [z, s, u] => do
      let t ← tyOf t
      let cc ← ccOf cc
      zero x; zero z; zero u; unused d
      .ok ⟨h, t, cc, opndOf a, opndOf b, optOf c, scopeOf s⟩
    | _, _ => .error .unassignedBits
  | _ => .error .unassignedOpcode

/-- A64 without operands. -/
def encNul (imm : Nat) : Body := .a64 nullCode nullCode imm
def decNul (h : Hdr) : Body → Except DecErr NulF
  | .a64 a b m => do
    unused a; unused b; zero m
    .ok ⟨h⟩
  | _ => .error .unassignedOpcode

def encBr (f : BrF) : Body := .j64 nullCode f.off.toNat
def decBr (h : Hdr) : Body → Except DecErr BrF
  | .j64 a o => do
    unused a
    .ok ⟨h, BitVec.ofNat 28 o⟩
  | _ => .error .unassignedOpcode

def encBrc (f : BrcF) : Body := .j64 f.c.code f.off.toNat
def decBrc (h : Hdr) : Body → Except DecErr BrcF
  | .j64 a o => .ok ⟨h, opndOf a, BitVec.ofNat 28 o⟩
  | _ => .error .unassignedOpcode

def encJmp (f : JmpF) : Body := .a64 f.t.code nullCode 0
def decJmp (h : Hdr) : Body → Except DecErr JmpF
  | .a64 a b m => do
    unused b; zero m
    .ok ⟨h, opndOf a⟩
  | _ => .error .unassignedOpcode

def encCalli (f : CalliF) : Body := .a64 f.lk.code f.t.code 0
def decCalli (h : Hdr) : Body → Except DecErr CalliF
  | .a64 a b m => do
    zero m
    .ok ⟨h, opndOf a, opndOf b⟩
  | _ => .error .unassignedOpcode

/-- A64 with one operand or an immediate of n bits that starts at bit lo of imm12. -/
def encOne {n : Nat} (lo : Nat) (f : OneF n) : Body :=
  .a64 f.v.codes.1 nullCode (packBits [(lo, 0), (n, f.v.codes.2), (12 - lo - n, 0)])
def decOne (lo n : Nat) (h : Hdr) : Body → Except DecErr (OneF n)
  | .a64 a b m =>
    match unpackBits [lo, n, 12 - lo - n] m with
    | [x, v, y] => do
      zero x; zero y; unused b
      let v ← opImmOf n a v
      .ok ⟨h, v⟩
    | _ => .error .unassignedBits
  | _ => .error .unassignedOpcode

def encHstart (f : HstartF) : Body :=
  .c128 f.d.code f.mask.codes.1 f.entry.code nullCode (stdMod 0 0 false f.mkd [(2, 0)])
    (packBits [(1, 0), (10, f.mask.codes.2), (5, 0), (6, f.vblk.toNat), (2, 0), (6, f.sblk.toNat), (2, 0)])
def decHstart (h : Hdr) : Body → Except DecErr HstartF
  | .c128 a b c d m i =>
    match unpackBits [5, 3, 1, 1, 2] m, unpackBits [1, 10, 5, 6, 2, 6, 2] i with
    | [t, r, s, k, x], [y, mm, z, v, u, w, o] => do
      need (t == 0) .badType; noRnd r; noSat s; zero x; zero y; zero z; zero u; zero o; unused d
      let mm ← opImmOf 10 b mm
      .ok ⟨h, k == 1, opndOf a, mm, opndOf c, BitVec.ofNat 6 v, BitVec.ofNat 6 w⟩
    | _, _ => .error .unassignedBits
  | _ => .error .unassignedOpcode

/-- mod12 of the C128 forms that use only MK and, at bit 10, one flag. -/
def flagMod (mkd flag : Bool) : Nat := packBits [(9, 0), (1, boolBit mkd), (1, boolBit flag), (1, 0)]
def decFlagMod (m : Nat) : Except DecErr (Bool × Bool) :=
  match unpackBits [9, 1, 1, 1] m with
  | [x, k, c, y] => do
    zero x; zero y
    .ok (k == 1, c == 1)
  | _ => .error .unassignedBits

def encSpawn (f : SpawnF) : Body := .c128 (optCode f.d) f.tcb.code nullCode nullCode (flagMod f.mkd false) 0
def decSpawn (h : Hdr) : Body → Except DecErr SpawnF
  | .c128 a b c d m i => do
    let k ← decFlagMod m
    need (!k.2) .unassignedBits; zero i; unused c; unused d
    .ok ⟨h, k.1, optOf a, opndOf b⟩
  | _ => .error .unassignedOpcode

def encIdrd (f : IdrdF) : Body :=
  .a64 f.d.code nullCode (packBits [(3, f.sel.toNat), (6, 0), (1, boolBit f.mkd), (2, 0)])
def decIdrd (h : Hdr) : Body → Except DecErr IdrdF
  | .a64 a b m =>
    match unpackBits [3, 6, 1, 2] m with
    | [s, x, k, y] => do
      need (x % 2 == 0) .badField; zero x; zero y; unused b
      .ok ⟨h, k == 1, opndOf a, BitVec.ofNat 3 s⟩
    | _ => .error .unassignedBits
  | _ => .error .unassignedOpcode

/-- A64 with a destination and MK alone. -/
def encDst (f : DstF) : Body := .a64 f.d.code nullCode (flagMod f.mkd false)
def decDst (h : Hdr) : Body → Except DecErr DstF
  | .a64 a b m => do
    let k ← decFlagMod m
    need (!k.2) .unassignedBits; unused b
    .ok ⟨h, k.1, opndOf a⟩
  | _ => .error .unassignedOpcode

def encTrap (f : TrapF) : Body := encNul (packBits [(8, f.code.toNat), (4, 0)])
def decTrap (h : Hdr) : Body → Except DecErr TrapF
  | .a64 a b m =>
    match unpackBits [8, 4] m with
    | [c, x] => do
      zero x; unused a; unused b
      .ok ⟨h, BitVec.ofNat 8 c⟩
    | _ => .error .unassignedBits
  | _ => .error .unassignedOpcode

def encTret (next : Bool) : Body := encNul (flagMod false next)
def decTret (h : Hdr) : Body → Except DecErr Instr
  | .a64 a b m => do
    let k ← decFlagMod m
    need (!k.1) .unassignedBits; unused a; unused b
    .ok (if k.2 then .tretNext ⟨h⟩ else .tret ⟨h⟩)
  | _ => .error .unassignedOpcode

def regImm (n : Nat) : Nat := packBits [(12, n), (20, 0)]
def encSysrd (f : SysRdF) : Body := .c128 f.d.code nullCode nullCode nullCode (flagMod f.mkd false) (regImm f.reg.code)
def encSysrdClr (f : DstF) : Body :=
  .c128 f.d.code nullCode nullCode nullCode (flagMod f.mkd true) (regImm SysReg.flg.code)
def decSysrd (h : Hdr) : Body → Except DecErr Instr
  | .c128 a b c d m i =>
    match unpackBits [12, 20] i with
    | [r, x] => do
      let k ← decFlagMod m
      zero x; unused b; unused c; unused d
      let r ← sysRegOf r
      if k.2 then do
        need (r == .flg) .badRegister
        .ok (.sysrdClr ⟨h, k.1, opndOf a⟩)
      else .ok (.sysrd ⟨h, k.1, opndOf a, r⟩)
    | _ => .error .unassignedBits
  | _ => .error .unassignedOpcode

def encSyswr (a : Opnd) (r : Nat) : Body := .c128 a.code nullCode nullCode nullCode 0 (regImm r)
def decSyswr (h : Hdr) : Body → Except DecErr Instr
  | .c128 a b c d m i =>
    match unpackBits [12, 20] i with
    | [r, x] => do
      zero m; zero x; unused b; unused c; unused d
      let r ← sysRegOf r
      .ok (match r with
        | .rtn n => .syswrRtn ⟨h, n, opndOf a⟩
        | .hcfg => .syswrHcfg ⟨h, opndOf a⟩
        | .shst => .syswrShst ⟨h, opndOf a⟩
        | .kreq => .syswrKreq ⟨h, opndOf a⟩
        | r => .syswr ⟨h, r, opndOf a⟩)
    | _ => .error .unassignedBits
  | _ => .error .unassignedOpcode

def encTlbi (kind : Nat) (o1 o2 : Nat) (s : Scope) : Body :=
  .c128 o1 o2 nullCode nullCode (packBits [(10, 0), (2, kind)]) (packBits [(2, s.code), (30, 0)])
def decTlbi (h : Hdr) : Body → Except DecErr Instr
  | .c128 a b c d m i =>
    match unpackBits [10, 2] m, unpackBits [2, 30] i with
    | [x, k], [s, y] => do
      zero x; zero y; unused c; unused d
      match k with
      | 0 => do
        unused a; unused b
        .ok (.tlbiAll ⟨h, scopeOf s⟩)
      | 1 => do
        unused b
        .ok (.tlbiAsid ⟨h, scopeOf s, opndOf a⟩)
      | 2 => .ok (.tlbiVa ⟨h, scopeOf s, opndOf a, opndOf b⟩)
      | _ => .error .badField
    | _, _ => .error .unassignedBits
  | _ => .error .unassignedOpcode

def encObjdef (f : ObjdefF) : Body := .c128 f.id.code f.rcd.code nullCode nullCode (flagMod false false) 0
def encObjdefClr (f : SrcF) : Body := .c128 f.a.code nullCode nullCode nullCode (flagMod false true) 0
def decObjdef (h : Hdr) : Body → Except DecErr Instr
  | .c128 a b c d m i => do
    let k ← decFlagMod m
    need (!k.1) .unassignedBits; zero i; unused c; unused d
    if k.2 then do
      unused b
      .ok (.objdefClr ⟨h, opndOf a⟩)
    else .ok (.objdef ⟨h, opndOf a, opndOf b⟩)
  | _ => .error .unassignedOpcode

def encPerf (clr : Bool) (f : PerfF) : Body :=
  .c128 f.d.code nullCode nullCode nullCode (flagMod f.mkd clr) (packBits [(4, f.ev.toNat), (28, 0)])
def decPerf (h : Hdr) : Body → Except DecErr Instr
  | .c128 a b c d m i =>
    match unpackBits [4, 28] i with
    | [e, x] => do
      let k ← decFlagMod m
      zero x; unused b; unused c; unused d
      let f : PerfF := ⟨h, k.1, opndOf a, BitVec.ofNat 4 e⟩
      .ok (if k.2 then .perfClr f else .perf f)
    | _ => .error .unassignedBits
  | _ => .error .unassignedOpcode

def encCpset (f : CpsetF) : Body :=
  .c128 f.a.codes.1 nullCode nullCode nullCode (packBits [(4, f.reg.toNat), (8, 0)]) f.a.codes.2
def decCpset (h : Hdr) : Body → Except DecErr CpsetF
  | .c128 a b c d m i =>
    match unpackBits [4, 8] m with
    | [r, x] => do
      zero x; unused b; unused c; unused d
      let v ← opImmOf 32 a i
      .ok ⟨h, BitVec.ofNat 4 r, v⟩
    | _ => .error .unassignedBits
  | _ => .error .unassignedOpcode

def encCpgo (f : CpgoF) : Body := .c128 (optCode f.d) nullCode nullCode nullCode (flagMod f.mkd false) 0
def decCpgo (h : Hdr) : Body → Except DecErr CpgoF
  | .c128 a b c d m i => do
    let k ← decFlagMod m
    need (!k.2) .unassignedBits; zero i; unused b; unused c; unused d
    .ok ⟨h, k.1, optOf a⟩
  | _ => .error .unassignedOpcode

def encCpred (f : CpredF) : Body :=
  .c128 (optCode f.d) nullCode nullCode nullCode (stdMod f.ty.code 0 false f.mkd [(2, 0)]) 0
def encCpredR (f : CpredRF) : Body :=
  .c128 (optCode f.d) nullCode nullCode nullCode (stdMod f.ty.code 0 false f.mkd [(2, 0)])
    (packBits [(4, f.rank.toNat), (4, 0), (4, f.rmax.toNat), (3, 0), (1, 1), (16, 0)])
def decCpred (h : Hdr) : Body → Except DecErr Instr
  | .c128 a b c d m i =>
    match unpackBits [5, 3, 1, 1, 2] m, unpackBits [4, 4, 4, 3, 1, 16] i with
    | [t, r, s, k, x], [rk, y, rm, z, g, u] => do
      let t ← tyOf t; noRnd r; noSat s; zero x; zero y; zero z; zero u; unused b; unused c; unused d
      if g = 1 then .ok (.cpredRanked ⟨h, t, k == 1, optOf a, BitVec.ofNat 4 rk, BitVec.ofNat 4 rm⟩)
      else do
        zero rk; zero rm
        .ok (.cpred ⟨h, t, k == 1, optOf a⟩)
    | _, _ => .error .unassignedBits
  | _ => .error .unassignedOpcode

def encCpq (f : CpqF) : Body := .a64 f.d.code f.x.code (flagMod f.mkd false)
def decCpq (h : Hdr) : Body → Except DecErr Instr
  | .a64 a b m => do
    let k ← decFlagMod m
    need (!k.2) .unassignedBits
    .ok (if b = nullCode then .cpqCount ⟨h, k.1, opndOf a⟩ else .cpq ⟨h, k.1, opndOf a, opndOf b⟩)
  | _ => .error .unassignedOpcode

def encMmcfg (f : MmcfgF) : Body :=
  .c128 f.k.code f.s.code (optCode f.ctr) nullCode (packBits [(8, f.mask.toNat), (4, 0)])
    (packBits [(5, f.m1.toNat), (5, f.n1.toNat), (4, f.fa.code), (4, f.fb.code), (4, (f.fc.map CFmt.code).getD 0),
      (4, f.fd.code), (6, 0)])
def decMmcfg (h : Hdr) : Body → Except DecErr MmcfgF
  | .c128 a b c d m i =>
    match unpackBits [8, 4] m, unpackBits [5, 5, 4, 4, 4, 4, 6] i with
    | [mm, x], [m1, n1, fa, fb, fc, fd, y] => do
      zero x; zero y; unused d
      let fa ← bfmtOf fa
      let fb ← bfmtOf fb
      let fc ← optCfmtOf fc
      let fd ← cfmtOf fd
      .ok ⟨h, opndOf a, opndOf b, optOf c, BitVec.ofNat 8 mm, BitVec.ofNat 5 m1, BitVec.ofNat 5 n1, fa, fb, fc, fd⟩
    | _, _ => .error .unassignedBits
  | _ => .error .unassignedOpcode

def encMma (a b : Opnd) (c : Option Opnd) (d : Opnd) (row : Nat) (rp : Bool) : Body :=
  .c128 a.code b.code (optCode c) d.code (packBits [(5, row), (5, 0), (1, boolBit rp), (1, 0)]) 0
/-- The fields of MMA and MMW: the launch form, or none of a row under RP. -/
def decMma (h : Hdr) : Body → Except DecErr (MmaF × Bool)
  | .c128 a b c d m i =>
    match unpackBits [5, 5, 1, 1] m with
    | [r, x, p, y] => do
      zero x; zero y; zero i
      need (p == 0 || r == 0) .badField
      .ok (⟨h, opndOf a, opndOf b, optOf c, opndOf d, BitVec.ofNat 5 r⟩, p == 1)
    | _ => .error .unassignedBits
  | _ => .error .unassignedOpcode

def encPrent (hold : Bool) (f : PrentF) : Body :=
  .c128 f.d.code f.key.codes.1 nullCode nullCode
    (packBits [(4, f.c.toNat), (1, 0), (4, f.pw.toNat), (1, boolBit f.mkd), (1, boolBit hold), (1, 0)]) f.key.codes.2
def decPrent (h : Hdr) : Body → Except DecErr Instr
  | .c128 a b c d m i =>
    match unpackBits [4, 1, 4, 1, 1, 1] m with
    | [cc, x, p, k, hd, y] => do
      zero x; zero y; unused c; unused d
      let v ← opImmOf 32 b i
      let f : PrentF := ⟨h, k == 1, opndOf a, BitVec.ofNat 4 cc, v, BitVec.ofNat 4 p⟩
      .ok (if hd == 1 then .prentHold f else .prentOnce f)
    | _ => .error .unassignedBits
  | _ => .error .unassignedOpcode

def encPrres (f : PrresF) : Body :=
  .a64 f.d.code nullCode (packBits [(4, f.c.toNat), (5, 0), (1, boolBit f.mkd), (2, 0)])
def decPrres (h : Hdr) : Body → Except DecErr PrresF
  | .a64 a b m =>
    match unpackBits [4, 5, 1, 2] m with
    | [c, x, k, y] => do
      zero x; zero y; unused b
      .ok ⟨h, k == 1, opndOf a, BitVec.ofNat 4 c⟩
    | _ => .error .unassignedBits
  | _ => .error .unassignedOpcode

def encPrrel (f : PrrelF) : Body := encNul (packBits [(4, f.c.toNat), (8, 0)])
def decPrrel (h : Hdr) : Body → Except DecErr PrrelF
  | .a64 a b m =>
    match unpackBits [4, 8] m with
    | [c, x] => do
      zero x; unused a; unused b
      .ok ⟨h, BitVec.ofNat 4 c⟩
    | _ => .error .unassignedBits
  | _ => .error .unassignedOpcode

/-! The opcode map (R51), class by class. -/

/-- The format of an opcode, or none where the map assigns none. -/
def opcodeFmt (op : Nat) : Option Fmt :=
  let c := op / 128
  let k := op % 128
  match c with
  | 0 =>
    if k ≥ 0x14 then none
    else some (if k = 2 ∨ k = 5 ∨ k = 0xE ∨ k = 0xF ∨ k = 0x11 ∨ k = 0x12 then .c128
      else if 0xA ≤ k ∧ k ≤ 0xD then .a64 else .b96)
  | 1 =>
    if k ≥ 0x1B then none
    else some (if k = 0x11 then .c128 else if k = 4 ∨ (0xB ≤ k ∧ k ≤ 0xD) then .a64 else .b96)
  | 2 =>
    if k ≥ 0x18 then none
    else some (if 3 ≤ k ∧ k ≤ 5 then .c128
      else if k ≤ 2 ∨ k = 6 ∨ k = 7 ∨ k = 0xA ∨ k = 0x14 ∨ k = 0x16 then .b96 else .a64)
  | 3 => if k ≥ 8 then none else some (if k = 2 ∨ k = 3 ∨ k = 7 then .c128 else .b96)
  | 4 =>
    if k ≥ 0xD then none
    else some (if k = 4 ∨ k = 8 ∨ k = 9 ∨ k = 0xA then .c128 else if k = 0xC then .a64 else .m96)
  | 5 => if k ≥ 0x10 then none else some (if k = 0xD then .m96 else if k = 0xF then .a64 else .c128)
  | 6 =>
    if k ≥ 0x1D then none
    else some (if k = 0 ∨ k = 1 ∨ k = 3 ∨ k = 6 ∨ k = 7 then .j64
      else if k = 0xC ∨ k = 0xE ∨ (0x15 ≤ k ∧ k ≤ 0x18) ∨ k = 0x1B then .c128 else .a64)
  | 7 =>
    if k ≥ 0xC then none
    else some (if k = 3 ∨ k = 7 ∨ 9 ≤ k then .a64 else .c128)
  | _ => none

def parse0 (k : Nat) (h : Hdr) (b : Body) : Except DecErr Instr :=
  match k with
  | 0x00 => (decInt3 h b).map .add
  | 0x01 => (decInt3 h b).map .sub
  | 0x02 => (decAddI h b).map .addi
  | 0x03 => (decInt3 h b).map .mul
  | 0x04 => (decInt3 h b).map .mulh
  | 0x05 => (decInt4 h b).map .mad
  | 0x06 => (decInt3 h b).map .div
  | 0x07 => (decInt3 h b).map .rem
  | 0x08 => (decInt3 h b).map .min
  | 0x09 => (decInt3 h b).map .max
  | 0x0A => (decInt2 h b).map .abs
  | 0x0B => (decInt2 h b).map .neg
  | 0x0C => (decInt2 h b).map .clz
  | 0x0D => (decInt2 h b).map .popc
  | 0x0E => (decInt4 h b).map .sad
  | 0x0F => (decLea h b).map .lea
  | 0x10 => (decAidx h b).map .aidx
  | 0x11 => (decMovI h b).map .movi
  | 0x12 => (decMovI h b).map .movhi
  | 0x13 => (decCmp h b).map .cmp
  | _ => .error .unassignedOpcode

def parse1 (k : Nat) (h : Hdr) (b : Body) : Except DecErr Instr :=
  match k with
  | 0x00 => (decInt3 h b).map .and
  | 0x01 => (decInt3 h b).map .or
  | 0x02 => (decInt3 h b).map .xor
  | 0x03 => (decInt3 h b).map .andn
  | 0x04 => (decInt2 h b).map .not
  | 0x05 => (decShift h b).map .shl
  | 0x06 => (decShift h b).map .shr
  | 0x07 => (decShift h b).map .sar
  | 0x08 => (decShift h b).map .rot
  | 0x09 => (decBfx h b).map .bfx
  | 0x0A => (decBfi h b).map .bfi
  | 0x0B => (decInt2 h b).map .sext
  | 0x0C => (decInt2 h b).map .zext
  | 0x0D => (decInt2 h b).map .mov
  | 0x0E => (decSel h b).map .sel
  | 0x0F => (decPack h b).map .pack
  | 0x10 => (decUnpk h b).map .unpk
  | 0x11 => decSwz h b
  | 0x12 => (decLane h b).map .bcast
  | 0x13 => (decLane h b).map .lrot
  | 0x14 => (decPred3 h b).map .pand
  | 0x15 => (decPred3 h b).map .por
  | 0x16 => (decPred3 h b).map .pxor
  | 0x17 => (decPred2 h b).map .pnot
  | 0x18 => (decPRed h b).map .pany
  | 0x19 => (decPRed h b).map .pall
  | 0x1A => (decPRed h b).map .pcnt
  | _ => .error .unassignedOpcode

def parse2 (k : Nat) (h : Hdr) (b : Body) : Except DecErr Instr :=
  match k with
  | 0x00 => (decFp3 h b).map .fadd
  | 0x01 => (decFp3 h b).map .fsub
  | 0x02 => (decFp3 h b).map .fmul
  | 0x03 => (decFp4 h b).map .fma
  | 0x04 => (decFp4 h b).map .fms
  | 0x05 => (decFp4 h b).map .fnma
  | 0x06 => (decFp3 h b).map .fmin
  | 0x07 => (decFp3 h b).map .fmax
  | 0x08 => (decFp2 h b).map .fabs
  | 0x09 => (decFp2 h b).map .fneg
  | 0x0A => (decFp3 h b).map .fdiv
  | 0x0B => (decFp2 h b).map .fsqrt
  | 0x0C => (decFp2 h b).map .frcp
  | 0x0D => (decFp2 h b).map .frsq
  | 0x0E => (decFp2 h b).map .fexp2
  | 0x0F => (decFp2 h b).map .flog2
  | 0x10 => (decFp2 h b).map .fsin
  | 0x11 => (decFp2 h b).map .fcos
  | 0x12 => (decFp2 h b).map .ftanh
  | 0x13 => (decFp2 h b).map .fclass
  | 0x14 => (decFp3 h b).map .fscale
  | 0x15 => (decFp2 h b).map .frnd
  | 0x16 => (decFcmp h b).map .fcmp
  | 0x17 => (decFp2 h b).map .fred
  | _ => .error .unassignedOpcode

def parse3 (k : Nat) (h : Hdr) (b : Body) : Except DecErr Instr :=
  match k with
  | 0 => (decCvt h b).map .cvt
  | 1 => (decCvt h b).map .cvts
  | 2 => (decQblk h b).map .qblk
  | 3 => (decDqblk h b).map .dqblk
  | 4 => (decBhdr h b).map .bhdr
  | 5 => (decBset h b).map .bset
  | 6 => (decBchk h b).map .bchk
  | 7 => (decInt4 h b).map .idot4
  | _ => .error .unassignedOpcode

/-- LDF's two rows differ in FEACT (R136, R146). -/
def decLdf (h : Hdr) (b : Body) : Except DecErr Instr := do
  let f ← decMem h b
  match f.2 with
  | 1 => .ok (.ldfWf f.1)
  | 2 => .ok (.ldfWfc f.1)
  | _ => .error .badQualifier

def parse4 (k : Nat) (h : Hdr) (b : Body) : Except DecErr Instr :=
  match k with
  | 0x0 => (decMemAs 0 h b).map .ld
  | 0x1 => (decMemAs 0 h b).map .st
  | 0x2 => (decElem h b).map .gath
  | 0x3 => (decElem h b).map .scat
  | 0x4 => decAgld h b
  | 0x5 => (decMemAs 0 h b).map .agst
  | 0x6 => decLdf h b
  | 0x7 => (decMemAs 3 h b).map .stf
  | 0x8 => decFemark h b
  | 0x9 => (decBlk h b).map .spill
  | 0xA => (decBlk h b).map .fill
  | 0xB => (decPref h b).map .pref
  | 0xC => decFence h b
  | _ => .error .unassignedOpcode

def parse5 (k : Nat) (h : Hdr) (b : Body) : Except DecErr Instr :=
  match k with
  | 0x0 => (decAtom h b).map .atadd
  | 0x1 => (decAtom h b).map .atmin
  | 0x2 => (decAtom h b).map .atmax
  | 0x3 => (decAtom h b).map .atand
  | 0x4 => (decAtom h b).map .ator
  | 0x5 => (decAtom h b).map .atxor
  | 0x6 => (decAtom h b).map .atxch
  | 0x7 => (decCas h b).map .atcas
  | 0x8 => (decAtom h b).map .atfadd
  | 0x9 => (decAtom h b).map .atinc
  | 0xA => (decAtom h b).map .atdec
  | 0xB => decWaitc h b
  | 0xC => decCntadd h b
  | 0xD => (decMemAs 0 h b).map .cntrd
  | 0xE => (decWaitf h b).map .waitf
  | 0xF => (decNul h b).map .iflush
  | _ => .error .unassignedOpcode

def parse6 (k : Nat) (h : Hdr) (b : Body) : Except DecErr Instr :=
  match k with
  | 0x00 => (decBr h b).map .br
  | 0x01 => (decBrc h b).map .brc
  | 0x02 => (decJmp h b).map .jmp
  | 0x03 => (decBrc h b).map .call
  | 0x04 => (decCalli h b).map .calli
  | 0x05 => (decJmp h b).map .ret
  | 0x06 => (decBrc h b).map .loop
  | 0x07 => (decBr h b).map .safe
  | 0x08 => (decNul h b).map .rbdone
  | 0x09 => (decNul h b).map .nop64
  | 0x0A => (decOne 0 12 h b).map .yield
  | 0x0B => (decNul h b).map .done
  | 0x0C => (decHstart h b).map .hstart
  | 0x0D => (decOne 1 10 h b).map .hjoin
  | 0x0E => (decSpawn h b).map .spawn
  | 0x0F => (decIdrd h b).map .idrd
  | 0x10 => (decOne 0 12 h b).map .itset
  | 0x11 => (decOne 0 12 h b).map .itinc
  | 0x12 => (decDst h b).map .itrd
  | 0x13 => (decTrap h b).map .trap
  | 0x14 => decTret h b
  | 0x15 => decSysrd h b
  | 0x16 => decSyswr h b
  | 0x17 => decTlbi h b
  | 0x18 => decObjdef h b
  | 0x19 => (decNul h b).map .genb
  | 0x1A => (decOne 0 12 h b).map .seed
  | 0x1B => decPerf h b
  | 0x1C => (decOne 0 3 h b).map .unpin
  | _ => .error .unassignedOpcode

def mmaOf (wait : Bool) (p : MmaF × Bool) : Instr :=
  match wait, p.2 with
  | false, false => .mma p.1
  | false, true => .mmaRp ⟨p.1.h, p.1.a, p.1.b, p.1.c, p.1.d⟩
  | true, false => .mmw p.1
  | true, true => .mmwRp ⟨p.1.h, p.1.a, p.1.b, p.1.c, p.1.d⟩

def parse7 (k : Nat) (h : Hdr) (b : Body) : Except DecErr Instr :=
  match k with
  | 0x0 => (decCpset h b).map .cpset
  | 0x1 => (decCpgo h b).map .cpgo
  | 0x2 => decCpred h b
  | 0x3 => decCpq h b
  | 0x4 => (decMmcfg h b).map .mmcfg
  | 0x5 => (decMma h b).map (mmaOf false)
  | 0x6 => (decMma h b).map (mmaOf true)
  | 0x7 => (decDst h b).map .mmrp
  | 0x8 => decPrent h b
  | 0x9 => (decPrres h b).map .prres
  | 0xA => (decPrrel h b).map .prrel
  | 0xB => (decOne 0 8 h b).map .leave
  | _ => .error .unassignedOpcode

def parseOp (op : Nat) (h : Hdr) (b : Body) : Except DecErr Instr :=
  match op / 128 with
  | 0 => parse0 (op % 128) h b
  | 1 => parse1 (op % 128) h b
  | 2 => parse2 (op % 128) h b
  | 3 => parse3 (op % 128) h b
  | 4 => parse4 (op % 128) h b
  | 5 => parse5 (op % 128) h b
  | 6 => parse6 (op % 128) h b
  | 7 => parse7 (op % 128) h b
  | _ => .error .unassignedOpcode

/-- The guard of a header: predicate and sense, or none (R40). -/
def guardOf (g s : Nat) : Except DecErr (Option Guard) :=
  if h : g < 15 then .ok (some ⟨⟨g, h⟩, s == 1⟩)
  else if s = 0 then .ok none else .error .guardSense

def guardCode : Option Guard → Nat × Nat
  | none => (15, 0)
  | some g => (g.pred.val, boolBit g.inv)

/-- A word of n bytes whose length bits say n: the instruction, or the condition of R50 that makes it undefined. -/
def decodeWord (len : Len) (w : Nat) : Except DecErr Instr :=
  match unpackBits headWidths w with
  | [_, op, g, s, e1, e2, e3] =>
    match opcodeFmt op with
    | none => .error .unassignedOpcode
    | some fmt =>
      if len.bytes < fmt.bytes then .error .shortForm
      else if w / 2 ^ (8 * fmt.bytes) ≠ 0 then .error .appendedBits
      else do
        let gd ← guardOf g s
        match bodyOf fmt (unpackBits fmt.widths (w / 2 ^ 20)) with
        | none => .error .unassignedOpcode
        | some b => do
          let i ← parseOp op ⟨len, gd, e1 == 1, e2 == 1, e3 == 1⟩ b
          match encErr i with
          | none => .ok i
          | some e => .error e
  | _ => .error .unassignedOpcode

/-- The length bits of the first byte (R36). -/
def lenBits (b : Byte) : Option Len := lenOf (b.toNat % 4)

/-- Decode the instruction at the front of the bytes that remain of a fetch block: the instruction and the bytes after
it. An instruction that the bytes do not hold crosses its fetch block (R36). -/
def decode (bs : List Byte) : Except DecErr (Instr × List Byte) :=
  match bs with
  | [] => .error .noBytes
  | b :: _ =>
    match lenBits b with
    | none => .error .reservedLength
    | some len =>
      if bs.length < len.bytes then .error .crossesBlock
      else (decodeWord len (leVal (bs.take len.bytes))).map (fun i => (i, bs.drop len.bytes))

/-! The encoder. -/

/-- The opcode and fields of each instruction; an event has none. -/
def Instr.parts : Instr → Option (Nat × Body)
  | .add f => some (0x000, encInt3 f) | .sub f => some (0x001, encInt3 f) | .addi f => some (0x002, encAddI f)
  | .mul f => some (0x003, encInt3 f) | .mulh f => some (0x004, encInt3 f) | .mad f => some (0x005, encInt4 f)
  | .div f => some (0x006, encInt3 f) | .rem f => some (0x007, encInt3 f) | .min f => some (0x008, encInt3 f)
  | .max f => some (0x009, encInt3 f) | .abs f => some (0x00A, encInt2 f) | .neg f => some (0x00B, encInt2 f)
  | .clz f => some (0x00C, encInt2 f) | .popc f => some (0x00D, encInt2 f) | .sad f => some (0x00E, encInt4 f)
  | .lea f => some (0x00F, encLea f) | .aidx f => some (0x010, encAidx f) | .movi f => some (0x011, encMovI f)
  | .movhi f => some (0x012, encMovI f) | .cmp f => some (0x013, encCmp f)
  | .and f => some (0x080, encInt3 f) | .or f => some (0x081, encInt3 f) | .xor f => some (0x082, encInt3 f)
  | .andn f => some (0x083, encInt3 f) | .not f => some (0x084, encInt2 f) | .shl f => some (0x085, encShift f)
  | .shr f => some (0x086, encShift f) | .sar f => some (0x087, encShift f) | .rot f => some (0x088, encShift f)
  | .bfx f => some (0x089, encBfx f) | .bfi f => some (0x08A, encBfi f) | .sext f => some (0x08B, encInt2 f)
  | .zext f => some (0x08C, encInt2 f) | .mov f => some (0x08D, encInt2 f) | .sel f => some (0x08E, encSel f)
  | .pack f => some (0x08F, encPack f) | .unpk f => some (0x090, encUnpk f) | .swz f => some (0x091, encSwz f)
  | .swzMask f => some (0x091, encSwzM f) | .bcast f => some (0x092, encLane f) | .lrot f => some (0x093, encLane f)
  | .pand f => some (0x094, encPred3 f) | .por f => some (0x095, encPred3 f) | .pxor f => some (0x096, encPred3 f)
  | .pnot f => some (0x097, encPred2 f) | .pany f => some (0x098, encPRed f) | .pall f => some (0x099, encPRed f)
  | .pcnt f => some (0x09A, encPRed f)
  | .fadd f => some (0x100, encFp3 f) | .fsub f => some (0x101, encFp3 f) | .fmul f => some (0x102, encFp3 f)
  | .fma f => some (0x103, encFp4 f) | .fms f => some (0x104, encFp4 f) | .fnma f => some (0x105, encFp4 f)
  | .fmin f => some (0x106, encFp3 f) | .fmax f => some (0x107, encFp3 f) | .fabs f => some (0x108, encFp2 f)
  | .fneg f => some (0x109, encFp2 f) | .fdiv f => some (0x10A, encFp3 f) | .fsqrt f => some (0x10B, encFp2 f)
  | .frcp f => some (0x10C, encFp2 f) | .frsq f => some (0x10D, encFp2 f) | .fexp2 f => some (0x10E, encFp2 f)
  | .flog2 f => some (0x10F, encFp2 f) | .fsin f => some (0x110, encFp2 f) | .fcos f => some (0x111, encFp2 f)
  | .ftanh f => some (0x112, encFp2 f) | .fclass f => some (0x113, encFp2 f) | .fscale f => some (0x114, encFp3 f)
  | .frnd f => some (0x115, encFp2 f) | .fcmp f => some (0x116, encFcmp f) | .fred f => some (0x117, encFp2 f)
  | .cvt f => some (0x180, encCvt f) | .cvts f => some (0x181, encCvt f) | .qblk f => some (0x182, encQblk f)
  | .dqblk f => some (0x183, encDqblk f) | .bhdr f => some (0x184, encBhdr f) | .bset f => some (0x185, encBset f)
  | .bchk f => some (0x186, encBchk f) | .idot4 f => some (0x187, encInt4 f)
  | .ld f => some (0x200, encMem 0 f) | .st f => some (0x201, encMem 0 f) | .gath f => some (0x202, encElem f)
  | .scat f => some (0x203, encElem f) | .agldWait f => some (0x204, encAgld 0 f) | .agldTry f => some (0x204, encAgld 1 f)
  | .agst f => some (0x205, encMem 0 f) | .ldfWf f => some (0x206, encMem 1 f) | .ldfWfc f => some (0x206, encMem 2 f)
  | .stf f => some (0x207, encMem 3 f) | .femarkFull f => some (0x208, encFemark true f)
  | .femarkEmpty f => some (0x208, encFemark false f) | .spill f => some (0x209, encBlk f) | .fill f => some (0x20A, encBlk f)
  | .pref f => some (0x20B, encPref f) | .fenceLL f => some (0x20C, encFence 0 f) | .fenceSL f => some (0x20C, encFence 1 f)
  | .fenceSS f => some (0x20C, encFence 2 f) | .fenceFull f => some (0x20C, encFence 3 f)
  | .atadd f => some (0x280, encAtom f) | .atmin f => some (0x281, encAtom f) | .atmax f => some (0x282, encAtom f)
  | .atand f => some (0x283, encAtom f) | .ator f => some (0x284, encAtom f) | .atxor f => some (0x285, encAtom f)
  | .atxch f => some (0x286, encAtom f) | .atcas f => some (0x287, encCas f) | .atfadd f => some (0x288, encAtom f)
  | .atinc f => some (0x289, encAtom f) | .atdec f => some (0x28A, encAtom f) | .waitc f => some (0x28B, encWaitc f)
  | .waitcNt f => some (0x28B, encWaitcNt f) | .cntadd f => some (0x28C, encCntadd false f)
  | .cntaddErr f => some (0x28C, encCntadd true f) | .cntrd f => some (0x28D, encMem 0 f) | .waitf f => some (0x28E, encWaitf f)
  | .iflush _ => some (0x28F, encNul 0)
  | .br f => some (0x300, encBr f) | .brc f => some (0x301, encBrc f) | .jmp f => some (0x302, encJmp f)
  | .call f => some (0x303, encBrc f) | .calli f => some (0x304, encCalli f) | .ret f => some (0x305, encJmp f)
  | .loop f => some (0x306, encBrc f) | .safe f => some (0x307, encBr f) | .rbdone _ => some (0x308, encNul 0)
  | .nop64 _ => some (0x309, encNul 0) | .yield f => some (0x30A, encOne 0 f) | .done _ => some (0x30B, encNul 0)
  | .hstart f => some (0x30C, encHstart f) | .hjoin f => some (0x30D, encOne 1 f) | .spawn f => some (0x30E, encSpawn f)
  | .idrd f => some (0x30F, encIdrd f) | .itset f => some (0x310, encOne 0 f) | .itinc f => some (0x311, encOne 0 f)
  | .itrd f => some (0x312, encDst f) | .trap f => some (0x313, encTrap f) | .tret _ => some (0x314, encTret false)
  | .tretNext _ => some (0x314, encTret true) | .sysrd f => some (0x315, encSysrd f)
  | .sysrdClr f => some (0x315, encSysrdClr f) | .syswr f => some (0x316, encSyswr f.a f.reg.code)
  | .syswrRtn f => some (0x316, encSyswr f.a (SysReg.rtn f.n).code)
  | .syswrHcfg f => some (0x316, encSyswr f.a SysReg.hcfg.code) | .syswrShst f => some (0x316, encSyswr f.a SysReg.shst.code)
  | .syswrKreq f => some (0x316, encSyswr f.a SysReg.kreq.code)
  | .tlbiAll f => some (0x317, encTlbi 0 nullCode nullCode f.scope)
  | .tlbiAsid f => some (0x317, encTlbi 1 f.asid.code nullCode f.scope)
  | .tlbiVa f => some (0x317, encTlbi 2 f.asid.code f.va.code f.scope)
  | .objdef f => some (0x318, encObjdef f) | .objdefClr f => some (0x318, encObjdefClr f) | .genb _ => some (0x319, encNul 0)
  | .seed f => some (0x31A, encOne 0 f) | .perf f => some (0x31B, encPerf false f) | .perfClr f => some (0x31B, encPerf true f)
  | .unpin f => some (0x31C, encOne 0 f)
  | .cpset f => some (0x380, encCpset f) | .cpgo f => some (0x381, encCpgo f) | .cpred f => some (0x382, encCpred f)
  | .cpredRanked f => some (0x382, encCpredR f) | .cpq f => some (0x383, encCpq f)
  | .cpqCount f => some (0x383, encDst f)
  | .mmcfg f => some (0x384, encMmcfg f) | .mma f => some (0x385, encMma f.a f.b f.c f.d f.row.toNat false)
  | .mmaRp f => some (0x385, encMma f.a f.b f.c f.d 0 true) | .mmw f => some (0x386, encMma f.a f.b f.c f.d f.row.toNat false)
  | .mmwRp f => some (0x386, encMma f.a f.b f.c f.d 0 true) | .mmrp f => some (0x387, encDst f)
  | .prentOnce f => some (0x388, encPrent false f) | .prentHold f => some (0x388, encPrent true f)
  | .prres f => some (0x389, encPrres f) | .prrel f => some (0x38A, encPrrel f) | .leave f => some (0x38B, encOne 0 f)
  | .fixedWriteback .. | .longWriteback .. | .waitLimitExpiry .. | .yieldExpiry .. | .fetchBlockRead .. | .tableWalk ..
  | .homeRead .. | .homeWrite .. | .requestResend .. | .l1Fill .. | .mirrorFill .. | .hostReadCompletion ..
  | .zeroLengthReadDone .. | .atomicPointEvent .. | .hostAtomicCompletion .. | .counterUpdate .. | .watchReread ..
  | .watchWithdrawal .. | .ldfAtScratchpad .. | .ldfResend .. | .stfAtScratchpad .. | .granuleWithdrawal ..
  | .agldHomeRequest .. | .agstAtHome .. | .agedWithdrawal .. | .copyPacketIssue .. | .copyPacketLand .. | .peerAck ..
  | .rankedStaging .. | .heavyLeaveRequest .. | .governorGrant .. | .matrixRow .. | .prismEntryRegister ..
  | .prismRoundStart .. | .prismLatch .. | .prismWithdrawal .. | .taskDispatch .. | .priorityAging ..
  | .quantumExpiry .. | .taskSuspend .. | .stealAttempt .. | .stealRetry .. | .stealShip .. | .hostWriteIn ..
  | .hostReadIn .. | .hostAtomicopIn .. | .peerPacketIn .. | .storageIngestWrite .. | .linkFailure ..
  | .linkRetrain .. | .linkWidthChange .. | .linkFreqChange .. | .packageReset | .dieTrainingComplete .. | .getVersion
  | .getCapabilities | .negotiateAlgorithms | .getDigests | .getCertificate | .challenge | .getMeasurements
  | .keyExchange | .finish | .leaveWithdrawal .. | .flitReplay .. | .ticketNotice .. => none

/-- The header's fields, with the opcode (R40). -/
def headFields (h : Hdr) (op : Nat) : List (Nat × Nat) :=
  [(2, h.len.code), (10, op), (4, (guardCode h.guard).1), (1, (guardCode h.guard).2), (1, boolBit h.ea1),
    (1, boolBit h.ea2), (1, boolBit h.ea3)]

/-- The word of an instruction, in the form its length says. -/
def encodeWord (i : Instr) : Nat :=
  match i.parts with
  | none => 0
  | some (op, b) => packBits (headFields i.hdr op ++ b.fmt.widths.zip b.vals)

/-- The bytes of an instruction, from the lowest address up; an event has none. -/
def encode (i : Instr) : List Byte :=
  match i.parts with
  | none => []
  | some _ => leBytes i.hdr.len.bytes (encodeWord i)

/-- What the decoder reads from an instruction of nbits bits whose bits are w, bit 0 the least significant bit of its
first byte; every bit above nbits is 0, and the bytes go on with zeros to the longest instruction. -/
def decodeTableWord (nbits w : Nat) : Option Instr :=
  match decode (leBytes 16 (w % 2 ^ nbits)) with
  | .ok (i, _) => some i
  | .error _ => none

end Sys2Proof
end

