-- ==== Sys2Proof/Machine/Tab.lean ====
section
/-! DEFINITION. Tables: data by number in one canonical form. The numbers rise strictly and no entry equals the table's
default, so that equal tables are equal lists. Memory is such a table of bytes. -/

namespace Sys2Proof

/-- The entry of a number, or the default. -/
def Tab.get {α : Type} (d : α) : Tab α → Nat → α
  | [], _ => d
  | (a, v) :: r, k => if a = k then v else Tab.get d r k

/-- Drop the entries whose numbers a test names. -/
def Tab.drop {α : Type} (p : Nat → Bool) (t : Tab α) : Tab α := t.filter (fun e => !p e.1)

/-- Insert into a rising list; a value equal to the default leaves no entry of its number. -/
def Tab.set {α : Type} [DecidableEq α] (d : α) : Tab α → Nat → α → Tab α
  | [], k, v => if v = d then [] else [(k, v)]
  | (a, w) :: r, k, v =>
    if a < k then (a, w) :: Tab.set d r k v
    else if v = d then Tab.drop (fun n => n == k) ((a, w) :: r)
    else if a = k then (k, v) :: r
    else (k, v) :: (a, w) :: r

/-- Set the entries of consecutive numbers. -/
def Tab.setList {α : Type} [DecidableEq α] (d : α) (t : Tab α) (k : Nat) : List α → Tab α
  | [] => t
  | v :: r => Tab.setList d (Tab.set d t k v) (k + 1) r

/-- Set several entries, a later one over an earlier one. -/
def Tab.setMany {α : Type} [DecidableEq α] (d : α) (t : Tab α) : List (Nat × α) → Tab α
  | [] => t
  | (k, v) :: r => Tab.setMany d (Tab.set d t k v) r

/-- The entries of n consecutive numbers. -/
def Tab.getList {α : Type} (d : α) (t : Tab α) (k : Nat) : Nat → List α
  | 0 => []
  | n + 1 => Tab.get d t k :: Tab.getList d t (k + 1) n

/-- The canonical form: rising numbers, no entry equal to the default. -/
def Tab.wf {α : Type} [DecidableEq α] (d : α) : Tab α → Bool
  | [] => true
  | (a, v) :: r => decide (v ≠ d) && r.all (fun e => decide (a < e.1)) && Tab.wf d r

end Sys2Proof
end

