-- ==== Sys2Proof/Machine/State.lean ====
section
/-! DEFINITION. The machine's state: every piece the spec gives it, as plain data (the inventory lists each with its
rule), the outcomes that are no next state, and the state right after reset. Cores are numbered die × 144 + core, and
contexts core × 16 + context. -/

namespace Sys2Proof.Machine

/-- Reasons to stop as a fault. Every trap and device event of the spec is a next state, so no step raises one. -/
inductive Fault
deriving DecidableEq, Repr

/-- Reasons to refuse. -/
inductive Refusal
  /-- Raised by the dispatcher for an instruction with no meaning yet. Safe: the run stops. -/
  | notModelled (mnemonic : String)
deriving DecidableEq, Repr

/-- Where the package is in its boot (R373, R374). -/
inductive Phase | reset | dim | full
deriving DecidableEq, Repr

/-- A slice window (R15, R24): its blocks, the 2048 slices of each lane as one value of 8192 bits (a scalar window has
lane 0 alone), and a bit for each octet, 1 where it is empty. -/
structure Window where
  blocks : Nat
  lanes : Tab (BitVec 8192)
  empty : BitVec 256
deriving DecidableEq, Repr

def Window.none : Window := ⟨0, [], 0⟩

/-- The exception flags of FLG, sticky (R76). -/
structure Flags where
  (nx uf of dz nv : Bool)
deriving DecidableEq, Repr

def Flags.none : Flags := ⟨false, false, false, false, false⟩

/-- A trap's class code, address and detail (R354). -/
structure TrapInfo where
  (code : Nat) (addr info : Word)
deriving DecidableEq, Repr

/-- Why a context sleeps, or what it waits for before it goes on (R8, R26 to R29, R181, R344). -/
inductive Sleep
  | octets (l : List (FileId × Nat))
  | flight (id : Nat)
  | yield (at_ : Nat)
  | join (mask : Nat)
  | helpers
  | mmw (cmd : Nat)
  | mmrp
  | prent (entry : Nat)
  | leave (req : Nat)
  /-- The answer of an AGLD .WAIT has come, and its writeback has not (R257). -/
  | landing (wb : Nat)
  /-- The safe-point record of a resumed context is still to be read (R353). -/
  | stub (wait : Bool)
  | trapDrain (t : TrapInfo)
  | doneDrain
  | parkDrain (wait : Bool) (rec : Word)
deriving DecidableEq, Repr

/-- Context states (R8). -/
inductive Run
  | free
  | awake
  | asleep (why : Sleep) (since : Nat)
  /-- Parked at a blocking wait or at a SAFE, with the address of its record and the live bitmaps that it then gave (R342,
  R344). -/
  | parked (wait : Bool) (rec : Word) (vec sca : Nat)
deriving DecidableEq, Repr

/-- Refusals of a request: how many, when it is sent again, whether it holds a ticket, and whether an entry is
held for it (R220). -/
structure Hold where
  (refused : Nat) (sendAt : Option Nat) (ticket noticed : Bool)
deriving DecidableEq, Repr

def Hold.none : Hold := ⟨0, Option.none, false, false⟩

/-- The matrix configuration (R196). -/
structure MmCfg where
  (k sa sb sc sd : Nat) (ctr : Word) (m n : Nat) (fa fb : BFmt) (fc : Option CFmt) (fd : CFmt) (mask : BitVec 8)
deriving DecidableEq, Repr

/-- Its value at a context's start: one block of FP16 is K = 30 elements (R196). -/
def MmCfg.start : MmCfg := ⟨30, 0, 0, 0, 0, 0, 1, 1, .fp16, .fp16, none, .fp32, 0⟩

/-- The copy shadow set at a context's start (R190). -/
def shadowStart : Tab Word := [(3, 1), (4, 1), (5, 0x0000000100000001)]

/-- A fetched 32-byte block: its home key and its bytes (R61). -/
structure CodeBlock where
  (key : Nat) (bytes : List Byte)
deriving DecidableEq, Repr

/-- A translation held by a TLB: one valid leaf with its ASID and page size (R335). -/
structure TlbEntry where
  (asid : Nat) (va : Word) (size : Nat) (pa : Nat) (u x w : Bool)
deriving DecidableEq, Repr

/-- What a walk for a page of an address space gave to one that waited for it: the leaf, or the level and the cause of its
failure (R335, R336). -/
structure WalkRes where
  (asid page : Nat) (leaf : Option TlbEntry) (level cause : Nat)
deriving DecidableEq, Repr

/-- Who waits for a walk: a context, a command of an engine, or a counter update. -/
inductive Walker
  | ctx (p : Nat)
  | copy (core id : Nat)
  | mat (core id : Nat)
  | ctr (id : Nat)
deriving DecidableEq, Repr

/-- A walk in flight: the 64 KiB page it seeks, the level and the table of the next entry it reads (none: the entry of
the ASID), who has joined it, and the refusals of its next read (R220, R330, R333, R335). -/
structure Walk where
  (id asid page : Nat) (next : Option (Nat × Nat)) (waiters : List Walker) (hold : Hold)
deriving DecidableEq, Repr

/-- A barrel context (R7, R183). -/
structure Ctx where
  run : Run
  /-- First cycle in which a rotation that starts may include the context (R9). -/
  joinAt : Nat
  pc : Word
  itr : BitVec 32
  wlim : BitVec 32
  flags : Flags
  ftz : Bool
  spx : BitVec 6
  spc : BitVec 25
  sra : Word
  priv : Bool
  preds : Tab Word
  lmask : Word
  v : Window
  s : Window
  xact : Bool
  xpm : Bool
  xpc : Word
  xlen : BitVec 2
  xcode : BitVec 8
  xaddr : Word
  xinfo : Word
  xlm : Word
  xb : Tab Word
  srs : Tab (BitVec 32)
  shadow : Tab Word
  mm : MmCfg
  credits : Nat
  fetch : Option CodeBlock
  /-- Slots the context forfeits to the normaliser (R32), or while a KREQ holds it (R376). -/
  forfeits : Nat
  /-- The address at which the context goes on after its rebuild stub, while one runs, and whether that is a blocking
  wait to be reissued (R170, R353). -/
  stub : Option (Word × Bool)
  /-- Contexts whose release this context's start acquired, each with the number its operations lie below (R173). -/
  floor : List (Nat × Nat)
  /-- The instruction at pc has been counted, or is a reissue that is not counted; and the same of the instruction at the
  saved pc while a handler runs (R343). -/
  counted : Bool
  xcounted : Bool
  /-- Length bits of the instruction being issued, 3 where none is known (R380). -/
  ilen : BitVec 2
  /-- The stall list the context stands on, the matrix engine's or the copy engine's, and since which cycle (R302). -/
  stalled : Option (Bool × Nat)
  /-- Matrix commands of the context that left withdrawn when its task parked (R347). -/
  withdrawn : Nat
  /-- FENCE and similar holds have taken their first effect (R154, R184). -/
  held : Bool
  /-- Translations that walks gave the instruction at pc, held until it has performed (R336), and the walk it waits
  for. -/
  xl : List WalkRes
  walking : Option Nat
  /-- Refusals of the requests of the instruction at pc that are made at its issue or at a park, and of the fetch of a block
  (R220). -/
  hold : Hold
  fhold : Option (Word × Nat × Hold)
deriving DecidableEq, Repr

/-- A context that has never started; the values the spec does not give are those of log 12. -/
def Ctx.idle : Ctx :=
  { run := .free, joinAt := 0, pc := 0, itr := 0, wlim := 0, flags := .none, ftz := false, spx := 0, spc := 0, sra := 0
    priv := false, preds := [], lmask := 0, v := .none, s := .none, xact := false, xpm := false, xpc := 0, xlen := 0
    xcode := 0, xaddr := 0, xinfo := 0, xlm := 0, xb := [], srs := [], shadow := shadowStart, mm := .start, credits := 0
    fetch := none, forfeits := 0, stub := none, floor := [], counted := false, xcounted := false, ilen := 0, stalled := none, withdrawn := 0
    held := false, xl := [], walking := none, hold := .none, fhold := none }

/-- The effective fields of a region (R313, R314). -/
structure Eff where
  (asid : Nat) (handler : Word) (wlim : BitVec 32) (splim : BitVec 25) (ftz : Bool)
  (l1ways gblk hblk vblk sblk prio fdom partb partk cmax : Nat) (grant : BitVec 14) (quantum : Nat)
deriving DecidableEq, Repr

def Eff.zero : Eff := ⟨0, 0, 0, 65536, false, 3, 0, 0, 0, 1, 0, 0, 0, 9, 0, 0, 0⟩

/-- A task: its TCB's fields, its region and what its scheduler keeps of it (R316, R320, R322). -/
structure Task where
  uid : Nat
  tcb : Word
  entry : Word
  arg : Word
  rcb : Word
  wsp : Word
  donectr : Word
  dies : BitVec 8
  bound : Bool
  prio : Nat
  vblk : Nat
  sblk : Nat
  region : Nat
  asid : Nat
  eff : Eff
  /-- RCB addresses from the named one to the root, with their region numbers (R323). -/
  chain : List (Word × Nat)
  steward : Bool
  /-- Cycle at which the task started or last resumed (R327). -/
  started : Nat
  /-- A pre-emption request is pending (R344). -/
  pending : Bool
  /-- The time slice has run out (R327). -/
  sliceOut : Bool
deriving DecidableEq, Repr

/-- An entry of a die's ready queue (R320). -/
structure QEntry where
  task : Task
  /-- Cycle at which the TCB was first queued on any die, and the order of arrival in this queue. -/
  firstQ : Nat
  arrival : Nat
  /-- The entry is a suspended task's, whose share stays resident on a core where one is named (R348). -/
  suspended : Bool
  resident : Option Nat
  /-- Slot of the share store that holds its saved share. -/
  slot : Option Nat
  /-- Effective priority as PRIORITY_AGING last set it (R320). -/
  level : Nat
deriving DecidableEq, Repr

/-- One slice write of a writeback: the lanes and values of one destination. -/
structure SlWrite where
  (file : FileId) (start width : Nat) (vals : List (Nat × Nat))
deriving DecidableEq, Repr

/-- A predicate write: number (15 is LMASK), the bits written and their values. -/
structure PrWrite where
  (n : Nat) (mask val : Word)
deriving DecidableEq, Repr

/-- A writeback on its way (R12 to R14, R25, R30): it lands in its cycle. One whose data are missing has no cycle yet;
it gets one when they are complete (R35). -/
structure WB where
  (id ctx due : Nat) (long missing : Bool)
  (sl : List SlWrite) (pr : List PrWrite) (flags : Flags) (octs : List (FileId × Nat)) (preds : List Nat)
deriving DecidableEq, Repr

/-- An L1 line of 256 bytes (R209). -/
structure L1Line where
  (line : Nat) (data : BitVec 2048) (flagged : Bool)
deriving DecidableEq, Repr

/-- Operations of the atomics (R155). -/
inductive AtOp | add | min | max | and | or | xor | xch | cas | fadd | inc | dec
deriving DecidableEq, Repr

/-- What a memory operation in flight does at its homes. -/
inductive FlOp
  | load | cntrd | store | stf
  | femark (full : Bool)
  | gath (ty : Ty) (rnd : Rnd) (ftz : Bool)
  | scat (ty : Ty) (rnd : Rnd) (ftz : Bool)
  | agld (wait : Bool) (itr : BitVec 32) (lag : Nat) (pf pa : Nat) (da : Opnd) (lanes : Word)
  | agst (itr : BitVec 32)
  | ldf (clr : Bool)
  | atom (op : AtOp) (ty : Ty)
  | cntadd (err : Bool)
  | waitc (target : Nat) (nt : Option Nat)
  | waitf (ty : Ty) (cc : CC) (v m : Nat)
  | fill (file : FileId) (block : Nat)
deriving DecidableEq, Repr

/-- One access of an operation at one home: the bytes one lane reads or writes (R133, R217). -/
structure Part where
  (key len : Nat) (va : Word) (lane : Nat)
  /-- The translation it uses; none in a scratchpad window (R336, R337). -/
  page : Option TlbEntry
  /-- Bytes to write, by key; for a read, empty. -/
  bytes : Tab Byte
  /-- Operands. A load: b says whether L1 may serve it, whether its line is flagged there, whether a Mirror copy may
  serve it, and whether its line is allocated in L1. GATH and SCAT: the format code in a, for SCAT the lane's value in b, the element in c. An atomic: b, or c
  and nv of ATCAS. FILL: in a its block of the range, in c the number of the instruction's first read. AGLD: in a whether no refresh is installed, in b whether the local replica may serve it, in c the
  stamp read. FEMARK: in a the granules already marked. -/
  (a b c : Nat)
  /-- Performed; the value read, or the old value an atomic returned; and how the test of a wait came out. -/
  done : Bool
  (res code : Nat)
  /-- Refusals so far, the cycle of the next sending, whether a ticket is held, whether its entry is held (R220). -/
  refused : Nat
  sendAt : Option Nat
  ticket : Bool
  noticed : Bool
deriving DecidableEq, Repr

/-- Why a withdrawal was sent (R261, R273, R278, R300). -/
inductive Why | limit | preempt
deriving DecidableEq, Repr

/-- A memory operation issued and not yet complete (R138, R233 to R237). -/
structure Flight where
  (id core ctx : Nat) (op : FlOp) (parts : List Part)
  dst : Option Opnd
  wb : Option Nat
  /-- Its task, address space, region and fault domain. -/
  (uid asid region fdom : Nat)
  (isLoad isStore : Bool)
  /-- A store's colour; none for a colourless store (R242). -/
  colour : Option Nat
  acquire : Bool
  /-- A release's mask (R236). -/
  release : Option (BitVec 8)
  scope : Scope
  hint : Hint
  /-- Home ordering of a store, which invalidates the Mirror copy (R137). -/
  home : Bool
  gen : BitVec 16
  /-- Host stores not yet confirmed by a zero-length read (R240). -/
  hostPend : Bool
  /-- Waiting at the home, with its order of entry; refused and to be sent again at a cycle (R147, R259, R277). -/
  parked : Option Nat
  resendAt : Option Nat
  withdraw : Option Why
  (pc : Word) (nextPc : Word)
  /-- Lines whose access at the home has been counted (R219). -/
  lines : List Nat
  /-- Releases that its context's start acquired (R206), and the region of its task with its ancestors (R324). -/
  floor : List (Nat × Nat)
  chain : List Nat
deriving DecidableEq, Repr

/-- A line on its way into L1, and whether an invalidation has cancelled its installation (R233). -/
structure L1FillReq where
  (id line : Nat) (data : BitVec 2048) (flagged cancelled : Bool)
deriving DecidableEq, Repr

/-- The state of a heavy command's leave (R205, R312). -/
inductive Leave | notNeeded | needed | asked | granted
deriving DecidableEq, Repr

/-- A copy command (R190 to R194, R303). -/
structure CopyCmd where
  (id xid core ctx uid asid region prio fdom : Nat) (priv : Bool)
  (src dst : Word) (len0 len1 len2 : Nat) (ss0 ss1 ss2 ds0 ds1 ds2 : Int) (counter : Word) (esz : Nat) (fe : Bool)
  (hint : Hint)
  /-- An addition of a type, with rank and greatest rank in the ranked form (R194). -/
  red : Option (Ty × Option (Nat × Nat))
  /-- Next byte to copy, counted over all elements in order. -/
  next : Nat
  (started issued : Bool)
  /-- Packets issued whose landing or count is still to come. -/
  open_ : Nat
  fault : Option Nat
  (leave : Leave) (allowance : Nat)
  /-- The release of the launch: the operations it waits for, each with whether at SYS scope (R240). -/
  after : List (Nat × Bool)
  /-- Translations that walks gave its next packet. -/
  xl : List WalkRes
deriving DecidableEq, Repr

/-- Where an issued packet stands: its source read, posted, sent to a peer, or staged (R192, R306, R307, R289). -/
inductive PktStage | issued | ready | hostPosted | peerSent | staged
deriving DecidableEq, Repr

/-- A source piece of a packet: its key, its length, its virtual address, and its bytes once they are read. -/
structure SrcPiece where
  (key len : Nat) (va : Word) (got : Option (List Byte))
deriving DecidableEq, Repr

/-- An issued copy packet: its destination, the byte of its first element it begins with, and source pieces in order
(R192, R307). -/
structure Packet where
  (id cmd : Nat) (dstVa : Word) (dstKey len off : Nat) (src : List SrcPiece) (data : List Byte) (stage : PktStage)
  /-- The translations of its destination and of its sources (R337). -/
  (dstPage : Option TlbEntry) (srcPages : List TlbEntry)
  /-- Refusals by a slice, or by the staging of the destination's slice (R220, R289). -/
  hold : Hold
deriving DecidableEq, Repr

/-- A matrix command (R197, R303). -/
structure MatCmd where
  (id core ctx uid asid region prio fdom : Nat) (priv : Bool) (a b c d : Word) (cfg : MmCfg) (first row : Nat) (wait : Bool)
  (begun : Bool) (fault : Option Nat) (leave : Leave) (allowance : Nat) (after : List (Nat × Bool))
  /-- Translations that walks gave its next row, and refusals of that row's request. -/
  (xl : List WalkRes) (hold : Hold)
deriving DecidableEq, Repr

/-- The status of a transfer (R195). -/
structure XferStatus where
  (xid : Nat) (done : Bool) (code : Nat)
deriving DecidableEq, Repr

/-- A core: its array, shared windows, rotation, writebacks, caches and engines. -/
structure Core where
  task : Option Task
  /-- A suspended task whose share stays here (R348). -/
  resident : Option Nat
  l1ways : Nat
  g : Window
  h : Window
  /-- Contexts still to have their slot in this rotation; the cycles of the next slot and the next rotation (R9). -/
  rot : List Nat
  slotAt : Nat
  rotAt : Nat
  wbs : List WB
  l1 : List L1Line
  fills : List L1FillReq
  l0 : List CodeBlock
  tlb : List TlbEntry
  copies : List CopyCmd
  packets : List Packet
  /-- First cycle in which the copy engine may issue its next packet (R307). -/
  pktAt : Nat
  mats : List MatCmd
  xid : Nat
  statuses : List XferStatus
  rpr : BitVec 6
  efcr : Word
  efca : Word
  efmr : Word
  efma : Word
  perf : Tab Word
  /-- Cycle of the core's die reset (R183). -/
  cycle0 : Nat
deriving DecidableEq, Repr

def Core.idle : Core :=
  { task := none, resident := none, l1ways := 3, g := .none, h := .none, rot := [], slotAt := 0, rotAt := 0, wbs := []
    l1 := [], fills := [], l0 := [], tlb := [], copies := [], packets := [], pktAt := 0, mats := [], xid := 1, statuses := []
    rpr := 0, efcr := 0, efca := 0, efmr := 0, efma := 0, perf := [], cycle0 := 0 }

/-- A retention register with the region and ASID recorded at its write (R225). -/
structure Rtn where
  (val : Word) (region asid : Nat)
  /-- The first way it reserves, as the last SYSWR to a retention register laid the ways out (R226). -/
  first : Nat
deriving DecidableEq, Repr

def Rtn.free : Rtn := ⟨0, 0, 0, 0⟩

/-- A Mirror copy of a line, with its blocks' stamps and generation tag (R221, R263). -/
structure MirrorCopy where
  (line : Nat) (data : BitVec 2048) (stamps : List (BitVec 32)) (gen : BitVec 16)
  /-- Key index of each sector as read at the home, and the number of the replacement of that key since (R376). -/
  keys : List (Option (BitVec 12) × Option Nat)
  /-- What the check value that came with each sector differs by from that of its bytes, and sectors with an uncorrectable error, as
  in memory (R358, R362, log 106). -/
  diff : Tab (BitVec 32)
  ue : Tab Bool
deriving DecidableEq, Repr

/-- A line on its way into a die's Mirror carve (R222, R263). -/
structure MirrorFillReq where
  (id : Nat) (copy : MirrorCopy) (aged cancelled : Bool)
deriving DecidableEq, Repr

/-- A request to a die's power governor: a command of an engine, or a LEAVE of a context (R312, R378). -/
inductive GovWho
  | copy (core id : Nat)
  | mat (core id : Nat)
  | leave (core ctx n : Nat)
deriving DecidableEq, Repr

structure GovReq where
  (id : Nat) (who : GovWho) (cost prio : Nat) (withdraw : Option Why)
deriving DecidableEq, Repr

/-- A steal attempt under way: the neighbours still to be asked (R325). -/
inductive Steal
  | idle
  | asking (left : List Nat)
  | retryAt (cycle : Nat)
deriving DecidableEq, Repr

/-- The configuration record of a die's image (R373). -/
structure ConfigRec where
  (hcfg atbl : Word) (iocfg : List (Nat × Word)) (rootAsid : BitVec 12) (stewardTcb : Word) (budget basel : BitVec 16)
  /-- Preload sections: physical address and bytes. -/
  preload : List (Nat × List Byte)
  /-- The repair map: which of the physical cores and slices work (R365). -/
  cores : BitVec 152
  slices : BitVec 528
deriving DecidableEq, Repr

/-- A die image in the boot flash: its firmware, its configuration record, and the signature on both. -/
structure DieImage where
  (firmware sig : List Byte) (cfg : ConfigRec)
deriving DecidableEq, Repr

/-- Where a die is in its boot. -/
inductive DiePhase | held | training | trained | fenced
deriving DecidableEq, Repr

/-- A compute die with its base die. -/
structure Die where
  phase : DiePhase
  gen : BitVec 16
  mirror : List MirrorCopy
  mfills : List MirrorFillReq
  rtn : Tab Rtn
  atbl : Word
  shst : Word
  hcfg : Word
  basel : Nat
  budget : Nat
  used : Nat
  reqs : List GovReq
  tlb : List TlbEntry
  walks : List Walk
  overflow : Word
  agedDiscard : Word
  queue : List QEntry
  steal : Steal
  rootAsid : Nat
  stewardTcb : Word
  /-- Share-store slots that hold a share. -/
  slots : List Nat
  /-- Physical numbers of the logical cores and slices, as the repair map was fused (R365). -/
  coreMap : List Nat
  sliceMap : List Nat
  /-- The steward has been discarded with the whole device and starts again from its TCB: the chain whose LIVE words count it
  (R323, R359). -/
  restart : Option (List (Word × Nat))
deriving DecidableEq, Repr

def Die.held : Die :=
  { phase := .held, gen := 0, mirror := [], mfills := [], rtn := [], atbl := 0, shst := 0, hcfg := 0, basel := 0
    budget := 0, used := 0, reqs := [], tlb := [], walks := [], overflow := 0, agedDiscard := 0, queue := [], steal := .idle
    rootAsid := 0, stewardTcb := 0, slots := [], coreMap := [], sliceMap := [], restart := none }

/-- A live coherence object: its shape record and the partition read at OBJDEF (R213, R216). -/
structure Obj where
  (base : Word) (size : Nat) (described : Option Nat) (mirrorable aged writable : Bool) (home : Nat) (asid : Nat)
  (partb partk : Nat)
deriving DecidableEq, Repr

/-- A physical range whose blocks carry the aged mark, with its object (R252). -/
structure AgedRange where
  (obj start len : Nat)
deriving DecidableEq, Repr

/-- One way of an L2 set: the line it holds, sector bits, word masks, keep mark and the request that placed it. -/
structure L2Way where
  (line : Option Nat) (valid dirty : BitVec 4) (masks : BitVec 64) (keep : Bool) (va : Word) (asid : Nat)
deriving DecidableEq, Repr

def L2Way.invalid : L2Way := ⟨none, 0, 0, 0, false, 0, 0⟩

/-- A set of an L2 slice: its ways, and their order, most recently used first (R217, R218). -/
structure L2Set where
  (ways : Tab L2Way) (order : List Nat)
deriving DecidableEq, Repr

def L2Set.blank : L2Set := ⟨[], []⟩

/-- A request to a slice: an access of an operation, a packet of a core's copy engine, a row of its matrix engine, a counter
update, one from outside the package, the fetch of a context's block, a request that a context's instruction makes at its issue,
or the next read of a die's walk. -/
inductive Requester
  | part (flight n : Nat)
  | fetch (p : Nat)
  | ctx (p : Nat)
  | walk (die id : Nat)
  | packet (core id : Nat)
  | row (core id : Nat)
  | update (id : Nat)
  | outside
deriving DecidableEq, Repr

/-- A request that holds an entry or a ticket of a slice, and its requester port (R220). -/
structure SliceReq where
  (who : Requester) (port : Nat)
deriving DecidableEq, Repr

/-- What a slice keeps of requests: tracker entries and tickets (R220), entries of the aged-wait list held for tickets and
those tickets (R259), and the same of the reduction staging (R289). -/
structure Slice where
  (tracker tickets waitHeld waitTickets stageHeld stageTickets : List SliceReq)
deriving DecidableEq, Repr

def Slice.empty : Slice := ⟨[], [], [], [], [], []⟩

/-- A ranked partial, with its type and the byte of its first element that it begins with, and the entry that gathers them
(R289). -/
structure Partial where
  (rank core cmd pkt region : Nat) (ty : Ty) (off : Nat) (data : List Byte)
deriving DecidableEq, Repr

structure Staging where
  (slice key len rmax : Nat) (parts : List Partial)
deriving DecidableEq, Repr

/-- Who asked for a counter update: it decides what a failure does (R193, R323). -/
inductive CtrWho
  | copy (core cmd : Nat)
  | mat (core cmd row : Nat)
  | control (die : Nat)
  | ingest
deriving DecidableEq, Repr

/-- What a counter update does to its word (R161, R279). -/
inductive CtrAct
  | add (n : Nat)
  | err (code : Nat)
deriving DecidableEq, Repr

/-- A counter update on its way (R276, R279). -/
structure CtrUp where
  (id die asid : Nat) (va : Word) (act : CtrAct) (who : CtrWho) (priv : Bool) (uid region : Nat)
  /-- The fault domain of its maker, none for a scheduler's or a port's; and what a dropped update records: the issuing
  context, and the transfer id or the row, none for a cancelled matrix command's (R308). -/
  (fdom : Option Nat) (about : Option (Nat × Nat))
  /-- The operations its release waits for, and the LIVE words that change after it, of a task's end (R323). -/
  (after : List (Nat × Bool)) (live : List (Word × Nat))
  (xl : List WalkRes) (hold : Hold)
deriving DecidableEq, Repr

/-- An entry of a Prism contest: a context's, or a die governor's (R292, R379). -/
structure PrismEntry where
  (id die core ctx : Nat) (key : BitVec 32) (hold gov : Bool) (uid : Nat) (wb : Nat) (pw : BitVec 4)
  (sentAt : Nat) (regAt : Option Nat) (withdraw : Option Why) (nextPc : Word) (region : Nat)
deriving DecidableEq, Repr

/-- The holder of a contest (R298). -/
structure Holder where
  (uid : Nat) (key : BitVec 32) (die core region : Nat)
deriving DecidableEq, Repr

/-- A round in progress: its start cycle and the entries that belonged to it then (R293, R294). -/
structure Round where
  (start : Nat) (entries : List PrismEntry)
deriving DecidableEq, Repr

structure Contest where
  (latched : Word) (holder : Option Holder) (round : Option Round) (entries : List PrismEntry)
deriving DecidableEq, Repr

def Contest.none : Contest := ⟨0, Option.none, Option.none, []⟩

/-- A link of the package (R363, R364). -/
structure Link where
  (down : Bool) (narrowed freq replays retrains : Nat)
deriving DecidableEq, Repr

def Link.full : Link := ⟨false, 0, 0, 0, 0⟩

/-- The algorithms of the Loupe (R375). -/
inductive HashAlg | sha384
deriving DecidableEq, Repr
inductive SignAlg | ecdsaBrainpoolP384r1
deriving DecidableEq, Repr

/-- A response of the Loupe over the DOE mailbox (R375): the version, the algorithms with the extended asymmetric ones. -/
inductive SpdmMsg
  | version (major minor : Nat)
  | capabilities
  | algorithms (hash : HashAlg) (extended : List SignAlg)
  | digests (d : BitVec 384)
  | certificate (c : List Byte)
  | challengeAuth (sig : List Byte)
  | measurements (m : List (Nat × BitVec 384))
  | keyExchange (sig : List Byte)
  | finish
deriving DecidableEq, Repr

/-- A packet the device has sent to a peer, to storage, or back through a port. -/
inductive Out
  | write (port : Nat) (addr : Nat) (data : List Byte)
  | readData (port : Nat) (data : List Byte)
  | unsupported (port : Nat)
  | abort (port : Nat)
  | atomicData (port : Nat) (old : Word)
  | read (port : Nat) (addr n : Nat)
  | ack (port : Nat)
  | nack (port code : Nat)
deriving DecidableEq, Repr

/-- The whole machine. -/
structure State where
  /-- Time in units of 1/36 ns, which every clock of the package divides (R2). -/
  time : Nat
  /-- Arithmetic cycles since package reset. -/
  cycle : Nat
  phase : Phase
  /-- The cycle at which the clocks double: the rotation boundary after full service begins (R374). -/
  fullAt : Nat
  /-- The core and context whose slot it is: the model's own turn marker (log 1). -/
  curCore : Nat
  curCtx : Nat
  /-- Events the outside world brings, each with the cycle from which it may come: the model's own list (log 2). -/
  inputs : List (Nat × Instr)
  /-- Refusals of the first of them that asks for an access (R220). -/
  outHold : Hold
  /-- The number the next free value is taken at: the model's own field (log 3). -/
  freeCtr : Nat
  /-- The number the next operation in flight takes: the model's own (log 1). -/
  nextId : Nat
  /-- Bytes of device memory, host memory and scratchpads by key (log 4). -/
  mem : Tab Byte
  /-- Scratchpad granules whose tag is empty (R267). -/
  emptyTags : Tab Bool
  aged : List AgedRange
  stamps : Tab (BitVec 32)
  /-- Key index of each 64-byte sector of device memory that has been written (R376, log 5). -/
  keyIdx : Tab (Option (BitVec 12))
  keyReq : BitVec 12
  /-- What the stored check value of a sector differs by from the CRC-32C of its bytes: 0 where it verifies (R361, log 106). -/
  checkDiff : Tab (BitVec 32)
  /-- Sectors whose key has been replaced since they were written, with the number of the replacement (R376, log 15). -/
  stale : Tab (Option Nat)
  /-- Uncorrectable errors, which the environment brings (R358, log 107): in sectors, in octets of register pools, in the
  queue entries of engine commands and of stores, and in shared control state; and how many errors have been corrected. -/
  ueSectors : Tab Bool
  ueRegs : Tab Bool
  ueCmds : List Nat
  ueCtl : List Nat
  corrected : Nat
  objs : Tab (Option Obj)
  flights : List Flight
  ctrUps : List CtrUp
  staging : List Staging
  l2 : Tab L2Set
  slices : Tab Slice
  contests : Tab Contest
  evbase : Word
  evctl : Word
  evSeq : Nat
  evHeld : List (List Byte)
  msix : Nat
  iocfg : Tab Word
  inga : Tab Word
  ingl : Tab Word
  ingc : Tab Word
  links : Tab Link
  flash : Tab (Option DieImage)
  measurements : Tab (BitVec 384)
  fencedMask : BitVec 8
  spdm : List SpdmMsg
  out : List Out
  /-- Dies on which a region's tasks have run (R324). -/
  ranOn : Tab (BitVec 8)
  /-- Events that must come before any waits longer, and the cycle at which the next such list is made: the model's own
  (R35, log 13). -/
  sweep : List Instr
  sweepAt : Nat
  /-- The limits of waits are being taken: nothing else comes in this cycle any more (R28; the model's own, log 13). -/
  closing : Bool
  dies : Tab Die
  cores : Tab Core
  ctxs : Tab Ctx
deriving DecidableEq, Repr

/-- The package at reset: only the Loupe runs, the boot flash is empty, no die is released (R373, log 9). -/
def State.reset : State :=
  { time := 0, cycle := 0, phase := .reset, fullAt := 0, curCore := 0, curCtx := 0, inputs := [], outHold := .none, freeCtr := 0, nextId := 1, mem := []
    emptyTags := [], aged := [], stamps := [], keyIdx := [], keyReq := 0, checkDiff := [], stale := [], ueSectors := []
    ueRegs := [], ueCmds := [], ueCtl := [], corrected := 0, objs := []
    flights := [], ctrUps := [], staging := [], l2 := [], slices := [], contests := [], evbase := 0, evctl := 0
    evSeq := 0, evHeld := [], msix := 0, iocfg := [], inga := [], ingl := [], ingc := [], links := [], flash := []
    measurements := [], fencedMask := 0, spdm := [], out := [], ranOn := [], sweep := [], sweepAt := 0, closing := false, dies := []
    cores := [], ctxs := [] }

end Sys2Proof.Machine
end

