-- ==== Sys2Proof/Machine/Base.lean ====
section
/-! DEFINITION. Named operations on the state's parts: cores, contexts, dies, windows, predicates, octets and memory
bytes. Every other file reads and writes the state through them. -/

namespace Sys2Proof.Machine

/-! Cores, contexts and dies. -/

def coresPerDie : Nat := 144

/-- Number of a context among all contexts. -/
def ctxId (c k : Nat) : Nat := c * 16 + k

def coreDie (c : Nat) : Nat := c / coresPerDie

def State.core (s : State) (c : Nat) : Core := Tab.get Core.idle s.cores c
def State.setCore (s : State) (c : Nat) (x : Core) : State := { s with cores := Tab.set Core.idle s.cores c x }
def State.modCore (s : State) (c : Nat) (f : Core → Core) : State := s.setCore c (f (s.core c))

def State.ctx (s : State) (p : Nat) : Ctx := Tab.get Ctx.idle s.ctxs p
def State.setCtx (s : State) (p : Nat) (x : Ctx) : State := { s with ctxs := Tab.set Ctx.idle s.ctxs p x }
def State.modCtx (s : State) (p : Nat) (f : Ctx → Ctx) : State := s.setCtx p (f (s.ctx p))

def State.die (s : State) (d : Nat) : Die := Tab.get Die.held s.dies d
def State.setDie (s : State) (d : Nat) (x : Die) : State := { s with dies := Tab.set Die.held s.dies d x }
def State.modDie (s : State) (d : Nat) (f : Die → Die) : State := s.setDie d (f (s.die d))

def State.contest (s : State) (c : Nat) : Contest := Tab.get Contest.none s.contests c
def State.setContest (s : State) (c : Nat) (x : Contest) : State :=
  { s with contests := Tab.set Contest.none s.contests c x }

/-- The context whose slot it is. -/
def State.cur (s : State) : Nat := ctxId s.curCore s.curCtx

/-- A number for an operation in flight. -/
def State.fresh (s : State) : State := { s with nextId := s.nextId + 1 }

/-- The cores of the package in ascending number. -/
def State.coreNums (s : State) : List Nat := s.cores.map (fun e => e.1)

/-- The contexts of a core. -/
def ctxNums : List Nat := List.range 11

/-- Cycles of the base dies (1.8 GHz) and of Prism's plane (800 MHz) since package reset (R2, R291). -/
def State.baseCycle (s : State) : Nat := s.time / 20
def State.planeCycle (s : State) : Nat := s.time / 45

/-- Time per arithmetic cycle: 2.25 GHz in full service, from the rotation boundary at which the clocks double, and half
before (R2, R374). -/
def State.period (s : State) : Nat := if s.phase = .full ∧ s.fullAt ≤ s.cycle then 16 else 32

/-! Bits of natural numbers. -/

/-- Bits pos + len - 1 to pos. -/
def bitsAt (x pos len : Nat) : Nat := x / 2 ^ pos % 2 ^ len

/-- The value with bits pos + len - 1 to pos replaced. -/
def setBitsAt (x pos len v : Nat) : Nat :=
  x % 2 ^ pos + v % 2 ^ len * 2 ^ pos + x / 2 ^ (pos + len) * 2 ^ (pos + len)

def bitAt (x n : Nat) : Bool := x / 2 ^ n % 2 = 1

/-- Bit of a lane in a predicate word. -/
def laneBit (w : Word) (l : Nat) : Bool := bitAt w.toNat l

/-- The word with the bits of the listed lanes set. -/
def lanesWord (l : List Nat) : Word := l.foldl (fun w n => w ||| (1#64 <<< n)) 0

def allOnes : Word := BitVec.allOnes 64

/-- The 64 lanes. -/
def lanes64 : List Nat := List.range 64

/-! Windows (R15, R24). -/

/-- The slices of an operand's place in a lane. -/
def Window.read (w : Window) (lane start width : Nat) : Nat :=
  bitsAt (Tab.get 0 w.lanes lane).toNat (4 * start) (4 * width)

def Window.write (w : Window) (lane start width v : Nat) : Window :=
  let x := BitVec.ofNat 8192 (setBitsAt (Tab.get 0 w.lanes lane).toNat (4 * start) (4 * width) v)
  { w with lanes := Tab.set 0 w.lanes lane x }

def Window.writes (w : Window) (start width : Nat) : List (Nat × Nat) → Window
  | [] => w
  | (l, v) :: r => Window.writes (w.write l start width v) start width r

def Window.isEmpty (w : Window) (octet : Nat) : Bool := bitAt w.empty.toNat octet
def Window.mark (w : Window) (octet : Nat) (e : Bool) : Window :=
  { w with empty := BitVec.ofNat 256 (setBitsAt w.empty.toNat octet 1 (if e then 1 else 0)) }

/-- A window of zero-filled, full blocks (R16). -/
def Window.alloc (blocks : Nat) : Window := ⟨blocks, [], 0⟩

/-- A context's view of a file: its private windows, or its core's shared ones (R15). -/
def State.window (s : State) (p : Nat) (f : FileId) : Window :=
  match f with
  | .v => (s.ctx p).v
  | .s => (s.ctx p).s
  | .g => (s.core (p / 16)).g
  | .h => (s.core (p / 16)).h

def State.setWindow (s : State) (p : Nat) (f : FileId) (w : Window) : State :=
  match f with
  | .v => s.modCtx p (fun x => { x with v := w })
  | .s => s.modCtx p (fun x => { x with s := w })
  | .g => s.modCore (p / 16) (fun x => { x with g := w })
  | .h => s.modCore (p / 16) (fun x => { x with h := w })

/-- The octets an operand touches (R14). -/
def octetsOf (start width : Nat) : List Nat :=
  (List.range ((start + width - 1) / 8 - start / 8 + 1)).map (fun n => start / 8 + n)

end Sys2Proof.Machine

namespace Sys2Proof

open Machine

def Opnd.octets (o : Opnd) : List (FileId × Nat) := (octetsOf o.start.toNat o.width).map (fun n => (o.file, n))

end Sys2Proof

namespace Sys2Proof.Machine

def State.octetEmpty (s : State) (p : Nat) (x : FileId × Nat) : Bool := (s.window p x.1).isEmpty x.2

def State.markOctet (s : State) (p : Nat) (e : Bool) (x : FileId × Nat) : State :=
  s.setWindow p x.1 ((s.window p x.1).mark x.2 e)

def State.markOctets (s : State) (p : Nat) (e : Bool) (l : List (FileId × Nat)) : State :=
  l.foldl (fun t x => t.markOctet p e x) s

/-- The value an operand holds in a lane; a scalar is the same in every lane (R19). -/
def State.readOp (s : State) (p : Nat) (o : Opnd) (lane : Nat) : Nat :=
  (s.window p o.file).read (if o.isVec then lane else 0) o.start.toNat o.width

/-- Write lanes of a destination. -/
def State.writeSl (s : State) (p : Nat) (x : SlWrite) : State :=
  s.setWindow p x.file ((s.window p x.file).writes x.start x.width x.vals)

/-! Predicates (R91). -/

def Ctx.pred (x : Ctx) (n : Nat) : Word := if n = 15 then x.lmask else Tab.get 0 x.preds n

def Ctx.setPred (x : Ctx) (n : Nat) (w : Word) : Ctx :=
  if n = 15 then { x with lmask := w } else { x with preds := Tab.set 0 x.preds n w }

def Ctx.writePred (x : Ctx) (w : PrWrite) : Ctx :=
  x.setPred w.n ((x.pred w.n &&& ~~~w.mask) ||| (w.val &&& w.mask))

/-- The guard of an instruction in a lane (R40, R41). -/
def Ctx.guardAt (x : Ctx) (h : Hdr) (lane : Nat) : Bool :=
  match h.guard with
  | none => true
  | some g => laneBit (x.pred g.pred.val) lane != g.inv

/-- Lane l is active: its LMASK bit is 1 and the guard holds in it (R19). -/
def Ctx.active (x : Ctx) (h : Hdr) (lane : Nat) : Bool := laneBit x.lmask lane && x.guardAt h lane

def Ctx.activeLanes (x : Ctx) (h : Hdr) : List Nat := lanes64.filter (x.active h)

/-! Bytes of memory. A key names a byte: the physical address for device and host memory, and for a scratchpad a number
past every physical address. -/

def scratchBase : Nat := 2 ^ 65

/-- The key of a scratchpad byte (R208). -/
def scratchKey (core off : Nat) : Nat :=
  scratchBase + coreDie core * 2 ^ 32 + core % coresPerDie * 2 ^ 21 + off

/-- The key of a host bus address: host memory's physical window is 0x8 to 0xF (R304). -/
def hostKey (addr : Nat) : Nat := 2 ^ 47 + addr

/-- The core whose scratchpad holds a key. -/
def scratchCore (key : Nat) : Nat := (key - scratchBase) / 2 ^ 32 * coresPerDie + bitsAt (key - scratchBase) 21 11

def isScratch (key : Nat) : Bool := decide (scratchBase ≤ key)
def isHost (key : Nat) : Bool := decide (2 ^ 47 ≤ key) && decide (key < scratchBase)
def isGlobal (key : Nat) : Bool := decide (key < 2 ^ 45)

/-- What a byte nothing has written reads as: 0 (log 4). -/
def Memory.unlisted : Byte := 0

/-- Memory's canonical form. -/
abbrev Memory.wf (m : Tab Byte) : Bool := Tab.wf Memory.unlisted m

def State.byte (s : State) (k : Nat) : Byte := Tab.get Memory.unlisted s.mem k
def State.bytes (s : State) (k n : Nat) : List Byte := Tab.getList Memory.unlisted s.mem k n
def State.setByte (s : State) (k : Nat) (b : Byte) : State := { s with mem := Tab.set Memory.unlisted s.mem k b }
def State.setBytes (s : State) (l : List (Nat × Byte)) : State := { s with mem := Tab.setMany Memory.unlisted s.mem l }

/-- A little-endian value in memory (R4). -/
def State.word (s : State) (k n : Nat) : Nat := leVal (s.bytes k n)

/-- Bytes with their keys. -/
def keyed (k : Nat) (l : List Byte) : List (Nat × Byte) := l.zipIdx.map (fun p => (k + p.2, p.1))

/-- A 256-byte line as one value, and a byte of it. -/
def State.line (s : State) (line : Nat) : BitVec 2048 := BitVec.ofNat 2048 (leVal (s.bytes (256 * line) 256))
def lineByte (d : BitVec 2048) (n : Nat) : Byte := BitVec.ofNat 8 (bitsAt d.toNat (8 * n) 8)

/-! Scratchpads (R208, R267). -/

def shareOf (l1ways : Nat) : Nat := (8 - l1ways) * 262144

/-- The share of a core's array: its ways that are not L1. -/
def State.share (s : State) (c : Nat) : Nat := shareOf (s.core c).l1ways

/-- Key of the granule of a byte. -/
def granule (k : Nat) : Nat := k / 16

def State.tagFull (s : State) (k : Nat) : Bool := !Tab.get false s.emptyTags (granule k)
def State.setTag (s : State) (k : Nat) (full : Bool) : State :=
  { s with emptyTags := Tab.set false s.emptyTags (granule k) (!full) }

/-- A new share: bytes zero, tags full (R268). An LDF of another core that is parked on it stays parked (DEDUCED, log 139). -/
def State.clearShare (s : State) (c : Nat) : State :=
  let lo := scratchKey c 0
  let hi := scratchKey c 2097152
  { s with
    mem := Tab.drop (fun k => decide (lo ≤ k) && decide (k < hi)) s.mem
    emptyTags := Tab.drop (fun g => decide (lo ≤ 16 * g) && decide (16 * g < hi)) s.emptyTags }

/-! Uncorrectable errors in register pools (R358). -/

/-- The number of an octet of a context's windows; the shared ones are numbered as those of context 15 of their core. -/
def regKey (p : Nat) (x : FileId × Nat) : Nat :=
  (if x.1 = .g || x.1 = .h then p / 16 * 16 + 15 else p) * 1024 + (if x.1.isVec then 512 else 0) + x.2

/-- An octet of some holds an error. -/
def State.ueIn (s : State) (p : Nat) (l : List (FileId × Nat)) : Bool := l.any (fun x => Tab.get false s.ueRegs (regKey p x))

/-- Errors go with the contents of the octets that hold them. -/
def State.renewRegs (s : State) (gone : Nat → Bool) : State := { s with ueRegs := Tab.drop gone s.ueRegs }

/-- Octets whose whole contents a slice write replaces. -/
def SlWrite.wholeOctets (w : SlWrite) : List (FileId × Nat) :=
  if w.file.isVec && decide (w.vals.length < 64) then []
  else ((octetsOf w.start w.width).filter (fun o => decide (w.start ≤ 8 * o) && decide (8 * o + 8 ≤ w.start + w.width))).map
    (fun o => (w.file, o))

def State.renewWrites (s : State) (p : Nat) (l : List SlWrite) : State :=
  s.renewRegs (fun k => (l.flatMap SlWrite.wholeOctets).any (fun o => regKey p o = k))

/-! Stochastic rounding (R79). -/

/-- The state SEED s leaves in a lane. -/
def seedState (v l : Nat) : BitVec 32 :=
  let x := Nat.xor (v % 2 ^ 32) ((l + 1) * 0x9E3779B9 % 2 ^ 32)
  if x = 0 then 1 else BitVec.ofNat 32 x

def seedStates (v : Nat) : Tab (BitVec 32) := lanes64.map (fun l => (l, seedState v l))

/-! Free values: what the spec leaves open is taken from Config at a counter (log 3). -/

def State.useFree (s : State) : State := { s with freeCtr := s.freeCtr + 1 }

/-! Event counts (R187). -/

def State.count (s : State) (c ev : Nat) (n : Nat) : State :=
  s.modCore c (fun x => { x with perf := Tab.set 0 x.perf ev (Tab.get 0 x.perf ev + BitVec.ofNat 64 n) })

/-! Flights. -/

def State.addFlight (s : State) (f : Flight) : State := { s with flights := s.flights ++ [f] }
def State.flight (s : State) (id : Nat) : Option Flight := s.flights.find? (fun f => f.id == id)
def State.setFlight (s : State) (f : Flight) : State :=
  { s with flights := s.flights.map (fun g => if g.id = f.id then f else g) }
def State.dropFlight (s : State) (id : Nat) : State := { s with flights := s.flights.filter (fun f => f.id ≠ id) }

def Flight.allDone (f : Flight) : Bool := f.parts.all (fun p => p.done)
def Flight.part (f : Flight) (n : Nat) : Option Part := f.parts[n]?
def Flight.setPart (f : Flight) (n : Nat) (p : Part) : Flight := { f with parts := f.parts.set n p }

/-- Two byte ranges overlap. -/
def overlaps (a n b m : Nat) : Bool := decide (a < b + m) && decide (b < a + n)

def Flight.touches (f : Flight) (k n : Nat) : Bool := f.parts.any (fun p => overlaps p.key p.len k n)

end Sys2Proof.Machine
end

