-- ==== Sys2Proof/Machine/Operands.lean ====
section
/-! DEFINITION. Operand forms: integer extension, truncation, saturation and fitting (R20), scalar operands of the
system classes (R167), immediates, and the addresses of memory operands (R133). -/

namespace Sys2Proof

/-- Conditions on integers (R100). -/
def CC.holds (c : CC) (a b : Int) : Bool :=
  match c with
  | .eq => a = b | .ne => a ≠ b | .lt => a < b | .le => a ≤ b | .gt => a > b | .ge => a ≥ b

end Sys2Proof

namespace Sys2Proof.Machine

/-- An n-bit pattern as an integer. -/
def toInt (signed : Bool) (n x : Nat) : Int :=
  if signed ∧ 2 ^ (n - 1) ≤ x % 2 ^ n then (x % 2 ^ n : Nat) - (2 ^ n : Nat) else (x % 2 ^ n : Nat)

/-- The n low bits of an integer. -/
def ofInt (n : Nat) (v : Int) : Nat := (v % (2 ^ n : Nat)).toNat

/-- The range of an n-bit type (R64). -/
def minOf (signed : Bool) (n : Nat) : Int := if signed then -(2 ^ (n - 1) : Nat) else 0
def maxOf (signed : Bool) (n : Nat) : Int := if signed then (2 ^ (n - 1) : Nat) - 1 else (2 ^ n : Nat) - 1

def clampInt (signed : Bool) (n : Nat) (v : Int) : Int := max (minOf signed n) (min v (maxOf signed n))

/-- A source of wx bits at an integer type: extended or truncated to W bits, as an integer (R20). -/
def intVal (t : Ty) (wx x : Nat) : Int := toInt t.isSigned (min wx t.bits) x

/-- The result of an integer operation in W bits, and fitted to a destination of wd bits (R20). -/
def fitInt (t : Ty) (sat : Bool) (wd : Nat) (v : Int) : Nat :=
  let r := if sat then clampInt t.isSigned t.bits v else toInt t.isSigned t.bits (ofInt t.bits v)
  ofInt wd (if sat ∧ wd < t.bits then clampInt t.isSigned wd r else r)

/-- A W-bit pattern fitted to a destination of wd bits, without saturation. -/
def fitBits (t : Ty) (wd x : Nat) : Nat := ofInt wd (toInt t.isSigned t.bits x)

/-- A source operand in a lane, as an integer of a type. -/
def State.intOp (s : State) (p : Nat) (t : Ty) (o : Opnd) (lane : Nat) : Int := intVal t o.bits (s.readOp p o lane)

/-- A source operand in a lane, as a W-bit pattern of a type. -/
def State.bitsOp (s : State) (p : Nat) (t : Ty) (o : Opnd) (lane : Nat) : Nat := ofInt t.bits (s.intOp p t o lane)

/-- A scalar operand of the system classes: unsigned, 64 bits (R167). -/
def State.u64 (s : State) (p : Nat) (o : Opnd) : Nat := s.readOp p o 0 % 2 ^ 64

/-- An operand or, in its place, an immediate extended with zeros (R167). -/
def State.opImm {n : Nat} (s : State) (p : Nat) (x : OpImm n) : Nat :=
  match x with
  | .reg o => s.u64 p o
  | .imm v => v.toNat

/-- A 64-bit unsigned value fitted to a destination (R20). -/
def fit64 (d : Opnd) (v : Nat) : Nat := fitBits .n64 d.bits v

/-- An immediate of n bits, sign-extended. -/
def sext {n : Nat} (v : BitVec n) : Int := v.toInt

end Sys2Proof.Machine
end

