-- ==== Sys2Proof/Config.lean ====
section
/-! DEFINITION. What the implementation or the world decides: opaque constants with no body, so that nothing can be
proved of their values. Each is applied to a plain counter of the state, or to the operands it depends on. -/

namespace Sys2Proof

/-- Which of the events that may come next comes, or none: the rules fix no time for them (R35, log 13). -/
opaque Config.freeChoice : Nat → Nat

/-- Bytes that a peer, the storage link or the host answers to a read (R304, R305, log 14). -/
opaque Config.freeByte : Nat → Nat → Byte

/-- SHA-384 of a byte string (R373, log 15). -/
opaque Config.sha384 : List Byte → BitVec 384

/-- Whether a signature on an image is the vendor's (R373, log 15). -/
opaque Config.signatureOk : List Byte → List Byte → Bool

/-- The Loupe firmware and whether the vendor key hash admits it (R373, log 15). -/
opaque Config.loupeFirmware : List Byte
opaque Config.loupeFirmwareOk : Bool

/-- The Loupe's certificate chain, and its signatures over SPDM exchanges (R375, log 15). -/
opaque Config.certificate : List Byte
opaque Config.spdmSignature : Nat → List Byte

/-- An element of a reduction that two packets split between them: what the part of an integer one gains, by the part's bytes of the
addend, their number and their place in the element; a byte of another type's, by the type, the bytes of the destination, those
added, the element's place and the byte's (R192, R194, R290, log 21). -/
opaque Config.splitPart : Nat → Nat → Nat → Nat
opaque Config.splitSum : Nat → List Byte → List (List Byte) → Nat → Nat → Byte

/-- The cycle from which a sector of a replaced key, by the number of the replacement, lies in no cache any more, if it ever
leaves them unwritten (R376, log 15). -/
opaque Config.leavesCaches : Nat → Nat → Option Nat

/-- How many cycles an operation that the rules give no time takes beyond the next one: any finite number (R35, log 13). -/
opaque Config.latency : Nat → Nat

end Sys2Proof
end

