-- ==== Sys2Proof/Machine/Translate.lean ====
section
/-! DEFINITION. Address spaces: scratchpad windows and holes (R208), device and other physical windows (R212, R304),
table walks (R330 to R333), TLBs (R335), objects (R213, R214) and the checks 9b to 9d of an access (R134, R135). -/

namespace Sys2Proof.Machine

/-! Trap classes (R354). -/

def tUndef : TrapInfo := ⟨0x01, 0, 0⟩
def tPriv : TrapInfo := ⟨0x02, 0, 0⟩
def tSliceRange (pos : Nat) : TrapInfo := ⟨0x03, 0, BitVec.ofNat 64 pos⟩
def tSliceWidth (pos : Nat) : TrapInfo := ⟨0x04, 0, BitVec.ofNat 64 pos⟩
def tSliceAlias : TrapInfo := ⟨0x05, 0, 0⟩
def tEmptyRead (src : Nat) : TrapInfo := ⟨0x06, 0, BitVec.ofNat 64 src⟩
def tWaitLimit (wlim : BitVec 32) : TrapInfo := ⟨0x07, 0, wlim.setWidth 64⟩
def tAgeTimeout (addr : Word) (itr : BitVec 32) (lag : Nat) : TrapInfo :=
  ⟨0x08, addr, BitVec.ofNat 64 (itr.toNat * 2 ^ 32 + lag)⟩
def tXlate (addr : Word) (level cause : Nat) : TrapInfo := ⟨0x09, addr, BitVec.ofNat 64 (16 * cause + level)⟩
/-- PROT for a reason of R355. -/
def tProt (addr : Word) (reason : Nat) : TrapInfo := ⟨0x0A, addr, BitVec.ofNat 64 (0x20000 + reason)⟩
/-- PROT for a field of a control record, at its byte offset (R355). -/
def tField (addr : Word) (off : Nat) : TrapInfo := ⟨0x0A, addr, BitVec.ofNat 64 off⟩
def tStraddle (addr : Word) : TrapInfo := ⟨0x0B, addr, 0⟩
def tAlign (addr : Word) (n : Nat) : TrapInfo := ⟨0x0C, addr, BitVec.ofNat 64 n⟩
def tAtomUnsupported (addr lanes : Word) : TrapInfo := ⟨0x0D, addr, lanes⟩
def tAtomLost (addr lanes : Word) : TrapInfo := ⟨0x0E, addr, lanes⟩
def tEngineFault (info : Nat) : TrapInfo := ⟨0x0F, 0, BitVec.ofNat 64 info⟩
def tBlockFormat (addr : Word) (byte0 : Nat) : TrapInfo := ⟨0x10, addr, BitVec.ofNat 64 byte0⟩
def tSafeDrought (splim : BitVec 25) : TrapInfo := ⟨0x11, 0, splim.setWidth 64⟩
def tBoundAbsent (tcb : Word) (mask : Nat) : TrapInfo := ⟨0x12, tcb, BitVec.ofNat 64 mask⟩
def tPrismOwner (c : Nat) : TrapInfo := ⟨0x13, 0, BitVec.ofNat 64 c⟩
def tSoft (code : BitVec 8) : TrapInfo := ⟨0x14, 0, code.setWidth 64⟩

/-- The code CANCELLED of counters and MMW (R357). -/
def cancelled : Nat := 0x7F

/-! Physical windows. -/

def gib : Nat := 2 ^ 30

def hcfgIntl (w : Word) : Nat := bitsAt w.toNat 0 7
def hcfgMirr (w : Word) : Nat := bitsAt w.toNat 8 6

/-- Bytes of a die's local share (R368). -/
def State.localShare (s : State) (d : Nat) : Nat :=
  (96 - hcfgIntl (s.die d).hcfg - hcfgMirr (s.die d).hcfg) * gib

/-- Where a physical address leads (R212, R304). -/
inductive Target
  | global (die off : Nat)
  | beyond
  | peer (port addr : Nat)
  | storage (addr : Nat)
  | host (addr : Nat)
  | nothing
deriving DecidableEq, Repr

/-- The home die and the offset in its share of a physical address; an offset beyond the share is no device memory. -/
def State.target (s : State) (pa : Nat) : Target :=
  let n := bitsAt pa 44 4
  if n = 0 then
    let d := bitsAt pa 12 3
    let off := bitsAt pa 15 29 * 4096 + bitsAt pa 0 12
    if off < hcfgIntl (s.die d).hcfg * gib then .global d off else .beyond
  else if n = 1 then
    if bitAt pa 43 then .nothing
    else
      let d := bitsAt pa 40 3
      let off := bitsAt pa 0 40
      if off < s.localShare d then .global d off else .beyond
  else if n = 2 then .peer (bitsAt pa 42 2) (bitsAt pa 0 42)
  else if n = 3 then .storage (bitsAt pa 0 44)
  else if n < 8 then .nothing
  else .host (bitsAt pa 0 47)

/-- A device physical address within its share. -/
def State.inDevice (s : State) (pa : Nat) : Bool :=
  match s.target pa with
  | .global _ _ => true
  | _ => false

/-- The home die of a line of global memory. -/
def homeDie (pa : Nat) : Nat := if bitsAt pa 44 4 = 0 then bitsAt pa 12 3 else bitsAt pa 40 3

/-- The offset of a line within its home die's share (R216). -/
def homeOff (pa : Nat) : Nat :=
  if bitsAt pa 44 4 = 0 then bitsAt pa 15 29 * 4096 + bitsAt pa 0 12 else bitsAt pa 0 40

/-! Walks. -/

/-- Bits 63:57 all equal bit 56 (R330). -/
def canonical (va : Word) : Bool :=
  let t := va.toNat / 2 ^ 56
  decide (t = 0) || decide (t = 255)

/-- A sector of memory under a key that has been replaced, from when it has left the caches, where it lies in plaintext
(R376, log 15). -/
def staleNow (mark : Option Nat) (x cycle : Nat) : Bool :=
  match mark with
  | none => false
  | some n =>
    match Config.leavesCaches n x with
    | none => false
    | some t => decide (t ≤ cycle)

/-- The kind of device event that a consumer of a sector meets: 1 an uncorrectable error, 2 a check-value mismatch (R358,
R362). -/
def State.badSector (s : State) (x : Nat) : Option Nat :=
  if Tab.get false s.ueSectors x then some 1
  else if Tab.get 0 s.checkDiff x ≠ 0 || staleNow (Tab.get none s.stale x) x s.cycle then some 2
  else none

/-- Why a walk failed: the level and the cause of R356; or, with a cause from 0x100 on, a table entry at physical address
`level` whose sector does not verify, and the kind of its device event (R362). -/
structure WalkErr where
  (level cause : Nat)
deriving DecidableEq, Repr

/-- The cause of an access whose translation no TLB holds and no walk has given it yet; its level is the address space. -/
def missCause : Nat := 0x200

/-- What the accessor meets: the XLATE trap, or the mark of a device event or of a miss, which no trap class has. -/
def WalkErr.info (e : WalkErr) (va : Word) : TrapInfo :=
  if 0x100 ≤ e.cause then ⟨e.cause, BitVec.ofNat 64 e.level, va⟩ else tXlate va e.level e.cause

/-- The kind of device event that a failed check stands for. -/
def TrapInfo.event (t : TrapInfo) : Option Nat := if 0x100 < t.code then some (t.code - 0x100) else none

/-- The check is not over: a translation is still to be walked for. -/
def TrapInfo.isMiss (t : TrapInfo) : Bool := decide (t.code = missCause)

/-- First VA bit and width of each level's index (R330). -/
def levelShift : Nat → Nat
  | 0 => 39 | 1 => 30 | 2 => 21 | _ => 16
def levelBits : Nat → Nat
  | 0 => 18 | 1 => 9 | 2 => 9 | _ => 5
/-- Alignment of the table a level's entry names. -/
def nextAlign : Nat → Nat
  | 0 => 4096 | 1 => 4096 | _ => 256

/-- The 64 KiB page of an address. -/
def pageOf (va : Word) : Nat := va.toNat / 65536
def pageVa (page : Nat) : Word := BitVec.ofNat 64 (page * 65536)

/-- What reading one entry gives a walk: the level and the table of the next entry, the leaf, or the failure. -/
inductive WalkStep
  | next (level tbl : Nat)
  | leaf (e : TlbEntry)
  | fail (e : WalkErr)

/-- Physical address of the entry that a walk reads in a table. -/
def entryAt (va : Word) (level tbl : Nat) : Nat := tbl + 8 * bitsAt va.toNat (levelShift level) (levelBits level)

/-- The entry of a table at a level (R332, R333). A root table outside the device is met before any table entry is read: level
0xF (R356). -/
def State.walkEntry (s : State) (asid : Nat) (va : Word) (level tbl : Nat) : WalkStep :=
  let ea := entryAt va level tbl
  if !s.inDevice ea then .fail ⟨if level = 0 then 0xF else level, 5⟩
  else
  match s.badSector (ea / 64) with
  | some k => .fail ⟨ea, 0x100 + k⟩
  | none =>
    let e := s.word ea 8
    let addr := bitsAt e 8 40 * 256
    let leaf := bitAt e 1
    let size := 2 ^ levelShift level
    if !bitAt e 0 then .fail ⟨level, 1⟩
    else if bitsAt e 48 16 ≠ 0 ∨ bitsAt e 5 3 ≠ 0 then .fail ⟨level, 2⟩
    else if (level = 0 ∧ leaf) ∨ (level = 3 ∧ !leaf) then .fail ⟨level, 3⟩
    else if leaf then
      if addr % size ≠ 0 then .fail ⟨level, 4⟩
      else .leaf ⟨asid, BitVec.ofNat 64 (va.toNat / size * size), size, addr, bitAt e 4, bitAt e 3, bitAt e 2⟩
    else if addr % nextAlign level ≠ 0 then .fail ⟨level, 4⟩
    else .next (level + 1) addr

/-- Physical address of an ASID's entry in a die's table (R331). -/
def State.asidAt (s : State) (d asid : Nat) : Nat := bitsAt (s.die d).atbl.toNat 15 33 * 32768 + 8 * asid

/-- The first entry of a walk: that of the address space (R331, R332). -/
def State.walkRoot (s : State) (d asid : Nat) (va : Word) : WalkStep :=
  if !canonical va then .fail ⟨0xF, 7⟩
  else if !bitAt (s.die d).atbl.toNat 0 then .fail ⟨0xF, 6⟩
  else
    let ea := s.asidAt d asid
    if !s.inDevice ea then .fail ⟨0xF, 5⟩
    else
    match s.badSector (ea / 64) with
    | some k => .fail ⟨ea, 0x100 + k⟩
    | none =>
      let e := s.word ea 8
      if !bitAt e 0 ∨ bitsAt e 48 16 ≠ 0 ∨ bitsAt e 1 20 ≠ 0 then .fail ⟨0xF, 6⟩
      else .next 0 (bitsAt e 21 27 * 2097152)

/-- The rest of a walk that reads every entry at one instant. -/
def State.walkFrom (s : State) (asid : Nat) (va : Word) : Nat → WalkStep → Except WalkErr TlbEntry
  | _, .leaf e => .ok e
  | _, .fail e => .error e
  | 0, .next level _ => .error ⟨level, 3⟩
  | fuel + 1, .next level tbl => State.walkFrom s asid va fuel (s.walkEntry asid va level tbl)

/-- The walk in flight for the page of an address. -/
def State.walkOf (s : State) (d asid : Nat) (va : Word) : Option Walk :=
  (s.die d).walks.find? (fun w => w.asid = asid && w.page = pageOf va)

/-- The next read of a walk (R333). -/
def State.walkNext (s : State) (d asid : Nat) (va : Word) (next : Option (Nat × Nat)) : WalkStep :=
  match next with
  | none => s.walkRoot d asid va
  | some (level, tbl) => s.walkEntry asid va level tbl

/-- Physical address of the entry that a walk reads next, where it reads one. -/
def State.walkRead (s : State) (d asid : Nat) (va : Word) (next : Option (Nat × Nat)) : Option Nat :=
  let k := match next with
    | none => s.asidAt d asid
    | some (level, tbl) => entryAt va level tbl
  if s.inDevice k && (next.isSome || (canonical va && bitAt (s.die d).atbl.toNat 0)) then some k else none

/-- A walk of a die's tables for an address space whose reads all come at one instant (R330 to R333): it goes on where the walk
in flight for the page stands (R335). -/
def State.walk (s : State) (d asid : Nat) (va : Word) : Except WalkErr TlbEntry :=
  s.walkFrom asid va 4 (s.walkNext d asid va ((s.walkOf d asid va).bind (fun w => w.next)))

/-- A TLB entry serves an address of its own address space (R335). -/
def TlbEntry.serves (e : TlbEntry) (asid : Nat) (va : Word) : Bool :=
  decide (e.asid = asid) && decide (e.va.toNat ≤ va.toNat) && decide (va.toNat < e.va.toNat + e.size)

def tlbFind (l : List TlbEntry) (asid : Nat) (va : Word) : Option TlbEntry := l.find? (fun e => e.serves asid va)

/-- An entry enters at the front; when the TLB is full its oldest entry leaves (log 18). -/
def tlbAdd (cap : Nat) (l : List TlbEntry) (e : TlbEntry) : List TlbEntry :=
  if e ∈ l then l else (e :: l).take cap

/-- Capacities of the core's L0 TLB and the die's shared TLB, and a die's walkers (R335). -/
def l0TlbSize : Nat := 64
def dieTlbSize : Nat := 16384
def walkers : Nat := 128

/-- Who accesses: core (for its windows and its L0 TLB), die, address space, region, mode, and whether the access is an
engine's, which uses no L0 TLB (R303, R334); the translations it holds (R336), and whether it waits for a walk. The
schedulers and the ports do not, for their accesses lie within one step: their walks read every entry at one instant
(log 84). -/
structure Who where
  (core die asid region : Nat) (priv engine : Bool) (xl : List WalkRes) (waits : Bool)
deriving DecidableEq, Repr

/-- The translation an access uses: one it holds, the L0 TLB's unless it is an engine's, the die TLB's; else it is walked
for (R303, R335, R336). -/
def State.findXlat (s : State) (w : Who) (va : Word) : Except WalkErr TlbEntry :=
  match w.xl.find? (fun r => r.asid = w.asid && r.page = pageOf va) with
  | some r =>
    (match r.leaf with
      | some e => .ok e
      | none => .error ⟨r.level, r.cause⟩)
  | none =>
    match if w.engine then none else tlbFind (s.core w.core).tlb w.asid va with
    | some e => .ok e
    | none =>
      match tlbFind (s.die w.die).tlb w.asid va with
      | some e => .ok e
      | none => if w.waits then .error ⟨w.asid, missCause⟩ else s.walk w.die w.asid va

/-- Install a translation in the TLBs that its access uses. -/
def State.keepXlat (s : State) (core : Option Nat) (d : Nat) (e : TlbEntry) : State :=
  let s := s.modDie d (fun x => { x with tlb := tlbAdd dieTlbSize x.tlb e })
  match core with
  | none => s
  | some c => s.modCore c (fun x => { x with tlb := tlbAdd l0TlbSize x.tlb e })

def TlbEntry.pa_ (e : TlbEntry) (va : Word) : Nat := e.pa + (va.toNat - e.va.toNat)

/-! Walks in flight (R335). -/

/-- A context knows the walk it waits for. -/
def State.waitsFor (s : State) (who : Walker) (id : Nat) : State :=
  match who with
  | .ctx p => s.modCtx p (fun x => { x with walking := some id })
  | _ => s

/-- A miss joins the walk in flight for its page, starts one, or with every walker busy waits for one. -/
def State.askWalk (s : State) (d asid : Nat) (va : Word) (who : List Walker) : State :=
  match s.walkOf d asid va with
  | some w =>
    let t := s.modDie d (fun x => { x with walks := x.walks.map (fun v =>
      if v.id = w.id then { v with waiters := v.waiters.filter (fun q => q ∉ who) ++ who } else v) })
    who.foldl (fun t q => t.waitsFor q w.id) t
  | none =>
    if (s.die d).walks.length < walkers then
      let t := s.fresh.modDie d (fun x => { x with walks := x.walks ++ [⟨s.nextId, asid, pageOf va, none, who, .none⟩] })
      who.foldl (fun t q => t.waitsFor q s.nextId) t
    else s

/-- Someone waits for a walk. -/
def State.inWalk (s : State) (d : Nat) (who : Walker) : Bool := (s.die d).walks.any (fun w => w.waiters.contains who)

/-- A walk's result reaches one that waits for it: a context only while that is the walk it waits for. -/
def State.tellWalker (s : State) (id : Nat) (r : WalkRes) (who : Walker) : State :=
  match who with
  | .ctx p =>
    s.modCtx p (fun x => if x.walking = some id then { x with xl := r :: x.xl, walking := none } else x)
  | .copy c i => s.modCore c (fun x => { x with copies := x.copies.map (fun m =>
      if m.id = i then { m with xl := r :: m.xl } else m) })
  | .mat c i => s.modCore c (fun x => { x with mats := x.mats.map (fun m =>
      if m.id = i then { m with xl := r :: m.xl } else m) })
  | .ctr i => { s with ctrUps := s.ctrUps.map (fun u => if u.id = i then { u with xl := r :: u.xl } else u) }

/-- A walk is over: it leaves its walker, and everyone who joined it has its result. -/
def State.endWalk (s : State) (d : Nat) (w : Walk) (leaf : Option TlbEntry) (level cause : Nat) : State :=
  let t := s.modDie d (fun x => { x with walks := x.walks.filter (fun v => v.id ≠ w.id) })
  w.waiters.foldl (fun t q => t.tellWalker w.id ⟨w.asid, w.page, leaf, level, cause⟩ q) t

/-- A leaf ends every walk of its address space for a page that it maps: those misses needed the same leaf. -/
def State.leafFound (s : State) (d asid : Nat) (e : TlbEntry) : State :=
  let t := s.keepXlat none d e
  ((t.die d).walks.filter (fun v => v.asid = asid && e.serves asid (pageVa v.page))).foldl
    (fun t v => t.endWalk d v (some e) 0 0) t

/-! Regions of addresses (R208). -/

inductive Region | window (core : Nat) | hole | paged
deriving DecidableEq, Repr

def localBase : Nat := 0x00007F0000000000
def peerBase : Nat := 0x00007E0000000000

def inLocal (va : Word) : Bool := decide (localBase ≤ va.toNat) && decide (va.toNat < localBase + 2097152)
def inPeer (va : Word) : Bool := decide (peerBase ≤ va.toNat) && decide (va.toNat < peerBase + 2 ^ 35)

/-- The region of an address as a core's access sees it, and the scratchpad offset. -/
def State.regionOf (s : State) (core : Nat) (va : Word) : Region × Nat :=
  let a := va.toNat
  if localBase ≤ a ∧ a < localBase + 2097152 then
    if a - localBase < s.share core then (.window core, a - localBase) else (.hole, 0)
  else if peerBase ≤ a ∧ a < peerBase + 2 ^ 35 then
    let d := bitsAt (a - peerBase) 32 3
    let c := bitsAt (a - peerBase) 21 11
    let off := bitsAt (a - peerBase) 0 21
    if coresPerDie ≤ c then (.hole, 0)
    else
      let t := d * coresPerDie + c
      if (s.core t).task.isNone ∨ off < s.share t then (.window t, off) else (.hole, 0)
  else (.paged, 0)

/-! Objects. -/

/-- The live object that covers an address of an address space (R214). -/
def State.object (s : State) (asid : Nat) (va : Word) : Option (Nat × Obj) :=
  s.objs.findSome? (fun e => e.2.bind (fun o =>
    if o.asid = asid ∧ o.base.toNat ≤ va.toNat ∧ va.toNat < o.base.toNat + o.size then some (e.1, o) else none))

/-- The physical block carries the aged mark (R252). -/
def State.isAged (s : State) (pa : Nat) : Bool :=
  s.aged.any (fun r => decide (r.start ≤ pa) && decide (pa < r.start + r.len))

/-- An object's HOME agrees with where its page lies (R214). -/
def Obj.homeOk (o : Obj) (pa : Nat) : Bool :=
  if o.home = 0xFF then bitsAt pa 44 4 = 0 else bitsAt pa 44 4 = 1 && bitsAt pa 40 3 = o.home

/-- Kinds of access, as the columns of R135 and the engine and device accesses beside them. -/
inductive Acc
  | ld | st | gath | scat | agld | agst | granuleRd | granuleWr | atomic | hostAtomic | counter | fetch | copyRd | copyWr
  | copyRed | matRd | matWr | sysRd | sysWr
deriving DecidableEq, Repr

def Acc.writes : Acc → Bool
  | .st | .scat | .agst | .granuleWr | .atomic | .hostAtomic | .copyWr | .copyRed | .matWr | .sysWr => true
  | _ => false

/-- Scratchpad is a target of the access (R135, R305, R310). -/
def Acc.onScratch : Acc → Bool
  | .ld | .st | .granuleRd | .granuleWr | .atomic | .hostAtomic | .counter | .copyRd | .copyWr | .fetch | .matRd | .matWr
  | .sysRd | .sysWr => true
  | .gath | .scat | .agld | .agst | .copyRed => false

/-- Whether an access may reach global memory with the attributes of an object: described, aged, writable (R135). -/
def Acc.onGlobal (a : Acc) (described aged writable : Bool) : Bool :=
  match a with
  | .ld | .fetch | .copyRd | .matRd | .sysRd => true
  | .st | .atomic | .hostAtomic | .copyWr | .copyRed | .matWr | .sysWr => writable && !aged
  | .gath => described && !aged
  | .scat => described && writable && !aged
  | .agld | .agst => aged
  | .granuleRd | .granuleWr => false
  | .counter => !aged

/-- Whether an access may reach host memory. -/
def Acc.onHost : Acc → Bool
  | .ld | .st | .hostAtomic | .atomic | .copyRd | .copyWr => true
  | _ => false

/-- A translated access: its key, its translation and its object. -/
structure Place where
  key : Nat
  xlat : Option TlbEntry
  obj : Option (Nat × Obj)
deriving DecidableEq, Repr

/-- A peer window of a core: a task runs there, of the accessor's region or for an accessor of region 0 (R271). -/
def State.peerOk (s : State) (w : Who) (t : Nat) : Bool :=
  match (s.core t).task with
  | none => false
  | some k => k.region = w.region || w.region = 0

/-- A window of a core for an access: the local window names the share of the accessor's task, which an engine reaches although
the task does not run (R303); a context's own task runs on its core. -/
def State.windowOk (s : State) (w : Who) (va : Word) (t : Nat) : Bool :=
  (decide (t = w.core) && (!w.engine || inLocal va)) || s.peerOk w t

/-- The share that an operation of a context reaches when it is applied: its own task's, or that of a task running on the
target core that it may reach (R271). -/
def State.reaches (s : State) (f : Flight) (key : Nat) : Bool :=
  !isScratch key ||
  (match (s.core (scratchCore key)).task with
    | none => scratchCore key = f.core && f.uid = 0
    | some k => if scratchCore key = f.core then k.uid = f.uid else k.region = f.region || f.region = 0)

/-- Checks 9b to 9d of one access of n bytes at va; 9a is the instruction's own (R134, R135, R334). -/
def State.place (s : State) (w : Who) (a : Acc) (va : Word) (n : Nat) : Except TrapInfo Place :=
  let last := va + BitVec.ofNat 64 (n - 1)
  let r := s.regionOf w.core va
  if r.1 ≠ (s.regionOf w.core last).1 then .error (tStraddle va)
  else
    match r.1 with
    | .hole => .error (tXlate va 0xF 8)
    | .window t =>
      if !s.windowOk w va t then .error (tProt va 8)
      else if !a.onScratch then .error (tProt va 4)
      else .ok ⟨scratchKey t r.2, none, none⟩
    | .paged =>
      match s.findXlat w va, s.findXlat w last with
      | .error e, _ => .error (e.info va)
      | .ok _, .error e => .error (e.info last)
      | .ok e, .ok _ =>
        let pa := e.pa_ va
        if !w.priv ∧ !e.u then .error (tProt va 1)
        else if a.writes ∧ !e.w then .error (tProt va 2)
        else if a = .fetch ∧ !e.x then .error (tProt va 3)
        else if ((s.object w.asid va).map (fun x => x.2.homeOk pa)).getD true = false then .error (tProt va 4)
        else
          match s.target pa with
          | .global _ _ =>
            let o := s.object w.asid va
            match o with
            | none => if a.onGlobal false false true then .ok ⟨pa, some e, none⟩ else .error (tProt va 4)
            | some x =>
              if a.onGlobal x.2.described.isSome x.2.aged x.2.writable then .ok ⟨pa, some e, o⟩
              else .error (tProt va 4)
          | .host h => if a.onHost then .ok ⟨hostKey h, some e, none⟩ else .error (tProt va (if a = .fetch then 3 else 4))
          | .peer _ _ | .storage _ =>
            if a = .copyRd ∨ a = .copyWr then .ok ⟨pa, some e, none⟩
            else .error (tProt va (if a = .fetch then 3 else 4))
          | .beyond | .nothing => .error (tProt va (if a = .fetch then 3 else 4))

/-- Keep the translation of a place in the TLBs. -/
def State.keepPlace (s : State) (w : Who) (p : Place) : State :=
  match p.xlat with
  | none => s
  | some e => s.keepXlat (if w.engine then none else some w.core) w.die e

/-- The accessor that a context is. -/
def State.who (s : State) (p : Nat) : Who :=
  let c := p / 16
  match (s.core c).task with
  | none => ⟨c, coreDie c, 0, 0, (s.ctx p).priv, false, (s.ctx p).xl, true⟩
  | some t => ⟨c, coreDie c, t.asid, t.region, (s.ctx p).priv, false, (s.ctx p).xl, true⟩

/-- A context's miss: the slot is forfeited until the walk has given the translation. -/
def State.walkMiss (s : State) (p : Nat) (t : TrapInfo) : State :=
  s.askWalk (coreDie (p / 16)) t.addr.toNat t.info [.ctx p]

end Sys2Proof.Machine
end

