-- ==== Sys2Proof/Machine/Home.lean ====
section
/-! DEFINITION. Events at homes: the check values of sectors (R361, R362), writes and the key index they leave (R231,
R376), watches of counter words (R160, R163, R276), and the served waiters of a granule (R147, R272). -/

namespace Sys2Proof.Machine

/-- The 64-byte sectors of bytes. -/
def sectorsOf (l : List (Nat × Byte)) : List Nat := (l.map (fun e => e.1 / 64)).dedup

def wholeSector (l : List (Nat × Byte)) (x : Nat) : Bool := (l.filter (fun e => e.1 / 64 = x)).length = 64

/-! Check values (R361). -/

/-- One bit of CRC-32C with the register reflected: the polynomial 0x1EDC6F41 from its other end. -/
def crcBit (r : Nat) : Nat := if bitAt r 0 then Nat.xor (r / 2) 0x82F63B78 else r / 2

def crcByte (r : Nat) (b : Byte) : Nat :=
  (List.range 8).foldl (fun x _ => crcBit x) (Nat.xor r b.toNat)

/-- CRC-32C of bytes: initial value and final XOR 0xFFFFFFFF. -/
def crc32c (l : List Byte) : BitVec 32 := BitVec.ofNat 32 (Nat.xor (l.foldl crcByte 0xFFFFFFFF) 0xFFFFFFFF)

/-- What a sector's check value covers: its 64 bytes, and for an aged block its stamp and the byte 0x01. -/
def State.checked (s : State) (x : Nat) : List Byte :=
  s.bytes (64 * x) 64 ++ if s.isAged (64 * x) then leBytes 4 (Tab.get 0 s.stamps x).toNat ++ [1] else []

/-- The check value that the bytes of a sector give, and the one stored with it. -/
def State.checkValue (s : State) (x : Nat) : BitVec 32 := crc32c (s.checked x)
def State.storedCheck (s : State) (x : Nat) : BitVec 32 := s.checkValue x ^^^ Tab.get 0 s.checkDiff x

/-- Physical address of the sector of a key; a scratchpad has none (R360). -/
def sectorPa (key : Nat) : Nat := if isScratch key then 0 else key / 64 * 64

/-- The kind of device event a consumer of bytes meets: 1 an uncorrectable error, 2 a check-value mismatch. -/
def State.badBytes (s : State) (keys : List Nat) : Option Nat :=
  (((keys.map (fun k => k / 64)).dedup).filterMap s.badSector).min?

/-- The first of some bytes whose sector is that of the event. -/
def State.badKey (s : State) (keys : List Nat) : Nat :=
  (keys.find? (fun k => (s.badSector (k / 64)).isSome && s.badSector (k / 64) = s.badBytes keys)).getD (keys.headD 0)

def keysOf (k n : Nat) : List Nat := (List.range n).map (fun j => k + j)

/-- Test of a watch against its word: 0 where it holds, 1 + code where a WAITC reports an error (R160, R163). -/
def watchTest (op : FlOp) (w : Nat) : Option Nat :=
  match op with
  | .waitc target _ =>
    if bitAt w 63 then some (1 + bitsAt w 56 7) else if target % 2 ^ 56 ≤ w % 2 ^ 56 then some 0 else none
  | .waitf ty cc v m =>
    let f := fun x => toInt ty.isSigned ty.bits (Nat.land x m)
    if cc.holds (f w) (f v) then some 0 else none
  | _ => none

/-- How a watch ends that does not reach the share of its word any more: it traps PROT (R271). -/
def noShareCode : Nat := 0x100

def isWatch (op : FlOp) : Bool :=
  match op with
  | .waitc .. | .waitf .. => true
  | _ => false

/-- Retest one watch after an event that wrote bytes (R276); the access is applied then, to the share that it may reach
(R271). -/
def State.retestOne (s : State) (keys : List Nat) (f : Flight) : Flight :=
  match f.parked, f.parts with
  | some _, [p] =>
    if !isWatch f.op ∨ p.done ∨ !keys.any (fun k => decide (p.key ≤ k) && decide (k < p.key + p.len)) then f
    else
      match if s.reaches f p.key then watchTest f.op (s.word p.key p.len) else some noShareCode with
      | none => f
      | some r => { f with parts := [{ p with done := true, code := r }] }
  | _, _ => f

/-- Every watch of the written words is tested at the event (R276). -/
def State.retest (s : State) (keys : List Nat) : State := { s with flights := s.flights.map (s.retestOne keys) }

/-- Sectors that a write changes only in part: those it verifies first (R362). -/
def partSectors (l : List (Nat × Byte)) : List Nat := (sectorsOf l).filter (fun x => !wholeSector l x)

/-- A key in the first of them whose sector does not verify. -/
def State.badWrite (s : State) (l : List (Nat × Byte)) : Nat := s.badKey ((partSectors l).map (fun x => 64 * x))

/-- Write bytes at their home under an ASID's key index; a partial write of a sector that does not verify is not
applied and answers the kind of its device event (R362, R376). -/
def State.writeHome (s : State) (asid : Nat) (l : List (Nat × Byte)) : Except Nat State :=
  let secs := sectorsOf l
  match s.badBytes ((partSectors l).map (fun x => 64 * x)) with
  | some k => .error k
  | none =>
    let dev := secs.filter (fun x => isGlobal (64 * x))
    let t := s.setBytes l
    let t := { t with keyIdx := Tab.setMany none t.keyIdx (dev.map (fun x => (x, some (BitVec.ofNat 12 asid)))) }
    let t := { t with checkDiff := Tab.setMany 0 t.checkDiff (secs.map (fun x => (x, 0))) }
    let t := { t with stale := Tab.setMany none t.stale (secs.map (fun x => (x, none))) }
    let t := { t with ueSectors := Tab.setMany false t.ueSectors (secs.map (fun x => (x, false))) }
    .ok (t.retest (l.map (fun e => e.1)))

/-- A write whose failure leaves the state as it is. -/
def State.writeOr (s : State) (asid : Nat) (l : List (Nat × Byte)) : State :=
  match s.writeHome asid l with
  | .ok t => t
  | .error _ => s

/-- Bytes of a little-endian value. -/
def wordBytes (n v : Nat) : List Byte := leBytes n v

/-- A counter word after an addition or an error (R161, R275). -/
def ctrNew (act : CtrAct) (w : Nat) : Nat :=
  match act with
  | .add n => w / 2 ^ 56 * 2 ^ 56 + (w + n) % 2 ^ 56
  | .err code => if bitAt w 63 then w else w % 2 ^ 56 + (128 + code % 128) * 2 ^ 56

/-! Event records (R360). -/

/-- A device event; an FDOM past 255 stands for an event that discards no domain, for which the record's byte is a free
value (log 14). -/
structure DevEvent where
  (kind fdom die link region asid pa va tasks : Nat)
deriving DecidableEq, Repr

/-- Number of the host link and of the storage link; die-to-die links are 0 to 9, peers 12 to 15 (PRESUMED, log 8). -/
def hostLink : Nat := 10
def storageLink : Nat := 11

def State.linkDown (s : State) (n : Nat) : Bool := (Tab.get Link.full s.links n).down

/-- CYCLE of a core (R183). -/
def State.cycleOf (s : State) (c : Nat) : Nat := s.cycle - (s.core c).cycle0

/-- The record of an event; of one met in a sector, pa is the key of some byte of it, and the record names the sector. -/
def DevEvent.bytes (e : DevEvent) (seq cycle : Nat) : List Byte :=
  let fdom := if e.fdom < 256 then leBytes 1 e.fdom else [Config.freeByte seq 9]
  let pa := if e.kind ≤ 2 then sectorPa e.pa else e.pa
  leBytes 8 seq ++ leBytes 1 e.kind ++ fdom ++ leBytes 1 e.die ++ leBytes 1 e.link ++ leBytes 2 e.region
    ++ leBytes 2 e.asid ++ leBytes 8 pa ++ leBytes 8 e.va ++ leBytes 4 e.tasks ++ leBytes 4 0 ++ leBytes 8 cycle
    ++ leBytes 16 0

/-- Write a record into its slot of the ring and send MSI-X vector 0. -/
def State.putRecord (s : State) (r : List Byte) : State :=
  let slot := leVal (r.take 8) % 2 ^ bitsAt s.evctl.toNat 0 5
  let addr := s.evbase.toNat + 64 * slot
  { s.writeOr 0 (keyed (hostKey (addr % 2 ^ 64)) r) with msix := s.msix + 1 }

/-- Post the records held while the host link was down, in order. -/
def State.flushRecords (s : State) : State :=
  if s.linkDown hostLink then s else { s.evHeld.foldl (fun t r => t.putRecord r) s with evHeld := [] }

/-- One event: counted in SEQ, and posted where EVCTL.EN is 1. -/
def State.postEvent (s : State) (e : DevEvent) : State :=
  let seq := s.evSeq + 1
  let s := { s with evSeq := seq }
  if !bitAt s.evctl.toNat 8 then s
  else
    let r := e.bytes seq (s.cycleOf (e.die * coresPerDie))
    if s.linkDown hostLink then { s with evHeld := s.evHeld ++ [r] } else s.putRecord r

end Sys2Proof.Machine
end

