-- ==== Sys2Proof/Machine/L2.lean ====
section
/-! DEFINITION. The home L2 slices as tags: placement (R216), hits, misses and hints (R217 to R219), and retention (R225
to R228). The bytes themselves lie in memory, with which a slice always agrees (R207). -/

namespace Sys2Proof.Machine

/-- The slice and set of a line of device memory (R216). -/
def sliceOf (pa partb partk : Nat) : Nat × Nat :=
  let li := homeOff pa / 256
  let k := partk + 5
  let f := Nat.xor (Nat.xor li (li / 2 ^ k)) (Nat.xor (li / 2 ^ (2 * k)) (li / 2 ^ (3 * k)))
  (partb + f % 2 ^ partk, li / 2 ^ partk % 32)

/-- Partition of an access: its object's, or the whole die (R216). -/
def partOf (o : Option Obj) : Nat × Nat := match o with | none => (0, 9) | some x => (x.partb, x.partk)

def sliceKey (die slice : Nat) : Nat := die * 512 + slice
def setKey (die slice set : Nat) : Nat := sliceKey die slice * 32 + set

/-! Retention registers (R225 to R228). -/

def Rtn.valid (r : Rtn) : Bool := bitAt r.val.toNat 63
def Rtn.ways (r : Rtn) : Nat := if r.valid then bitsAt r.val.toNat 60 3 + 1 else 0

/-- The canonical address that the low 57 bits of a register name (R330). -/
def canonBase (low : Nat) : Nat := if 2 ^ 56 ≤ low then low + 127 * 2 ^ 57 else low

/-- The range of a register holds a line. -/
def Rtn.covers (r : Rtn) (asid : Nat) (va : Word) : Bool :=
  let base := canonBase (bitsAt r.val.toNat 12 45 * 4096)
  let size := (bitsAt r.val.toNat 0 12 + 1) * 4096
  let line := va.toNat / 256 * 256
  r.valid && r.asid = asid && decide (base ≤ line) && decide (line < base + size)

/-- First way and number of ways of each valid register, in ascending register number. -/
def rtnWays (t : Tab Rtn) : List (Nat × Nat × Nat) :=
  (List.range 8).filterMap (fun n =>
    let r := Tab.get Rtn.free t n
    if r.ways = 0 then none else some (n, r.first, r.ways))

/-- The valid registers take ways in ascending number from way 0 (R226). -/
def rtnLay (t : Tab Rtn) : Tab Rtn :=
  ((List.range 8).foldl (fun (a : Nat × Tab Rtn) n =>
    let r := Tab.get Rtn.free a.2 n
    if r.ways = 0 then a else (a.1 + r.ways, Tab.set Rtn.free a.2 n { r with first := a.1 })) (0, t)).2

def rtnTotal (t : Tab Rtn) : Nat := (rtnWays t).foldl (fun n x => n + x.2.2) 0

/-- The register that claims a line: the lowest-numbered one whose range holds it. -/
def rtnClaim (t : Tab Rtn) (asid : Nat) (va : Word) : Option (Nat × Nat) :=
  ((rtnWays t).find? (fun x => (Tab.get Rtn.free t x.1).covers asid va)).map (fun x => x.2)

/-- Which register reserves a way. -/
def wayOwner (t : Tab Rtn) (w : Nat) : Option Nat :=
  ((rtnWays t).find? (fun x => decide (x.2.1 ≤ w) && decide (w < x.2.1 + x.2.2))).map (fun x => x.1)

/-- A change of reservations: lines in a reserved way outside its register's range leave (R226). -/
def L2Set.reserve (x : L2Set) (t : Tab Rtn) : L2Set :=
  { x with ways := (x.ways.filter (fun e =>
      match wayOwner t e.1 with
      | none => true
      | .some n => (Tab.get Rtn.free t n).covers e.2.asid e.2.va)) }

/-- Dirty sectors of the lines that have left a set. -/
def L2Set.writtenBack (x y : L2Set) : List Nat :=
  x.ways.flatMap (fun e => match e.2.line with
    | none => []
    | some n =>
      if y.ways.any (fun v => v.2.line = some n) then []
      else ((List.range 4).filter (fun q => bitAt e.2.dirty.toNat q)).map (fun q => 4 * n + q))

/-- A sector that is written back moves with its stored check value unchanged; a mismatch is posted, and discards nothing
(R362). -/
def State.postMoved (s : State) (l : List Nat) : State :=
  (l.filter (fun n => s.badSector n = some 2)).foldl (fun t n =>
    t.postEvent ⟨2, 0x100, homeDie (64 * n), 0xFF, 0xFFFF, 0xFFFF, 64 * n, 0, 0⟩) s

def State.setRtn (s : State) (d : Nat) (t : Tab Rtn) : State :=
  let s := s.modDie d (fun x => { x with rtn := t })
  let moved := s.l2.flatMap (fun e => if e.1 / 16384 = d then e.2.writtenBack (e.2.reserve t) else [])
  let kept : Tab L2Set := s.l2.filterMap (fun e =>
    let x := if e.1 / 16384 = d then e.2.reserve t else e.2
    if x = L2Set.blank then none else some (e.1, x))
  State.postMoved { s with l2 := kept } moved

/-! Accesses (R217 to R219, R227). -/

def L2Set.way (x : L2Set) (w : Nat) : L2Way := Tab.get L2Way.invalid x.ways w
def L2Set.setWay (x : L2Set) (w : Nat) (v : L2Way) : L2Set := { x with ways := Tab.set L2Way.invalid x.ways w v }

def L2Set.find (x : L2Set) (line : Nat) : Option Nat :=
  (List.range 16).find? (fun w => (x.way w).line = some line)

/-- Most recently used first. -/
def L2Set.toFront (x : L2Set) (w : Nat) : L2Set := { x with order := w :: x.order.filter (fun v => v ≠ w) }
def L2Set.toBack (x : L2Set) (w : Nat) : L2Set := { x with order := x.order.filter (fun v => v ≠ w) ++ [w] }

/-- The victim among some ways: the lowest invalid one, else the least recently used without a keep mark, else the least
recently used (R218). -/
def L2Set.victim (x : L2Set) (ok : List Nat) : Option Nat :=
  match ok.find? (fun w => (x.way w).line.isNone) with
  | some w => some w
  | none =>
    let byAge := x.order.reverse.filter (fun w => w ∈ ok)
    match byAge.find? (fun w => !(x.way w).keep) with
    | some w => some w
    | none => byAge.head?

/-- Sectors that bytes of a line, given by their offsets, touch; 4-byte words they hold whole; and sectors of the words
they hold in part. -/
def lineSectors (offs : List Nat) : List Nat := (offs.map (fun o => o / 64)).dedup
def wordWhole (offs : List Nat) (q : Nat) : Bool := (List.range 4).all (fun j => offs.contains (4 * q + j))
def lineWords (offs : List Nat) : List Nat := ((offs.map (fun o => o / 4)).dedup).filter (wordWhole offs)
def subSectors (offs : List Nat) : List Nat :=
  ((((offs.map (fun o => o / 4)).dedup).filter (fun q => !wordWhole offs q)).map (fun q => q / 16)).dedup

def bitsOf {n : Nat} (l : List Nat) : BitVec n := l.foldl (fun w k => w ||| BitVec.ofNat n (2 ^ k)) 0

/-- A way after an access: a read, or a write of a part of a word, fills missing sectors; a write of whole words marks
them. -/
def L2Way.touch (w : L2Way) (wr : Bool) (offs : List Nat) : L2Way :=
  if !wr then { w with valid := 0xF, masks := 0 }
  else
    let masks := w.masks ||| bitsOf (lineWords offs)
    let full := (List.range 4).filter (fun q => bitsAt masks.toNat (16 * q) 16 = 65535)
    { w with
      masks := masks, dirty := w.dirty ||| bitsOf (lineSectors offs)
      valid := w.valid ||| bitsOf (subSectors offs) ||| bitsOf full }

/-- One access of a line at its home slice: the new set, whether it hit, and whether it overflowed a register's ways. A miss of a
line that is present, with an addressed sector not valid, moves the line and fills its sectors as a hit does, whatever the hint
(DESIGN CHOICE, log 140). -/
def L2Set.access (x : L2Set) (rtn : Tab Rtn) (line : Nat) (wr : Bool) (offs : List Nat) (hint : Hint) (va : Word)
    (asid : Nat) (alloc : Bool) : L2Set × Bool × Bool :=
  match x.find line with
  | some w =>
    let v := x.way w
    let hit := (lineSectors offs).all (fun q => bitAt v.valid.toNat q)
    let u := if wr || !hit then v.touch wr offs else v
    let x := x.setWay w { u with keep := v.keep || hint = .keep }
    let still := (wayOwner rtn w).isSome || hint = .evictFirst
    (if still then x else x.toFront w, hit, false)
  | none =>
    if hint = .noAlloc ∨ !alloc then (x, false, false)
    else
      let free := (List.range 16).filter (fun w => (wayOwner rtn w).isNone)
      let mine := match rtnClaim rtn asid va with
        | none => []
        | some (first, k) => (List.range k).map (fun j => first + j)
      let v : L2Way := { L2Way.invalid with line := some line, va := va, asid := asid }
      let v := { v.touch wr offs with keep := hint = .keep }
      match mine.find? (fun w => (x.way w).line.isNone) with
      | some w => (if hint = .evictFirst then (x.setWay w v).toBack w else (x.setWay w v).toFront w, false, false)
      | none =>
        let ovf := mine ≠ []
        match x.victim free with
        | none => (x, false, ovf)
        | some w =>
          let x := x.setWay w v
          (if hint = .evictFirst then x.toBack w else x.toFront w, false, ovf)

/-- An access of some bytes of one line, given by their keys, by a core, an engine, a port or a walker; counted for the core
where one is named (R219). A line placed in a reserved way takes a place in its set's order for the time when the way is
reserved no more (R228, log 108). -/
def State.l2Access (s : State) (core : Option Nat) (obj : Option Obj) (asid : Nat) (va : Word) (keys : List Nat) (wr : Bool)
    (hint : Hint) (alloc : Bool) : State :=
  let key := keys.headD scratchBase
  if !isGlobal key then s
  else
    let d := homeDie key
    let q := sliceOf key (partOf obj).1 (partOf obj).2
    let k := setKey d q.1 q.2
    let x := Tab.get L2Set.blank s.l2 k
    let r := x.access (s.die d).rtn (key / 256) wr (keys.map (fun a => a % 256)) hint va asid alloc
    let s := State.postMoved { s with l2 := Tab.set L2Set.blank s.l2 k r.1 } (x.writtenBack r.1)
    let s := if r.2.2 then s.modDie d (fun x => { x with overflow := x.overflow + 1 }) else s
    match core with
    | none => s
    | some c => s.count c (if r.2.1 then 5 else 6) 1

/-- An address space that no retention register records: that of a walker's reads, which have no virtual address (R333). -/
def noAsid : Nat := 4096

/-- A piece of an access: its virtual address, its key and its length; it lies in one line. -/
structure Piece where
  (va : Word) (key len : Nat)
deriving DecidableEq, Repr

def Piece.keys (q : Piece) : List Nat := (List.range q.len).map (fun j => q.key + j)

/-- The object and the slice of a piece. -/
def State.pieceObj (s : State) (asid : Nat) (q : Piece) : Option Obj := (s.object asid q.va).map (fun x => x.2)
def State.pieceSlice (s : State) (asid : Nat) (q : Piece) : Option Nat :=
  if isGlobal q.key then
    let b := partOf (s.pieceObj asid q)
    some (sliceKey (homeDie q.key) (sliceOf q.key b.1 b.2).1)
  else none

def State.pieceSlices (s : State) (asid : Nat) (l : List Piece) : List Nat := (l.filterMap (s.pieceSlice asid)).dedup

/-! Room at slices (R220). -/

def State.slice (s : State) (k : Nat) : Slice := Tab.get Slice.empty s.slices k
def State.modSlice (s : State) (k : Nat) (g : Slice → Slice) : State :=
  { s with slices := Tab.set Slice.empty s.slices k (g (s.slice k)) }

def trackerSize : Nat := 64

/-- Every slice of a request that is answered in the event in which it arrives has an entry for it; else it comes later (log
39). -/
def State.roomAt (s : State) (ks : List Nat) : Bool :=
  ks.all (fun k => decide ((s.slice k).tracker.length + (s.slice k).tickets.length < trackerSize))

/-- Pieces accessed at their homes, each line once under its own virtual address; a write that arrives through a port
allocates no line (R217). -/
def State.touchAs (s : State) (alloc : Bool) (asid : Nat) (l : List Piece) (wr : Bool) (hint : Hint) : State :=
  ((l.map (fun q => q.key / 256)).dedup).foldl (fun t n =>
    match l.filter (fun q => q.key / 256 = n) with
    | [] => t
    | q :: r => t.l2Access none (t.pieceObj asid q) asid q.va ((q :: r).flatMap Piece.keys) wr hint alloc) s

def State.touch (s : State) (asid : Nat) (l : List Piece) (wr : Bool) (hint : Hint) : State := s.touchAs true asid l wr hint

/-! Accesses that do not wait for a walk: those of the schedulers and the ports. -/

/-- Physical addresses of the entries that a walk reads from a step on. -/
def State.walkReads (s : State) (d asid : Nat) (va : Word) : Nat → Option (Nat × Nat) → List Nat
  | 0, _ => []
  | fuel + 1, next =>
    match s.walkRead d asid va next with
    | none => []
    | some k =>
      k :: (match s.walkNext d asid va next with
        | .next level tbl => State.walkReads s d asid va fuel (some (level, tbl))
        | _ => [])

/-- One read of a walk at its home. -/
def State.readEntry (s : State) (k : Nat) : State := s.l2Access none none noAsid 0 (keysOf k 8) false .normal true

/-- A translation that no TLB of a die holds is walked for at one instant: the walk in flight for the page goes on from where it
stands, its reads are made at their homes, and it ends for all who wait for it, with the leaf or with the failure (R207, R333,
R335). -/
def State.walkNow (s : State) (d asid : Nat) (va : Word) : State :=
  if (tlbFind (s.die d).tlb asid va).isSome then s
  else
    let w := s.walkOf d asid va
    let t := (s.walkReads d asid va 5 (w.bind (fun v => v.next))).foldl (fun t k => t.readEntry k) s
    match s.walk d asid va, w with
    | .ok e, _ => t.leafFound d asid e
    | .error e, some v => t.endWalk d v none e.level e.cause
    | .error _, none => t

/-- A control block or a record of n bytes read or written at its home by a scheduler (R207). -/
def State.touchSys (s : State) (d asid : Nat) (va : Word) (key n : Nat) (wr : Bool) : State :=
  (s.walkNow d asid va).touch asid [⟨va, key, n⟩] wr .normal

end Sys2Proof.Machine
end

