-- ==== Sys2Proof/Machine/Slices.lean ====
section
/-! DEFINITION. Requests at slices (R220): tracker entries, refusals, tickets and what holds a request back. -/

namespace Sys2Proof.Machine

/-- The slice of a part's line, for device memory. -/
def State.partSlice (s : State) (f : Flight) (p : Part) : Option Nat :=
  if isGlobal p.key then
    let q := partOf ((s.object f.asid p.va).map (fun x => x.2))
    some (sliceKey (homeDie p.key) (sliceOf p.key q.1 q.2).1)
  else none

def waitListSize : Nat := 32
def stagingSize : Nat := 64

/-- Requester ports: a core's memory port has the core's number; its engines, the ports of the package with the bridges
behind them, the schedulers and the dies' walkers follow (log 39). -/
def copyPort (c : Nat) : Nat := 4096 + c
def matPort (c : Nat) : Nat := 8192 + c
def outerPort (n : Nat) : Nat := 12288 + n
def schedPort (d : Nat) : Nat := 16384 + d
def walkPort (d : Nat) : Nat := 20480 + d

/-- A port holds at most one ticket of a list. -/
def portHas (l : List SliceReq) (port : Nat) : Bool := l.any (fun r => r.port = port)

def SliceReq.isOf (r : SliceReq) (f n : Nat) : Bool := r.who = .part f n

/-- A request refused: first with a time to be sent again, then with a ticket, unless its port holds one. -/
def Hold.refuse (h : Hold) (portBusy : Bool) (now : Nat) : Hold :=
  if h.refused = 0 ∨ portBusy then ⟨h.refused + 1, some (now + 64), h.ticket, false⟩
  else ⟨h.refused + 1, h.sendAt, true, false⟩

def Part.hold (p : Part) : Hold := ⟨p.refused, p.sendAt, p.ticket, p.noticed⟩
def Part.setHold (p : Part) (h : Hold) : Part :=
  { p with refused := h.refused, sendAt := h.sendAt, ticket := h.ticket, noticed := h.noticed }

def Part.refuse (p : Part) (portBusy : Bool) (now : Nat) : Part := p.setHold (p.hold.refuse portBusy now)

/-- The refusals of the fetch of the block that an awake context has reached and that neither its fetch buffer nor L0 holds. -/
def State.fetchHold (s : State) (p : Nat) : Option Hold :=
  let x := s.ctx p
  x.fhold.bind (fun y =>
    if x.run = .awake ∧ y.1.toNat = x.pc.toNat / 32 * 32 ∧ y.2.2.refused ≠ 0 ∧ !(s.core (p / 16)).l0.any (fun b => b.key = y.2.1)
        ∧ x.fetch.map (fun b => b.key) ≠ some y.2.1 then some y.2.2 else none)

/-- The refusals of a request that is still to be answered. -/
def State.holdOf (s : State) (q : Requester) : Option Hold :=
  match q with
  | .part id n => (s.flight id).bind (fun f => (f.part n).map Part.hold)
  | .packet c id => ((s.core c).packets.find? (fun k => k.id = id)).map (fun k => k.hold)
  | .row c id => ((s.core c).mats.find? (fun m => m.id = id)).map (fun m => m.hold)
  | .update id => (s.ctrUps.find? (fun u => u.id = id)).map (fun u => u.hold)
  | .fetch p => s.fetchHold p
  | .ctx p => if (s.ctx p).hold.refused = 0 then none else some (s.ctx p).hold
  | .walk d id => ((s.die d).walks.find? (fun w => w.id = id)).bind (fun w => if w.hold.refused = 0 then none else some w.hold)
  | .outside => if s.outHold.refused = 0 then none else some s.outHold

def State.setHold (s : State) (q : Requester) (h : Hold) : State :=
  match q with
  | .part id n =>
    (match s.flight id with
      | none => s
      | some f => (match f.part n with | none => s | some p => s.setFlight (f.setPart n (p.setHold h))))
  | .packet c id =>
    s.modCore c (fun x => { x with packets := x.packets.map (fun k => if k.id = id then { k with hold := h } else k) })
  | .row c id =>
    s.modCore c (fun x => { x with mats := x.mats.map (fun m => if m.id = id then { m with hold := h } else m) })
  | .update id => { s with ctrUps := s.ctrUps.map (fun u => if u.id = id then { u with hold := h } else u) }
  | .fetch p => s.modCtx p (fun x => { x with fhold := x.fhold.map (fun y => (y.1, y.2.1, h)) })
  | .ctx p => s.modCtx p (fun x => { x with hold := h })
  | .walk d id => s.modDie d (fun x => { x with walks := x.walks.map (fun w => if w.id = id then { w with hold := h } else w) })
  | .outside => { s with outHold := h }

/-- A slice has an entry for a request: a free one, or one held for it. -/
def State.admits (s : State) (k : Nat) (q : Requester) : Bool :=
  let x := s.slice k
  x.tracker.any (fun r => r.who = q) || decide (x.tracker.length + x.tickets.length < trackerSize)

/-- The request takes its entry. -/
def State.takeEntry (s : State) (k : Nat) (q : Requester) (port : Nat) : State :=
  if (s.slice k).tracker.any (fun r => r.who = q) then s
  else s.modSlice k (fun x => { x with tracker := x.tracker ++ [⟨q, port⟩] })

/-- The request is refused by a slice. -/
def State.refuseAt (s : State) (k : Nat) (q : Requester) (port : Nat) (h : Hold) : State :=
  let h := h.refuse (portHas (s.slice k).tickets port) s.baseCycle
  let t := s.setHold q h
  if h.ticket then t.modSlice k (fun x => { x with tickets := x.tickets ++ [⟨q, port⟩] }) else t

/-- A request at a slice: accepted with an entry of the tracker, or refused. -/
def State.enterSlice (s : State) (f : Flight) (n : Nat) (p : Part) : Bool × State :=
  match s.partSlice f p with
  | none => (true, s)
  | some k =>
    if s.admits k (.part f.id n) then (true, s.takeEntry k (.part f.id n) f.core)
    else
      let h := p.hold.refuse (portHas (s.slice k).tickets f.core) s.baseCycle
      let t := s.setFlight (f.setPart n (p.setHold h))
      (false, if h.ticket then t.modSlice k (fun x => { x with tickets := x.tickets ++ [⟨.part f.id n, f.core⟩] }) else t)

/-- A request to some slices: accepted by all of them, or refused by the first that has no entry for it. -/
def State.enterSlices (s : State) (q : Requester) (port : Nat) (ks : List Nat) : Bool × State :=
  match ks.find? (fun k => !s.admits k q) with
  | none => (true, (ks.foldl (fun t k => t.takeEntry k q port) s).setHold q .none)
  | some k => (false, s.refuseAt k q port ((s.holdOf q).getD .none))

/-- The request of an entry has been answered, waits at the home, or is gone. -/
def State.answered (s : State) (r : SliceReq) : Bool :=
  match r.who with
  | .part id n =>
    (match s.flight id with
      | none => true
      | some f => (match f.part n with | none => true | some p => p.done || f.parked.isSome))
  | q => (s.holdOf q).isNone

/-- An entry of the tracker is free again: answered, or of a request that was refused by another resource. -/
def State.settledReq (s : State) (r : SliceReq) : Bool :=
  s.answered r || (match s.holdOf r.who with | none => true | some h => !h.noticed)

/-- Tell the requester of a held entry. -/
def State.notice (s : State) (r : SliceReq) : State :=
  match s.holdOf r.who with
  | none => s
  | some h => s.setHold r.who { h with noticed := true }

def State.parkedAt (s : State) (k : Nat) : Nat :=
  (s.flights.filter (fun f => f.parked.isSome && !f.allDone &&
    (match f.op with | .agld .. => true | _ => false) && f.parts.any (fun p => s.partSlice f p = some k))).length

def State.stagedAt (s : State) (k : Nat) : Nat :=
  (s.staging.filter (fun e => e.slice = k)).length

/-- Entries that free go to the oldest tickets. -/
def State.freeSlice (s : State) (k : Nat) : State :=
  let x := s.slice k
  let alive := fun (r : SliceReq) => (s.holdOf r.who).isSome
  let tracker := x.tracker.filter (fun r => !s.settledReq r)
  let tickets := x.tickets.filter alive
  let n := trackerSize - tracker.length
  let waitHeld := x.waitHeld.filter (fun r => !s.answered r)
  let waitT := x.waitTickets.filter alive
  let w := waitListSize - (s.parkedAt k + waitHeld.length)
  let stHeld := x.stageHeld.filter alive
  let stT := x.stageTickets.filter alive
  let g := stagingSize - (s.stagedAt k + stHeld.length)
  let s := (tickets.take n ++ waitT.take w ++ stT.take g).foldl (fun t r => t.notice r) s
  s.modSlice k (fun _ =>
    ⟨tracker ++ tickets.take n, tickets.drop n, waitHeld ++ waitT.take w, waitT.drop w, stHeld ++ stT.take g, stT.drop g⟩)

def State.freeSlices (s : State) : State := s.slices.foldl (fun t e => t.freeSlice e.1) s

/-- Another request of a requester's port holds a ticket of a slice and has not been accepted yet (R220, R259). -/
def State.portBusy (s : State) (k port : Nat) (who : Requester) : Bool :=
  let x := s.slice k
  let other := fun (r : SliceReq) => decide (r.port = port) && decide (r.who ≠ who)
  (x.tickets ++ x.waitTickets ++ x.waitHeld).any other || x.tracker.any (fun r => other r && !s.settledReq r)

/-- A request may be sent: not while a refusal or its port's ticket at the slice holds it back (R220). -/
def Hold.free (h : Hold) (now : Nat) : Bool :=
  (match h.sendAt with | .none => true | .some t => decide (t ≤ now)) && (!h.ticket || h.noticed)

def State.maySend (s : State) (h : Hold) (port : Nat) (who : Requester) (ks : List Nat) : Bool :=
  h.free s.baseCycle && (h.refused = 0 || h.noticed || ks.all (fun k => !s.portBusy k port who))

/-- A request that a context's instruction makes at its issue, or at a park, to the slices of some pieces: refused, held back, or
accepted. -/
def State.askSlices (s : State) (p asid : Nat) (l : List Piece) : Bool × State :=
  let ks := s.pieceSlices asid l
  if !s.maySend (s.ctx p).hold (p / 16) (.ctx p) ks then (false, s) else s.enterSlices (.ctx p) (p / 16) ks

end Sys2Proof.Machine
end

