-- ==== Sys2Proof/Machine/Ends.lean ====
section
/-! DEFINITION. Starts and ends: contexts (R172), tasks (R322, R323), regions (R324), engine commands (R301), device
events and their records (R358 to R360), and the discard of a domain (R359). -/

namespace Sys2Proof.Machine

/-! Counter updates (R276, R279, R323). -/

/-- An update of a counter word, with nothing said of its maker's record or of what it waits for. -/
def CtrUp.of (d asid : Nat) (va : Word) (act : CtrAct) (who : CtrWho) (priv : Bool) (uid region : Nat) : CtrUp :=
  { id := 0, die := d, asid := asid, va := va, act := act, who := who, priv := priv, uid := uid, region := region
    fdom := none, about := none, after := [], live := [], xl := [], hold := .none }

/-- An update sets out, with a number of its own. -/
def State.postCtr (s : State) (u : CtrUp) : State := { s.fresh with ctrUps := s.ctrUps ++ [{ u with id := s.nextId }] }

/-- The update that counts a packet of a copy, or enters its counter's error phase. -/
def CopyCmd.update (c : CopyCmd) (act : CtrAct) : CtrUp :=
  { CtrUp.of (coreDie c.core) c.asid c.counter act (.copy c.core c.id) c.priv c.uid c.region with
    fdom := some c.fdom, about := some (c.ctx, c.xid) }

/-- A privileged access of a scheduler in an address space to device global memory (R313). -/
def State.sysPlace (s : State) (d asid : Nat) (va : Word) (n : Nat) (wr : Bool) : Except TrapInfo Nat :=
  match s.place ⟨d * coresPerDie, d, asid, 0, true, true, [], false⟩ (if wr then .sysWr else .sysRd) va n with
  | .error t => .error t
  | .ok p => if isGlobal p.key then .ok p.key else .error (tProt va 4)

/-- What such an access leaves; where it cannot be made, its walk. -/
def State.touchAt (s : State) (d asid : Nat) (va : Word) (n : Nat) (wr : Bool) : State :=
  match s.sysPlace d asid va n wr with
  | .error _ => if (s.regionOf (d * coresPerDie) va).1 = .paged then s.walkNow d asid va else s
  | .ok k => s.touchSys d asid va k n wr

/-- A control update that failed translation or protection, or met a sector that does not verify (R323, R362). -/
def State.ctlLost (s : State) (d asid region : Nat) (va : Word) (t : TrapInfo) : State :=
  match t.event with
  | some k => s.postEvent ⟨k, 0x100, d, 0xFF, region, asid, t.addr.toNat, va.toNat, 0⟩
  | none => s.postEvent ⟨6, 0x100, d, 0xFF, region, asid, 0, va.toNat, 0⟩

/-- Change one LIVE word in the root address space (R323); the new value where the change was made. A word whose sector does not
verify is not changed; the scheduler that writes it belongs to no region, so to no domain, and none is discarded (DEDUCED from
R358, log 143). -/
def State.liveChange (s : State) (d : Nat) (rcb : Word) (region : Nat) (up : Bool) : State × Option Nat :=
  let root := (s.die d).rootAsid
  let va := rcb + 56
  match s.sysPlace d root va 8 true with
  | .error t => ((s.touchAt d root va 8 true).ctlLost d root region va t, none)
  | .ok k =>
    let v := (s.word k 8 + (if up then 1 else 2 ^ 64 - 1)) % 2 ^ 64
    match s.writeHome root (keyed k (leBytes 8 v)) with
    | .ok t => (t.touchSys d root va k 8 true, some v)
    | .error e => (s.postEvent ⟨e, 0x100, d, 0xFF, region, root, k / 64 * 64, va.toNat, 0⟩, none)

/-! Counter words (R193, R276, R279, R303). -/

/-- Core that holds the share of a task: it runs there, or its share stays resident there (R348). -/
def State.shareCore (s : State) (uid : Nat) : Option Nat :=
  (s.cores.find? (fun e => (e.2.task.map (fun t => t.uid)) = some uid || e.2.resident = some uid)).map (fun e => e.1)

/-- A number that is no core's: that of the holder of a share that is no more. -/
def noCore : Nat := 2 ^ 20

/-- Checks of one access of an engine; the local window names the issuing task's share (R303). -/
def State.engPlace (s : State) (w : Who) (uid : Nat) (a : Acc) (va : Word) (n : Nat) : Except TrapInfo Place :=
  match s.shareCore uid with
  | some c => s.place { w with core := c } a va n
  | none => if inLocal va then .error (tProt va 8) else s.place { w with core := noCore } a va n

def recWord (old : Word) (ctx code low : Nat) : Word :=
  BitVec.ofNat 64 (2 ^ 63 + (if bitAt old.toNat 63 then 2 ^ 62 else 0) + ctx % 16 * 2 ^ 32 + code % 256 * 2 ^ 24 + low)

def State.recordCopy (s : State) (core ctx xid code : Nat) (va : Word) : State :=
  s.modCore core (fun x => { x with efcr := recWord x.efcr ctx code (xid % 2 ^ 16), efca := va })

def State.recordMat (s : State) (core ctx row code : Nat) (va : Word) : State :=
  s.modCore core (fun x => { x with efmr := recWord x.efmr ctx code (row % 32), efma := va })

def shstBase (w : Word) : Nat := bitsAt w.toNat 21 27 * 2097152
def shstSlots (w : Word) : Nat := bitsAt w.toNat 0 12

/-- Who makes an update, for its translation. -/
def CtrUp.access (u : CtrUp) : Who :=
  match u.who with
  | .copy c _ | .mat c _ _ => ⟨c, u.die, u.asid, u.region, u.priv, true, u.xl, true⟩
  | .control d => ⟨d * coresPerDie, d, u.asid, u.region, u.priv, true, u.xl, true⟩
  | .ingest => ⟨noCore, u.die, u.asid, 0xFFFF, true, true, u.xl, true⟩

def CtrUp.port (u : CtrUp) : Nat :=
  match u.who with
  | .copy c _ => copyPort c
  | .mat c _ _ => matPort c
  | .control d => schedPort d
  | .ingest => outerPort 1

/-- A word of the share of a suspended task that lies in a slot of its die's share store (R303, R348). -/
def State.slotWord (s : State) (uid : Nat) (va : Word) : Option Nat :=
  s.dies.findSome? (fun e => e.2.queue.findSome? (fun q =>
    match q.slot with
    | none => none
    | some n =>
      let off := va.toNat - localBase
      if q.task.uid = uid ∧ inLocal va ∧ off < shareOf q.task.eff.l1ways then
        some (shstBase e.2.shst + 2097152 * n + off)
      else none))

/-- Checks of an engine's update: the local window names the issuing task's share, wherever it is held. -/
def State.engCtrPlace (s : State) (w : Who) (u : CtrUp) : Except TrapInfo Place :=
  match s.slotWord u.uid u.va with
  | some k => .ok ⟨k, none, none⟩
  | none => s.engPlace w u.uid .atomic u.va 8

/-- Where a counter word lies for an accessor; it is a word of device memory or scratchpad (R275). -/
def State.ctrPlaceAs (s : State) (w : Who) (u : CtrUp) : Except TrapInfo Place :=
  let r := match u.who with
    | .copy .. | .mat .. => s.engCtrPlace w u
    | .control _ => if inLocal u.va then .error (tProt u.va 8) else s.place w .atomic u.va 8
    | .ingest => if inLocal u.va ∨ inPeer u.va then .error (tProt u.va 4) else s.place w .atomic u.va 8
  match r with
  | .error t => .error t
  | .ok p => if isHost p.key then .error (tProt u.va 4) else .ok p

def State.ctrPlace (s : State) (u : CtrUp) : Except TrapInfo Place := s.ctrPlaceAs u.access u

/-- An update that failed translation or protection: recorded in the engine's record, or posted for a control update. -/
def State.ctrLost (s : State) (u : CtrUp) (t : TrapInfo) : State :=
  match u.who, u.about with
  | .copy c _, some (k, xid) => s.recordCopy c k xid t.code u.va
  | .mat c _ _, some (k, row) => s.recordMat c k row t.code u.va
  | .control d, _ => s.ctlLost d u.asid u.region u.va t
  | _, _ => s

/-- One update of a counter word at its atomic point, where every watch of the word retests; the kind of the event where its sector
does not verify. -/
def State.ctrPut (s : State) (u : CtrUp) (key : Nat) : Except Nat State :=
  match s.writeHome u.asid (keyed key (wordBytes 8 (ctrNew u.act (s.word key 8)))) with
  | .error k => .error k
  | .ok s =>
    let q : List Piece := [⟨u.va, key, 8⟩]
    .ok ((s.touch u.asid q false .normal).touch u.asid q true .normal)

/-- A counter enters its error phase in the step that ends its command from outside the engine (R289): its translation is walked for
at one instant, and an update that fails is dropped and recorded (R193). Where the word's sector does not verify the update goes
its way, and the event comes when it arrives. -/
def State.errNow (s : State) (u : CtrUp) : State :=
  let t := if (s.regionOf u.access.core u.va).1 = .paged then s.walkNow u.die u.asid u.va else s
  match s.ctrPlaceAs { u.access with waits := false } u with
  | .error e => if e.event.isSome then t.postCtr u else t.ctrLost u e
  | .ok p => (match t.ctrPut u p.key with | .ok v => v | .error _ => t.postCtr u)

/-! The power governor's sums (R377, R378). -/

def State.freePower (s : State) (d n : Nat) : State := s.modDie d (fun x => { x with used := x.used - n })

def State.dropCredits (s : State) (p : Nat) : State :=
  let n := (s.ctx p).credits
  if n = 0 then s
  else (s.modCtx p (fun x => { x with credits := 0 })).freePower (coreDie (p / 16)) (10 * n)

/-! Engine commands leaving (R195, R301). -/

def setStatus (l : List XferStatus) (xid code : Nat) : List XferStatus :=
  l.map (fun x => if x.xid = xid then ⟨xid, true, code⟩ else x)

/-- A copy leaves when its last packet, or the last one issued before its fault, has landed and been counted. -/
def CopyCmd.over (c : CopyCmd) : Bool := (c.issued || c.fault.isSome) && c.open_ = 0

def State.copyRetire (s : State) (core : Nat) : State :=
  let x := s.core core
  let out := x.copies.filter (fun c => c.over)
  let st := out.foldl (fun l c => setStatus l c.xid (c.fault.getD 0)) x.statuses
  let s := s.setCore core { x with copies := x.copies.filter (fun c => !c.over), statuses := st }
  s.freePower (coreDie core) (out.foldl (fun n c => n + c.allowance) 0)

def CopyCmd.shut (c : CopyCmd) : CopyCmd := { c with open_ := c.open_ - 1 }

/-- One packet of a command is settled: landed and counted, dropped, or its error phase entered. -/
def State.copySettle (s : State) (core id : Nat) : State :=
  (s.modCore core (fun x =>
    { x with copies := x.copies.map (fun c => if c.id = id then c.shut else c) })).copyRetire core

/-! Regions (R324). -/

/-- The stealing neighbours of a die on the 2 × 4 mesh, in ascending number (R325). -/
def neighbours (d : Nat) : List Nat :=
  (List.range 8).filter (fun e => (e % 4 = d % 4 && e / 4 ≠ d / 4) || (e / 4 = d / 4 && (e = d + 1 || d = e + 1)))

/-- A generation rises; the rise to 0 first invalidates every Mirror copy (R186, R223). -/
def State.raiseGen (s : State) (d : Nat) : State :=
  s.modDie d (fun x =>
    let g := x.gen + 1
    { x with gen := g, mirror := if g = 0 then [] else x.mirror })

/-- Incomplete staging of a region is dropped; each contributing counter is cancelled (R289). An entry that holds partials of two
regions keeps those of the other (DESIGN CHOICE, log 144). -/
def State.dropStaging (s : State) (region : Nat) : State :=
  let gone := s.staging.flatMap (fun e => e.parts.filter (fun q => q.region = region))
  let keep := s.staging.map (fun e => { e with parts := e.parts.filter (fun q => q.region ≠ region) })
  let s := { s with staging := keep.filter (fun e => e.parts ≠ []) }
  gone.foldl (fun t q =>
    let t := t.modCore q.core (fun x =>
      { x with
        packets := x.packets.filter (fun k => k.id ≠ q.pkt)
        copies := x.copies.map (fun c => if c.id = q.cmd ∧ c.fault.isNone then { c with fault := some cancelled } else c) })
    match (t.core q.core).copies.find? (fun c => c.id = q.cmd) with
    | none => t
    | some c =>
      (if c.counter = 0 then t else t.errNow (c.update (.err cancelled))).copySettle q.core q.cmd) s

/-- Prism holds of a region end (R298, R324). -/
def State.dropHolds (s : State) (region : Nat) : State :=
  s.contests.foldl (fun t e =>
    let x := t.contest e.1
    t.setContest e.1 { x with holder := x.holder.filter (fun h => h.region ≠ region) }) s

/-- Stores of the tasks of a region and of its descendants that are not visible at SYS scope yet. -/
def State.owedIn (s : State) (region : Nat) : List (Nat × Bool) :=
  (s.flights.filter (fun f => (f.region = region || f.chain.contains region) && f.isStore && (!f.allDone || f.hostPend))).map (fun f => (f.id, true))

/-- A region ends: generations, holds, staging, retention, and then ENDCTR, whose addition is a release at SYS scope of what its
tasks have stored. -/
def State.endRegion (s : State) (d : Nat) (rcb : Word) (region : Nat) : State :=
  let dies := (List.range 8).filter (fun e => bitAt (Tab.get 0 s.ranOn region).toNat e)
  let s := dies.foldl (fun t e => t.raiseGen e) s
  let s := { s with ranOn := Tab.set 0 s.ranOn region 0 }
  let s := (s.dropHolds region).dropStaging region
  let s := (List.range 8).foldl (fun t e =>
    t.modDie e (fun x => { x with rtn := x.rtn.filter (fun r => r.2.region ≠ region) })) s
  let root := (s.die d).rootAsid
  match s.sysPlace d root (rcb + 48) 8 false with
  | .error t => (s.touchAt d root (rcb + 48) 8 false).ctlLost d root region (rcb + 48) t
  | .ok k =>
    match s.badBytes [k] with
    | some e => s.ctlLost d root region (rcb + 48) ⟨0x100 + e, BitVec.ofNat 64 k, 0⟩
    | none =>
      let ctr := BitVec.ofNat 64 (s.word k 8)
      let s := s.touchSys d root (rcb + 48) k 8 false
      if ctr = 0 then s
      else s.postCtr { CtrUp.of d root ctr (.add 1) (.control d) true 0 region with after := s.owedIn region }

/-- A task's end subtracts 1 in its region and every ancestor; a count that reaches 0 ends that region. -/
def State.liveDown (s : State) (d : Nat) : List (Word × Nat) → State
  | [] => s
  | (rcb, r) :: l =>
    match s.liveChange d rcb r false with
    | (t, some 0) => State.liveDown (t.endRegion d rcb r) d l
    | (t, _) => State.liveDown t d l

/-! Starts (R172, R211, R268, R322). -/

/-- An acquire drops the flagged lines of a core's L1, and fills on their way do not install (R210, R233). -/
def State.dropFlagged (s : State) (c : Nat) : State :=
  s.modCore c (fun x =>
    { x with
      l1 := x.l1.filter (fun l => !l.flagged)
      fills := x.fills.map (fun f => if f.flagged then { f with cancelled := true } else f) })

/-- A context in its start state; its fetches are no older than its start (R62). -/
def State.startCtx (s : State) (c k : Nat) (pc : Word) (itr wlim : BitVec 32) (ftz priv : Bool) (vblk sblk joinAt : Nat) :
    State :=
  let x : Ctx := { Ctx.idle with
    run := .awake, joinAt := joinAt, pc := pc, itr := itr, wlim := wlim, ftz := ftz, priv := priv, lmask := allOnes
    srs := seedStates 0, v := .alloc vblk, s := .alloc sblk, shadow := shadowStart }
  (((s.setCtx (ctxId c k) x).dropFlagged c).modCore c (fun x => { x with l0 := [] })).renewRegs
    (fun n => n / 1024 = ctxId c k)

/-- A task starts on a core. -/
def State.startTask (s : State) (c : Nat) (t : Task) : State :=
  let e := t.eff
  let s := s.modCore c (fun x =>
    { x with
      task := some { t with started := s.cycle, pending := false, sliceOut := false }
      l1ways := e.l1ways, g := .alloc e.gblk, h := .alloc e.hblk, wbs := [], l1 := [], l0 := []
      fills := x.fills.map (fun f => { f with cancelled := true }) })
  let s := { (s.clearShare c).renewRegs (fun n => n / 16384 = c) with
    ranOn := Tab.set 0 s.ranOn t.region (Tab.get 0 s.ranOn t.region ||| BitVec.ofNat 8 (2 ^ coreDie c)) }
  s.startCtx c 0 t.entry 0 e.wlim e.ftz (t.region = 0) t.vblk t.sblk (s.cycle + 1)

/-! Ends. -/

/-- What a task's contexts still have under way: its stores go on, everything else is dropped. -/
def State.dropFlights (s : State) (uid : Nat) (stores : Bool) : State :=
  { s with flights := (s.flights.filter (fun f => f.uid ≠ uid || (stores && f.isStore))).map (fun f =>
      if f.uid = uid then { f with dst := none, wb := none } else f) }

/-- Prism entries and holds of a task end (R298, R359). -/
def State.dropPrism (s : State) (uid : Nat) : State :=
  s.contests.foldl (fun t e =>
    let x := t.contest e.1
    t.setContest e.1
      { x with
        holder := x.holder.filter (fun h => h.uid ≠ uid)
        entries := x.entries.filter (fun n => n.gov || n.uid ≠ uid) }) s

/-- Free a core: contexts, windows and writebacks. -/
def State.freeCore (s : State) (c : Nat) : State :=
  let s := ctxNums.foldl (fun t k => (t.dropCredits (ctxId c k)).setCtx (ctxId c k) .idle) s
  let s := s.modDie (coreDie c) (fun x =>
    { x with reqs := x.reqs.filter (fun r => match r.who with | .leave c' _ _ => c' ≠ c | _ => true) })
  s.modCore c (fun x => { x with task := none, g := .none, h := .none, wbs := [], rot := [] })

/-- A core is idle when no task runs on it and it holds no suspended task's share (R322). -/
def State.coreIdle (s : State) (c : Nat) : Bool := (s.core c).task.isNone && (s.core c).resident.isNone

def dieCores (d : Nat) : List Nat := (List.range coresPerDie).map (fun k => d * coresPerDie + k)
def State.idleCores (s : State) (d : Nat) : List Nat := (dieCores d).filter s.coreIdle

/-- A queue has become empty: with an idle core its die starts a steal attempt (R325). -/
def State.emptied (s : State) (d : Nat) : State :=
  if (s.die d).queue = [] ∧ s.idleCores d ≠ [] then s.modDie d (fun x => { x with steal := .asking (neighbours d) }) else s

/-- A core has become idle: with an empty queue its die starts a steal attempt (R325). -/
def State.idleCore (s : State) (d : Nat) : State :=
  if (s.die d).queue = [] then s.modDie d (fun x => { x with steal := .asking (neighbours d) }) else s

inductive EndHow | done | fault | discard
deriving DecidableEq, Repr

/-- Stores of a task that are not visible at SYS scope yet. -/
def State.owedBy (s : State) (uid : Nat) : List (Nat × Bool) :=
  (s.flights.filter (fun f => f.uid = uid && f.isStore && (!f.allDone || f.hostPend))).map (fun f => (f.id, true))

/-- DONECTR as the way of the end decides it, and after it LIVE: at DONE the addition is a release at SYS scope (R323). -/
def State.doneCtr (s : State) (d : Nat) (t : Task) (how : EndHow) : State :=
  let u := fun (a : CtrAct) (w : List (Nat × Bool)) =>
    { CtrUp.of d t.asid t.donectr a (.control d) (t.region = 0) t.uid t.region with after := w, live := t.chain }
  if t.donectr = 0 then s.liveDown d t.chain
  else
    match how with
    | .done => s.postCtr (u (.add 1) (s.owedBy t.uid))
    | .fault => s.postCtr (u (.err cancelled) [])
    | .discard => s.liveDown d t.chain

/-- The end of the task that a core runs (R323). -/
def State.endTask (s : State) (c : Nat) (how : EndHow) : State :=
  match (s.core c).task with
  | none => s
  | some t =>
    let d := coreDie c
    let s := (s.dropFlights t.uid (how ≠ .discard)).dropPrism t.uid
    ((s.freeCore c).idleCore d).doneCtr d t how

/-- A task fault: a double trap, an invalid image or a rejected chain (R181, R314, R352, R358). It discards no domain, so its record's
FDOM byte is a free value (R360, log 14). -/
def State.taskFault (s : State) (c : Nat) : State :=
  match (s.core c).task with
  | none => s
  | some t =>
    (s.endTask c .fault).postEvent ⟨5, 0x100, coreDie c, 0xFF, t.region, t.asid, 0, t.tcb.toNat, 0⟩

/-! The discard of a domain (R359). -/

/-- Drop engine commands, named by their task and fault domain, with their packets, partials and counter updates. -/
def State.dropCommands (s : State) (out : Nat → Nat → Bool) : State :=
  let t := s.coreNums.foldl (fun t c =>
    let x := t.core c
    let cs := x.copies.filter (fun k => out k.uid k.fdom)
    let ms := x.mats.filter (fun k => out k.uid k.fdom)
    let ids := cs.map (fun k => k.id)
    let mids := ms.map (fun k => k.id)
    let pow := cs.foldl (fun n k => n + k.allowance) 0 + ms.foldl (fun n k => n + k.allowance) 0
    let t := t.setCore c
      { x with
        copies := x.copies.filter (fun k => !out k.uid k.fdom), packets := x.packets.filter (fun k => k.cmd ∉ ids)
        mats := x.mats.filter (fun k => !out k.uid k.fdom) }
    let t := t.modDie (coreDie c) (fun y =>
      { y with
        used := y.used - pow
        reqs := y.reqs.filter (fun r => match r.who with
          | .copy c' i => c' ≠ c || i ∉ ids
          | .mat c' i => c' ≠ c || i ∉ mids
          | .leave _ _ _ => true) })
    { t with
      staging := (t.staging.map (fun e =>
        { e with parts := e.parts.filter (fun q => q.core ≠ c || q.cmd ∉ ids) })).filter (fun e => e.parts ≠ []) }) s
  { t with ctrUps := t.ctrUps.filter (fun u => match u.fdom with | none => true | some f => !out u.uid f) }

/-- Those of one task. -/
def State.dropTaskCommands (s : State) (uid : Nat) : State := s.dropCommands (fun u _ => u = uid)

def Task.inDomain (t : Task) (fd : Option Nat) : Bool :=
  match fd with
  | none => true
  | some n => t.eff.fdom = n

/-- Discard the queued and suspended tasks of a domain on a die. -/
def State.discardQueue (s : State) (d : Nat) (fd : Option Nat) : State × Nat :=
  let gone := (s.die d).queue.filter (fun e => e.task.inDomain fd)
  let s := s.modDie d (fun x =>
    { x with
      queue := x.queue.filter (fun e => !e.task.inDomain fd)
      slots := x.slots.filter (fun n => !gone.any (fun e => e.slot = some n)) })
  let s := gone.foldl (fun t e =>
    let t := match e.resident with
      | none => t
      | some c => t.modCore c (fun x => { x with resident := none })
    ((t.dropPrism e.task.uid).dropTaskCommands e.task.uid).liveDown d e.task.chain) s
  (if gone = [] then s else s.emptied d, gone.length)

/-- Discard a core's task; when the whole device is discarded a steward ends, and its die starts it again from its TCB. LIVE
counts it in its chain until then. -/
def State.discardCore (s : State) (c : Nat) (fd : Option Nat) : State × Nat :=
  match (s.core c).task with
  | none => (s, 0)
  | some t =>
    if !t.inDomain fd then (s, 0)
    else if t.steward ∧ fd = none then
      let s := ((s.dropFlights t.uid false).dropPrism t.uid).dropTaskCommands t.uid
      ((s.freeCore c).modDie (coreDie c) (fun x => { x with restart := some t.chain }), 0)
    else ((s.endTask c .discard).dropTaskCommands t.uid, 1)

/-- A task is queued, running or suspended. -/
def State.liveTask (s : State) (uid : Nat) : Bool :=
  s.cores.any (fun e => (e.2.task.map (fun t => t.uid)) = some uid) ||
    s.dies.any (fun e => e.2.queue.any (fun q => q.task.uid = uid))

/-- Discard a domain, or with none every domain but the stewards; answers the tasks discarded. The commands that tasks of
the domain left behind at their ends are dropped with it (R306). -/
def State.discard (s : State) (fd : Option Nat) : State × Nat :=
  let a := (List.range 8).foldl (fun (a : State × Nat) d =>
    let r := a.1.discardQueue d fd
    (r.1, a.2 + r.2)) (s, 0)
  let a := a.1.coreNums.foldl (fun (a : State × Nat) c =>
    let r := a.1.discardCore c fd
    (r.1, a.2 + r.2)) a
  (a.1.dropCommands (fun u f => !a.1.liveTask u && (match fd with | none => true | some n => f = n)), a.2)

/-- A device event that discards one domain and posts its record. -/
def State.discardFor (s : State) (kind d link region asid pa va fdom : Nat) : State :=
  let r := s.discard (some fdom)
  r.1.postEvent ⟨kind, fdom, d, link, region, asid, pa, va, r.2⟩

/-- The device event of a consumer that meets a bad sector: its domain is discarded (R358, R362). -/
def State.consumeBad (s : State) (kind c pa va : Nat) : State :=
  match (s.core c).task with
  | none => s.postEvent ⟨kind, 0x100, coreDie c, 0xFF, 0xFFFF, 0xFFFF, pa, va, 0⟩
  | some t => s.discardFor kind (coreDie c) 0xFF t.region t.asid pa va t.eff.fdom

end Sys2Proof.Machine
end

