-- ==== Sys2Proof/Machine/Ops.lean ====
section
/-! DEFINITION. Shared operations of a context: writebacks (R12 to R14, R25, R30), sleeping and waking (R8, R9), taking a
trap (R181) and returning from it (R182), parking (R344 to R346), releases (R236), joins (R174) and DONE (R175). -/

namespace Sys2Proof.Machine

/-- Identity of the task of a core: its number, ASID, region, priority and fault domain. -/
def State.owner (s : State) (c : Nat) : Nat × Nat × Nat × Nat × Nat :=
  match (s.core c).task with
  | none => (0, 0, 0, 0, 0)
  | some t => (t.uid, t.asid, t.region, t.eff.prio, t.eff.fdom)

/-! Writebacks. -/

/-- The handler entry of the task of a core (R181). -/
def State.handler (s : State) (c : Nat) : Word :=
  match (s.core c).task with
  | none => 0
  | some t => t.eff.handler

def Flags.or (a b : Flags) : Flags :=
  ⟨a.nx || b.nx, a.uf || b.uf, a.of || b.of, a.dz || b.dz, a.nv || b.nv⟩

/-- Record a producer's writeback; a long-latency producer empties its destination octets (R13, R25). -/
def State.addWB (s : State) (p : Nat) (k : Kind) (missing : Bool) (sl : List SlWrite) (pr : List PrWrite) (fl : Flags)
    (octs : List (FileId × Nat)) (preds : List Nat) : State :=
  let mk := fun (due : Nat) (long : Bool) =>
    let w : WB := ⟨s.nextId, p, due, long, missing, sl, pr, fl, octs, preds⟩
    let t := s.fresh.modCore (p / 16) (fun x => { x with wbs := x.wbs ++ [w] })
    if long then t.markOctets p true octs else t
  match k with
  | .none => s
  | .fixed n => mk (s.cycle + n) false
  | .long n => mk (s.cycle + n) true
  | .late => mk (s.cycle + 1) true

/-- A context wakes: it joins the first rotation that starts after this cycle (R9). -/
def State.wake (s : State) (p : Nat) : State :=
  s.modCtx p (fun x => { x with run := .awake, joinAt := s.cycle + 1 })

/-- Contexts of a core asleep on octets that are all full wake (R26, R27), and one whose AGLD has been written (R257). -/
def State.wakeOctets (s : State) (c : Nat) : State :=
  ctxNums.foldl (fun t k =>
    let p := ctxId c k
    match (t.ctx p).run with
    | .asleep (.octets l) _ => if l.any (t.octetEmpty p) then t else t.wake p
    | .asleep (.landing w) _ => if (t.core c).wbs.any (fun v => v.id = w) then t else t.wake p
    | _ => t) s

/-- A writeback lands: destinations, predicates, flags and octets in one cycle (R25, R30, R77, R92). -/
def State.applyWB (s : State) (w : WB) : State :=
  let t := w.sl.foldl (fun t x => t.writeSl w.ctx x) (s.renewWrites w.ctx w.sl)
  let t := t.modCtx w.ctx (fun x => { w.pr.foldl (fun y q => y.writePred q) x with flags := x.flags.or w.flags })
  let t := if w.long then t.markOctets w.ctx false w.octs else t
  t.modCore (w.ctx / 16) (fun x => { x with wbs := x.wbs.filter (fun v => v.id ≠ w.id) })

/-- A producer that faults: its octets are full again with their old contents (R25). -/
def State.cancelWB (s : State) (c id : Nat) : State :=
  match (s.core c).wbs.find? (fun w => w.id = id) with
  | none => s
  | some w =>
    let t := if w.long then s.markOctets w.ctx false w.octs else s
    (t.modCore c (fun x => { x with wbs := x.wbs.filter (fun v => v.id ≠ id) })).wakeOctets c

/-- A long-latency producer's data are complete: its writeback comes so many cycles after the next one. -/
def State.fillAfter (s : State) (c id wait : Nat) (sl : List SlWrite) (pr : List PrWrite) (fl : Flags) : State :=
  s.modCore c (fun x => { x with wbs := x.wbs.map (fun w =>
    if w.id = id then { w with missing := false, due := s.cycle + 1 + wait, sl := sl, pr := pr, flags := fl } else w) })

/-- The same where the rules give the writeback no time: it comes in any finite one (R35, log 13). -/
def State.fillWB (s : State) (c id : Nat) (sl : List SlWrite) (pr : List PrWrite) (fl : Flags) : State :=
  s.useFree.fillAfter c id (Config.latency s.freeCtr) sl pr fl

/-- Writebacks of a context under way. -/
def State.hasWB (s : State) (p : Nat) : Bool := (s.core (p / 16)).wbs.any (fun w => w.ctx = p)

/-! Traps. -/

/-- Bytes of the instruction length that length bits name; none for 11 (R36, R380). -/
def lenBytes (b : BitVec 2) : Nat := if b = 0 then 8 else if b = 1 then 12 else if b = 2 then 16 else 0

/-- Private scalar block 0 as four words (R151, R181). -/
def Ctx.block0 (x : Ctx) : Tab Word :=
  Tab.setMany 0 [] ((List.range 4).map (fun q => (q, BitVec.ofNat 64 (x.s.read 0 (16 * q) 16))))

/-- Taking a trap (R181): what is saved, the mode, LMASK and the handler's address; in a handler, or with no private
scalar block, it is a double trap and the task ends. An error in private scalar block 0 is met where the block is saved (R358). -/
def State.deliver (s : State) (p : Nat) (t : TrapInfo) : State :=
  let x := s.ctx p
  if x.xact ∨ x.s.blocks = 0 then s.taskFault (p / 16)
  else if s.ueIn p ((List.range 8).map (fun o => (.s, o))) then s.consumeBad 1 (p / 16) 0 0
  else
    s.setCtx p { x with
      run := .awake, joinAt := (if x.run = .awake then x.joinAt else s.cycle + 1)
      xpc := x.pc, xlen := x.ilen, xcode := BitVec.ofNat 8 t.code, xaddr := t.addr, xinfo := t.info, xlm := x.lmask
      xb := x.block0, xpm := x.priv, xact := true, priv := true, lmask := allOnes, pc := s.handler (p / 16)
      counted := false, xcounted := x.counted, stalled := none, held := false, xl := [], walking := none, hold := .none }

/-- A trap waits until the context's producers have written back, then is delivered (R181). A check that met a sector which
does not verify is no trap but a device event (R362). -/
def State.raise (s : State) (p : Nat) (t : TrapInfo) : State :=
  if t.event.isSome then s.consumeBad (t.code - 0x100) (p / 16) t.addr.toNat t.info.toNat
  else if s.hasWB p then s.modCtx p (fun x => { x with run := .asleep (.trapDrain t) s.cycle, stalled := none })
  else s.deliver p t

/-- Private scalar block 0 from XB0 to XB3, its octets full (R182). -/
def Ctx.restoreBlock0 (x : Ctx) : Ctx :=
  let w := (List.range 4).foldl (fun w q => w.write 0 (16 * q) 16 (Tab.get 0 x.xb q).toNat) x.s
  { x with s := (List.range 8).foldl (fun w o => w.mark o false) w }

/-- Returning from a trap (R182, R380); an instruction that had been counted when it trapped is reissued and not counted
again (R343). An XPC that is no multiple of 4 is used as it stands (log 111). -/
def Ctx.tret (x : Ctx) (next : Bool) : Ctx :=
  { x.restoreBlock0 with
    lmask := x.xlm, priv := x.xpm, xact := false, counted := x.xcounted && !next, xl := [], walking := none
    pc := if next then x.xpc + BitVec.ofNat 64 (lenBytes x.xlen) else x.xpc }

/-! Sleeps and completions. -/

/-- A wait of a context is over: it goes on after the waiting instruction. -/
def State.complete (s : State) (p : Nat) (next : Word) : State :=
  (s.modCtx p (fun x => { x with pc := next, counted := false })).wake p

/-- An acquire: the flagged lines of the core's L1 go before any later load performs (R210, R237). -/
def State.acquire (s : State) (p : Nat) : State := s.dropFlagged (p / 16)

/-- The length of the instruction a context waits in. -/
def Ctx.nextPc (x : Ctx) : Word := x.pc + BitVec.ofNat 64 (lenBytes x.ilen)

/-! Releases (R236, R240, R242). -/

/-- A store that a release of a mask and scope waits for. -/
def Flight.owed (f : Flight) (mask : BitVec 8) (scope : Scope) : Bool :=
  f.isStore &&
    (match f.colour with
      | none => true
      | some c => bitAt mask.toNat c) &&
    (!f.allDone || (scope = .sys && f.hostPend))

/-- An operation is one of a task, issued as a context; the task may have run on another core then (R250, R352), and may have
ended since (R323). -/
def Flight.isOf (f : Flight) (uid p : Nat) : Bool := f.ctx = p % 16 && f.uid = uid && (f.core = p / 16 || uid ≠ 0)

/-- Operations of a task's context with a lower number than some bound. -/
def State.ofTask (s : State) (uid p before : Nat) : List Flight := s.flights.filter (fun f => f.isOf uid p && f.id < before)

/-- Those of the task that the context's core runs. -/
def State.earlier (s : State) (p before : Nat) : List Flight := s.ofTask (s.owner (p / 16)).1 p before

/-- Every earlier store of a context is visible at its home. -/
def State.drained (s : State) (p : Nat) : Bool := (s.earlier p s.nextId).all (fun f => !f.isStore || f.allDone)

/-- Every earlier load of a task's context has taken its value, and every owed store is visible at the scope. -/
def State.quietOf (s : State) (uid p before : Nat) (mask : BitVec 8) (scope : Scope) : Bool :=
  (s.ofTask uid p before).all (fun f => (!f.isLoad || f.allDone) && !f.owed mask scope)

def State.quiet (s : State) (p before : Nat) (mask : BitVec 8) (scope : Scope) : Bool :=
  s.quietOf (s.owner (p / 16)).1 p before mask scope

def allColours : BitVec 8 := 0xFF

/-- The releases that a context's start acquired have taken effect: HSTART's, and those before it (R173, R239). -/
def State.floorOf (s : State) (uid : Nat) (l : List (Nat × Nat)) : Bool :=
  l.all (fun x => s.quietOf uid x.1 x.2 allColours .core)

def State.floorClear (s : State) (p : Nat) : Bool := s.floorOf (s.owner (p / 16)).1 (s.ctx p).floor

/-- A release of the context takes effect: it follows the context's own accesses and the release its start acquired (R236,
R239). -/
def State.released (s : State) (p before : Nat) (mask : BitVec 8) (scope : Scope) : Bool :=
  s.quiet p before mask scope && s.floorClear p

/-! Joins and DONE. -/

def State.isFree (s : State) (c k : Nat) : Bool := (s.ctx (ctxId c k)).run = .free

/-- Every helper of a mask is free; the issuer's own bit is ignored (R174). -/
def State.joined (s : State) (c k mask : Nat) : Bool :=
  ctxNums.all (fun j => j = 0 || j = k || !bitAt mask j || s.isFree c j)

def State.helpersFree (s : State) (c : Nat) : Bool := ctxNums.all (fun j => j = 0 || s.isFree c j)

/-- DONE may finish: producers, those of fixed latency among them (DEDUCED, log 23), have written back and the release has
taken effect (R29, R175). -/
def State.doneReady (s : State) (p : Nat) : Bool :=
  !s.hasWB p && s.released p s.nextId allColours (if p % 16 = 0 then .pkg else .core)

/-! Parking (R342, R346). -/

structure SafeRec where
  (vec sca : Nat) (stub : Word) (noStub : Bool)
deriving DecidableEq, Repr

/-- Read and check a safe-point record for a context (R60, R342). -/
def State.readRecord (s : State) (p : Nat) (addr : Word) : Except TrapInfo SafeRec :=
  match s.place (s.who p) .ld addr 16 with
  | .error t => .error t
  | .ok pl =>
    match s.badBytes [pl.key] with
    | some k => .error ⟨0x100 + k, BitVec.ofNat 64 pl.key, addr⟩
    | none =>
    let v := s.word pl.key 16
    let x := s.ctx p
    let vec := bitsAt v 0 32
    let sca := bitsAt v 32 32
    let off := bitsAt v 64 32
    let flags := bitsAt v 96 32
    let stub := addr + BitVec.ofInt 64 (toInt true 32 off)
    if vec / 2 ^ x.v.blocks ≠ 0 then .error (tField addr 0)
    else if sca / 2 ^ x.s.blocks ≠ 0 then .error (tField addr 4)
    else if flags / 2 ≠ 0 then .error (tField addr 12)
    else if flags = 1 ∧ off ≠ 0 then .error (tField addr 8)
    else if stub.toNat % 4 ≠ 0 then .error (tAlign stub 4)
    else .ok ⟨vec, sca, stub, flags = 1⟩

/-- What reading a record leaves: its translation, and its access at the home (R207, R335). -/
def State.touchRecord (s : State) (p : Nat) (addr : Word) : State :=
  match s.place (s.who p) .ld addr 16 with
  | .error _ => s
  | .ok pl => (s.keepPlace (s.who p) pl).touch (s.who p).asid [⟨addr, pl.key, 16⟩] false .normal

/-- The slice of a record takes the request to read it, or refuses it or holds it back (R220). -/
def State.askRecord (s : State) (p : Nat) (addr : Word) : Bool × State :=
  match s.place (s.who p) .ld addr 16 with
  | .error _ => (true, s)
  | .ok pl => s.askSlices p (s.who p).asid [⟨addr, pl.key, 16⟩]

/-- A command has written its last row or failed (R198, R301). -/
def MatCmd.over (m : MatCmd) : Bool := m.fault.isSome || decide (m.cfg.m ≤ m.row)

/-- A matrix command leaves its engine with no trace. -/
def State.dropMat (s : State) (c id : Nat) : State :=
  let gone := (s.core c).mats.filter (fun m => m.id = id)
  let s := s.modCore c (fun x => { x with mats := x.mats.filter (fun m => m.id ≠ id) })
  let s := s.modDie (coreDie c) (fun x => { x with reqs := x.reqs.filter (fun r => r.who ≠ .mat c id) })
  s.freePower (coreDie c) (gone.foldl (fun n m => n + m.allowance) 0)

/-- A matrix command leaves withdrawn: the context's header counts it (R347). -/
def State.withdrawMat (s : State) (m : MatCmd) : State :=
  (s.dropMat m.core m.id).modCtx (ctxId m.core m.ctx) (fun x => { x with withdrawn := x.withdrawn + 1 })

/-- Some matrix commands of a core leave withdrawn, in queue order; RPR becomes the first row that the first of them has not
written (R347). -/
def State.withdrawMats (s : State) (c : Nat) (out : MatCmd → Bool) : State :=
  let mine := (s.core c).mats.filter (fun m => out m && !m.over)
  let s := match mine with
    | [] => s
    | m :: _ => s.modCore c (fun x => { x with rpr := BitVec.ofNat 6 m.row })
  mine.foldl (fun t m => t.withdrawMat m) s

/-- Every live context of a task that has been asked to step aside is parked. -/
def State.allParked (s : State) (c : Nat) : Bool :=
  (match (s.core c).task with | none => false | some t => t.pending) &&
    ctxNums.all (fun k => match (s.ctx (ctxId c k)).run with | .free | .parked .. => true | _ => false)

/-- With its last live context parked, a task's matrix commands stop (R347). -/
def State.stopMats (s : State) (c : Nat) : State :=
  if s.allParked c then s.withdrawMats c (fun m => ((s.core c).task.map (fun t => t.uid)) = some m.uid) else s

/-- The last act of parking: the record is read and checked, and the context leaves the rotation (R342, R346). With a page still
to be walked for, or no room at the record's slice, it comes later. -/
def State.finishPark (s : State) (p : Nat) (wait : Bool) (rec : Word) : State :=
  let read := s.readRecord p rec
  match s.askRecord p rec with
  | (false, t) => t.modCtx p (fun x => { x with run := .asleep (.parkDrain wait rec) s.cycle })
  | (true, s) =>
    match read with
    | .error t =>
      if t.isMiss then (s.modCtx p (fun x => { x with run := .asleep (.parkDrain wait rec) s.cycle })).walkMiss p t
      else (s.touchRecord p rec).raise p t
    | .ok r =>
      ((s.touchRecord p rec).modCtx p (fun x =>
        { x with
          run := .parked wait rec r.vec r.sca, stalled := none, held := false, xl := [], walking := none
          hold := .none })).stopMats (p / 16)

/-- A context of a resumed task goes on in its stub, or past it; the record at its SRA is read again (R352, R353). A blocking wait
that it reissues has been counted (R343). -/
def State.enterStub (s : State) (p : Nat) (wait : Bool) : State :=
  let sra := (s.ctx p).sra
  match s.askRecord p sra with
  | (false, t) => t.modCtx p (fun y => { y with run := .asleep (.stub wait) s.cycle })
  | (true, s) =>
    match s.readRecord p sra with
    | .error t =>
      if t.isMiss then (s.modCtx p (fun y => { y with run := .asleep (.stub wait) s.cycle })).walkMiss p t
      else ((s.touchRecord p sra).modCtx p (fun y => { y with counted := wait })).raise p t
    | .ok r =>
      ((s.touchRecord p sra).modCtx p (fun y =>
        let y := { y with xl := [], walking := none, hold := .none }
        if r.noStub then { y with counted := wait } else { y with pc := r.stub, stub := some (y.pc, wait) })).wake p

/-- The last act of DONE: a helper becomes free, or the task ends (R175). -/
def State.finishDone (s : State) (p : Nat) : State :=
  if p % 16 = 0 then s.endTask (p / 16) .done
  else ((s.dropCredits p).setCtx p .idle).stopMats (p / 16)

/-- A context begins to park; it first waits as R29 states, and for producers of fixed latency too (DEDUCED, log 23). -/
def State.park (s : State) (p : Nat) (wait : Bool) (rec : Word) : State :=
  if s.hasWB p then s.modCtx p (fun x => { x with run := .asleep (.parkDrain wait rec) s.cycle })
  else s.finishPark p wait rec

/-- A pre-emption request is pending for the context's task. -/
def State.pendingFor (s : State) (p : Nat) : Bool :=
  match (s.core (p / 16)).task with
  | none => false
  | some t => t.pending

/-- A wait of the context is a parking point (R344, R345, R353). -/
def Ctx.mayPark (x : Ctx) : Bool := x.sra ≠ 0 && !x.xact && x.stub.isNone

/-- Send the withdrawal that a pre-emption request or a limit sends from a wait (R344, R381). -/
def Flight.withdrawn (f : Flight) (w : Why) : Flight := { f with withdraw := some (f.withdraw.getD w) }

def State.withdraw (s : State) (p : Nat) (w : Why) : State :=
  match (s.ctx p).run with
  | .asleep (.flight id) _ =>
    { s with flights := s.flights.map (fun f => if f.id = id then f.withdrawn w else f) }
  | .asleep (.prent id) _ =>
    s.contests.foldl (fun t e =>
      let x := t.contest e.1
      t.setContest e.1 { x with entries := x.entries.map (fun n =>
        if n.id = id then { n with withdraw := some (n.withdraw.getD w) } else n) }) s
  | .asleep (.leave id) _ =>
    s.modDie (coreDie (p / 16)) (fun x => { x with reqs := x.reqs.map (fun r =>
      if r.id = id then { r with withdraw := some (r.withdraw.getD w) } else r) })
  | _ => s

def CtrUp.counts (u : CtrUp) (c id : Nat) : Bool :=
  match u.who with
  | .mat c' i _ => c' = c && i = id
  | _ => false

/-- An MMW's command has left: its context goes on with an acquire, or traps with the command's code (R197, R198). -/
def State.mmwEnd (s : State) (m : MatCmd) : State :=
  let p := ctxId m.core m.ctx
  match (s.ctx p).run with
  | .asleep (.mmw id) _ =>
    if id ≠ m.id then s
    else
      match m.fault with
      | some code => s.raise p (tEngineFault code)
      | none => (s.acquire p).complete p (s.ctx p).nextPc
  | _ => s

/-- Commands that are over leave once each of their counter updates has been made (R280, R301). -/
def State.matRetire (s : State) (c : Nat) : State :=
  let gone := (s.core c).mats.filter (fun m => m.over && !s.ctrUps.any (fun u => u.counts c m.id))
  let ids := gone.map (fun m => m.id)
  let s := s.modCore c (fun x => { x with mats := x.mats.filter (fun m => m.id ∉ ids) })
  let s := s.freePower (coreDie c) (gone.foldl (fun n m => n + m.allowance) 0)
  gone.foldl (fun t m => t.mmwEnd m) s

/-- The slice writes of a result: its value in every lane that the instruction writes. -/
def fillSl (l : List SlWrite) (v : Nat) : List SlWrite :=
  l.map (fun w => { w with vals := w.vals.map (fun x => (x.1, v % 2 ^ (4 * w.width))) })

/-- A context's newest writeback. -/
def State.lastWB (s : State) (p : Nat) : Option WB :=
  ((s.core (p / 16)).wbs.filter (fun w => w.ctx = p)).getLast?

/-- MMRP ends when no command of its context is queued or running (R199). -/
def State.mmrpEnd (s : State) (p : Nat) : State :=
  let c := p / 16
  if (s.core c).mats.any (fun m => m.ctx = p % 16) then s
  else
    match s.lastWB p with
    | none => s
    | some w => (s.fillWB c w.id (fillSl w.sl (s.core c).rpr.toNat) [] .none).complete p (s.ctx p).nextPc

/-- A context asleep in a blocking wait meets a pending request; a wait whose condition holds already completes (R344). An
MMW's command that has not begun a row is withdrawn then (log 112). -/
def State.preempt (s : State) (p : Nat) : State :=
  let x := s.ctx p
  if !x.mayPark then s
  else
    match x.run with
    | .asleep (.flight _) _ | .asleep (.prent _) _ | .asleep (.leave _) _ => s.withdraw p .preempt
    | .asleep (.join m) _ => if s.joined (p / 16) (p % 16) m then s else s.park p true x.sra
    | .asleep .helpers _ => if s.helpersFree (p / 16) then s else s.park p true x.sra
    | .asleep (.mmw id) _ =>
      if (s.core (p / 16)).mats.any (fun m => m.id = id && !m.begun && !m.over) then
        (s.withdrawMats (p / 16) (fun m => m.id = id)).park p true x.sra
      else s
    | _ => s

/-- A context goes to sleep in a wait of its instruction. -/
def State.sleep (s : State) (p : Nat) (w : Sleep) : State :=
  let t := s.modCtx p (fun x => { x with run := .asleep w s.cycle, counted := true })
  if t.pendingFor p then t.preempt p else t

/-- The scheduler asks a task to step aside (R327, R344). -/
def State.askPreempt (s : State) (c : Nat) : State :=
  let s := s.modCore c (fun x => { x with task := x.task.map (fun t => { t with pending := true }) })
  ctxNums.foldl (fun t k => t.preempt (ctxId c k)) s

/-! Waits that end when other parts of the state have changed. -/

/-- A context asleep in a drain or a join goes on where its condition holds. -/
def State.drainOne (s : State) (p : Nat) : State :=
  let c := p / 16
  match (s.ctx p).run with
  | .asleep (.trapDrain t) _ => if s.hasWB p then s else s.deliver p t
  | .asleep (.parkDrain w r) _ => if s.hasWB p then s else s.finishPark p w r
  | .asleep (.stub w) _ => s.enterStub p w
  | .asleep .doneDrain _ => if s.doneReady p then s.finishDone p else s
  | .asleep .helpers since =>
    if s.helpersFree c then
      if s.doneReady p then s.finishDone p
      else s.modCtx p (fun x => { x with run := .asleep .doneDrain since })
    else s
  | .asleep (.join m) _ =>
    if s.joined c (p % 16) m then (s.acquire p).complete p (s.ctx p).nextPc else s
  | .asleep .mmrp _ => s.mmrpEnd p
  | _ => s

def State.drainOnce (s : State) : State := s.ctxs.foldl (fun t e => t.drainOne e.1) s

/-- Helpers that end in a cycle are free for the joins of the same cycle (R9, R174). -/
def State.drainAll (s : State) : State := s.drainOnce.drainOnce

end Sys2Proof.Machine
end

