-- ==== Sys2Proof/Machine/Flags.lean ====
section
/-! DEFINITION. Flag and predicate computations: FLG as a register (R76, R77), the union of lanes' flags, and the bits a
comparison writes into a predicate (R92, R100). -/

namespace Sys2Proof.Machine

def Flags.all (l : List Flags) : Flags := l.foldl Flags.or .none

def flagNX : Flags := { Flags.none with nx := true }
def flagNV : Flags := { Flags.none with nv := true }
def flagDZ : Flags := { Flags.none with dz := true }

def bit1 (b : Bool) (n : Nat) : Nat := if b then 2 ^ n else 0

/-- FLG as SYSRD returns it (R76). -/
def Ctx.flg (x : Ctx) : Word :=
  BitVec.ofNat 64 (bit1 x.flags.nx 4 + bit1 x.flags.uf 3 + bit1 x.flags.of 2 + bit1 x.flags.dz 1 + bit1 x.flags.nv 0
    + bit1 x.ftz 8)

/-- FLG as SYSWR writes it: reserved bits are dropped (R76, R183). -/
def Ctx.setFlg (x : Ctx) (w : Word) : Ctx :=
  let b := fun n => bitAt w.toNat n
  { x with ftz := b 8, flags := ⟨b 4, b 3, b 2, b 1, b 0⟩ }

/-- The predicate write of a test made in some lanes: bits of the lanes that execute. -/
def predLanes (n : Nat) (lanes : List Nat) (test : Nat → Bool) : PrWrite :=
  ⟨n, lanesWord lanes, lanesWord (lanes.filter test)⟩

/-- A predicate write of all 64 bits. -/
def predAll (n : Nat) (b : Bool) : PrWrite := ⟨n, allOnes, if b then allOnes else 0⟩

end Sys2Proof.Machine
end

