-- ==== Sys2Proof/Machine/Numbers.lean ====
section
/-! DEFINITION. Floating-point numbers: formats and values (R66 to R69), rounding with its flags (R70 to R73, R78), exact
arithmetic and its special cases (R74, R112, R113), and conversions (R75). -/

namespace Sys2Proof

/-- How a format uses its top exponent: infinities and NaNs, one NaN, or numbers only (R67). -/
inductive FpKind | ieee | e4m3 | e2m1
deriving DecidableEq, Repr

/-- A format: its kind, exponent bits and fraction bits (R66). -/
structure FpFmt where
  (kind : FpKind) (e m : Nat)
deriving DecidableEq, Repr

def Ty.fp : Ty → FpFmt
  | .f16 => ⟨.ieee, 5, 10⟩
  | .b16 => ⟨.ieee, 8, 7⟩
  | .e4 => ⟨.e4m3, 4, 3⟩
  | .e5 => ⟨.ieee, 5, 2⟩
  | .q2 => ⟨.e2m1, 2, 1⟩
  | _ => ⟨.ieee, 8, 23⟩

namespace FpFmt

def bias (f : FpFmt) : Int := 2 ^ (f.e - 1) - 1
def signAt (f : FpFmt) : Nat := f.e + f.m
def bits (f : FpFmt) : Nat := f.e + f.m + 1
/-- Exponent of the smallest normal. -/
def emin (f : FpFmt) : Int := 1 - f.bias

def withSign (f : FpFmt) (neg : Bool) (x : Nat) : Nat := if neg then 2 ^ f.signAt + x else x

/-- Canonical NaN; E2M1 has none and takes code 0 (R66, R124). -/
def nan (f : FpFmt) : Nat :=
  match f.kind with
  | .ieee => (2 ^ f.e - 1) * 2 ^ f.m + 2 ^ (f.m - 1)
  | .e4m3 => 0x7F
  | .e2m1 => 0

/-- Encoding of the largest finite value (R66). -/
def top (f : FpFmt) : Nat :=
  match f.kind with
  | .ieee => (2 ^ f.e - 1) * 2 ^ f.m - 1
  | .e4m3 => 0x7E
  | .e2m1 => 0x7

/-- Largest finite magnitude as a mantissa and an exponent. -/
def topVal (f : FpFmt) : Nat × Int :=
  let frac := f.top % 2 ^ f.m + 2 ^ f.m
  (frac, (f.top / 2 ^ f.m : Nat) - f.bias - f.m)

def infBits (f : FpFmt) (neg : Bool) : Nat := f.withSign neg ((2 ^ f.e - 1) * 2 ^ f.m)

end FpFmt

end Sys2Proof

namespace Sys2Proof.Machine

/-- A value: a NaN, signalling or quiet; an infinity; or ± m × 2 ^ e (R67, R68). -/
inductive Val
  | nan (sig : Bool)
  | inf (neg : Bool)
  | fin (neg : Bool) (m : Nat) (e : Int)
deriving DecidableEq, Repr

def Val.isNan : Val → Bool
  | .nan _ => true
  | _ => false
def Val.isSig : Val → Bool
  | .nan sig => sig
  | _ => false
def Val.isInf : Val → Bool
  | .inf _ => true
  | _ => false
def Val.isZero : Val → Bool
  | .fin _ 0 _ => true
  | _ => false
def Val.neg : Val → Bool
  | .nan _ => false
  | .inf n => n
  | .fin n _ _ => n
def Val.negate : Val → Val
  | .nan sig => .nan sig
  | .inf n => .inf (!n)
  | .fin n m e => .fin (!n) m e

def expField (f : FpFmt) (x : Nat) : Nat := bitsAt x f.m f.e
def fracField (f : FpFmt) (x : Nat) : Nat := x % 2 ^ f.m

/-- The value of an encoding (R67, R68). -/
def decodeFp (f : FpFmt) (x : Nat) : Val :=
  let neg := bitAt x f.signAt
  let ef := expField f x
  let fr := fracField f x
  if f.kind = .ieee ∧ ef = 2 ^ f.e - 1 then
    (if fr = 0 then .inf neg else .nan (!bitAt fr (f.m - 1)))
  else if f.kind = .e4m3 ∧ x % 128 = 127 then .nan false
  else if ef = 0 then .fin neg fr (f.emin - f.m)
  else .fin neg (fr + 2 ^ f.m) (ef - f.bias - f.m)

/-- A subnormal encoding; E2M1's do not count (R32, R73). -/
def isSub (f : FpFmt) (x : Nat) : Bool := f.kind ≠ .e2m1 && expField f x = 0 && fracField f x ≠ 0

/-- A source as read: under FTZ a subnormal is a zero of its sign (R73). -/
def readFp (f : FpFmt) (ftz : Bool) (x : Nat) : Val :=
  match decodeFp f x with
  | .fin n m e => if ftz && isSub f x then .fin n 0 0 else .fin n m e
  | v => v

/-! Rounding (R70 to R73, R78). -/

/-- A rounding: a mode, or the stochastic one with its draw. -/
inductive Mode
  | det (r : Rnd)
  | sto (draw : Nat)
deriving DecidableEq, Repr

/-- An exact magnitude m × 2 ^ e, or with `more` a value above it and below (m + 1) × 2 ^ e. -/
structure Mag where
  (m : Nat) (e : Int) (more : Bool)
deriving DecidableEq, Repr

def bitLen (m : Nat) : Nat := if m = 0 then 0 else Nat.log2 m + 1

/-- Whether a magnitude rounds up: kept part, the part below it in units of 2 ^ -sh, and whether more lies below. -/
def roundsUp (mode : Mode) (neg : Bool) (kept rem sh : Nat) (more : Bool) : Bool :=
  let exact := rem = 0 && !more
  let half := 2 ^ (sh - 1)
  match mode with
  | .sto draw => decide (2 ^ 16 ≤ rem * 2 ^ 16 / 2 ^ sh + draw)
  | .det .rtz => false
  | .det .rup => !exact && !neg
  | .det .rdn => !exact && neg
  | .det .rna => decide (half ≤ rem)
  | .det _ => decide (half < rem) || (rem = half && (more || kept % 2 = 1))

/-- A magnitude on the grid of 2 ^ q: the kept multiple, and whether that is inexact. -/
def roundAt (mode : Mode) (neg : Bool) (x : Mag) (q : Int) : Nat × Bool :=
  let sh := (q - x.e).toNat
  if q ≤ x.e then (x.m * 2 ^ (x.e - q).toNat, x.more)
  else
    let kept := x.m / 2 ^ sh
    let rem := x.m % 2 ^ sh
    (kept + (if roundsUp mode neg kept rem sh x.more then 1 else 0), rem ≠ 0 || x.more)

/-- a × 2 ^ ea > b × 2 ^ eb -/
def magGt (a : Nat) (ea : Int) (b : Nat) (eb : Int) : Bool :=
  let lo := min ea eb
  decide (b * 2 ^ (eb - lo).toNat < a * 2 ^ (ea - lo).toNat)

structure FpRes where
  (bits : Nat) (fl : Flags)
deriving DecidableEq, Repr

def flagOF : Flags := { Flags.none with of := true, nx := true }
def flagUF : Flags := { Flags.none with uf := true, nx := true }

/-- The result of an overflow (R71). -/
def overflowTo (f : FpFmt) (mode : Mode) (neg : Bool) : Nat :=
  let big : Bool := match mode with
    | .det .rtz => false
    | .det .rup => !neg
    | .det .rdn => neg
    | _ => true
  if f.kind = .ieee ∧ big then f.infBits neg else f.withSign neg f.top

/-- The encoding of k × 2 ^ q, on the format's grid and within its range. -/
def encodeMag (f : FpFmt) (neg : Bool) (k : Nat) (q : Int) : Nat :=
  if k < 2 ^ f.m then (if f.kind = .e2m1 ∧ k = 0 then 0 else f.withSign neg k)
  else f.withSign neg ((q + f.m + f.bias).toNat * 2 ^ f.m + (k - 2 ^ f.m))

/-- Round a magnitude into a format (R70 to R73, R78). E2M1 has no -0 (R124, R128). Under FTZ a tiny result is a zero with UF and
NX, as R73 says, an exact one of .RS too, where R78 has UF follow R72 (DEDUCED, log 118). -/
def roundFp (f : FpFmt) (mode : Mode) (ftz : Bool) (neg : Bool) (x : Mag) : FpRes :=
  if x.m = 0 then ⟨if f.kind = .e2m1 then 0 else f.withSign neg 0, .none⟩
  else
    let top := (bitLen x.m : Int) - 1 + x.e
    let q := max top f.emin - f.m
    let r := roundAt mode neg x q
    let k := if 2 ^ (f.m + 1) ≤ r.1 then r.1 / 2 else r.1
    let q' := if 2 ^ (f.m + 1) ≤ r.1 then q + 1 else q
    if magGt k q' f.topVal.1 f.topVal.2 then ⟨overflowTo f mode neg, flagOF⟩
    else
      let u := roundAt mode neg x (top - f.m)
      let tiny := decide (top < f.emin) && !(decide (top = f.emin - 1) && decide (2 ^ (f.m + 1) ≤ u.1))
      if tiny && ftz && f.kind ≠ .e2m1 then ⟨f.withSign neg 0, flagUF⟩
      else ⟨encodeMag f neg k q', if r.2 then (if tiny then flagUF else flagNX) else .none⟩

/-- Round to an n-bit integer type, clamped (R75). -/
def roundInt (signed : Bool) (n : Nat) (mode : Mode) (neg : Bool) (x : Mag) : FpRes :=
  let r := roundAt mode neg x 0
  let v : Int := if neg then -(r.1 : Int) else r.1
  let c := clampInt signed n v
  if c = v then ⟨ofInt n v, if r.2 then flagNX else .none⟩ else ⟨ofInt n c, flagNV⟩

/-! Arithmetic (R69, R74, R112, R113). -/

def canonNan (f : FpFmt) : FpRes := ⟨f.nan, .none⟩
def invalid (f : FpFmt) : FpRes := ⟨f.nan, flagNV⟩

/-- The exact sum of two finite values, rounded; an exact zero has the sign R69 gives it. -/
def addFin (f : FpFmt) (r : Rnd) (ftz : Bool) (n1 : Bool) (m1 : Nat) (e1 : Int) (n2 : Bool) (m2 : Nat) (e2 : Int) : FpRes :=
  let lo := min e1 e2
  let sg := fun (n : Bool) (v : Nat) => if n then -(v : Int) else (v : Int)
  let v := sg n1 (m1 * 2 ^ (e1 - lo).toNat) + sg n2 (m2 * 2 ^ (e2 - lo).toNat)
  if v = 0 then ⟨f.withSign (if n1 = n2 then n1 else r = .rdn) 0, .none⟩
  else roundFp f (.det r) ftz (decide (v < 0)) ⟨v.natAbs, lo, false⟩

/-- A sum of values that are no signalling NaNs. -/
def addVal (f : FpFmt) (r : Rnd) (ftz : Bool) : Val → Val → FpRes
  | .nan _, _ => canonNan f
  | _, .nan _ => canonNan f
  | .inf a, .inf b => if a = b then ⟨f.infBits a, .none⟩ else invalid f
  | .inf a, _ => ⟨f.infBits a, .none⟩
  | _, .inf b => ⟨f.infBits b, .none⟩
  | .fin n1 m1 e1, .fin n2 m2 e2 => addFin f r ftz n1 m1 e1 n2 m2 e2

/-- An exact product; none where it is 0 × infinity. -/
def mulVal : Val → Val → Option Val
  | .nan a, _ => some (.nan a)
  | _, .nan b => some (.nan b)
  | .inf a, .inf b => some (.inf (a != b))
  | .inf a, .fin b m _ => if m = 0 then none else some (.inf (a != b))
  | .fin a m _, .inf b => if m = 0 then none else some (.inf (a != b))
  | .fin a m1 e1, .fin b m2 e2 => some (.fin (a != b) (m1 * m2) (e1 + e2))

/-- A value rounded into a format as an arithmetic result. -/
def roundVal (f : FpFmt) (mode : Mode) (ftz : Bool) : Val → FpRes
  | .nan _ => canonNan f
  | .inf n => ⟨f.infBits n, .none⟩
  | .fin n m e => roundFp f mode ftz n ⟨m, e, false⟩

def anySig (l : List Val) : Bool := l.any Val.isSig

def fpAdd (f : FpFmt) (r : Rnd) (ftz : Bool) (a b : Val) : FpRes :=
  if anySig [a, b] then invalid f else addVal f r ftz a b

def fpMul (f : FpFmt) (r : Rnd) (ftz : Bool) (a b : Val) : FpRes :=
  if anySig [a, b] then invalid f
  else
    match mulVal a b with
    | none => invalid f
    | some v => roundVal f (.det r) ftz v

/-- A quotient of magnitudes, to more bits than any format keeps. -/
def divMag (m1 : Nat) (e1 : Int) (m2 : Nat) (e2 : Int) : Mag :=
  ⟨m1 * 2 ^ 96 / m2, e1 - e2 - 96, m1 * 2 ^ 96 % m2 ≠ 0⟩

def fpDiv (f : FpFmt) (r : Rnd) (ftz : Bool) (a b : Val) : FpRes :=
  if anySig [a, b] then invalid f
  else
    match a, b with
    | .nan _, _ | _, .nan _ => canonNan f
    | .inf _, .inf _ => invalid f
    | .inf x, .fin y _ _ => ⟨f.infBits (x != y), .none⟩
    | .fin x _ _, .inf y => ⟨f.withSign (x != y) 0, .none⟩
    | .fin x m1 e1, .fin y m2 e2 =>
      if m2 = 0 then (if m1 = 0 then invalid f else ⟨f.infBits (x != y), flagDZ⟩)
      else if m1 = 0 then ⟨f.withSign (x != y) 0, .none⟩
      else roundFp f (.det r) ftz (x != y) (divMag m1 e1 m2 e2)

/-- a × b + c with one rounding; 0 × infinity is invalid even beside a quiet NaN. -/
def fpFma (f : FpFmt) (r : Rnd) (ftz : Bool) (negProd : Bool) (a b c : Val) : FpRes :=
  if anySig [a, b, c] then invalid f
  else
    match mulVal a b with
    | none => invalid f
    | some p => addVal f r ftz (if negProd then p.negate else p) c

/-- Integer square root, bit by bit from 2 ^ k. -/
def isqrt (n : Nat) : Nat → Nat → Nat
  | 0, r => if (r + 1) * (r + 1) ≤ n then r + 1 else r
  | k + 1, r =>
    let t := r + 2 ^ (k + 1)
    isqrt n k (if t * t ≤ n then t else r)

/-- A magnitude with an even exponent. -/
def evenExp (m : Nat) (e : Int) : Nat × Int := if e % 2 = 0 then (m, e) else (2 * m, e - 1)

def sqrtMag (m : Nat) (e : Int) : Mag :=
  let x := evenExp m e
  let n := x.1 * 2 ^ 80
  let s := isqrt n 60 0
  ⟨s, x.2 / 2 - 40, s * s ≠ n⟩

def rsqrtMag (m : Nat) (e : Int) : Mag :=
  let x := evenExp m e
  let n := 2 ^ 160
  let s := isqrt (n / x.1) 81 0
  ⟨s, -(x.2 / 2) - 80, s * s * x.1 ≠ n⟩

def fpSqrt (f : FpFmt) (r : Rnd) (ftz : Bool) (a : Val) : FpRes :=
  match a with
  | .nan sig => if sig then invalid f else canonNan f
  | .inf n => if n then invalid f else ⟨f.infBits false, .none⟩
  | .fin n m e =>
    if m = 0 then ⟨f.withSign n 0, .none⟩
    else if n then invalid f else roundFp f (.det r) ftz false (sqrtMag m e)

def fpRsq (f : FpFmt) (r : Rnd) (ftz : Bool) (a : Val) : FpRes :=
  match a with
  | .nan sig => if sig then invalid f else canonNan f
  | .inf n => if n then invalid f else ⟨0, .none⟩
  | .fin n m e =>
    if m = 0 then ⟨f.infBits n, flagDZ⟩
    else if n then invalid f else roundFp f (.det r) ftz false (rsqrtMag m e)

/-- a × 2 ^ n (R118). -/
def fpScale (f : FpFmt) (r : Rnd) (ftz : Bool) (a : Val) (n : Int) : FpRes :=
  match a with
  | .nan sig => if sig then invalid f else canonNan f
  | .inf s => ⟨f.infBits s, .none⟩
  | .fin s m e => roundFp f (.det r) ftz s ⟨m, e + max (-(2 ^ 20)) (min n (2 ^ 20)), false⟩

/-- An integral value in the same format (R119). -/
def fpRnd (f : FpFmt) (r : Rnd) (a : Val) : FpRes :=
  match a with
  | .nan sig => if sig then invalid f else canonNan f
  | .inf s => ⟨f.infBits s, .none⟩
  | .fin s m e =>
    let x := roundAt (.det r) s ⟨m, e, false⟩ 0
    ⟨(roundFp f (.det .rne) false s ⟨x.1, 0, false⟩).bits, if x.2 then flagNX else .none⟩

/-! Comparisons (R115, R117, R120). -/

/-- a < b among values that are no NaNs; -0 = +0. -/
def valLt : Val → Val → Bool
  | .inf a, .inf b => a && !b
  | .inf a, _ => a
  | _, .inf b => !b
  | .fin n1 m1 e1, .fin n2 m2 e2 =>
    let lo := min e1 e2
    let sg := fun (n : Bool) (v : Nat) => if n then -(v : Int) else (v : Int)
    decide (sg n1 (m1 * 2 ^ (e1 - lo).toNat) < sg n2 (m2 * 2 ^ (e2 - lo).toNat))
  | _, _ => false

/-- The lesser by value, -0 below +0. -/
def valBelow (a b : Val) : Bool := valLt a b || (!valLt b a && a.neg && !b.neg)

/-- FMIN and FMAX: one source's encoding, or the canonical NaN. NV is set as R115 says, where R68 has these instructions set no
flag (DEDUCED, log 117). -/
def fpMinMax (f : FpFmt) (least : Bool) (a b : Nat) : FpRes :=
  let x := decodeFp f a
  let y := decodeFp f b
  let fl := if anySig [x, y] then flagNV else .none
  if x.isNan && y.isNan then ⟨f.nan, fl⟩
  else if x.isNan then ⟨b, fl⟩
  else if y.isNan then ⟨a, fl⟩
  else if least then ⟨if valBelow y x then b else a, .none⟩ else ⟨if valBelow x y then b else a, .none⟩

/-- The class bits of R117. -/
def fpClass (f : FpFmt) (a : Nat) : Nat :=
  match decodeFp f a with
  | .nan sig => if sig then 2 ^ 8 else 2 ^ 9
  | .inf n => if n then 2 ^ 0 else 2 ^ 7
  | .fin n m _ =>
    let k := if m = 0 then 3 else if expField f a = 0 then 2 else 1
    2 ^ (if n then k else 7 - k)

end Sys2Proof.Machine

namespace Sys2Proof

open Machine

/-- The test of a condition of FCMP, and whether it sets NV, as R120 says, where R68 has FCMP set no flag (DEDUCED, log 117). -/
def FCC.test (c : FCC) (a b : Val) : Bool × Bool :=
  let nan := a.isNan || b.isNan
  let sig := anySig [a, b]
  match c with
  | .eq => (!nan && !valLt a b && !valLt b a, sig)
  | .ne => (nan || valLt a b || valLt b a, sig)
  | .lt => (!nan && valLt a b, nan)
  | .le => (!nan && !valLt b a, nan)
  | .gt => (!nan && valLt b a, nan)
  | .ge => (!nan && !valLt a b, nan)
  | .un => (nan, sig)
  | .or => (!nan, sig)

end Sys2Proof

namespace Sys2Proof.Machine

/-! Conversions (R75, R124). -/

/-- A value into a floating format, or into E2M1 with no special value. -/
def convFp (f : FpFmt) (mode : Mode) (ftz : Bool) : Val → FpRes
  | .nan sig => ⟨f.nan, if sig || f.kind = .e2m1 then flagNV else .none⟩
  | .inf n =>
    match f.kind with
    | .ieee => ⟨f.infBits n, .none⟩
    | .e4m3 => ⟨f.nan, flagNV⟩
    | .e2m1 => ⟨f.withSign n f.top, flagNV⟩
  | .fin n m e => roundFp f mode ftz n ⟨m, e, false⟩

/-- A value into an n-bit integer type. -/
def convInt (signed : Bool) (n : Nat) (mode : Mode) : Val → FpRes
  | .nan _ => ⟨0, flagNV⟩
  | .inf s => ⟨ofInt n (if s then minOf signed n else maxOf signed n), flagNV⟩
  | .fin s m e => roundInt signed n mode s ⟨m, e, false⟩

/-- An integer into a floating format. -/
def convFromInt (f : FpFmt) (mode : Mode) (ftz : Bool) (v : Int) : FpRes :=
  roundFp f mode ftz (decide (v < 0)) ⟨v.natAbs, 0, false⟩

/-- An E2M1 code without a block: the code 0b1000 reads as +0 (R124). -/
def readQ2 (x : Nat) : Val := if x % 16 = 8 then .fin false 0 0 else decodeFp Ty.q2.fp (x % 16)

/-! The stochastic generator (R79). -/

def nextState (x : BitVec 32) : BitVec 32 :=
  let x := x ^^^ (x <<< 13)
  let x := x ^^^ (x >>> 17)
  x ^^^ (x <<< 5)

def drawOf (x : BitVec 32) : Nat := x.toNat / 65536

end Sys2Proof.Machine
end

