-- ==== Sys2Proof/Machine/Blocks.lean ====
section
/-! DEFINITION. The described 64-byte block (R80 to R86): its layout and check, the value of an element, the encoding of
one (R128), the building of a block (R127), and the dot product of two blocks (R88, R89). -/

namespace Sys2Proof

/-- The format a code names (R81). -/
def BFmt.ofCode (n : Nat) : Option BFmt := [BFmt.fp32, .fp16, .bf16, .e4m3, .e5m2, .e2m1, .i8, .i4].find? (fun f => f.code = n)

/-- The floating format of a block's elements; I8 and I4 have none. -/
def BFmt.fp : BFmt → Option FpFmt
  | .fp32 => some Ty.f32.fp
  | .fp16 => some Ty.f16.fp
  | .bf16 => some Ty.b16.fp
  | .e4m3 => some Ty.e4.fp
  | .e5m2 => some Ty.e5.fp
  | .e2m1 => some Ty.q2.fp
  | .i8 | .i4 => none

end Sys2Proof

namespace Sys2Proof.Machine

/-! A block is a number of 512 bits, byte 0 lowest. -/

def blkByte (b n : Nat) : Nat := bitsAt b (8 * n) 8
def setBlkByte (b n v : Nat) : Nat := setBitsAt b (8 * n) 8 v

/-- One byte into the check of R85. -/
def crc8Byte (c b : Nat) : Nat :=
  (List.range 8).foldl (fun c _ => if bitAt c 7 then Nat.xor (c * 2) 7 % 256 else c * 2 % 256) (Nat.xor c b)

def crc8 (l : List Nat) : Nat := l.foldl crc8Byte 0

/-- The check over bytes 0 to 2 and 4 to 63. -/
def blkCheck (b : Nat) : Nat :=
  crc8 ((List.range 3).map (blkByte b) ++ (List.range 60).map (fun n => blkByte b (n + 4)))

/-- A block with its check written. -/
def sealed (b : Nat) : Nat := setBlkByte b 3 (blkCheck b)

/-- The format of a readable block (R86). -/
def blkFmt (b : Nat) : Option BFmt := BFmt.ofCode (blkByte b 0)

def elemAt (f : BFmt) (b i : Nat) : Nat := bitsAt b (32 + f.bits * i) f.bits
def putElem (f : BFmt) (b i v : Nat) : Nat := setBitsAt b (32 + f.bits * i) f.bits v

/-- The special value's encoding as a value (R83). -/
def specialVal (sp : Nat) : Val := decodeFp Ty.e4.fp (sp % 128)

def Val.scale : Val → Int → Val
  | .fin n m e, k => .fin n m (e + k)
  | v, _ => v

/-- The value of an element's code in a block of a scale and special value (R82, R83). -/
def elemVal (f : BFmt) (scale sp code : Nat) : Val :=
  if scale = 255 then .nan false
  else
    let v : Val := match f.fp with
      | none => let x := toInt true f.bits code; .fin (decide (x < 0)) x.natAbs 0
      | some m => if f = BFmt.e2m1 ∧ code = 8 then specialVal sp else decodeFp m code
    v.scale ((scale : Int) - 127)

/-- The value of element i of a readable block. -/
def blkVal (f : BFmt) (b i : Nat) : Val := elemVal f (blkByte b 1) (blkByte b 2 % 128) (elemAt f b i)

/-- A finite value at or above (6 + S) / 2 takes the special code, for S a number above 6 (R128). -/
def takesSpecial (sp : Nat) : Val → Bool
  | .fin false m e =>
    match specialVal sp with
    | .fin _ ms es =>
      let lo := min (min e es) 0
      let y := m * 2 ^ (e - lo).toNat
      let t := ms * 2 ^ (es - lo).toNat
      let six := 6 * 2 ^ (-lo).toNat
      decide (six < t) && decide (six + t ≤ 2 * y)
    | _ => false
  | _ => false

def sameVal (a b : Val) : Bool := !valLt a b && !valLt b a

/-- The code of a scaled element (R128). -/
def encElem (f : BFmt) (r : Rnd) (ftz : Bool) (sp : Nat) (y : Val) : FpRes :=
  match f.fp with
  | none => convInt true f.bits (.det r) y
  | some m =>
    if f = .e2m1 ∧ takesSpecial sp y then ⟨8, if sameVal y (specialVal sp) then .none else flagNX⟩
    else if f = .e2m1 ∧ y.isNan then ⟨0, flagNV⟩
    else
      let x := convFp m (.det r) ftz y
      if f = .e2m1 ∧ x.bits = 8 then ⟨0, x.fl⟩ else x

/-! QBLK (R127). -/

/-- Largest finite value of a format, as a mantissa and an exponent. -/
def BFmtTop (f : BFmt) : Nat × Int :=
  match f.fp with
  | some m => m.topVal
  | none => (2 ^ (f.bits - 1) - 1, 0)

/-- The greatest magnitude among finite nonzero values. -/
def maxMag : List Val → Option (Nat × Int)
  | [] => none
  | .fin _ m e :: r =>
    if m = 0 then maxMag r
    else
      match maxMag r with
      | none => some (m, e)
      | some x => if magGt x.1 x.2 m e then some x else some (m, e)
  | _ :: r => maxMag r

/-- The least scale at which the greatest magnitude is no overflow. -/
def autoScale (f : BFmt) (l : List Val) : Nat :=
  match maxMag l with
  | none => 127
  | some x =>
    let t := BFmtTop f
    ((List.range 255).find? (fun (c : Nat) => !magGt x.1 (x.2 + 127 - Int.ofNat c) t.1 t.2)).getD 254

structure BlkRes where
  (blk : Nat) (fl : Flags)
deriving DecidableEq, Repr

/-- A block of values read with FTZ already applied. -/
def quantise (f : BFmt) (r : Rnd) (ftz : Bool) (sc sp : Option Nat) (l : List Val) : BlkRes :=
  let hdr := f.code + 2 ^ 16 * (sp.getD 0 % 128)
  if l.any Val.isNan then
    ⟨sealed (hdr + 2 ^ 8 * 255), if anySig l then flagNV else .none⟩
  else
    let scale : Nat := match sc with
      | some c => c % 256
      | none => autoScale f l
    let codes := l.map (fun v => encElem f r ftz (sp.getD 0) (v.scale (127 - (scale : Int))))
    let b := codes.zipIdx.foldl (fun (b : Nat) x => putElem f b x.2 x.1.bits) (hdr + 2 ^ 8 * scale)
    ⟨sealed b, Flags.all (codes.map (fun x => x.fl))⟩

/-! The matrix engine's arithmetic (R88, R89): FP32, round to nearest even, subnormals exact, no flags. -/

def m32 : FpFmt := Ty.f32.fp
def add32 (a b : Nat) : Nat := (fpAdd m32 .rne false (decodeFp m32 a) (decodeFp m32 b)).bits

/-- An exact product; 0 × infinity is a NaN. -/
def prod (a b : Val) : Val := (mulVal a b).getD (.nan false)

/-- The first level: sums of exact products; a product left over is rounded. -/
def level0 : List Val → List Nat
  | a :: b :: r => (addVal m32 .rne false a b).bits :: level0 r
  | [a] => [(roundVal m32 (.det .rne) false a).bits]
  | [] => []

def levelUp : List Nat → List Nat
  | a :: b :: r => add32 a b :: levelUp r
  | l => l

/-- The tree's levels until one entry is left. -/
def dotTree : Nat → List Nat → Nat
  | 0, l => l.headD 0
  | n + 1, l =>
    match l with
    | [a] => a
    | _ => dotTree n (levelUp l)

/-- The dot product of two readable blocks of formats with equal element counts. -/
def dotBlocks (fa fb : BFmt) (a b : Nat) : Nat :=
  dotTree 8 (level0 ((List.range fa.count).map (fun i => prod (blkVal fa a i) (blkVal fb b i))))

/-- The plain array formats (R196). -/
def cfmtTy : CFmt → Ty
  | .fp32 => .f32
  | .fp16 => .f16
  | .bf16 => .b16
  | .e4m3 => .e4
  | .e5m2 => .e5

/-- C's element, converted exactly to FP32. -/
def cToF32 (f : CFmt) (x : Nat) : Nat :=
  match decodeFp (cfmtTy f).fp x with
  | .nan _ => m32.nan
  | v => (roundVal m32 (.det .rne) false v).bits

/-- The final accumulator in D's format; in E4M3 an infinity gives ± 448. -/
def f32ToD (f : CFmt) (x : Nat) : Nat :=
  let t := (cfmtTy f).fp
  match decodeFp m32 x with
  | .inf n => if t.kind = .ieee then t.infBits n else t.withSign n t.top
  | v => (roundVal t (.det .rne) false v).bits

end Sys2Proof.Machine
end

