-- ==== Sys2Proof/Machine/Issue.lean ====
section
/-! DEFINITION. Issue: the checks of R34 in their order, the count of SPC (R343), the added cycles of misaligned operands
(R22), and what an instruction's own part may answer. -/

namespace Sys2Proof

open Machine

/-- Check 4 (R21). -/
def Shape.badWidth (sh : Shape) : Option Nat :=
  ((sh.widths.filter (fun x => x.2.1.width ∉ x.2.2)).map (fun x => x.1)).min?

/-- Check 5 (R23). -/
def Opnd.shares (a b : Opnd) : Bool := a.file = b.file && overlaps a.start.toNat a.width b.start.toNat b.width
def Shape.aliased (sh : Shape) : Bool :=
  match sh.dsts with
  | [a, b] => a.2.shares b.2
  | _ => false

/-- Octets of a block range. -/
def Shape.rangeOctets (sh : Shape) : List (FileId × Nat) :=
  match sh.range with
  | none => []
  | some (f, first, n) => (List.range (8 * n)).map (fun k => (f, 8 * first + k))

/-- The empty-action bit of the n-th source field, from 1 (R26). -/
def Hdr.ea (h : Hdr) (n : Nat) : Bool :=
  if n = 1 then h.ea1 else if n = 2 then h.ea2 else if n = 3 then h.ea3 else false

/-- Added issue cycles of misaligned operands (R22). -/
def Opnd.misaligned (o : Opnd) : Bool := decide ((o.width + 7) / 8 < (octetsOf o.start.toNat o.width).length)
def Shape.added (sh : Shape) : Nat := (sh.fields.dedup.filter (fun o => o.2.misaligned)).length

def Instr.isSafe : Instr → Bool
  | .safe _ => true
  | _ => false

end Sys2Proof

namespace Sys2Proof.Machine

/-- What an instruction's own part, check 9 and the effect, answers. -/
inductive Act
  /-- Performed; the context goes on after it. -/
  | go (s : State)
  /-- Performed; the context goes on at an address. -/
  | jump (s : State) (pc : Word)
  /-- The context now waits in the instruction, or the effect has placed the context itself. -/
  | wait (s : State)
  | trap (t : TrapInfo)
  /-- A trap after a part of the effect that stands (R152). -/
  | trapWith (t : TrapInfo) (s : State)
  /-- A part of the effect is made and the instruction is issued again from its start (R152). -/
  | again (s : State)
  /-- Not ready: the slot is forfeited and the instruction is tried again. -/
  | stall
  /-- As stall, with a change that stands: a place on a stall list (R302), or a refusal (R220). -/
  | hold (f : State → State)

/-- Check 3 of one operand: its window, its kind, and a vector source of a scalar destination (R18, R19, R167). -/
def State.opndBad (s : State) (p : Nat) (sh : Shape) (o : Nat × Opnd) : Bool :=
  decide (64 * (s.window p o.2.file).blocks < o.2.start.toNat + o.2.width)
    || (sh.scal.contains o && o.2.isVec) || (sh.vect.contains o && !o.2.isVec)
    || (!sh.vs && o.2.isVec && sh.sources.contains o && sh.dsts.any (fun d => !d.2.isVec))

/-- The position of the first operand that fails a test (R354). -/
def firstPos (l : List (Nat × Opnd)) (bad : Nat × Opnd → Bool) : Option Nat :=
  ((l.filter bad).map (fun o => o.1)).min?

def State.rangeBad (s : State) (p : Nat) (sh : Shape) : Bool :=
  match sh.range with
  | none => false
  | some (f, first, n) => decide ((s.window p f).blocks < first + n)

def octs (l : List (Nat × Opnd)) : List (FileId × Nat) := l.flatMap (fun o => o.2.octets)

/-- Check 6: octets of fixed-latency writes and predicates of any write under way; any vector operand reads LMASK (R14,
R92, log 20). -/
def State.busy (s : State) (p : Nat) (h : Hdr) (sh : Shape) : Bool :=
  let ws := (s.core (p / 16)).wbs.filter (fun w => w.ctx = p)
  let held := (ws.filter (fun w => !w.long)).flatMap (fun w => w.octs)
  let preds := ws.flatMap (fun w => w.preds)
  let named := (match h.guard with | none => [] | some g => [g.pred.val]) ++ sh.prd ++ sh.pwr
  (octs sh.fields ++ sh.rangeOctets ++ sh.more).any held.contains || named.any preds.contains
    || (preds.contains 15 && (sh.vdata || sh.fields.any (fun d => d.2.isVec)))

def State.opEmpty (s : State) (p : Nat) (o : Opnd) : Bool := o.octets.any (s.octetEmpty p)

/-- Source fields that are empty, with their source numbers. -/
def State.emptySrcs (s : State) (p : Nat) (sh : Shape) : List (Nat × Opnd) :=
  sh.srcs.zipIdx.filterMap (fun x => x.1.2.bind (fun o => if s.opEmpty p o then some (x.2 + 1, o) else none))

/-- Sources with an empty octet and action 0 (R26). -/
def State.waitSrcs (s : State) (p : Nat) (h : Hdr) (sh : Shape) : List Opnd :=
  ((s.emptySrcs p sh).filter (fun x => !h.ea x.1)).map (fun x => x.2) ++ (sh.reads.map (fun x => x.2)).filter (s.opEmpty p)

/-- Destination octets that an earlier long-latency producer of the context has emptied (R27). -/
def State.ownEmpty (s : State) (p : Nat) (sh : Shape) : List (FileId × Nat) :=
  let own := ((s.core (p / 16)).wbs.filter (fun w => w.ctx = p && w.long)).flatMap (fun w => w.octs)
  (octs sh.dsts ++ sh.more ++ (if sh.kind = .late then sh.rangeOctets else [])).filter (fun o => own.contains o && s.octetEmpty p o)

/-- Octets an instruction sleeps on until all of them are full: every octet of a source that has an empty one, and the
destinations of the context's own producers under way (R26, R27). -/
def State.sleepOctets (s : State) (p : Nat) (h : Hdr) (sh : Shape) : List (FileId × Nat) :=
  (s.waitSrcs p h sh).flatMap Opnd.octets ++ s.ownEmpty p sh

def State.lengthen (s : State) (c n : Nat) : State :=
  if n = 0 then s else s.modCore c (fun x => { x with slotAt := x.slotAt + n, rotAt := x.rotAt + n })

/-- The safe-point limit of the task of a core (R313, R343). -/
def State.splim (s : State) (c : Nat) : Nat :=
  match (s.core c).task with
  | none => 65536
  | some t => t.eff.splim.toNat

/-- Instructions that SPC does not count: reissues, and those of a handler or a rebuild stub (R343). -/
def Ctx.uncounted (x : Ctx) : Bool := x.xact || x.stub.isSome || x.counted

/-- The first failing check of 1 to 5 (R34). -/
def State.staticTrap (s : State) (p : Nat) (i : Instr) : Option TrapInfo :=
  let sh := i.shape
  if (encErr i).isSome then some tUndef
  else if sh.priv ∧ !(s.ctx p).priv then some tPriv
  else
    match firstPos sh.fields (s.opndBad p sh) with
    | some n => some (tSliceRange n)
    | none =>
      if s.rangeBad p sh then some (tSliceRange 0)
      else
        match sh.badWidth with
        | some n => some (tSliceWidth n)
        | none => if sh.aliased then some tSliceAlias else none

/-- Checks 6a and 7. -/
def State.lateTrap (s : State) (p : Nat) (i : Instr) : Option TrapInfo :=
  let x := s.ctx p
  let lim := s.splim (p / 16)
  if !x.uncounted ∧ lim ≤ x.spc.toNat ∧ !i.isSafe then some (tSafeDrought (BitVec.ofNat 25 lim))
  else
    match (s.emptySrcs p i.shape).find? (fun e => i.hdr.ea e.1) with
    | some e => some (tEmptyRead e.1)
    | none => none

/-- The slot is forfeited (R11). -/
def State.forfeit (s : State) (c : Nat) : State := s.count c 1 1

/-- SPC counts an instruction at its first issue, never beyond the limit (R343). -/
def Ctx.countSpc (x : Ctx) (lim : Nat) : Ctx :=
  { x with spc := if x.uncounted || decide (lim ≤ x.spc.toNat) then x.spc else x.spc + 1, counted := true }

/-- The end of an issue: the instruction is counted and its added cycles taken. -/
def State.issued (s : State) (c added : Nat) : State := (s.lengthen c added).count c 0 1

def Ctx.goTo (x : Ctx) (pc : Word) : Ctx :=
  { x with pc := pc, counted := false, stalled := none, held := false, xl := [], walking := none, hold := .none }

/-- The length of the instruction being issued is known (R380). -/
def Ctx.setLen (x : Ctx) (i : Instr) : Ctx := { x with ilen := BitVec.ofNat 2 i.hdr.len.code }

/-- The context as the instruction's own part finds it. -/
def Ctx.enter (x : Ctx) (i : Instr) (lim : Nat) : Ctx := (x.setLen i).countSpc lim

def State.entered (s : State) (i : Instr) : Ctx := (s.ctx s.cur).enter i (s.splim (s.cur / 16))
def State.enter (s : State) (i : Instr) : State := s.setCtx s.cur (s.entered i)

/-- An uncorrectable error in a register that a source of an instruction touches (R358). -/
def State.badReg (s : State) (p : Nat) (sh : Shape) : Bool :=
  let src := sh.srcs.filterMap (fun x => x.2) ++ sh.reads.map (fun x => x.2)
  s.ueIn p (src.flatMap Opnd.octets)

/-- Issue of an instruction in the current context's slot (R34). One that sleeps at check 8, traps or stalls takes none of
its added issue cycles (DESIGN CHOICE, log 113). A translation that is still to be walked for forfeits the
slot, and the instruction is tried again (R11, R335). -/
def State.issue (s : State) (i : Instr) (act : State → Act) : State :=
  let p := s.cur
  let c := p / 16
  let sh := i.shape
  let u := s.enter i
  let s := s.modCtx p (fun x => x.setLen i)
  match s.staticTrap p i with
  | some t => s.raise p t
  | none =>
    if s.busy p i.hdr sh then s.forfeit c
    else
      match s.lateTrap p i with
      | some t => s.raise p t
      | none =>
        let next := (s.ctx p).pc + BitVec.ofNat 64 i.hdr.len.bytes
        match s.sleepOctets p i.hdr sh with
        | o :: l => u.modCtx p (fun x => { x with run := .asleep (.octets (o :: l)) s.cycle })
        | [] =>
          if s.badReg p sh then s.consumeBad 1 c 0 0
          else
          match act u with
          | .go t => (t.modCtx p (fun x => x.goTo next)).issued c sh.added
          | .jump t pc => (t.modCtx p (fun x => x.goTo pc)).issued c sh.added
          | .wait t => t.issued c sh.added
          | .trap t => if t.isMiss then (s.walkMiss p t).forfeit c else s.raise p t
          | .trapWith t v =>
            if t.isMiss then (v.walkMiss p t).forfeit c
            else (v.modCtx p (fun x => { x with spc := (s.ctx p).spc, counted := (s.ctx p).counted })).raise p t
          | .again t => t
          | .stall => s.forfeit c
          | .hold f => (f s).forfeit c

/-- Lanes in which an instruction executes: the active lanes of a vector form, bit 0 of the guard for a scalar one (R19,
R41). -/
def Ctx.lanes (x : Ctx) (h : Hdr) (vec : Bool) : List Nat :=
  if vec then x.activeLanes h else if x.guardAt h 0 then [0] else []

def State.lanes (s : State) (h : Hdr) (vec : Bool) : List Nat := (s.ctx s.cur).lanes h vec

/-- Bit 0 of the guard (R41). -/
def State.guarded (s : State) (h : Hdr) : Bool := (s.ctx s.cur).guardAt h 0

/-- Record the writeback of an instruction of the current context. -/
def State.produce (s : State) (i : Instr) (sl : List SlWrite) (pr : List PrWrite) (fl : Flags) : State :=
  s.addWB s.cur i.shape.kind false sl pr fl (octs i.shape.dsts) i.shape.pwr

/-- A slice write of a function of the lane. -/
def State.lanesWrite (s : State) (h : Hdr) (d : Opnd) (f : Nat → Nat) : SlWrite :=
  ⟨d.file, d.start.toNat, d.width, (s.lanes h d.isVec).map (fun l => (l, f l))⟩

/-- An instruction that writes one destination by a function of the lane. -/
def State.write1 (s : State) (i : Instr) (d : Opnd) (f : Nat → Nat) : Act :=
  .go (s.produce i [s.lanesWrite i.hdr d f] [] .none)

end Sys2Proof.Machine
end

