-- ==== Sys2Proof/Machine/Integer.lean ====
section
/-! DEFINITION. Integer and address instructions: class 0 (R94 to R100). -/

namespace Sys2Proof.Machine

abbrev Res := Host.Outcome State Fault Refusal

/-- The result of an integer instruction of two sources in a lane (R20, R95). -/
def int2 (i : Instr) (t : Ty) (sat : Bool) (d a b : Opnd) (op : Int → Int → Int) (s : State) : Act :=
  s.write1 i d (fun l => fitInt t sat d.bits (op (s.intOp s.cur t a l) (s.intOp s.cur t b l)))

def int1 (i : Instr) (t : Ty) (sat : Bool) (d a : Opnd) (op : Int → Int) (s : State) : Act :=
  s.write1 i d (fun l => fitInt t sat d.bits (op (s.intOp s.cur t a l)))

def int3 (i : Instr) (t : Ty) (sat : Bool) (d a b c : Opnd) (op : Int → Int → Int → Int) (s : State) : Act :=
  s.write1 i d (fun l => fitInt t sat d.bits (op (s.intOp s.cur t a l) (s.intOp s.cur t b l) (s.intOp s.cur t c l)))

/-- Bits of the W-bit pattern of a value. -/
def bitList (t : Ty) (v : Int) : List Bool := (List.range t.bits).map (bitAt (ofInt t.bits v))

/-- Zero bits above the highest 1 bit. -/
def clz (t : Ty) (v : Int) : Int := ((bitList t v).reverse.takeWhile (fun b => !b)).length
def popc (t : Ty) (v : Int) : Int := ((bitList t v).filter (fun b => b)).length

/-- A 32-bit immediate at a type (R20). -/
def immVal (t : Ty) (imm : BitVec 32) : Int := intVal t 32 imm.toNat

/-- Quotient truncated toward zero, and remainder; for a zero divisor all ones, and the dividend (R65, R96). -/
def quot (t : Ty) (a b : Int) : Int := if b = 0 then (2 ^ t.bits - 1 : Nat) else a.tdiv b
def rema (a b : Int) : Int := if b = 0 then a else a.tmod b

/-- DIV and REM: a zero divisor sets DZ and is not saturated (R65, R96). -/
def divide (i : Instr) (f : Int3) (op : Int → Int → Int) (s : State) : Act :=
  let p := s.cur
  let w := s.lanesWrite i.hdr f.d (fun l =>
    let b := s.intOp p f.ty f.b l
    fitInt f.ty (f.sat && b ≠ 0) f.d.bits (op (s.intOp p f.ty f.a l) b))
  let dz := (s.lanes i.hdr f.d.isVec).any (fun l => s.intOp p f.ty f.b l = 0)
  .go (s.produce i [w] [] (if dz then flagDZ else .none))

def execAdd (f : Int3) (s : State) : Res :=
  .next (s.issue (.add f) (int2 (.add f) f.ty f.sat f.d f.a f.b (fun a b => a + b)))

def execSub (f : Int3) (s : State) : Res :=
  .next (s.issue (.sub f) (int2 (.sub f) f.ty f.sat f.d f.a f.b (fun a b => a - b)))

def execMul (f : Int3) (s : State) : Res :=
  .next (s.issue (.mul f) (int2 (.mul f) f.ty f.sat f.d f.a f.b (fun a b => a * b)))

def execMin (f : Int3) (s : State) : Res :=
  .next (s.issue (.min f) (int2 (.min f) f.ty f.sat f.d f.a f.b min))

def execMax (f : Int3) (s : State) : Res :=
  .next (s.issue (.max f) (int2 (.max f) f.ty f.sat f.d f.a f.b max))

def execMulh (f : Int3) (s : State) : Res :=
  .next (s.issue (.mulh f) (int2 (.mulh f) f.ty f.sat f.d f.a f.b (fun a b => a * b / (2 ^ f.ty.bits : Nat))))

def execAddi (f : AddI) (s : State) : Res :=
  .next (s.issue (.addi f) (int1 (.addi f) f.ty f.sat f.d f.a (fun a => a + immVal f.ty f.imm)))

def execMad (f : Int4) (s : State) : Res :=
  .next (s.issue (.mad f) (int3 (.mad f) f.ty f.sat f.d f.a f.b f.c (fun a b c => a * b + c)))

def execSad (f : Int4) (s : State) : Res :=
  .next (s.issue (.sad f) (int3 (.sad f) f.ty f.sat f.d f.a f.b f.c (fun a b c => |a - b| + c)))

def execDiv (f : Int3) (s : State) : Res := .next (s.issue (.div f) (divide (.div f) f (quot f.ty)))
def execRem (f : Int3) (s : State) : Res := .next (s.issue (.rem f) (divide (.rem f) f rema))

def execAbs (f : Int2) (s : State) : Res := .next (s.issue (.abs f) (int1 (.abs f) f.ty f.sat f.d f.a (fun a => |a|)))
def execNeg (f : Int2) (s : State) : Res := .next (s.issue (.neg f) (int1 (.neg f) f.ty f.sat f.d f.a (fun a => -a)))
def execClz (f : Int2) (s : State) : Res := .next (s.issue (.clz f) (int1 (.clz f) f.ty f.sat f.d f.a (clz f.ty)))
def execPopc (f : Int2) (s : State) : Res := .next (s.issue (.popc f) (int1 (.popc f) f.ty f.sat f.d f.a (popc f.ty)))

/-- The address LEA computes in a lane (R98). -/
def State.leaAt (s : State) (f : LeaF) (l : Nat) : Int :=
  let ix := match f.index with
    | none => 0
    | some x => toInt f.ty.isSigned x.bits (s.readOp s.cur x l)
  s.bitsOp s.cur f.ty f.base l + ix * (2 ^ f.sh.toNat : Nat) + f.disp.toInt

def execLea (f : LeaF) (s : State) : Res :=
  .next (s.issue (.lea f) (fun s => s.write1 (.lea f) f.d (fun l => fitInt f.ty false f.d.bits (s.leaAt f l))))

/-- AIDX writes two destinations (R99), each by its own kind, a scalar by bit 0 of the guard and a vector in its active lanes
(DEDUCED, log 120). -/
def execAidx (f : AidxF) (s : State) : Res :=
  .next (s.issue (.aidx f) (fun s =>
    let j := fun l => (s.bitsOp s.cur f.ty f.j l)
    let w := s.lanesWrite f.h f.dblk (fun l => fitBits f.ty f.dblk.bits (j l / f.fmt.count))
    let v := s.lanesWrite f.h f.doff (fun l => fitBits f.ty f.doff.bits (j l % f.fmt.count))
    .go (s.produce (.aidx f) [w, v] [] .none)))

def execMovi (f : MovI) (s : State) : Res :=
  .next (s.issue (.movi f) (fun s => s.write1 (.movi f) f.d (fun _ => fitInt f.ty false f.d.bits (immVal f.ty f.imm))))

def execMovhi (f : MovI) (s : State) : Res :=
  .next (s.issue (.movhi f) (fun s => s.write1 (.movhi f) f.d (fun l =>
    fitInt f.ty false f.d.bits (f.imm.toNat * 2 ^ 32 + s.bitsOp s.cur f.ty f.d l % 2 ^ 32 : Nat))))

/-- The predicate bits of a comparison (R100): per active lane with a vector source, else all bits with one result; on
LMASK only clearing. -/
def State.cmpWrite (s : State) (h : Hdr) (pd : Nat) (vec : Bool) (test : Nat → Bool) : List PrWrite :=
  if vec then [predLanes pd (s.lanes h true) test]
  else if s.guarded h then (if pd = 15 ∧ test 0 then [] else [predAll pd (test 0)]) else []

def execCmp (f : CmpF) (s : State) : Res :=
  .next (s.issue (.cmp f) (fun s =>
    let test := fun l => f.cc.holds (s.intOp s.cur f.ty f.a l) (s.intOp s.cur f.ty f.b l)
    .go (s.produce (.cmp f) [] (s.cmpWrite f.h f.pd.toNat (f.a.isVec || f.b.isVec) test) .none)))

end Sys2Proof.Machine
end

