-- ==== Sys2Proof/Machine/Transcend.lean ====
section
/-! DEFINITION. The correctly rounded transcendental instructions (R114). The exact result of each is irrational but in the
cases that the tables give, so a fixed-point value of 1024 fraction bits, wrong by less than 2 ^ -800, lies on the same
side of every rounding boundary of the formats as the exact one. -/

namespace Sys2Proof.Machine

/-- Fraction bits of the fixed-point values. -/
def fxBits : Nat := 1024
def fxOne : Int := 2 ^ fxBits
def fxMul (a b : Int) : Int := a * b / fxOne
def fxDiv (a b : Int) : Int := a * fxOne / b

/-- Σ over n of a term that each step multiplies by x × s and divides by an integer of n. -/
def series (x : Int) (den : Nat → Int) : Nat → Nat → Int → Int → Int
  | 0, _, _, acc => acc
  | k + 1, n, term, acc =>
    let t := fxMul term x / den n
    series x den k (n + 1) t (acc + t)

/-- e ^ x for 0 ≤ x < 32. -/
def fxExp (x : Int) : Int := series x (fun n => n) 480 1 fxOne fxOne

/-- Σ of z ^ (2 n + 1) / (2 n + 1), each power being the last times y. -/
def oddSeries (y : Int) : Nat → Nat → Int → Int → Int
  | 0, _, _, acc => acc
  | k + 1, n, p, acc => oddSeries y k (n + 1) (fxMul p y) (acc + p / (2 * n + 1))

/-- atanh z for |z| ≤ 1/3, and atan z for |z| ≤ 1/5. -/
def fxAtanh (z : Int) : Int := oddSeries (fxMul z z) 340 0 z 0
def fxAtan (z : Int) : Int := oddSeries (-(fxMul z z)) 260 0 z 0

def fxLn2 : Int := 2 * fxAtanh (fxDiv fxOne (3 * fxOne))
/-- Half of π. -/
def fxHalfPi : Int := 8 * fxAtan (fxOne / 5) - 2 * fxAtan (fxOne / 239)

/-- sin x and cos x for 0 ≤ x < 2. -/
def fxCos (x : Int) : Int := series (-(fxMul x x)) (fun n => (2 * n) * (2 * n - 1)) 120 1 fxOne fxOne
def fxSin (x : Int) : Int := series (-(fxMul x x)) (fun n => (2 * n) * (2 * n + 1)) 120 1 x x

/-- m × 2 ^ e as fixed point. -/
def toFx (m : Nat) (e : Int) : Int :=
  if 0 ≤ e then (m : Int) * 2 ^ e.toNat * fxOne else (m : Int) * fxOne / 2 ^ (-e).toNat

/-- An irrational fixed-point result, rounded with .RNE. -/
def roundFx (f : FpFmt) (ftz : Bool) (v : Int) (scale : Int) : FpRes :=
  roundFp f (.det .rne) ftz (decide (v < 0)) ⟨v.natAbs, scale - fxBits, true⟩

def one (f : FpFmt) (neg : Bool) (fl : Flags) : FpRes :=
  ⟨(roundFp f (.det .rne) false neg ⟨1, 0, false⟩).bits, fl⟩

/-- 2 ^ a. An exponent past every format's range acts as one at ± 5000. -/
def fpExp2 (f : FpFmt) (ftz : Bool) (a : Val) : FpRes :=
  match a with
  | .nan sig => if sig then invalid f else canonNan f
  | .inf n => if n then ⟨0, .none⟩ else ⟨f.infBits false, .none⟩
  | .fin n m e =>
    if m = 0 then one f false .none
    else
      let big := 16 < (bitLen m : Int) + e
      let v := if big then (if n then -5000 * fxOne else 5000 * fxOne) else (if n then -(toFx m e) else toFx m e)
      let k := v / fxOne
      let r := v % fxOne
      if r = 0 then roundFp f (.det .rne) ftz false ⟨1, k, false⟩
      else roundFx f ftz (fxExp (fxMul r fxLn2)) k

/-- log2 a. -/
def fpLog2 (f : FpFmt) (ftz : Bool) (a : Val) : FpRes :=
  match a with
  | .nan sig => if sig then invalid f else canonNan f
  | .inf n => if n then invalid f else ⟨f.infBits false, .none⟩
  | .fin n m e =>
    if m = 0 then ⟨f.infBits true, flagDZ⟩
    else if n then invalid f
    else
      let l := Nat.log2 m
      let k : Int := l + e
      if m = 2 ^ l then roundFp f (.det .rne) ftz (decide (k < 0)) ⟨k.natAbs, 0, false⟩
      else
        let x := toFx m (-l)
        let ln := 2 * fxAtanh (fxDiv (x - fxOne) (x + fxOne))
        roundFx f ftz (k * fxOne + fxDiv ln fxLn2) 0

/-- |x| reduced to a quarter turn: the number of quarter turns and the rest. π is taken to enough bits for the largest
argument. -/
def quarter (m : Nat) (e : Int) : Nat × Int :=
  let x := toFx m e
  let q := x / fxHalfPi
  ((q % 4).toNat, x - q * fxHalfPi)

def fpSin (f : FpFmt) (ftz : Bool) (a : Val) : FpRes :=
  match a with
  | .nan sig => if sig then invalid f else canonNan f
  | .inf _ => invalid f
  | .fin n m e =>
    if m = 0 then ⟨f.withSign n 0, .none⟩
    else
      let r := quarter m e
      let v := if r.1 = 0 then fxSin r.2 else if r.1 = 1 then fxCos r.2 else if r.1 = 2 then -(fxSin r.2) else -(fxCos r.2)
      roundFx f ftz (if n then -v else v) 0

def fpCos (f : FpFmt) (ftz : Bool) (a : Val) : FpRes :=
  match a with
  | .nan sig => if sig then invalid f else canonNan f
  | .inf _ => invalid f
  | .fin _ m e =>
    if m = 0 then one f false .none
    else
      let r := quarter m e
      roundFx f ftz
        (if r.1 = 0 then fxCos r.2 else if r.1 = 1 then -(fxSin r.2) else if r.1 = 2 then -(fxCos r.2) else fxSin r.2) 0

/-- tanh a; from 9.5 on in FP32 and 4.75 on in the 16-bit formats it rounds to ± 1. -/
def fpTanh (f : FpFmt) (ftz : Bool) (a : Val) : FpRes :=
  match a with
  | .nan sig => if sig then invalid f else canonNan f
  | .inf n => one f n .none
  | .fin n m e =>
    if m = 0 then ⟨f.withSign n 0, .none⟩
    else if !magGt 19 (if f.m = 23 then -1 else -2) m e then one f n flagNX
    else
      let w := fxExp (2 * toFx m e)
      let v := fxDiv (w - fxOne) (w + fxOne)
      roundFx f ftz (if n then -v else v) 0

end Sys2Proof.Machine
end

