-- ==== Sys2Proof/Machine/Float.lean ====
section
/-! DEFINITION. Floating-point instructions: class 2 (R111 to R121), the normaliser (R32) and FTZ (R33, R73). -/

namespace Sys2Proof.Machine

/-- What an instruction leaves in a lane: the bits, its flags, and whether it needs the normaliser. -/
structure LaneRes where
  (bits : Nat) (fl : Flags) (sub : Bool)
deriving DecidableEq, Repr

/-- The context forfeits its next three slots to the normaliser (R32). -/
def State.normalise (s : State) (sub : Bool) : State :=
  if sub then (s.modCtx s.cur (fun x => { x with forfeits := 3 })).count (s.cur / 16) 2 1 else s

/-- An instruction whose lanes set flags and may need the normaliser; the flags of all lanes merge (R77). -/
def fpWrite (i : Instr) (d : Opnd) (f : Nat → LaneRes) (s : State) : Act :=
  let rs := (s.lanes i.hdr d.isVec).map (fun l => (l, f l))
  let w : SlWrite := ⟨d.file, d.start.toNat, d.width, rs.map (fun r => (r.1, r.2.bits))⟩
  let t := s.produce i [w] [] (Flags.all (rs.map (fun r => r.2.fl)))
  .go (t.normalise (rs.any (fun r => r.2.sub)))

def State.ftz (s : State) : Bool := (s.ctx s.cur).ftz

/-- A result beside its sources: the normaliser serves a subnormal one of either (R32, R33). -/
def laneRes (f : FpFmt) (ftz : Bool) (srcs : List Nat) (r : FpRes) : LaneRes :=
  ⟨r.bits, r.fl, !ftz && (srcs.any (isSub f) || isSub f r.bits)⟩

/-- Arithmetic of one, two and three sources of one format (R112, R113). -/
def fp1 (i : Instr) (t : Ty) (d a : Opnd) (op : FpFmt → Bool → Val → FpRes) (s : State) : Act :=
  fpWrite i d (fun l =>
    let x := s.readOp s.cur a l
    laneRes t.fp s.ftz [x] (op t.fp s.ftz (readFp t.fp s.ftz x))) s

def fp2 (i : Instr) (t : Ty) (d a b : Opnd) (op : FpFmt → Bool → Val → Val → FpRes) (s : State) : Act :=
  fpWrite i d (fun l =>
    let x := s.readOp s.cur a l
    let y := s.readOp s.cur b l
    laneRes t.fp s.ftz [x, y] (op t.fp s.ftz (readFp t.fp s.ftz x) (readFp t.fp s.ftz y))) s

def fp3 (i : Instr) (t : Ty) (d a b c : Opnd) (op : FpFmt → Bool → Val → Val → Val → FpRes) (s : State) : Act :=
  fpWrite i d (fun l =>
    let x := s.readOp s.cur a l
    let y := s.readOp s.cur b l
    let z := s.readOp s.cur c l
    laneRes t.fp s.ftz [x, y, z]
      (op t.fp s.ftz (readFp t.fp s.ftz x) (readFp t.fp s.ftz y) (readFp t.fp s.ftz z))) s

def execFadd (f : Fp3) (s : State) : Res :=
  .next (s.issue (.fadd f) (fp2 (.fadd f) f.ty f.d f.a f.b (fun m z x y => fpAdd m f.rnd z x y)))

def execFsub (f : Fp3) (s : State) : Res :=
  .next (s.issue (.fsub f) (fp2 (.fsub f) f.ty f.d f.a f.b (fun m z x y => fpAdd m f.rnd z x y.negate)))

def execFmul (f : Fp3) (s : State) : Res :=
  .next (s.issue (.fmul f) (fp2 (.fmul f) f.ty f.d f.a f.b (fun m z x y => fpMul m f.rnd z x y)))

def execFdiv (f : Fp3) (s : State) : Res :=
  .next (s.issue (.fdiv f) (fp2 (.fdiv f) f.ty f.d f.a f.b (fun m z x y => fpDiv m f.rnd z x y)))

def execFma (f : Fp4) (s : State) : Res :=
  .next (s.issue (.fma f) (fp3 (.fma f) f.ty f.d f.a f.b f.c (fun m z x y c => fpFma m f.rnd z false x y c)))

def execFms (f : Fp4) (s : State) : Res :=
  .next (s.issue (.fms f) (fp3 (.fms f) f.ty f.d f.a f.b f.c (fun m z x y c => fpFma m f.rnd z false x y c.negate)))

def execFnma (f : Fp4) (s : State) : Res :=
  .next (s.issue (.fnma f) (fp3 (.fnma f) f.ty f.d f.a f.b f.c (fun m z x y c => fpFma m f.rnd z true x y c)))

/-! Instructions that move or test encodings: no flush, no normaliser (R68, R73). -/

def minMax (i : Instr) (f : Fp3) (least : Bool) (s : State) : Act :=
  fpWrite i f.d (fun l =>
    let r := fpMinMax f.ty.fp least (s.readOp s.cur f.a l) (s.readOp s.cur f.b l)
    ⟨r.bits, r.fl, false⟩) s

def execFmin (f : Fp3) (s : State) : Res := .next (s.issue (.fmin f) (minMax (.fmin f) f true))
def execFmax (f : Fp3) (s : State) : Res := .next (s.issue (.fmax f) (minMax (.fmax f) f false))

def execFabs (f : Fp2) (s : State) : Res :=
  .next (s.issue (.fabs f) (fun s => s.write1 (.fabs f) f.d (fun l =>
    s.readOp s.cur f.a l % 2 ^ f.ty.fp.signAt)))

def execFneg (f : Fp2) (s : State) : Res :=
  .next (s.issue (.fneg f) (fun s => s.write1 (.fneg f) f.d (fun l =>
    Nat.xor (s.readOp s.cur f.a l) (2 ^ f.ty.fp.signAt))))

/-- FCLASS: ten bits, fitted as an unsigned value (R117). -/
def execFclass (f : Fp2) (s : State) : Res :=
  .next (s.issue (.fclass f) (fun s => s.write1 (.fclass f) f.d (fun l =>
    fpClass f.ty.fp (s.readOp s.cur f.a l) % 2 ^ f.d.bits)))

/-! One-source arithmetic. -/

def execFsqrt (f : Fp2) (s : State) : Res :=
  .next (s.issue (.fsqrt f) (fp1 (.fsqrt f) f.ty f.d f.a (fun m z x => fpSqrt m f.rnd z x)))

def execFrcp (f : Fp2) (s : State) : Res :=
  .next (s.issue (.frcp f) (fp1 (.frcp f) f.ty f.d f.a (fun m z x => fpDiv m f.rnd z (.fin false 1 0) x)))

def execFrsq (f : Fp2) (s : State) : Res :=
  .next (s.issue (.frsq f) (fp1 (.frsq f) f.ty f.d f.a (fun m z x => fpRsq m f.rnd z x)))

def execFexp2 (f : Fp2) (s : State) : Res := .next (s.issue (.fexp2 f) (fp1 (.fexp2 f) f.ty f.d f.a fpExp2))
def execFlog2 (f : Fp2) (s : State) : Res := .next (s.issue (.flog2 f) (fp1 (.flog2 f) f.ty f.d f.a fpLog2))
def execFsin (f : Fp2) (s : State) : Res := .next (s.issue (.fsin f) (fp1 (.fsin f) f.ty f.d f.a fpSin))
def execFcos (f : Fp2) (s : State) : Res := .next (s.issue (.fcos f) (fp1 (.fcos f) f.ty f.d f.a fpCos))
def execFtanh (f : Fp2) (s : State) : Res := .next (s.issue (.ftanh f) (fp1 (.ftanh f) f.ty f.d f.a fpTanh))

/-- FSCALE: n is signed, of its own width (R118). -/
def execFscale (f : Fp3) (s : State) : Res :=
  .next (s.issue (.fscale f) (fun s => fpWrite (.fscale f) f.d (fun l =>
    let m := f.ty.fp
    let x := s.readOp s.cur f.a l
    laneRes m s.ftz [x] (fpScale m f.rnd s.ftz (readFp m s.ftz x) (toInt true f.b.bits (s.readOp s.cur f.b l)))) s))

def execFrnd (f : Fp2) (s : State) : Res :=
  .next (s.issue (.frnd f) (fp1 (.frnd f) f.ty f.d f.a (fun m _ x => fpRnd m f.rnd x)))

/-- FCMP writes its predicate as CMP does (R100, R120). -/
def execFcmp (f : FcmpF) (s : State) : Res :=
  .next (s.issue (.fcmp f) (fun s =>
    let vec := f.a.isVec || f.b.isVec
    let test := fun l =>
      f.cc.test (decodeFp f.ty.fp (s.readOp s.cur f.a l)) (decodeFp f.ty.fp (s.readOp s.cur f.b l))
    let nv := (s.lanes f.h vec).any (fun l => (test l).2)
    .go (s.produce (.fcmp f) [] (s.cmpWrite f.h f.pd.toNat vec (fun l => (test l).1)) (if nv then flagNV else .none))))

/-! FRED (R87, R121). -/

/-- One level of the tree: sums of neighbours. -/
def fredLevel (m : FpFmt) (ftz : Bool) : List Nat → List LaneRes
  | a :: b :: r =>
    laneRes m ftz [a, b] (fpAdd m .rne ftz (readFp m ftz a) (readFp m ftz b)) :: fredLevel m ftz r
  | _ => []

/-- The tree: six levels over 64 entries, with the union of the flags. -/
def fredTree (m : FpFmt) (ftz : Bool) : Nat → LaneRes → List Nat → LaneRes
  | 0, acc, l => { acc with bits := l.headD 0 }
  | n + 1, acc, l =>
    let r := fredLevel m ftz l
    fredTree m ftz n
      ⟨0, acc.fl.or (Flags.all (r.map (fun x => x.fl))), acc.sub || r.any (fun x => x.sub)⟩ (r.map (fun x => x.bits))

def execFred (f : Fp2) (s : State) : Res :=
  .next (s.issue (.fred f) (fun s =>
    let m := f.ty.fp
    let lm := (s.ctx s.cur).lmask
    let l := lanes64.map (fun l => if laneBit lm l then s.readOp s.cur f.a l else m.withSign true 0)
    let r := fredTree m s.ftz 6 ⟨0, .none, false⟩ l
    fpWrite (.fred f) f.d (fun _ => r) s))

end Sys2Proof.Machine
end

