-- ==== Sys2Proof/Machine/Convert.lean ====
section
/-! DEFINITION. Conversion and block instructions: class 3 (R122 to R131). -/

namespace Sys2Proof.Machine

/-! CVT and CVTS (R122 to R124). -/

/-- A floating source element: E2M1 codes are never flushed (R124). -/
def readElem (t : Ty) (ftz : Bool) (x : Nat) : Val := if t = .q2 then readQ2 x else readFp t.fp ftz x

/-- One element of width wa converted to one of width wd. -/
def cvtElem (dt st : Ty) (mode : Mode) (ftz sat : Bool) (wa wd x : Nat) : LaneRes :=
  if st.isInt then
    let v := intVal st wa x
    if dt.isInt then ⟨fitInt dt sat wd v, .none, false⟩
    else
      let r := convFromInt dt.fp mode ftz v
      ⟨r.bits, r.fl, !ftz && isSub dt.fp r.bits⟩
  else
    let v := readElem st ftz x
    let sub := isSub st.fp (x % 2 ^ st.bits)
    if dt.isInt then
      let r := convInt dt.isSigned dt.bits mode v
      ⟨fitInt dt sat wd (toInt dt.isSigned dt.bits r.bits), r.fl, !ftz && sub⟩
    else
      let r := convFp dt.fp mode ftz v
      ⟨r.bits, r.fl, !ftz && (sub || isSub dt.fp r.bits)⟩

/-- The elements of a lane from element n on, in ascending order, with the generator's state (R78, R79). -/
def cvtLane (f : CvtF) (ftz : Bool) (k x : Nat) : Nat → Nat → LaneRes → BitVec 32 → LaneRes × BitVec 32
  | 0, _, acc, st => (acc, st)
  | m + 1, n, acc, st =>
    let st' := if f.rnd = .rs then nextState st else st
    let mode := if f.rnd = .rs then Mode.sto (drawOf st') else .det f.rnd
    let wa := if k = 1 then f.a.bits else f.st.bits
    let wd := if k = 1 then f.d.bits else f.dt.bits
    let r := cvtElem f.dt f.st mode ftz f.sat wa wd (bitsAt x (n * wa) wa)
    cvtLane f ftz k x m (n + 1) ⟨acc.bits + r.bits * 2 ^ (n * wd), acc.fl.or r.fl, acc.sub || r.sub⟩ st'

/-- A conversion in the current context; .RS steps the states of the lanes that execute. -/
def convert (i : Instr) (f : CvtF) (s : State) : Act :=
  let k := (cvtCount f).getD 1
  let srs := (s.ctx s.cur).srs
  let run := fun l => cvtLane f s.ftz k (s.readOp s.cur f.a l) k 0 ⟨0, .none, false⟩ (Tab.get 0 srs l)
  let u := if f.rnd = .rs then
      s.modCtx s.cur (fun x => { x with
        srs := Tab.setMany 0 x.srs ((s.lanes f.h f.d.isVec).map (fun l => (l, (run l).2))) })
    else s
  fpWrite i f.d (fun l => (run l).1) u

def execCvt (f : CvtF) (s : State) : Res := .next (s.issue (.cvt f) (convert (.cvt f) f))
def execCvts (f : CvtF) (s : State) : Res := .next (s.issue (.cvts f) (convert (.cvts f) f))

/-! Block images (R125, R126). -/

/-- Groups that take part: those whose first lane is active. -/
def State.groups (s : State) (h : Hdr) : List Nat := (List.range 4).filter (fun j => (s.ctx s.cur).active h (16 * j))

/-- The block image of a group. -/
def State.image (s : State) (o : Opnd) (j : Nat) : Nat :=
  (List.range 16).foldl (fun b q => b + s.readOp s.cur o (16 * j + q) % 2 ^ 32 * 2 ^ (32 * q)) 0

/-- The lanes of a group's image. -/
def imageLanes (j b : Nat) : List (Nat × Nat) := (List.range 16).map (fun q => (16 * j + q, bitsAt b (32 * q) 32))

/-- A parameter of a group, unsigned, of W bits. -/
def State.param (s : State) (o : Opnd) (W j : Nat) : Nat := s.readOp s.cur o (16 * j) % 2 ^ W

/-- An element of packed elements of b bits. -/
def packed (x b n : Nat) : Nat := bitsAt x (n * b) b

/-- Element i of a group's source of QBLK. -/
def State.qSource (s : State) (f : QblkF) (j i : Nat) : Nat :=
  packed (s.readOp s.cur f.a (16 * j + i / f.fmt.perLane)) f.st.bits (i % f.fmt.perLane)

/-- One group of QBLK: its block, flags and use of the normaliser. -/
def State.qGroup (s : State) (f : QblkF) (j : Nat) : LaneRes :=
  let xs := (List.range f.fmt.count).map (s.qSource f j)
  let p := fun (o : Option Opnd) => o.map (fun x => s.param x 8 j)
  let r := quantise f.fmt f.rnd s.ftz (p f.sc) (p f.sp) (xs.map (readFp f.st.fp s.ftz))
  let sub := xs.any (isSub f.st.fp) || (match f.fmt.fp with
    | none => false
    | some m => (List.range f.fmt.count).any (fun i => isSub m (elemAt f.fmt r.blk i)))
  ⟨r.blk, r.fl, !s.ftz && sub⟩

def blkWrite (d : Opnd) (vals : List (Nat × Nat)) : SlWrite := ⟨d.file, d.start.toNat, d.width, vals⟩

def execQblk (f : QblkF) (s : State) : Res :=
  .next (s.issue (.qblk f) (fun s =>
    let rs := (s.groups f.h).map (fun j => (j, s.qGroup f j))
    let t := s.produce (.qblk f) [blkWrite f.d (rs.flatMap (fun r => imageLanes r.1 r.2.bits))] []
      (Flags.all (rs.map (fun r => r.2.fl)))
    .go (t.normalise (rs.any (fun r => r.2.sub)))))

/-- A value rounded to a floating type as a decoded element (R82, R129). -/
def elemTo (f : BFmt) (t : Ty) (r : Rnd) (ftz : Bool) (b i : Nat) : LaneRes :=
  let x := convFp t.fp (.det r) ftz (blkVal f b i)
  let src := blkByte b 1 ≠ 255 && (match f.fp with
    | none => false
    | some m => isSub m (elemAt f b i))
  ⟨x.bits, x.fl, !ftz && (src || isSub t.fp x.bits)⟩

/-- The lanes that DQBLK writes for a group. -/
def dqLanes (f : Fp2) (ftz : Bool) (j b : Nat) (m : BFmt) : List (Nat × LaneRes) :=
  (List.range 15).map (fun q =>
    let rs := (List.range m.perLane).map (fun k => elemTo m f.ty f.rnd ftz b (q * m.perLane + k))
    (16 * j + q,
      ⟨rs.zipIdx.foldl (fun v x => v + x.1.bits * 2 ^ (x.2 * f.ty.bits)) 0, Flags.all (rs.map (fun x => x.fl)),
        rs.any (fun x => x.sub)⟩))

/-- DQBLK's effect (R129). -/
def dqblkAct (f : Fp2) (s : State) : Act :=
  let bs := (s.groups f.h).map (fun j => (j, s.image f.a j))
  match bs.find? (fun x => (blkFmt x.2).isNone) with
  | some x => .trap (tBlockFormat 0 (blkByte x.2 0))
  | none =>
    let rs := bs.flatMap (fun x => match blkFmt x.2 with | none => [] | some m => dqLanes f s.ftz x.1 x.2 m)
    let t := s.produce (.dqblk f) [blkWrite f.d (rs.map (fun r => (r.1, r.2.bits)))] []
      (Flags.all (rs.map (fun r => r.2.fl)))
    .go (t.normalise (rs.any (fun r => r.2.sub)))

/-- The width test of DQBLK's d at check 4, over the readable blocks that take part (R126). -/
def State.dqWide (s : State) (f : Fp2) : Bool :=
  (s.groups f.h).all (fun j => match blkFmt (s.image f.a j) with
    | none => true
    | some m => f.d.width = m.perLane * f.ty.slices)

/-- DQBLK: where checks 1 to 4 pass but the width of d does not fit, SLICE_WIDTH at its position. -/
def execDqblk (f : Fp2) (s : State) : Res :=
  let i := Instr.dqblk f
  if (s.staticTrap s.cur i).isNone ∧ !s.dqWide f then
    .next ((s.modCtx s.cur (fun x => { x with ilen := BitVec.ofNat 2 f.h.len.code })).raise s.cur (tSliceWidth 1))
  else .next (s.issue i (dqblkAct f))

/-- BHDR's header of group j's block (R80, R130): SPECIAL is 0 in a format other than E2M1, log 134. -/
def State.bhdrBlk (s : State) (f : BhdrF) (j : Nat) : Nat :=
  let sp := if f.fmt = .e2m1 then s.param f.sp 8 j % 128 else 0
  sealed (setBlkByte (setBlkByte (setBlkByte (s.image f.d j) 0 f.fmt.code) 1 (s.param f.sc 8 j)) 2 sp) % 2 ^ 32

def execBhdr (f : BhdrF) (s : State) : Res :=
  .next (s.issue (.bhdr f) (fun s =>
    let vals := (s.groups f.h).map (fun j => (16 * j, s.bhdrBlk f j))
    .go (s.produce (.bhdr f) [blkWrite f.d vals] [] .none)))

/-- BSET of one group's block. -/
def State.bsetBlk (s : State) (f : BsetF) (j b : Nat) : Nat :=
  match blkFmt b with
  | none => b
  | some m =>
    let i := s.param f.i 8 j
    sealed (if i < m.count then putElem m b i (s.param f.c m.bits j) else b)

def execBset (f : BsetF) (s : State) : Res :=
  .next (s.issue (.bset f) (fun s =>
    let bs := (s.groups f.h).map (fun j => (j, s.image f.d j))
    match bs.find? (fun x => (blkFmt x.2).isNone) with
    | some x => .trap (tBlockFormat 0 (blkByte x.2 0))
    | none =>
      .go (s.produce (.bset f) [blkWrite f.d (bs.flatMap (fun x => imageLanes x.1 (s.bsetBlk f x.1 x.2)))] [] .none)))

/-- The bits of groups for which a test holds. -/
def groupBits (l : List Nat) : Word := lanesWord (l.flatMap (fun j => (List.range 16).map (fun q => 16 * j + q)))

/-- BCHK: PD and then PF, so that PF's value stands in a predicate named by both (R130). -/
def execBchk (f : BchkF) (s : State) : Res :=
  .next (s.issue (.bchk f) (fun s =>
    let gs := s.groups f.h
    let good := gs.filter (fun j =>
      let b := s.image f.a j
      (blkFmt b).isSome && blkByte b 3 = blkCheck b)
    let bad := gs.filter (fun j => (blkFmt (s.image f.a j)).isNone)
    .go (s.produce (.bchk f) []
      [⟨f.pd.toNat, groupBits gs, groupBits good⟩, ⟨f.pf.toNat, groupBits gs, groupBits bad⟩] .none)))

/-- IDOT4 (R131). -/
def execIdot4 (f : Int4) (s : State) : Res :=
  .next (s.issue (.idot4 f) (fun s => s.write1 (.idot4 f) f.d (fun l =>
    let e := fun (o : Opnd) n => toInt f.ty.isSigned f.ty.bits (packed (s.readOp s.cur o l) f.ty.bits n)
    let sum := (List.range 4).foldl (fun v n => v + e f.a n * e f.b n) (toInt true 32 (s.readOp s.cur f.c l))
    ofInt 32 (if f.sat then clampInt true 32 sum else sum))))

end Sys2Proof.Machine
end

