-- ==== Sys2Proof/Machine/Logic.lean ====
section
/-! DEFINITION. Logic, shift, slice, lane and predicate instructions: class 1 (R101 to R110). -/

namespace Sys2Proof.Machine

/-- A bitwise instruction on W-bit sources (R102). -/
def bits2 (i : Instr) (t : Ty) (d a b : Opnd) (op : Nat → Nat → Nat) (s : State) : Act :=
  s.write1 i d (fun l => fitBits t d.bits (op (s.bitsOp s.cur t a l) (s.bitsOp s.cur t b l)))

def bits1 (i : Instr) (t : Ty) (d a : Opnd) (op : Nat → Nat) (s : State) : Act :=
  s.write1 i d (fun l => fitBits t d.bits (op (s.bitsOp s.cur t a l)))

/-- The complement of n bits. -/
def notBits (n x : Nat) : Nat := 2 ^ n - 1 - x % 2 ^ n

def execAnd (f : Int3) (s : State) : Res := .next (s.issue (.and f) (bits2 (.and f) f.ty f.d f.a f.b Nat.land))
def execOr (f : Int3) (s : State) : Res := .next (s.issue (.or f) (bits2 (.or f) f.ty f.d f.a f.b Nat.lor))
def execXor (f : Int3) (s : State) : Res := .next (s.issue (.xor f) (bits2 (.xor f) f.ty f.d f.a f.b Nat.xor))
def execAndn (f : Int3) (s : State) : Res := .next (s.issue (.andn f) (bits2 (.andn f) f.ty f.d f.a f.b (fun a b => Nat.land a (notBits f.ty.bits b))))
def execNot (f : Int2) (s : State) : Res :=
  .next (s.issue (.not f) (bits1 (.not f) f.ty f.d f.a (notBits f.ty.bits)))

/-! Shifts (R103). -/

def shl (W a n : Nat) : Nat := a * 2 ^ n % 2 ^ W
def shr (_W a n : Nat) : Nat := a / 2 ^ n
def sar (W a n : Nat) : Nat := ofInt W (toInt true W a / (2 ^ n : Nat))
def rot (W a n : Nat) : Nat :=
  let k := n % W
  a * 2 ^ k % 2 ^ W + a / 2 ^ (W - k)

/-- A shift count or a lane's number: an operand, unsigned at its own width, or the immediate (R103; for the lanes of R108
DEDUCED, log 119). -/
def State.countOp {n : Nat} (s : State) (x : OpImm n) (l : Nat) : Nat :=
  match x with
  | .reg o => s.readOp s.cur o l
  | .imm v => v.toNat

/-- A count of W or more has the effect of W for the shifts that saturate; ROT takes it modulo W. -/
def shift (i : Instr) (f : ShiftF) (cap : Bool) (op : Nat → Nat → Nat → Nat) (s : State) : Act :=
  let W := f.ty.bits
  s.write1 i f.d (fun l =>
    let n := s.countOp f.n l
    fitBits f.ty f.d.bits (op W (s.bitsOp s.cur f.ty f.a l) (if cap then min n W else n)))

def execShl (f : ShiftF) (s : State) : Res := .next (s.issue (.shl f) (shift (.shl f) f true shl))
def execShr (f : ShiftF) (s : State) : Res := .next (s.issue (.shr f) (shift (.shr f) f true shr))
def execSar (f : ShiftF) (s : State) : Res := .next (s.issue (.sar f) (shift (.sar f) f true sar))
def execRot (f : ShiftF) (s : State) : Res := .next (s.issue (.rot f) (shift (.rot f) f false rot))

/-! Fields, extension, moves and selection (R104 to R107). -/

def execBfx (f : BfxF) (s : State) : Res :=
  .next (s.issue (.bfx f) (bits1 (.bfx f) f.ty f.d f.a (fun a =>
    ofInt f.ty.bits (toInt f.ty.isSigned f.len.toNat (bitsAt a f.pos.toNat f.len.toNat)))))

def execBfi (f : BfiF) (s : State) : Res :=
  .next (s.issue (.bfi f) (bits2 (.bfi f) f.ty f.d f.a f.b (fun a b => setBitsAt a f.pos.toNat f.len.toNat b)))

/-- SEXT and ZEXT extend from a's own width, whatever the type's signedness (R105). -/
def extend (i : Instr) (f : Int2) (signed : Bool) (s : State) : Act :=
  s.write1 i f.d (fun l => fitInt f.ty f.sat f.d.bits
    (toInt f.ty.isSigned f.ty.bits (ofInt f.ty.bits (toInt signed f.a.bits (s.readOp s.cur f.a l)))))

def execSext (f : Int2) (s : State) : Res := .next (s.issue (.sext f) (extend (.sext f) f true))
def execZext (f : Int2) (s : State) : Res := .next (s.issue (.zext f) (extend (.zext f) f false))

/-- A value moved at a type: an integer type fits it, a floating type copies its bits (R105, R106, R108). -/
def State.moved (s : State) (t : Ty) (d a : Opnd) (l : Nat) : Nat :=
  if t.isInt then fitInt t false d.bits (s.intOp s.cur t a l) else s.readOp s.cur a l

def execMov (f : Int2) (s : State) : Res :=
  .next (s.issue (.mov f) (fun s => s.write1 (.mov f) f.d (s.moved f.ty f.d f.a)))

def execSel (f : SelF) (s : State) : Res :=
  .next (s.issue (.sel f) (fun s => s.write1 (.sel f) f.d (fun l =>
    s.moved f.ty f.d (if laneBit ((s.ctx s.cur).pred f.ps.toNat) l then f.a else f.b) l)))

def execPack (f : PackF) (s : State) : Res :=
  .next (s.issue (.pack f) (fun s => s.write1 (.pack f) f.d (fun l =>
    (s.readOp s.cur f.b l + s.readOp s.cur f.a l * 2 ^ f.b.bits) % 2 ^ f.d.bits)))

/-- UNPK writes each destination by its own kind, a scalar by bit 0 of the guard and a vector in its active lanes (DEDUCED,
log 120). -/
def execUnpk (f : UnpkF) (s : State) : Res :=
  .next (s.issue (.unpk f) (fun s =>
    let a := s.readOp s.cur f.a
    let w := s.lanesWrite f.h f.d2 (fun l => bitsAt (a l) 0 f.d2.bits)
    let v := s.lanesWrite f.h f.d1 (fun l => bitsAt (a l) f.d2.bits f.d1.bits)
    .go (s.produce (.unpk f) [w, v] [] .none)))

/-! Lane movement (R108). -/

/-- SWZ: x is unsigned at its own width (DEDUCED, log 119). -/
def execSwz (f : SwzF) (s : State) : Res :=
  .next (s.issue (.swz f) (fun s => s.write1 (.swz f) f.d (fun l =>
    s.moved f.ty f.d f.a (s.readOp s.cur f.x l % 64))))

def execSwzMask (f : SwzMF) (s : State) : Res :=
  .next (s.issue (.swzMask f) (fun s => s.write1 (.swzMask f) f.d (fun l =>
    s.moved f.ty f.d f.a (Nat.xor (Nat.land l f.m.toNat) f.k.toNat))))

def execBcast (f : LaneF) (s : State) : Res :=
  .next (s.issue (.bcast f) (fun s => s.write1 (.bcast f) f.d (fun _ =>
    s.moved f.ty f.d f.a (s.countOp f.k 0 % 64))))

def execLrot (f : LaneF) (s : State) : Res :=
  .next (s.issue (.lrot f) (fun s => s.write1 (.lrot f) f.d (fun l =>
    s.moved f.ty f.d f.a ((l + 64 - s.countOp f.k 0 % 64) % 64))))

/-! Predicates (R109, R110). -/

/-- A predicate instruction writes all 64 bits where bit 0 of its guard passes. -/
def predOp (i : Instr) (pd : BitVec 4) (v : State → Word) (s : State) : Act :=
  .go (s.produce i [] (if s.guarded i.hdr then [⟨pd.toNat, allOnes, v s⟩] else []) .none)

def State.pr (s : State) (n : BitVec 4) : Word := (s.ctx s.cur).pred n.toNat

def execPand (f : Pred3) (s : State) : Res :=
  .next (s.issue (.pand f) (predOp (.pand f) f.pd (fun s => s.pr f.pa &&& s.pr f.pb)))
def execPor (f : Pred3) (s : State) : Res :=
  .next (s.issue (.por f) (predOp (.por f) f.pd (fun s => s.pr f.pa ||| s.pr f.pb)))
def execPxor (f : Pred3) (s : State) : Res :=
  .next (s.issue (.pxor f) (predOp (.pxor f) f.pd (fun s => s.pr f.pa ^^^ s.pr f.pb)))
def execPnot (f : Pred2) (s : State) : Res :=
  .next (s.issue (.pnot f) (predOp (.pnot f) f.pd (fun s => ~~~(s.pr f.pa))))

/-- The lanes considered, and of them the lanes that count: x is a W-bit source (R20). -/
def State.considered (s : State) (f : PRedF) : List Nat :=
  lanes64.filter (fun l => laneBit (s.ctx s.cur).lmask l && laneBit (s.pr f.pa) l)

def State.counting (s : State) (f : PRedF) : List Nat :=
  (s.considered f).filter (fun l => match f.x with | none => true | some x => s.bitsOp s.cur f.ty x l ≠ 0)

def predRed (i : Instr) (f : PRedF) (v : State → Nat) (s : State) : Act :=
  s.write1 i f.d (fun _ => fitInt f.ty false f.d.bits (v s))

def execPany (f : PRedF) (s : State) : Res :=
  .next (s.issue (.pany f) (predRed (.pany f) f (fun s => if s.counting f = [] then 0 else 1)))
def execPall (f : PRedF) (s : State) : Res :=
  .next (s.issue (.pall f) (predRed (.pall f) f (fun s => if s.counting f = s.considered f then 1 else 0)))
def execPcnt (f : PRedF) (s : State) : Res :=
  .next (s.issue (.pcnt f) (predRed (.pcnt f) f (fun s => (s.counting f).length)))

end Sys2Proof.Machine
end

