-- ==== Sys2Proof/Machine/Control.lean ====
section
/-! DEFINITION. Control: transfers (R168), safe points (R169, R170), YIELD, contexts (R171 to R175), iterations (R178),
SEED, TRAP and the return from a trap (R180, R182). -/

namespace Sys2Proof.Machine

/-- The target of a J64 transfer (R38). -/
def State.target64 (s : State) (off : BitVec 28) : Word := (s.ctx s.cur).pc + BitVec.ofInt 64 (8 * off.toInt)

/-- A transfer to an address, checked as R38 states; of a register's target ALIGN is found before XLATE (DEDUCED, log 133). -/
def goTo (s : State) (t : Word) (reg : Bool) : Act :=
  if reg ∧ t.toNat % 4 ≠ 0 then .trap (tAlign t 4)
  else if !canonical t then .trap (tXlate t 0xF 7) else .jump s t

def State.nextOf (s : State) (h : Hdr) : Word := (s.ctx s.cur).pc + BitVec.ofNat 64 h.len.bytes

def State.t64 (s : State) (o : Opnd) : Word := BitVec.ofNat 64 (s.u64 s.cur o)

def execBr (f : BrF) (s : State) : Res :=
  .next (s.issue (.br f) (fun s => if s.guarded f.h then goTo s (s.target64 f.off) false else .go s))

/-- BRC checks the target that it takes; one that it does not take is not checked (DEDUCED, log 133). -/
def execBrc (f : BrcF) (s : State) : Res :=
  .next (s.issue (.brc f) (fun s =>
    if s.guarded f.h ∧ s.readOp s.cur f.c 0 ≠ 0 then goTo s (s.target64 f.off) false else .go s))

def execJmp (f : JmpF) (s : State) : Res :=
  .next (s.issue (.jmp f) (fun s => if s.guarded f.h then goTo s (s.t64 f.t) true else .go s))

def execRet (f : JmpF) (s : State) : Res :=
  .next (s.issue (.ret f) (fun s => if s.guarded f.h then goTo s (s.t64 f.t) true else .go s))

/-- The link of a call (R168). -/
def State.link (s : State) (i : Instr) (lk : Opnd) : State :=
  s.produce i [s.lanesWrite i.hdr lk (fun _ => (s.nextOf i.hdr).toNat)] [] .none

def callTo (i : Instr) (lk : Opnd) (t : State → Word) (reg : Bool) (s : State) : Act :=
  if s.guarded i.hdr then goTo (s.link i lk) (t s) reg else .go (s.link i lk)

def execCall (f : BrcF) (s : State) : Res :=
  .next (s.issue (.call f) (callTo (.call f) f.c (fun s => s.target64 f.off) false))
def execCalli (f : CalliF) (s : State) : Res :=
  .next (s.issue (.calli f) (callTo (.calli f) f.lk (fun s => s.t64 f.t) true))

/-- LOOP counts down modulo its counter's width and branches while it is not 0 (R168); a target that it does not take is not checked
(DEDUCED, log 133). -/
def execLoop (f : BrcF) (s : State) : Res :=
  .next (s.issue (.loop f) (fun s =>
    let n := (s.readOp s.cur f.c 0 + 2 ^ f.c.bits - 1) % 2 ^ f.c.bits
    let t := s.produce (.loop f) [s.lanesWrite f.h f.c (fun _ => n)] [] .none
    if s.guarded f.h ∧ n ≠ 0 then goTo t (s.target64 f.off) false else .go t))

/-- SAFE: no effect in a handler or a stub (R343); else the record's alignment, then parking, or the trap of a record that fails
its checks, or the new safe point (R169, R342). -/
def execSafe (f : BrF) (s : State) : Res :=
  .next (s.issue (.safe f) (fun s =>
    let x := s.ctx s.cur
    let rec_ := s.target64 f.off
    if !s.guarded f.h ∨ x.xact ∨ x.stub.isSome then .go s
    else if rec_.toNat % 16 ≠ 0 then .trap (tAlign rec_ 16)
    else if s.pendingFor s.cur then
      if s.hasWB s.cur then .wait (s.park s.cur false rec_)
      else
        match s.readRecord s.cur rec_, s.askRecord s.cur rec_ with
        | .error t, (room, u) =>
          if t.isMiss then .trap t
          else if room then .trapWith t (u.touchRecord s.cur rec_)
          else .wait (s.park s.cur false rec_)
        | .ok _, _ => .wait (s.park s.cur false rec_)
    else .go (s.setCtx s.cur { x with sra := rec_, spc := 0 })))

/-- RBDONE ends a rebuild stub with the acquire of resumption (R170, R353). -/
def execRbdone (f : NulF) (s : State) : Res :=
  .next (s.issue (.rbdone f) (fun s =>
    match (s.ctx s.cur).stub with
    | none => .trap tUndef
    | some (pc, w) =>
      .wait ((s.acquire s.cur).modCtx s.cur (fun x => { x.goTo pc with stub := none, counted := w }))))

def execNop64 (f : NulF) (s : State) : Res := .next (s.issue (.nop64 f) (fun s => .go s))

/-- YIELD sleeps for n cycles; WLIM does not bound it (R171). -/
def execYield (f : OneF 12) (s : State) : Res :=
  .next (s.issue (.yield f) (fun s =>
    if !s.guarded f.h then .go s
    else
      let n := s.opImm s.cur f.v % 2 ^ 16
      .go (s.modCtx s.cur (fun x => { x with run := .asleep (.yield (s.cycle + n)) s.cycle }))))

def execYieldExpiry (c k : Nat) (s : State) : Res :=
  .next (match (s.ctx (ctxId c k)).run with
    | .asleep (.yield t) _ => if t ≤ s.cycle then s.wake (ctxId c k) else s
    | _ => s)

/-- DONE (R175). -/
def State.done (s : State) (p : Nat) : State :=
  if p % 16 = 0 ∧ !s.helpersFree (p / 16) then s.sleep p .helpers
  else if s.doneReady p then s.finishDone p
  else s.modCtx p (fun x => { x with run := .asleep .doneDrain s.cycle })

def execDone (f : NulF) (s : State) : Res :=
  .next (s.issue (.done f) (fun s => if s.guarded f.h then .wait (s.done s.cur) else .go s))

/-! Helpers (R173, R174). -/

def State.liveBlocks (s : State) (c : Nat) (w : Ctx → Window) : Nat :=
  ctxNums.foldl (fun n k => if s.isFree c k then n else n + (w (s.ctx (ctxId c k))).blocks) 0

/-- The bounds of R16 leave room for a helper. -/
def State.fits (s : State) (c vblk sblk : Nat) : Bool :=
  decide ((s.core c).g.blocks + s.liveBlocks c Ctx.v + vblk ≤ 128)
    && decide ((s.core c).h.blocks + s.liveBlocks c Ctx.s + sblk ≤ 128)

/-- Start helper k where it is free and fits; it joins after the starter's writeback, and its accesses and releases follow the
starter's release and those that the starter itself acquired (R172, R173, R239). -/
def State.startHelper (s : State) (p k : Nat) (entry : Word) (vblk sblk due : Nat) : Option State :=
  let c := p / 16
  if !s.isFree c k ∨ !s.fits c vblk sblk then none
  else
    let e := match (s.core c).task with
      | none => Eff.zero
      | some t => t.eff
    let t := s.startCtx c k entry (s.ctx p).itr e.wlim e.ftz (match (s.core c).task with
      | none => (s.ctx p).priv
      | some t => t.region = 0) vblk sblk (due + 1)
    some (t.modCtx (ctxId c k) (fun x => { x with floor := (p, s.nextId) :: (s.ctx p).floor }))

/-- Helpers of a mask in ascending order; answers the mask of those started. -/
def State.startHelpers (s : State) (p mask : Nat) (entry : Word) (vblk sblk due : Nat) : List Nat → Nat × State
  | [] => (0, s)
  | k :: r =>
    if !bitAt mask k then State.startHelpers s p mask entry vblk sblk due r
    else
      match s.startHelper p k entry vblk sblk due with
      | none => State.startHelpers s p mask entry vblk sblk due r
      | some t =>
        let q := State.startHelpers t p mask entry vblk sblk due r
        (q.1 + 2 ^ k, q.2)

/-- A long-latency write of a shared window by the context is under way (R173). -/
def State.sharedBusy (s : State) (p : Nat) : Bool :=
  (s.core (p / 16)).wbs.any (fun w => w.ctx = p && w.long && w.octs.any (fun o => o.1 = .g || o.1 = .h))

def execHstart (f : HstartF) (s : State) : Res :=
  .next (s.issue (.hstart f) (fun s =>
    let p := s.cur
    let entry := s.t64 f.entry
    if s.sharedBusy p then .stall
    else if entry.toNat % 4 ≠ 0 then .trap (tAlign entry 4)
    else
      let mask := match f.mask with
        | .reg o => s.u64 p o
        | .imm v => 2 * v.toNat
      let m := if s.guarded f.h then mask else 0
      let q := s.startHelpers p m entry f.vblk.toNat f.sblk.toNat (s.cycle + 4) ((List.range 10).map (fun k => k + 1))
      .go (q.2.produce (.hstart f) [s.lanesWrite f.h f.d (fun _ => fitBits .n16 f.d.bits q.1)] [] .none)))

/-- HJOIN sleeps from its issue and goes on in the cycle in which every named helper is free (R174, R381). -/
def execHjoin (f : OneF 10) (s : State) : Res :=
  .next (s.issue (.hjoin f) (fun s =>
    if !s.guarded f.h then .go s
    else
      let mask := match f.v with
        | .reg o => s.u64 s.cur o
        | .imm v => 2 * v.toNat
      .wait (s.sleep s.cur (.join mask))))

/-! Iterations, the generator, traps. -/

def State.itrSet (s : State) (h : Hdr) (v : Nat) : Act :=
  .go (if s.guarded h then s.modCtx s.cur (fun x => { x with itr := BitVec.ofNat 32 v }) else s)

def execItset (f : OneF 12) (s : State) : Res :=
  .next (s.issue (.itset f) (fun s => s.itrSet f.h (s.opImm s.cur f.v)))
def execItinc (f : OneF 12) (s : State) : Res :=
  .next (s.issue (.itinc f) (fun s => s.itrSet f.h ((s.ctx s.cur).itr.toNat + s.opImm s.cur f.v)))

def execItrd (f : DstF) (s : State) : Res :=
  .next (s.issue (.itrd f) (fun s =>
    s.write1 (.itrd f) f.d (fun _ => fitBits .n32 f.d.bits (s.ctx s.cur).itr.toNat)))

def execSeed (f : OneF 12) (s : State) : Res :=
  .next (s.issue (.seed f) (fun s =>
    .go (if s.guarded f.h then
      s.modCtx s.cur (fun x => { x with srs := seedStates (s.opImm s.cur f.v) }) else s)))

def execTrap (f : TrapF) (s : State) : Res :=
  .next (s.issue (.trap f) (fun s => if s.guarded f.h then .trap (tSoft f.code) else .go s))

/-- TRET outside a handler traps UNDEF (R182). -/
def tretAct (h : Hdr) (next : Bool) (s : State) : Act :=
  if !(s.ctx s.cur).xact then .trap tUndef
  else if !s.guarded h then .go s
  else
    let octs := (List.range 8).map (fun o => (FileId.s, o))
    .wait ((s.renewRegs (fun k => octs.any (fun o => regKey s.cur o = k))).modCtx s.cur (fun x => x.tret next))

def execTret (f : NulF) (s : State) : Res := .next (s.issue (.tret f) (tretAct f.h false))
def execTretNext (f : NulF) (s : State) : Res := .next (s.issue (.tretNext f) (tretAct f.h true))

/-- The value of an IDRD selector in a lane (R177). -/
def State.ident (s : State) (sel lane : Nat) : Nat :=
  let c := s.curCore
  let g := fun (f : Task → Nat) => match (s.core c).task with | none => 0 | some t => f t
  match sel with
  | 0 => s.curCtx
  | 1 => c % coresPerDie
  | 2 => coreDie c
  | 3 => lane
  | 4 => g (fun t => t.tcb.toNat)
  | 5 => g (fun t => t.arg.toNat)
  | 6 => g (fun t => t.region)
  | _ => g (fun t => t.asid)

def execIdrd (f : IdrdF) (s : State) : Res :=
  .next (s.issue (.idrd f) (fun s => s.write1 (.idrd f) f.d (fun l => fit64 f.d (s.ident f.sel.toNat l))))

/-- Contexts whose YIELD is over. -/
def State.yieldsDue (s : State) : List Instr :=
  s.ctxs.filterMap (fun e => match e.2.run with
    | .asleep (.yield t) _ => if t ≤ s.cycle then some (.yieldExpiry (e.1 / 16) (e.1 % 16)) else none
    | _ => none)

end Sys2Proof.Machine
end

