-- ==== Sys2Proof/Machine/Prism.lean ====
section
/-! DEFINITION. Prism (R200 to R202, R291 to R300): entries, rounds, latches, holds and withdrawals. -/

namespace Sys2Proof.Machine

/-- A result word (R200). -/
def resultWord (key : BitVec 32) (die core : Nat) (win held : Bool) : Word :=
  BitVec.ofNat 64 (key.toNat + die * 2 ^ 32 + core % coresPerDie * 2 ^ 35 + bit1 win 48 + bit1 held 49)

def Holder.word (h : Holder) (win : Bool) : Word := resultWord h.key h.die h.core win true

/-- The contests a region may enter (R200, R299). -/
def State.mayEnter (s : State) (c : Nat) : Bool :=
  match (s.core s.curCore).task with
  | none => false
  | some t => if c = 15 then false else if c = 14 then t.region = 0 else bitAt t.eff.grant.toNat c

def State.curUid (s : State) : Nat := match (s.core s.curCore).task with | none => 0 | some t => t.uid

def State.curRegion (s : State) : Nat := match (s.core s.curCore).task with | none => 0 | some t => t.region

/-- PRENT sends an entry and sleeps until a result is latched for it (R200, R292). -/
def prent (i : Instr) (f : PrentF) (hold : Bool) (s : State) : Act :=
  let p := s.cur
  if !s.mayEnter f.c.toNat then .trap (tProt 0 7)
  else if !s.guarded f.h then .go (s.produce i [] [] .none)
  else
    let wb := s.nextId
    let t := s.addWB p i.shape.kind true [⟨f.d.file, f.d.start.toNat, f.d.width, [(0, 0)]⟩] [] .none (octs i.shape.dsts) i.shape.pwr
    let e : PrismEntry :=
      ⟨t.nextId, coreDie s.curCore, s.curCore, s.curCtx, BitVec.ofNat 32 (s.opImm p f.key), hold, false, s.curUid, wb, f.pw,
        s.planeCycle, none, none, s.nextOf f.h, s.curRegion⟩
    let x := t.contest f.c.toNat
    let t := (t.fresh).setContest f.c.toNat { x with entries := x.entries ++ [e] }
    .wait (t.sleep p (.prent e.id))

def execPrentOnce (f : PrentF) (s : State) : Res := .next (s.issue (.prentOnce f) (prent (.prentOnce f) f false))
def execPrentHold (f : PrentF) (s : State) : Res := .next (s.issue (.prentHold f) (prent (.prentHold f) f true))

/-- PRRES reads the latch, WIN = 0 (R201). -/
def execPrres (f : PrresF) (s : State) : Res :=
  .next (s.issue (.prres f) (fun s =>
    if !s.mayEnter f.c.toNat then .trap (tProt 0 7)
    else s.write1 (.prres f) f.d (fun _ => fit64 f.d (s.contest f.c.toNat).latched.toNat)))

/-- PRREL ends a hold of its own task, as a release at PKG (R202). -/
def execPrrel (f : PrrelF) (s : State) : Res :=
  .next (s.issue (.prrel f) (fun s =>
    let x := s.contest f.c.toNat
    if x.holder.all (fun h => h.uid ≠ s.curUid) then .trap (tPrismOwner f.c.toNat)
    else if !s.guarded f.h then .go s
    else if !s.released s.cur s.nextId allColours .pkg then .stall
    else .go (s.setContest f.c.toNat { x with holder := none })))

/-! Answers. -/

/-- 64 plane cycles as arithmetic cycles. -/
def State.prismSpan (s : State) : Nat := 64 * 45 / s.period

/-- An entry gets its result: it leaves the contest, its context goes on, and its writeback follows within 64 plane cycles of
the latch (R295); the cycle within them is free (log 13). One that has left the contest already receives nothing. -/
def State.prismAnswer (s : State) (c : Nat) (e : PrismEntry) (w : Word) : State :=
  let x := s.contest c
  if !x.entries.any (fun n => n.id = e.id) then s
  else
    let s := s.setContest c { x with entries := x.entries.filter (fun n => n.id ≠ e.id) }
    if e.gov then s
    else
      let win := bitAt w.toNat 48
      let pr : List PrWrite := if e.pw = 15 then [] else [predAll e.pw.toNat win]
      match (s.core e.core).wbs.find? (fun v => v.id = e.wb) with
      | none => s.complete (ctxId e.core e.ctx) e.nextPc
      | some v =>
        (s.useFree.fillAfter e.core e.wb (Config.freeChoice s.freeCtr % s.prismSpan) (fillSl v.sl w.toNat) pr .none).complete
          (ctxId e.core e.ctx) e.nextPc

/-- What an entry receives on a held contest, where it does not wait for the release (R200, R298). -/
def heldAnswer (h : Holder) (e : PrismEntry) : Option Word :=
  if !e.gov && h.uid = e.uid then some (h.word true) else if e.hold then none else some (h.word false)

/-- The pre-arbiter registers an entry (R292, R298). -/
def execPrismEntryRegister (c k : Nat) (s : State) : Res :=
  let x := s.contest c
  .next (match x.entries.find? (fun e => e.id = k && e.regAt.isNone) with
    | none => s
    | some e =>
      let reg := s.setContest c { x with entries := x.entries.map (fun n =>
        if n.id = k then { n with regAt := some s.planeCycle } else n) }
      match x.holder with
      | none => reg
      | some h =>
        match heldAnswer h e with
        | some w => s.prismAnswer c e w
        | none => reg)

/-- The entries that belong to a round starting now (R292, R293). -/
def State.roundEntries (s : State) (c : Nat) : List PrismEntry :=
  (s.contest c).entries.filter (fun e => match e.regAt with | none => false | some t => decide (t < s.planeCycle))

/-- A round starts in this plane cycle (R293). A hold that ends in a plane cycle which is itself a multiple of 128 lets the round start
in that one (DESIGN CHOICE, log 148). -/
def State.roundDue (s : State) (c : Nat) : Bool :=
  let x := s.contest c
  x.holder.isNone && x.round.isNone && s.planeCycle % 128 = 0 && s.roundEntries c ≠ []

def execPrismRoundStart (c : Nat) (s : State) : Res :=
  .next (if s.roundDue c then
    s.setContest c { s.contest c with round := some ⟨s.planeCycle, s.roundEntries c⟩ } else s)

/-- The greatest key, then the lower die, core and context (R200, R294). -/
def beats (a b : PrismEntry) : Bool :=
  let k := fun (e : PrismEntry) =>
    ((e.key.toNat * 8 + (7 - e.die)) * 256 + (255 - e.core % coresPerDie)) * 16 + (15 - e.ctx)
  decide (k b < k a)

def bestEntry : List PrismEntry → Option PrismEntry
  | [] => none
  | e :: l =>
    match bestEntry l with
    | none => some e
    | some w => some (if beats w e then w else e)

/-! Power given in the latch of contest 15 (R379). -/

/-- BUDGET − BASEL − USED (R377). -/
def Die.headroom (d : Die) : Int := (d.budget : Int) - d.basel - d.used

def State.give (s : State) (w d : Nat) : State :=
  let x := s.die d
  if d = w ∨ x.phase ≠ .trained ∨ x.headroom < 250 ∨ x.budget < 1250 ∨ 5000 < (s.die w).budget + 250 then s
  else (s.modDie d (fun y => { y with budget := y.budget - 250 })).modDie w (fun y => { y with budget := y.budget + 250 })

/-- A die that is fenced off drives no line any more (R291). -/
def State.drives (s : State) (e : PrismEntry) : Bool := (s.die e.die).phase ≠ .fenced

/-- The latch: the winner is that of the entries that belonged to the round when it started and whose dies still drive; every one
that is still there gets its result; a .HOLD winner's task becomes the holder where it is still there, and waiting .ONCE entries are answered
(R294, R295, R298). The bits of a die that is fenced off while the round runs count as never driven (DESIGN CHOICE, log 146), and a
round all of whose driving dies are fenced off latches nothing (DESIGN CHOICE, log 147). -/
def State.latch (s : State) (c : Nat) (r : Round) : State :=
  let x := s.contest c
  match bestEntry (r.entries.filter s.drives) with
  | none => s.setContest c { x with round := none }
  | some w =>
    let here := x.entries.any (fun e => e.id = w.id)
    let s := s.setContest c { x with
      round := none, latched := resultWord w.key w.die w.core false w.hold
      holder := if w.hold && here then some ⟨w.uid, w.key, w.die, w.core, w.region⟩ else none }
    let s := r.entries.foldl (fun t e => t.prismAnswer c e (resultWord w.key w.die w.core (e.id = w.id) w.hold)) s
    let s := if w.gov && here then (List.range 8).foldl (fun t d => t.give w.die d) s else s
    match (s.contest c).holder with
    | none => s
    | some h =>
      ((s.contest c).entries.filter (fun e => e.regAt.isSome)).foldl (fun t e =>
        match heldAnswer h e with
        | none => t
        | some v => t.prismAnswer c e v) s

def execPrismLatch (c : Nat) (s : State) : Res :=
  .next (match (s.contest c).round with
    | none => s
    | some r => if s.planeCycle < r.start + 44 then s else s.latch c r)

/-- A withdrawal is processed: before its round starts the entry goes, and the context traps or parks; one in a round waits
for the latch (R300). -/
def State.withdrawable (s : State) (c : Nat) (e : PrismEntry) : Bool :=
  e.withdraw.isSome && e.regAt.isSome &&
    (match (s.contest c).round with | none => true | some r => !r.entries.any (fun n => n.id = e.id))

/-- End an unsatisfied wait: at the limit a trap, on pre-emption parking (R344, R381). -/
def State.endWait (s : State) (p : Nat) (w : Why) (t : TrapInfo) : State :=
  match w with
  | .limit => s.raise p t
  | .preempt => s.park p true (s.ctx p).sra

def execPrismWithdrawal (c k : Nat) (s : State) : Res :=
  let x := s.contest c
  .next (match x.entries.find? (fun e => e.id = k) with
    | none => s
    | some e =>
      match e.withdraw with
      | none => s
      | some w =>
        if !s.withdrawable c e then s
        else
          let p := ctxId e.core e.ctx
          let s := (s.setContest c { x with entries := x.entries.filter (fun n => n.id ≠ k) }).cancelWB e.core e.wb
          s.endWait p w (tWaitLimit (s.ctx p).wlim))

/-! When these events come. -/

/-- Registration at most 32 plane cycles after issue; rounds and latches in their plane cycle (R292, R293, R295). -/
def State.prismDue (s : State) : List Instr :=
  s.contests.flatMap (fun e =>
    (e.2.entries.filterMap (fun n =>
      if n.regAt.isNone && decide (n.sentAt + 32 ≤ s.planeCycle) then some (Instr.prismEntryRegister e.1 n.id) else none))
    ++ (match e.2.round with
      | none => []
      | some r => if r.start + 44 ≤ s.planeCycle then [Instr.prismLatch e.1] else [])
    ++ (if s.roundDue e.1 then [Instr.prismRoundStart e.1] else []))

def State.prismMay (s : State) : List Instr :=
  s.contests.flatMap (fun e =>
    e.2.entries.filterMap (fun n =>
      if n.regAt.isNone then some (Instr.prismEntryRegister e.1 n.id)
      else if s.withdrawable e.1 n then some (Instr.prismWithdrawal e.1 n.id) else none))

end Sys2Proof.Machine
end

