-- ==== Sys2Proof/Machine/Power.lean ====
section
/-! DEFINITION. Leave (R203 to R205) and the die power governor (R312, R377 to R379). -/

namespace Sys2Proof.Machine

/-- LEAVE asks the governor and sleeps until it is granted (R204). -/
def execLeave (f : OneF 8) (s : State) : Res :=
  .next (s.issue (.leave f) (fun s =>
    let p := s.cur
    let n := s.opImm p f.v % 256
    if !s.guarded f.h ∨ n = 0 then .go s
    else
      let prio := match (s.core s.curCore).task with | none => 0 | some t => t.eff.prio
      let r : GovReq := ⟨s.nextId, .leave s.curCore s.curCtx n, 10 * n, prio, none⟩
      let t := s.fresh.modDie (coreDie s.curCore) (fun x => { x with reqs := x.reqs ++ [r] })
      .wait (t.sleep p (.leave r.id))))

/-- The request a governor takes next: greatest priority, then request order (R312). -/
def nextReq : List GovReq → Option GovReq
  | [] => none
  | r :: l =>
    match nextReq l with
    | none => some r
    | some q => some (if r.prio < q.prio then q else r)

/-- The reservation a LEAVE would release counts as headroom (R378). -/
def State.replaced (s : State) (r : GovReq) : Nat :=
  match r.who with
  | .leave c k _ => 10 * (s.ctx (ctxId c k)).credits
  | _ => 0

def State.grantable (s : State) (d : Nat) (r : GovReq) : Bool :=
  decide ((r.cost : Int) ≤ (s.die d).headroom + s.replaced r)

/-- A grant (R378). -/
def State.grant (s : State) (d : Nat) (r : GovReq) : State :=
  let s := s.modDie d (fun x =>
    { x with reqs := x.reqs.filter (fun q => q.id ≠ r.id), used := x.used + r.cost - s.replaced r })
  match r.who with
  | .copy c id => s.modCore c (fun x => { x with copies := x.copies.map (fun m =>
      if m.id = id then { m with leave := .granted, allowance := r.cost } else m) })
  | .mat c id => s.modCore c (fun x => { x with mats := x.mats.map (fun m =>
      if m.id = id then { m with leave := .granted, allowance := r.cost } else m) })
  | .leave c k n =>
    let p := ctxId c k
    (s.modCtx p (fun x => { x with credits := n })).complete p (s.ctx p).nextPc

/-- A governor has an entry in contest 15. -/
def State.govEntered (s : State) (d : Nat) : Bool := (s.contest 15).entries.any (fun e => e.gov && e.die = d)

/-- A governor that cannot grant enters contest 15 with its priority and shortfall (R379). -/
def State.govEnter (s : State) (d : Nat) (r : GovReq) : State :=
  let short := ((r.cost : Int) - (s.die d).headroom - s.replaced r).toNat
  let key := BitVec.ofNat 32 (r.prio * 2 ^ 28 + short)
  let e : PrismEntry :=
    ⟨s.nextId, d, d * coresPerDie, 0, key, false, true, 0, 0, 15, s.planeCycle, some s.planeCycle, none, 0, 0⟩
  let x := s.contest 15
  s.fresh.setContest 15 { x with entries := x.entries ++ [e] }

/-- A governor of a die in service takes its next request (R291, R312). -/
def execGovernorGrant (d : Nat) (s : State) : Res :=
  .next (match if (s.die d).phase = .trained then nextReq (s.die d).reqs else none with
    | none => s
    | some r => if s.grantable d r then s.grant d r else if s.govEntered d then s else s.govEnter d r)

/-- Requests granted in their order for as long as the headroom lasts. -/
def State.grantAll (s : State) (d : Nat) : Nat → State
  | 0 => s
  | n + 1 =>
    match nextReq (s.die d).reqs with
    | none => s
    | some r => if s.grantable d r then State.grantAll (s.grant d r) d n else s

/-- A LEAVE's withdrawal at the governor, which has processed the requests before it: one that could be granted stands, and
another ends (R344, R381). -/
def execLeaveWithdrawal (c k : Nat) (s : State) : Res :=
  let d := coreDie c
  let p := ctxId c k
  .next (match (s.die d).reqs.find? (fun r => r.withdraw.isSome &&
      (match r.who with | .leave c' k' _ => c' = c && k' = k | _ => false)) with
    | none => s
    | some r =>
      let s := if (s.die d).phase = .trained then s.grantAll d (s.die d).reqs.length else s
      if (s.die d).reqs.all (fun q => q.id ≠ r.id) then s
      else
        let s := s.modDie d (fun x => { x with reqs := x.reqs.filter (fun q => q.id ≠ r.id) })
        s.endWait p (r.withdraw.getD .limit) (tWaitLimit (s.ctx p).wlim))

def State.powerMay (s : State) : List Instr :=
  s.dies.flatMap (fun e =>
    (match if e.2.phase = .trained then nextReq e.2.reqs else none with
      | none => []
      | some r => if s.grantable e.1 r ∨ !s.govEntered e.1 then [Instr.governorGrant e.1] else [])
    ++ e.2.reqs.filterMap (fun r => match r.who, r.withdraw with
      | .leave c k _, some _ => some (.leaveWithdrawal c k)
      | _, _ => none))

end Sys2Proof.Machine
end

