-- ==== Sys2Proof/Machine/Engines.lean ====
section
/-! DEFINITION. The instructions of the copy and matrix engines: launches and their stall lists (R191, R197, R302), the
shadow set (R189, R190), the configuration (R196), and what a program reads of them (R195, R199). -/

namespace Sys2Proof.Machine

/-! Queues (R301, R302). -/

def State.queued (s : State) (c : Nat) (mat : Bool) : Nat :=
  if mat then (s.core c).mats.length else (s.core c).copies.length

/-- Contexts on a queue's stall list that joined before a context (of itself: before now). -/
def State.aheadOf (s : State) (p : Nat) (mat : Bool) : Nat :=
  let c := p / 16
  let since := match (s.ctx p).stalled with
    | some (m, t) => if m = mat then t else s.cycle
    | none => s.cycle
  (ctxNums.filter (fun k => decide (k ≠ p % 16) &&
    (match (s.ctx (ctxId c k)).stalled with
      | some (m, t) => m = mat && (decide (t < since) || (t = since && decide (k < p % 16)))
      | none => false))).length

/-- The context may take an entry: one is free and not held for a context that stalled before it. -/
def State.entryFree (s : State) (p : Nat) (mat : Bool) : Bool := decide (s.aheadOf p mat + s.queued (p / 16) mat < 2)

/-- A context joins a stall list, or keeps its place on it. -/
def stallOn (mat : Bool) (cycle : Nat) (x : Ctx) : Ctx :=
  match x.stalled with
  | some (m, _) => if m = mat then x else { x with stalled := some (mat, cycle) }
  | none => { x with stalled := some (mat, cycle) }

/-- Operations that a release waits for, each with whether it must be visible at SYS scope (R236, R240). -/
def State.owing (s : State) (p before : Nat) (mask : BitVec 8) (scope : Scope) : List (Nat × Bool) :=
  ((s.earlier p before).filter (fun f => (f.isLoad && !f.allDone) || f.owed mask scope)).map
    (fun f => (f.id, decide (scope = .sys) && f.owed mask scope))

/-- The accesses that a launch's release waits for: the context's own, and those of the release its start acquired (R236,
R239, R245). -/
def State.launchAfter (s : State) (p : Nat) (mask : BitVec 8) (scope : Scope) : List (Nat × Bool) :=
  s.owing p s.nextId mask scope ++ (s.ctx p).floor.flatMap (fun x => s.owing x.1 x.2 allColours .core)

/-- A heavy command takes a credit where its context holds one: a copy keeps 3 of the credit's 10 watts, a matrix command
all of them (R205, R378). -/
def State.takeCredit (s : State) (p keep : Nat) : State × Leave × Nat :=
  if (s.ctx p).credits = 0 then (s, .needed, 0)
  else ((s.modCtx p (fun x => { x with credits := x.credits - 1 })).freePower (coreDie (p / 16)) (10 - keep), .notNeeded, keep)

/-! The copy engine. -/

/-- Defined bits of each shadow register (R190). -/
def shadowMask (r : Nat) : Word :=
  if r = 2 ∨ r = 3 ∨ r = 4 then 0xFFFFFFFF else if r = 9 then 0x00F3FF07 else allOnes

def execCpset (f : CpsetF) (s : State) : Res :=
  .next (s.issue (.cpset f) (fun s =>
    let p := s.cur
    let v := BitVec.ofNat 64 (s.opImm p f.a) &&& shadowMask f.reg.toNat
    .go (if s.guarded f.h then s.modCtx p (fun x => { x with shadow := Tab.set 0 x.shadow f.reg.toNat v }) else s)))

/-- A shadow register's value, and one of its fields. -/
def Ctx.sh (x : Ctx) (r : Nat) : Word := Tab.get 0 x.shadow r
def Ctx.shBits (x : Ctx) (r pos len : Nat) : Nat := bitsAt (x.sh r).toNat pos len

def Ctx.copyBytes (x : Ctx) : Nat := x.shBits 2 0 32 * x.shBits 3 0 32 * x.shBits 4 0 32 * 2 ^ x.shBits 9 20 4

def scopeOf (n : Nat) : Scope := if n = 0 then .core else if n = 1 then .die else if n = 2 then .pkg else .sys
def hintOf (n : Nat) : Hint := if n = 0 then .normal else if n = 1 then .evictFirst else if n = 2 then .keep else .noAlloc

/-- Checks of a launch (R191, R194). -/
def Ctx.copyErr (x : Ctx) (red : Option Ty) : Option TrapInfo :=
  let esz := x.shBits 9 20 4
  if 8 < esz ∨ 2 ^ 40 < x.copyBytes then some (tEngineFault 1)
  else
    match red with
    | some t => if 8 * 2 ^ esz ≠ t.bits then some (tEngineFault 2)
      else if (x.sh 8).toNat % 8 ≠ 0 then some (tAlign (x.sh 8) 8) else none
    | none => if (x.sh 8).toNat % 8 ≠ 0 then some (tAlign (x.sh 8) 8) else none

def nextXid (n : Nat) : Nat := if n = 0xFFFF then 1 else n + 1

/-- The snapshot of a launch (R191, R303). -/
def State.snapshot (s : State) (p xid : Nat) (red : Option (Ty × Option (Nat × Nat))) (leave : Leave) (allow : Nat)
    (after : List (Nat × Bool)) : CopyCmd :=
  let x := s.ctx p
  let o := s.owner (p / 16)
  let st := fun (r pos : Nat) => toInt true 32 (x.shBits r pos 32)
  { id := s.nextId, xid := xid, core := p / 16, ctx := p % 16, uid := o.1, asid := o.2.1, region := o.2.2.1, prio := o.2.2.2.1
    fdom := o.2.2.2.2, priv := x.priv, src := x.sh 0, dst := x.sh 1, len0 := x.shBits 2 0 32, len1 := x.shBits 3 0 32, len2 := x.shBits 4 0 32
    ss0 := st 5 0, ss1 := st 6 0, ss2 := st 7 0, ds0 := st 5 32, ds1 := st 6 32, ds2 := st 7 32, counter := x.sh 8
    esz := x.shBits 9 20 4, fe := bitAt (x.sh 9).toNat 0, hint := hintOf (x.shBits 9 1 2), red := red, next := 0
    started := false, issued := false, open_ := 0, fault := none, leave := leave, allowance := allow, after := after, xl := [] }

/-- Assign the next transfer id of a core, with its status (R191, R195). -/
def State.newXfer (s : State) (c : Nat) (done : Bool) : State :=
  s.modCore c (fun x =>
    { x with xid := nextXid x.xid, statuses := (⟨x.xid, done, 0⟩ :: x.statuses.filter (fun t => t.xid ≠ x.xid)).take 64 })

/-- The effect of a launch: a copy of no bytes completes at once. -/
def State.launchCopy (s : State) (p : Nat) (red : Option (Ty × Option (Nat × Nat))) : State :=
  let c := p / 16
  let x := s.ctx p
  let n := x.copyBytes
  if n = 0 then s.newXfer c true
  else
    let fl := (x.sh 9).toNat
    let after := s.launchAfter p (BitVec.ofNat 8 (bitsAt fl 8 8)) (scopeOf (bitsAt fl 16 2))
    let r := if 2 ^ 20 < n then s.takeCredit p 3 else (s, Leave.notNeeded, 0)
    let cmd := r.1.snapshot p (s.core c).xid red r.2.1 r.2.2 after
    (r.1.newXfer c false).fresh.modCore c (fun y => { y with copies := y.copies ++ [cmd] })

/-- A launch is performed: in some lane, where its transfer id goes to a vector (R41, log 114). -/
def State.launches (s : State) (h : Hdr) (d : Option Opnd) : Bool :=
  match d with
  | none => s.guarded h
  | some d => s.lanes h d.isVec ≠ []

/-- CPGO and CPRED (R191, R194). -/
def launchAct (i : Instr) (d : Option Opnd) (red : Option (Ty × Option (Nat × Nat))) (s : State) : Act :=
  let p := s.cur
  if !s.entryFree p false then .hold (fun t => t.modCtx s.cur (stallOn false s.cycle))
  else
    match (s.ctx p).copyErr (red.map (fun r => r.1)) with
    | some t => .trap t
    | none =>
      let xid := (s.core s.curCore).xid
      let t := if s.launches i.hdr d then s.launchCopy p red else s
      match d with
      | none => .go t
      | some d => .go (t.produce i [t.lanesWrite i.hdr d (fun _ => fit64 d xid)] [] .none)

def execCpgo (f : CpgoF) (s : State) : Res := .next (s.issue (.cpgo f) (launchAct (.cpgo f) f.d none))
def execCpred (f : CpredF) (s : State) : Res :=
  .next (s.issue (.cpred f) (launchAct (.cpred f) f.d (some (f.ty, none))))
def execCpredRanked (f : CpredRF) (s : State) : Res :=
  .next (s.issue (.cpredRanked f)
    (launchAct (.cpredRanked f) f.d (some (f.ty, some (f.rank.toNat, f.rmax.toNat)))))

/-- The status of a transfer (R195). -/
def State.xferStatus (s : State) (c xid : Nat) : Nat :=
  match (s.core c).statuses.find? (fun t => t.xid = xid) with
  | none => 0xF
  | some t =>
    if t.done then (if t.code = 0 then 0 else 3 + 16 * t.code)
    else if (s.core c).copies.any (fun k => k.xid = xid && k.started) then 2 else 1

def execCpq (f : CpqF) (s : State) : Res :=
  .next (s.issue (.cpq f) (fun s =>
    s.write1 (.cpq f) f.d (fun l => fit64 f.d (s.xferStatus s.curCore (s.readOp s.cur f.x l % 65536)))))

def execCpqCount (f : DstF) (s : State) : Res :=
  .next (s.issue (.cpqCount f) (fun s => s.write1 (.cpqCount f) f.d (fun _ => fit64 f.d (s.queued s.curCore false))))

/-! The matrix engine. -/

/-- Bytes of an element of C, where there is one. -/
def cBytes (fc : Option CFmt) : Nat := match fc with | none => 1 | some f => f.bytes

/-- MMCFG (R196). -/
def execMmcfg (f : MmcfgF) (s : State) : Res :=
  .next (s.issue (.mmcfg f) (fun s =>
    let p := s.cur
    let k := s.u64 p f.k
    let st := s.readOp p f.s 0
    let sa := bitsAt st 0 32
    let sb := bitsAt st 32 32
    let sc := bitsAt st 64 32
    let sd := bitsAt st 96 32
    let ctr := match f.ctr with | none => 0 | some o => s.t64 o
    let nb := f.fa.count
    let al := fun (v n : Nat) => if v % n ≠ 0 then some (tAlign (BitVec.ofNat 64 v) n) else none
    if k % nb ≠ 0 ∨ k / nb < 1 ∨ 65536 < k / nb then .trap (tEngineFault 3)
    else
      match [al sa 64, al sb 64, al sc (cBytes f.fc), al sd f.fd.bytes, al ctr.toNat 8].findSome? id with
      | some t => .trap t
      | none =>
        .go (if s.guarded f.h then
          s.modCtx p (fun x => { x with mm :=
            ⟨k, sa, sb, sc, sd, ctr, f.m1.toNat + 1, f.n1.toNat + 1, f.fa, f.fb, f.fc, f.fd, f.mask⟩ }) else s)))

/-- Checks of an MMA at issue (R197). -/
def mmaErr (cfg : MmCfg) (a b c d : Word) (hasC : Bool) : Option TrapInfo :=
  let al := fun (v : Word) (n : Nat) => if v.toNat % n ≠ 0 then some (tAlign v n) else none
  if hasC ≠ cfg.fc.isSome then some (tEngineFault 4)
  else [al a 64, al b 64, al c (cBytes cfg.fc), al d cfg.fd.bytes].findSome? id

/-- Launch of a matrix command; one whose first row is at or beyond m completes at once (R197). -/
def State.launchMat (s : State) (p : Nat) (a b c d : Word) (row : Nat) (wait : Bool) : Act :=
  let k := p / 16
  let x := s.ctx p
  let after := s.launchAfter p x.mm.mask .pkg
  let r := s.takeCredit p 10
  let o := s.owner k
  if x.mm.m ≤ row then .go (if wait then (r.1.freePower (coreDie k) r.2.2).acquire p else r.1.freePower (coreDie k) r.2.2)
  else
    let m : MatCmd := ⟨s.nextId, k, p % 16, o.1, o.2.1, o.2.2.1, o.2.2.2.1, o.2.2.2.2, x.priv, a, b, c, d, x.mm, row, row,
      wait, false, none, r.2.1, r.2.2, after, [], .none⟩
    let t := r.1.fresh.modCore k (fun y => { y with mats := y.mats ++ [m] })
    if wait then .wait ((t.modCtx p (fun y => { y with stalled := none })).sleep p (.mmw m.id)) else .go t

/-- MMA and MMW (R197). -/
def mmaAct (h : Hdr) (a b : Opnd) (c : Option Opnd) (d : Opnd) (row : State → Nat) (wait : Bool) (s : State) : Act :=
  let p := s.cur
  if !s.entryFree p true then .hold (fun t => t.modCtx s.cur (stallOn true s.cycle))
  else
    let cv := match c with | none => 0 | some o => s.t64 o
    match mmaErr (s.ctx p).mm (s.t64 a) (s.t64 b) cv (s.t64 d) c.isSome with
    | some t => .trap t
    | none => if s.guarded h then s.launchMat p (s.t64 a) (s.t64 b) cv (s.t64 d) (row s) wait else .go s

def State.rprNow (s : State) : Nat := (s.core s.curCore).rpr.toNat

def execMma (f : MmaF) (s : State) : Res :=
  .next (s.issue (.mma f) (mmaAct f.h f.a f.b f.c f.d (fun _ => f.row.toNat) false))
def execMmaRp (f : MmaRpF) (s : State) : Res :=
  .next (s.issue (.mmaRp f) (mmaAct f.h f.a f.b f.c f.d State.rprNow false))
def execMmw (f : MmaF) (s : State) : Res :=
  .next (s.issue (.mmw f) (mmaAct f.h f.a f.b f.c f.d (fun _ => f.row.toNat) true))
def execMmwRp (f : MmaRpF) (s : State) : Res :=
  .next (s.issue (.mmwRp f) (mmaAct f.h f.a f.b f.c f.d State.rprNow true))

/-- MMRP sleeps until no command of its context is in the engine, then reads RPR (R199). -/
def execMmrp (f : DstF) (s : State) : Res :=
  .next (s.issue (.mmrp f) (fun s =>
    let p := s.cur
    let l := s.lanes f.h f.d.isVec
    if l = [] then .go (s.produce (.mmrp f) [] [] .none)
    else if (s.core s.curCore).mats.any (fun m => m.ctx = p % 16) then
      .wait ((s.addWB p (.mmrp f : Instr).shape.kind true [⟨f.d.file, f.d.start.toNat, f.d.width, l.map (fun n => (n, 0))⟩] [] .none
        (octs (.mmrp f : Instr).shape.dsts) []).sleep p .mmrp)
    else s.write1 (.mmrp f) f.d (fun _ => fit64 f.d s.rprNow)))

end Sys2Proof.Machine
end

