-- ==== Sys2Proof/Machine/Flights.lean ====
section
/-! DEFINITION. Memory operations in flight: how one is formed, what its accesses wait for (R234 to R237, R242, R270), the
trackers and tickets of the slices (R220), and how one completes. -/

namespace Sys2Proof.Machine

/-! Forming an operation. -/

/-- An access of n bytes. -/
def Part.of (key n : Nat) (va : Word) (lane : Nat) : Part :=
  { key := key, len := n, va := va, lane := lane, page := none, bytes := [], a := 0, b := 0, c := 0, done := false, res := 0, code := 0
    refused := 0, sendAt := none, ticket := false, noticed := false }

/-- An operation of a context, with nothing said of order. -/
def State.newFlight (s : State) (p : Nat) (op : FlOp) (parts : List Part) : Flight :=
  let c := p / 16
  let o := s.owner c
  { id := s.nextId, core := c, ctx := p % 16, op := op, parts := parts, dst := none, wb := none, uid := o.1, asid := o.2.1
    region := o.2.2.1, fdom := o.2.2.2.2, isLoad := false, isStore := false, colour := none, acquire := false, release := none
    scope := .core, hint := .normal, home := false, gen := (s.die (coreDie c)).gen, hostPend := false, parked := none
    resendAt := none, withdraw := none, pc := (s.ctx p).pc, nextPc := (s.ctx p).nextPc, lines := []
    floor := (s.ctx p).floor
    chain := match (s.core c).task with | none => [] | some t => t.chain.map (fun x => x.2) }

/-- Send an operation without a writeback. -/
def State.send (s : State) (f : Flight) : State := s.fresh.addFlight { f with id := s.nextId }

/-- Send an operation whose writeback waits for it. -/
def State.sendWB (s : State) (i : Instr) (p : Nat) (f : Flight) : State :=
  let t := s.fresh
  (t.addWB p .late true [] [] .none (octs i.shape.dsts) i.shape.pwr).addFlight
    { f with id := s.nextId, wb := some t.nextId }

/-- Entries of a context's store queue (R138). -/
def State.storeQueue (s : State) (p : Nat) : Nat :=
  (s.flights.filter (fun f => ctxId f.core f.ctx = p && f.isStore && f.wb.isNone && !f.allDone)).length

def State.queueFull (s : State) (p : Nat) : Bool := decide (16 ≤ s.storeQueue p)

/-! What an access waits for. -/

/-- An event at a granule whatever its kind (R270). -/
def Flight.atGranule (f : Flight) : Bool :=
  f.isStore || (match f.op with | .ldf _ => true | _ => false)

/-- Two accesses touch one granule. -/
def sameGranule (p q : Part) : Bool :=
  overlaps (granule p.key * 16) ((p.key + p.len + 15) / 16 * 16 - granule p.key * 16)
    (granule q.key * 16) ((q.key + q.len + 15) / 16 * 16 - granule q.key * 16)

def isAtom (op : FlOp) : Bool :=
  match op with
  | .atom .. => true
  | _ => false

/-- The blocks of one FILL are read in their order (R152). -/
def Flight.fillBefore (e f : Flight) : Bool :=
  match e.op, f.op with
  | .fill .., .fill .. => !e.allDone && (e.parts.map Part.c).head? = (f.parts.map Part.c).head?
  | _, _ => false

/-- An earlier operation of the context holds back an access (R235 to R237, R270). A load's wait for earlier stores of its
bytes is that of R234. An atomic is a load and a store here (R244; DEDUCED, log 129), but two atomics on different words are applied in either
order, as the worked example after R290 has it. -/
def Flight.holds (e f : Flight) (p : Part) : Bool :=
  e.acquire || e.fillBefore f
    || (f.isStore && e.isLoad && !e.allDone && !(isAtom e.op && isAtom f.op))
    || e.parts.any (fun q => !q.done && overlaps q.key q.len p.key p.len && ((e.isLoad && !e.isStore) || f.isStore))
    || (e.atGranule && f.atGranule && isScratch p.key && e.parts.any (fun q => !q.done && sameGranule q p))

/-- Earlier operations of an operation's own context, in order whether or not its task still runs (R206, R235, R236). -/
def State.before (s : State) (f : Flight) : List Flight := s.ofTask f.uid (ctxId f.core f.ctx) f.id

/-- An access may perform, but for R234; one of host memory waits while the host link is down (DESIGN CHOICE, log 74). -/
def State.ready (s : State) (f : Flight) (p : Part) : Bool :=
  (!isHost p.key || !s.linkDown hostLink) && !(s.before f).any (fun e => e.holds f p) && s.floorOf f.uid f.floor &&
    (match f.release with
      | none => true
      | some m => s.quietOf f.uid (ctxId f.core f.ctx) f.id m f.scope)

/-- What the context's own store queue holds of a load's bytes (R234). -/
inductive Forward
  | clear
  | value (v : Nat)
  | wait
deriving DecidableEq, Repr

/-- A queued store's bytes of a part, where the queue knows that they will be written: an AGST's home may discard it
(R139, R255). -/
def Flight.known (f : Flight) (q : Part) : Tab Byte :=
  match f.op with
  | .agst _ => []
  | _ => q.bytes

/-- The newest queued store of a byte: none if no store writes it; inside, its value where the queue knows it. -/
def newestStore (l : List Flight) (k : Nat) : Option (Option Byte) :=
  (l.reverse.findSome? (fun f =>
    ((f.parts.filter (fun q => !q.done && decide (q.key ≤ k) && decide (k < q.key + q.len))).reverse.head?).map
      (fun q => f.known q))).map (fun b => (b.find? (fun e => e.1 = k)).map (fun e => e.2))

def State.forward (s : State) (f : Flight) (p : Part) : Forward :=
  let l := (s.before f).filter (fun e => e.isStore && !e.allDone && e.touches p.key p.len)
  if l.all (fun e => e.parts.all (fun q => q.done || !overlaps q.key q.len p.key p.len)) then .clear
  else
    match f.op with
    | .load | .fill .. =>
      let bs := (keysOf p.key p.len).map (newestStore l)
      if bs.all (fun b => match b with | some (some _) => true | _ => false) then
        .value (leVal (bs.map (fun b => (b.getD none).getD 0)))
      else .wait
    | _ => .wait

/-! Completion. -/

/-- Values of lanes for a destination. -/
def laneVals (f : Flight) (v : Part → Nat) : List SlWrite :=
  match f.dst with
  | none => []
  | some d => [⟨d.file, d.start.toNat, d.width, f.parts.map (fun p => (p.lane, v p))⟩]

/-- A block whose sector does not verify, or whose header does not name a format. -/
def State.blockErr (s : State) (f : BFmt) (va : Word) (key : Nat) : Option TrapInfo :=
  match s.badBytes [key] with
  | some k => some ⟨0x100 + k, BitVec.ofNat 64 key, va⟩
  | none => if blkFmt (s.word key 64) = some f then none else some (tBlockFormat va (s.word key 1))

/-- What GATH makes of a block as read: an element rounded to the type, or for a block that no longer names the object's
format the canonical NaN with NV (R141). -/
def gathElem (ty : Ty) (rnd : Rnd) (ftz : Bool) (p : Part) : FpRes :=
  match blkFmt p.res with
  | none => invalid ty.fp
  | some m =>
    if m.code ≠ p.a then invalid ty.fp else convFp ty.fp (.det rnd) ftz (blkVal m p.res p.c)

/-- R144's ahead and age. -/
def aheadOf (st r : BitVec 32) : Bool := decide (1 ≤ (st - r).toNat) && decide ((st - r).toNat < 2 ^ 31)
def ageOf (st r : BitVec 32) : Nat := if aheadOf st r then 0 else min (r - st).toNat 0xFFFF
def freshFor (st r : BitVec 32) (lag : Nat) : Bool := lag = 65535 || decide ((r - st).toNat ≤ lag) || aheadOf st r

/-- The predicates of an answered AGLD: PF and then PA (R144). -/
def agldPreds (pf pa : Nat) (fr ah : Bool) : List PrWrite :=
  (if pf = 15 then [] else [predAll pf fr]) ++ (if pa = 15 then [] else [predAll pa ah])

/-- The writes of an answered AGLD. -/
def agldWrites (f : Flight) (p : Part) (itr : BitVec 32) (da : Opnd) (act : Word) : List SlWrite :=
  let age := ageOf (BitVec.ofNat 32 p.c) itr
  match f.dst with
  | none => []
  | some d =>
    let vals := (List.range (512 / d.bits)).filter (fun l => laneBit act l)
    [⟨d.file, d.start.toNat, d.width, vals.map (fun l => (l, bitsAt p.res (l * d.bits) d.bits))⟩,
      ⟨da.file, da.start.toNat, da.width, [(0, age)]⟩]

/-- The writes, predicates and flags of an operation all of whose accesses are performed. -/
def Flight.results (f : Flight) : List SlWrite × List PrWrite × Flags :=
  match f.op with
  | .load | .cntrd | .ldf _ | .atom .. => (laneVals f (fun p => p.res), [], .none)
  | .gath ty rnd ftz =>
    (laneVals f (fun p => (gathElem ty rnd ftz p).bits), [], Flags.all (f.parts.map (fun p => (gathElem ty rnd ftz p).fl)))
  | .fill file b => ([⟨file, 64 * b, 64, f.parts.map (fun p => (p.lane, p.res))⟩], [], .none)
  | .agld _ itr _ pf pa da act =>
    match f.parts with
    | [p] => (agldWrites f p itr da act, agldPreds pf pa (p.code = 1) (aheadOf (BitVec.ofNat 32 p.c) itr), .none)
    | _ => ([], [], .none)
  | .waitc _ (some pn) => ([], [predAll pn (f.parts.all (fun p => p.code = 0))], .none)
  | _ => ([], [], .none)

/-- The trap a finished operation takes instead of completing: a counter's error, a watch whose share is gone, or an aged object
cleared (R160, R253, R271). -/
def Flight.lateTrap (f : Flight) : Option TrapInfo :=
  match f.op, f.parts with
  | .waitc _ nt, [p] =>
    if p.code = noShareCode then some (tProt p.va 8)
    else if nt.isSome ∨ p.code = 0 then none else some (tEngineFault (p.code - 1))
  | .waitf .., [p] => if p.code = noShareCode then some (tProt p.va 8) else none
  | .agld .., [p] => if p.code = 2 then some (tProt p.va 6) else none
  | _, _ => none

/-- It acquires as it completes, or as it traps ENGINE_FAULT; a watch whose share is gone does not (R160, R241). -/
def Flight.acquires (f : Flight) : Bool :=
  f.acquire && (match f.lateTrap with | none => true | some t => decide (t.code = 0x0F))

/-- Length bits of the instruction of an operation. -/
def Flight.ilen (f : Flight) : BitVec 2 :=
  let n := (f.nextPc - f.pc).toNat
  if n = 8 then 0 else if n = 12 then 1 else 2

/-- A wait that a trap of an earlier instruction ends. -/
def State.endWaitOf (s : State) (p : Nat) : State :=
  match (s.ctx p).run with
  | .asleep (.flight id) _ =>
    match s.flight id with
    | none => s
    | some f =>
      let s := s.dropFlight id
      match f.wb with
      | none => s
      | some w => s.cancelWB f.core w
  | _ => s

/-- A precise trap of an operation that is under way: its destinations keep their values (R159, R253, R285). Accesses named
as left go on to their homes, where they are performed with no answer (R288). -/
def State.trapLeaving (s : State) (f : Flight) (t : TrapInfo) (left : List Part) : State :=
  let p := ctxId f.core f.ctx
  let s := if left = [] then s.dropFlight f.id
    else s.setFlight { f with parts := left, dst := none, wb := none, isLoad := false, acquire := false }
  let s := match f.wb with
    | none => s
    | some w => s.cancelWB f.core w
  let s := s.endWaitOf p
  (s.modCtx p (fun x => { x with pc := f.pc, ilen := f.ilen })).raise p t

def State.trapFlight (s : State) (f : Flight) (t : TrapInfo) : State := s.trapLeaving f t []

/-- The writeback for which a context stays asleep after the answer: that of an AGLD .WAIT (R257). -/
def Flight.landing (f : Flight) : Option Nat :=
  match f.op with
  | .agld true .. => f.wb
  | _ => none

/-- The context asleep in an operation goes on, or sleeps until the answer is written. -/
def State.wakeFlight (s : State) (f : Flight) : State :=
  let p := ctxId f.core f.ctx
  match (s.ctx p).run with
  | .asleep (.flight id) since =>
    if id ≠ f.id then s
    else
      match f.landing with
      | none => s.complete p f.nextPc
      | some w =>
        s.modCtx p (fun x => { x with pc := f.nextPc, counted := false, run := .asleep (.landing w) since })
  | _ => s

/-- An operation all of whose accesses are performed: its acquire, its values, and the wake of its context, in one act. -/
def State.finish (s : State) (f : Flight) : State :=
  if !f.allDone ∨ (s.flight f.id).isNone then s
  else
    let p := ctxId f.core f.ctx
    let s := if f.acquires then s.acquire p else s
    match f.lateTrap with
    | some t => s.trapFlight f t
    | none =>
      let s := if f.hostPend then s.setFlight { f with acquire := false, wb := none, isLoad := false } else s.dropFlight f.id
      let r := f.results
      let s := match f.wb with
        | none => s
        | some w => s.fillWB f.core w r.1 r.2.1 r.2.2
      s.wakeFlight f

/-- Complete what can complete. -/
def State.settle (s : State) : State := s.flights.foldl (fun t f => t.finish f) s

end Sys2Proof.Machine
end

