-- ==== Sys2Proof/Machine/Rcb.lean ====
section
/-! DEFINITION. Region and task control blocks: their layout and checks (R313, R316, R317), the chain to the root, and the
effective fields of a region (R314). -/

namespace Sys2Proof.Machine

/-- A control block read from memory: its address and its bytes as one value. -/
structure Block where
  (addr : Word) (raw : Nat)
deriving DecidableEq, Repr

/-- n bits from a byte offset. -/
def Block.at (b : Block) (off n : Nat) : Nat := bitsAt b.raw (8 * off) n

def Block.parent (b : Block) : Word := BitVec.ofNat 64 (b.at 0 64)
def Block.region (b : Block) : Nat := b.at 8 16
def Block.supplies (b : Block) (k : Nat) : Bool := bitAt (b.at 12 16) k

/-- The offset of the first rejected field of an RCB (R313, R317). -/
def Block.rcbErr (b : Block) : Option Nat :=
  let chk := fun (ok : Bool) (off : Nat) => if ok then none else some off
  let sup := fun (k : Nat) (ok : Bool) (off : Nat) => if ok || !b.supplies k then none else some off
  let v := b.at
  ([chk ((v 0 64 % 256 = 0) && (v 0 64 ≠ 0 || v 8 16 = 0)) 0,
    chk (v 8 16 ≠ 0 || v 0 64 = 0) 8,
    chk (bitsAt (v 10 16) 12 4 = 0) 10,
    chk (v 14 16 = 0 && (v 0 64 ≠ 0 || v 12 16 = 0xFFFF)) 12,
    sup 1 (v 16 64 % 4 = 0 && canonical (BitVec.ofNat 64 (v 16 64))) 16,
    chk (bitsAt (v 28 32) 25 7 = 0) 28,
    sup 3 (v 28 25 ≤ 2 ^ 24) 28,
    chk (bitsAt (v 32 8) 1 7 = 0) 32,
    sup 5 (v 33 8 = 0 || (2 ≤ v 33 8 && v 33 8 ≤ 5)) 33,
    sup 6 (v 34 8 ≤ 32) 34, sup 7 (v 35 8 ≤ 32) 35, sup 8 (v 36 8 ≤ 32) 36, sup 9 (1 ≤ v 37 8 && v 37 8 ≤ 32) 37,
    chk (bitsAt (v 38 8) 4 4 = 0) 38,
    chk (bitsAt (v 40 16) 9 7 = 0) 40,
    sup 12 (v 40 9 % 2 ^ (v 42 8) = 0) 40,
    sup 12 (v 42 8 ≤ 9) 42,
    sup 13 (v 43 8 ≤ 144) 43,
    chk (bitsAt (v 44 16) 14 2 = 0) 44,
    chk (v 47 8 = 0) 47,
    chk (v 48 64 % 8 = 0) 48] : List (Option Nat)).findSome? id

/-- The offset of the first rejected field of a TCB (R316). -/
def Block.tcbErr (b : Block) : Option Nat :=
  let chk := fun (ok : Bool) (off : Nat) => if ok then none else some off
  let v := b.at
  ([chk (v 0 64 % 4 = 0 && canonical (BitVec.ofNat 64 (v 0 64))) 0,
    chk (v 16 64 % 256 = 0) 16,
    chk (v 24 64 % 64 = 0) 24,
    chk (v 32 64 % 8 = 0) 32,
    chk (bitsAt (v 41 8) 4 3 = 0) 41,
    chk (v 42 8 ≤ 32) 42,
    chk (v 43 8 ≤ 32) 43,
    chk (v 44 160 = 0) 44] : List (Option Nat)).findSome? id

/-- The chain from an RCB to the root, at most eight deep, each block's sector verified before its fields are judged (R362); the
error names the holder of a bad address and the offset of the field that holds it (R317). -/
def State.readChain (s : State) (d : Nat) : Nat → Word → Word → Nat → Except TrapInfo (List Block)
  | 0, _, holder, _ => .error (tField holder 0x10000)
  | n + 1, addr, holder, off =>
    match s.sysPlace d (s.die d).rootAsid addr 64 false with
    | .error t => .error (if t.code = 0x09 ∨ t.code = 0x0A ∨ t.code = 0x0B then tField holder off else t)
    | .ok k =>
      match s.badBytes [k] with
      | some e => .error ⟨0x100 + e, BitVec.ofNat 64 k, addr⟩
      | none =>
        let b : Block := ⟨addr, s.word k 64⟩
        match b.rcbErr with
        | some e => .error (tField addr (0x10000 + e))
        | none =>
          if b.parent = 0 then .ok [b]
          else
            match State.readChain s d n b.parent addr 0x10000 with
            | .error t => .error t
            | .ok l => .ok (b :: l)

/-- Addresses of the blocks that reading a chain reads, up to one that fails. -/
def State.chainReads (s : State) (d : Nat) : Nat → Word → List Word
  | 0, _ => []
  | n + 1, addr =>
    addr :: (match s.sysPlace d (s.die d).rootAsid addr 64 false with
      | .error _ => []
      | .ok k =>
        let b : Block := ⟨addr, s.word k 64⟩
        if (s.badBytes [k]).isSome ∨ b.rcbErr.isSome ∨ b.parent = 0 then [] else State.chainReads s d n b.parent)

/-- What reading a chain leaves, complete or not: the walks and the accesses at their homes (R207). -/
def State.touchChain (s : State) (d : Nat) (rcb : Word) : State :=
  (s.chainReads d 8 rcb).foldl (fun t a => t.touchAt d (t.die d).rootAsid a 64 false) s

/-- The supplier of a field: the first RCB of the chain whose override bit is 1, with the rest of the chain. -/
def supplier (k : Nat) : List Block → List Block
  | [] => []
  | b :: l => if b.supplies k then b :: l else supplier k l

def fieldOf (l : List Block) (k off n : Nat) : Nat :=
  match supplier k l with
  | [] => 0
  | b :: _ => b.at off n

/-- A child never grants itself a contest an ancestor withholds (R314). -/
def grantOf : List Block → Nat
  | [] => 2 ^ 14 - 1
  | b :: l => if b.supplies 14 then Nat.land (b.at 44 14) (grantOf l) else grantOf l

/-- The effective fields of the region at the head of a chain (R314). -/
def effOf (l : List Block) : Eff :=
  let f := fieldOf l
  let sp := f 3 28 25
  let w := f 5 33 8
  { asid := f 0 10 12, handler := BitVec.ofNat 64 (f 1 16 64), wlim := BitVec.ofNat 32 (f 2 24 32)
    splim := BitVec.ofNat 25 (if sp = 0 then 65536 else sp), ftz := f 4 32 1 = 1, l1ways := if w = 0 then 3 else w
    gblk := f 6 34 8, hblk := f 7 35 8, vblk := f 8 36 8, sblk := f 9 37 8, prio := f 10 38 4, fdom := f 11 39 8
    partb := f 12 40 9, partk := f 12 42 8, cmax := f 13 43 8, grant := BitVec.ofNat 14 (grantOf l)
    quantum := f 15 46 8 }

def chainOf (l : List Block) : List (Word × Nat) := l.map (fun b => (b.addr, b.region))

/-- The RCB address of a region known to the schedulers: one named by a queued, running or suspended task, as the region
or an ancestor (R213, R323). -/
def State.knownRcb (s : State) (region : Nat) : Option Word :=
  let tasks := s.cores.filterMap (fun e => e.2.task) ++ s.dies.flatMap (fun e => e.2.queue.map (fun q => q.task))
  tasks.findSome? (fun t =>
    if t.region = region ∨ region = 0 then (t.chain.find? (fun c => c.2 = region)).map (fun c => c.1) else none)

/-- A control block of an OWNER's chain whose sector does not verify (R362). -/
def State.ownerBad (s : State) (d region : Nat) : Option TrapInfo :=
  match s.knownRcb region with
  | none => none
  | some a =>
    match s.readChain d 8 a a 0x10000 with
    | .error t => if t.event.isSome then some t else none
    | .ok _ => none

def State.touchOwner (s : State) (d region : Nat) : State :=
  match s.knownRcb region with
  | none => s
  | some a => s.touchChain d a

/-- PARTB and PARTK of an OWNER; none where no scheduler knows the region. -/
def State.ownerPart (s : State) (d region : Nat) : Option (Nat × Nat) :=
  match s.knownRcb region with
  | none => none
  | some a =>
    match s.readChain d 8 a a 0x10000 with
    | .error _ => some (0, 9)
    | .ok l => some ((effOf l).partb, (effOf l).partk)

end Sys2Proof.Machine
end

