-- ==== Sys2Proof/Machine/System.lean ====
section
/-! DEFINITION. System registers (R183, R225, R308, R331, R349, R360, R367, R368, R371, R376, R377), TLBI (R184), OBJDEF
(R185, R213), GENB (R186), PERF (R187) and UNPIN (R188). -/

namespace Sys2Proof.Machine

/-! Registers. -/

def bitsWord (l : List (Nat × Nat)) : Word :=
  BitVec.ofNat 64 (l.foldl (fun n x => n + x.1 * 2 ^ x.2) 0)

def Ctx.xcause (x : Ctx) : Word := bitsWord [(x.xcode.toNat, 0), (x.xlen.toNat, 16)]
def Ctx.xstate (x : Ctx) : Word := BitVec.ofNat 64 (bit1 x.xact 0 + bit1 x.xpm 1)

def State.cwin (s : State) (p : Nat) : Word :=
  let x := s.ctx p
  let c := s.core (p / 16)
  bitsWord [(x.v.blocks, 0), (x.s.blocks, 8), (c.g.blocks, 16), (c.h.blocks, 24)]

/-- The value SYSRD returns. -/
def State.sysVal (s : State) (p : Nat) (r : SysReg) : Word :=
  let x := s.ctx p
  let c := p / 16
  let d := coreDie c
  let k := s.core c
  match r with
  | .cwin => s.cwin p
  | .wlim => x.wlim.setWidth 64
  | .flg => x.flg
  | .spx => x.spx.setWidth 64
  | .spc => x.spc.setWidth 64
  | .splim => BitVec.ofNat 64 (s.splim c)
  | .sra => x.sra
  | .wsp => match k.task with | none => 0 | some t => t.wsp
  | .rpr => k.rpr.setWidth 64
  | .xstate => x.xstate
  | .xpc => x.xpc
  | .xcause => x.xcause
  | .xaddr => x.xaddr
  | .xinfo => x.xinfo
  | .xlm => x.xlm
  | .xb q => Tab.get 0 x.xb q.toNat
  | .cycle => BitVec.ofNat 64 (s.cycleOf c)
  | .efcr => k.efcr
  | .efca => k.efca
  | .efmr => k.efmr
  | .efma => k.efma
  | .rtn n => (Tab.get Rtn.free (s.die d).rtn n.toNat).val
  | .atbl => (s.die d).atbl
  | .shst => (s.die d).shst
  | .evbase => s.evbase
  | .evctl => s.evctl
  | .hcfg => (s.die d).hcfg
  | .iocfg n => Tab.get 0 s.iocfg n.val
  | .inga n => Tab.get 0 s.inga n.toNat
  | .ingl n => Tab.get 0 s.ingl n.toNat
  | .ingc n => Tab.get 0 s.ingc n.toNat
  | .gov => bitsWord [((s.die d).used % 65536, 0), ((s.die d).budget % 65536, 16), ((s.die d).basel % 65536, 32)]
  | .kreq => s.keyReq.setWidth 64

/-- Bits lo + n - 1 to lo of a word, in place. -/
def keep (w : Word) (l : List (Nat × Nat)) : Word :=
  BitVec.ofNat 64 (l.foldl (fun a x => a + bitsAt w.toNat x.1 x.2 * 2 ^ x.1) 0)

/-- A register after SYSWR's plain row; reserved bits of the value are dropped (R183). -/
def State.sysSet (s : State) (p : Nat) (r : SysReg) (w : Word) : State :=
  let c := p / 16
  let ctx := fun (f : Ctx → Ctx) => s.modCtx p f
  let core := fun (f : Core → Core) => s.modCore c f
  match r with
  | .wlim => ctx (fun x => { x with wlim := w.setWidth 32 })
  | .flg => ctx (fun x => x.setFlg w)
  | .spx => ctx (fun x => { x with spx := w.setWidth 6 })
  | .spc => ctx (fun x => { x with spc := w.setWidth 25 })
  | .wsp => core (fun x => { x with task := x.task.map (fun t => { t with wsp := w }) })
  | .rpr => core (fun x => { x with rpr := w.setWidth 6 })
  | .xstate => ctx (fun x => { x with xpm := bitAt w.toNat 1 })
  | .xpc => ctx (fun x => { x with xpc := w, xcounted := x.xcounted && decide (w = x.xpc) })
  | .xlm => ctx (fun x => { x with xlm := w })
  | .xb q => ctx (fun x => { x with xb := Tab.set 0 x.xb q.toNat w })
  | .efcr => core (fun x => { x with efcr := keep w [(62, 2), (32, 4), (24, 8), (0, 16)] })
  | .efca => core (fun x => { x with efca := w })
  | .efmr => core (fun x => { x with efmr := keep w [(62, 2), (32, 4), (24, 8), (0, 5)] })
  | .efma => core (fun x => { x with efma := w })
  | .atbl => s.modDie (coreDie c) (fun x => { x with atbl := keep w [(15, 33), (0, 1)] })
  | .evbase => { s with evbase := keep w [(6, 58)] }
  | .evctl => { s with evctl := keep w [(8, 1), (0, 5)] }
  | .iocfg n => { s with iocfg := Tab.set 0 s.iocfg n.val (keep w [(62, 2), (0, 12)]) }
  | .inga n => { s with inga := Tab.set 0 s.inga n.toNat (keep w [(63, 1), (20, 37)]) }
  | .ingl n => { s with ingl := Tab.set 0 s.ingl n.toNat w }
  | .ingc n => { s with ingc := Tab.set 0 s.ingc n.toNat w }
  | _ => s

/-- SYSRD and SYSWR of FLG wait for every earlier instruction's flags, SCAT's among them (R77, R183). -/
def State.flagsSettled (s : State) (p : Nat) : Bool :=
  !s.hasWB p && (s.earlier p s.nextId).all (fun f => match f.op with | .scat _ _ _ => f.allDone | _ => true)

def execSysrd (f : SysRdF) (s : State) : Res :=
  .next (s.issue (.sysrd f) (fun s =>
    if f.reg = .flg ∧ !s.flagsSettled s.cur then .stall
    else s.write1 (.sysrd f) f.d (fun _ => fit64 f.d (s.sysVal s.cur f.reg).toNat)))

/-- The read and the clearing of the flags are one event (R77). -/
def execSysrdClr (f : DstF) (s : State) : Res :=
  .next (s.issue (.sysrdClr f) (fun s =>
    if !s.flagsSettled s.cur then .stall
    else
      let w := s.lanesWrite f.h f.d (fun _ => fit64 f.d (s.ctx s.cur).flg.toNat)
      let t := s.produce (.sysrdClr f) [w] [] .none
      .go (if w.vals = [] then t else t.modCtx s.cur (fun x => { x with flags := .none }))))

def execSyswr (f : SysWrF) (s : State) : Res :=
  .next (s.issue (.syswr f) (fun s =>
    if f.reg = .flg ∧ !s.flagsSettled s.cur then .stall
    else .go (if s.guarded f.h then s.sysSet s.cur f.reg (s.t64 f.a) else s)))

/-- A retention register: at most 8 ways in all (R225, R226). -/
def execSyswrRtn (f : SysWrRtnF) (s : State) : Res :=
  .next (s.issue (.syswrRtn f) (fun s =>
    let d := coreDie s.curCore
    let who := s.who s.cur
    let r : Rtn := ⟨keep (s.t64 f.a) [(60, 4), (12, 45), (0, 12)], who.region, who.asid, 0⟩
    let t := Tab.set Rtn.free (s.die d).rtn f.n.toNat r
    if 8 < rtnTotal t then .trap (tProt 0 10)
    else .go (if s.guarded f.h then s.setRtn d (rtnLay t) else s)))

/-- HCFG: MIRR changes the Mirror carve and the local share (R221, R223, R368). -/
def execSyswrHcfg (f : SrcF) (s : State) : Res :=
  .next (s.issue (.syswrHcfg f) (fun s =>
    let d := coreDie s.curCore
    let old := (s.die d).hcfg
    let v := keep (s.t64 f.a) [(8, 6)] ||| keep old [(0, 7)]
    if 16 < hcfgMirr v ∨ 96 < hcfgIntl v + hcfgMirr v then .trap (tProt 0 10)
    else if !s.guarded f.h then .go s
    else
      .go (s.modDie d (fun x =>
        if hcfgMirr old = hcfgMirr v then { x with hcfg := v }
        else
          { x with
            hcfg := v, mirror := [], mfills := x.mfills.map (fun m => { m with cancelled := true }) }))))

/-- SHST: the slots must lie in the die's local share (R349). -/
def execSyswrShst (f : SrcF) (s : State) : Res :=
  .next (s.issue (.syswrShst f) (fun s =>
    let d := coreDie s.curCore
    let v := keep (s.t64 f.a) [(21, 27), (0, 12)]
    let base := bitsAt v.toNat 21 27 * 2 ^ 21
    let n := bitsAt v.toNat 0 12
    let lo := 2 ^ 44 + d * 2 ^ 40
    if n ≠ 0 ∧ ¬(lo ≤ base ∧ base + n * 2 ^ 21 ≤ lo + s.localShare d) then .trap (tProt 0 10)
    else .go (if s.guarded f.h then s.modDie d (fun x => { x with shst := v }) else s)))

/-- The sectors of a copy under a key are under a replaced one from now on. -/
def MirrorCopy.rekey (m : MirrorCopy) (a : BitVec 12) (n : Nat) : MirrorCopy :=
  { m with keys := m.keys.map (fun k => if k.1 = some a ∧ k.2 = none then (k.1, some n) else k) }

/-- A new key for an ASID: sectors of memory and of Mirror copies that were written under the old one are stale (R376). -/
def State.rekey (s : State) (a : BitVec 12) : State :=
  let n := s.freeCtr
  let old := (s.keyIdx.filter (fun e => e.2 = some a && (Tab.get none s.stale e.1).isNone)).map (fun e => e.1)
  let s := (List.range 8).foldl (fun t d => t.modDie d (fun x =>
    { x with
      mirror := x.mirror.map (fun m => m.rekey a n)
      mfills := x.mfills.map (fun f => { f with copy := f.copy.rekey a n }) })) s
  { s with keyReq := a, stale := Tab.setMany none s.stale (old.map (fun x => (x, some n))) }

/-- KREQ: the context issues nothing more until every controller uses the new key: it forfeits a finite number of slots, as
other holds do (R345, R376, log 126). -/
def execSyswrKreq (f : SrcF) (s : State) : Res :=
  .next (s.issue (.syswrKreq f) (fun s =>
    if !s.guarded f.h then .go s
    else
      .go ((s.rekey ((s.t64 f.a).setWidth 12)).useFree.modCtx s.cur (fun x =>
        { x with forfeits := 1 + Config.latency s.freeCtr }))))

/-! TLBI (R184, R337). -/

/-- Entries a TLBI matches. -/
inductive TlbSel | all | asid (a : Nat) | va (a : Nat) (va : Word)
deriving DecidableEq, Repr

def TlbSel.hits (t : TlbSel) (e : TlbEntry) : Bool :=
  match t with
  | .all => true
  | .asid a => e.asid = a
  | .va a v => e.serves a v

/-- Cores of a scope around a core. -/
def inScope (sc : Scope) (c t : Nat) : Bool :=
  match sc with
  | .core => t = c
  | .die => coreDie t = coreDie c
  | .pkg | .sys => true

def State.scopeDies (sc : Scope) (c : Nat) : List Nat :=
  match sc with
  | .core => []
  | .die => [coreDie c]
  | .pkg | .sys => List.range 8

/-- An access within the scope that uses a matching entry has not performed yet: one of a context, or the reads or the write
of an engine's packet. -/
def State.tlbiBusy (s : State) (sc : Scope) (c : Nat) (t : TlbSel) : Bool :=
  s.flights.any (fun f => inScope sc c f.core && f.parts.any (fun q => !q.done && q.page.any t.hits))
    || s.cores.any (fun e => inScope sc c e.1 && e.2.packets.any (fun k =>
      k.dstPage.any t.hits || (k.stage = .issued && k.srcPages.any t.hits)))

/-- A walk that could install a matching entry. -/
def TlbSel.walks (t : TlbSel) (w : Walk) : Bool :=
  match t with
  | .all => true
  | .asid a => w.asid = a
  | .va a v => w.asid = a && decide (w.page / 16384 = pageOf v / 16384)

/-- The core whose context or command makes a counter update. -/
def CtrUp.core (u : CtrUp) : Option Nat :=
  match u.who with
  | .copy c _ | .mat c _ _ => some c
  | .control _ | .ingest => none

/-- A context or a command that waits for a walk lies in a scope. -/
def Walker.inScope (sc : Scope) (c : Nat) (w : Walker) : Bool :=
  match w with
  | .ctx p => Sys2Proof.Machine.inScope sc c (p / 16)
  | .copy k _ | .mat k _ => Sys2Proof.Machine.inScope sc c k
  | .ctr _ => sc ≠ .core

def WalkRes.keptBy (r : WalkRes) (t : TlbSel) : Bool := !r.leaf.any t.hits

/-- Translations that instructions and commands of a core hold before they use them go with the entries. -/
def Core.forget (x : Core) (t : TlbSel) : Core :=
  { x with
    tlb := x.tlb.filter (fun e => !t.hits e)
    copies := x.copies.map (fun m => { m with xl := m.xl.filter (fun r => r.keptBy t) })
    mats := x.mats.map (fun m => { m with xl := m.xl.filter (fun r => r.keptBy t) }) }

/-- The same of a counter update of a core in the scope. -/
def CtrUp.forget (u : CtrUp) (sc : Scope) (c : Nat) (t : TlbSel) : CtrUp :=
  if u.core.any (inScope sc c) then { u with xl := u.xl.filter (fun r => r.keptBy t) } else u

/-- Entries leave the TLBs within the scope, with the translations that contexts, commands and counter updates hold, and walks in
flight that could install one are discarded; those that wait for them walk again (R184). -/
def State.tlbRemove (s : State) (sc : Scope) (c : Nat) (t : TlbSel) : State :=
  let s : State := { s with ctrUps := s.ctrUps.map (fun u => u.forget sc c t) }
  let s := s.coreNums.foldl (fun a n => if inScope sc c n then a.modCore n (fun x => x.forget t) else a) s
  let s := s.ctxs.foldl (fun a e =>
    if inScope sc c (e.1 / 16) then
      a.modCtx e.1 (fun x => { x with xl := x.xl.filter (fun r => r.keptBy t) }) else a) s
  let s := (State.scopeDies sc c).foldl (fun a d =>
    a.modDie d (fun x => { x with tlb := x.tlb.filter (fun e => !t.hits e) })) s
  (List.range 8).foldl (fun a d => a.modDie d (fun x =>
    { x with walks := x.walks.filter (fun w =>
        !(t.walks w && ((State.scopeDies sc c).contains d || w.waiters.any (fun q => q.inScope sc c)))) })) s

/-- TLBI holds until the context's stores are visible at their homes and accesses with matching entries have performed. -/
def tlbi (h : Hdr) (sc : Scope) (sel : State → TlbSel) (s : State) : Act :=
  let t := sel s
  if !s.guarded h then .go s
  else if !s.drained s.cur ∨ s.tlbiBusy sc s.curCore t then .stall
  else .go (s.tlbRemove sc s.curCore t)

def execTlbiAll (f : TlbiAllF) (s : State) : Res :=
  .next (s.issue (.tlbiAll f) (tlbi f.h f.scope (fun _ => .all)))
def execTlbiAsid (f : TlbiAsidF) (s : State) : Res :=
  .next (s.issue (.tlbiAsid f) (tlbi f.h f.scope (fun s => .asid (s.u64 s.cur f.asid % 4096))))
def execTlbiVa (f : TlbiVaF) (s : State) : Res :=
  .next (s.issue (.tlbiVa f) (tlbi f.h f.scope (fun s => .va (s.u64 s.cur f.asid % 4096) (s.t64 f.va))))

/-! Objects (R185, R213, R214). -/

def Block.dims (b : Block) : List Nat := (List.range 4).map (fun k => b.at (8 + 4 * k) 32)
def Block.strides (b : Block) : List Nat := (List.range 4).map (fun k => b.at (24 + 8 * k) 64)

def blockFmt (n : Nat) : Option BFmt :=
  [BFmt.fp32, .fp16, .bf16, .e4m3, .e5m2, .e2m1, .i8, .i4].find? (fun f => f.code = n)

/-- The bytes an object covers (R214). -/
def Block.extent (b : Block) : Nat :=
  let kind := b.at 56 8 / 64
  let efmt := b.at 56 8 % 32
  let e := if kind = 0 then
      ((b.dims.zip b.strides).foldl (fun n x => n + (x.1 - 1) * x.2) 0) + 2 ^ efmt
    else
      let n := match blockFmt efmt with | none => 1 | some f => f.count
      64 * ((b.dims.foldl (fun n x => n * x) 1 + n - 1) / n)
  (e + 255) / 256 * 256

/-- The offset of the first rejected field of a shape record (R213). -/
def State.shapeErr (s : State) (d : Nat) (b : Block) : Option Nat :=
  let chk := fun (ok : Bool) (off : Nat) => if ok then none else some off
  let v := b.at
  let k := v 56 8
  let a := v 57 8
  let kind := k / 64
  let efmt := k % 32
  ([chk (v 0 64 % 256 = 0 && canonical (BitVec.ofNat 64 (v 0 64))) 0,
    chk (1 ≤ v 8 32) 8, chk (1 ≤ v 12 32) 12, chk (1 ≤ v 16 32) 16, chk (1 ≤ v 20 32) 20,
    chk (kind ≤ 1 && !bitAt k 5 && (if kind = 0 then efmt ≤ 4 else (blockFmt efmt).isSome)) 56,
    chk (a / 16 = 0 && (bitAt a 3 = (kind = 1)) && (!bitAt a 1 || (bitAt a 0 && kind = 0))) 57,
    chk (v 58 8 = 0xFF || v 58 8 ≤ 7) 58,
    chk (v 59 8 = 0) 59,
    chk ((s.ownerPart d (v 60 16)).isSome) 60,
    chk (bitsAt (v 62 16) 12 4 = 0) 62] : List (Option Nat)).findSome? id

def State.objOf (s : State) (d : Nat) (b : Block) : Obj :=
  let a := b.at 57 8
  let q := (s.ownerPart d (b.at 60 16)).getD (0, 9)
  { base := BitVec.ofNat 64 (b.at 0 64), size := b.extent, described := if bitAt a 3 then some (b.at 56 8 % 32) else none
    mirrorable := bitAt a 2, aged := bitAt a 1, writable := bitAt a 0, home := b.at 58 8, asid := b.at 62 12
    partb := q.1, partk := q.2 }

def State.overlapsObj (s : State) (o : Obj) : Bool :=
  s.objs.any (fun e => match e.2 with
    | none => false
    | some x => x.asid = o.asid && overlaps x.base.toNat x.size o.base.toNat o.size)

/-- Bytes of an object, 64 KiB page by page: first byte and length. -/
def Obj.pages (o : Obj) : List (Word × Nat) :=
  let first := o.base.toNat / 65536
  let last := (o.base.toNat + o.size - 1) / 65536
  (List.range (last - first + 1)).map (fun k =>
    let lo := max o.base.toNat ((first + k) * 65536)
    let hi := min (o.base.toNat + o.size) ((first + k + 1) * 65536)
    (BitVec.ofNat 64 lo, hi - lo))

/-- Who translates an object's pages: the issuing context, in the object's address space. -/
def State.objWho (s : State) (o : Obj) : Who := { s.who s.cur with asid := o.asid }

/-- A page of the object is still to be walked for, or an entry that a walk met does not verify (R335, R362). -/
def State.objHeld (s : State) (o : Obj) : Option TrapInfo :=
  o.pages.findSome? (fun x =>
    match s.findXlat (s.objWho o) x.1 with
    | .error e => if 0x100 ≤ e.cause then some (e.info x.1) else none
    | .ok _ => none)

/-- Physical ranges of an object's pages, where they are mapped to device memory. -/
def State.objRanges (s : State) (id : Nat) (o : Obj) : List AgedRange :=
  o.pages.filterMap (fun x =>
    match s.findXlat (s.objWho o) x.1 with
    | .error _ => none
    | .ok e =>
      let pa := e.pa_ x.1
      if s.inDevice pa then some ⟨id, pa, x.2⟩ else none)

def AgedRange.holds (r : AgedRange) (pa : Nat) : Bool := decide (r.start ≤ pa) && decide (pa < r.start + r.len)

/-- Define an object: of an aged one every block, found at its ranges, is marked and its stamp is 0 (R185, R253). -/
def State.objAdd (s : State) (id : Nat) (o : Obj) (r : List AgedRange) : State :=
  let s := { s with objs := Tab.set none s.objs id (some o) }
  if !o.aged then s
  else
    { s with
      aged := s.aged ++ r, stamps := Tab.drop (fun b => r.any (fun x => x.holds (64 * b))) s.stamps }

/-- Clear an object: Mirror copies and L1 lines of its lines go; of an aged one the marks and stamps go, and AGLDs parked
on a block of it are answered with the clear (R185, R210, R253). -/
def State.objDrop (s : State) (id : Nat) (o : Obj) : State :=
  let r := s.objRanges id o ++ s.aged.filter (fun x => x.obj = id)
  let inLine := fun line => r.any (fun x => overlaps x.start x.len (256 * line) 256)
  let s := s.coreNums.foldl (fun t c => t.modCore c (fun x =>
    { x with
      l1 := x.l1.filter (fun l => !inLine l.line)
      fills := x.fills.map (fun f => if inLine f.line then { f with cancelled := true } else f) })) s
  let s := (List.range 8).foldl (fun t e => t.modDie e (fun x =>
    { x with
      mirror := x.mirror.filter (fun m => !inLine m.line)
      mfills := x.mfills.map (fun m => if inLine m.copy.line then { m with cancelled := true } else m) })) s
  let s := { s with objs := Tab.set none s.objs id none }
  if !o.aged then s
  else
    let gone := s.aged.filter (fun x => x.obj = id)
    let hit := fun (q : Part) => gone.any (fun x => x.holds q.key)
    { s with
      aged := s.aged.filter (fun x => x.obj ≠ id)
      stamps := Tab.drop (fun b => gone.any (fun x => x.holds (64 * b))) s.stamps
      flights := s.flights.map (fun f => match f.op, f.parked with
        | .agld .., some _ =>
          { f with parts := f.parts.map (fun q => if hit q && !q.done then { q with done := true, code := 2 } else q) }
        | _, _ => f) }

/-- Checks of a shape record, in their order: its place, its sector, its fields; the OWNER's control blocks are read for the field
that names it (R185, R213). -/
def State.readShape (s : State) (va : Word) : Except TrapInfo (Place × Block) :=
  let d := coreDie s.curCore
  if va.toNat % 64 ≠ 0 then .error (tAlign va 64)
  else
    match s.place (s.who s.cur) .ld va 64 with
    | .error t => .error t
    | .ok pl =>
      let b : Block := ⟨va, s.word pl.key 64⟩
      match s.badBytes [pl.key] with
      | some k => .error ⟨0x100 + k, BitVec.ofNat 64 pl.key, va⟩
      | none =>
        match s.shapeErr d b, s.ownerBad d (b.at 60 16) with
        | some off, bad => .error (if off < 60 then tField va off else bad.getD (tField va off))
        | none, some t => .error t
        | none, none => .ok (pl, b)

/-- What reading a shape record, and the control blocks of its OWNER where its fields before that are good, leaves (R207). -/
def State.touchShape (s : State) (va : Word) : State :=
  let d := coreDie s.curCore
  match s.place (s.who s.cur) .ld va 64 with
  | .error _ => s
  | .ok pl =>
    let b : Block := ⟨va, s.word pl.key 64⟩
    let t := (s.keepPlace (s.who s.cur) pl).touch (s.who s.cur).asid [⟨va, pl.key, 64⟩] false .normal
    if (s.badBytes [pl.key]).isSome ∨ ((s.shapeErr d b).any (fun off => decide (off < 60))) then t else t.touchOwner d (b.at 60 16)

/-- The slice of a shape record takes the request to read it, or refuses it or holds it back (R220). -/
def State.askShape (s : State) (va : Word) : Bool × State :=
  if va.toNat % 64 ≠ 0 then (true, s)
  else
    match s.place (s.who s.cur) .ld va 64 with
    | .error _ => (true, s)
    | .ok pl => s.askSlices s.cur (s.who s.cur).asid [⟨va, pl.key, 64⟩]

/-- OBJDEF: its checks come whatever its guard (R41, R185). The pages of an aged object are walked for before it is defined. -/
def execObjdef (f : ObjdefF) (s : State) : Res :=
  .next (s.issue (.objdef f) (fun s =>
    let d := coreDie s.curCore
    let rec_ := s.t64 f.rcd
    let id := s.u64 s.cur f.id % 65536
    if !(s.askShape rec_).1 then .hold (fun u => (u.askShape rec_).2)
    else
      let read := (s.askShape rec_).2.touchShape rec_
      match s.readShape rec_ with
      | .error t => if t.isMiss ∨ t.code = 0x0C then .trap t else .trapWith t read
      | .ok (_, b) =>
        let o := s.objOf d b
        if s.overlapsObj o then .trapWith (tProt rec_ 12) read
        else if (Tab.get none s.objs id).isSome then .trapWith (tProt rec_ 13) read
        else if !s.guarded f.h then .go read
        else
          match if o.aged then s.objHeld o else none with
          | some t => if t.isMiss then .trap t else .trapWith t read
          | none => .go (read.objAdd id o (s.objRanges id o))))

/-- OBJDEF.CLR (R185): the pages of the object are walked for before it is cleared. -/
def execObjdefClr (f : SrcF) (s : State) : Res :=
  .next (s.issue (.objdefClr f) (fun s =>
    let id := s.u64 s.cur f.a % 65536
    match Tab.get none s.objs id with
    | none => .go s
    | some o =>
      if !s.guarded f.h then .go s
      else
        match s.objHeld o with
        | some t => .trap t
        | none => .go (s.objDrop id o)))

/-! Generations, event counts, retention. -/

def execGenb (f : NulF) (s : State) : Res :=
  .next (s.issue (.genb f) (fun s => .go (if s.guarded f.h then s.raiseGen (coreDie s.curCore) else s)))

/-- An event count: kept per core, or for events 9 and 10 per die (R187). -/
def State.perfVal (s : State) (ev : Nat) : Word :=
  let d := s.die (coreDie s.curCore)
  if ev = 9 then d.overflow else if ev = 10 then d.agedDiscard else Tab.get 0 (s.core s.curCore).perf ev

def execPerf (f : PerfF) (s : State) : Res :=
  .next (s.issue (.perf f) (fun s => s.write1 (.perf f) f.d (fun _ => fit64 f.d (s.perfVal f.ev.toNat).toNat)))

/-- The read and the clearing of a count are one event. -/
def execPerfClr (f : PerfF) (s : State) : Res :=
  .next (s.issue (.perfClr f) (fun s =>
    let w := s.lanesWrite f.h f.d (fun _ => fit64 f.d (s.perfVal f.ev.toNat).toNat)
    let t := s.produce (.perfClr f) [w] [] .none
    .go (if w.vals = [] then t
      else t.modCore s.curCore (fun x => { x with perf := Tab.set 0 x.perf f.ev.toNat 0 }))))

/-- UNPIN (R188). A register is free where it holds what release leaves, all fields zero; one that another region's SYSWR wrote
otherwise belongs to that region, VALID or not (DEDUCED, log 137). -/
def execUnpin (f : OneF 3) (s : State) : Res :=
  .next (s.issue (.unpin f) (fun s =>
    let d := coreDie s.curCore
    let n := s.opImm s.cur f.v % 8
    let r := Tab.get Rtn.free (s.die d).rtn n
    if r ≠ Rtn.free ∧ r.region ≠ (s.who s.cur).region then .trap (tProt 0 9)
    else .go (if s.guarded f.h then s.modDie d (fun x => { x with rtn := Tab.set Rtn.free x.rtn n Rtn.free }) else s)))

end Sys2Proof.Machine
end

