-- ==== Sys2Proof/Machine/Homes.lean ====
section
/-! DEFINITION. Events at homes: reads (R139, R209, R222, R232 to R234), writes (R140, R141, R217), atomics (R155, R282),
waits on words (R160, R163, R276 to R278), granules (R147 to R149, R270 to R273), aged blocks (R255 to R263), and host
memory (R224, R240, R285). -/

namespace Sys2Proof.Machine

abbrev Ev := Host.Outcome State Fault Refusal

/-- An event on a part of an operation that is still to be performed. -/
def State.onPart (s : State) (id n : Nat) (g : Flight → Part → State) : State :=
  match s.flight id with
  | none => s
  | some f =>
    match f.part n with
    | none => s
    | some p => if p.done then s else (g f p).settle

/-- An event on the one part of an operation. -/
def State.onFlight (s : State) (id : Nat) (g : Flight → Part → State) : State := s.onPart id 0 g

/-- A request that has been sent and not refused, parked or held back. -/
def sent (f : Flight) (p : Part) : Bool :=
  !p.done && p.sendAt.isNone && !p.ticket && f.parked.isNone && f.resendAt.isNone

/-- An operation meets bytes whose sector does not verify: its task's domain is discarded (R362). -/
def State.badFor (s : State) (f : Flight) (p : Part) (kind : Nat) (keys : List Nat) : State :=
  s.discardFor kind (coreDie f.core) 0xFF f.region f.asid (s.badKey keys) p.va.toNat f.fdom

/-- A FILL that fails at a block: the reads of the later ones are dropped, and SPX names the block (R152). -/
def State.fillStop (s : State) (f : Flight) (p : Part) : State :=
  match f.op with
  | .fill .. =>
    let s := (s.flights.filter (fun g => f.fillBefore g && decide (f.id < g.id) && decide (ctxId g.core g.ctx = ctxId f.core f.ctx))).foldl
      (fun t g => (g.wb.elim t (t.cancelWB g.core)).dropFlight g.id) s
    s.modCtx (ctxId f.core f.ctx) (fun x => { x with spx := BitVec.ofNat 6 p.a })
  | _ => s

/-- An operation finds no share where it is applied: a load or a wait traps PROT, a store writes nothing (R271, log 38). -/
def State.noShare (s : State) (f : Flight) (n : Nat) (p : Part) : State :=
  if f.isLoad && (!f.isStore || f.dst.isSome) then (s.fillStop f p).trapFlight f (tProt p.va 8)
  else s.setFlight (f.setPart n { p with done := true })

/-- The object of a part's address now. -/
def State.partObj (s : State) (f : Flight) (p : Part) : Option Obj := (s.object f.asid p.va).map (fun x => x.2)

/-- An operation's access at a home slice, counted once for each line of an instruction (R219). -/
def State.homeAccess (s : State) (f : Flight) (p : Part) (keys : List Nat) (wr : Bool) (hint : Hint) : State :=
  s.l2Access (if f.lines.contains (p.key / 256) then none else some f.core) (s.partObj f p) f.asid p.va keys wr hint true

/-- The line of an access has been counted. -/
def Flight.note (f : Flight) (p : Part) : Flight :=
  if f.lines.contains (p.key / 256) then f else { f with lines := p.key / 256 :: f.lines }

/-- No request of an operation for a line has been refused: what a refused one meets again is not counted again (R220). -/
def Flight.firstAsk (f : Flight) (p : Part) : Bool :=
  f.parts.all (fun q => q.key / 256 ≠ p.key / 256 || q.refused = 0)

/-- An uncorrectable error in the queue entry of a store, met by what consumes it (R358). -/
def State.badEntry (s : State) (f : Flight) : Bool := s.ueCmds.contains f.id

/-- Its task's domain is discarded; no address is known. -/
def State.failEntry (s : State) (f : Flight) : State :=
  { s with ueCmds := s.ueCmds.filter (fun n => n ≠ f.id) }.discardFor 1 (coreDie f.core) 0xFF f.region f.asid scratchBase 0 f.fdom

/-! Reads. -/

/-- Parts performed together with a value of each. -/
def Flight.perform (f : Flight) (idx : List Nat) (v : Part → Nat) : Flight :=
  { f with parts := f.parts.zipIdx.map (fun x => if x.2 ∈ idx then { x.1 with done := true, res := v x.1 } else x.1) }

/-- The bytes of a part in its line. -/
def lineVal (d : BitVec 2048) (p : Part) : Nat := bitsAt d.toNat (8 * (p.key % 256)) (8 * p.len)

/-- Accesses of an operation on one line that can perform now. -/
def State.mates (s : State) (f : Flight) (line : Nat) : List Nat :=
  (f.parts.zipIdx.filter (fun x =>
    !x.1.done && x.1.key / 256 = line && s.ready f x.1 && s.forward f x.1 = .clear)).map (fun x => x.2)

def Core.useL1 (x : Core) (l : L1Line) : Core := { x with l1 := l :: x.l1.filter (fun y => y.line ≠ l.line) }

/-- A store queue of a core holds a store to a line. -/
def State.storeHeld (s : State) (c line : Nat) : Bool :=
  s.flights.any (fun g => g.core = c && g.isStore && g.parts.any (fun q => !q.done && q.key / 256 = line))

/-- A core's L1 holds a line. -/
def Core.holdsL1 (x : Core) (line : Nat) : Bool := x.l1.any (fun l => l.line = line)

/-- A line read for L1 is on its way, unless a store queue of the core holds a store to it: the bytes read then are older
than that store, and are never installed (R209, R233, R234). -/
def State.askL1 (s : State) (c line : Nat) (d : BitVec 2048) (flagged : Bool) : State :=
  if s.storeHeld c line then s
  else s.fresh.modCore c (fun x => { x with fills := x.fills ++ [⟨s.nextId, line, d, flagged, false⟩] })

/-- A line read for the Mirror carve is on its way (R222, R263). -/
def State.askMirror (s : State) (d : Nat) (m : MirrorCopy) (aged : Bool) : State :=
  s.fresh.modDie d (fun x => { x with mfills := x.mfills ++ [⟨s.nextId, m, aged, false⟩] })

/-- A current Mirror copy of a line (R221). -/
def Die.current (x : Die) (line : Nat) : Option MirrorCopy := x.mirror.find? (fun m => m.line = line && m.gen = x.gen)

/-- A part may be served by L1; its line is flagged there; a Mirror copy may serve it. -/
def Part.mayL1 (p : Part) : Bool := bitAt p.b 0
def Part.flagged (p : Part) : Bool := bitAt p.b 1
def Part.mayMirror (p : Part) : Bool := bitAt p.b 2
def Part.allocs (p : Part) : Bool := bitAt p.b 3

/-- Key index of each sector of a line, with the number of its replacement (R376). -/
def State.lineKeys (s : State) (line : Nat) : List (Option (BitVec 12) × Option Nat) :=
  (List.range 4).map (fun j => (Tab.get none s.keyIdx (4 * line + j), Tab.get none s.stale (4 * line + j)))

/-- The kind of device event that a consumer of a copy's sector meets: an uncorrectable error, or a check value that came with it and
is not that of its bytes, or a replaced key (R358, R362, R376). -/
def MirrorCopy.badSector (m : MirrorCopy) (cycle x : Nat) : Option Nat :=
  if Tab.get false m.ue (x % 4) then some 1
  else if staleNow ((m.keys.getD (x % 4) (none, none)).2) x cycle || decide (Tab.get 0 m.diff (x % 4) ≠ 0) then some 2
  else none

/-- The first of some bytes of a copy whose sector does not verify, with the kind of its event. -/
def MirrorCopy.badAt (m : MirrorCopy) (cycle : Nat) (keys : List Nat) : Option (Nat × Nat) :=
  keys.findSome? (fun k => (m.badSector cycle (k / 64)).map (fun e => (k, e)))

/-- An operation meets such a sector of a copy: its task's domain is discarded (R362). -/
def State.badCopyFor (s : State) (f : Flight) (p : Part) (e : Nat × Nat) : State :=
  s.discardFor e.2 (coreDie f.core) 0xFF f.region f.asid e.1 p.va.toNat f.fdom

/-- A load reads its line at its home, with the fills it makes of it. -/
def State.loadHome (s : State) (f : Flight) (n : Nat) (p : Part) : State :=
  match s.enterSlice f n p with
  | (false, t) => t
  | (true, s) =>
    let line := p.key / 256
    let idx := s.mates f line
    let whole := p.allocs || p.mayMirror
    let ps := f.parts.zipIdx.filter (fun x => x.2 ∈ idx)
    let keys := if whole then keysOf (256 * line) 256 else ps.flatMap (fun x => keysOf x.1.key x.1.len)
    match s.badBytes keys with
    | some k => s.badFor f p k keys
    | none =>
      let s := s.homeAccess f p keys false f.hint
      let f := f.note p
      if whole then
        let d := s.line line
        let s := if p.allocs then s.askL1 f.core line d p.flagged else s
        let s := if p.mayMirror then s.askMirror (coreDie f.core) ⟨line, d, [], f.gen, s.lineKeys line, [], []⟩ false else s
        s.setFlight (f.perform idx (lineVal d))
      else s.setFlight (f.perform idx (fun q => s.word q.key q.len))

/-- A load past L1: the Mirror copy where it may serve it, else the home. -/
def State.loadMirror (s : State) (f : Flight) (n : Nat) (p : Part) : State :=
  if !p.mayMirror then s.loadHome f n p
  else
    let line := p.key / 256
    match (s.die (coreDie f.core)).current line with
    | none => (if f.firstAsk p then s.count f.core 8 1 else s).loadHome f n p
    | some m =>
      let s := if f.firstAsk p then s.count f.core 7 1 else s
      let idx := s.mates f line
      let keys := if p.allocs then keysOf (256 * line) 256
        else (f.parts.zipIdx.filter (fun x => x.2 ∈ idx)).flatMap (fun x => keysOf x.1.key x.1.len)
      match m.badAt s.cycle keys with
      | some e => s.badCopyFor f p e
      | none =>
        let s := if p.allocs then s.askL1 f.core line m.data p.flagged else s
        s.setFlight (f.perform idx (lineVal m.data))

/-- A load reads a line: from L1, or past it (R232, R233). -/
def State.loadLine (s : State) (f : Flight) (n : Nat) (p : Part) : State :=
  if !p.mayL1 then s.loadMirror f n p
  else
    let line := p.key / 256
    match (s.core f.core).l1.find? (fun l => l.line = line) with
    | none => (if f.firstAsk p then s.count f.core 4 1 else s).loadMirror f n p
    | some l =>
      let s := (if f.firstAsk p then s.count f.core 3 1 else s).modCore f.core (fun x => x.useL1 l)
      s.setFlight (f.perform (s.mates f line) (lineVal l.data))

/-- A home of waits: a slice, or a scratchpad. -/
def State.homeId (s : State) (f : Flight) (p : Part) : Nat :=
  match s.partSlice f p with
  | some k => k
  | none => 2 ^ 20 + (p.key - scratchBase) / 2 ^ 21

def isLdf (op : FlOp) : Bool :=
  match op with
  | .ldf _ => true
  | _ => false

/-! Granule waits (R147, R272). -/

/-- One part read at an instant. -/
def State.gather (s : State) (f : Flight) (n : Nat) (p : Part) : Flight :=
  f.setPart n { p with done := true, res := s.word p.key p.len }

/-- LDF reads its full granule, and under .wfc empties it. -/
def State.ldfRead (s : State) (f : Flight) (p : Part) : State :=
  match s.badBytes (keysOf p.key p.len) with
  | some k => s.badFor f p k (keysOf p.key p.len)
  | none =>
    let s := s.setFlight { s.gather f 0 p with resendAt := none }
    match f.op with
    | .ldf true => s.setTag p.key false
    | _ => s

/-- The LDF that has waited longest at a granule, in the order of entry. -/
def State.firstWaiter (s : State) (g : Nat) : Option (Flight × Part) :=
  let waits := s.flights.filter (fun f =>
    f.parked.isSome && !f.allDone && isLdf f.op && f.parts.any (fun p => granule p.key = g))
  match waits.mergeSort (fun a b => decide (a.parked.getD 0 ≤ b.parked.getD 0)) with
  | [] => none
  | f :: _ => (f.part 0).map (fun p => (f, p))

/-- Serve waiters of a full granule until none is left or it is empty. One that may not reach the share now there traps (R271). -/
def State.serve (s : State) (g : Nat) : Nat → State
  | 0 => s
  | n + 1 =>
    if Tab.get false s.emptyTags g then s
    else
      match s.firstWaiter g with
      | none => s
      | some (f, p) => State.serve (if s.reaches f p.key then s.ldfRead f p else s.noShare f 0 p) g n

/-- A granule becomes full and serves its waiters in the same event. -/
def State.fillGranule (s : State) (g : Nat) : State :=
  (s.setTag (16 * g) true).serve g (s.flights.length + 1)

/-! Waits on words at their atomic points. -/

/-- Waits of a kind at a home. -/
def State.waitsAt (s : State) (kind : FlOp → Bool) (h : Nat) : Nat :=
  (s.flights.filter (fun g => kind g.op && g.parked.isSome && !g.allDone && g.parts.any (fun q => s.homeId g q = h))).length

/-- A wait enters the table of its home, or with none free is to be sent again after 256 cycles (R147, R277). -/
def State.parkOr (s : State) (kind : FlOp → Bool) (f : Flight) (p : Part) : State :=
  if s.waitsAt kind (s.homeId f p) < 64 then s.fresh.setFlight { f with parked := some s.nextId, resendAt := none }
  else s.setFlight { f with resendAt := some (s.cycle + 256) }

/-- A WAITC or WAITF reads its word at the atomic point (R160, R163). -/
def State.watchArrive (s : State) (f : Flight) (p : Part) : State :=
  match s.enterSlice f 0 p with
  | (false, t) => t
  | (true, s) =>
    let keys := keysOf p.key p.len
    match s.badBytes keys with
    | some k => s.badFor f p k keys
    | none =>
      let s := s.homeAccess f p keys false .normal
      let f := f.note p
      match watchTest f.op (s.word p.key p.len) with
      | some r => s.setFlight { f with resendAt := none, parts := [{ p with done := true, code := r }] }
      | none => s.parkOr isWatch f p

def FlOp.reads (op : FlOp) : Bool :=
  match op with
  | .load | .cntrd | .gath .. | .fill .. | .waitc .. | .waitf .. => true
  | _ => false

/-- A read may arrive at its home. -/
def State.mayRead (s : State) (f : Flight) (p : Part) : Bool :=
  f.op.reads && sent f p && s.ready f p && s.forward f p ≠ .wait

/-- A load takes its bytes from the context's own store queue: every lane of the same bytes takes them in the same event
(R133, R234). -/
def State.takeForward (s : State) (f : Flight) (p : Part) (v : Nat) : State :=
  s.setFlight (f.perform ((f.parts.zipIdx.filter (fun x => !x.1.done && x.1.key = p.key)).map (fun x => x.2)) (fun _ => v))

/-- Bytes that a load takes from the store queue; an error in an entry that gives some of them is met there (R358). -/
def State.forwarded (s : State) (f : Flight) (p : Part) (v : Nat) : State :=
  match (s.before f).find? (fun e => e.isStore && !e.allDone && e.touches p.key p.len && s.badEntry e) with
  | some e => s.failEntry e
  | none => s.takeForward f p v

/-- HOME_READ (R217). -/
def execHomeRead (id n : Nat) (s : State) : Ev :=
  .next (s.onPart id n (fun f p =>
    if !s.mayRead f p ∨ isHost p.key then s
    else if !s.reaches f p.key then s.noShare f n p
    else
      match s.forward f p with
      | .value v => s.forwarded f p v
      | _ => if isWatch f.op then s.watchArrive f p else s.loadLine f n p))

/-- L1_FILL: the line is installed unless an invalidation cancelled it, a store to it is queued, or L1 holds it, for a line
leaves L1 in no such way (R209, R233, R241). Its set is that of the line's number (log 16). -/
def execL1Fill (c k : Nat) (s : State) : Ev :=
  .next (match (s.core c).fills.find? (fun f => f.id = k) with
    | none => s
    | some f =>
      let queued := s.storeHeld c f.line
      s.modCore c (fun x =>
        let x := { x with fills := x.fills.filter (fun g => g.id ≠ k) }
        if f.cancelled ∨ queued ∨ x.holdsL1 f.line then x
        else
          let x := x.useL1 ⟨f.line, f.data, f.flagged⟩
          let set := x.l1.filter (fun l => l.line % 1024 = f.line % 1024)
          { x with l1 := x.l1.filter (fun l => l.line % 1024 ≠ f.line % 1024) ++ set.take x.l1ways }))

/-- Lines the Mirror carve of a die holds (R221). -/
def State.carveLines (s : State) (d : Nat) : Nat := hcfgMirr (s.die d).hcfg * 4194304

/-- MIRROR_FILL: a copy of the die's generation is installed; an older one is discarded (R222, R223, R263). -/
def execMirrorFill (d k : Nat) (s : State) : Ev :=
  .next (match (s.die d).mfills.find? (fun f => f.id = k) with
    | none => s
    | some f =>
      s.modDie d (fun x =>
        let x := { x with mfills := x.mfills.filter (fun g => g.id ≠ k) }
        if f.cancelled ∨ f.copy.gen ≠ x.gen then x
        else { x with mirror := (f.copy :: x.mirror.filter (fun m => m.line ≠ f.copy.line)).take (s.carveLines d) }))

/-! Host memory (R224, R240). -/

/-- Host memory changes by the host's own writes, which are outside the machine: the bytes a read meets are those last
written by the device, or free bytes (log 14). -/
def State.hostDrift (s : State) (keys : List Nat) : State :=
  let t := s.useFree
  if Config.freeChoice s.freeCtr % 2 = 0 then t
  else t.setBytes (keys.zipIdx.map (fun x => (x.1, Config.freeByte s.freeCtr x.2)))

/-- HOST_READ_COMPLETION. -/
def execHostReadCompletion (id n : Nat) (s : State) : Ev :=
  .next (s.onPart id n (fun f p =>
    if !s.mayRead f p ∨ !isHost p.key then s
    else
      match s.forward f p with
      | .value v => s.forwarded f p v
      | _ =>
        let idx := s.mates f (p.key / 256)
        let ps := f.parts.zipIdx.filter (fun x => x.2 ∈ idx)
        let s := s.hostDrift ((ps.flatMap (fun x => keysOf x.1.key x.1.len)).dedup)
        s.setFlight (f.perform idx (fun q => s.word q.key q.len))))

/-! Writes. -/

/-- A copy with bytes of its line written under an ASID's key index: a sector written takes that index and a new check value; a
partial write of one that does not verify is not applied (R362, R376). -/
def MirrorCopy.write (m : MirrorCopy) (cycle asid : Nat) (l : List (Nat × Byte)) : MirrorCopy :=
  let l := l.filter (fun e => wholeSector l (e.1 / 64) || (m.badSector cycle (e.1 / 64)).isNone)
  let secs := (sectorsOf l).map (fun x => x % 4)
  let d := l.foldl (fun d e => setBitsAt d (8 * (e.1 % 256)) 8 e.2.toNat) m.data.toNat
  { m with
    data := BitVec.ofNat 2048 d
    keys := m.keys.zipIdx.map (fun k => if k.2 ∈ secs then (some (BitVec.ofNat 12 asid), none) else k.1)
    diff := Tab.drop (fun j => decide (j ∈ secs)) m.diff
    ue := Tab.drop (fun j => decide (j ∈ secs)) m.ue }

/-- A store of a core of a die changes the die's own current copy of the line under its ASID, or with home ordering, or as an atomic or
an AGST, invalidates it; a copy on its way does not install (R222, R262). -/
def State.ownCopy (s : State) (d line : Nat) (l : Option (Nat × List (Nat × Byte))) : State :=
  s.modDie d (fun x =>
    { x with
      mirror := (match l with
        | none => x.mirror.filter (fun m => m.line ≠ line)
        | some w => x.mirror.map (fun m => if m.line = line ∧ m.gen = x.gen then m.write s.cycle w.1 w.2 else m)),
      mfills := x.mfills.map (fun m => if m.copy.line = line then { m with cancelled := true } else m) })

/-- Stores of an operation on one line that can be applied now. -/
def State.writeMates (s : State) (f : Flight) (line : Nat) : List Nat :=
  (f.parts.zipIdx.filter (fun x => !x.1.done && x.1.key / 256 = line && s.ready f x.1)).map (fun x => x.2)

/-- Bytes of a line with the value that the last of them has. -/
def lastBytes (l : List (Nat × Byte)) : List (Nat × Byte) :=
  (l.map (fun e => e.1)).dedup.map (fun k => (k, (l.reverse.lookup k).getD 0))

/-- Lanes of a store written to a line one after another: each is an event at its bytes, and the watches of its word test the
value that it leaves (R140, R276). -/
def State.writeLanes (s : State) (asid : Nat) (ps : List Part) : Except Nat State :=
  let bs := lastBytes (ps.flatMap (fun p => p.bytes))
  match s.writeHome asid bs with
  | .error k => .error k
  | .ok _ => (ps.foldl (fun t p => (t.setBytes p.bytes).retest (p.bytes.map (fun e => e.1))) s).writeHome asid bs

/-- Plain stores are applied: one access to the line, lanes in ascending order (R133, R140, R219). -/
def State.storeLine (s : State) (f : Flight) (n : Nat) (p : Part) : State :=
  match s.enterSlice f n p with
  | (false, t) => t
  | (true, s) =>
    let line := p.key / 256
    let idx := s.writeMates f line
    let ps := (f.parts.zipIdx.filter (fun x => x.2 ∈ idx)).map (fun x => x.1)
    let bs := lastBytes (ps.flatMap (fun q => q.bytes))
    match s.writeLanes f.asid ps with
    | .error k => s.badFor f p k [s.badWrite bs]
    | .ok s =>
      let o := s.partObj f p
      let s := s.homeAccess f p (bs.map (fun e => e.1)) true f.hint
      let f := f.note p
      let remote := (match o with | none => false | some x => x.mirrorable) && isGlobal p.key && homeDie p.key ≠ coreDie f.core
      let s := if remote then s.ownCopy (coreDie f.core) line (if f.home then none else some (f.asid, bs)) else s
      let f := f.perform idx (fun _ => 0)
      s.setFlight { f with hostPend := f.hostPend || isHost p.key }

/-- FEMARK marks its next granule (R149). -/
def State.markNext (s : State) (f : Flight) (n : Nat) (p : Part) (full : Bool) : State :=
  let g := granule p.key + p.a
  let last := decide (p.len ≤ 16 * (p.a + 1))
  let s := s.setFlight (f.setPart n { p with a := p.a + 1, done := last })
  if full then s.fillGranule g else s.setTag (16 * g) false

/-- Flags of a lane known only at the home (R77, R141). -/
def State.orFlags (s : State) (f : Flight) (fl : Flags) : State :=
  let p := ctxId f.core f.ctx
  if (s.owner f.core).1 = f.uid ∧ (s.core f.core).task.isSome ∧ (s.ctx p).run ≠ .free then
    s.modCtx p (fun x => { x with flags := x.flags.or fl })
  else s

/-- The block with one lane's element scattered into it, and the flags; none where nothing is written (R128, R141). The element
takes the format that the block has at its home, where that is another readable one than at the check (DEDUCED, log 44). FLG.FTZ
flushes a subnormal value and a tiny element, and a block that is NaN already gets its code 0 with no flag (DEDUCED, log 130). -/
def scatBlock (ty : Ty) (rnd : Rnd) (ftz : Bool) (p : Part) (blk : Nat) : Option BlkRes :=
  match blkFmt blk with
  | none => none
  | some m =>
    if m.count ≤ p.c then none
    else if blkByte blk 1 = 255 then some ⟨sealed (putElem m blk p.c 0), .none⟩
    else
      let y := (readFp ty.fp ftz p.b).scale (127 - (blkByte blk 1 : Int))
      let r := encElem m rnd ftz (blkByte blk 2 % 128) y
      some ⟨sealed (putElem m blk p.c r.bits), r.fl⟩

/-- SCAT of one lane, one read-modify-write event (R141). -/
def State.scatLane (s : State) (f : Flight) (n : Nat) (p : Part) (ty : Ty) (rnd : Rnd) (ftz : Bool) : State :=
  match s.enterSlice f n p with
  | (false, t) => t
  | (true, s) =>
    let blk := s.word p.key 64
    match s.badBytes [p.key] with
    | some k => s.badFor f p k [p.key]
    | none =>
      match scatBlock ty rnd ftz p blk with
      | none => s.setFlight (f.setPart n { p with done := true })
      | some r =>
        let bs := ((List.range 64).filter (fun j => blkByte r.blk j ≠ blkByte blk j)).map
          (fun j => (p.key + j, BitVec.ofNat 8 (blkByte r.blk j)))
        let s := s.writeOr f.asid bs
        let o := s.partObj f p
        let s := s.homeAccess f p [p.key] true f.hint
        let f := f.note p
        let s := if (match o with | none => false | some x => x.mirrorable) && homeDie p.key ≠ coreDie f.core then
            s.ownCopy (coreDie f.core) (p.key / 256) (if f.home then none else some (f.asid, bs))
          else s
        (s.orFlags f r.fl).setFlight (f.setPart n { p with done := true })

/-- Lanes of SCAT on one block, and of an atomic on one word, go in ascending order (R141, R156). -/
def Flight.laneTurn (f : Flight) (n : Nat) (p : Part) : Bool :=
  (f.parts.take n).all (fun q => q.done || q.key ≠ p.key)

/-- A write may arrive at its home. -/
def State.mayWrite (s : State) (f : Flight) (n : Nat) (p : Part) : Bool :=
  sent f p && s.ready f p &&
    (match f.op with
      | .store | .femark _ => true
      | .scat .. => f.laneTurn n p
      | _ => false)

/-- HOME_WRITE (R217). -/
def execHomeWrite (id n : Nat) (s : State) : Ev :=
  .next (s.onPart id n (fun f p =>
    if !s.mayWrite f n p then s
    else if s.badEntry f then s.failEntry f
    else if !s.reaches f p.key then s.noShare f n p
    else
      match f.op with
      | .store => s.storeLine f n p
      | .femark full => s.markNext f n p full
      | .scat ty rnd ftz => s.scatLane f n p ty rnd ftz
      | _ => s))

/-- REQUEST_RESEND: a refused request is sent again, unless its port holds a ticket of the slice (R220). -/
def State.resendDue (s : State) (f : Flight) (n : Nat) (p : Part) : Bool :=
  match p.sendAt with
  | none => false
  | some t => decide (t ≤ s.baseCycle) && (match s.partSlice f p with
    | none => true
    | some k => !s.portBusy k f.core (.part f.id n))

def execRequestResend (id n : Nat) (s : State) : Ev :=
  .next (s.onPart id n (fun f p =>
    if s.resendDue f n p then s.setFlight (f.setPart n { p with sendAt := none }) else s))

/-- TICKET_NOTICE: an entry is held, and the request is sent at once (R220). -/
def execTicketNotice (id n : Nat) (s : State) : Ev :=
  .next (s.onPart id n (fun f p =>
    if p.ticket && p.noticed then s.setFlight (f.setPart n { p with ticket := false }) else s))

/-! Atomics (R155, R282 to R284). -/

/-- The new value of a word of W bits. -/
def atomNew (op : AtOp) (ty : Ty) (old b c : Nat) : Nat :=
  let W := ty.bits
  let sg := fun v => toInt ty.isSigned W v
  match op with
  | .add => (old + b) % 2 ^ W
  | .min => if sg b < sg old then b else old
  | .max => if sg old < sg b then b else old
  | .and => Nat.land old b
  | .or => Nat.lor old b
  | .xor => Nat.xor old b
  | .xch => b
  | .cas => if old = b then c else old
  | .fadd => (fpAdd Ty.f32.fp .rne false (decodeFp Ty.f32.fp old) (decodeFp Ty.f32.fp b)).bits
  | .inc => if b ≤ old then 0 else old + 1
  | .dec => if old = 0 ∨ b < old then b else old - 1

/-- One access of an atomic kind at the home slice: sectors are filled, and the word is written (R283). -/
def State.atomAccess (s : State) (f : Flight) (p : Part) (keys : List Nat) : State :=
  (s.homeAccess f p keys false .normal).l2Access none (s.partObj f p) f.asid p.va keys true .normal true

/-- The die's own Mirror copy of a word's line goes with an atomic, and a copy on its way does not install (R222, R239). -/
def State.dropCopy (s : State) (f : Flight) (p : Part) : State :=
  if isGlobal p.key then s.ownCopy (coreDie f.core) (p.key / 256) none else s

/-- An atomic may be performed at its point in the device. -/
def State.mayAtom (s : State) (f : Flight) (n : Nat) (p : Part) : Bool :=
  !isHost p.key && sent f p && s.ready f p && f.laneTurn n p

/-- ATOMIC_POINT_EVENT: one lane's read and write, before the point applies any other event; lanes of one word come in ascending
order, and another agent's event may fall between them (R155, R156, R282; DEDUCED, log 131). -/
def execAtomicPointEvent (id n : Nat) (s : State) : Ev :=
  .next (s.onPart id n (fun f p =>
    match f.op with
    | .atom op ty =>
      if !s.mayAtom f n p then s
      else if s.badEntry f then s.failEntry f
      else if !s.reaches f p.key then s.noShare f n p
      else
        match s.enterSlice f n p with
        | (false, t) => t
        | (true, s) =>
          let keys := keysOf p.key p.len
          match s.badBytes keys with
          | some k => s.badFor f p k keys
          | none =>
            let v := s.word p.key p.len
            let s := s.writeOr f.asid (keyed p.key (wordBytes p.len (atomNew op ty v p.a p.b)))
            ((s.atomAccess f p keys).dropCopy f p).setFlight ((f.note p).setPart n { p with done := true, res := v })
    | _ => s))

/-- Lanes of a trapping atomic whose requests have been sent to a point in the device: they are performed there. -/
def State.lanesLeft (s : State) (f : Flight) : List Part :=
  match f.op with
  | .atom .. => f.parts.filter (fun p => !isHost p.key && sent f p && s.ready f p)
  | _ => []

/-- The lane of a host atomic whose request is out: lanes go one at a time in ascending order (R285). -/
def Flight.hostTurn (f : Flight) (n : Nat) : Bool := (f.parts.take n).all (fun q => q.done || !isHost q.key)

/-- HOST_ATOMIC_COMPLETION: the host performed one AtomicOp on the value it held, or refused it (R285). -/
def execHostAtomicCompletion (id n : Nat) (st : HostStatus) (s : State) : Ev :=
  .next (s.onPart id n (fun f p =>
    match f.op with
    | .atom op ty =>
      if !isHost p.key ∨ !f.hostTurn n ∨ !s.ready f p then s
      else if s.badEntry f then s.failEntry f
      else
        match st with
        | .success old =>
          let v := old.toNat % 2 ^ ty.bits
          let s := s.setBytes (keyed p.key (wordBytes p.len (atomNew op ty v p.a p.b)))
          s.setFlight { f.setPart n { p with done := true, res := v } with hostPend := f.hostPend }
        | _ => s.trapLeaving f (tProt p.va 5) (s.lanesLeft f)
    | _ => s))

/-- CNTADD at its atomic point (R161). -/
def State.cntAddEvent (s : State) (f : Flight) (p : Part) (err : Bool) : State :=
  if !sent f p ∨ !s.ready f p then s
  else if s.badEntry f then s.failEntry f
  else if !s.reaches f p.key then s.noShare f 0 p
  else
    match s.enterSlice f 0 p with
    | (false, t) => t
    | (true, s) =>
      let keys := keysOf p.key 8
      match s.badBytes keys with
      | some k => s.badFor f p k keys
      | none =>
        let w := ctrNew (if err then .err p.a else .add p.a) (s.word p.key 8)
        let s := s.writeOr f.asid (keyed p.key (wordBytes 8 w))
        ((s.atomAccess f p keys).dropCopy f p).setFlight ((f.note p).setPart 0 { p with done := true })

/-! Waits on words (R276 to R278, R381). -/

/-- A wait's request has reached its agent, or has been refused. -/
def Flight.arrived (f : Flight) : Bool := f.parked.isSome || f.resendAt.isSome || f.parts.any (fun p => p.refused ≠ 0)

/-- A withdrawal of an unsatisfied wait: the trap of its limit, or parking (R261, R273, R278). -/
def State.withdrawn (s : State) (f : Flight) (t : TrapInfo) : State :=
  let p := ctxId f.core f.ctx
  if !f.arrived then s
  else
    match f.withdraw with
    | none => s
    | some why =>
      let s := s.dropFlight f.id
      let s := match f.wb with
        | none => s
        | some w => s.cancelWB f.core w
      match why with
      | .limit => s.raise p t
      | .preempt => s.park p true (s.ctx p).sra

def State.limitTrap (s : State) (f : Flight) : TrapInfo := tWaitLimit (s.ctx (ctxId f.core f.ctx)).wlim

def State.resendNow (s : State) (f : Flight) : Bool :=
  match f.resendAt with
  | none => false
  | some t => decide (t ≤ s.cycle)

/-- WATCH_REREAD (R277): the read is sent again, as any request is. -/
def execWatchReread (id : Nat) (s : State) : Ev :=
  .next (s.onFlight id (fun f p =>
    if !(isWatch f.op && s.resendNow f) then s
    else if s.reaches f p.key then s.watchArrive { f with resendAt := none } p else s.noShare f 0 p))

/-- WATCH_WITHDRAWAL: a wait whose test holds at its atomic point completes; another ends (R278). -/
def execWatchWithdrawal (id : Nat) (s : State) : Ev :=
  .next (s.onFlight id (fun f p =>
    if !isWatch f.op then s
    else
      match if f.withdraw.isSome && f.arrived && s.reaches f p.key && (s.badBytes (keysOf p.key p.len)).isNone then
          watchTest f.op (s.word p.key p.len) else none with
      | some r => s.setFlight { f with resendAt := none, parts := [{ p with done := true, code := r }] }
      | none => s.withdrawn f (s.limitTrap f)))

/-! Granules (R146 to R149, R270 to R273). -/

/-- LDF at its granule: served, entered in the table, or refused. -/
def State.ldfArrive (s : State) (f : Flight) (p : Part) : State :=
  match f.op with
  | .ldf _ =>
    if !s.reaches f p.key then s.noShare f 0 p
    else if s.tagFull p.key then s.ldfRead f p
    else s.parkOr isLdf f p
  | _ => s

def execLdfAtScratchpad (id : Nat) (s : State) : Ev :=
  .next (s.onFlight id (fun f p => if isLdf f.op && sent f p && s.ready f p then s.ldfArrive f p else s))

def execLdfResend (id : Nat) (s : State) : Ev :=
  .next (s.onFlight id (fun f p => if s.resendNow f then s.ldfArrive f p else s))

/-- STF writes its granule, sets it full and serves its waiters (R148). -/
def execStfAtScratchpad (id : Nat) (s : State) : Ev :=
  .next (s.onFlight id (fun f p =>
    if f.op ≠ .stf ∨ !sent f p ∨ !s.ready f p then s
    else if s.badEntry f then s.failEntry f
    else if !s.reaches f p.key then s.noShare f 0 p
    else
      match s.writeHome f.asid p.bytes with
      | .error k => s.badFor f p k [s.badWrite p.bytes]
      | .ok s => (s.setFlight (f.setPart 0 { p with done := true })).fillGranule (granule p.key)))

def execGranuleWithdrawal (id : Nat) (s : State) : Ev :=
  .next (s.onFlight id (fun f _ => if isLdf f.op then s.withdrawn f (s.limitTrap f) else s))

/-! Aged blocks (R252 to R263). -/

def State.stamp (s : State) (key : Nat) : BitVec 32 := Tab.get 0 s.stamps (key / 64)

/-- An AGST of a core of a die to a line is under way. -/
def State.agstOut (s : State) (d line : Nat) : Bool :=
  s.flights.any (fun g => coreDie g.core = d && g.parts.any (fun q => !q.done && q.key / 256 = line) &&
    (match g.op with | .agst _ => true | _ => false))

/-- The home's line with its stamps on its way to the reader's carve (R263); not while an AGST of the die to the line is
under way, which would leave a copy older than the store behind (R258, log 109). -/
def State.refresh (s : State) (f : Flight) (p : Part) : State :=
  let line := p.key / 256
  if !bitAt p.b 1 ∨ p.a ≠ 0 ∨ s.agstOut (coreDie f.core) line ∨ (s.badBytes (keysOf (256 * line) 256)).isSome then s
  else
    s.askMirror (coreDie f.core)
      ⟨line, s.line line, (List.range 4).map (fun j => s.stamp (256 * line + 64 * j)), f.gen, s.lineKeys line, [], []⟩ true

/-- The home answers an AGLD with its block: the read that counts is made now (R219). -/
def State.answerAged (s : State) (f : Flight) (p : Part) (code : Nat) : State :=
  let q := { p with done := true, res := s.word p.key 64, code := code, c := (s.stamp p.key).toNat }
  ((s.homeAccess f p (keysOf p.key 64) false .normal).refresh f p).setFlight { f.note p with parts := [q] }

/-- An AGLD with no fresh block takes an entry of the aged-wait list, or is refused (R259): a free entry goes to the oldest
ticket first. -/
def State.parkAged (s : State) (f : Flight) (p : Part) : State :=
  match s.partSlice f p with
  | none => s
  | some k =>
    let x := s.slice k
    if x.waitHeld.any (fun r => r.isOf f.id 0)
        ∨ s.parkedAt k + x.waitHeld.length + x.waitTickets.length < waitListSize then
      let s := s.modSlice k (fun x => { x with waitHeld := x.waitHeld.filter (fun r => !r.isOf f.id 0) })
      s.fresh.setFlight { f with parked := some s.nextId, parts := [{ p with noticed := false }] }
    else
      let q := p.refuse (portHas x.waitTickets f.core) s.baseCycle
      let s := s.setFlight { f with parts := [q] }
      if q.ticket then s.modSlice k (fun x => { x with waitTickets := x.waitTickets ++ [⟨.part f.id 0, f.core⟩] }) else s

/-- Bytes that an AGLD at the home consumes: its block, or the line that refreshes the reader's copy (R362). -/
def Part.agedKeys (p : Part) : List Nat :=
  if bitAt p.b 1 ∧ p.a = 0 then keysOf (256 * (p.key / 256)) 256 else keysOf p.key 64

/-- AGLD at the home (R256); from here on the search goes on at the home alone. -/
def State.agedHome (s : State) (f : Flight) (p : Part) (wait : Bool) (itr : BitVec 32) (lag : Nat) : State :=
  let p := { p with b := if bitAt p.b 0 then p.b else p.b + 1 }
  match s.enterSlice f 0 p with
  | (false, t) => t
  | (true, s) =>
    if !s.isAged p.key then s.setFlight { f with parts := [{ p with done := true, code := 2 }] }
    else
      match s.badBytes p.agedKeys with
      | some k => s.badFor f p k p.agedKeys
      | none =>
        if freshFor (s.stamp p.key) itr lag then s.answerAged f p 1
        else if wait then s.parkAged f p
        else s.answerAged f p 0

/-- AGLD_HOME_REQUEST: the local replica where it is fresh, else the home (R256). -/
def execAgldHomeRequest (id : Nat) (s : State) : Ev :=
  .next (s.onFlight id (fun f p =>
    match f.op with
    | .agld wait itr lag _ _ _ _ =>
      if !sent f p ∨ !s.ready f p ∨ s.forward f p = .wait then s
      else
        let local_ := if bitAt p.b 0 then none else (s.die (coreDie f.core)).current (p.key / 256)
        match if bitAt p.b 1 then local_ else none with
        | none => s.agedHome f p wait itr lag
        | some m =>
          let st := m.stamps.getD (p.key / 64 % 4) 0
          if m.stamps ≠ [] ∧ freshFor st itr lag then
            (match m.badAt s.cycle [p.key] with
              | some e => s.badCopyFor f p e
              | none => s.setFlight { f with parts := [{ p with done := true, code := 1, res := lineVal m.data p, c := st.toNat }] })
          else s.agedHome f p wait itr lag
    | _ => s))

/-- The entries of a block that a new stamp makes fresh are answered in the order they entered (R260). -/
def State.answerParked (s : State) (key : Nat) : State :=
  let l := (s.flights.filter (fun f => f.parked.isSome && !f.allDone && f.parts.any (fun p => p.key = key))).mergeSort
    (fun a b => decide (a.parked.getD 0 ≤ b.parked.getD 0))
  l.foldl (fun t f =>
    match f.op, f.parts with
    | .agld _ itr lag _ _ _ _, [p] => if freshFor (t.stamp key) itr lag then t.answerAged f p 1 else t
    | _, _ => t) s

def State.discardAged (s : State) (key n : Nat) : State :=
  s.modDie (homeDie key) (fun x => { x with agedDiscard := x.agedDiscard + BitVec.ofNat 64 n })

/-- AGST_AT_HOME: accepted or discarded (R145, R255). One that is discarded for its stamp is an access that writes its sector at the
slice all the same, with its hint, and is counted (DESIGN CHOICE, log 142). -/
def execAgstAtHome (id : Nat) (s : State) : Ev :=
  .next (s.onFlight id (fun f p =>
    match f.op with
    | .agst itr =>
      if !sent f p ∨ !s.ready f p then s
      else if s.badEntry f then s.failEntry f
      else
        match s.enterSlice f 0 p with
        | (false, t) => t
        | (true, s) =>
          let fin := fun (t : State) => t.setFlight (f.setPart 0 { p with done := true })
          if !s.isAged p.key then (fin s).discardAged p.key 1
          else
            let s := s.homeAccess f p (keysOf p.key 64) true f.hint
            if 2 ^ 31 ≤ (itr - s.stamp p.key).toNat then (fin s).discardAged p.key 1
            else
              let s := fin (s.writeOr f.asid p.bytes)
              { s with stamps := Tab.set 0 s.stamps (p.key / 64) itr }.answerParked p.key
    | _ => s))

def execAgedWithdrawal (id : Nat) (s : State) : Ev :=
  .next (s.onFlight id (fun f p =>
    match f.op with
    | .agld _ itr lag _ _ _ _ => s.withdrawn f (tAgeTimeout p.va itr lag)
    | _ => s))

/-! What may come. -/

/-- Event of an access that can be performed, if there is one. -/
def State.homeEvent (s : State) (f : Flight) (n : Nat) (p : Part) : List Instr :=
  if p.done then []
  else
    match f.op with
    | .load | .cntrd | .gath .. | .fill .. =>
      if s.mayRead f p then (if isHost p.key then [.hostReadCompletion f.id n] else [.homeRead f.id n]) else []
    | .waitc .. | .waitf .. => if s.mayRead f p then [.homeRead f.id n] else []
    | .store | .femark _ | .scat .. => if s.mayWrite f n p then [.homeWrite f.id n] else []
    | .stf => if sent f p && s.ready f p then [.stfAtScratchpad f.id] else []
    | .ldf _ => if sent f p && s.ready f p then [.ldfAtScratchpad f.id] else []
    | .agld .. => if sent f p && s.ready f p && s.forward f p ≠ .wait then [.agldHomeRequest f.id] else []
    | .agst _ => if sent f p && s.ready f p then [.agstAtHome f.id] else []
    | .cntadd _ => if sent f p && s.ready f p then [.counterUpdate f.id] else []
    | .atom _ ty =>
      if isHost p.key then
        (if sent f p && s.ready f p && f.hostTurn n then
          [.hostAtomicCompletion f.id n (.success (BitVec.ofNat 64 (s.word p.key (ty.bits / 8)))),
            .hostAtomicCompletion f.id n (.success (BitVec.ofNat 64 (leVal ((List.range 8).map (Config.freeByte s.freeCtr))))),
            .hostAtomicCompletion f.id n .unsupported, .hostAtomicCompletion f.id n .abort]
        else [])
      else if s.mayAtom f n p then [.atomicPointEvent f.id n] else []

/-- The withdrawal event of a wait whose request has arrived. -/
def withdrawalOf (f : Flight) : List Instr :=
  if f.withdraw.isNone || f.allDone || !f.arrived then []
  else
    match f.op with
    | .waitc .. | .waitf .. => [.watchWithdrawal f.id]
    | .ldf _ => [.granuleWithdrawal f.id]
    | .agld .. => [.agedWithdrawal f.id]
    | _ => []

/-- Of the accesses to one line only the first is named; its event performs the others with it. -/
def State.flightEvents (s : State) (f : Flight) : List Instr :=
  f.parts.zipIdx.flatMap (fun x => s.homeEvent f x.2 x.1) ++ withdrawalOf f

/-- Events at homes that may come (R35). -/
def State.homeEvents (s : State) : List Instr :=
  s.flights.flatMap s.flightEvents
    ++ s.cores.flatMap (fun e => e.2.fills.map (fun f => .l1Fill e.1 f.id))
    ++ s.dies.flatMap (fun e => e.2.mfills.map (fun f => .mirrorFill e.1 f.id))

/-- Sendings whose time has come (R147, R220, R277). -/
def State.homeTimed (s : State) : List Instr :=
  s.flights.flatMap (fun f =>
    (f.parts.zipIdx.flatMap (fun x =>
      if x.1.done then []
      else if s.resendDue f x.2 x.1 then [.requestResend f.id x.2]
      else if x.1.ticket && x.1.noticed then [.ticketNotice f.id x.2] else []))
    ++ (if s.resendNow f && !f.allDone then (if isLdf f.op then [.ldfResend f.id] else [.watchReread f.id]) else []))

end Sys2Proof.Machine
end

