-- ==== Sys2Proof/Machine/Memory.lean ====
section
/-! DEFINITION. The memory instructions of class 4: effective addresses (R132, R133), the checks of an access (R134), loads
and stores (R139, R140), elements of described objects (R141), PREF, aged access (R143 to R145), granules (R146 to R149),
SPILL and FILL (R150 to R152), and FENCE (R153, R154). -/

namespace Sys2Proof.Machine

/-! Addresses. -/

/-- The effective address in a lane, before the unit stride of a vector access with scalar terms. -/
def State.ea (s : State) (base : Opnd) (index : Option Opnd) (size : Nat) (disp : Int) (lane : Nat) : Word :=
  let i : Int := match index with
    | none => 0
    | some o => toInt true o.bits (s.readOp s.cur o lane)
  BitVec.ofInt 64 ((s.readOp s.cur base lane : Nat) + i * size + disp)

def vecTerms (base : Opnd) (index : Option Opnd) : Bool := base.isVec || (index.map Opnd.isVec).getD false

/-- The executing lanes of an access with their addresses (R133). -/
def State.laneEas (s : State) (h : Hdr) (vec : Bool) (base : Opnd) (index : Option Opnd) (size : Nat) (disp : Int) :
    List (Nat × Word) :=
  (s.lanes h vec).map (fun l => (l,
    s.ea base index size disp l + (if vecTerms base index then 0 else BitVec.ofNat 64 (l * size))))

def memSize (f : MemF) : Nat := f.data.bits / 8

def State.memEas (s : State) (f : MemF) : List (Nat × Word) :=
  s.laneEas f.h f.data.isVec f.base f.index (memSize f) f.disp.toInt

/-! Checks (R134). -/

/-- 9a: the first lane that is not aligned. -/
def misaligned (n : Nat) (l : List (Nat × Word)) : Option TrapInfo :=
  (l.find? (fun e => e.2.toNat % n ≠ 0)).map (fun e => tAlign e.2 n)

/-- The trap of the first check that fails in any lane, and of its lowest lane. A translation still to be walked for, or a
table entry that does not verify, comes before any failure of check 9c. -/
def firstTrap (l : List TrapInfo) : Option TrapInfo :=
  [l.find? (fun t => t.code = 0x0B), l.find? (fun t => decide (0x100 ≤ t.code)), l.find? (fun t => t.code = 0x09),
    l.head?].findSome? id

/-- A lane's access with its place. -/
structure LaneAcc where
  (lane : Nat) (va : Word) (pl : Place)
deriving DecidableEq, Repr

/-- The access of n bytes that a lane makes. -/
def LaneAcc.part (e : LaneAcc) (n : Nat) : Part := { Part.of e.pl.key n e.va e.lane with page := e.pl.xlat }

/-- Errors and places of a list of lanes. -/
def splitPlaces : List (Nat × Word × Except TrapInfo Place) → List TrapInfo × List LaneAcc
  | [] => ([], [])
  | (n, va, r) :: l =>
    let q := splitPlaces l
    match r with
    | .error t => (t :: q.1, q.2)
    | .ok p => (q.1, ⟨n, va, p⟩ :: q.2)

/-- 9b to 9d over all lanes. -/
def State.placeLanes (s : State) (a : Acc) (n : Nat) (l : List (Nat × Word)) : Except TrapInfo (List LaneAcc) :=
  let r := splitPlaces (l.map (fun e => (e.1, e.2, s.place (s.who s.cur) a e.2 n)))
  match firstTrap r.1 with
  | some t => .error t
  | none => .ok r.2

def State.keepLanes (s : State) (l : List LaneAcc) : State :=
  l.foldl (fun t e => t.keepPlace (t.who t.cur) e.pl) s

/-! Caches at issue (R210, R222, R262). -/

/-- A store's lines leave the core's L1, and fills on their way for them do not install. -/
def State.dropL1 (s : State) (c : Nat) (lines : List Nat) : State :=
  s.modCore c (fun x =>
    { x with
      l1 := x.l1.filter (fun l => l.line ∉ lines)
      fills := x.fills.map (fun f => if f.line ∈ lines then { f with cancelled := true } else f) })

/-- Lines that accesses of n bytes touch. -/
def linesOf (l : List LaneAcc) (n : Nat) : List Nat :=
  (l.flatMap (fun e => [e.pl.key / 256, (e.pl.key + n - 1) / 256])).dedup

/-- An object's lines are remote mirrorable lines of a die. -/
def Place.remote (p : Place) (d : Nat) : Bool :=
  (match p.obj with | none => false | some o => o.2.mirrorable) && isGlobal p.key && homeDie p.key ≠ d

/-- The local Mirror copies of lines leave, whatever object a copy was read by (R222, R262, R283). -/
def State.dropMirror (s : State) (l : List LaneAcc) : State :=
  (l.filter (fun e => isGlobal e.pl.key)).foldl (fun t e => t.ownCopy (coreDie s.curCore) (e.pl.key / 256) none) s

/-- How a load may be served: bit 0 by L1, bit 1 its line is flagged there, bit 2 by a Mirror copy, bit 3 its line is
allocated in L1 (R209, R222). -/
def State.loadBits (s : State) (pl : Place) (l1 home alloc : Bool) : Nat :=
  let aged := isGlobal pl.key && s.isAged pl.key
  let a := l1 && isGlobal pl.key && !aged
  let fl := match pl.obj with
    | none => true
    | some o => o.2.writable
  let m := pl.remote (coreDie s.curCore) && !aged && !home && decide (0 < s.carveLines (coreDie s.curCore))
  a.toNat + 2 * fl.toNat + 4 * m.toNat + 8 * (a && alloc).toNat

/-! LD and ST. -/

/-- An instruction that executes in no lane writes back nothing (R41). -/
def State.idleProducer (s : State) (i : Instr) : Act := .go (s.produce i [] [] .none)

/-- L1 may serve a load, and its line is allocated there (R137, R209, R233). -/
def qualL1 (q : Qual) : Bool := q.order = .plain && !q.byp
def qualAlloc (q : Qual) : Bool := qualL1 q && q.hint ≠ .noAlloc

/-- A load of a context. -/
def State.loadFlight (s : State) (op : FlOp) (parts : List Part) (d : Opnd) (q : Qual) : Flight :=
  { s.newFlight s.cur op parts with
    dst := some d, isLoad := true, acquire := q.order = .sync, scope := q.scope, hint := q.hint, home := q.order = .home }

def execLd (f : MemF) (s : State) : Res :=
  .next (s.issue (.ld f) (fun s =>
    let l := s.memEas f
    if l = [] then s.idleProducer (.ld f)
    else
      match misaligned (memSize f) l with
      | some t => .trap t
      | none =>
        match s.placeLanes .ld (memSize f) l with
        | .error t => .trap t
        | .ok a =>
          let parts := a.map (fun e =>
            { e.part (memSize f) with b := s.loadBits e.pl (qualL1 f.q) (f.q.order = .home) (qualAlloc f.q) })
          .go ((s.keepLanes a).sendWB (.ld f) s.cur (s.loadFlight .load parts f.data f.q))))

/-- The mask of one colour. -/
def colourMask (c : BitVec 3) : BitVec 8 := 1#8 <<< c.toNat

/-- A store of a context, released as ORDER 01 states (R137). -/
def State.storeFlight (s : State) (op : FlOp) (parts : List Part) (q : Qual) : Flight :=
  { s.newFlight s.cur op parts with
    isStore := true, colour := some q.colour.toNat, scope := q.scope, hint := q.hint, home := q.order = .home
    release := if q.order = .sync then some (colourMask q.colour) else none }

/-- A store issues: its lines leave L1, and its entry joins the store queue. -/
def State.sendStore (s : State) (a : List LaneAcc) (n : Nat) (f : Flight) : State :=
  ((s.keepLanes a).dropL1 s.curCore (linesOf a n)).send f

/-- An access that writes a lane's data. -/
def State.storePart (s : State) (e : LaneAcc) (d : Opnd) (n : Nat) : Part :=
  { e.part n with bytes := keyed e.pl.key (wordBytes n (s.readOp s.cur d e.lane)) }

def execSt (f : MemF) (s : State) : Res :=
  .next (s.issue (.st f) (fun s =>
    let l := s.memEas f
    if l = [] then .go s
    else if s.queueFull s.cur then .stall
    else
      match misaligned (memSize f) l with
      | some t => .trap t
      | none =>
        match s.placeLanes .st (memSize f) l with
        | .error t => .trap t
        | .ok a =>
          .go (s.sendStore a (memSize f) (s.storeFlight .store (a.map (fun e => s.storePart e f.data (memSize f))) f.q))))

/-! GATH and SCAT (R141). -/

/-- The object's first byte, and the element number, of each executing lane. -/
def State.elemEas (s : State) (f : ElemF) : List (Nat × Word × Nat) :=
  (s.lanes f.h f.data.isVec).map (fun l =>
    let j := match f.index with
      | none => 0
      | some o => s.readOp s.cur o l
    (l, s.ea f.base none 0 0 l, j + if vecTerms f.base f.index then 0 else l))

/-- An element's place: its object's format, its block, and its element in the block. -/
structure ElemAcc where
  (acc : LaneAcc) (fmt : BFmt) (elem : Nat)
deriving DecidableEq, Repr

/-- The object of a lane's base and the place of the block that holds its element. The base itself is neither translated
nor checked where an object covers it. -/
def State.elemPlace (s : State) (a : Acc) (base : Word) (j : Nat) : Except TrapInfo (Word × Place × BFmt × Nat) :=
  let w := s.who s.cur
  match ((s.object w.asid base).bind (fun o => o.2.described)).bind BFmt.ofCode with
  | none =>
    (match s.place w a base 64 with
      | .error t => .error t
      | .ok _ => .error (tProt base 4))
  | some m =>
    let va := base + BitVec.ofNat 64 (64 * (j / m.count))
    match s.place w a va 64 with
    | .error t => .error t
    | .ok q => .ok (va, q, m, j % m.count)

def splitElems (s : State) (a : Acc) : List (Nat × Word × Nat) → List TrapInfo × List ElemAcc
  | [] => ([], [])
  | (n, base, j) :: l =>
    let q := splitElems s a l
    match s.elemPlace a base j with
    | .error t => (t :: q.1, q.2)
    | .ok (va, p, m, k) => (q.1, ⟨⟨n, va, p⟩, m, k⟩ :: q.2)

/-- 9f: the first lane whose block does not name the object's format. -/
def State.badFormat (s : State) (l : List ElemAcc) : Option TrapInfo :=
  l.findSome? (fun e => s.blockErr e.fmt e.acc.va e.acc.pl.key)

/-- Check 9f waits for a store of the context itself to a block (R234, log 44), and for the releases that the context's start
acquired (R206). -/
def State.ownBlock (s : State) (l : List ElemAcc) : Bool :=
  !s.floorClear s.cur || l.any (fun e => (s.earlier s.cur s.nextId).any (fun g => g.isStore && !g.allDone && g.touches e.acc.pl.key 64))

/-- Checks 9a to 9d of GATH and SCAT. -/
def State.elemAccs (s : State) (f : ElemF) (a : Acc) : Except TrapInfo (List ElemAcc) :=
  let l := s.elemEas f
  match misaligned 64 (l.map (fun e => (e.1, e.2.1))) with
  | some t => .error t
  | none =>
    let r := splitElems s a l
    match firstTrap r.1 with
    | some t => .error t
    | none => .ok r.2

/-- Blocks whose headers check 9f reads. -/
def headPieces (l : List ElemAcc) : List Piece := l.map (fun e => ⟨e.acc.va, e.acc.pl.key, 1⟩)

/-- The headers that check 9f reads at their homes (R207). -/
def State.touchHeaders (s : State) (l : List ElemAcc) : State :=
  (s.keepLanes (l.map (fun e => e.acc))).touch (s.who s.cur).asid (headPieces l) false .normal

/-- Checks 9a to 9f of GATH and SCAT, and then the instruction's own part; it waits while 9f waits, and while a slice has no room for
9f's read of a header. -/
def State.withElems (s : State) (f : ElemF) (a : Acc) (go : State → List ElemAcc → Act) : Act :=
  match s.elemAccs f a with
  | .error t => .trap t
  | .ok l =>
    if s.ownBlock l then .stall
    else if !(s.askSlices s.cur (s.who s.cur).asid (headPieces l)).1 then
      .hold (fun u => (u.askSlices s.cur (s.who s.cur).asid (headPieces l)).2)
    else
      let s := ((s.askSlices s.cur (s.who s.cur).asid (headPieces l)).2).touchHeaders l
      match s.badFormat l with
      | some t => .trapWith t s
      | none => go s l

def execGath (f : ElemF) (s : State) : Res :=
  .next (s.issue (.gath f) (fun s =>
    if s.lanes f.h f.data.isVec = [] then s.idleProducer (.gath f)
    else
      s.withElems f .gath (fun s a =>
        let parts := a.map (fun e => { e.acc.part 64 with a := e.fmt.code, c := e.elem })
        .go (s.sendWB (.gath f) s.cur (s.loadFlight (.gath f.ty f.rnd s.ftz) parts f.data f.q)))))

def execScat (f : ElemF) (s : State) : Res :=
  .next (s.issue (.scat f) (fun s =>
    if s.lanes f.h f.data.isVec = [] then .go s
    else if s.queueFull s.cur then .stall
    else
      s.withElems f .scat (fun s a =>
        let parts := a.map (fun e =>
          { e.acc.part 64 with
            a := e.fmt.code, b := s.readOp s.cur f.data e.acc.lane, c := e.elem })
        .go (s.sendStore (a.map (fun e => e.acc)) 64 (s.storeFlight (.scat f.ty f.rnd s.ftz) parts f.q)))))

/-! PREF (R142). -/

/-- The place of a lane's 64 bytes: those on a second page pass the checks too (R134, R142). -/
def State.prefPlace (s : State) (va : Word) : Except TrapInfo Place :=
  match s.place (s.who s.cur) .ld va 64, s.place (s.who s.cur) .ld (va + 63) 1 with
  | .error t, _ => .error t
  | .ok _, .error t => .error t
  | .ok pl, .ok _ => .ok pl

/-- A prefetched line moves into the slice with no consumer: mismatches in the sectors that it fills there are posted (R362). -/
def State.prefMoved (s : State) (pl : Place) : State :=
  let line := pl.key / 256
  let q := partOf (pl.obj.map (fun o => o.2))
  let at_ := sliceOf pl.key q.1 q.2
  let x := Tab.get L2Set.blank s.l2 (setKey (homeDie pl.key) at_.1 at_.2)
  let held := (x.find line).elim 0 (fun w => (x.way w).valid.toNat)
  s.postMoved (((List.range 4).filter (fun j => !bitAt held j)).map (fun j => 4 * line + j))

/-- One lane's prefetch; a lane that fails a check does nothing. The access is counted for the first lane of a line (R219), and L1 is
asked for a line it does not hold unless BYP is 1; that fill consumes the line, and meets a sector that does not verify (R362). -/
def State.prefOne (s : State) (f : PrefF) (va : Word) (lines : List Nat) : State × List Nat :=
  match s.prefPlace va with
  | .error _ => (s, lines)
  | .ok pl =>
    if !isGlobal pl.key then (s, lines)
    else
      let line := pl.key / 256
      let keys := keysOf (256 * line) 256
      let c := s.curCore
      let b := s.loadBits pl (!f.byp) false true
      let fill := bitAt b 0 && !(s.core c).holdsL1 line
      match if fill then s.badBytes keys else none with
      | some k => (s.consumeBad k c (s.badKey keys) va.toNat, lines)
      | none =>
        let t := (s.keepPlace (s.who s.cur) pl).prefMoved pl
        let t := t.l2Access (if lines.contains line then none else some c) (pl.obj.map (fun o => o.2)) (s.who s.cur).asid va
          keys false f.hint true
        (if fill then t.askL1 c line (s.line line) (bitAt b 1) else t, line :: lines)

/-- A lane's translation is still to be walked for. -/
def State.prefMiss (s : State) (l : List (Nat × Word)) : Option TrapInfo :=
  l.findSome? (fun e =>
    match s.prefPlace e.2 with
    | .error t => if t.isMiss then some t else none
    | .ok _ => none)

/-- Lanes of a PREF: R41 does not list it among the instructions that test their guard in each lane, so it tests bit 0, and then
runs in the lanes of LMASK. -/
def State.prefEas (s : State) (f : PrefF) : List (Nat × Word) :=
  if s.guarded f.h then s.laneEas { f.h with guard := none } (vecTerms f.base f.index) f.base f.index 64 f.disp.toInt else []

/-- The lines that a PREF prefetches. -/
def State.prefPieces (s : State) (l : List (Nat × Word)) : List Piece :=
  l.flatMap (fun e =>
    match s.prefPlace e.2 with
    | .error _ => []
    | .ok pl => if isGlobal pl.key then [⟨e.2, pl.key, 1⟩] else [])

/-- PREF (R142); its requests to the slices may be refused (R220). -/
def execPref (f : PrefF) (s : State) : Res :=
  .next (s.issue (.pref f) (fun s =>
    let l := s.prefEas f
    let asid := (s.who s.cur).asid
    match s.prefMiss l with
    | some t => .trap t
    | none =>
      if !(s.askSlices s.cur asid (s.prefPieces l)).1 then
        .hold (fun u => (u.askSlices s.cur asid (s.prefPieces l)).2)
      else
        let s := (s.askSlices s.cur asid (s.prefPieces l)).2
        .go (l.foldl (fun (t : State × List Nat) e => t.1.prefOne f e.2 t.2) (s, [])).1))

/-! Aged access (R143 to R145). -/

/-- Lane 0 executes in a vector instruction. -/
def State.lane0 (s : State) (h : Hdr) : Bool := (s.ctx s.cur).active h 0

/-- AGLD; the replica is skipped while an AGST of the context to the block is under way. -/
def agldAct (i : Instr) (f : AgldF) (wait : Bool) (s : State) : Act :=
  let p := s.cur
  if !s.lane0 f.h then s.idleProducer i
  else
    let va := s.ea f.base none 0 f.disp.toInt 0
    match misaligned 64 [(0, va)] with
    | some t => .trap t
    | none =>
      match s.placeLanes .agld 64 [(0, va)] with
      | .error t => .trap t
      | .ok a =>
        let own := fun (k : Nat) => (s.earlier p s.nextId).any (fun g => g.isStore && !g.allDone && g.touches k 64)
        let d := coreDie s.curCore
        let parts := a.map (fun e =>
          { e.part 64 with
            b := (own e.pl.key).toNat + 2 * (e.pl.remote d && decide (0 < s.carveLines d)).toNat })
        let act := lanesWord ((s.ctx p).activeLanes f.h)
        let g := { s.newFlight p (.agld wait (s.ctx p).itr f.lag.toNat f.pf.toNat f.pa.toNat f.da act) parts with
          dst := some f.dv, isLoad := true }
        let t := (s.keepLanes a).sendWB i p g
        if wait then .wait (t.sleep p (.flight s.nextId)) else .go t

def execAgldWait (f : AgldF) (s : State) : Res := .next (s.issue (.agldWait f) (agldAct (.agldWait f) f true))
def execAgldTry (f : AgldF) (s : State) : Res := .next (s.issue (.agldTry f) (agldAct (.agldTry f) f false))

/-- An AGST of a die's core leaves no replica of its line on the die, nor one that a read of the die brings (R262). -/
def State.dropReplica (s : State) (line : Nat) : State :=
  let d := coreDie s.curCore
  let s := s.ownCopy d line none
  { s with flights := s.flights.map (fun g =>
      match g.op with
      | .agld .. =>
        if coreDie g.core = d ∧ g.parts.any (fun q => q.key / 256 = line) then
          { g with parts := g.parts.map (fun q => { q with a := 1 }) }
        else g
      | _ => g) }

/-- The 64 bytes of AGST from lanes 0 to k − 1. -/
def State.block64 (s : State) (d : Opnd) : List Byte :=
  (List.range (512 / d.bits)).flatMap (fun l => wordBytes (d.bits / 8) (s.readOp s.cur d l))

def execAgst (f : MemF) (s : State) : Res :=
  .next (s.issue (.agst f) (fun s =>
    let p := s.cur
    if !s.lane0 f.h then .go s
    else if s.queueFull p then .stall
    else
      let va := s.ea f.base f.index (memSize f) f.disp.toInt 0
      match misaligned 64 [(0, va)] with
      | some t => .trap t
      | none =>
        match s.placeLanes .agst 64 [(0, va)] with
        | .error t => .trap t
        | .ok a =>
          let parts := a.map (fun e => { e.part 64 with bytes := keyed e.pl.key (s.block64 f.data) })
          let t := s.sendStore a 64 (s.storeFlight (.agst (s.ctx p).itr) parts f.q)
          .go ((linesOf a 64).foldl (fun t l => t.dropReplica l) t)))

/-! Granules (R146 to R149). -/

/-- LDF and STF lie within one granule. -/
def outOfGranule (n : Nat) (l : List (Nat × Word)) : Option TrapInfo :=
  (l.find? (fun e => 16 < e.2.toNat % 16 + n)).map (fun e => tStraddle e.2)

def State.placeGranule (s : State) (a : Acc) (n : Nat) (l : List (Nat × Word)) : Except TrapInfo (List LaneAcc) :=
  match outOfGranule n l with
  | some t => .error t
  | none => s.placeLanes a n l

def ldfAct (i : Instr) (f : MemF) (clr : Bool) (s : State) : Act :=
  let p := s.cur
  let l := s.memEas f
  if l = [] then s.idleProducer i
  else
    match s.placeGranule .granuleRd (memSize f) l with
    | .error t => .trap t
    | .ok a =>
      let g := s.loadFlight (.ldf clr) (a.map (fun e => e.part (memSize f))) f.data f.q
      .wait ((s.sendWB i p g).sleep p (.flight s.nextId))

def execLdfWf (f : MemF) (s : State) : Res := .next (s.issue (.ldfWf f) (ldfAct (.ldfWf f) f false))
def execLdfWfc (f : MemF) (s : State) : Res := .next (s.issue (.ldfWfc f) (ldfAct (.ldfWfc f) f true))

def execStf (f : MemF) (s : State) : Res :=
  .next (s.issue (.stf f) (fun s =>
    let l := s.memEas f
    if l = [] then .go s
    else if s.queueFull s.cur then .stall
    else
      match s.placeGranule .granuleWr (memSize f) l with
      | .error t => .trap t
      | .ok a => .go (s.send (s.storeFlight .stf (a.map (fun e => s.storePart e f.data (memSize f))) f.q))))

/-- A range of up to 2 MiB runs over the boundary at which a window or a hole begins. -/
def State.overEdge (s : State) (va : Word) (len : Nat) : Bool :=
  let b := (va.toNat / 2097152 + 1) * 2097152
  decide (b < va.toNat + len) && decide ((s.regionOf s.curCore va).1 ≠ (s.regionOf s.curCore (BitVec.ofNat 64 b)).1)

/-- FEMARK: a store of colour 0 to each of n granules. No window holds more than 2^17 of them, and a range that leaves its region
straddles (R134). -/
def femarkAct (f : FemarkF) (full : Bool) (s : State) : Act :=
  let p := s.cur
  let va := s.t64 f.base
  let n := s.opImm p f.n
  if !s.guarded f.h then .go s
  else if s.queueFull p then .stall
  else if va.toNat % 16 ≠ 0 then .trap (tAlign va 16)
  else if n = 0 then .go s
  else if 2 ^ 17 < n ∨ s.overEdge va (16 * n) then .trap (tStraddle va)
  else
    match s.placeLanes .granuleWr (16 * n) [(0, va)] with
    | .error t => .trap t
    | .ok a =>
      let parts := a.map (fun e => e.part (16 * n))
      .go (s.send { s.newFlight p (.femark full) parts with isStore := true, colour := some 0 })

def execFemarkFull (f : FemarkF) (s : State) : Res := .next (s.issue (.femarkFull f) (femarkAct f true))
def execFemarkEmpty (f : FemarkF) (s : State) : Res := .next (s.issue (.femarkEmpty f) (femarkAct f false))

/-! SPILL and FILL (R150 to R152). -/

/-- Bytes of one block in memory. -/
def blockBytes (file : FileId) : Nat := if file.isVec then 2048 else 32

def blkVa (f : BlkF) (s : State) (q : Nat) : Word := s.t64 f.base + BitVec.ofNat 64 (q * blockBytes f.file)

/-- The lanes of a block with their addresses. -/
def blkPieces (f : BlkF) (s : State) (q : Nat) : List (Nat × Word) :=
  (List.range (blockBytes f.file / 32)).map (fun l => (l, blkVa f s q + BitVec.ofNat 64 (32 * l)))

/-- Translate and check all bytes of a memory block. -/
def blkPlace (f : BlkF) (s : State) (a : Acc) (q : Nat) : Except TrapInfo (List LaneAcc) :=
  let va := blkVa f s q
  let last := va + BitVec.ofNat 64 (blockBytes f.file - 1)
  if (s.regionOf s.curCore va).1 ≠ (s.regionOf s.curCore last).1 then .error (tStraddle va)
  else s.placeLanes a 32 (blkPieces f s q)

/-- Octets of the q-th block of a range. -/
def blkOctets (f : BlkF) (q : Nat) : List (FileId × Nat) :=
  (List.range 8).map (fun j => (f.file, 8 * (f.first.toNat + q) + j))

def State.setSpx (s : State) (n : Nat) : State := s.modCtx s.cur (fun x => { x with spx := BitVec.ofNat 6 n })

/-- The line that a block shares with the one before it, at which the instruction's access has been counted (R219). -/
def blkShared (f : BlkF) (s : State) (q : Nat) (a : List LaneAcc) : List Nat :=
  if q = 0 ∨ (blkVa f s q).toNat % 256 = 0 then [] else (a.head?.map (fun e => e.pl.key / 256)).toList

/-- SPILL moves one block an issue, and is issued again until the last one. Like any source, a block with an empty octet is waited for
whole (R26). -/
def spillAct (f : BlkF) (s : State) : Act :=
  let p := s.cur
  let q := (s.ctx p).spx.toNat
  let base := s.t64 f.base
  if !s.guarded f.h then .go s
  else if base.toNat % 32 ≠ 0 then .trap (tAlign base 32)
  else if f.count.toNat ≤ q then .go (s.setSpx 0)
  else
    if (blkOctets f q).any (s.octetEmpty p) then
      .again (s.modCtx p (fun x => { x with run := .asleep (.octets (blkOctets f q)) s.cycle }))
    else
      if s.ueIn p (blkOctets f q) then .trapWith ⟨0x101, 0, 0⟩ s
      else if s.queueFull p then .stall
      else
        match blkPlace f s .st q with
        | .error t => .trapWith t s
        | .ok a =>
          let data := fun (l : Nat) => (s.window p f.file).read l (64 * (f.first.toNat + q)) 64
          let parts := a.map (fun e =>
            { e.part 32 with bytes := keyed e.pl.key (wordBytes 32 (data e.lane)) })
          let t := s.sendStore a 32 { s.newFlight p .store parts with
            isStore := true, colour := some f.colour.toNat, lines := blkShared f s q a }
          if q + 1 = f.count.toNat then .go (t.setSpx 0) else .again (t.setSpx (q + 1))

def execSpill (f : BlkF) (s : State) : Res := .next (s.issue (.spill f) (spillAct f))

/-- The places of n of FILL's blocks from q on, up to one that fails a check, with that block and its trap (R152). -/
def fillPlaces (f : BlkF) (s : State) : Nat → Nat → List (Nat × List LaneAcc) × Option (Nat × TrapInfo)
  | 0, _ => ([], none)
  | n + 1, q =>
    match blkPlace f s .ld q with
    | .error t => ([], some (q, t))
    | .ok a =>
      let r := fillPlaces f s n (q + 1)
      ((q, a) :: r.1, r.2)

/-- One block's read is sent, past L1; the reads of one FILL bear its number, and come block by block (R152). -/
def fillSend (f : BlkF) (first : Nat) (s : State) (x : Nat × List LaneAcc) : State :=
  let p := s.cur
  let parts := x.2.map (fun e => { e.part 32 with a := x.1, b := s.loadBits e.pl false false false, c := first })
  let g := { s.newFlight p (.fill f.file (f.first.toNat + x.1)) parts with isLoad := true, lines := blkShared f s x.1 x.2 }
  let t := (s.keepLanes x.2).fresh
  (t.addWB p .late true [] [] .none (blkOctets f x.1) []).addFlight { g with id := s.nextId, wb := some t.nextId }

/-- FILL: with every translation at hand, the reads of all its blocks are sent up to one that fails a check. -/
def fillAct (f : BlkF) (s : State) : Act :=
  let q := (s.ctx s.cur).spx.toNat
  let base := s.t64 f.base
  if !s.guarded f.h then .go s
  else if base.toNat % 32 ≠ 0 then .trap (tAlign base 32)
  else
    let r := fillPlaces f s (f.count.toNat - q) q
    let sent := r.1.foldl (fillSend f s.nextId) s
    match r.2 with
    | none => .go (sent.setSpx 0)
    | some (k, t) => if t.isMiss then .trap t else .trapWith t (sent.setSpx k)

def execFill (f : BlkF) (s : State) : Res := .next (s.issue (.fill f) (fillAct f))

/-! FENCE (R153, R154). -/

def State.loadsDone (s : State) (p : Nat) : Bool := (s.earlier p s.nextId).all (fun f => !f.isLoad || f.allDone)

def State.storesOut (s : State) (p : Nat) (mask : BitVec 8) (scope : Scope) : Bool :=
  (s.earlier p s.nextId).all (fun f => !f.owed mask scope)

/-- FENCE holds its context until its condition is met. -/
def fenceAct (f : FenceF) (loads stores : Bool) (s : State) : Act :=
  let p := s.cur
  if !s.guarded f.h then .go s
  else if (loads && !s.loadsDone p) || (stores && !s.storesOut p f.mask f.scope) then .stall
  else .go (if loads then s.acquire p else s)

def execFenceLL (f : FenceF) (s : State) : Res := .next (s.issue (.fenceLL f) (fenceAct f true false))
def execFenceSL (f : FenceF) (s : State) : Res := .next (s.issue (.fenceSL f) (fenceAct f false true))
def execFenceSS (f : FenceF) (s : State) : Res := .next (s.issue (.fenceSS f) (fenceAct f false true))
def execFenceFull (f : FenceF) (s : State) : Res := .next (s.issue (.fenceFull f) (fenceAct f true true))

end Sys2Proof.Machine
end

