-- ==== Sys2Proof/Machine/Atomics.lean ====
section
/-! DEFINITION. The instructions of class 5: atomics (R155 to R159), waits on counters and words (R160, R163, R381), counter
updates and reads (R161, R162), and IFLUSH (R63, R164). -/

namespace Sys2Proof.Machine

/-! Atomics. -/

/-- An atomic of the host subset (R158). -/
def AtOp.onHost : AtOp → Bool
  | .add | .xch | .cas => true
  | .min | .max | .and | .or | .xor | .fadd | .inc | .dec => false

/-- 9e: the first lane aimed at host memory that the subset does not hold. -/
def hostTrap (ok : Bool) (l : List LaneAcc) : Option TrapInfo :=
  if ok then none
  else
    let h := l.filter (fun e => isHost e.pl.key)
    h.head?.map (fun e => tAtomUnsupported e.va (lanesWord (h.map (fun e => e.lane))))

def ordAcq (o : AOrder) : Bool := o = .acquire || o = .acqRel
def ordRel (o : AOrder) : Bool := o = .release || o = .acqRel

/-- One atomic: its destination, address, operands and ordering. -/
structure AtomArgs where
  (op : AtOp) (ty : Ty) (d : Option Opnd) (base b : Opnd) (nv : Option Opnd) (order : AOrder) (scope : Scope)
  (mask : BitVec 8)

def AtomArgs.vec (a : AtomArgs) : Bool :=
  (a.d.map Opnd.isVec).getD false || a.base.isVec || a.b.isVec || (a.nv.map Opnd.isVec).getD false

/-- A 32-bit pattern of ATFADD, or an integer operand at the type's width (R155). -/
def AtomArgs.val (a : AtomArgs) (s : State) (o : Opnd) (lane : Nat) : Nat :=
  if a.ty = .f32 then s.readOp s.cur o lane else s.bitsOp s.cur a.ty o lane

def AtomArgs.parts (a : AtomArgs) (s : State) (l : List LaneAcc) : List Part :=
  l.map (fun e =>
    { e.part (a.ty.bits / 8) with
      a := a.val s a.b e.lane, b := (a.nv.map (fun o => a.val s o e.lane)).getD 0 })

/-- Issue of an atomic: checks of every lane, then its lines leave L1 and the local Mirror copies (R210, R222). -/
def atomAct (i : Instr) (x : AtomArgs) (s : State) : Act :=
  let p := s.cur
  let n := x.ty.bits / 8
  let l := (s.lanes i.hdr x.vec).map (fun k => (k, BitVec.ofNat 64 (s.readOp p x.base k)))
  if l = [] then s.idleProducer i
  else if x.d.isNone ∧ s.queueFull p then .stall
  else
    match misaligned n l with
    | some t => .trap t
    | none =>
      match s.placeLanes .atomic n l with
      | .error t => .trap t
      | .ok a =>
        match hostTrap x.op.onHost a with
        | some t => .trap t
        | none =>
          let g := { s.newFlight p (.atom x.op x.ty) (x.parts s a) with
            dst := x.d, isLoad := true, isStore := true, acquire := ordAcq x.order
            release := if ordRel x.order then some x.mask else none
            scope := x.scope }
          let t := ((s.keepLanes a).dropL1 s.curCore (linesOf a n)).dropMirror a
          .go (if x.d.isSome then t.sendWB i p g else t.send g)

def atomArgs (f : AtomF) (op : AtOp) : AtomArgs := ⟨op, f.ty, f.d, f.base, f.b, none, f.order, f.scope, f.mask⟩

def execAtadd (f : AtomF) (s : State) : Res := .next (s.issue (.atadd f) (atomAct (.atadd f) (atomArgs f .add)))
def execAtmin (f : AtomF) (s : State) : Res := .next (s.issue (.atmin f) (atomAct (.atmin f) (atomArgs f .min)))
def execAtmax (f : AtomF) (s : State) : Res := .next (s.issue (.atmax f) (atomAct (.atmax f) (atomArgs f .max)))
def execAtand (f : AtomF) (s : State) : Res := .next (s.issue (.atand f) (atomAct (.atand f) (atomArgs f .and)))
def execAtor (f : AtomF) (s : State) : Res := .next (s.issue (.ator f) (atomAct (.ator f) (atomArgs f .or)))
def execAtxor (f : AtomF) (s : State) : Res := .next (s.issue (.atxor f) (atomAct (.atxor f) (atomArgs f .xor)))
def execAtxch (f : AtomF) (s : State) : Res := .next (s.issue (.atxch f) (atomAct (.atxch f) (atomArgs f .xch)))
def execAtcas (f : CasF) (s : State) : Res :=
  .next (s.issue (.atcas f)
    (atomAct (.atcas f) ⟨.cas, f.ty, f.d, f.base, f.c, some f.nv, f.order, f.scope, f.mask⟩))
def execAtfadd (f : AtomF) (s : State) : Res := .next (s.issue (.atfadd f) (atomAct (.atfadd f) (atomArgs f .fadd)))
def execAtinc (f : AtomF) (s : State) : Res := .next (s.issue (.atinc f) (atomAct (.atinc f) (atomArgs f .inc)))
def execAtdec (f : AtomF) (s : State) : Res := .next (s.issue (.atdec f) (atomAct (.atdec f) (atomArgs f .dec)))

/-! Waits on words (R160, R163, R381). -/

/-- The place of a counter or word of n bytes. -/
def State.placeWord (s : State) (a : Acc) (n : Nat) (va : Word) : Except TrapInfo (List LaneAcc) :=
  match misaligned n [(0, va)] with
  | some t => .error t
  | none => s.placeLanes a n [(0, va)]

/-- A wait is sent to the word's atomic point, and its context sleeps. -/
def waitAct (i : Instr) (op : FlOp) (n : Nat) (base : Opnd) (scope : Scope) (s : State) : Act :=
  let p := s.cur
  if !s.guarded i.hdr then s.idleProducer i
  else
    match s.placeWord .counter n (s.t64 base) with
    | .error t => .trap t
    | .ok a =>
      let g := { s.newFlight p op (a.map (fun e => e.part n)) with
        isLoad := true, acquire := true, scope := scope }
      let t := s.keepLanes a
      .wait ((if i.shape.pwr = [] then t.send g else t.sendWB i p g).sleep p (.flight s.nextId))

def execWaitc (f : WaitcF) (s : State) : Res :=
  .next (s.issue (.waitc f) (fun s =>
    waitAct (.waitc f) (.waitc (s.u64 s.cur f.target) none) 8 f.base f.scope s))

def execWaitcNt (f : WaitcNtF) (s : State) : Res :=
  .next (s.issue (.waitcNt f) (fun s =>
    waitAct (.waitcNt f) (.waitc (s.u64 s.cur f.target) (some f.pn.toNat)) 8 f.base f.scope s))

def execWaitf (f : WaitfF) (s : State) : Res :=
  .next (s.issue (.waitf f) (fun s =>
    let m := match f.m with
      | none => 2 ^ f.ty.bits - 1
      | some o => s.bitsOp s.cur f.ty o 0
    waitAct (.waitf f) (.waitf f.ty f.cc (s.bitsOp s.cur f.ty f.v 0) m) (f.ty.bits / 8) f.base f.scope s))

/-! Counters (R161, R162). -/

/-- CNTADD is a colourless store and a release with MASK. -/
def cntaddAct (f : CntAddF) (err : Bool) (s : State) : Act :=
  let p := s.cur
  if !s.guarded f.h then .go s
  else if s.queueFull p then .stall
  else
    match s.placeWord .atomic 8 (s.t64 f.base) with
    | .error t => .trap t
    | .ok a =>
      match hostTrap false a with
      | some t => .trap t
      | none =>
        let v := s.u64 p f.n
        let parts := a.map (fun e => { e.part 8 with a := if err then v % 128 else v % 2 ^ 56 })
        let g := { s.newFlight p (.cntadd err) parts with isStore := true, release := some f.mask, scope := f.scope }
        .go ((s.dropMirror a).sendStore a 8 g)

def execCntadd (f : CntAddF) (s : State) : Res := .next (s.issue (.cntadd f) (cntaddAct f false))
def execCntaddErr (f : CntAddF) (s : State) : Res := .next (s.issue (.cntaddErr f) (cntaddAct f true))

def execCntrd (f : MemF) (s : State) : Res :=
  .next (s.issue (.cntrd f) (fun s =>
    let l := s.memEas f
    if l = [] then s.idleProducer (.cntrd f)
    else
      match misaligned 8 l with
      | some t => .trap t
      | none =>
        match s.placeLanes .counter 8 l with
        | .error t => .trap t
        | .ok a =>
          .go ((s.keepLanes a).sendWB (.cntrd f) s.cur
            (s.loadFlight .cntrd (a.map (fun e => e.part 8)) f.data f.q))))

/-! IFLUSH. -/

def execIflush (f : NulF) (s : State) : Res :=
  .next (s.issue (.iflush f) (fun s =>
    let p := s.cur
    if !s.guarded f.h then .go s
    else if !s.drained p then .stall
    else .go ((s.modCore s.curCore (fun x => { x with l0 := [] })).modCtx p (fun x => { x with fetch := none }))))

end Sys2Proof.Machine
end

