-- ==== Sys2Proof/Machine/Fetch.lean ====
section
/-! DEFINITION. Fetch of code (R39, R61 to R63): 32-byte blocks through the context's fetch buffer and its core's L0, and
the decoding of the instruction at the program counter. -/

namespace Sys2Proof.Machine

def blockOf (pc : Word) : Word := BitVec.ofNat 64 (pc.toNat / 32 * 32)

/-- Where the block of an address lies; code runs only from global memory and the local window (R39). -/
def State.fetchPlace (s : State) (p : Nat) (va : Word) : Except TrapInfo Place :=
  match s.regionOf (p / 16) va with
  | (.hole, _) => .error (tProt va 3)
  | (.window _, _) =>
    if localBase ≤ va.toNat ∧ va.toNat < localBase + 2097152 then s.place (s.who p) .fetch va 32
    else .error (tProt va 3)
  | (.paged, _) => s.place (s.who p) .fetch va 32

/-- What a fetch answers. -/
inductive Fetched
  | instr (i : Instr) (s : State)
  /-- No instruction: the slot is forfeited, the context traps, or a device event has taken its task. -/
  | none (s : State)

/-- A block read at its home, past L1 and the Mirror, and kept in L0; in the fetch buffer too where the context has reached
it. L0 keeps each block until an IFLUSH or a start: it never replaces one (log 110). -/
def State.readBlock (s : State) (p : Nat) (pl : Place) (va : Word) (reached : Bool) : State :=
  let b : CodeBlock := ⟨pl.key, s.bytes pl.key 32⟩
  let s := s.l2Access none (pl.obj.map (fun o => o.2)) (s.who p).asid va (keysOf pl.key 32) false .normal true
  let s := s.modCore (p / 16) (fun x => { x with l0 := b :: x.l0.filter (fun y => y.key ≠ pl.key) })
  if reached then s.modCtx p (fun x => { x with fetch := some b }) else s

/-- A block of the fetch buffer or L0 goes into the fetch buffer; neither observes a store (R62). -/
def State.useBlock (s : State) (p key : Nat) : State :=
  match (s.ctx p).fetch with
  | some b =>
    if b.key = key then s
    else
      match (s.core (p / 16)).l0.find? (fun y => y.key = key) with
      | some y => s.modCtx p (fun x => { x with fetch := some y })
      | none => s
  | none =>
    match (s.core (p / 16)).l0.find? (fun y => y.key = key) with
    | some y => s.modCtx p (fun x => { x with fetch := some y })
    | none => s

def State.inL0 (s : State) (p key : Nat) : Bool :=
  (s.core (p / 16)).l0.any (fun y => y.key = key) ||
    (match (s.ctx p).fetch with | some b => b.key = key | none => false)

/-- Decode the instruction at pc from the block in the fetch buffer. The address is used as it stands, also one that a write
of XPC has left no multiple of 4 (log 111). -/
def State.decodeAt (s : State) (p : Nat) : Fetched :=
  let x := s.ctx p
  match x.fetch with
  | none => .none s
  | some b =>
    let l := b.bytes.drop (x.pc.toNat % 32)
    match decode l with
    | .ok (i, _) => .instr i s
    | .error _ =>
      let bits := match l with | [] => 3 | a :: _ => a.toNat % 4
      .none ((s.modCtx p (fun x => { x with ilen := BitVec.ofNat 2 bits })).raise p tUndef)

/-- Fetch and decode at a context's program counter; a context whose block has not been read, or whose page is still to be
walked for, is not ready and forfeits its slot (R11). -/
def State.fetch (s : State) (p : Nat) : Fetched :=
  let x := s.ctx p
  let va := blockOf x.pc
  match s.fetchPlace p va with
  | .error t =>
    if t.isMiss then .none ((s.walkMiss p t).forfeit (p / 16))
    else
      let t := if t.event.isSome then t else { t with addr := x.pc }
      .none ((s.modCtx p (fun x => { x with ilen := 3 })).raise p t)
  | .ok pl =>
    let s := s.keepPlace (s.who p) pl
    if s.inL0 p pl.key then (s.useBlock p pl.key).decodeAt p else .none (s.forfeit (p / 16))

/-- The slices of a block's line. -/
def State.fetchSlices (s : State) (p : Nat) (va : Word) (pl : Place) : List Nat :=
  s.pieceSlices (s.who p).asid [⟨va, pl.key, 32⟩]

/-- The refusals of a context's request for a block. -/
def Ctx.fetchRefusals (x : Ctx) (va : Word) (key : Nat) : Hold :=
  match x.fhold with
  | some (a, k, h) => if a = va ∧ k = key then h else .none
  | none => .none

/-- The request for the block that a context has reached: taken, refused, or held back (R220). One ahead of need is sent only to a
slice that takes it (log 39). -/
def State.askBlock (s : State) (p : Nat) (va : Word) (pl : Place) (reached : Bool) : Bool × State :=
  let ks := s.fetchSlices p va pl
  if !reached then (s.roomAt ks, s)
  else
    let h := (s.ctx p).fetchRefusals va pl.key
    if !s.maySend h (p / 16) (.fetch p) ks then (false, s)
    else (s.modCtx p (fun x => { x with fhold := some (va, pl.key, h) })).enterSlices (.fetch p) (p / 16) ks

/-- Requests for blocks that are wanted no more. -/
def State.dropFetches (s : State) : State :=
  s.ctxs.foldl (fun t e =>
    if e.2.fhold.isSome ∧ (t.fetchHold e.1).isNone then t.modCtx e.1 (fun x => { x with fhold := none }) else t) s

/-- FETCH_BLOCK_READ: of the block a context has reached, or ahead of need, where faults are discarded (R61). -/
def execFetchBlockRead (c k : Nat) (block : Word) (s : State) : Host.Outcome State Fault Refusal :=
  let p := ctxId c k
  let va := blockOf block
  .next (match s.fetchPlace p va with
    | .error _ => s
    | .ok pl =>
      let reached := (s.ctx p).run = .awake && blockOf (s.ctx p).pc = va
      match s.askBlock p va pl reached with
      | (false, t) => t
      | (true, t) =>
        match t.badBytes (keysOf pl.key 32) with
        | some n => if reached then t.consumeBad n c (t.badKey (keysOf pl.key 32)) va.toNat else t
        | none => (t.keepPlace (t.who p) pl).readBlock p pl va reached)

/-- A block that a context's fetches may read and do not hold. -/
def State.wantsBlock (s : State) (p : Nat) (va : Word) : Bool :=
  match s.fetchPlace p va with
  | .error _ => false
  | .ok pl => !s.inL0 p pl.key

/-- Blocks that awake contexts have reached, and the ones after those in their fetch buffers (log 110). -/
def State.demands (s : State) : List Instr :=
  s.ctxs.filterMap (fun e =>
    let va := blockOf e.2.pc
    if e.2.run = .awake ∧ s.wantsBlock e.1 va then some (.fetchBlockRead (e.1 / 16) (e.1 % 16) va) else none)

def State.prefetches (s : State) : List Instr :=
  s.ctxs.filterMap (fun e =>
    let va := blockOf e.2.pc + 32
    if e.2.run = .awake ∧ e.2.fetch.isSome ∧ s.wantsBlock e.1 va then some (.fetchBlockRead (e.1 / 16) (e.1 % 16) va)
    else none)

end Sys2Proof.Machine
end

