-- ==== Sys2Proof/Machine/EngineEvents.lean ====
section
/-! DEFINITION. Events of the engines: packets of copies (R192 to R194, R303 to R307), ranked staging (R289), rows of
matrix commands (R197, R198, R310), leave (R312), fault records (R308), and counter updates (R193, R276, R279). -/

namespace Sys2Proof.Machine

/-! Accesses of an engine (R303, R271). -/

def CopyCmd.who (c : CopyCmd) : Who := ⟨c.core, coreDie c.core, c.asid, c.region, c.priv, true, c.xl, true⟩
def MatCmd.who (m : MatCmd) : Who := ⟨m.core, coreDie m.core, m.asid, m.region, m.priv, true, m.xl, true⟩

/-- The share at a key is still one the command may reach when the access is applied: its own task's by the local window, or
that of a running task (R271, R303). -/
def State.shareOk (s : State) (w : Who) (uid : Nat) (va : Word) (key : Nat) : Bool :=
  !isScratch key || (if inLocal va then s.shareCore uid = some (scratchCore key) else s.peerOk w (scratchCore key))

/-! Counter updates (R193, R276, R279, R323, R371). -/

/-- After an update its command goes on or leaves; LIVE follows DONECTR (R323). -/
def State.ctrAfter (s : State) (u : CtrUp) : State :=
  match u.who with
  | .copy c id => (match u.act with | .add _ => s.copySettle c id | .err _ => s)
  | .mat c _ _ => s.matRetire c
  | .control d => s.liveDown d u.live
  | .ingest => s

/-- A bad sector met by an update. -/
def State.ctrBad (s : State) (u : CtrUp) (kind key : Nat) : State :=
  match u.fdom with
  | some f => s.discardFor kind u.die 0xFF u.region u.asid key u.va.toNat f
  | none => s.postEvent ⟨kind, 0x100, u.die, 0xFF, u.region, u.asid, key, u.va.toNat, 0⟩

/-- An update is no more on its way. -/
def State.dropUpdate (s : State) (u : CtrUp) : State := { s with ctrUps := s.ctrUps.filter (fun v => v.id ≠ u.id) }

/-- One update at the word's atomic point; every watch of the word retests. -/
def State.ctrWrite (s : State) (u : CtrUp) (p : Place) : State :=
  let s := (s.dropUpdate u).keepPlace u.access p
  match s.ctrPut u p.key with
  | .error k => ((s.ctrBad u k p.key).ctrAfter u).settle
  | .ok s => (s.ctrAfter u).settle

/-- A counter, with what the checks of its word gave, enters its error phase in the step of a packet's or a row's failure (R193, R198,
R309): an update that fails is dropped and recorded, or its sector's event posted. -/
def State.errPhase (s : State) (u : CtrUp) (at_ : Except TrapInfo Place) : State :=
  match at_ with
  | .error t => if t.event.isSome then s.ctrBad u (t.code - 0x100) t.addr.toNat else s.ctrLost u t
  | .ok p =>
    let s := s.keepPlace u.access p
    match s.ctrPut u p.key with
    | .error k => s.ctrBad u k p.key
    | .ok t => t

/-- A failure comes when the translations of the counter words that it changes are at hand: the first one missing is walked for. -/
def State.withCtrs (s : State) (l : List (Walker × CtrUp)) (go : State) : State :=
  match l.findSome? (fun x => match s.ctrPlace x.2 with
    | .error t => if t.isMiss then some (x, t) else none
    | .ok _ => none) with
  | some (x, t) => s.askWalk x.2.die x.2.asid t.info [x.1]
  | none => go

/-! Copy packets. -/

def State.modCopy (s : State) (core id : Nat) (f : CopyCmd → CopyCmd) : State :=
  s.modCore core (fun x => { x with copies := x.copies.map (fun c => if c.id = id then f c else c) })

def State.copy (s : State) (core id : Nat) : Option CopyCmd := (s.core core).copies.find? (fun c => c.id = id)
def State.packet (s : State) (core id : Nat) : Option Packet := (s.core core).packets.find? (fun k => k.id = id)

def State.setPacket (s : State) (core : Nat) (k : Packet) : State :=
  s.modCore core (fun x => { x with packets := x.packets.map (fun q => if q.id = k.id then k else q) })

def State.dropPacket (s : State) (core id : Nat) : State :=
  s.modCore core (fun x => { x with packets := x.packets.filter (fun q => q.id ≠ id) })

/-- The command whose packets are issued now (R301). -/
def State.copyHead (s : State) (core : Nat) : Option CopyCmd :=
  (s.core core).copies.find? (fun c => !c.issued && c.fault.isNone)

/-- The accesses that a release waits for have been made, and where it is at SYS scope confirmed (R236, R240, R245). -/
def State.afterDone (s : State) (l : List (Nat × Bool)) : Bool :=
  l.all (fun x => match s.flight x.1 with | none => true | some f => f.allDone && !(x.2 && f.hostPend))

def CopyCmd.esize (c : CopyCmd) : Nat := 2 ^ c.esz
def CopyCmd.elems (c : CopyCmd) : Nat := c.len0 * c.len1 * c.len2
def CopyCmd.total (c : CopyCmd) : Nat := c.elems * c.esize

/-- Address of an element: innermost index first (R192). -/
def CopyCmd.addr (c : CopyCmd) (base : Word) (s0 s1 s2 : Int) (e : Nat) : Word :=
  let i0 := e % c.len0
  let i1 := e / c.len0 % c.len1
  let i2 := e / c.len0 / c.len1
  base + BitVec.ofInt 64 (i0 * s0 + i1 * s1 + i2 * s2)

def CopyCmd.srcOf (c : CopyCmd) (e : Nat) : Word := c.addr c.src c.ss0 c.ss1 c.ss2 e
def CopyCmd.dstOf (c : CopyCmd) (e : Nat) : Word := c.addr c.dst c.ds0 c.ds1 c.ds2 e

/-- Address of byte n of the copy's source and destination. -/
def CopyCmd.srcByte (c : CopyCmd) (n : Nat) : Word := c.srcOf (n / c.esize) + BitVec.ofNat 64 (n % c.esize)
def CopyCmd.dstByte (c : CopyCmd) (n : Nat) : Word := c.dstOf (n / c.esize) + BitVec.ofNat 64 (n % c.esize)

/-- Source pieces of the packet that goes on at byte n with room for more bytes of its destination line; a piece lies in
one element and one line of the source. -/
def CopyCmd.pieces (c : CopyCmd) : Nat → Nat → Nat → List (Word × Nat)
  | 0, _, _ => []
  | fuel + 1, n, room =>
    let a := c.srcByte n
    let k := min (min (c.esize - n % c.esize) room) (256 - a.toNat % 256)
    let m := n + k
    let more := k < room && m < c.total && (m % c.esize ≠ 0 || c.dstByte m = c.dstByte n + BitVec.ofNat 64 k)
    (a, k) :: (if more then CopyCmd.pieces c fuel m (room - k) else [])

/-- The next packet: source pieces, in the room to the next destination line. -/
def CopyCmd.nextPieces (c : CopyCmd) : List (Word × Nat) :=
  c.pieces 512 c.next (256 - (c.dstByte c.next).toNat % 256)

def piecesLen (l : List (Word × Nat)) : Nat := l.foldl (fun n p => n + p.2) 0

/-- Source bytes in more than one region of R208: the first piece outside the first one's region (R305). -/
def State.leaves (s : State) (core : Nat) (l : List (Word × Nat)) : Option TrapInfo :=
  match l with
  | [] => none
  | p :: r =>
    (r.find? (fun q => decide ((s.regionOf core q.1).1 ≠ (s.regionOf core p.1).1))).map (fun q => tStraddle q.1)

def placesOf : List (Except TrapInfo Place) → List TrapInfo × List Place
  | [] => ([], [])
  | r :: l =>
    let q := placesOf l
    match r with
    | .error t => (t :: q.1, q.2)
    | .ok p => (q.1, p :: q.2)

/-- The first trap in the order of R134 among errors in address order. -/
def firstErr (l : List TrapInfo) : Option TrapInfo :=
  match l.find? (fun t => t.code = 0x0B) with
  | some t => some t
  | none =>
    match l.find? (fun t => t.code = 0x09) with
    | some t => some t
    | none => l.head?

def CopyCmd.dstAcc (c : CopyCmd) : Acc := if c.red.isSome then .copyRed else .copyWr

/-- Checks of a packet: source, then destination (R192, R305). -/
def State.checkPacket (s : State) (c : CopyCmd) (src : List (Word × Nat)) : Except TrapInfo (List Place × Place) :=
  let w := c.who
  let len := piecesLen src
  let core := (s.shareCore c.uid).getD noCore
  let a := placesOf (src.map (fun p => s.engPlace w c.uid .copyRd p.1 p.2))
  let b := s.engPlace w c.uid c.dstAcc (c.dstByte c.next) len
  let e := (s.leaves core src).toList ++ a.1 ++ (match b with | .error t => [t] | .ok _ => [])
  match firstErr e, b with
  | some t, _ => .error t
  | none, .error t => .error t
  | none, .ok p => .ok (a.2, p)

/-- A landed packet of a copy is counted: its place in the command's count is free once the update is made. -/
def State.countCopy (s : State) (c : CopyCmd) : State :=
  if c.counter = 0 then s.copySettle c.core c.id else s.postCtr (c.update (.add 1))

/-- The update that carries a failure into a command's counter, with the translations that the command holds. -/
def CopyCmd.errors (c : CopyCmd) (code : Nat) : List (Walker × CtrUp) :=
  if c.counter = 0 then [] else [(.copy c.core c.id, { c.update (.err code) with xl := c.xl })]

/-- A packet fails: the record, and the counter's error phase, in the same step (R193, R309). The command waits for the packets
before it (R301). -/
def State.failCopy (s : State) (c : CopyCmd) (code : Nat) (va : Word) : State :=
  let errs := (c.errors code).map (fun x => (x.2, s.ctrPlace x.2))
  let s := (s.recordCopy c.core c.ctx c.xid code va).modCopy c.core c.id (fun x =>
    { x with fault := some (x.fault.getD code) })
  (errs.foldl (fun t x => t.errPhase x.1 x.2) s).copySettle c.core c.id

/-- A packet that has been issued fails and is gone. -/
def State.failPacket (s : State) (c : CopyCmd) (id code : Nat) (va : Word) : State :=
  s.withCtrs (c.errors code) ((s.dropPacket c.core id).failCopy c code va).settle

/-- A device event met by a command: its domain is discarded, and the command, where it is still there, goes no further. -/
def State.badCheck (s : State) (c : CopyCmd) (kind key : Nat) (va : Word) : State :=
  let s := s.discardFor kind (coreDie c.core) 0xFF c.region c.asid key va.toNat c.fdom
  (s.modCopy c.core c.id (fun x => { x with fault := some (x.fault.getD cancelled) })).copySettle c.core c.id

/-- The next packet of a command enters the engine. -/
def State.addPacket (s : State) (c : CopyCmd) (src : List (Word × Nat)) (pl : List Place) (d : Place) : State :=
  let len := piecesLen src
  let s := (d :: pl).foldl (fun t p => t.keepPlace c.who p) s
  let pk : Packet :=
    { id := s.nextId, cmd := c.id, dstVa := c.dstByte c.next, dstKey := d.key, len := len, off := c.next % c.esize
      src := (pl.zip src).map (fun x => ⟨x.1.key, x.2.2, x.2.1, none⟩), data := [], stage := .issued, dstPage := d.xlat
      srcPages := (pl.filterMap (fun p => p.xlat)).dedup, hold := .none }
  let s := s.fresh.modCore c.core (fun x => { x with packets := x.packets ++ [pk], pktAt := s.cycle + 1 })
  s.modCopy c.core c.id (fun x =>
    { x with next := x.next + len, issued := decide (c.total ≤ c.next + len), xl := [] })

/-- COPY_PACKET_ISSUE: the next packet is formed, checked and issued, or the command fails. A translation to be walked for
holds it back; an error in the command's queue entry is met here (R358). -/
def State.issuePacket (s : State) (c : CopyCmd) : State :=
  let src := c.nextPieces
  let t := s.modCopy c.core c.id (fun x => { x with started := true })
  let opened := t.modCopy c.core c.id (fun x => { x with open_ := x.open_ + 1 })
  if s.ueCmds.contains c.id then
    ({ opened with ueCmds := opened.ueCmds.filter (fun n => n ≠ c.id) }).badCheck c 1 scratchBase 0
  else
  match s.checkPacket c src with
  | .error e =>
    if e.isMiss then t.askWalk (coreDie c.core) c.asid e.info [.copy c.core c.id]
    else if e.event.isSome then opened.badCheck c (e.code - 0x100) e.addr.toNat e.info
    else s.withCtrs (c.errors e.code) (opened.failCopy c e.code e.addr).settle
  | .ok (pl, d) => opened.addPacket c src pl d

/-- The engine may issue its next packet: with leave, after the release of the launch, one in a cycle (R307, R312). -/
def State.mayIssue (s : State) (c : CopyCmd) : Bool :=
  (c.leave = .notNeeded || c.leave = .granted) && s.afterDone c.after && decide ((s.core c.core).pktAt ≤ s.cycle)
    && !s.inWalk (coreDie c.core) (.copy c.core c.id)

def execCopyPacketIssue (core : Nat) (s : State) : Ev :=
  .next (match s.copyHead core with
    | none => s
    | some c => if s.mayIssue c then s.issuePacket c else s)

/-! Landing (R306, R307). -/

/-- Port of an address of a peer-device window or of the storage window, and the address it presents (R304, R367). -/
def portOf (key : Nat) : Nat := if bitsAt key 44 4 = 2 then 2 + bitsAt key 42 2 else 1
def portAddr (key : Nat) : Nat := if bitsAt key 44 4 = 2 then bitsAt key 0 42 else bitsAt key 0 44

/-- The link that leads to a key outside device memory and scratchpads. -/
def linkTo (key : Nat) : Nat := if isHost key then hostLink else portOf key + 10

def isOuter (key : Nat) : Bool := !isGlobal key && !isScratch key

/-- The link to a key is in service. -/
def State.linkUp (s : State) (key : Nat) : Bool := !isOuter key || !s.linkDown (linkTo key)

/-- Bytes read at their home, from host memory, or from a window, whose request is presented at its port and whose bytes come
from outside (R304, log 14). -/
def State.readPiece (s : State) (q : SrcPiece) : State × List Byte :=
  if isHost q.key then
    let t := s.hostDrift (keysOf q.key q.len)
    (t, t.bytes q.key q.len)
  else if isOuter q.key then
    let t := s.useFree
    ({ t with out := t.out ++ [.read (portOf q.key) (portAddr q.key) q.len] },
      (List.range q.len).map (Config.freeByte s.freeCtr))
  else (s, s.bytes q.key q.len)

def SrcPiece.piece (q : SrcPiece) : Piece := ⟨q.va, q.key, q.len⟩

/-- A bad sector met by a packet: an INTEGRITY or error event in its command's domain; the packet is lost (R306, R362). -/
def State.badCopy (s : State) (c : CopyCmd) (k : Packet) (kind key : Nat) (va : Word) : State :=
  let s := s.discardFor kind (coreDie c.core) 0xFF c.region c.asid key va.toNat c.fdom
  if (s.packet c.core k.id).isSome then (s.dropPacket c.core k.id).copySettle c.core c.id else s

/-- Source pieces of a packet still to be read. -/
def Packet.unread (k : Packet) : List SrcPiece := k.src.filter (fun q => q.got.isNone)

/-- Those of one line: they are read together. -/
def Packet.batch (k : Packet) (q : SrcPiece) : List SrcPiece := k.unread.filter (fun r => r.key / 256 = q.key / 256)

/-- Pieces read one after another. -/
def State.readBatch (s : State) (b : List SrcPiece) : List SrcPiece → State × List SrcPiece
  | [] => (s, [])
  | q :: r =>
    if q ∈ b then
      let x := s.readPiece q
      let y := State.readBatch x.1 b r
      (y.1, { q with got := some x.2 } :: y.2)
    else
      let y := State.readBatch s b r
      (y.1, q :: y.2)

/-- A packet reads source bytes of one line; with the last its data are complete. -/
def State.readLine (s : State) (c : CopyCmd) (k : Packet) (q : SrcPiece) : State :=
  let b := k.batch q
  let keys := b.flatMap (fun r => keysOf r.key r.len)
  match s.badBytes keys with
  | some e => s.badCopy c k e (s.badKey keys) q.va
  | none =>
    if b.any (fun r => !s.shareOk c.who c.uid r.va r.key) then s.failPacket c k.id 0x0A q.va
    else
      let ps := b.map SrcPiece.piece
      match s.enterSlices (.packet c.core k.id) (copyPort c.core) (s.pieceSlices c.asid ps) with
      | (false, t) => t
      | (true, t) =>
        let r := t.readBatch b k.src
        let k := { k with src := r.2, hold := .none }
        let k := if k.unread = [] then { k with stage := .ready, data := k.src.flatMap (fun q => q.got.getD []) } else k
        (r.1.touch c.asid ps false .normal).setPacket c.core k

/-- Which of the lines of its sources a packet reads next is a free choice (log 13). -/
def State.readPacket (s : State) (c : CopyCmd) (k : Packet) : State :=
  match k.unread[Config.freeChoice s.freeCtr % k.unread.length]? with
  | none => s
  | some q => if s.linkUp q.key then s.useFree.readLine c k q else s

/-- A packet has landed: its counter update is sent. -/
def State.landed (s : State) (c : CopyCmd) (k : Packet) : State := (s.dropPacket c.core k.id).countCopy c

/-- One element of a reduction (R194). -/
def redAdd (t : Ty) (a b : Nat) : Nat :=
  if t.isInt then (a + b) % 2 ^ t.bits
  else (fpAdd t.fp .rne false (decodeFp t.fp a) (decodeFp t.fp b)).bits

/-- Bytes of a destination with partials added in order. An element that lies in the packet only in part has no stated sum. Its
part of an integer element gains a free number for each addend, so that its sum does not depend on the order of packets; of
another type its bytes are free, but the same for the same bytes (R290; DESIGN CHOICE, log 21). -/
def redBytes (t : Ty) (off : Nat) (old : List Byte) (adds : List (List Byte)) : List Byte :=
  let E := t.bits / 8
  (List.range old.length).map (fun j =>
    let e := (off + j) / E
    let st := e * E - off
    let n := min ((e + 1) * E - off) old.length - st
    let at_ := fun (l : List Byte) => leVal ((l.drop st).take n)
    if off ≤ e * E ∧ n = E then
      (leBytes E (adds.foldl (fun v p => redAdd t v (at_ p)) (at_ old))).getD (j - st) 0
    else if t.isInt then
      (leBytes n ((adds.foldl (fun v p => v + Config.splitPart (at_ p) n (off + st - e * E)) (at_ old)) % 2 ^ (8 * n))).getD (j - st) 0
    else Config.splitSum t.bits old adds off j)

/-- FE marks every granule that the packet writes, in ascending order (R272). -/
def State.fillGranules (s : State) (key n : Nat) : State :=
  (((keysOf key n).map granule).dedup).foldl (fun t g => t.fillGranule g) s

def Packet.dst (k : Packet) : Piece := ⟨k.dstVa, k.dstKey, k.len⟩

/-- Bytes written at their home as one event. A Mirror copy of them on the command's own die stays as it is: an engine's write changes
none (R222; DEDUCED, log 141). -/
def State.landBytes (s : State) (c : CopyCmd) (k : Packet) (bs : List Byte) : State :=
  match s.writeHome c.asid (keyed k.dstKey bs) with
  | .error e => s.badCopy c k e (s.badWrite (keyed k.dstKey bs)) k.dstVa
  | .ok s =>
    let s := s.touch c.asid [k.dst] true c.hint
    let s := if c.fe && isScratch k.dstKey then s.fillGranules k.dstKey k.len else s
    (s.landed c k).settle

/-- A packet leaves the device: a posted write, or one that a peer acknowledges (R306). -/
def State.sendOut (s : State) (c : CopyCmd) (k : Packet) : State :=
  if isHost k.dstKey then (s.setBytes (keyed k.dstKey k.data)).setPacket c.core { k with stage := .hostPosted }
  else
    let st : PktStage := if bitsAt k.dstKey 44 4 = 2 then .peerSent else .hostPosted
    let o : Out := .write (portOf k.dstKey) (portAddr k.dstKey) k.data
    { s with out := s.out ++ [o] }.setPacket c.core { k with stage := st }

/-- A packet lands at its destination. -/
def State.landPacket (s : State) (c : CopyCmd) (k : Packet) : State :=
  if isOuter k.dstKey then (if s.linkUp k.dstKey then s.sendOut c k else s)
  else if !s.shareOk c.who c.uid k.dstVa k.dstKey then s.failPacket c k.id 0x0A k.dstVa
  else
    match s.enterSlices (.packet c.core k.id) (copyPort c.core) (s.pieceSlices c.asid [k.dst]) with
    | (false, t) => t
    | (true, s) =>
      match c.red with
      | none => s.landBytes c k k.data
      | some (t, _) =>
        match s.badBytes (keysOf k.dstKey k.len) with
        | some e => s.badCopy c k e (s.badKey (keysOf k.dstKey k.len)) k.dstVa
        | none => s.landBytes c k (redBytes t k.off (s.bytes k.dstKey k.len) [k.data])

def CopyCmd.ranked (c : CopyCmd) : Option (Ty × Nat × Nat) :=
  match c.red with
  | some (t, some (r, m)) => some (t, r, m)
  | _ => none

/-- PEER_ACK: the peer has applied the packet, or its checks refused it with a class of its own (R193, R370, log 60). -/
def execPeerAck (core k : Nat) (s : State) : Ev :=
  .next (match s.packet core k with
    | none => s
    | some p =>
      match s.copy core p.cmd with
      | none => s
      | some c =>
        if p.stage ≠ .peerSent ∨ !s.linkUp p.dstKey then s
        else
          match Config.freeChoice s.freeCtr % 3 with
          | 0 => s.useFree.landed c p
          | 1 => s.useFree.failPacket c k 0x09 p.dstVa
          | _ => s.useFree.failPacket c k 0x0A p.dstVa)

/-- Posted packets of a port are counted. -/
def State.landPosted (s : State) (port : Nat) : State :=
  s.coreNums.foldl (fun t core =>
    (t.core core).packets.foldl (fun t p =>
      match t.copy core p.cmd with
      | none => t
      | some c =>
        if p.stage = .hostPosted ∧ (isHost p.dstKey ↔ port = 0) then t.landed c p else t) t) s

/-- Posted stores of contexts are confirmed. -/
def State.confirmHost (s : State) : State :=
  { s with flights := s.flights.map (fun f => if f.allDone then { f with hostPend := false } else f) }

/-- ZERO_LENGTH_READ_DONE: host stores and posted packets before it are visible; none completes over a link that is down
(R240, R306). -/
def execZeroLengthReadDone (port : Nat) (s : State) : Ev :=
  .next (
    if s.linkDown (if port = 0 then hostLink else storageLink) then s
    else
      let s := s.landPosted port
      if port ≠ 0 then s else s.confirmHost.settle)

/-! Ranked staging (R289). -/

def Staging.full (e : Staging) : Bool := (List.range (e.rmax + 1)).all (fun r => e.parts.any (fun q => q.rank = r))

/-- The contributing packets of a fold are counted. -/
def State.countParts (s : State) (l : List Partial) : State :=
  l.foldl (fun t q =>
    match t.copy q.core q.cmd, t.packet q.core q.pkt with
    | some c, some k => t.landed c k
    | _, _ => t) s

/-- A sector of an entry's line does not verify: each contributing packet meets it. -/
def State.badFold (s : State) (kind key : Nat) (l : List Partial) : State :=
  l.foldl (fun t q =>
    match t.copy q.core q.cmd, t.packet q.core q.pkt with
    | some c, some k => t.badCopy c k kind key k.dstVa
    | _, _ => t) s

/-- The partial of a rank in an entry. -/
def Staging.rank (e : Staging) (r : Nat) : Option Partial := e.parts.find? (fun q => q.rank = r)

/-- An entry folds: ranks in ascending order onto the destination, in one event, under the address space and the hint of the packet
that completed it (DESIGN CHOICE, log 145). Partials of more than one type are added as that of
rank 0 states, whatever order they came in (R290, log 57). -/
def State.fold (s : State) (c : CopyCmd) (k : Packet) (e : Staging) : State :=
  let s := { s with staging := s.staging.filter (fun x => x ≠ e) }
  let keys := keysOf e.key e.len
  match s.badBytes keys with
  | some b => s.badFold b (s.badKey keys) e.parts
  | none =>
    let adds := (List.range (e.rmax + 1)).map (fun r => ((e.rank r).map (fun q => q.data)).getD [])
    let how := ((e.rank 0).map (fun q => (q.ty, q.off))).getD (.f32, 0)
    let bs := redBytes how.1 how.2 (s.bytes e.key e.len) adds
    let s := (s.writeOr c.asid (keyed e.key bs)).touch c.asid [k.dst] true c.hint
    (s.countParts e.parts).settle

/-- A packet joins an entry, whatever place it held for one of its own. -/
def State.joinStage (s : State) (c : CopyCmd) (k : Packet) (t : Ty) (rank : Nat) (e : Staging) : State :=
  let q : Partial := ⟨rank, c.core, c.id, k.id, c.region, t, k.off, k.data⟩
  let e' := { e with parts := e.parts ++ [q] }
  let other := fun (r : SliceReq) => decide (r.who ≠ .packet c.core k.id)
  let s := s.modSlice e.slice (fun x =>
    { x with stageHeld := x.stageHeld.filter other, stageTickets := x.stageTickets.filter other })
  let s := s.setPacket c.core { k with stage := .staged, hold := .none }
  let s := { s with staging := s.staging.map (fun x => if x = e then e' else x) }
  if e'.full then s.fold c k e' else s

/-- The entry of a packet's key (R289). -/
def State.stageOf (s : State) (k : Packet) (rmax : Nat) : Option Staging :=
  s.staging.find? (fun e => e.key = k.dstKey && e.len = k.len && e.rmax = rmax)

/-- A packet finds no entry: it takes a free one, or is refused and then ticketed. -/
def State.newStage (s : State) (c : CopyCmd) (k : Packet) (t : Ty) (rank rmax sl : Nat) : State :=
  let x := s.slice sl
  let who : Requester := .packet c.core k.id
  if x.stageHeld.any (fun r => r.who = who) ∨ s.stagedAt sl + x.stageHeld.length + x.stageTickets.length < stagingSize then
    let e : Staging := ⟨sl, k.dstKey, k.len, rmax, []⟩
    { s with staging := s.staging ++ [e] }.joinStage c k t rank e
  else
    let h := k.hold.refuse (portHas x.stageTickets (copyPort c.core)) s.baseCycle
    let s := s.setPacket c.core { k with hold := h }
    if h.ticket then s.modSlice sl (fun x => { x with stageTickets := x.stageTickets ++ [⟨who, copyPort c.core⟩] }) else s

/-- A ranked packet reaches the staging of its slice. -/
def State.stagePacket (s : State) (c : CopyCmd) (k : Packet) (t : Ty) (rank rmax : Nat) : State :=
  if s.staging.any (fun e => e.key / 256 = k.dstKey / 256 && e.rmax ≠ rmax) then
    s.failPacket c k.id 0x0F k.dstVa
  else
    match s.enterSlices (.packet c.core k.id) (copyPort c.core) (s.pieceSlices c.asid [k.dst]) with
    | (false, t) => t
    | (true, s) =>
      match s.stageOf k rmax with
      | some e => if e.parts.any (fun q => q.rank = rank) then s.setPacket c.core k else s.joinStage c k t rank e
      | none => s.newStage c k t rank rmax ((s.pieceSlice c.asid k.dst).getD 0)

/-- A request of a packet may be sent: not refused, or its time has come; one that has an entry to join is never held back for
lack of room (R289). -/
def State.packetFree (s : State) (c : CopyCmd) (k : Packet) : Bool :=
  let ps := if k.stage = .issued then k.unread.map SrcPiece.piece else [k.dst]
  s.maySend k.hold (copyPort c.core) (.packet c.core k.id) (s.pieceSlices c.asid ps) ||
    (match c.ranked with
      | none => false
      | some (_, _, m) => k.stage = .ready && (s.stageOf k m).isSome)

/-- COPY_PACKET_LAND: the packet reads its source, and then lands; a ranked packet then goes to staging. -/
def execCopyPacketLand (core k : Nat) (s : State) : Ev :=
  .next (match s.packet core k with
    | none => s
    | some p =>
      match s.copy core p.cmd with
      | none => s
      | some c =>
        if !s.packetFree c p then s
        else if p.stage = .issued then s.readPacket c p
        else if p.stage = .ready ∧ c.ranked.isNone then s.landPacket c p
        else s)

def execRankedStaging (core k : Nat) (s : State) : Ev :=
  .next (match s.packet core k with
    | none => s
    | some p =>
      match s.copy core p.cmd with
      | none => s
      | some c =>
        match c.ranked with
        | none => s
        | some (t, r, m) => if p.stage = .ready ∧ s.packetFree c p then s.stagePacket c p t r m else s)

/-! Leave (R312). -/

/-- The first command of a matrix queue that is not over. -/
def State.matHead (s : State) (core : Nat) : Option MatCmd := (s.core core).mats.find? (fun m => !m.over)

def State.askLeave (s : State) (core : Nat) (who : GovWho) (cost prio : Nat) : State :=
  s.fresh.modDie (coreDie core) (fun x => { x with reqs := x.reqs ++ [⟨s.nextId, who, cost, prio, none⟩] })

/-- HEAVY_LEAVE_REQUEST. -/
def execHeavyLeaveRequest (core : Nat) (matrix : Bool) (s : State) : Ev :=
  .next (
    if matrix then
      match s.matHead core with
      | none => s
      | some m =>
        if m.leave ≠ .needed then s
        else
          (s.modCore core (fun x =>
            { x with mats := x.mats.map (fun n => if n.id = m.id then { n with leave := .asked } else n) })).askLeave
              core (.mat core m.id) 10 m.prio
    else
      match s.copyHead core with
      | none => s
      | some c =>
        if c.leave ≠ .needed then s
        else (s.modCopy core c.id (fun x => { x with leave := .asked })).askLeave core (.copy core c.id) 3 c.prio)

/-! Rows of matrix commands (R197, R198, R310). -/

def MatCmd.blocks (m : MatCmd) : Nat := m.cfg.k / m.cfg.fa.count
def MatCmd.aVa (m : MatCmd) (i : Nat) : Word := m.a + BitVec.ofNat 64 (i * m.cfg.sa)
def MatCmd.bVa (m : MatCmd) (j : Nat) : Word := m.b + BitVec.ofNat 64 (j * m.cfg.sb)

/-- Addresses of a row's operands: A's blocks, B's blocks, C's elements, D's elements. -/
def MatCmd.aVas (m : MatCmd) (i : Nat) : List Word :=
  (List.range m.blocks).map (fun q => m.aVa i + BitVec.ofNat 64 (64 * q))
def MatCmd.bVas (m : MatCmd) : List Word :=
  (List.range m.cfg.n).flatMap (fun j => (List.range m.blocks).map (fun q => m.bVa j + BitVec.ofNat 64 (64 * q)))
def MatCmd.cVas (m : MatCmd) (i : Nat) : List Word :=
  match m.cfg.fc with
  | none => []
  | some f => (List.range m.cfg.n).map (fun j => m.c + BitVec.ofNat 64 (i * m.cfg.sc + j * f.bytes))
def MatCmd.dVas (m : MatCmd) (i : Nat) : List Word :=
  (List.range m.cfg.n).map (fun j => m.d + BitVec.ofNat 64 (i * m.cfg.sd + j * m.cfg.fd.bytes))

/-- Checks of one access of a row; a peer window is no target of the engine. -/
def State.matPlace (s : State) (m : MatCmd) (a : Acc) (n : Nat) (va : Word) : Except TrapInfo Place :=
  match s.engPlace m.who m.uid a va n with
  | .error t => .error t
  | .ok p => if inPeer va then .error (tProt va 4) else .ok p

/-- The first failing check of a list of accesses, lowest address first; their places in the order of the list. -/
def State.matPlaces (s : State) (m : MatCmd) (a : Acc) (n : Nat) (l : List Word) : Except TrapInfo (List Place) :=
  let srt := l.mergeSort (fun x y => decide (x.toNat ≤ y.toNat))
  match srt.findSome? (fun va => match s.matPlace m a n va with | .error t => some t | .ok _ => none) with
  | some t => .error t
  | none => .ok (placesOf (l.map (s.matPlace m a n))).2

/-- Block-format checks, lowest block first; a sector is verified before its header is read (R362). -/
def State.matBlocks (s : State) (f : BFmt) (l : List (Word × Place)) : Option TrapInfo :=
  (l.mergeSort (fun x y => decide (x.1.toNat ≤ y.1.toNat))).findSome? (fun x => s.blockErr f x.1 x.2.key)

def piecesOf (n : Nat) (vas : List Word) (l : List Place) : List Piece :=
  (vas.zip l).map (fun x => ⟨x.1, x.2.key, n⟩)

/-- Blocks whose headers a failed row has read: A's, and where those are good B's (R207, R310). -/
def State.touchHeads (s : State) (m : MatCmd) : State :=
  match s.matPlaces m .matRd 64 (m.aVas m.row) with
  | .error _ => s
  | .ok a =>
    let t := s.touch m.asid (piecesOf 64 (m.aVas m.row) a) false .normal
    if (s.matBlocks m.cfg.fa ((m.aVas m.row).zip a)).isSome then t
    else
      match s.matPlaces m .matRd 64 m.bVas with
      | .error _ => t
      | .ok b => t.touch m.asid (piecesOf 64 m.bVas b) false .normal

/-- Places of a row's operands. -/
structure RowPlaces where
  (a b c d : List Place)

/-- Every check of a row, operand after operand (R310). -/
def State.checkRow (s : State) (m : MatCmd) (i : Nat) : Except TrapInfo RowPlaces :=
  match s.matPlaces m .matRd 64 (m.aVas i) with
  | .error t => .error t
  | .ok a =>
    match s.matBlocks m.cfg.fa ((m.aVas i).zip a) with
    | some t => .error t
    | none =>
      match s.matPlaces m .matRd 64 m.bVas with
      | .error t => .error t
      | .ok b =>
        match s.matBlocks m.cfg.fb (m.bVas.zip b) with
        | some t => .error t
        | none =>
          match s.matPlaces m .matRd (cBytes m.cfg.fc) (m.cVas i) with
          | .error t => .error t
          | .ok c =>
            match s.matPlaces m .matWr m.cfg.fd.bytes (m.dVas i) with
            | .error t => .error t
            | .ok d => .ok ⟨a, b, c, d⟩

/-- One element of D: C's element, then the blocks of the row and the column in ascending order (R88). -/
def elemD (cfg : MmCfg) (a b : List Nat) (c : Nat) : Nat :=
  let acc := (a.zip b).foldl (fun v x => add32 v (dotBlocks cfg.fa cfg.fb x.1 x.2)) c
  f32ToD cfg.fd acc

/-- The elements of a row of D. -/
def State.rowD (s : State) (m : MatCmd) (p : RowPlaces) : List Nat :=
  let blk := fun (q : Place) => s.word q.key 64
  let a := p.a.map blk
  (List.range m.cfg.n).map (fun j =>
    let b := ((p.b.drop (j * m.blocks)).take m.blocks).map blk
    let c := match m.cfg.fc, p.c[j]? with
      | some f, some q => cToF32 f (s.word q.key f.bytes)
      | _, _ => 0
    elemD m.cfg a b c)

def State.modMat (s : State) (core id : Nat) (f : MatCmd → MatCmd) : State :=
  s.modCore core (fun x => { x with mats := x.mats.map (fun m => if m.id = id then f m else m) })

/-- The update that counts a row, or enters its counter's error phase; a cancelled command's is not recorded when it is
dropped (R308). -/
def MatCmd.update (m : MatCmd) (row : Nat) (act : CtrAct) (own : Bool) : CtrUp :=
  { CtrUp.of (coreDie m.core) m.asid m.cfg.ctr act (.mat m.core m.id row) m.priv m.uid m.region with
    fdom := some m.fdom, about := if own then some (m.ctx, row) else none }

def State.countMat (s : State) (m : MatCmd) (row : Nat) (act : CtrAct) (own : Bool) : State :=
  if m.cfg.ctr = 0 then s else s.postCtr (m.update row act own)

/-- Commands queued behind one. -/
def State.behind (s : State) (m : MatCmd) : List MatCmd :=
  ((s.core m.core).mats.dropWhile (fun n => n.id ≠ m.id)).drop 1

/-- The updates that carry a row's failure into its counter and into those of the commands behind it, with the translations that
each command holds. -/
def State.rowErrors (s : State) (m : MatCmd) (code : Nat) : List (Walker × CtrUp) :=
  ((m, { m.update m.row (.err code) true with xl := m.xl })
    :: (s.behind m).map (fun n => (n, { n.update n.row (.err cancelled) false with xl := n.xl }))).filterMap (fun x =>
      if x.1.cfg.ctr = 0 then none else some (.mat x.1.core x.1.id, x.2))

/-- A row fails: RPR, the record, the error phases of its counter and of the cancelled commands behind it (R198). -/
def State.failRow (s : State) (m : MatCmd) (t : TrapInfo) : State :=
  let errs := (s.rowErrors m t.code).map (fun x => (x.2, s.ctrPlace x.2))
  let behind := s.behind m
  let s := s.recordMat m.core m.ctx m.row t.code t.addr
  let s := s.modCore m.core (fun x =>
    { x with
      rpr := BitVec.ofNat 6 m.row
      mats := x.mats.map (fun n =>
        if n.id = m.id then { n with fault := some t.code }
        else if behind.any (fun b => b.id = n.id) ∧ n.fault.isNone then { n with fault := some cancelled } else n) })
  let s := s.modDie (coreDie m.core) (fun x =>
    { x with reqs := x.reqs.filter (fun r => !behind.any (fun b => r.who = .mat m.core b.id)) })
  ((errs.foldl (fun v x => v.errPhase x.1 x.2) s).matRetire m.core).settle

/-- A bad sector or queue entry met by a row: its domain is discarded (R358, R362). -/
def State.badRow (s : State) (m : MatCmd) (kind key : Nat) (va : Word) : State :=
  (s.discardFor kind (coreDie m.core) 0xFF m.region m.asid key va.toNat m.fdom).dropMat m.core m.id

/-- The pieces that a row reads, and those it writes. -/
def MatCmd.reads (m : MatCmd) (p : RowPlaces) : List Piece :=
  piecesOf 64 (m.aVas m.row) p.a ++ piecesOf 64 m.bVas p.b ++ piecesOf (cBytes m.cfg.fc) (m.cVas m.row) p.c
def MatCmd.writes (m : MatCmd) (p : RowPlaces) : List Piece := piecesOf m.cfg.fd.bytes (m.dVas m.row) p.d

/-- Virtual address of a key of some pieces. -/
def pieceVa (l : List Piece) (key : Nat) : Word :=
  match l.find? (fun q => q.key ≤ key && key < q.key + q.len) with
  | none => 0
  | some q => q.va

/-- A row is computed and written as one event, and counted. Its write of D takes the normal hint (DEDUCED from R218, log
138). -/
def State.writeRow (s : State) (m : MatCmd) (p : RowPlaces) : State :=
  let rd := m.reads p
  let keys := rd.flatMap Piece.keys
  match s.badBytes keys with
  | some e => s.badRow m e (s.badKey keys) (pieceVa rd (s.badKey keys))
  | none =>
    let wr := m.writes p
    let d := (p.d.zip (s.rowD m p)).flatMap (fun x => keyed x.1.key (leBytes m.cfg.fd.bytes x.2))
    match s.writeHome m.asid d with
    | .error e =>
      let k := s.badWrite d
      s.badRow m e k (pieceVa wr k)
    | .ok s =>
      let s := (p.a ++ p.b ++ p.c ++ p.d).foldl (fun t q => t.keepPlace m.who q) s
      let s := (s.touch m.asid rd false .normal).touch m.asid wr true .normal
      let s := s.modCore m.core (fun x => { x with rpr := BitVec.ofNat 6 (m.row + 1) })
      let s := s.modMat m.core m.id (fun x => { x with row := m.row + 1, begun := true, xl := [], hold := .none })
      ((s.countMat m m.row (.add 1) true).matRetire m.core).settle

def State.mayRow (s : State) (m : MatCmd) : Bool :=
  (m.leave = .notNeeded || m.leave = .granted) && s.afterDone m.after && m.hold.free s.baseCycle
    && !s.inWalk (coreDie m.core) (.mat m.core m.id)

/-- A row whose checks have passed goes to the slices of its lines, which accept or refuse it (R220). -/
def State.sendRow (s : State) (m : MatCmd) (p : RowPlaces) : State :=
  let ks := s.pieceSlices m.asid (m.reads p ++ m.writes p)
  if !s.maySend m.hold (matPort m.core) (.row m.core m.id) ks then s
  else
    match s.enterSlices (.row m.core m.id) (matPort m.core) ks with
    | (false, t) => t
    | (true, t) => t.writeRow m p

/-- MATRIX_ROW. -/
def execMatrixRow (core : Nat) (s : State) : Ev :=
  .next (match s.matHead core with
    | none => s
    | some m =>
      if !s.mayRow m then s
      else if s.ueCmds.contains m.id then
        { s with ueCmds := s.ueCmds.filter (fun n => n ≠ m.id) }.badRow m 1 scratchBase 0
      else
        match s.checkRow m m.row with
        | .error t =>
          if t.isMiss then s.askWalk (coreDie m.core) m.asid t.info [.mat m.core m.id]
          else if t.event.isSome then s.badRow m (t.code - 0x100) t.addr.toNat t.info
          else s.withCtrs (s.rowErrors m t.code) ((s.touchHeads m).failRow m t)
        | .ok p => s.sendRow m p)

/-- An update arrives: a translation to be walked for or a refusal holds it back, and a failed check drops it. -/
def State.ctrApply (s : State) (u : CtrUp) : State :=
  match s.ctrPlace u with
  | .error t =>
    if t.isMiss then s.askWalk u.die u.asid t.info [.ctr u.id]
    else
      let s := s.dropUpdate u
      (((if t.event.isSome then s.ctrBad u (t.code - 0x100) t.addr.toNat else s.ctrLost u t)).ctrAfter u).settle
  | .ok p =>
    let ks := s.pieceSlices u.asid [⟨u.va, p.key, 8⟩]
    if !s.maySend u.hold u.port (.update u.id) ks then s
    else
      match s.enterSlices (.update u.id) u.port ks with
      | (false, t) => t
      | (true, t) => t.ctrWrite u p

/-- An update may go to its word: after its release, with no walk or refusal that holds it back. -/
def State.mayUpdate (s : State) (u : CtrUp) : Bool :=
  s.afterDone u.after && !s.inWalk u.die (.ctr u.id) && u.hold.free s.baseCycle

/-- COUNTER_UPDATE of a CNTADD, or of an engine, a scheduler or a port. -/
def execCounterUpdate (k : Nat) (s : State) : Ev :=
  .next (match s.ctrUps.find? (fun u => u.id = k) with
    | some u => if s.mayUpdate u then s.ctrApply u else s
    | none =>
      s.onFlight k (fun f p => match f.op with
        | .cntadd err => s.cntAddEvent f p err
        | _ => s))

/-! What may come. -/

def State.packetEvents (s : State) (core : Nat) (p : Packet) : List Instr :=
  match s.copy core p.cmd with
  | none => []
  | some c =>
    match p.stage with
    | .issued => if s.packetFree c p && p.unread.any (fun q => s.linkUp q.key) then [.copyPacketLand core p.id] else []
    | .ready =>
      if !s.packetFree c p || !s.linkUp p.dstKey then []
      else if c.ranked.isNone then [.copyPacketLand core p.id] else [.rankedStaging core p.id]
    | .peerSent => if s.linkUp p.dstKey then [.peerAck core p.id] else []
    | .hostPosted => if s.linkUp p.dstKey then [.zeroLengthReadDone (if isHost p.dstKey then 0 else 1)] else []
    | .staged => []

def State.coreEngines (s : State) (core : Nat) : List Instr :=
  (match s.copyHead core with
    | none => []
    | some c =>
      if s.mayIssue c then [Instr.copyPacketIssue core]
      else if c.leave = .needed then [Instr.heavyLeaveRequest core false] else [])
  ++ (match s.matHead core with
    | none => []
    | some m =>
      if s.mayRow m then [Instr.matrixRow core]
      else if m.leave = .needed then [Instr.heavyLeaveRequest core true] else [])
  ++ (s.core core).packets.flatMap (s.packetEvents core)

/-- Events of the engines that may come (R35). -/
def State.engineMay (s : State) : List Instr :=
  s.coreNums.flatMap s.coreEngines ++ (s.ctrUps.filter s.mayUpdate).map (fun u => .counterUpdate u.id)
    ++ (if s.flights.any (fun f => f.allDone && f.hostPend) && !s.linkDown hostLink then [.zeroLengthReadDone 0] else [])

end Sys2Proof.Machine
end

