-- ==== Sys2Proof/Machine/Image.lean ====
section
/-! DEFINITION. Context images (R338 to R341, R351) and suspension (R346 to R350): what is written at WSP, in which order,
and what a failure does. -/

namespace Sys2Proof.Machine

/-! Layout. -/

/-- A record as fields: byte offset, bytes, value. -/
abbrev Fields := List (Nat × Nat × Nat)

def packFields (l : Fields) : Nat := l.foldl (fun x f => setBitsAt x (8 * f.1) (8 * f.2.1) f.2.2) 0

/-- Bytes cut into pieces of 32, with their offsets. -/
def cut32 (off : Nat) (l : List Byte) : List (Nat × List Byte) :=
  (List.range ((l.length + 31) / 32)).map (fun j => (off + 32 * j, (l.drop (32 * j)).take 32))

/-- One block of a window, as R151 lays it out. -/
def Window.blockBytes (w : Window) (vec : Bool) (b : Nat) : List Byte :=
  (List.range (if vec then 64 else 1)).flatMap (fun l => leBytes 32 (w.read l (64 * b) 64))

/-- A window with one block restored. -/
def Window.loadBlock (w : Window) (vec : Bool) (b : Nat) (l : List Byte) : Window :=
  (List.range (if vec then 64 else 1)).foldl (fun w k => w.write k (64 * b) 64 (leVal ((l.drop (32 * k)).take 32))) w

/-- Blocks that a bitmap names. -/
def mapBlocks (m : Nat) : List Nat := (List.range 32).filter (bitAt m)

/-- The format word of MMCFG's imm32 (R196, R341). -/
def fmtWord (m : MmCfg) : Nat :=
  (m.m - 1) % 32 + (m.n - 1) % 32 * 2 ^ 5 + m.fa.code * 2 ^ 10 + m.fb.code * 2 ^ 14
    + (match m.fc with | none => 0 | some f => f.code) * 2 ^ 18 + m.fd.code * 2 ^ 22

def cfmtOf (n : Nat) : Option CFmt := [CFmt.fp32, .fp16, .bf16, .e4m3, .e5m2].find? (fun f => f.code = n)

/-! A context's part (R341). -/

/-- What a parked context saves of itself: at a SAFE, the next instruction, the SAFE's record and SPC 0 (R169, R344). -/
structure Saved where
  (pc sra : Word) (spc : Nat) (wait : Bool)

def Ctx.saved (x : Ctx) : Saved :=
  match x.run with
  | .parked false r _ _ => ⟨x.nextPc, r, 0, false⟩
  | _ => ⟨x.pc, x.sra, x.spc.toNat, true⟩

/-- XIDs of up to two copies of a context that are queued or running. -/
def State.ctxXids (s : State) (p : Nat) : Nat × Nat :=
  let uid := (s.owner (p / 16)).1
  match (s.core (p / 16)).copies.filter (fun c => c.uid = uid && c.ctx = p % 16) with
  | [] => (0, 0)
  | [a] => (a.xid, 0)
  | a :: b :: _ => (a.xid, b.xid)

def Ctx.header (x : Ctx) (xids : Nat × Nat) (boff vec sca : Nat) : Fields :=
  let v := x.saved
  let w := fun (y : Word) => y.toNat
  [(0, 8, w v.pc), (8, 8, w v.sra), (16, 4, x.itr.toNat), (20, 4, x.wlim.toNat), (24, 8, w x.flg), (32, 4, v.spc),
    (36, 1, x.spx.toNat), (37, 1, v.wait.toNat + 2 * x.priv.toNat), (38, 1, x.v.blocks), (39, 1, x.s.blocks),
    (40, 8, w x.lmask)]
  ++ (List.range 15).map (fun n => (48 + 8 * n, 8, w (Tab.get 0 x.preds n)))
  ++ [(168, 8, w x.xpc), (176, 8, w x.xcause), (184, 8, w x.xaddr), (192, 8, w x.xinfo), (200, 8, w x.xlm)]
  ++ (List.range 4).map (fun n => (208 + 8 * n, 8, w (Tab.get 0 x.xb n)))
  ++ [(240, 8, w x.xstate), (248, 2, xids.1), (250, 2, xids.2), (252, 1, x.withdrawn)]
  ++ (List.range 10).map (fun n => (256 + 8 * n, 8, w (x.sh n)))
  ++ [(336, 8, x.mm.k), (344, 4, x.mm.sa), (348, 4, x.mm.sb), (352, 4, x.mm.sc), (356, 4, x.mm.sd), (360, 8, w x.mm.ctr),
    (368, 4, fmtWord x.mm), (372, 1, x.mm.mask.toNat), (376, 8, boff), (384, 4, vec), (388, 4, sca)]

/-- Live blocks of a parked context: those its record named when it parked (R60, R342). -/
def Ctx.liveMaps (x : Ctx) : Nat × Nat :=
  match x.run with
  | .parked _ _ v c => (v, c)
  | _ => (0, 0)

/-- Pieces of a context's part: its header, its SRS and its live blocks from an offset; and where the next part begins. -/
def State.ctxPieces (s : State) (p boff vec sca : Nat) : List (Nat × List Byte) × Nat :=
  let x := s.ctx p
  let k := p % 16
  let vb := (mapBlocks vec).flatMap (fun b => x.v.blockBytes true b)
  let sb := (mapBlocks sca).flatMap (fun b => x.s.blockBytes false b)
  (cut32 (0x200 + 0x200 * k) (leBytes 512 (packFields (x.header (s.ctxXids p) boff vec sca)))
    ++ cut32 (0x1800 + 0x100 * k) (lanes64.flatMap (fun l => leBytes 4 (Tab.get 0 x.srs l).toNat))
    ++ cut32 boff (vb ++ sb), boff + vb.length + sb.length)

/-! Writing. -/

/-- Write pieces of the image; each is one plain store past L1 in the task's address space (R338), and a sector that does not
verify takes none (R362). A failure leaves the stores before it. -/
def State.putPieces (s : State) (d asid : Nat) (wsp : Word) : List (Nat × List Byte) → State × Option TrapInfo
  | [] => (s, none)
  | (off, bs) :: r =>
    let va := wsp + BitVec.ofNat 64 off
    match s.sysPlace d asid va bs.length true with
    | .error t => (s, some t)
    | .ok k =>
      match s.writeHome asid (keyed k bs) with
      | .error e => (s, some ⟨0x100 + e, BitVec.ofNat 64 k, va⟩)
      | .ok t => State.putPieces (t.touchSys d asid va k bs.length true) d asid wsp r

/-- Live contexts of a core. -/
def State.liveCtxs (s : State) (c : Nat) : List Nat := ctxNums.filter (fun k => !s.isFree c k)

/-- Parts of the contexts in ascending number; a failure names the context whose part was being written. -/
def State.putCtxs (s : State) (d asid : Nat) (wsp : Word) (c boff : Nat) : List Nat → State × Option (Nat × TrapInfo)
  | [] => (s, none)
  | k :: r =>
    let m := (s.ctx (ctxId c k)).liveMaps
    let q := s.ctxPieces (ctxId c k) boff m.1 m.2
    match s.putPieces d asid wsp q.1 with
    | (t, some e) => (t, some (k, e))
    | (t, none) => State.putCtxs t d asid wsp c q.2 r

/-! The share (R348, R349, R351). -/

/-- An address interval of a copy side: its lowest and highest byte, over the ranges of its indices. -/
def CopyCmd.span (c : CopyCmd) (base : Word) (s0 s1 s2 : Int) : Int × Int :=
  let lo := fun (n : Nat) (st : Int) => min 0 (((n : Int) - 1) * st)
  let hi := fun (n : Nat) (st : Int) => max 0 (((n : Int) - 1) * st)
  (base.toNat + lo c.len0 s0 + lo c.len1 s1 + lo c.len2 s2,
    base.toNat + hi c.len0 s0 + hi c.len1 s1 + hi c.len2 s2 + c.esize)

/-- The interval meets n bytes at an address, modulo 2^64. -/
def spanMeets (x : Int × Int) (a n : Nat) : Bool :=
  [-(2 ^ 64), 0, (2 ^ 64 : Int)].any (fun o => decide (x.1 < a + n + o) && decide ((a : Int) + o < x.2))

/-- A copy of whose source or destination some byte lies in the share of the task on a core (R348); the intervals of its
addresses decide first. -/
def CopyCmd.onShare (c : CopyCmd) (core len : Nat) : Bool :=
  let own := peerBase + coreDie core * 2 ^ 32 + core % coresPerDie * 2 ^ 21
  let near := fun (x : Int × Int) => spanMeets x localBase len || spanMeets x own len
  let hit := fun (a : Word) => overlaps a.toNat c.esize localBase len || overlaps a.toNat c.esize own len
  (near (c.span c.src c.ss0 c.ss1 c.ss2) && (List.range c.elems).any (fun e => hit (c.srcOf e)))
    || (near (c.span c.dst c.ds0 c.ds1 c.ds2) && (List.range c.elems).any (fun e => hit (c.dstOf e)))

/-- Where a suspended task's share goes. -/
inductive ShareTo | resident | slot (n : Nat) | wait
deriving DecidableEq, Repr

def State.shareTo (s : State) (c uid : Nat) : ShareTo :=
  let d := coreDie c
  if s.coreNums.any (fun x => (s.core x).copies.any (fun m => m.uid = uid && m.onShare c (s.share c))) then
    (if s.idleCores d = [] then .wait else .resident)
  else
    match (List.range (shstSlots (s.die d).shst)).find? (fun n => n ∉ (s.die d).slots) with
    | some n => .slot n
    | none => .resident

/-- Tags of a share as bytes, one bit a granule. -/
def State.tagBytes (s : State) (c len : Nat) : List Byte :=
  (List.range (len / 128)).map (fun j =>
    BitVec.ofNat 8 ((List.range 8).foldl (fun n i => n + bit1 (s.tagFull (scratchKey c (16 * (8 * j + i)))) i) 0))

/-- Sectors written one after another by the device, past L1 (R349). -/
def State.putSectors (s : State) (asid : Nat) : List (Nat × List Byte) → State
  | [] => s
  | (k, bs) :: r => State.putSectors ((s.writeOr asid (keyed k bs)).touch noAsid [⟨0, k, 64⟩] true .normal) asid r

/-- Save a share and its tags in a slot, sector by sector; an uncorrectable error in the share stops it (R358). -/
def State.saveShare (s : State) (c asid n : Nat) : State × Option TrapInfo :=
  let base := shstBase (s.die (coreDie c)).shst + 2097152 * n
  let len := s.share c
  let keys := (List.range (len / 64)).map (fun j => scratchKey c (64 * j))
  match s.badBytes keys with
  | some e => (s, some ⟨0x100 + e, 0, 0⟩)
  | none =>
    let tags := s.tagBytes c len
    let data := (List.range (len / 64)).map (fun j => (base + 64 * j, s.bytes (scratchKey c (64 * j)) 64))
    let tagl := (List.range (tags.length / 64)).map (fun j => (base + 0x180000 + 64 * j, (tags.drop (64 * j)).take 64))
    (s.putSectors asid (data ++ tagl), none)

/-- Restore a share and its tags from a slot; a sector that does not verify gives nothing (R362). -/
def State.loadShare (s : State) (c n len : Nat) : Except (Nat × Nat) State :=
  let base := shstBase (s.die (coreDie c)).shst + 2097152 * n
  let keys := (List.range (len / 64)).map (fun j => base + 64 * j)
    ++ (List.range (len / 8192)).map (fun j => base + 0x180000 + 64 * j)
  match s.badBytes keys with
  | some e => .error (e, s.badKey keys)
  | none =>
    let s := keys.foldl (fun t k => t.touch noAsid [⟨0, k, 64⟩] false .normal) s
    let s := (List.range (len / 64)).foldl (fun t j =>
      t.setBytes (keyed (scratchKey c (64 * j)) (t.bytes (base + 64 * j) 64))) s
    .ok ((List.range (len / 16)).foldl (fun t g =>
      t.setTag (scratchKey c (16 * g)) (bitAt (t.byte (base + 0x180000 + g / 8)).toNat (g % 8))) s)

/-! The task header (R340, R351). -/

def State.taskHeader (s : State) (c : Nat) (dest : ShareTo) (valid : Bool) : Fields :=
  let x := s.core c
  let ctxs := (s.liveCtxs c).foldl (fun n k => n + 2 ^ k) 0
  let slot := match dest with | .slot n => n | _ => 0xFFFF
  let core := match dest with | .resident => c % coresPerDie | _ => 0
  [(1, 1, valid.toNat), (2, 1, x.g.blocks), (3, 1, x.h.blocks), (4, 2, ctxs), (8, 8, x.rpr.toNat), (16, 2, slot),
    (18, 1, core), (19, 1, x.l1ways), (20, 4, s.share c)]

/-- The image without its task header. -/
def State.putImage (s : State) (c asid : Nat) (wsp : Word) : State × Option (Nat × TrapInfo) :=
  let d := coreDie c
  let x := s.core c
  let gb := (List.range x.g.blocks).flatMap (fun b => x.g.blockBytes true b)
  let hb := (List.range x.h.blocks).flatMap (fun b => x.h.blockBytes false b)
  match s.putPieces d asid wsp (cut32 0x2300 (List.replicate 256 0) ++ cut32 0x2400 (gb ++ hb)) with
  | (t, some e) => (t, some (0, e))
  | (t, none) => t.putCtxs d asid wsp c (0x2400 + gb.length + hb.length) (s.liveCtxs c)

/-- The task header, with VALID written last. -/
def State.putHeader (s : State) (c asid : Nat) (wsp : Word) (dest : ShareTo) : State × Option (Nat × TrapInfo) :=
  let pieces := fun (v : Bool) => cut32 0 (leBytes 512 (packFields (s.taskHeader c dest v)))
  let r := s.putPieces (coreDie c) asid wsp (pieces false ++ (pieces true).take 1)
  (r.1, r.2.map (fun e => (0, e)))

/-- What a failed step leaves, or the next step. -/
def andThen (r : State × Option (Nat × TrapInfo)) (f : State → State × Option (Nat × TrapInfo)) :
    State × Option (Nat × TrapInfo) :=
  match r with
  | (s, some e) => (s, some e)
  | (s, none) => f s

/-! Suspension (R350). -/

/-- The implied release of a parked context has taken effect (R250). -/
def State.parkedReleased (s : State) (c : Nat) : Bool :=
  (s.liveCtxs c).all (fun k => s.released (ctxId c k) s.nextId allColours .pkg)

/-- The task of a core can suspend now. -/
def State.maySuspend (s : State) (c : Nat) : Bool :=
  match (s.core c).task with
  | none => false
  | some t => s.allParked c && s.parkedReleased c && s.shareTo c t.uid ≠ .wait

/-- The entry of a suspended task in its die's queue (R327): it joins one that holds 4096 entries too, for no rule lets the scheduler
refuse it (DESIGN CHOICE, log 149). -/
def State.requeue (s : State) (c : Nat) (t : Task) (dest : ShareTo) : State :=
  let t := { t with pending := false, sliceOut := false }
  let e : QEntry :=
    { task := t, firstQ := s.cycle, arrival := s.nextId, suspended := true
      resident := (match dest with | .resident => some c | _ => none)
      slot := (match dest with | .slot n => some n | _ => none), level := t.prio }
  s.fresh.modDie (coreDie c) (fun x =>
    { x with queue := x.queue ++ [e], slots := (match dest with | .slot n => n :: x.slots | _ => x.slots) })

/-- Once the image is written: windows and credits go back, the share is released or kept, the entry rejoins the queue. -/
def State.suspended (s : State) (c : Nat) (t : Task) (dest : ShareTo) : State :=
  let s := s.freeCore c
  let s := match dest with
    | .resident => s.modCore c (fun x => { x with resident := some t.uid })
    | _ => s.clearShare c
  s.requeue c t dest

/-- A register that the image saves holds an uncorrectable error (R358). -/
def State.badImage (s : State) (c : Nat) : Bool :=
  let blk := fun (file : FileId) (b : Nat) => (List.range 8).map (fun j => (file, 8 * b + j))
  let x := s.core c
  s.ueIn (ctxId c 0) ((List.range x.g.blocks).flatMap (blk .g) ++ (List.range x.h.blocks).flatMap (blk .h))
    || (s.liveCtxs c).any (fun k =>
      let m := (s.ctx (ctxId c k)).liveMaps
      s.ueIn (ctxId c k) ((mapBlocks m.1).flatMap (blk .v) ++ (mapBlocks m.2).flatMap (blk .s)))

/-- TASK_SUSPEND: a failure traps the context whose part was being written, and the request stays pending. -/
def State.suspend (s : State) (c : Nat) (t : Task) : State :=
  let dest := s.shareTo c t.uid
  let r := andThen (s.putImage c t.asid t.wsp) (fun u =>
    andThen (match dest with
      | .slot n => (let q := u.saveShare c t.asid n; (q.1, q.2.map (fun e => (0, e))))
      | _ => (u, none)) (fun u => u.putHeader c t.asid t.wsp dest))
  match r with
  | (u, some (k, e)) => u.raise (ctxId c k) e
  | (u, none) => u.suspended c t dest

def execTaskSuspend (core : Nat) (s : State) : Ev :=
  .next (match (s.core core).task with
    | none => s
    | some t =>
      if !s.maySuspend core then s
      else if s.badImage core then s.consumeBad 1 core 0 0 else s.suspend core t)

/-! Resumption (R352, R353). -/

/-- Read n bytes of the image, by pieces of 32, each a plain load past L1. -/
def State.getPieces (s : State) (d asid : Nat) (va : Word) : Nat → State × Except TrapInfo (List Byte)
  | 0 => (s, .ok [])
  | n + 1 =>
    match s.sysPlace d asid va 32 false with
    | .error t => (s, .error t)
    | .ok k =>
      match s.badBytes [k] with
      | some e => (s, .error ⟨0x100 + e, BitVec.ofNat 64 k, va⟩)
      | none =>
        let r := State.getPieces (s.touchSys d asid va k 32 false) d asid (va + 32) n
        (r.1, r.2.map (fun l => s.bytes k 32 ++ l))

/-- A record read as one value. -/
def State.getRec (s : State) (d asid : Nat) (va : Word) (n : Nat) : State × Except TrapInfo Nat :=
  let r := s.getPieces d asid va (n / 32)
  (r.1, r.2.map leVal)

/-- n bytes of a record. -/
def recAt (r off n : Nat) : Nat := bitsAt r (8 * off) (8 * n)
def recWordAt (r off : Nat) : Word := BitVec.ofNat 64 (recAt r off 8)

/-- Blocks of a window restored from an offset of the image; answers the window and the next offset. -/
def State.getBlocks (s : State) (d asid : Nat) (wsp : Word) (vec : Bool) :
    List Nat → Window → Nat → State × Except TrapInfo (Window × Nat)
  | [], w, off => (s, .ok (w, off))
  | b :: r, w, off =>
    let n := if vec then 2048 else 32
    match s.getPieces d asid (wsp + BitVec.ofNat 64 off) (n / 32) with
    | (t, .error e) => (t, .error e)
    | (t, .ok l) => State.getBlocks t d asid wsp vec r (w.loadBlock vec b l) (off + n)

def mmOf (r : Nat) : MmCfg :=
  let w := recAt r 368 4
  { k := recAt r 336 8, sa := recAt r 344 4, sb := recAt r 348 4, sc := recAt r 352 4, sd := recAt r 356 4
    ctr := recWordAt r 360, m := bitsAt w 0 5 + 1, n := bitsAt w 5 5 + 1, fa := (BFmt.ofCode (bitsAt w 10 4)).getD .fp16
    fb := (BFmt.ofCode (bitsAt w 14 4)).getD .fp16, fc := cfmtOf (bitsAt w 18 4)
    fd := (cfmtOf (bitsAt w 22 4)).getD .fp32, mask := BitVec.ofNat 8 (recAt r 372 1) }

/-- A context as its header gives it, with windows of zero, full blocks, of the sizes that the header names (R16, R341,
DESIGN CHOICE, log 115); the length of the instruction at its PC is not known (R380). -/
def ctxOf (r srs cycle : Nat) : Ctx :=
  let fl := recWordAt r 24
  let x : Ctx := { Ctx.idle with
    run := .awake, joinAt := cycle + 1, pc := recWordAt r 0, sra := recWordAt r 8, itr := BitVec.ofNat 32 (recAt r 16 4)
    wlim := BitVec.ofNat 32 (recAt r 20 4), spc := BitVec.ofNat 25 (recAt r 32 4), spx := BitVec.ofNat 6 (recAt r 36 1)
    priv := bitAt (recAt r 37 1) 1, lmask := recWordAt r 40
    preds := Tab.setMany 0 [] ((List.range 15).map (fun n => (n, recWordAt r (48 + 8 * n))))
    v := .alloc (recAt r 38 1), s := .alloc (recAt r 39 1), xpc := recWordAt r 168
    xlen := BitVec.ofNat 2 (recAt r 178 1), xcode := BitVec.ofNat 8 (recAt r 176 1), xaddr := recWordAt r 184
    xinfo := recWordAt r 192, xlm := recWordAt r 200
    xb := Tab.setMany 0 [] ((List.range 4).map (fun n => (n, recWordAt r (208 + 8 * n))))
    xact := bitAt (recAt r 240 1) 0, xpm := bitAt (recAt r 240 1) 1
    shadow := Tab.setMany 0 [] ((List.range 10).map (fun n => (n, recWordAt r (256 + 8 * n))))
    srs := Tab.setMany 0 [] (lanes64.map (fun l => (l, BitVec.ofNat 32 (recAt srs (4 * l) 4)))), mm := mmOf r, ilen := 3 }
  x.setFlg fl

/-- Restore one context; answers whether its PC is a wait to be reissued. -/
def State.getCtx (s : State) (c asid : Nat) (wsp : Word) (k : Nat) : State × Except TrapInfo Bool :=
  let d := coreDie c
  let at_ := fun (off : Nat) => wsp + BitVec.ofNat 64 off
  match s.getRec d asid (at_ (0x200 + 0x200 * k)) 512 with
  | (t, .error e) => (t, .error e)
  | (t, .ok r) =>
    match t.getRec d asid (at_ (0x1800 + 0x100 * k)) 256 with
    | (t, .error e) => (t, .error e)
    | (t, .ok srs) =>
      let x := ctxOf r srs s.cycle
      match t.getBlocks d asid wsp true (mapBlocks (recAt r 384 4)) x.v (recAt r 376 8) with
      | (t, .error e) => (t, .error e)
      | (t, .ok v) =>
        match t.getBlocks d asid wsp false (mapBlocks (recAt r 388 4)) x.s v.2 with
        | (t, .error e) => (t, .error e)
        | (t, .ok w) => (t.setCtx (ctxId c k) { x with v := v.1, s := w.1 }, .ok (bitAt (recAt r 37 1) 0))

def State.getCtxs (s : State) (c asid : Nat) (wsp : Word) : List Nat → State × Except TrapInfo (List (Nat × Bool))
  | [] => (s, .ok [])
  | k :: r =>
    match s.getCtx c asid wsp k with
    | (t, .error e) => (t, .error e)
    | (t, .ok b) =>
      let q := State.getCtxs t c asid wsp r
      (q.1, q.2.map (fun l => (k, b) :: l))

/-- Why a task cannot be resumed: its image is not valid or cannot be read, or a sector of it does not verify. -/
inductive Lost
  | image
  | bad (kind key : Nat) (va : Word)

def lostBy (t : TrapInfo) : Lost :=
  match t.event with
  | none => .image
  | some k => .bad k t.addr.toNat t.info

/-- Each restored context enters its stub; one whose record cannot be read may end the task. -/
def State.enterStubs (s : State) (c uid : Nat) (l : List (Nat × Bool)) : State :=
  l.foldl (fun t x => if ((t.core c).task.map (fun k => k.uid)) = some uid then t.enterStub (ctxId c x.1) x.2 else t) s

/-- The core of a task that resumes: its split, its RPR, empty caches. -/
def State.takeCore (s : State) (c ways rpr : Nat) (t : Task) : State :=
  (s.renewRegs (fun n => n / 16384 = c)).modCore c (fun x =>
    { x with
      task := some t, resident := none, l1ways := ways, wbs := [], l1 := [], l0 := []
      fills := x.fills.map (fun f => { f with cancelled := true }), rpr := BitVec.ofNat 6 rpr })

/-- The share of a resuming task: it stayed, or it comes from its slot, which is free then. -/
def State.takeShare (s : State) (c : Nat) (e : QEntry) (len : Nat) : Except (Nat × Nat) State :=
  match e.slot with
  | none => .ok s
  | some n =>
    match (s.clearShare c).loadShare c n len with
    | .error x => .error x
    | .ok t => .ok (t.modDie (coreDie c) (fun x => { x with slots := x.slots.filter (fun m => m ≠ n) }))

/-- Shared windows, contexts and VALID ← 0, then the stubs. -/
def State.takeImage (s : State) (c : Nat) (t : Task) (h : Nat) : State × Option Lost :=
  let d := coreDie c
  let g := recAt h 2 1
  let hb := recAt h 3 1
  match s.getBlocks d t.asid t.wsp true (List.range g) (.alloc g) 0x2400 with
  | (s, .error e) => (s, some (lostBy e))
  | (s, .ok gw) =>
    match s.getBlocks d t.asid t.wsp false (List.range hb) (.alloc hb) gw.2 with
    | (s, .error e) => (s, some (lostBy e))
    | (s, .ok hw) =>
      let s := s.modCore c (fun x => { x with g := gw.1, h := hw.1 })
      let s := { s with ranOn := Tab.set 0 s.ranOn t.region (Tab.get 0 s.ranOn t.region ||| BitVec.ofNat 8 (2 ^ d)) }
      match s.getCtxs c t.asid t.wsp (ctxNums.filter (bitAt (recAt h 4 2))) with
      | (s, .error e) => (s, some (lostBy e))
      | (s, .ok ks) =>
        match s.putPieces d t.asid t.wsp [(0, leBytes 32 (setBitsAt h 8 8 0))] with
        | (s, some e) => (s, some (lostBy e))
        | (s, none) => (s.enterStubs c t.uid ks, none)

/-- Restore a task from its image on a core (R352). -/
def State.restore (s : State) (c : Nat) (e : QEntry) (t : Task) : State × Option Lost :=
  match s.getRec (coreDie c) t.asid t.wsp 512 with
  | (s, .error x) => (s, some (lostBy x))
  | (s, .ok h) =>
    if !bitAt (recAt h 1 1) 0 then (s, some .image)
    else
      match (s.takeCore c (recAt h 19 1) (recAt h 8 1) t).takeShare c e (recAt h 20 4) with
      | .error x => (s, some (.bad x.1 x.2 0))
      | .ok s => s.takeImage c t h

end Sys2Proof.Machine
end

