-- ==== Sys2Proof/Machine/Tasks.lean ====
section
/-! DEFINITION. SPAWN (R176, R321) and the die schedulers: priorities and aging (R320), dispatch (R322), resumption (R314,
R352), stealing (R325, R326) and pre-emption requests (R327). -/

namespace Sys2Proof.Machine

/-! Dies and queues. -/

def queueSize : Nat := 4096

/-- A die is present and not fenced off. -/
def State.dieUp (s : State) (d : Nat) : Bool := (s.die d).phase = .trained

def State.upDies (s : State) : List Nat := (List.range 8).filter s.dieUp

/-- Effective priority: one level more for each 2^16 cycles of waiting (R320). -/
def QEntry.prioAt (e : QEntry) (cycle : Nat) : Nat := min 15 (e.task.prio + (cycle - e.firstQ) / 65536)

/-! Pre-emption requests (R327). -/

/-- The tasks that a die's cores run, with their cores. -/
def State.runningOn (s : State) (d : Nat) : List (Nat × Task) :=
  (s.cores.filter (fun e => coreDie e.1 = d)).filterMap (fun e => e.2.task.map (fun t => (e.1, t)))

def State.eligible (s : State) (d : Nat) (t : Task) : Bool :=
  let q := (s.die d).queue
  decide (t.wsp ≠ 0) &&
    ((s.idleCores d = [] && q.any (fun e => decide (t.prio < e.prioAt s.cycle)))
      || (t.sliceOut && q.any (fun e => decide (t.prio ≤ e.prioAt s.cycle))))

/-- Lowest PRIO, then the earliest start, then the lowest core. -/
def firstVictim : List (Nat × Task) → Option (Nat × Task)
  | [] => none
  | a :: l =>
    match firstVictim l with
    | none => some a
    | some b =>
      some (if b.2.prio < a.2.prio ∨ (b.2.prio = a.2.prio ∧ (b.2.started < a.2.started ∨
        (b.2.started = a.2.started ∧ b.1 < a.1))) then b else a)

/-- The scheduler issues a request where none is pending on its die and a task is eligible. -/
def State.checkPreempt (s : State) (d : Nat) : State :=
  let run := s.runningOn d
  if run.any (fun x => x.2.pending) then s
  else
    match firstVictim (run.filter (fun x => s.eligible d x.2)) with
    | none => s
    | some x => s.askPreempt x.1

/-! SPAWN. -/

/-- Checks 2 and 3 of SPAWN: the TCB's bytes lie in device global memory or the core's own scratchpad, which its local
window and its own peer window name alike (R176, R208, log 96). -/
def State.tcbPlace (s : State) (p : Nat) (va : Word) : Except TrapInfo Place :=
  let w := s.who p
  let out := tProt va 11
  match s.place w .ld va 64 with
  | .ok pl =>
    if (isScratch pl.key ∧ scratchCore pl.key = p / 16) ∨ isGlobal pl.key then .ok pl else .error out
  | .error t =>
    if t = tProt va 8 then .error out
    else if t = tProt va 4 then
      match s.findXlat w va with
      | .ok e => if s.inDevice (e.pa_ va) then .error t else .error out
      | .error _ => .error out
    else .error t

/-- The task of a TCB under its chain, as a queue holds it; VBLK and SBLK are the TCB's own. -/
def taskOf (b : Block) (uid : Nat) (rcb : Word) (l : List Block) : Task :=
  let v := b.at
  let e := effOf l
  { uid := uid, tcb := b.addr, entry := BitVec.ofNat 64 (v 0 64), arg := BitVec.ofNat 64 (v 8 64), rcb := rcb
    wsp := BitVec.ofNat 64 (v 24 64), donectr := BitVec.ofNat 64 (v 32 64), dies := BitVec.ofNat 8 (v 40 8)
    bound := bitAt (v 41 8) 7, prio := bitsAt (v 41 8) 0 4, vblk := v 42 8, sblk := v 43 8
    region := (l.map (fun x => x.region)).headD 0, asid := e.asid, eff := e, chain := chainOf l, steward := false
    started := 0, pending := false, sliceOut := false }

/-- The RCB a TCB names; 0 is the spawning task's. -/
def Block.rcb (b : Block) (own : Word) : Word :=
  let r := BitVec.ofNat 64 (b.at 16 64)
  if r = 0 then own else r

/-- Named dies that are absent or fenced off. -/
def State.absentOf (s : State) (mask : Nat) : Nat :=
  ((List.range 8).filter (fun d => bitAt mask d && !s.dieUp d)).foldl (fun n d => n + 2 ^ d) 0

/-- Checks 1 to 3 of SPAWN, which need no byte of the TCB. -/
def State.tcbAt (s : State) (p : Nat) (va : Word) : Except TrapInfo Place :=
  if va.toNat % 64 ≠ 0 then .error (tAlign va 64) else s.tcbPlace p va

/-- RCB of the task of a context. -/
def State.ownRcb (s : State) (p : Nat) : Word := match (s.core (p / 16)).task with | none => 0 | some t => t.rcb

/-- Checks of SPAWN, in their order: the task to be queued, with the blocks of its chain. -/
def State.spawnTask (s : State) (p : Nat) (va : Word) : Except TrapInfo (Place × List Block × Task) :=
  let d := coreDie (p / 16)
  let own := s.ownRcb p
  match s.tcbAt p va with
  | .error t => .error t
  | .ok pl =>
    match s.badBytes (keysOf pl.key 64) with
    | some k => .error ⟨0x100 + k, BitVec.ofNat 64 pl.key, va⟩
    | none =>
      let b : Block := ⟨va, s.word pl.key 64⟩
      match b.tcbErr with
      | some off => .error (tField va off)
      | none =>
        match s.readChain d 8 (b.rcb own) va 16 with
        | .error t => .error t
        | .ok l =>
          let t := taskOf b s.nextId (b.rcb own) l
          let bad := s.absentOf t.dies.toNat
          if own ∉ l.map (fun x => x.addr) then .error (tField va 16)
          else if t.bound ∧ bad ≠ 0 then .error (tBoundAbsent va bad)
          else .ok (pl, l, t)

def State.queueLen (s : State) (d : Nat) : Nat := (s.die d).queue.length

/-- Eligible dies of an unbound TCB: those of its mask, or the issuing die alone. -/
def State.freeDies (s : State) (t : Task) (own : Nat) : List Nat :=
  let l := s.upDies.filter (fun d => bitAt t.dies.toNat d)
  if l = [] then [own] else l

/-- The die with the fewest queued TCBs, the lower number on a tie. -/
def State.shortest (s : State) : List Nat → Option Nat
  | [] => none
  | a :: l =>
    match State.shortest s l with
    | none => some a
    | some b => some (if s.queueLen b < s.queueLen a then b else a)

/-- The die that takes a TCB, if one does. -/
def State.dieFor (s : State) (t : Task) (own : Nat) : Option Nat :=
  let room := fun (d : Nat) => decide (s.queueLen d < queueSize)
  if t.bound then (s.upDies.filter (fun d => bitAt t.dies.toNat d)).find? room
  else s.shortest ((s.freeDies t own).filter room)

/-- LIVE rises in a chain (R323). -/
def State.liveUp (s : State) (d : Nat) : List (Word × Nat) → State
  | [] => s
  | (rcb, r) :: l => State.liveUp (s.liveChange d rcb r true).1 d l

/-- A TCB joins a die's queue. -/
def State.enqueue (s : State) (own d : Nat) (t : Task) : State :=
  let e : QEntry :=
    { task := t, firstQ := s.cycle, arrival := s.nextId, suspended := false, resident := none, slot := none, level := t.prio }
  let s := s.fresh.modDie d (fun x => { x with queue := x.queue ++ [e] })
  (s.liveUp own t.chain).checkPreempt d

/-- What SPAWN's reads of the TCB, and of its chain where the TCB's fields are good, leave (R207). -/
def State.touchSpawn (s : State) (p : Nat) (va : Word) : State :=
  match s.tcbAt p va with
  | .error _ => s
  | .ok pl =>
    let b : Block := ⟨va, s.word pl.key 64⟩
    let t := (s.keepPlace (s.who p) pl).touch (s.who p).asid [⟨va, pl.key, 64⟩] false .normal
    if (s.badBytes (keysOf pl.key 64)).isSome ∨ b.tcbErr.isSome then t
    else t.touchChain (coreDie (p / 16)) (b.rcb (s.ownRcb p))

/-- The slice of the TCB takes SPAWN's request, or refuses it or holds it back (R220). -/
def State.askTcb (s : State) (p : Nat) (va : Word) : Bool × State :=
  match s.tcbAt p va with
  | .error _ => (true, s)
  | .ok pl => s.askSlices p (s.who p).asid [⟨va, pl.key, 64⟩]

/-- SPAWN: its checks come whatever its guard (R41); performed it is a release, then the checks, and the queue. -/
def execSpawn (f : SpawnF) (s : State) : Ev :=
  .next (s.issue (.spawn f) (fun s =>
    let p := s.cur
    let va := s.t64 f.tcb
    let out := fun (t : State) (v : Nat) =>
      match f.d with
      | none => t
      | some d => t.produce (.spawn f) [t.lanesWrite f.h d (fun _ => fit64 d v)] [] .none
    if s.guarded f.h && !s.released p s.nextId allColours .pkg then .stall
    else if !(s.askTcb p va).1 then .hold (fun u => (u.askTcb p va).2)
    else
      let got := s.spawnTask p va
      let s := (s.askTcb p va).2
      match got with
      | .error t => if t.isMiss then .trap t else .trapWith t (s.touchSpawn p va)
      | .ok (_, _, t) =>
        let s := s.touchSpawn p va
        if !s.guarded f.h then .go (match f.d with | none => s | some _ => s.produce (.spawn f) [] [] .none)
        else
        let own := coreDie (p / 16)
        match s.dieFor t own with
        | none => .go (out s 0)
        | some d => .go ((out s (0x100 + d)).enqueue own d t)))

/-! Dispatch (R322). -/

/-- The chain of a task's region as it is now. -/
def State.effNow (s : State) (d : Nat) (t : Task) : Except TrapInfo (List Block) := s.readChain d 8 t.rcb t.tcb 16

/-- What reading a task's chain leaves. -/
def State.touchTask (s : State) (d : Nat) (t : Task) : State := s.touchChain d t.rcb

/-- The region of an entry already runs as many tasks as it may. -/
def State.atCmax (s : State) (d : Nat) (t : Task) : Bool :=
  let m := match s.effNow d t with | .error _ => t.eff.cmax | .ok l => (effOf l).cmax
  decide (m ≠ 0) && decide (m ≤ ((s.runningOn d).filter (fun x => x.2.region = t.region)).length)

/-- The core an entry would go to: a resident share's own, else the lowest idle one. -/
def State.coreFor (s : State) (d : Nat) (e : QEntry) : Option Nat :=
  match e.resident with
  | some c => if (s.core c).task.isNone then some c else none
  | none => (s.idleCores d).head?

def State.canDispatch (s : State) (d : Nat) (e : QEntry) : Bool := (s.coreFor d e).isSome && !s.atCmax d e.task

/-- Greatest effective priority, then the earliest first-queued cycle; with both equal the entry that joined this queue first, a tie for
which the rules give no order (DESIGN CHOICE, log 150). -/
def bestOf (cycle : Nat) : List QEntry → Option QEntry
  | [] => none
  | a :: l =>
    match bestOf cycle l with
    | none => some a
    | some b =>
      some (if a.prioAt cycle < b.prioAt cycle ∨ (a.prioAt cycle = b.prioAt cycle ∧ b.firstQ < a.firstQ) then b else a)

def State.nextEntry (s : State) (d : Nat) : Option QEntry :=
  bestOf s.cycle ((s.die d).queue.filter (s.canDispatch d))

/-- A task that cannot start or resume ends with a task fault record, whose FDOM byte is a free value (R314, R323, R352, R358, log 14). -/
def State.entryFault (s : State) (d : Nat) (t : Task) : State :=
  ((s.dropPrism t.uid).doneCtr d t .fault).postEvent ⟨5, 0x100, d, 0xFF, t.region, t.asid, 0, t.tcb.toNat, 0⟩

/-- The start or resumption of a task met a sector that does not verify: its domain is discarded, and the task with it
(R362). -/
def State.entryBad (s : State) (d kind key : Nat) (va : Word) (t : Task) : State :=
  let r := s.discard (some t.eff.fdom)
  (((r.1.dropPrism t.uid).dropTaskCommands t.uid).liveDown d t.chain).postEvent
    ⟨kind, t.eff.fdom, d, 0xFF, t.region, t.asid, key, va.toNat, r.2 + 1⟩

/-- A task's chain is rejected when it starts or resumes, or a block of it does not verify (R314, R362). -/
def State.chainFault (s : State) (d : Nat) (e : TrapInfo) (t : Task) : State :=
  match e.event with
  | none => s.entryFault d t
  | some k => s.entryBad d k e.addr.toNat e.info t

/-- Start a task with the fields its region has now; LIVE stays with the RCBs that its SPAWN raised (R323). -/
def State.startEntry (s : State) (d c : Nat) (t : Task) : State :=
  match s.effNow d t with
  | .error e => ((s.touchTask d t).chainFault d e t).idleCore d
  | .ok l =>
    let e := effOf l
    let t := { t with
      eff := e, asid := e.asid
      vblk := if t.sblk = 0 then e.vblk else t.vblk, sblk := if t.sblk = 0 then e.sblk else t.sblk }
    (s.touchTask d t).startTask c t

/-- A suspended task leaves the share store and its core without resuming. -/
def State.dropImage (s : State) (d : Nat) (e : QEntry) : State :=
  let s := s.modDie d (fun x => { x with slots := x.slots.filter (fun n => e.slot ≠ some n) })
  match e.resident with
  | none => s
  | some c => s.modCore c (fun x => { x with resident := none })

/-- Resume a task: some fields are resolved again, the image gives the rest (R314, R352). -/
def State.resumeEntry (s : State) (d c : Nat) (e : QEntry) : State :=
  let t := e.task
  match s.effNow d t with
  | .error x => (((s.touchTask d t).dropImage d e).chainFault d x t).idleCore d
  | .ok l =>
    let n := effOf l
    let eff := { t.eff with
      handler := n.handler, splim := n.splim, prio := n.prio, fdom := n.fdom, cmax := n.cmax, grant := n.grant
      quantum := n.quantum }
    let t := { t with eff := eff, started := s.cycle, pending := false, sliceOut := false }
    match (s.touchTask d t).restore c e t with
    | (u, none) => u
    | (u, some .image) => (((u.freeCore c).dropImage d e).entryFault d t).idleCore d
    | (u, some (.bad kind key va)) => (((u.freeCore c).dropImage d e).entryBad d kind key va t).idleCore d

def execTaskDispatch (d : Nat) (s : State) : Ev :=
  .next (if s.phase ≠ .full ∨ !s.dieUp d then s
    else
      match s.nextEntry d with
      | none => s
      | some e =>
        match s.coreFor d e with
        | none => s
        | some c =>
          let s := s.modDie d (fun x => { x with queue := x.queue.filter (fun q => q.arrival ≠ e.arrival) })
          let s := if e.suspended then s.resumeEntry d c e else s.startEntry d c e.task
          (s.emptied d).checkPreempt d)

/-! Aging and time slices. -/

/-- PRIORITY_AGING: entries of a die reach the level their wait gives them (R320). -/
def execPriorityAging (d : Nat) (s : State) : Ev :=
  .next ((s.modDie d (fun x =>
    { x with queue := x.queue.map (fun e => { e with level := e.prioAt s.cycle }) })).checkPreempt d)

def Task.sliceDue (t : Task) (cycle : Nat) : Bool :=
  !t.sliceOut && decide (t.eff.quantum ≠ 0) && decide (t.started + t.eff.quantum * 65536 ≤ cycle)

/-- QUANTUM_EXPIRY: the time slice of a core's task has run out (R327). -/
def execQuantumExpiry (c : Nat) (s : State) : Ev :=
  .next (match (s.core c).task with
    | none => s
    | some t =>
      if t.sliceDue s.cycle then
        (s.modCore c (fun x => { x with task := some { t with sliceOut := true } })).checkPreempt (coreDie c)
      else s)

/-! Stealing (R325, R326). -/

/-- Entries that a victim may ship to a thief. -/
def QEntry.stealable (e : QEntry) (thief : Nat) : Bool :=
  !e.suspended && !e.task.bound && (e.task.dies = 0 || bitAt e.task.dies.toNat thief)

/-- The shipment: up to four of the lowest level, the most recent arrivals first; answered in their order of arrival. -/
def State.shipment (s : State) (v thief : Nat) : List QEntry :=
  let l := (s.die v).queue.filter (fun e => e.stealable thief)
  match (l.map (fun e => e.prioAt s.cycle)).min? with
  | none => []
  | some n =>
    let m := (l.filter (fun e => e.prioAt s.cycle = n)).mergeSort (fun a b => decide (b.arrival ≤ a.arrival))
    (m.take (min 4 (queueSize - s.queueLen thief))).reverse

/-- A neighbour ships: it is present, has no idle core of its own, and holds an entry it may ship. -/
def State.ships (s : State) (v thief : Nat) : Bool :=
  s.dieUp v && s.idleCores v = [] && s.shipment v thief ≠ []

/-- A die's attempt; one whose queue is not empty, or that has no idle core, sends no request (R325, R329). -/
def State.stealing (s : State) (d : Nat) : Steal :=
  match (s.die d).steal with
  | .asking l => if (s.die d).queue = [] ∧ s.idleCores d ≠ [] then .asking l else .idle
  | x => x

/-- STEAL_ATTEMPT: the next neighbour refuses; after the last the die tries again 4096 base-die cycles later. -/
def execStealAttempt (d : Nat) (s : State) : Ev :=
  .next (match s.stealing d with
    | .asking [] => s.modDie d (fun x => { x with steal := .retryAt (s.baseCycle + 4096) })
    | .asking (v :: r) =>
      if s.ships v d then s
      else
        s.modDie d (fun x => { x with steal := if r = [] then .retryAt (s.baseCycle + 4096) else .asking r })
    | .idle => s.modDie d (fun x => { x with steal := .idle })
    | .retryAt _ => s)

def renumber (n : Nat) (l : List QEntry) : List QEntry := l.zipIdx.map (fun x => { x.1 with arrival := n + x.2 })

/-- STEAL_SHIP: the entries leave the victim and join the thief as one event at each queue. -/
def execStealShip (v thief : Nat) (s : State) : Ev :=
  .next (match s.stealing thief with
    | .asking (w :: _) =>
      if w ≠ v ∨ !s.ships v thief then s
      else
        let l := s.shipment v thief
        let gone := l.map (fun e => e.arrival)
        let n := s.nextId
        let s := { s with nextId := n + l.length }
        let s := s.modDie v (fun x => { x with queue := x.queue.filter (fun e => e.arrival ∉ gone) })
        (s.modDie thief (fun x => { x with queue := x.queue ++ renumber n l, steal := .idle })).checkPreempt thief
    | _ => s)

/-- STEAL_RETRY (R325). -/
def execStealRetry (d : Nat) (s : State) : Ev :=
  .next (match (s.die d).steal with
    | .retryAt t =>
      if s.baseCycle < t then s
      else if (s.die d).queue = [] ∧ s.idleCores d ≠ [] then
        s.modDie d (fun x => { x with steal := .asking (neighbours d) })
      else s.modDie d (fun x => { x with steal := .idle })
    | _ => s)

/-! When these events come. -/

/-- Events of the schedulers in their cycle. -/
def State.schedDue (s : State) : List Instr :=
  s.dies.flatMap (fun e =>
    (if e.2.queue.any (fun q => decide (q.level < q.prioAt s.cycle)) then [Instr.priorityAging e.1] else [])
    ++ (match e.2.steal with
      | .retryAt t => if t ≤ s.baseCycle then [Instr.stealRetry e.1] else []
      | _ => []))
  ++ s.cores.filterMap (fun e => match e.2.task with
    | none => none
    | some t => if t.sliceDue s.cycle then some (.quantumExpiry e.1) else none)

/-- Events of the schedulers that may come. -/
def State.schedMay (s : State) : List Instr :=
  if s.phase ≠ .full then []
  else
    s.dies.flatMap (fun e =>
      if e.2.phase ≠ .trained then []
      else
        (if (s.nextEntry e.1).isSome then [Instr.taskDispatch e.1] else [])
        ++ (match s.stealing e.1 with
          | .asking (v :: _) => if s.ships v e.1 then [Instr.stealShip v e.1] else [Instr.stealAttempt e.1]
          | .asking [] => [Instr.stealAttempt e.1]
          | .idle => if e.2.steal = .idle then [] else [Instr.stealAttempt e.1]
          | .retryAt _ => []))
    ++ s.coreNums.filterMap (fun c => if s.maySuspend c then some (Instr.taskSuspend c) else none)

/-- Every scheduler looks at its queue and its running tasks. -/
def State.checkAll (s : State) : State := s.dies.foldl (fun t e => t.checkPreempt e.1) s

end Sys2Proof.Machine
end

