-- ==== Sys2Proof/Machine/Limits.lean ====
section
/-! DEFINITION. The limit of waits (R28, R381), and the walks of a die's walkers (R333, R335). -/

namespace Sys2Proof.Machine

/-- The WLIM count of a sleep that began at a cycle has reached its limit; 0 behaves as 1. -/
def Ctx.limitAt (x : Ctx) (since : Nat) : Nat := since + max x.wlim.toNat 1

/-- A withdrawal of a context's wait can still be sent. -/
def State.unwithdrawn (s : State) (p : Nat) : Bool :=
  match (s.ctx p).run with
  | .asleep (.flight id) _ => s.flights.any (fun f => f.id = id && f.withdraw.isNone)
  | .asleep (.prent id) _ => s.contests.any (fun e => e.2.entries.any (fun n => n.id = id && n.withdraw.isNone))
  | .asleep (.leave id) _ => (s.die (coreDie (p / 16))).reqs.any (fun r => r.id = id && r.withdraw.isNone)
  | _ => false

/-- The wake condition of a sleep on octets, a join or DONE's wait has not become true. -/
def State.unmet (s : State) (p : Nat) : Bool :=
  match (s.ctx p).run with
  | .asleep (.octets l) _ => l.any (s.octetEmpty p)
  | .asleep (.join m) _ => !s.joined (p / 16) (p % 16) m
  | .asleep .helpers _ => !s.helpersFree (p / 16)
  | _ => false

/-- WAIT_LIMIT_EXPIRY: a sleep of the context itself traps; a wait at an agent is withdrawn (R28, R381). -/
def execWaitLimitExpiry (c k : Nat) (s : State) : Ev :=
  let p := ctxId c k
  let x := s.ctx p
  .next (match x.run with
    | .asleep _ since =>
      if s.cycle < x.limitAt since then s
      else if s.unmet p then s.raise p (tWaitLimit x.wlim)
      else if s.unwithdrawn p then s.withdraw p .limit
      else s
    | _ => s)

/-- Waits whose limit has come. -/
def State.limitsDue (s : State) : List Instr :=
  s.ctxs.filterMap (fun e =>
    match e.2.run with
    | .asleep _ since =>
      if decide (e.2.limitAt since ≤ s.cycle) && (s.unmet e.1 || s.unwithdrawn e.1) then
        some (.waitLimitExpiry (e.1 / 16) (e.1 % 16))
      else none
    | _ => none)

/-! Walks in flight (R333, R335). -/

/-- Physical address of the entry a walk reads next, where it reads one. -/
def State.nextRead (s : State) (d : Nat) (w : Walk) : Option Nat := s.walkRead d w.asid (pageVa w.page) w.next

/-- One read of a walk (R333). -/
def State.walkOn (s : State) (d : Nat) (w : Walk) : State :=
  let va := pageVa w.page
  let t := (s.nextRead d w).elim s s.readEntry
  match s.walkNext d w.asid va w.next with
  | .next l a => t.modDie d (fun x => { x with walks := x.walks.map (fun v =>
      if v.id = w.id then { v with next := some (l, a) } else v) })
  | .leaf e => t.leafFound d w.asid e
  | .fail e => t.endWalk d w none e.level e.cause

/-- The slice of a walk's next read. -/
def State.walkSlices (s : State) (d : Nat) (w : Walk) : List Nat :=
  s.pieceSlices noAsid ((s.nextRead d w).toList.map (fun k => ⟨0, k, 8⟩))

/-- A walk's next read may be sent (R220). -/
def State.mayWalk (s : State) (d : Nat) (w : Walk) : Bool :=
  s.maySend w.hold (walkPort d) (.walk d w.id) (s.walkSlices d w)

/-- TABLE_WALK: the next read of the walk in flight for a page, which its slice takes or refuses (R220), or with none a walk begun
ahead of need. -/
def execTableWalk (d asid : Nat) (va : Word) (s : State) : Ev :=
  .next (match s.walkOf d asid va with
    | none => s.askWalk d asid va []
    | some w =>
      if !s.mayWalk d w then s
      else
        match s.enterSlices (.walk d w.id) (walkPort d) (s.walkSlices d w) with
        | (false, t) => t
        | (true, t) => t.walkOn d { w with hold := .none })

/-- Walks in flight. -/
def State.walksOut (s : State) : List Instr :=
  s.dies.flatMap (fun e => (e.2.walks.filter (s.mayWalk e.1)).map (fun w => .tableWalk e.1 w.asid (pageVa w.page)))

/-- Pages from which awake contexts fetch next. -/
def State.fetchPages (s : State) : List (Nat × Nat × Word) :=
  s.ctxs.filterMap (fun e =>
    let va := blockOf e.2.pc + 32
    match s.fetchPlace e.1 va with
    | .error t =>
      if e.2.run = .awake ∧ e.2.fetch.isSome ∧ t.isMiss then some (coreDie (e.1 / 16), (s.who e.1).asid, va) else none
    | .ok _ => none)

/-- Pages of a task that its die's scheduler reads or writes: its TCB and its chain, and where it is to be suspended or resumed its
image (R351). -/
def State.taskPages (s : State) (d : Nat) (t : Task) (image : Bool) : List (Nat × Nat × Word) :=
  let root := (s.die d).rootAsid
  (t.chain.map (fun x => (d, root, x.1))) ++ [(d, root, t.rcb)]
    ++ (if t.donectr = 0 then [] else [(d, t.asid, t.donectr)])
    ++ (if image then (List.range 20).map (fun k => (d, t.asid, t.wsp + BitVec.ofNat 64 (65536 * k))) else [])

/-- Pages that the schedulers need. -/
def State.schedPages (s : State) : List (Nat × Nat × Word) :=
  s.cores.flatMap (fun e => match e.2.task with
    | none => []
    | some t => s.taskPages (coreDie e.1) t t.pending)
  ++ s.dies.flatMap (fun e =>
    (e.1, e.2.rootAsid, e.2.stewardTcb) :: e.2.queue.flatMap (fun q => s.taskPages e.1 q.task q.suspended))

/-! The ports' configuration (R367). -/

def State.ioCfg (s : State) (port : Nat) : Word := Tab.get 0 s.iocfg port
def State.portOn (s : State) (port : Nat) : Bool := bitAt (s.ioCfg port).toNat 63
def State.portPhys (s : State) (port : Nat) : Bool := bitAt (s.ioCfg port).toNat 62
def State.portAsid (s : State) (port : Nat) : Nat := bitsAt (s.ioCfg port).toNat 0 12

/-- Base die of a port. -/
def portDie (port : Nat) : Nat := if port = 1 ∨ port = 4 ∨ port = 5 then 4 else 0

/-- Pages that the first of the inputs reaches through its port. -/
def State.portPages (s : State) : List (Nat × Nat × Word) :=
  let at_ := fun (port : Nat) (va n : Nat) => [va, va + n - 1].map (fun a => (portDie port, s.portAsid port, BitVec.ofNat 64 a))
  match s.inputs with
  | [] => []
  | (_, i) :: _ =>
    match i with
    | .hostWriteIn a l => at_ 0 a.toNat l.length
    | .hostReadIn a n => at_ 0 a.toNat n
    | .hostAtomicopIn _ a n _ _ => at_ 0 a.toNat n
    | .peerPacketIn p a l => at_ p (bitsAt a.toNat 0 42) l.length
    | .storageIngestWrite a l => at_ 1 a.toNat l.length
    | _ => []

/-- Walks that may begin ahead of need. So the entries that a step of a scheduler or a port finds, though it makes what is left of its
walks at one instant, may be of different instants (R333, log 153). -/
def State.walksMay (s : State) : List Instr :=
  (s.fetchPages ++ s.schedPages ++ s.portPages).filterMap (fun x =>
    if (s.regionOf noCore x.2.2).1 = .paged ∧ (tlbFind (s.die x.1).tlb x.2.1 x.2.2).isNone ∧ (s.walkOf x.1 x.2.1 x.2.2).isNone then
      some (.tableWalk x.1 x.2.1 x.2.2)
    else none)

end Sys2Proof.Machine
end

