-- ==== Sys2Proof/Machine/Ports.lean ====
section
/-! DEFINITION. Traffic that reaches the six ports from outside: host writes, reads and AtomicOps (R287, R319, R367), peer
packets (R370) and storage ingest (R371). -/

namespace Sys2Proof.Machine

/-! Ports (R367). -/

/-- A port takes traffic: it is enabled, and the package is in service (R367, R374). -/
def State.portServes (s : State) (port : Nat) : Bool := s.portOn port && s.phase ≠ .reset

/-- Checks of an incoming access: a physical address lies in a share of a trained die; a virtual one is checked as an
engine packet is, in no mode, and reaches device memory alone. -/
def State.portPlace (s : State) (port : Nat) (a : Acc) (va : Word) (n : Nat) : Except TrapInfo Place :=
  let out := tProt va 4
  if s.portPhys port then
    if 2 ^ 48 ≤ va.toNat then .error out
    else
      match s.target va.toNat with
      | .global d _ =>
        if !s.dieUp d ∨ (a = .hostAtomic ∧ s.isAged va.toNat) then .error out else .ok ⟨va.toNat, none, none⟩
      | _ => .error out
  else if inLocal va ∨ inPeer va then .error out
  else
    match s.place ⟨noCore, portDie port, s.portAsid port, 0xFFFF, true, true, [], false⟩ a va n with
    | .error t => .error t
    | .ok p => if isGlobal p.key then .ok p else .error out

/-- The walk of an incoming access in a port's address space, whose leaf its die's shared TLB keeps (R335). -/
def State.portWalk (s : State) (port : Nat) (va : Word) : State :=
  if s.portPhys port ∨ (s.regionOf noCore va).1 ≠ .paged then s else s.walkNow (portDie port) (s.portAsid port) va

def State.portWalks (s : State) (port : Nat) (l : List (Nat × List Byte)) : State :=
  l.foldl (fun t x => t.portWalk port (BitVec.ofNat 64 x.1)) s

/-- The address space of a port's accesses; with physical addresses they lie in none, so no object and no retention register
has them. -/
def State.portSpace (s : State) (port : Nat) : Nat := if s.portPhys port then noAsid else s.portAsid port

/-- Bytes cut at the multiples of a size: their lines, or their blocks. -/
def cutAt (unit va : Nat) (data : List Byte) : List (Nat × List Byte) :=
  let first := va / unit
  let n := (va + data.length + unit - 1) / unit - first
  if data = [] then []
  else
    (List.range n).map (fun j =>
      let lo := max va (unit * (first + j))
      let hi := min (va + data.length) (unit * (first + j + 1))
      (lo, (data.drop (lo - va)).take (hi - lo)))

/-- Pieces of an incoming access with their places; the first failing check decides. -/
def State.portPlaces (s : State) (port : Nat) (a : Acc) :
    List (Nat × List Byte) → Except TrapInfo (List (Piece × Place × List Byte))
  | [] => .ok []
  | (va, bs) :: r =>
    match s.portPlace port a (BitVec.ofNat 64 va) bs.length with
    | .error t => .error t
    | .ok p =>
      match State.portPlaces s port a r with
      | .error t => .error t
      | .ok l => .ok ((⟨BitVec.ofNat 64 va, p.key, bs.length⟩, p, bs) :: l)

/-- The aged block, by its key, that a piece within one block would write, where the piece can be read. -/
def State.agedPiece (s : State) (port : Nat) (x : Nat × List Byte) : Option Nat :=
  match s.portPlace port .copyRd (BitVec.ofNat 64 x.1) x.2.length with
  | .error _ => none
  | .ok p => if s.isAged p.key then some p.key else none

/-- Record of a sector that does not verify, met by a port: it discards nothing (R362). -/
def State.portEvent (s : State) (port kind pa va : Nat) : State :=
  s.postEvent ⟨kind, 0x100, homeDie pa, 0xFF, 0xFFFF, s.portAsid port, pa, va, 0⟩

/-! Requests at slices (R220). -/

/-- A request from outside goes to the slices of its pieces. One that is refused is sent again: it stands first among the
inputs until it is accepted (log 39). -/
def State.fromOutside (s : State) (port : Nat) (i : Instr) (l : List Piece) (go : State → State) : State :=
  match s.enterSlices .outside (outerPort port) (s.pieceSlices (s.portSpace port) l) with
  | (true, t) => go t
  | (false, t) => { t with inputs := (t.cycle, i) :: t.inputs }

/-- The pieces of an incoming access whose checks pass. -/
def State.portPieces (s : State) (port : Nat) (a : Acc) (l : List (Nat × List Byte)) : List Piece :=
  if !s.portServes port then []
  else l.flatMap (fun x =>
    match s.portPlace port a (BitVec.ofNat 64 x.1) x.2.length with
    | .error _ => []
    | .ok p => [⟨BitVec.ofNat 64 x.1, p.key, x.2.length⟩])

/-! Writes. -/

/-- A piece of a write, within one block: discarded at an aged block's home and counted (R254), dropped by a failed check, or
written under the port's key index. -/
def State.portBlock (s : State) (port : Nat) (x : Nat × List Byte) : State :=
  let walked := s.portWalks port [x]
  match s.agedPiece port x with
  | some k => walked.discardAged k 1
  | none =>
    match s.portPlace port .copyWr (BitVec.ofNat 64 x.1) x.2.length with
    | .error t =>
      (match t.event with
        | some k => walked.portEvent port k t.addr.toNat t.info.toNat
        | none => walked)
    | .ok p =>
      match walked.writeHome (s.portAsid port) (keyed p.key x.2) with
      | .error k => walked.portEvent port k p.key x.1
      | .ok t => t

/-- A write from the host or from storage: each home applies or discards its own bytes (R254, R367). -/
def State.portWrite (s : State) (port : Nat) (va : Nat) (data : List Byte) : State :=
  let l := cutAt 64 va data
  let ps := s.portPieces port .copyWr l
  ((l.foldl (fun t x => t.portBlock port x) s).touchAs false (s.portSpace port) ps true .normal).settle

/-! The host port. -/

/-- HOST_WRITE_IN: line after line, in link order (R319). -/
def execHostWriteIn (addr : Word) (data : List Byte) (s : State) : Ev :=
  .next (s.fromOutside 0 (.hostWriteIn addr data) (s.portPieces 0 .copyWr (cutAt 64 addr.toNat data))
    (fun t => if !t.portServes 0 then t else (cutAt 256 addr.toNat data).foldl (fun t x => t.portWrite 0 x.1 x.2) t))

def State.answer (s : State) (o : Out) : State := { s with out := s.out ++ [o] }

/-- An access that a check refuses: Completer Abort for a sector that does not verify, else Unsupported Request. -/
def State.portRefuse (s : State) (port : Nat) (t : TrapInfo) : State :=
  match t.event with
  | some k => (s.portEvent port k t.addr.toNat t.info.toNat).answer (.abort port)
  | none => s.answer (.unsupported port)

/-- A read: the bytes at their homes, Unsupported Request, or Completer Abort for a sector that does not verify (R362,
R367). -/
def State.portRead (s : State) (port : Nat) (va : Nat) (n : Nat) : State :=
  let l := cutAt 256 va (List.replicate n 0)
  let r := s.portPlaces port .copyRd l
  let s := s.portWalks port l
  match r with
  | .error t => s.portRefuse port t
  | .ok q =>
    let ps := q.map (fun x => x.1)
    let keys := ps.flatMap Piece.keys
    match s.badBytes keys with
    | some k => (s.portEvent port k (s.badKey keys) va).answer (.abort port)
    | none =>
      (s.touch (s.portSpace port) ps false .normal).answer (.readData port (keys.map s.byte))

/-- HOST_READ_IN. -/
def execHostReadIn (addr : Word) (n : Nat) (s : State) : Ev :=
  .next (s.fromOutside 0 (.hostReadIn addr n) (s.portPieces 0 .copyRd (cutAt 256 addr.toNat (List.replicate n 0)))
    (fun t => if !t.portServes 0 then t.answer (.unsupported 0) else t.portRead 0 addr.toNat n))

/-- The new value of an incoming AtomicOp; a 128-bit CAS has none (R287). -/
def atomicOpNew (op : AtomicOp) (bits old val cmp : Nat) : Option Nat :=
  match op with
  | .fetchAdd => some ((old + val) % 2 ^ bits)
  | .swap => some (val % 2 ^ bits)
  | .cas => some (if old = cmp % 2 ^ bits then val % 2 ^ bits else old)
  | .cas128 => none

/-- An AtomicOp at its word: one relaxed atomic event at the home slice, or Unsupported Request (R287). -/
def State.portAtomic (s : State) (op : AtomicOp) (addr : Word) (bytes : Nat) (val cmp : Word) : State :=
  let r := s.portPlace 0 .hostAtomic addr bytes
  let s := s.portWalk 0 addr
  match r with
  | .error t => s.portRefuse 0 t
  | .ok p =>
    match s.badBytes [p.key] with
    | some k => (s.portEvent 0 k p.key addr.toNat).answer (.abort 0)
    | none =>
      let old := s.word p.key bytes
      match atomicOpNew op (8 * bytes) old val.toNat cmp.toNat with
      | none => s.answer (.unsupported 0)
      | some v =>
        let q : List Piece := [⟨addr, p.key, bytes⟩]
        let t := s.writeOr (s.portAsid 0) (keyed p.key (leBytes bytes v))
        let t := (t.touch (t.portSpace 0) q false .normal).touch (t.portSpace 0) q true .normal
        (t.settle).answer (.atomicData 0 (BitVec.ofNat 64 old))

/-- HOST_ATOMICOP_IN (R287, log 70). -/
def execHostAtomicopIn (op : AtomicOp) (addr : Word) (bytes : Nat) (val cmp : Word) (s : State) : Ev :=
  .next (s.fromOutside 0 (.hostAtomicopIn op addr bytes val cmp)
    (s.portPieces 0 .hostAtomic [(addr.toNat, List.replicate bytes 0)])
    (fun t =>
      if !t.portServes 0 ∨ !(bytes = 4 ∨ bytes = 8) ∨ addr.toNat % bytes ≠ 0 then t.answer (.unsupported 0)
      else t.portAtomic op addr bytes val cmp))

/-! Peers and storage. -/

/-- A peer packet whose checks have passed is applied as one event. -/
def State.peerWrite (s : State) (port : Nat) (q : List (Piece × Place × List Byte)) : State :=
  let ps := q.map (fun x => x.1)
  let l := q.flatMap (fun x => keyed x.1.key x.2.2)
  match s.writeHome (s.portAsid port) l with
  | .error k => s.portEvent port k (s.badWrite l) ((ps.map (fun x => x.va.toNat)).headD 0)
  | .ok t =>
    ((t.touchAs false (t.portSpace port) ps true .normal).settle).answer (.ack port)

/-- A peer packet is applied and then acknowledged, or answered with its failure (R305, R370); each aged block it would
write is counted (R254, log 69). -/
def State.peerPacket (s : State) (port : Nat) (l : List (Nat × List Byte)) : State :=
  let walked := s.portWalks port l
  match l.filterMap (s.agedPiece port) with
  | k :: r => ((k :: r).foldl (fun t b => t.discardAged b 1) walked).answer (.nack port 0x0A)
  | [] =>
    match s.portPlaces port .copyWr l with
    | .error t =>
      (match t.event with
        | some k => walked.portEvent port k t.addr.toNat t.info.toNat
        | none => walked.answer (.nack port t.code))
    | .ok q => walked.peerWrite port q

/-- PEER_PACKET_IN: a packet of up to 256 bytes on ports 2 to 5. -/
def execPeerPacketIn (port : Nat) (addr : Word) (data : List Byte) (s : State) : Ev :=
  let l := cutAt 64 (bitsAt addr.toNat 0 42) data
  .next (if port < 2 ∨ 5 < port ∨ 256 < data.length then s
    else s.fromOutside port (.peerPacketIn port addr data) (s.portPieces port .copyWr l)
      (fun t => if !t.portServes port then t else t.peerPacket port l))

/-- The enabled ingest window that wholly holds a write. -/
def State.ingestWindow (s : State) (addr n : Nat) : Option Nat :=
  (List.range 4).find? (fun w =>
    let a := (Tab.get 0 s.inga w).toNat
    let base := canonBase (bitsAt a 20 37 * 2 ^ 20)
    bitAt a 63 && decide (base ≤ addr) && decide (addr + n ≤ base + (Tab.get 0 s.ingl w).toNat))

/-- An ingest window's counter gains the bytes of a write (R371). -/
def State.countIngest (s : State) (w n : Nat) : State :=
  let ctr := Tab.get 0 s.ingc w
  if ctr = 0 then s else s.postCtr (.of 4 (s.portAsid 1) ctr (.add n) .ingest true 0 0xFFFF)

/-- STORAGE_INGEST_WRITE: a write wholly inside a window is applied at its homes, and its window's counter then gains its
bytes (R371). -/
def execStorageIngestWrite (addr : Word) (data : List Byte) (s : State) : Ev :=
  .next (
    match s.ingestWindow addr.toNat data.length with
    | none => s
    | some w =>
      s.fromOutside 1 (.storageIngestWrite addr data) (s.portPieces 1 .copyWr (cutAt 64 addr.toNat data))
        (fun t => if !t.portServes 1 then t else (t.portWrite 1 addr.toNat data).countIngest w data.length))

end Sys2Proof.Machine
end

