-- ==== Sys2Proof/Machine/Links.lean ====
section
/-! DEFINITION. Links: failures beyond retry and what they discard (R288, R329, R358), retrains and replays (R363), width and
frequency changes (R364). Which path crossing traffic takes, and where on it a request stands, is a free choice (log 8). -/

namespace Sys2Proof.Machine

/-! The mesh (R325, log 8). -/

/-- The dies at the ends of a die-to-die link: 0 to 2 and 3 to 5 join the dies of the two rows, 6 to 9 the rows. -/
def linkEnds (n : Nat) : Nat × Nat :=
  if n < 3 then (n, n + 1) else if n < 6 then (n + 1, n + 2) else (n - 6, n - 2)

def State.modLink (s : State) (n : Nat) (f : Link → Link) : State :=
  { s with links := Tab.set Link.full s.links n (f (Tab.get Link.full s.links n)) }

/-- Dies that some path of links in service joins to the listed ones. -/
def State.reach (s : State) : Nat → List Nat → List Nat
  | 0, l => l
  | n + 1, l =>
    State.reach s n ((List.range 10).foldl (fun l k =>
      if s.linkDown k then l
      else
        let e := linkEnds k
        if e.1 ∈ l ∧ e.2 ∉ l then e.2 :: l else if e.2 ∈ l ∧ e.1 ∉ l then e.1 :: l else l) l)

/-! Traffic. -/

/-- The die at which an access is made; host memory and the peers of ports 2 and 3 are reached through base die 0, storage and
the other peers through base die 4 (R304, R367). -/
def atDie (key : Nat) : Nat :=
  if isScratch key then coreDie (scratchCore key) else if isGlobal key then homeDie key
  else if isHost key then 0 else portDie (portOf key)

/-- Traffic of a core's die with a key may cross a link: a die-to-die link, the host link, the storage link or a peer's. -/
def mayCross (link die key : Nat) : Bool :=
  if link < 10 then decide (atDie key ≠ die) else isOuter key && decide (linkTo key = link)

/-- The request of a host atomic's lane goes out only at its turn (R285). -/
def Flight.turn (f : Flight) (n : Nat) : Bool :=
  match f.op, f.part n with
  | .atom .., some p => !isHost p.key || f.hostTurn n
  | _, _ => true

/-- A part whose request has been sent and whose answer has not returned. -/
def State.partOut (s : State) (f : Flight) (n : Nat) (p : Part) : Bool :=
  !p.done && (f.parked.isSome || (sent f p && s.ready f p && f.turn n))

/-- The parts of an operation whose request or answer may cross a link. -/
def State.crossing (s : State) (link : Nat) (f : Flight) : List Part :=
  (f.parts.zipIdx.filter (fun x => s.partOut f x.2 x.1 && mayCross link (coreDie f.core) x.1.key)).map (fun x => x.1)

/-- An operation has traffic that may cross a link. -/
def State.flightCrosses (s : State) (link : Nat) (f : Flight) : Bool :=
  s.crossing link f ≠ [] || (link = hostLink && f.hostPend)

/-- An operation that takes ATOM_LOST (R288). -/
def Flight.losable (f : Flight) : Bool :=
  match f.op with
  | .atom .. => f.dst.isSome
  | .cntrd | .waitc .. | .waitf .. => true
  | _ => false

/-- What the failure means for crossing traffic: its path avoids the link, it is on the link, or it is beyond it. -/
inductive Fate | clear | onLink | beyond
deriving DecidableEq, Repr

def fateOf (link n : Nat) : Fate :=
  match Config.freeChoice n % (if link < 10 then 3 else 2) with
  | 0 => .onLink
  | 1 => .beyond
  | _ => .clear

/-- An operation with traffic that may cross, the fate of each access of it that may, whose path is its own, and that of the
confirmation of its host stores. -/
structure FlightFate where
  (f : Flight) (parts : List (Part × Fate)) (confirm : Fate)

/-- Free choices that an operation takes: one for each lane, and one. -/
def fateCount : Nat := 65

/-- The operations that may cross, with their fates. -/
def State.fates (s : State) (link : Nat) : List FlightFate :=
  ((s.flights.filter (s.flightCrosses link)).zipIdx).map (fun x =>
    let n := s.freeCtr + fateCount * x.2
    ⟨x.1, (s.crossing link x.1).zipIdx.map (fun y => (y.1, fateOf link (n + y.2))),
      if link = hostLink ∧ x.1.hostPend then fateOf link (n + 64) else .clear⟩)

/-- The failure discards the operation's domain: a request or an answer of it is on the link, or one that is beyond it is owed to no
one that could take ATOM_LOST. -/
def FlightFate.gone (x : FlightFate) : Bool :=
  x.parts.any (fun y => y.2 = .onLink || (y.2 = .beyond && !x.f.losable)) || decide (x.confirm ≠ .clear)

/-- Accesses that take ATOM_LOST. -/
def FlightFate.lost (x : FlightFate) : List Part :=
  if x.f.losable then (x.parts.filter (fun y => y.2 = .beyond)).map (fun y => y.1) else []

/-- Region and fault domain of the task of a core. -/
def State.domainOf (s : State) (c : Nat) : List (Nat × Nat) :=
  match (s.core c).task with
  | none => []
  | some t => [(t.region, t.eff.fdom)]

/-- Traffic of the machine beside that of the operations in flight: a number of its own, the die it starts from, the keys it
goes to, and the region and domain that it belongs to. -/
structure Traffic where
  (n die : Nat) (keys : List Nat) (dom : List (Nat × Nat))

/-- Keys that a packet still has traffic with. -/
def Packet.toward (k : Packet) : List Nat :=
  match k.stage with
  | .issued => k.unread.map (fun q => q.key)
  | .ready | .hostPosted | .peerSent => [k.dstKey]
  | .staged => []

def State.packetTraffic (s : State) (c : Nat) : List Traffic :=
  (s.core c).packets.filterMap (fun k =>
    (s.copy c k.cmd).map (fun m => ⟨k.id, coreDie c, k.toward, [(m.region, m.fdom)]⟩))

/-- The row that a matrix engine has under way. -/
def State.rowTraffic (s : State) (c : Nat) : List Traffic :=
  match s.matHead c with
  | none => []
  | some m =>
    if !s.mayRow m then []
    else
      match s.checkRow m m.row with
      | .error _ => []
      | .ok p => [⟨m.id, coreDie c, (m.reads p ++ m.writes p).map (fun q => q.key), [(m.region, m.fdom)]⟩]

def State.updateTraffic (s : State) (u : CtrUp) : List Traffic :=
  match u.fdom, s.ctrPlace u with
  | some f, .ok p => [⟨u.id, u.die, [p.key], [(u.region, f)]⟩]
  | _, _ => []

/-- The block that a context's fetch reads. -/
def State.fetchTraffic (s : State) (p : Nat) : List Traffic :=
  let va := blockOf (s.ctx p).pc
  if (s.ctx p).run = .awake ∧ s.wantsBlock p va then
    match s.fetchPlace p va with
    | .error _ => []
    | .ok pl => [⟨s.nextId + p, coreDie (p / 16), [pl.key], s.domainOf (p / 16)⟩]
  else []

/-- Who waits for a walk. -/
def State.walkerDomain (s : State) (w : Walker) : List (Nat × Nat) :=
  match w with
  | .ctx p => s.domainOf (p / 16)
  | .copy c id => ((s.copy c id).map (fun m => (m.region, m.fdom))).toList
  | .mat c id => (((s.core c).mats.find? (fun m => m.id = id)).map (fun m => (m.region, m.fdom))).toList
  | .ctr id => ((s.ctrUps.find? (fun u => u.id = id)).bind (fun u => u.fdom.map (fun f => (u.region, f)))).toList

/-- The entry that a walk reads. -/
def State.walkTraffic (s : State) (d : Nat) (w : Walk) : Traffic :=
  let key := match w.next with
    | none => s.asidAt d w.asid
    | some (level, tbl) => entryAt (pageVa w.page) level tbl
  ⟨w.id, d, [key], w.waiters.flatMap s.walkerDomain⟩

def State.otherTraffic (s : State) : List Traffic :=
  s.coreNums.flatMap (fun c => s.packetTraffic c ++ s.rowTraffic c) ++ s.ctrUps.flatMap s.updateTraffic
    ++ s.ctxs.flatMap (fun e => s.fetchTraffic e.1) ++ s.dies.flatMap (fun e => e.2.walks.map (s.walkTraffic e.1))

/-- Regions and domains of other traffic on the link, by free choices from a number on. -/
def State.otherOn (s : State) (link n : Nat) : List (Nat × Nat) :=
  s.otherTraffic.flatMap (fun t =>
    if t.keys.any (mayCross link t.die) ∧ fateOf link (n + t.n) ≠ .clear then t.dom else [])

/-- Discard each of some domains once and post a record for each; a failure with no domain posts one record. -/
def State.discardAll (s : State) (kind d link : Nat) (l : List (Nat × Nat)) : State :=
  if l = [] then s.postEvent ⟨kind, 0x100, d, link, 0xFFFF, 0xFFFF, 0, 0, 0⟩
  else if l.any (fun x => x.1 = 0) then
    let r := s.discard none
    r.1.postEvent ⟨kind, 0xFF, d, link, 0xFFFF, 0xFFFF, 0, 0, r.2⟩
  else
    ((l.map (fun x => x.2)).dedup).foldl (fun t f => t.discardFor kind d link 0xFFFF 0xFFFF 0 0 f) s

/-! Lost responses (R288). -/

/-- Each lane whose outcome is unknown was applied once or not at all: a free choice. -/
def State.applyLost (s : State) (f : Flight) (p : Part) : State :=
  let t := s.useFree
  match f.op with
  | .atom op ty =>
    if isHost p.key ∨ Config.freeChoice s.freeCtr % 2 = 0 then t
    else (t.writeOr f.asid (keyed p.key (wordBytes p.len (atomNew op ty (t.word p.key p.len) p.a p.b)))).dropCopy f p
  | _ => t

/-- The requester takes ATOM_LOST for the lanes whose requests were on the link: lanes whose answers had arrived stand, and
lanes whose requests are on other paths are performed at their points (DEDUCED, log 124). -/
def State.lose (s : State) (id : Nat) (l : List Part) : State :=
  match s.flight id, l with
  | some f, p :: _ =>
    let lanes := l.map (fun q => q.lane)
    let left := (s.lanesLeft f).filter (fun q => q.lane ∉ lanes)
    (l.foldl (fun t q => t.applyLost f q) s).trapLeaving f (tAtomLost p.va (lanesWord lanes)) left
  | _, _ => s

/-! A die that no path reaches (R329, R358). -/

/-- Domains of the tasks on a die. -/
def State.domainsOn (s : State) (d : Nat) : List Nat :=
  ((s.runningOn d).map (fun x => x.2.eff.fdom) ++ (s.die d).queue.map (fun e => e.task.eff.fdom)).dedup

def bootMeasurement (n : Nat) (h : BitVec 384) (s : State) : State :=
  { s with measurements := Tab.set 0 s.measurements n h }

/-- The mask of fenced dies, which is measurement 10 (R375). -/
def State.setFenced (s : State) (m : BitVec 8) : State :=
  bootMeasurement 10 (m.setWidth 384) { s with fencedMask := m }

/-- A die that is fenced off neither drives a contest nor asks for power; a steward that was to start again there does not, and
LIVE counts it no more (R329). -/
def State.silence (s : State) (d : Nat) : State :=
  let x := s.contest 15
  let s := s.setContest 15 { x with entries := x.entries.filter (fun e => !(e.gov && e.die = d)) }
  let s := (s.die d).restart.elim s (fun l => s.liveDown d l)
  s.modDie d (fun x => { x with steal := .idle, reqs := [], restart := none })

/-- Fence a die off: its domains, its steward's among them, are discarded. -/
def State.fence (s : State) (d : Nat) : State :=
  let l := s.domainsOn d
  let s := s.modDie d (fun x => { x with phase := .fenced })
  let s := s.setFenced (s.fencedMask ||| BitVec.ofNat 8 (2 ^ d))
  let s :=
    if l = [] then s.postEvent ⟨4, 0x100, d, 0xFF, 0xFFFF, 0xFFFF, 0, 0, 0⟩
    else l.foldl (fun t f => t.discardFor 4 d 0xFF 0xFFFF 0xFFFF 0 0 f) s
  ((s.runningOn d).foldl (fun t x => t.endTask x.1 .discard) s).silence d

/-- Fence every die that die 0 no longer reaches. -/
def State.fenceCut (s : State) : State :=
  let r := s.reach 8 [0]
  (s.upDies.filter (fun d => d ∉ r)).foldl (fun t d => t.fence d) s

/-- Errors in shared control state discard every domain (R358). -/
def State.ctlErrors (s : State) : State :=
  s.ueCtl.foldl (fun t d => t.discardAll 1 d 0xFF [(0, 0)]) { s with ueCtl := [] }

/-- LINK_FAILURE. -/
def execLinkFailure (n : Nat) (s : State) : Ev :=
  .next (if 16 ≤ n ∨ s.linkDown n then s
    else
      let fl := s.fates n
      let gone := (fl.filter FlightFate.gone).map (fun x => (x.f.region, x.f.fdom))
      let other := s.otherOn n (s.freeCtr + fateCount * fl.length)
      let lost := fl.map (fun x => (x.f.id, x.lost))
      let d := if n < 10 then (linkEnds n).1 else if n = hostLink then 0 else if n = storageLink then 4 else portDie (n - 10)
      let s := { s with freeCtr := s.freeCtr + fateCount * fl.length + s.nextId + 16 * 8 * coresPerDie }
      let s := (s.modLink n (fun x => { x with down := true })).discardAll 3 d n (gone ++ other)
      ((lost.foldl (fun t x => t.lose x.1 x.2) s).fenceCut).settle)

/-- LINK_RETRAIN: the link is in service, and records held for the host link are posted (R360, R363). -/
def execLinkRetrain (n : Nat) (s : State) : Ev :=
  .next (if 16 ≤ n then s
    else
      let s := s.modLink n (fun x => { x with down := false, retrains := x.retrains + 1 })
      if n = hostLink then s.flushRecords else s)

/-- FLIT_REPLAY costs time only (R363). -/
def execFlitReplay (n : Nat) (s : State) : Ev :=
  .next (if 16 ≤ n then s else s.modLink n (fun x => { x with replays := x.replays + 1 }))

/-- LINK_WIDTH_CHANGE (R364). -/
def execLinkWidthChange (n w : Nat) (s : State) : Ev :=
  .next (if 16 ≤ n then s else s.modLink n (fun x => { x with narrowed := w }))

/-- LINK_FREQ_CHANGE: the die at either end changes its frequency (R364). -/
def execLinkFreqChange (d q : Nat) (s : State) : Ev :=
  .next (((List.range 10).filter (fun n => (linkEnds n).1 = d || (linkEnds n).2 = d)).foldl (fun t n =>
    t.modLink n (fun x => { x with freq := q })) s)

end Sys2Proof.Machine
end

