-- ==== Sys2Proof/Machine/Boot.lean ====
section
/-! DEFINITION. The measured boot (R365, R373), dim and full service (R374), the stewards (R318), and what the Loupe answers
over the DOE mailbox (R375). -/

namespace Sys2Proof.Machine

/-! Package reset (R373). -/

/-- Bytes of a list with its length before it. -/
def counted (l : List (List Byte)) : List Byte := leBytes 8 l.length ++ l.flatten

/-- A configuration record as bytes: its place in the image is the model's own layout (log 15). -/
def ConfigRec.bytes (c : ConfigRec) : List Byte :=
  leBytes 8 c.hcfg.toNat ++ leBytes 8 c.atbl.toNat ++ leBytes 2 c.rootAsid.toNat ++ leBytes 8 c.stewardTcb.toNat
    ++ leBytes 2 c.budget.toNat ++ leBytes 2 c.basel.toNat ++ leBytes 19 c.cores.toNat ++ leBytes 66 c.slices.toNat
    ++ counted (c.iocfg.map (fun e => leBytes 8 e.1 ++ leBytes 8 e.2.toNat))
    ++ counted (c.preload.map (fun e => leBytes 8 e.1 ++ leBytes 8 e.2.length ++ e.2))

/-- The whole image, which the hash and the signature cover. -/
def DieImage.bytes (i : DieImage) : List Byte := i.firmware ++ i.cfg.bytes

/-! The repair map (R216, R365). -/

def physCores : Nat := 152
def physSlices : Nat := 528

def workingOf {n : Nat} (w : BitVec n) : List Nat := (List.range n).filter (fun k => bitAt w.toNat k)

/-- Enough cores and slices work. -/
def ConfigRec.repairs (c : ConfigRec) : Bool :=
  decide (coresPerDie ≤ (workingOf c.cores).length) && decide (512 ≤ (workingOf c.slices).length)

/-- Logical numbers of cores go to enabled ones in ascending physical order. -/
def ConfigRec.coreMap (c : ConfigRec) : List Nat := (workingOf c.cores).take coresPerDie

/-- The number of each failed slice goes to a spare (R216, R365). The spares are the physical slices from 512 on, taken in
ascending order (DESIGN CHOICE, log 135). -/
def sliceMapFrom (ok : List Nat) : Nat → List Nat → List Nat → List Nat
  | 0, _, _ => []
  | fuel + 1, spares, n :: r =>
    if n ∈ ok then n :: sliceMapFrom ok fuel spares r
    else
      match spares with
      | [] => []
      | x :: y => x :: sliceMapFrom ok fuel y r
  | _, _, [] => []

def ConfigRec.sliceMap (c : ConfigRec) : List Nat :=
  let ok := workingOf c.slices
  sliceMapFrom ok 513 (ok.filter (fun n => decide (512 ≤ n))) (List.range 512)

/-! Release. -/

/-- An image passes its check and its die can be repaired. -/
def DieImage.ok (i : DieImage) : Bool := Config.signatureOk i.bytes i.sig && i.cfg.repairs

/-- The image of a die that is released. -/
def State.bootImage (s : State) (d : Nat) : Option DieImage :=
  (Tab.get none s.flash d).filter DieImage.ok

/-- The fields of HCFG, with the INTL of die 0's record on every die; its other bits read 0 (R368). A record's MIRR above 16 is taken
as it stands (DESIGN CHOICE, log 132). -/
def hcfgOf (h intl : Word) : Word := BitVec.ofNat 64 (bitsAt intl.toNat 0 7 + bitsAt h.toNat 8 6 * 256)

/-- The fields of IOCFG; its other bits read 0 (R367). -/
def iocfgOf (w : Word) : Word := BitVec.ofNat 64 (bitsAt w.toNat 62 2 * 2 ^ 62 + bitsAt w.toNat 0 12)

/-- The fields of ATBL; its other bits read 0 (R331). -/
def atblOf (w : Word) : Word := BitVec.ofNat 64 (bitsAt w.toNat 15 33 * 32768 + bitsAt w.toNat 0 1)

/-- A die released from reset with its configuration record. -/
def bootDie (c : ConfigRec) (intl : Word) : Die :=
  { Die.held with
    phase := .training, hcfg := hcfgOf c.hcfg intl, atbl := atblOf c.atbl, rootAsid := c.rootAsid.toNat, stewardTcb := c.stewardTcb
    budget := c.budget.toNat, basel := c.basel.toNat, coreMap := c.coreMap, sliceMap := c.sliceMap }

/-- One die's turn: its image is hashed, and the die is released or fenced off. -/
def State.bootOne (s : State) (intl : Word) (d : Nat) : State :=
  let s := match Tab.get none s.flash d with
    | none => s
    | some i => bootMeasurement (2 + d) (Config.sha384 i.bytes) s
  match s.bootImage d with
  | none => s.modDie d (fun x => { x with phase := .fenced })
  | some i =>
    let mine := (i.cfg.iocfg.filter (fun e => decide (e.1 < 6) && portDie e.1 = d)).map (fun e => (e.1, iocfgOf e.2))
    { s.setDie d (bootDie i.cfg intl) with iocfg := Tab.setMany 0 s.iocfg mine }

def State.fencedBits (s : State) : Nat :=
  ((List.range 8).filter (fun d => (s.die d).phase = .fenced)).foldl (fun n d => n + 2 ^ d) 0

/-- What a package reset keeps: the boot flash, host memory, and the model's own lists and counters. -/
def State.cold (s : State) : State :=
  { State.reset with
    flash := s.flash, inputs := s.inputs, freeCtr := s.freeCtr, nextId := s.nextId
    mem := Tab.drop (fun k => !isHost k) s.mem }

/-- PACKAGE_RESET: the Loupe verifies its firmware and each die's image in turn; without the firmware nothing is released. -/
def execPackageReset (s : State) : Ev :=
  let s := s.cold
  .next (if !Config.loupeFirmwareOk then s
    else
      let s := bootMeasurement 1 (Config.sha384 Config.loupeFirmware) s
      let intl := match Tab.get none s.flash 0 with | none => 0 | some i => i.cfg.hcfg
      let s := (List.range 8).foldl (fun t d => t.bootOne intl d) s
      s.setFenced (BitVec.ofNat 8 s.fencedBits))

/-! Stewards (R318). -/

/-- The steward's task, from its TCB in the root address space, or why there is none: an access or a check that fails. Where the TCB's
RCB field is 0 no task spawns it, and the RCB at address 0 is read; and a TCB that names another region's RCB takes that RCB's
fields and raises LIVE along its chain, though its region is 0 (DESIGN CHOICE, log 151). -/
def State.steward (s : State) (d : Nat) : Except TrapInfo Task :=
  let x := s.die d
  match s.sysPlace d x.rootAsid x.stewardTcb 64 false with
  | .error t => .error t
  | .ok k =>
    let b : Block := ⟨x.stewardTcb, s.word k 64⟩
    match s.badBytes [k] with
    | some e => .error ⟨0x100 + e, BitVec.ofNat 64 k, x.stewardTcb⟩
    | none =>
      match b.tcbErr with
      | some off => .error (tField x.stewardTcb off)
      | none =>
        match s.readChain d 8 (b.rcb 0) x.stewardTcb 16 with
        | .error t => .error t
        | .ok l =>
          let t := taskOf b s.nextId (b.rcb 0) l
          .ok { t with
            prio := 15, wsp := 0, bound := true, dies := BitVec.ofNat 8 (2 ^ d), region := 0, steward := true
            vblk := if t.sblk = 0 then t.eff.vblk else t.vblk, sblk := if t.sblk = 0 then t.eff.sblk else t.sblk }

/-- What reading the steward's TCB, and the chain it names, leaves (R207). -/
def State.touchSteward (s : State) (d : Nat) : State :=
  let x := s.die d
  let t := s.touchAt d x.rootAsid x.stewardTcb 64 false
  match s.sysPlace d x.rootAsid x.stewardTcb 64 false with
  | .error _ => t
  | .ok k =>
    let b : Block := ⟨x.stewardTcb, s.word k 64⟩
    if (s.badBytes [k]).isSome ∨ b.tcbErr.isSome then t else t.touchChain d (b.rcb 0)

/-- Each die's scheduler starts its steward on its lowest idle core. A sector that does not verify is met by the scheduler, which belongs
to no domain: its event is posted, and the steward does not start (R358, R362; DEDUCED, log 143). -/
def State.startSteward (s : State) (d : Nat) : State :=
  match s.idleCores d with
  | [] => s
  | c :: _ =>
    match s.steward d with
    | .error t =>
      (match t.event with
        | none => s.touchSteward d
        | some k => (s.touchSteward d).postEvent ⟨k, 0x100, d, 0xFF, 0, (s.die d).rootAsid, t.addr.toNat, t.info.toNat, 0⟩)
    | .ok t => ((s.touchSteward d).fresh.liveUp d t.chain).startTask c t

/-- Stewards that a discard of the whole device has ended start again from their TCBs (R359). LIVE counts the new one before the
old one is taken off, so that region 0 does not end between them (R323, R324). -/
def State.restartStewards (s : State) : State :=
  s.dies.foldl (fun t e =>
    match e.2.restart with
    | none => t
    | some l => ((t.modDie e.1 (fun x => { x with restart := none })).startSteward e.1).liveDown e.1 l) s

/-! Training and service (R373, R374). -/

/-- A key in a die's own memory. -/
def State.inOwn (s : State) (d key : Nat) : Bool :=
  match s.target key with
  | .global e _ => decide (e = d)
  | _ => false

/-- The preload sections are those of the measured image. -/
def State.preloadOk (s : State) (d : Nat) : Bool :=
  match s.bootImage d with
  | none => false
  | some i => Config.sha384 i.bytes = Tab.get 0 s.measurements (2 + d)

/-- Preload sections, at the physical addresses that the configuration record names, in the die's own memory. -/
def State.preload (s : State) (d : Nat) : State :=
  match s.bootImage d with
  | none => s
  | some i => i.cfg.preload.foldl (fun t x => t.setBytes ((keyed x.1 x.2).filter (fun e => t.inOwn d e.1))) s

/-- Every die is trained or fenced off, and base die 0 is trained. -/
def State.allTrained (s : State) : Bool :=
  s.dieUp 0 && (List.range 8).all (fun d => s.dieUp d || (s.die d).phase = .fenced)

/-- Full service begins: the clocks double at the next rotation boundary, which with no context awake is the next multiple of 4
cycles (DESIGN CHOICE, log 105), and the stewards start. -/
def State.fullService (s : State) : State :=
  s.upDies.foldl (fun t d => t.startSteward d) { s with phase := .full, fullAt := (s.cycle / 4 + 1) * 4 }

/-- Dim service begins with die 0; full service when no die is left to train. -/
def State.enterService (s : State) : State :=
  let s := if s.dieUp 0 ∧ s.phase = .reset then { s with phase := .dim } else s
  if s.allTrained ∧ s.phase = .dim then s.fullService else s

/-- A die's links and HBM are trained. Its base die then writes the preload sections, each checked against the measured image;
a die whose image fails this check is fenced off. -/
def execDieTrainingComplete (d : Nat) (s : State) : Ev :=
  .next (if (s.die d).phase ≠ .training then s
    else if s.preloadOk d then ((s.preload d).modDie d (fun x => { x with phase := .trained })).enterService
    else
      ((s.modDie d (fun x => { x with phase := .fenced })).setFenced (s.fencedMask ||| BitVec.ofNat 8 (2 ^ d))).enterService)

/-- Dies that may finish their training. -/
def State.trainings (s : State) : List Instr :=
  s.dies.filterMap (fun e => if e.2.phase = .training then some (.dieTrainingComplete e.1) else none)

/-! SPDM (R375). -/

/-- An answer of the Loupe; the mailbox lies on port 0, which serves from dim service on. -/
def State.spdmSay (s : State) (m : SpdmMsg) : State := if s.phase = .reset then s else { s with spdm := s.spdm ++ [m] }

/-- A fresh signature of the Loupe's key. -/
def State.spdmSign (s : State) (f : List Byte → SpdmMsg) : State := s.useFree.spdmSay (f (Config.spdmSignature s.freeCtr))

def execGetVersion (s : State) : Ev := .next (s.spdmSay (.version 1 3))
def execGetCapabilities (s : State) : Ev := .next (s.spdmSay .capabilities)
def execNegotiateAlgorithms (s : State) : Ev := .next (s.spdmSay (.algorithms .sha384 [.ecdsaBrainpoolP384r1]))
def execGetDigests (s : State) : Ev := .next (s.spdmSay (.digests (Config.sha384 Config.certificate)))
def execGetCertificate (s : State) : Ev := .next (s.spdmSay (.certificate Config.certificate))
def execChallenge (s : State) : Ev := .next (s.spdmSign .challengeAuth)

/-- Measurements 1 to 10. -/
def execGetMeasurements (s : State) : Ev :=
  .next (s.spdmSay (.measurements ((List.range 10).map (fun n => (n + 1, Tab.get 0 s.measurements (n + 1))))))

def execKeyExchange (s : State) : Ev := .next (s.spdmSign .keyExchange)
def execFinish (s : State) : Ev := .next (s.spdmSay .finish)

end Sys2Proof.Machine
end

