-- ==== Sys2Proof/Machine/Writeback.lean ====
section
/-! DEFINITION. Writeback events (R12 to R14, R25, R30). -/

namespace Sys2Proof.Machine

/-- Land a writeback of the named kind whose time has come. -/
def State.writeback (s : State) (c id : Nat) (long : Bool) : State :=
  match (s.core c).wbs.find? (fun w => w.id = id) with
  | none => s
  | some w =>
    if w.long ≠ long ∨ w.missing ∨ s.cycle < w.due then s else (s.applyWB w).wakeOctets c

def execFixedWriteback (c id : Nat) (s : State) : Host.Outcome State Fault Refusal := .next (s.writeback c id false)
def execLongWriteback (c id : Nat) (s : State) : Host.Outcome State Fault Refusal := .next (s.writeback c id true)

/-- Writebacks that are due, in the order of issue on each core: of two to one slice the later-issued value stands
(R30). -/
def State.dueWBs (s : State) : List Instr :=
  s.cores.flatMap (fun e => e.2.wbs.filterMap (fun w =>
    if w.missing ∨ s.cycle < w.due then none
    else some (if w.long then .longWriteback e.1 w.id else .fixedWriteback e.1 w.id)))

end Sys2Proof.Machine
end

