-- ==== Sys2Proof/Machine/Dispatch.lean ====
section
/-! DEFINITION. The dispatcher: one arm for each row of the opcode table. -/

namespace Sys2Proof.Machine

def exec (i : Instr) (s : State) : Host.Outcome State Fault Refusal :=
  match i with
  | .add f => Sys2Proof.Machine.execAdd f s
  | .sub f => Sys2Proof.Machine.execSub f s
  | .addi f => Sys2Proof.Machine.execAddi f s
  | .mul f => Sys2Proof.Machine.execMul f s
  | .mulh f => Sys2Proof.Machine.execMulh f s
  | .mad f => Sys2Proof.Machine.execMad f s
  | .div f => Sys2Proof.Machine.execDiv f s
  | .rem f => Sys2Proof.Machine.execRem f s
  | .min f => Sys2Proof.Machine.execMin f s
  | .max f => Sys2Proof.Machine.execMax f s
  | .abs f => Sys2Proof.Machine.execAbs f s
  | .neg f => Sys2Proof.Machine.execNeg f s
  | .clz f => Sys2Proof.Machine.execClz f s
  | .popc f => Sys2Proof.Machine.execPopc f s
  | .sad f => Sys2Proof.Machine.execSad f s
  | .lea f => Sys2Proof.Machine.execLea f s
  | .aidx f => Sys2Proof.Machine.execAidx f s
  | .movi f => Sys2Proof.Machine.execMovi f s
  | .movhi f => Sys2Proof.Machine.execMovhi f s
  | .cmp f => Sys2Proof.Machine.execCmp f s
  | .and f => Sys2Proof.Machine.execAnd f s
  | .or f => Sys2Proof.Machine.execOr f s
  | .xor f => Sys2Proof.Machine.execXor f s
  | .andn f => Sys2Proof.Machine.execAndn f s
  | .not f => Sys2Proof.Machine.execNot f s
  | .shl f => Sys2Proof.Machine.execShl f s
  | .shr f => Sys2Proof.Machine.execShr f s
  | .sar f => Sys2Proof.Machine.execSar f s
  | .rot f => Sys2Proof.Machine.execRot f s
  | .bfx f => Sys2Proof.Machine.execBfx f s
  | .bfi f => Sys2Proof.Machine.execBfi f s
  | .sext f => Sys2Proof.Machine.execSext f s
  | .zext f => Sys2Proof.Machine.execZext f s
  | .mov f => Sys2Proof.Machine.execMov f s
  | .sel f => Sys2Proof.Machine.execSel f s
  | .pack f => Sys2Proof.Machine.execPack f s
  | .unpk f => Sys2Proof.Machine.execUnpk f s
  | .swz f => Sys2Proof.Machine.execSwz f s
  | .swzMask f => Sys2Proof.Machine.execSwzMask f s
  | .bcast f => Sys2Proof.Machine.execBcast f s
  | .lrot f => Sys2Proof.Machine.execLrot f s
  | .pand f => Sys2Proof.Machine.execPand f s
  | .por f => Sys2Proof.Machine.execPor f s
  | .pxor f => Sys2Proof.Machine.execPxor f s
  | .pnot f => Sys2Proof.Machine.execPnot f s
  | .pany f => Sys2Proof.Machine.execPany f s
  | .pall f => Sys2Proof.Machine.execPall f s
  | .pcnt f => Sys2Proof.Machine.execPcnt f s
  | .fadd f => Sys2Proof.Machine.execFadd f s
  | .fsub f => Sys2Proof.Machine.execFsub f s
  | .fmul f => Sys2Proof.Machine.execFmul f s
  | .fdiv f => Sys2Proof.Machine.execFdiv f s
  | .fma f => Sys2Proof.Machine.execFma f s
  | .fms f => Sys2Proof.Machine.execFms f s
  | .fnma f => Sys2Proof.Machine.execFnma f s
  | .fmin f => Sys2Proof.Machine.execFmin f s
  | .fmax f => Sys2Proof.Machine.execFmax f s
  | .fabs f => Sys2Proof.Machine.execFabs f s
  | .fneg f => Sys2Proof.Machine.execFneg f s
  | .fsqrt f => Sys2Proof.Machine.execFsqrt f s
  | .frcp f => Sys2Proof.Machine.execFrcp f s
  | .frsq f => Sys2Proof.Machine.execFrsq f s
  | .fexp2 f => Sys2Proof.Machine.execFexp2 f s
  | .flog2 f => Sys2Proof.Machine.execFlog2 f s
  | .fsin f => Sys2Proof.Machine.execFsin f s
  | .fcos f => Sys2Proof.Machine.execFcos f s
  | .ftanh f => Sys2Proof.Machine.execFtanh f s
  | .fclass f => Sys2Proof.Machine.execFclass f s
  | .fscale f => Sys2Proof.Machine.execFscale f s
  | .frnd f => Sys2Proof.Machine.execFrnd f s
  | .fcmp f => Sys2Proof.Machine.execFcmp f s
  | .fred f => Sys2Proof.Machine.execFred f s
  | .cvt f => Sys2Proof.Machine.execCvt f s
  | .cvts f => Sys2Proof.Machine.execCvts f s
  | .qblk f => Sys2Proof.Machine.execQblk f s
  | .dqblk f => Sys2Proof.Machine.execDqblk f s
  | .bhdr f => Sys2Proof.Machine.execBhdr f s
  | .bset f => Sys2Proof.Machine.execBset f s
  | .bchk f => Sys2Proof.Machine.execBchk f s
  | .idot4 f => Sys2Proof.Machine.execIdot4 f s
  | .ld f => Sys2Proof.Machine.execLd f s
  | .st f => Sys2Proof.Machine.execSt f s
  | .gath f => Sys2Proof.Machine.execGath f s
  | .scat f => Sys2Proof.Machine.execScat f s
  | .pref f => Sys2Proof.Machine.execPref f s
  | .agldWait f => Sys2Proof.Machine.execAgldWait f s
  | .agldTry f => Sys2Proof.Machine.execAgldTry f s
  | .agst f => Sys2Proof.Machine.execAgst f s
  | .ldfWf f => Sys2Proof.Machine.execLdfWf f s
  | .ldfWfc f => Sys2Proof.Machine.execLdfWfc f s
  | .stf f => Sys2Proof.Machine.execStf f s
  | .femarkFull f => Sys2Proof.Machine.execFemarkFull f s
  | .femarkEmpty f => Sys2Proof.Machine.execFemarkEmpty f s
  | .spill f => Sys2Proof.Machine.execSpill f s
  | .fill f => Sys2Proof.Machine.execFill f s
  | .fenceLL f => Sys2Proof.Machine.execFenceLL f s
  | .fenceSL f => Sys2Proof.Machine.execFenceSL f s
  | .fenceSS f => Sys2Proof.Machine.execFenceSS f s
  | .fenceFull f => Sys2Proof.Machine.execFenceFull f s
  | .atadd f => Sys2Proof.Machine.execAtadd f s
  | .atmin f => Sys2Proof.Machine.execAtmin f s
  | .atmax f => Sys2Proof.Machine.execAtmax f s
  | .atand f => Sys2Proof.Machine.execAtand f s
  | .ator f => Sys2Proof.Machine.execAtor f s
  | .atxor f => Sys2Proof.Machine.execAtxor f s
  | .atxch f => Sys2Proof.Machine.execAtxch f s
  | .atcas f => Sys2Proof.Machine.execAtcas f s
  | .atfadd f => Sys2Proof.Machine.execAtfadd f s
  | .atinc f => Sys2Proof.Machine.execAtinc f s
  | .atdec f => Sys2Proof.Machine.execAtdec f s
  | .waitc f => Sys2Proof.Machine.execWaitc f s
  | .waitcNt f => Sys2Proof.Machine.execWaitcNt f s
  | .cntadd f => Sys2Proof.Machine.execCntadd f s
  | .cntaddErr f => Sys2Proof.Machine.execCntaddErr f s
  | .cntrd f => Sys2Proof.Machine.execCntrd f s
  | .waitf f => Sys2Proof.Machine.execWaitf f s
  | .iflush f => Sys2Proof.Machine.execIflush f s
  | .br f => Sys2Proof.Machine.execBr f s
  | .brc f => Sys2Proof.Machine.execBrc f s
  | .jmp f => Sys2Proof.Machine.execJmp f s
  | .call f => Sys2Proof.Machine.execCall f s
  | .calli f => Sys2Proof.Machine.execCalli f s
  | .ret f => Sys2Proof.Machine.execRet f s
  | .loop f => Sys2Proof.Machine.execLoop f s
  | .safe f => Sys2Proof.Machine.execSafe f s
  | .rbdone f => Sys2Proof.Machine.execRbdone f s
  | .nop64 f => Sys2Proof.Machine.execNop64 f s
  | .yield f => Sys2Proof.Machine.execYield f s
  | .done f => Sys2Proof.Machine.execDone f s
  | .hstart f => Sys2Proof.Machine.execHstart f s
  | .hjoin f => Sys2Proof.Machine.execHjoin f s
  | .spawn f => Sys2Proof.Machine.execSpawn f s
  | .idrd f => Sys2Proof.Machine.execIdrd f s
  | .itset f => Sys2Proof.Machine.execItset f s
  | .itinc f => Sys2Proof.Machine.execItinc f s
  | .itrd f => Sys2Proof.Machine.execItrd f s
  | .seed f => Sys2Proof.Machine.execSeed f s
  | .trap f => Sys2Proof.Machine.execTrap f s
  | .tret f => Sys2Proof.Machine.execTret f s
  | .tretNext f => Sys2Proof.Machine.execTretNext f s
  | .sysrd f => Sys2Proof.Machine.execSysrd f s
  | .sysrdClr f => Sys2Proof.Machine.execSysrdClr f s
  | .syswr f => Sys2Proof.Machine.execSyswr f s
  | .syswrRtn f => Sys2Proof.Machine.execSyswrRtn f s
  | .syswrHcfg f => Sys2Proof.Machine.execSyswrHcfg f s
  | .syswrShst f => Sys2Proof.Machine.execSyswrShst f s
  | .syswrKreq f => Sys2Proof.Machine.execSyswrKreq f s
  | .tlbiAll f => Sys2Proof.Machine.execTlbiAll f s
  | .tlbiAsid f => Sys2Proof.Machine.execTlbiAsid f s
  | .tlbiVa f => Sys2Proof.Machine.execTlbiVa f s
  | .objdef f => Sys2Proof.Machine.execObjdef f s
  | .objdefClr f => Sys2Proof.Machine.execObjdefClr f s
  | .genb f => Sys2Proof.Machine.execGenb f s
  | .perf f => Sys2Proof.Machine.execPerf f s
  | .perfClr f => Sys2Proof.Machine.execPerfClr f s
  | .unpin f => Sys2Proof.Machine.execUnpin f s
  | .cpset f => Sys2Proof.Machine.execCpset f s
  | .cpgo f => Sys2Proof.Machine.execCpgo f s
  | .cpred f => Sys2Proof.Machine.execCpred f s
  | .cpredRanked f => Sys2Proof.Machine.execCpredRanked f s
  | .cpq f => Sys2Proof.Machine.execCpq f s
  | .cpqCount f => Sys2Proof.Machine.execCpqCount f s
  | .mmcfg f => Sys2Proof.Machine.execMmcfg f s
  | .mma f => Sys2Proof.Machine.execMma f s
  | .mmaRp f => Sys2Proof.Machine.execMmaRp f s
  | .mmw f => Sys2Proof.Machine.execMmw f s
  | .mmwRp f => Sys2Proof.Machine.execMmwRp f s
  | .mmrp f => Sys2Proof.Machine.execMmrp f s
  | .prentOnce f => Sys2Proof.Machine.execPrentOnce f s
  | .prentHold f => Sys2Proof.Machine.execPrentHold f s
  | .prres f => Sys2Proof.Machine.execPrres f s
  | .prrel f => Sys2Proof.Machine.execPrrel f s
  | .leave f => Sys2Proof.Machine.execLeave f s
  | .fixedWriteback core wb => Sys2Proof.Machine.execFixedWriteback core wb s
  | .longWriteback core wb => Sys2Proof.Machine.execLongWriteback core wb s
  | .waitLimitExpiry core ctx => Sys2Proof.Machine.execWaitLimitExpiry core ctx s
  | .yieldExpiry core ctx => Sys2Proof.Machine.execYieldExpiry core ctx s
  | .fetchBlockRead core ctx block => Sys2Proof.Machine.execFetchBlockRead core ctx block s
  | .tableWalk die asid va => Sys2Proof.Machine.execTableWalk die asid va s
  | .homeRead fl part => Sys2Proof.Machine.execHomeRead fl part s
  | .homeWrite fl part => Sys2Proof.Machine.execHomeWrite fl part s
  | .requestResend fl part => Sys2Proof.Machine.execRequestResend fl part s
  | .l1Fill core k => Sys2Proof.Machine.execL1Fill core k s
  | .mirrorFill die k => Sys2Proof.Machine.execMirrorFill die k s
  | .hostReadCompletion fl part => Sys2Proof.Machine.execHostReadCompletion fl part s
  | .zeroLengthReadDone port => Sys2Proof.Machine.execZeroLengthReadDone port s
  | .atomicPointEvent fl part => Sys2Proof.Machine.execAtomicPointEvent fl part s
  | .hostAtomicCompletion fl part st => Sys2Proof.Machine.execHostAtomicCompletion fl part st s
  | .counterUpdate k => Sys2Proof.Machine.execCounterUpdate k s
  | .watchReread fl => Sys2Proof.Machine.execWatchReread fl s
  | .watchWithdrawal fl => Sys2Proof.Machine.execWatchWithdrawal fl s
  | .ldfAtScratchpad fl => Sys2Proof.Machine.execLdfAtScratchpad fl s
  | .ldfResend fl => Sys2Proof.Machine.execLdfResend fl s
  | .stfAtScratchpad fl => Sys2Proof.Machine.execStfAtScratchpad fl s
  | .granuleWithdrawal fl => Sys2Proof.Machine.execGranuleWithdrawal fl s
  | .agldHomeRequest fl => Sys2Proof.Machine.execAgldHomeRequest fl s
  | .agstAtHome fl => Sys2Proof.Machine.execAgstAtHome fl s
  | .agedWithdrawal fl => Sys2Proof.Machine.execAgedWithdrawal fl s
  | .copyPacketIssue core => Sys2Proof.Machine.execCopyPacketIssue core s
  | .copyPacketLand core k => Sys2Proof.Machine.execCopyPacketLand core k s
  | .peerAck core k => Sys2Proof.Machine.execPeerAck core k s
  | .rankedStaging core k => Sys2Proof.Machine.execRankedStaging core k s
  | .heavyLeaveRequest core matrix => Sys2Proof.Machine.execHeavyLeaveRequest core matrix s
  | .governorGrant die => Sys2Proof.Machine.execGovernorGrant die s
  | .matrixRow core => Sys2Proof.Machine.execMatrixRow core s
  | .prismEntryRegister c k => Sys2Proof.Machine.execPrismEntryRegister c k s
  | .prismRoundStart c => Sys2Proof.Machine.execPrismRoundStart c s
  | .prismLatch c => Sys2Proof.Machine.execPrismLatch c s
  | .prismWithdrawal c k => Sys2Proof.Machine.execPrismWithdrawal c k s
  | .taskDispatch die => Sys2Proof.Machine.execTaskDispatch die s
  | .priorityAging die => Sys2Proof.Machine.execPriorityAging die s
  | .quantumExpiry core => Sys2Proof.Machine.execQuantumExpiry core s
  | .taskSuspend core => Sys2Proof.Machine.execTaskSuspend core s
  | .stealAttempt die => Sys2Proof.Machine.execStealAttempt die s
  | .stealRetry die => Sys2Proof.Machine.execStealRetry die s
  | .stealShip victim thief => Sys2Proof.Machine.execStealShip victim thief s
  | .hostWriteIn addr data => Sys2Proof.Machine.execHostWriteIn addr data s
  | .hostReadIn addr n => Sys2Proof.Machine.execHostReadIn addr n s
  | .hostAtomicopIn op addr bytes val cmp => Sys2Proof.Machine.execHostAtomicopIn op addr bytes val cmp s
  | .peerPacketIn port addr data => Sys2Proof.Machine.execPeerPacketIn port addr data s
  | .storageIngestWrite addr data => Sys2Proof.Machine.execStorageIngestWrite addr data s
  | .linkFailure link => Sys2Proof.Machine.execLinkFailure link s
  | .linkRetrain link => Sys2Proof.Machine.execLinkRetrain link s
  | .linkWidthChange link width => Sys2Proof.Machine.execLinkWidthChange link width s
  | .linkFreqChange die freq => Sys2Proof.Machine.execLinkFreqChange die freq s
  | .packageReset => Sys2Proof.Machine.execPackageReset s
  | .dieTrainingComplete die => Sys2Proof.Machine.execDieTrainingComplete die s
  | .getVersion => Sys2Proof.Machine.execGetVersion s
  | .getCapabilities => Sys2Proof.Machine.execGetCapabilities s
  | .negotiateAlgorithms => Sys2Proof.Machine.execNegotiateAlgorithms s
  | .getDigests => Sys2Proof.Machine.execGetDigests s
  | .getCertificate => Sys2Proof.Machine.execGetCertificate s
  | .challenge => Sys2Proof.Machine.execChallenge s
  | .getMeasurements => Sys2Proof.Machine.execGetMeasurements s
  | .keyExchange => Sys2Proof.Machine.execKeyExchange s
  | .finish => Sys2Proof.Machine.execFinish s
  | .leaveWithdrawal core ctx => Sys2Proof.Machine.execLeaveWithdrawal core ctx s
  | .flitReplay link => Sys2Proof.Machine.execFlitReplay link s
  | .ticketNotice fl part => Sys2Proof.Machine.execTicketNotice fl part s

end Sys2Proof.Machine
end

