-- ==== Sys2Proof/Machine/Plan.lean ====
section
/-! DEFINITION. What comes next: due inputs, events due at this cycle, events that may come, the next slot of a rotation
(R9 to R11), or the end of the cycle. -/

namespace Sys2Proof.Machine

/-- The next step: an instruction or event to run, or a state reached without one. -/
inductive Plan
  | run (i : Instr) (s : State)
  | now (s : State)

/-- Events of the ports, the links and the Loupe, which the outside world brings. -/
def isInput (i : Instr) : Bool :=
  match i with
  | .hostWriteIn .. | .hostReadIn .. | .hostAtomicopIn .. | .peerPacketIn .. | .storageIngestWrite .. | .linkFailure _
  | .linkRetrain _ | .linkWidthChange .. | .linkFreqChange .. | .flitReplay _ | .packageReset | .getVersion
  | .getCapabilities | .negotiateAlgorithms | .getDigests | .getCertificate | .challenge | .getMeasurements | .keyExchange
  | .finish => true
  | _ => false

/-- Events that come in this cycle, in order, ahead of its slots. -/
def State.timed (s : State) : List Instr :=
  s.dueWBs ++ s.yieldsDue ++ s.prismDue ++ s.homeTimed ++ s.schedDue

/-- Events that come in finite time, but at no time that the rules give (R35). -/
def State.mustCome (s : State) : List Instr :=
  s.homeEvents ++ s.engineMay ++ s.prismMay ++ s.powerMay ++ s.schedMay ++ s.demands ++ s.walksOut ++ s.trainings

/-- Events that may come now or later, those made ahead of need among them. -/
def State.untimed (s : State) : List Instr := s.mustCome ++ s.prefetches ++ s.walksMay

/-- The end of a cycle. -/
def State.tick (s : State) : State :=
  let s := s.drainAll.settle.dropFetches.freeSlices.ctlErrors.restartStewards.checkAll
  { s with cycle := s.cycle + 1, time := s.time + s.period, closing := false }

/-- The limits of waits, then the end of the cycle: a wake condition that comes true in the cycle of the limit has come true
before it, and nothing else comes once the first limit has been taken (R28). -/
def State.planEnd (s : State) : Plan :=
  match s.limitsDue with
  | i :: _ => .run i { s with closing := true }
  | [] => .now s.tick

/-- A rotation of a core starts in this cycle (R9). -/
def Core.starts (x : Core) (cycle : Nat) : Bool :=
  x.rot = [] && decide (x.rotAt ≤ cycle) && decide ((cycle - x.rotAt) % 4 = 0)

def State.awakeIn (s : State) (c : Nat) : List Nat :=
  ctxNums.filter (fun k => (s.ctx (ctxId c k)).run = .awake && decide ((s.ctx (ctxId c k)).joinAt ≤ s.cycle))

/-- The state with the core's rotation begun, where one starts with a context awake. -/
def State.beginRotation (s : State) (c : Nat) : State :=
  let x := s.core c
  if !x.starts s.cycle then s
  else
    match s.awakeIn c with
    | [] => s
    | l => s.setCore c { x with rot := l, slotAt := s.cycle, rotAt := s.cycle + max 4 l.length }

/-- The slot a core has in this cycle: the rest of its rotation, its context, and the state with the slot taken. -/
def State.takeSlot (s : State) (c : Nat) : Option (Nat × State) :=
  let s := s.beginRotation c
  let x := s.core c
  match x.rot with
  | [] => none
  | k :: r => if s.cycle < x.slotAt then none else some (k, s.setCore c { x with rot := r, slotAt := s.cycle + 1 })

/-- A context's slot: a bubble, a forfeit to the normaliser (R32), or the fetch of its instruction. -/
def State.slot (s : State) (c k : Nat) : Plan :=
  let p := ctxId c k
  let x := s.ctx p
  if x.run ≠ .awake then .now s
  else if x.forfeits ≠ 0 then .now ((s.setCtx p { x with forfeits := x.forfeits - 1 }).forfeit c)
  else
    match { s with curCore := c, curCtx := k }.fetch p with
    | .instr i t => .run i t
    | .none t => .now t

/-- The first core with a slot in this cycle. -/
def State.nextSlot (s : State) : List Nat → Option Plan
  | [] => none
  | c :: r =>
    match s.takeSlot c with
    | some (k, t) => some (t.slot c k)
    | none => State.nextSlot s r

/-- Slots, then the end of the cycle. -/
def State.planSlot (s : State) : Plan :=
  match s.nextSlot s.coreNums with
  | some x => x
  | none => s.drainAll.settle.planEnd

/-- The events that may come, or none of them, by a free choice. So that each comes in finite time, a list of those that must
is made from time to time, and each of them that can still come then comes, in its order, before the next list (R35,
log 13). -/
def State.planFree (s : State) : Plan :=
  match s.untimed with
  | [] => s.planSlot
  | a :: l =>
    match s.sweep with
    | i :: r => if i ∈ a :: l then .run i { s with sweep := r } else .now { s with sweep := r }
    | [] =>
      if s.sweepAt ≤ s.cycle then
        .now { s.useFree with sweep := s.mustCome, sweepAt := s.cycle + 1 + Config.latency s.freeCtr }
      else
        match (a :: l)[Config.freeChoice s.freeCtr % (l.length + 2)]? with
        | some i => .run i s.useFree
        | none => s.useFree.planSlot

def isWidthChange (i : Instr) : Bool :=
  match i with
  | .linkWidthChange .. => true
  | _ => false

def isFreqChange (i : Instr) : Bool :=
  match i with
  | .linkFreqChange .. => true
  | _ => false

/-- The due input that comes next and those after it: in the order of the list, but a width change comes before a frequency
change of the same cycle (R364). -/
def nextInput (cycle : Nat) : List (Nat × Instr) → Option (Instr × List (Nat × Instr))
  | [] => none
  | (c, i) :: r =>
    if cycle < c then none
    else
      match if isFreqChange i then r.find? (fun e => decide (e.1 ≤ cycle) && isWidthChange e.2) else none with
      | some e => some (e.2, (c, i) :: r.erase e)
      | none => some (i, r)

/-- No refusal holds back the first input (R220). -/
def State.inputFree (s : State) : Bool := s.outHold.free s.baseCycle

def State.plan (s : State) : Plan :=
  if s.closing then s.planEnd
  else
  match if s.inputFree then nextInput s.cycle s.inputs else none with
  | some (i, r) => if isInput i then .run i { s with inputs := r } else .now { s with inputs := r }
  | none =>
    match s.timed with
    | j :: _ => .run j s
    | [] => s.planFree

/-- A machine in full service whose next slot is that of context 0 of core 0, with an instruction at its program counter
in the local scratchpad window, which has been fetched: it stands for the load of a program (log 19). -/
def State.loaded (s : State) (code : List Byte) : State :=
  let e : Eff := { Eff.zero with wlim := 0xFFFFFFFF, sblk := 32, vblk := 32, gblk := 32, hblk := 32 }
  let t : Task :=
    { uid := 0, tcb := 0, entry := 0, arg := 0, rcb := 0, wsp := 0, donectr := 0, dies := 0, bound := false, prio := 0
      vblk := 32, sblk := 32, region := 0, asid := 0, eff := e, chain := [], steward := false, started := s.cycle
      pending := false, sliceOut := false }
  let s := { s with phase := .full, inputs := [], closing := false }
  let s := s.modDie 0 (fun d => { d with phase := .trained })
  let s := s.startTask 0 t
  let s := s.setBytes (keyed (scratchKey 0 0) code)
  let b := fun (n : Nat) => (⟨scratchKey 0 (32 * n), s.bytes (scratchKey 0 (32 * n)) 32⟩ : CodeBlock)
  let s := s.modCtx 0 (fun x =>
    { x with joinAt := s.cycle, pc := BitVec.ofNat 64 localBase, fetch := some (b 0) })
  s.modCore 0 (fun x => { x with rot := [], slotAt := s.cycle, rotAt := s.cycle, l0 := [b 1] })

end Sys2Proof.Machine
end

