-- ==== Sys2Proof/Machine/Step.lean ====
section
/-! DEFINITION. The step: what the plan names is run by exec; its other steps only move the state. -/

namespace Sys2Proof.Machine

def step (s : State) : Host.Outcome State Fault Refusal :=
  match s.plan with
  | .run i t => exec i t
  | .now t => .next t

/-- The state in which the next step fetches and runs the instruction whose bits are w (log 19). -/
def State.withFetchWord (s : State) (nbits w : Nat) : State := s.loaded (leBytes 32 (w % 2 ^ nbits))

end Sys2Proof.Machine
end

