-- ==== Sys2Proof/Laws/PerInstr.lean ====
section
/-! SUPPORT. Per instruction: its encoding has the format that the opcode table assigns to its opcode, an event has none. -/

namespace Sys2Proof.Laws.Format

/-- The fields an instruction is encoded in are those of the format of its opcode (R45, R51); an event has no encoding. -/
def Statement (i : Instr) : Prop :=
  match i.parts with
  | none => i.fmt = none ∧ fieldErr i = some .notAnInstruction
  | some (op, b) => op < 1024 ∧ opcodeFmt op = some b.fmt ∧ i.fmt = some b.fmt


theorem add (f : Int3) : Statement (.add f) := ⟨by decide, rfl, rfl⟩
theorem sub (f : Int3) : Statement (.sub f) := ⟨by decide, rfl, rfl⟩
theorem addi (f : AddI) : Statement (.addi f) := ⟨by decide, rfl, rfl⟩
theorem mul (f : Int3) : Statement (.mul f) := ⟨by decide, rfl, rfl⟩
theorem mulh (f : Int3) : Statement (.mulh f) := ⟨by decide, rfl, rfl⟩
theorem mad (f : Int4) : Statement (.mad f) := ⟨by decide, rfl, rfl⟩
theorem div (f : Int3) : Statement (.div f) := ⟨by decide, rfl, rfl⟩
theorem rem (f : Int3) : Statement (.rem f) := ⟨by decide, rfl, rfl⟩
theorem min (f : Int3) : Statement (.min f) := ⟨by decide, rfl, rfl⟩
theorem max (f : Int3) : Statement (.max f) := ⟨by decide, rfl, rfl⟩
theorem abs (f : Int2) : Statement (.abs f) := ⟨by decide, rfl, rfl⟩
theorem neg (f : Int2) : Statement (.neg f) := ⟨by decide, rfl, rfl⟩
theorem clz (f : Int2) : Statement (.clz f) := ⟨by decide, rfl, rfl⟩
theorem popc (f : Int2) : Statement (.popc f) := ⟨by decide, rfl, rfl⟩
theorem sad (f : Int4) : Statement (.sad f) := ⟨by decide, rfl, rfl⟩
theorem lea (f : LeaF) : Statement (.lea f) := ⟨by decide, rfl, rfl⟩
theorem aidx (f : AidxF) : Statement (.aidx f) := ⟨by decide, rfl, rfl⟩
theorem movi (f : MovI) : Statement (.movi f) := ⟨by decide, rfl, rfl⟩
theorem movhi (f : MovI) : Statement (.movhi f) := ⟨by decide, rfl, rfl⟩
theorem cmp (f : CmpF) : Statement (.cmp f) := ⟨by decide, rfl, rfl⟩
theorem and (f : Int3) : Statement (.and f) := ⟨by decide, rfl, rfl⟩
theorem or (f : Int3) : Statement (.or f) := ⟨by decide, rfl, rfl⟩
theorem xor (f : Int3) : Statement (.xor f) := ⟨by decide, rfl, rfl⟩
theorem andn (f : Int3) : Statement (.andn f) := ⟨by decide, rfl, rfl⟩
theorem not (f : Int2) : Statement (.not f) := ⟨by decide, rfl, rfl⟩
theorem shl (f : ShiftF) : Statement (.shl f) := ⟨by decide, rfl, rfl⟩
theorem shr (f : ShiftF) : Statement (.shr f) := ⟨by decide, rfl, rfl⟩
theorem sar (f : ShiftF) : Statement (.sar f) := ⟨by decide, rfl, rfl⟩
theorem rot (f : ShiftF) : Statement (.rot f) := ⟨by decide, rfl, rfl⟩
theorem bfx (f : BfxF) : Statement (.bfx f) := ⟨by decide, rfl, rfl⟩
theorem bfi (f : BfiF) : Statement (.bfi f) := ⟨by decide, rfl, rfl⟩
theorem sext (f : Int2) : Statement (.sext f) := ⟨by decide, rfl, rfl⟩
theorem zext (f : Int2) : Statement (.zext f) := ⟨by decide, rfl, rfl⟩
theorem mov (f : Int2) : Statement (.mov f) := ⟨by decide, rfl, rfl⟩
theorem sel (f : SelF) : Statement (.sel f) := ⟨by decide, rfl, rfl⟩
theorem pack (f : PackF) : Statement (.pack f) := ⟨by decide, rfl, rfl⟩
theorem unpk (f : UnpkF) : Statement (.unpk f) := ⟨by decide, rfl, rfl⟩
theorem swz (f : SwzF) : Statement (.swz f) := ⟨by decide, rfl, rfl⟩
theorem swzMask (f : SwzMF) : Statement (.swzMask f) := ⟨by decide, rfl, rfl⟩
theorem bcast (f : LaneF) : Statement (.bcast f) := ⟨by decide, rfl, rfl⟩
theorem lrot (f : LaneF) : Statement (.lrot f) := ⟨by decide, rfl, rfl⟩
theorem pand (f : Pred3) : Statement (.pand f) := ⟨by decide, rfl, rfl⟩
theorem por (f : Pred3) : Statement (.por f) := ⟨by decide, rfl, rfl⟩
theorem pxor (f : Pred3) : Statement (.pxor f) := ⟨by decide, rfl, rfl⟩
theorem pnot (f : Pred2) : Statement (.pnot f) := ⟨by decide, rfl, rfl⟩
theorem pany (f : PRedF) : Statement (.pany f) := ⟨by decide, rfl, rfl⟩
theorem pall (f : PRedF) : Statement (.pall f) := ⟨by decide, rfl, rfl⟩
theorem pcnt (f : PRedF) : Statement (.pcnt f) := ⟨by decide, rfl, rfl⟩
theorem fadd (f : Fp3) : Statement (.fadd f) := ⟨by decide, rfl, rfl⟩
theorem fsub (f : Fp3) : Statement (.fsub f) := ⟨by decide, rfl, rfl⟩
theorem fmul (f : Fp3) : Statement (.fmul f) := ⟨by decide, rfl, rfl⟩
theorem fdiv (f : Fp3) : Statement (.fdiv f) := ⟨by decide, rfl, rfl⟩
theorem fma (f : Fp4) : Statement (.fma f) := ⟨by decide, rfl, rfl⟩
theorem fms (f : Fp4) : Statement (.fms f) := ⟨by decide, rfl, rfl⟩
theorem fnma (f : Fp4) : Statement (.fnma f) := ⟨by decide, rfl, rfl⟩
theorem fmin (f : Fp3) : Statement (.fmin f) := ⟨by decide, rfl, rfl⟩
theorem fmax (f : Fp3) : Statement (.fmax f) := ⟨by decide, rfl, rfl⟩
theorem fabs (f : Fp2) : Statement (.fabs f) := ⟨by decide, rfl, rfl⟩
theorem fneg (f : Fp2) : Statement (.fneg f) := ⟨by decide, rfl, rfl⟩
theorem fsqrt (f : Fp2) : Statement (.fsqrt f) := ⟨by decide, rfl, rfl⟩
theorem frcp (f : Fp2) : Statement (.frcp f) := ⟨by decide, rfl, rfl⟩
theorem frsq (f : Fp2) : Statement (.frsq f) := ⟨by decide, rfl, rfl⟩
theorem fexp2 (f : Fp2) : Statement (.fexp2 f) := ⟨by decide, rfl, rfl⟩
theorem flog2 (f : Fp2) : Statement (.flog2 f) := ⟨by decide, rfl, rfl⟩
theorem fsin (f : Fp2) : Statement (.fsin f) := ⟨by decide, rfl, rfl⟩
theorem fcos (f : Fp2) : Statement (.fcos f) := ⟨by decide, rfl, rfl⟩
theorem ftanh (f : Fp2) : Statement (.ftanh f) := ⟨by decide, rfl, rfl⟩
theorem fclass (f : Fp2) : Statement (.fclass f) := ⟨by decide, rfl, rfl⟩
theorem fscale (f : Fp3) : Statement (.fscale f) := ⟨by decide, rfl, rfl⟩
theorem frnd (f : Fp2) : Statement (.frnd f) := ⟨by decide, rfl, rfl⟩
theorem fcmp (f : FcmpF) : Statement (.fcmp f) := ⟨by decide, rfl, rfl⟩
theorem fred (f : Fp2) : Statement (.fred f) := ⟨by decide, rfl, rfl⟩
theorem cvt (f : CvtF) : Statement (.cvt f) := ⟨by decide, rfl, rfl⟩
theorem cvts (f : CvtF) : Statement (.cvts f) := ⟨by decide, rfl, rfl⟩
theorem qblk (f : QblkF) : Statement (.qblk f) := ⟨by decide, rfl, rfl⟩
theorem dqblk (f : Fp2) : Statement (.dqblk f) := ⟨by decide, rfl, rfl⟩
theorem bhdr (f : BhdrF) : Statement (.bhdr f) := ⟨by decide, rfl, rfl⟩
theorem bset (f : BsetF) : Statement (.bset f) := ⟨by decide, rfl, rfl⟩
theorem bchk (f : BchkF) : Statement (.bchk f) := ⟨by decide, rfl, rfl⟩
theorem idot4 (f : Int4) : Statement (.idot4 f) := ⟨by decide, rfl, rfl⟩
theorem ld (f : MemF) : Statement (.ld f) := ⟨by decide, rfl, rfl⟩
theorem st (f : MemF) : Statement (.st f) := ⟨by decide, rfl, rfl⟩
theorem gath (f : ElemF) : Statement (.gath f) := ⟨by decide, rfl, rfl⟩
theorem scat (f : ElemF) : Statement (.scat f) := ⟨by decide, rfl, rfl⟩
theorem pref (f : PrefF) : Statement (.pref f) := ⟨by decide, rfl, rfl⟩
theorem agldWait (f : AgldF) : Statement (.agldWait f) := ⟨by decide, rfl, rfl⟩
theorem agldTry (f : AgldF) : Statement (.agldTry f) := ⟨by decide, rfl, rfl⟩
theorem agst (f : MemF) : Statement (.agst f) := ⟨by decide, rfl, rfl⟩
theorem ldfWf (f : MemF) : Statement (.ldfWf f) := ⟨by decide, rfl, rfl⟩
theorem ldfWfc (f : MemF) : Statement (.ldfWfc f) := ⟨by decide, rfl, rfl⟩
theorem stf (f : MemF) : Statement (.stf f) := ⟨by decide, rfl, rfl⟩
theorem femarkFull (f : FemarkF) : Statement (.femarkFull f) := ⟨by decide, rfl, rfl⟩
theorem femarkEmpty (f : FemarkF) : Statement (.femarkEmpty f) := ⟨by decide, rfl, rfl⟩
theorem spill (f : BlkF) : Statement (.spill f) := ⟨by decide, rfl, rfl⟩
theorem fill (f : BlkF) : Statement (.fill f) := ⟨by decide, rfl, rfl⟩
theorem fenceLL (f : FenceF) : Statement (.fenceLL f) := ⟨by decide, rfl, rfl⟩
theorem fenceSL (f : FenceF) : Statement (.fenceSL f) := ⟨by decide, rfl, rfl⟩
theorem fenceSS (f : FenceF) : Statement (.fenceSS f) := ⟨by decide, rfl, rfl⟩
theorem fenceFull (f : FenceF) : Statement (.fenceFull f) := ⟨by decide, rfl, rfl⟩
theorem atadd (f : AtomF) : Statement (.atadd f) := ⟨by decide, rfl, rfl⟩
theorem atmin (f : AtomF) : Statement (.atmin f) := ⟨by decide, rfl, rfl⟩
theorem atmax (f : AtomF) : Statement (.atmax f) := ⟨by decide, rfl, rfl⟩
theorem atand (f : AtomF) : Statement (.atand f) := ⟨by decide, rfl, rfl⟩
theorem ator (f : AtomF) : Statement (.ator f) := ⟨by decide, rfl, rfl⟩
theorem atxor (f : AtomF) : Statement (.atxor f) := ⟨by decide, rfl, rfl⟩
theorem atxch (f : AtomF) : Statement (.atxch f) := ⟨by decide, rfl, rfl⟩
theorem atcas (f : CasF) : Statement (.atcas f) := ⟨by decide, rfl, rfl⟩
theorem atfadd (f : AtomF) : Statement (.atfadd f) := ⟨by decide, rfl, rfl⟩
theorem atinc (f : AtomF) : Statement (.atinc f) := ⟨by decide, rfl, rfl⟩
theorem atdec (f : AtomF) : Statement (.atdec f) := ⟨by decide, rfl, rfl⟩
theorem waitc (f : WaitcF) : Statement (.waitc f) := ⟨by decide, rfl, rfl⟩
theorem waitcNt (f : WaitcNtF) : Statement (.waitcNt f) := ⟨by decide, rfl, rfl⟩
theorem cntadd (f : CntAddF) : Statement (.cntadd f) := ⟨by decide, rfl, rfl⟩
theorem cntaddErr (f : CntAddF) : Statement (.cntaddErr f) := ⟨by decide, rfl, rfl⟩
theorem cntrd (f : MemF) : Statement (.cntrd f) := ⟨by decide, rfl, rfl⟩
theorem waitf (f : WaitfF) : Statement (.waitf f) := ⟨by decide, rfl, rfl⟩
theorem iflush (f : NulF) : Statement (.iflush f) := ⟨by decide, rfl, rfl⟩
theorem br (f : BrF) : Statement (.br f) := ⟨by decide, rfl, rfl⟩
theorem brc (f : BrcF) : Statement (.brc f) := ⟨by decide, rfl, rfl⟩
theorem jmp (f : JmpF) : Statement (.jmp f) := ⟨by decide, rfl, rfl⟩
theorem call (f : BrcF) : Statement (.call f) := ⟨by decide, rfl, rfl⟩
theorem calli (f : CalliF) : Statement (.calli f) := ⟨by decide, rfl, rfl⟩
theorem ret (f : JmpF) : Statement (.ret f) := ⟨by decide, rfl, rfl⟩
theorem loop (f : BrcF) : Statement (.loop f) := ⟨by decide, rfl, rfl⟩
theorem safe (f : BrF) : Statement (.safe f) := ⟨by decide, rfl, rfl⟩
theorem rbdone (f : NulF) : Statement (.rbdone f) := ⟨by decide, rfl, rfl⟩
theorem nop64 (f : NulF) : Statement (.nop64 f) := ⟨by decide, rfl, rfl⟩
theorem yield (f : OneF 12) : Statement (.yield f) := ⟨by decide, rfl, rfl⟩
theorem done (f : NulF) : Statement (.done f) := ⟨by decide, rfl, rfl⟩
theorem hstart (f : HstartF) : Statement (.hstart f) := ⟨by decide, rfl, rfl⟩
theorem hjoin (f : OneF 10) : Statement (.hjoin f) := ⟨by decide, rfl, rfl⟩
theorem spawn (f : SpawnF) : Statement (.spawn f) := ⟨by decide, rfl, rfl⟩
theorem idrd (f : IdrdF) : Statement (.idrd f) := ⟨by decide, rfl, rfl⟩
theorem itset (f : OneF 12) : Statement (.itset f) := ⟨by decide, rfl, rfl⟩
theorem itinc (f : OneF 12) : Statement (.itinc f) := ⟨by decide, rfl, rfl⟩
theorem itrd (f : DstF) : Statement (.itrd f) := ⟨by decide, rfl, rfl⟩
theorem seed (f : OneF 12) : Statement (.seed f) := ⟨by decide, rfl, rfl⟩
theorem trap (f : TrapF) : Statement (.trap f) := ⟨by decide, rfl, rfl⟩
theorem tret (f : NulF) : Statement (.tret f) := ⟨by decide, rfl, rfl⟩
theorem tretNext (f : NulF) : Statement (.tretNext f) := ⟨by decide, rfl, rfl⟩
theorem sysrd (f : SysRdF) : Statement (.sysrd f) := ⟨by decide, rfl, rfl⟩
theorem sysrdClr (f : DstF) : Statement (.sysrdClr f) := ⟨by decide, rfl, rfl⟩
theorem syswr (f : SysWrF) : Statement (.syswr f) := ⟨by decide, rfl, rfl⟩
theorem syswrRtn (f : SysWrRtnF) : Statement (.syswrRtn f) := ⟨by decide, rfl, rfl⟩
theorem syswrHcfg (f : SrcF) : Statement (.syswrHcfg f) := ⟨by decide, rfl, rfl⟩
theorem syswrShst (f : SrcF) : Statement (.syswrShst f) := ⟨by decide, rfl, rfl⟩
theorem syswrKreq (f : SrcF) : Statement (.syswrKreq f) := ⟨by decide, rfl, rfl⟩
theorem tlbiAll (f : TlbiAllF) : Statement (.tlbiAll f) := ⟨by decide, rfl, rfl⟩
theorem tlbiAsid (f : TlbiAsidF) : Statement (.tlbiAsid f) := ⟨by decide, rfl, rfl⟩
theorem tlbiVa (f : TlbiVaF) : Statement (.tlbiVa f) := ⟨by decide, rfl, rfl⟩
theorem objdef (f : ObjdefF) : Statement (.objdef f) := ⟨by decide, rfl, rfl⟩
theorem objdefClr (f : SrcF) : Statement (.objdefClr f) := ⟨by decide, rfl, rfl⟩
theorem genb (f : NulF) : Statement (.genb f) := ⟨by decide, rfl, rfl⟩
theorem perf (f : PerfF) : Statement (.perf f) := ⟨by decide, rfl, rfl⟩
theorem perfClr (f : PerfF) : Statement (.perfClr f) := ⟨by decide, rfl, rfl⟩
theorem unpin (f : OneF 3) : Statement (.unpin f) := ⟨by decide, rfl, rfl⟩
theorem cpset (f : CpsetF) : Statement (.cpset f) := ⟨by decide, rfl, rfl⟩
theorem cpgo (f : CpgoF) : Statement (.cpgo f) := ⟨by decide, rfl, rfl⟩
theorem cpred (f : CpredF) : Statement (.cpred f) := ⟨by decide, rfl, rfl⟩
theorem cpredRanked (f : CpredRF) : Statement (.cpredRanked f) := ⟨by decide, rfl, rfl⟩
theorem cpq (f : CpqF) : Statement (.cpq f) := ⟨by decide, rfl, rfl⟩
theorem cpqCount (f : DstF) : Statement (.cpqCount f) := ⟨by decide, rfl, rfl⟩
theorem mmcfg (f : MmcfgF) : Statement (.mmcfg f) := ⟨by decide, rfl, rfl⟩
theorem mma (f : MmaF) : Statement (.mma f) := ⟨by decide, rfl, rfl⟩
theorem mmaRp (f : MmaRpF) : Statement (.mmaRp f) := ⟨by decide, rfl, rfl⟩
theorem mmw (f : MmaF) : Statement (.mmw f) := ⟨by decide, rfl, rfl⟩
theorem mmwRp (f : MmaRpF) : Statement (.mmwRp f) := ⟨by decide, rfl, rfl⟩
theorem mmrp (f : DstF) : Statement (.mmrp f) := ⟨by decide, rfl, rfl⟩
theorem prentOnce (f : PrentF) : Statement (.prentOnce f) := ⟨by decide, rfl, rfl⟩
theorem prentHold (f : PrentF) : Statement (.prentHold f) := ⟨by decide, rfl, rfl⟩
theorem prres (f : PrresF) : Statement (.prres f) := ⟨by decide, rfl, rfl⟩
theorem prrel (f : PrrelF) : Statement (.prrel f) := ⟨by decide, rfl, rfl⟩
theorem leave (f : OneF 8) : Statement (.leave f) := ⟨by decide, rfl, rfl⟩
theorem fixedWriteback (core wb : Nat) : Statement (.fixedWriteback core wb) := ⟨rfl, rfl⟩
theorem longWriteback (core wb : Nat) : Statement (.longWriteback core wb) := ⟨rfl, rfl⟩
theorem waitLimitExpiry (core ctx : Nat) : Statement (.waitLimitExpiry core ctx) := ⟨rfl, rfl⟩
theorem yieldExpiry (core ctx : Nat) : Statement (.yieldExpiry core ctx) := ⟨rfl, rfl⟩
theorem fetchBlockRead (core ctx : Nat) (block : Word) : Statement (.fetchBlockRead core ctx block) := ⟨rfl, rfl⟩
theorem tableWalk (die asid : Nat) (va : Word) : Statement (.tableWalk die asid va) := ⟨rfl, rfl⟩
theorem homeRead (fl part : Nat) : Statement (.homeRead fl part) := ⟨rfl, rfl⟩
theorem homeWrite (fl part : Nat) : Statement (.homeWrite fl part) := ⟨rfl, rfl⟩
theorem requestResend (fl part : Nat) : Statement (.requestResend fl part) := ⟨rfl, rfl⟩
theorem l1Fill (core k : Nat) : Statement (.l1Fill core k) := ⟨rfl, rfl⟩
theorem mirrorFill (die k : Nat) : Statement (.mirrorFill die k) := ⟨rfl, rfl⟩
theorem hostReadCompletion (fl part : Nat) : Statement (.hostReadCompletion fl part) := ⟨rfl, rfl⟩
theorem zeroLengthReadDone (port : Nat) : Statement (.zeroLengthReadDone port) := ⟨rfl, rfl⟩
theorem atomicPointEvent (fl part : Nat) : Statement (.atomicPointEvent fl part) := ⟨rfl, rfl⟩
theorem hostAtomicCompletion (fl part : Nat) (st : HostStatus) : Statement (.hostAtomicCompletion fl part st) := ⟨rfl, rfl⟩
theorem counterUpdate (k : Nat) : Statement (.counterUpdate k) := ⟨rfl, rfl⟩
theorem watchReread (fl : Nat) : Statement (.watchReread fl) := ⟨rfl, rfl⟩
theorem watchWithdrawal (fl : Nat) : Statement (.watchWithdrawal fl) := ⟨rfl, rfl⟩
theorem ldfAtScratchpad (fl : Nat) : Statement (.ldfAtScratchpad fl) := ⟨rfl, rfl⟩
theorem ldfResend (fl : Nat) : Statement (.ldfResend fl) := ⟨rfl, rfl⟩
theorem stfAtScratchpad (fl : Nat) : Statement (.stfAtScratchpad fl) := ⟨rfl, rfl⟩
theorem granuleWithdrawal (fl : Nat) : Statement (.granuleWithdrawal fl) := ⟨rfl, rfl⟩
theorem agldHomeRequest (fl : Nat) : Statement (.agldHomeRequest fl) := ⟨rfl, rfl⟩
theorem agstAtHome (fl : Nat) : Statement (.agstAtHome fl) := ⟨rfl, rfl⟩
theorem agedWithdrawal (fl : Nat) : Statement (.agedWithdrawal fl) := ⟨rfl, rfl⟩
theorem copyPacketIssue (core : Nat) : Statement (.copyPacketIssue core) := ⟨rfl, rfl⟩
theorem copyPacketLand (core k : Nat) : Statement (.copyPacketLand core k) := ⟨rfl, rfl⟩
theorem peerAck (core k : Nat) : Statement (.peerAck core k) := ⟨rfl, rfl⟩
theorem rankedStaging (core k : Nat) : Statement (.rankedStaging core k) := ⟨rfl, rfl⟩
theorem heavyLeaveRequest (core : Nat) (matrix : Bool) : Statement (.heavyLeaveRequest core matrix) := ⟨rfl, rfl⟩
theorem governorGrant (die : Nat) : Statement (.governorGrant die) := ⟨rfl, rfl⟩
theorem matrixRow (core : Nat) : Statement (.matrixRow core) := ⟨rfl, rfl⟩
theorem prismEntryRegister (c k : Nat) : Statement (.prismEntryRegister c k) := ⟨rfl, rfl⟩
theorem prismRoundStart (c : Nat) : Statement (.prismRoundStart c) := ⟨rfl, rfl⟩
theorem prismLatch (c : Nat) : Statement (.prismLatch c) := ⟨rfl, rfl⟩
theorem prismWithdrawal (c k : Nat) : Statement (.prismWithdrawal c k) := ⟨rfl, rfl⟩
theorem taskDispatch (die : Nat) : Statement (.taskDispatch die) := ⟨rfl, rfl⟩
theorem priorityAging (die : Nat) : Statement (.priorityAging die) := ⟨rfl, rfl⟩
theorem quantumExpiry (core : Nat) : Statement (.quantumExpiry core) := ⟨rfl, rfl⟩
theorem taskSuspend (core : Nat) : Statement (.taskSuspend core) := ⟨rfl, rfl⟩
theorem stealAttempt (die : Nat) : Statement (.stealAttempt die) := ⟨rfl, rfl⟩
theorem stealRetry (die : Nat) : Statement (.stealRetry die) := ⟨rfl, rfl⟩
theorem stealShip (victim thief : Nat) : Statement (.stealShip victim thief) := ⟨rfl, rfl⟩
theorem hostWriteIn (addr : Word) (data : List Byte) : Statement (.hostWriteIn addr data) := ⟨rfl, rfl⟩
theorem hostReadIn (addr : Word) (n : Nat) : Statement (.hostReadIn addr n) := ⟨rfl, rfl⟩
theorem hostAtomicopIn (op : AtomicOp) (addr : Word) (bytes : Nat) (val cmp : Word) : Statement (.hostAtomicopIn op addr bytes val cmp) := ⟨rfl, rfl⟩
theorem peerPacketIn (port : Nat) (addr : Word) (data : List Byte) : Statement (.peerPacketIn port addr data) := ⟨rfl, rfl⟩
theorem storageIngestWrite (addr : Word) (data : List Byte) : Statement (.storageIngestWrite addr data) := ⟨rfl, rfl⟩
theorem linkFailure (link : Nat) : Statement (.linkFailure link) := ⟨rfl, rfl⟩
theorem linkRetrain (link : Nat) : Statement (.linkRetrain link) := ⟨rfl, rfl⟩
theorem linkWidthChange (link width : Nat) : Statement (.linkWidthChange link width) := ⟨rfl, rfl⟩
theorem linkFreqChange (die freq : Nat) : Statement (.linkFreqChange die freq) := ⟨rfl, rfl⟩
theorem packageReset : Statement (.packageReset) := ⟨rfl, rfl⟩
theorem dieTrainingComplete (die : Nat) : Statement (.dieTrainingComplete die) := ⟨rfl, rfl⟩
theorem getVersion : Statement (.getVersion) := ⟨rfl, rfl⟩
theorem getCapabilities : Statement (.getCapabilities) := ⟨rfl, rfl⟩
theorem negotiateAlgorithms : Statement (.negotiateAlgorithms) := ⟨rfl, rfl⟩
theorem getDigests : Statement (.getDigests) := ⟨rfl, rfl⟩
theorem getCertificate : Statement (.getCertificate) := ⟨rfl, rfl⟩
theorem challenge : Statement (.challenge) := ⟨rfl, rfl⟩
theorem getMeasurements : Statement (.getMeasurements) := ⟨rfl, rfl⟩
theorem keyExchange : Statement (.keyExchange) := ⟨rfl, rfl⟩
theorem finish : Statement (.finish) := ⟨rfl, rfl⟩
theorem leaveWithdrawal (core ctx : Nat) : Statement (.leaveWithdrawal core ctx) := ⟨rfl, rfl⟩
theorem flitReplay (link : Nat) : Statement (.flitReplay link) := ⟨rfl, rfl⟩
theorem ticketNotice (fl part : Nat) : Statement (.ticketNotice fl part) := ⟨rfl, rfl⟩

end Sys2Proof.Laws.Format
end

