-- ==== Sys2Proof/Safety.lean ====
section
/-! DEFINITION. The terms claims use: a safe run, an instruction that is ready to act, and what an instruction that has
gone on leaves. -/

namespace Sys2Proof

/-- The machine goes on from a state. -/
def Safety.Steps (s : Machine.State) : Prop := ∃ t, Machine.step s = .next t

/-- n steps, where each answers a next state. -/
def Safety.run : Nat → Machine.State → Option Machine.State
  | 0, s => some s
  | n + 1, s =>
    match Machine.step s with
    | .next t => Safety.run n t
    | _ => none

/-- Every run from a state goes on for any number of steps. -/
def Safety.Safe (s : Machine.State) : Prop := ∀ n, ∃ t, Safety.run n s = some t

open Machine

/-- The octets a producer empties when it issues: all of its destinations' for a long-latency one, none for another
(R14, R25). -/
def Shape.empties (sh : Shape) : List (FileId × Nat) :=
  match sh.kind with
  | .none | .fixed _ => []
  | .long _ | .late => octs sh.dsts

end Sys2Proof

namespace Sys2Proof.Machine

/-- Checks 1 to 8 of R34 pass for an instruction in the current context, and no register it reads holds an uncorrectable error
(R358), so its own part acts. The turn marker names a
context of its core. -/
structure Ready (i : Instr) (s : State) : Prop where
  turn : s.curCtx < 16
  static : s.staticTrap s.cur i = none
  idle : s.busy s.cur i.hdr i.shape = false
  late : s.lateTrap s.cur i = none
  full : s.sleepOctets s.cur i.hdr i.shape = []
  sound : s.badReg s.cur i.shape = false

/-- The current context, and its core. -/
def State.me (s : State) : Ctx := s.ctx s.cur
def State.mine (s : State) : Core := s.core (s.cur / 16)

/-- The address after an instruction. -/
def State.pcAfter (s : State) (i : Instr) : Word := s.me.pc + BitVec.ofNat 64 i.hdr.len.bytes

/-- SPC once it has counted an instruction: it never passes the limit (R343). -/
def Ctx.spcAfter (x : Ctx) (lim : Nat) : BitVec 25 := if x.uncounted || decide (lim ≤ x.spc.toNat) then x.spc else x.spc + 1

/-- A context that an instruction has left, going on at an address; SPC has counted it, and the translations it held are let
go (R336, R343). -/
def Ctx.left (x : Ctx) (i : Instr) (lim : Nat) (pc : Word) : Ctx :=
  { x with
    pc := pc, ilen := BitVec.ofNat 2 i.hdr.len.code, spc := x.spcAfter lim, counted := false, stalled := none, held := false
    xl := [], walking := none, hold := .none }

/-- Its core: event 0 has counted the instruction, and the added cycles of misaligned operands are taken (R22, R187). -/
def Core.left (x : Core) (i : Instr) : Core :=
  { x with
    slotAt := x.slotAt + i.shape.added, rotAt := x.rotAt + i.shape.added
    perf := Tab.set 0 x.perf 0 (Tab.get 0 x.perf 0 + 1) }

/-- The current context after an instruction, and where it waits in one. -/
def State.pastTo (s : State) (i : Instr) (pc : Word) : Ctx := s.me.left i (s.splim (s.cur / 16)) pc
def State.past (s : State) (i : Instr) : Ctx := s.pastTo i (s.pcAfter i)
def State.asleepIn (s : State) (i : Instr) (w : Sleep) : Ctx :=
  { s.me with
    ilen := BitVec.ofNat 2 i.hdr.len.code, spc := s.me.spcAfter (s.splim (s.cur / 16))
    counted := true, run := .asleep w s.cycle }

/-- t is s after an instruction of the current context that left it as x, changed by f. Beside that, its core changed by g,
and the rest of the machine to that of u; no other context or core changed. -/
structure Went (i : Instr) (s t : State) (x : Ctx) (f : Ctx → Ctx) (g : Core → Core) (u : State) : Prop where
  ctx : t.ctx s.cur = f x
  core : t.core (s.cur / 16) = (g s.mine).left i
  ctxs : ∀ q, q ≠ s.cur → t.ctx q = s.ctx q
  cores : ∀ c, c ≠ s.cur / 16 → t.core c = s.core c
  rest : { t with ctxs := s.ctxs, cores := s.cores } = u

/-- No slice of a window that the current context sees has changed, and just the octets of a list are newly empty. -/
structure Emptied (s t : State) (l : List (FileId × Nat)) : Prop where
  data : ∀ f, (t.window s.cur f).blocks = (s.window s.cur f).blocks ∧ (t.window s.cur f).lanes = (s.window s.cur f).lanes
  empty : ∀ f o, o < 256 → t.octetEmpty s.cur (f, o) = (s.octetEmpty s.cur (f, o) || l.contains (f, o))

/-- The writeback of a producer that issues: when it is due, and whether its octets are empty until then (R12 to R14, R25). -/
def State.wbOf (s : State) (i : Instr) (id : Nat) (missing : Bool) (sl : List SlWrite) (pr : List PrWrite) (fl : Flags) : WB :=
  let (due, long) := match i.shape.kind with
    | .none => (0, false)
    | .fixed n => (s.cycle + n, false)
    | .long n => (s.cycle + n, true)
    | .late => (s.cycle + 1, true)
  ⟨id, s.cur, due, long, missing, sl, pr, fl, octs i.shape.dsts, i.shape.pwr⟩

/-- Windows of a context, or of a core, taken from another state. -/
def Ctx.windowsOf (x y : Ctx) : Ctx := { x with v := y.v, s := y.s }
def Core.windowsOf (x y : Core) : Core := { x with g := y.g, h := y.h }

/-- t is s after a producer that left its context as x, its one new writeback w under way; f, g and u say what else
changed. -/
structure Produced (i : Instr) (s t : State) (x : Ctx) (w : WB) (f : Ctx → Ctx) (g : Core → Core) (u : State) :
    Prop where
  went : Went i s t x (fun x => (f x).windowsOf (t.ctx s.cur))
    (fun k => { (g k).windowsOf (t.core (s.cur / 16)) with wbs := k.wbs ++ [w] }) u
  emptied : Emptied s t i.shape.empties

/-- An instruction that only writes results completes: it answers a next state that differs by its writeback alone. -/
def Writes (i : Instr) (s : State) (sl : List SlWrite) (pr : List PrWrite) (fl : Flags) : Prop :=
  ∃ t, exec i s = .next t ∧ Produced i s t (s.past i) (s.wbOf i s.nextId false sl pr fl) id id s.fresh

/-- As Writes, for an instruction of the floating lanes: where a lane needs the normaliser, the context forfeits its next
three slots, and event 2 counts that (R32, R187). -/
def Computes (i : Instr) (s : State) (sl : List SlWrite) (fl : Flags) (sub : Bool) : Prop :=
  ∃ t, exec i s = .next t ∧ Produced i s t (s.past i) (s.wbOf i s.nextId false sl [] fl)
    (fun x => if sub then { x with forfeits := 3 } else x)
    (fun k => if sub then { k with perf := Tab.set 0 k.perf 2 (Tab.get 0 k.perf 2 + 1) } else k) s.fresh

/-- As Computes, for one destination and a result in each executing lane; the lanes' flags merge (R77). -/
def LanesCompute (i : Instr) (s : State) (d : Opnd) (r : Nat → LaneRes) : Prop :=
  let l := s.lanes i.hdr d.isVec
  Computes i s [s.lanesWrite i.hdr d (fun n => (r n).bits)] (Flags.all (l.map (fun n => (r n).fl)))
    (l.any (fun n => (r n).sub))

/-- A memory operation of the current context as an instruction forms it: its number, task and address space, and where its
context goes on. -/
def State.flightOf (s : State) (i : Instr) (op : FlOp) (parts : List Part) : Flight :=
  let o := s.owner (s.cur / 16)
  { id := s.nextId, core := s.cur / 16, ctx := s.cur % 16, op := op, parts := parts, dst := none, wb := none, uid := o.1
    asid := o.2.1, region := o.2.2.1, fdom := o.2.2.2.2, isLoad := false, isStore := false, colour := none, acquire := false, release := none, scope := .core
    hint := .normal, home := false, gen := (s.die (coreDie (s.cur / 16))).gen, hostPend := false, parked := none
    resendAt := none, withdraw := none, pc := s.me.pc, nextPc := s.pcAfter i, lines := [], floor := s.me.floor
    chain := match (s.core (s.cur / 16)).task with | none => [] | some t => t.chain.map (fun x => x.2) }

/-- A core with another state's L0 TLB, and with lines gone from its L1 and from the fills on their way (R210, R335). -/
def Core.tlbOf (x y : Core) : Core := { x with tlb := y.tlb }
def Core.dropLines (x : Core) (lines : List Nat) : Core :=
  { x with
    l1 := x.l1.filter (fun l => l.line ∉ lines)
    fills := x.fills.map (fun f => if f.line ∈ lines then { f with cancelled := true } else f) }

/-- A core after an acquire (R210), and a die but for its TLB and its Mirror copies. -/
def Core.acquired (x : Core) : Core :=
  { x with
    l1 := x.l1.filter (fun l => !l.flagged)
    fills := x.fills.map (fun f => if f.flagged then { f with cancelled := true } else f) }
def Die.cachesOf (x y : Die) : Die := { x with tlb := y.tlb, mirror := y.mirror, mfills := y.mfills }

/-- t is s after an instruction that sent the operation g, whose writeback is to be filled when g completes, and left its
context as x. Beside that, its core changed by h, and TLBs may have taken translations in. -/
structure SentLoad (i : Instr) (s t : State) (x : Ctx) (g : Flight) (h : Core → Core) : Prop where
  produced : Produced i s t x (s.wbOf i (s.nextId + 1) true [] [] .none) id
    (fun k => (h k).tlbOf (t.core (s.cur / 16)))
    { s with
      flights := s.flights ++ [{ g with wb := some (s.nextId + 1) }], nextId := s.nextId + 2, dies := t.dies }
  dies : ∀ d, t.die d = { s.die d with tlb := (t.die d).tlb }

/-- As SentLoad, for an operation with no writeback. -/
structure SentStore (i : Instr) (s t : State) (x : Ctx) (g : Flight) (h : Core → Core) : Prop where
  went : Went i s t x id (fun k => (h k).tlbOf (t.core (s.cur / 16)))
    { s with flights := s.flights ++ [g], nextId := s.nextId + 1, dies := t.dies }
  dies : ∀ d, t.die d = { s.die d with tlb := (t.die d).tlb }

/-- An instruction that traps: nothing has changed before the trap but the length bits that XCAUSE shows (R34, R380). That SPC does
not count one that traps at its issue is log 24's reading. -/
def TrapsAs (i : Instr) (s : State) (t : TrapInfo) : Prop :=
  exec i s = .next ((s.setCtx s.cur (s.me.setLen i)).raise s.cur t)

/-- An instruction that holds: its context forfeits the slot, which event 1 counts, and tries it again (R11, R187). -/
def Forfeits (i : Instr) (s : State) : Prop :=
  exec i s = .next ((s.setCtx s.cur (s.me.setLen i)).count (s.cur / 16) 1 1)

/-- An instruction that meets a translation still to be walked for: its context forfeits the slot, and waits for the walk
(R11, R335; log 123's reading). -/
def Misses (i : Instr) (s : State) (t : TrapInfo) : Prop :=
  exec i s = .next (((s.setCtx s.cur (s.me.setLen i)).walkMiss s.cur t).count (s.cur / 16) 1 1)

/-- The release of the context's own operations, and those that its start acquired, have taken effect (R236, R239). -/
def State.settled (s : State) (mask : BitVec 8) (scope : Scope) : Prop :=
  (∀ g ∈ s.earlier s.cur s.nextId, (g.isLoad = true → g.allDone = true) ∧ g.owed mask scope = false) ∧
    ∀ x ∈ s.me.floor, ∀ g ∈ s.ofTask (s.owner (s.cur / 16)).1 x.1 x.2, (g.isLoad = true → g.allDone = true) ∧ g.owed 0xFF .core = false

/-- A slice has an entry of its tracker for a request: one that it holds, or a free one that no ticket waits for (R220). -/
def State.room (s : State) (k : Nat) (q : Requester) : Prop :=
  (∃ r ∈ (s.slice k).tracker, r.who = q) ∨ (s.slice k).tracker.length + (s.slice k).tickets.length < 64

/-- An operation but for what it has counted of its lines (R219). -/
def Flight.plain (f : Flight) : Flight := { f with lines := [] }

/-- t has the memory of s and its operations in flight: every byte of the device and its scratchpads, and where no stored check
value fails, so that no line which leaves a slice posts an event (R360, R362), all of it. -/
def State.Untouched (s t : State) : Prop :=
  (∀ k, isHost k = false → t.byte k = s.byte k) ∧
    ((∀ n, s.badSector n ≠ some 2) → t.mem = s.mem ∧ t.flights = s.flights)

/-- t differs from s in what the slices and the TLBs keep, in the refusals of contexts' requests, and in the events that lines
which leave a slice post. -/
structure Cached (s t : State) : Prop where
  ctx : ∀ q, t.ctx q = { s.ctx q with hold := (t.ctx q).hold }
  core : ∀ c, t.core c = { s.core c with tlb := (t.core c).tlb }
  data : s.Untouched t

/-- An instruction that traps at its issue, from the state that its reads of memory have left. -/
def TrapsFrom (i : Instr) (s v : State) (t : TrapInfo) : Prop :=
  exec i s = .next ((v.setCtx s.cur (v.me.setLen i)).raise s.cur t)

/-- The slices of some pieces take the requests that an instruction makes at its issue (R220). -/
def State.Asks (s : State) (l : List Piece) : Prop := (s.askSlices s.cur (s.who s.cur).asid l).1 = true

/-- An instruction whose requests at its issue a slice refuses, or that a refusal holds back: its context forfeits the slot, and
makes them again (R11, R220). -/
def Refused (i : Instr) (s : State) (l : List Piece) : Prop :=
  exec i s = .next (((s.setCtx s.cur (s.me.setLen i)).askSlices s.cur (s.who s.cur).asid l).2.count (s.cur / 16) 1 1)

/-- What the reads of headers by check 9f leave (R141, R207). -/
def State.headed (s : State) (l : List ElemAcc) : State :=
  (s.askSlices s.cur (s.who s.cur).asid (headPieces l)).2.touchHeaders l

/-- An instruction that goes on with no effect of its own. -/
def Passes (i : Instr) (s : State) : Prop := ∃ t, exec i s = .next t ∧ Went i s t (s.past i) id id s

/-! Exact values and their rounding. -/

/-- A finite value, and the rational number that it is. -/
def Val.isFin : Val → Bool
  | .fin _ _ _ => true
  | _ => false
def Val.rat : Val → ℚ
  | .fin n m e => (if n then -1 else 1) * m * (2 : ℚ) ^ e
  | _ => 0

def Mag.low (x : Mag) : ℚ := x.m * (2 : ℚ) ^ x.e
def Mag.high (x : Mag) : ℚ := (x.m + 1) * (2 : ℚ) ^ x.e

/-- A magnitude whose value some power of is a positive number: it is exact, or below it by less than one unit of more bits
than a format keeps. -/
structure Mag.Root (x : Mag) (f : FpFmt) (n : Nat) (v : ℚ) : Prop where
  below : x.low ^ n ≤ v
  above : v < x.high ^ n
  more : x.more = true ↔ x.low ^ n ≠ v
  wide : x.more = true → 2 ^ (f.m + 2) ≤ x.m

/-- A result is an exact number other than 0, rounded into a format; and the same of an exact square root. -/
def Rounds (f : FpFmt) (r : Rnd) (ftz : Bool) (v : ℚ) (res : FpRes) : Prop :=
  ∃ x : Mag, x.Root f 1 |v| ∧ res = roundFp f (.det r) ftz (decide (v < 0)) x
def RoundsRoot (f : FpFmt) (r : Rnd) (ftz : Bool) (v : ℚ) (res : FpRes) : Prop :=
  ∃ x : Mag, x.Root f 2 v ∧ res = roundFp f (.det r) ftz false x

end Sys2Proof.Machine
end

