-- ==== Sys2Proof/Certificates/Slice0/Obligations.lean ====
section
/-! DEFINITION. The statements for the provers. Each says what the rules of spec/ that its docstring names say. -/

open Sys2Proof Sys2Proof.Machine

/-- ADD, SUB, MUL, MULH, MIN and MAX (R20, R94, R95): each executing lane is to receive the exact result of the two sources,
fitted to the destination; nothing else changes. -/
def Obligations.IntegerTwoSourceResults : Prop :=
  ∀ (f : Int3) (s : State),
    let a := s.intOp s.cur f.ty f.a
    let b := s.intOp s.cur f.ty f.b
    let w := fun (v : Nat → Int) => [s.lanesWrite f.h f.d (fun l => fitInt f.ty f.sat f.d.bits (v l))]
    (Ready (.add f) s → Writes (.add f) s (w (fun l => a l + b l)) [] .none) ∧
    (Ready (.sub f) s → Writes (.sub f) s (w (fun l => a l - b l)) [] .none) ∧
    (Ready (.mul f) s → Writes (.mul f) s (w (fun l => a l * b l)) [] .none) ∧
    (Ready (.mulh f) s → Writes (.mulh f) s (w (fun l => a l * b l / (2 ^ f.ty.bits : Nat))) [] .none) ∧
    (Ready (.min f) s → Writes (.min f) s (w (fun l => min (a l) (b l))) [] .none) ∧
    (Ready (.max f) s → Writes (.max f) s (w (fun l => max (a l) (b l))) [] .none)

/-- DIV and REM (R65, R96): the quotient truncated toward zero and its remainder; a lane whose divisor is 0 receives all ones
or the dividend, unsaturated, and DZ is among the flags to merge. -/
def Obligations.DivisionResults : Prop :=
  ∀ (f : Int3) (s : State),
    let a := s.intOp s.cur f.ty f.a
    let b := s.intOp s.cur f.ty f.b
    let w := fun (q z : Nat → Int) => [s.lanesWrite f.h f.d (fun l =>
      if b l = 0 then fitInt f.ty false f.d.bits (z l) else fitInt f.ty f.sat f.d.bits (q l))]
    let fl : Flags := { Flags.none with dz := (s.lanes f.h f.d.isVec).any (fun l => b l = 0) }
    (Ready (.div f) s →
      Writes (.div f) s (w (fun l => (a l).tdiv (b l)) (fun _ => (2 ^ f.ty.bits - 1 : Nat))) [] fl) ∧
    (Ready (.rem f) s → Writes (.rem f) s (w (fun l => (a l).tmod (b l)) a) [] fl)

/-- ABS, NEG, CLZ, POPC (R95), NOT (R102), SEXT, ZEXT and MOV (R105). -/
def Obligations.IntegerOneSourceResults : Prop :=
  ∀ (f : Int2) (s : State),
    let a := s.intOp s.cur f.ty f.a
    let p := s.bitsOp s.cur f.ty f.a
    let x := s.readOp s.cur f.a
    let w := fun (v : Nat → Int) => [s.lanesWrite f.h f.d (fun l => fitInt f.ty f.sat f.d.bits (v l))]
    let ext := fun (sg : Bool) l => toInt f.ty.isSigned f.ty.bits (ofInt f.ty.bits (toInt sg f.a.bits (x l)))
    (Ready (.abs f) s → Writes (.abs f) s (w (fun l => |a l|)) [] .none) ∧
    (Ready (.neg f) s → Writes (.neg f) s (w (fun l => -(a l))) [] .none) ∧
    (Ready (.clz f) s → Writes (.clz f) s (w (fun l =>
      (((List.range f.ty.bits).map (fun n => bitAt (p l) n)).reverse.takeWhile (fun b => !b)).length)) [] .none) ∧
    (Ready (.popc f) s → Writes (.popc f) s (w (fun l =>
      (((List.range f.ty.bits).map (fun n => bitAt (p l) n)).filter (fun b => b)).length)) [] .none) ∧
    (Ready (.sext f) s → Writes (.sext f) s (w (ext true)) [] .none) ∧
    (Ready (.zext f) s → Writes (.zext f) s (w (ext false)) [] .none) ∧
    (Ready (.not f) s → Writes (.not f) s
      [s.lanesWrite f.h f.d (fun l => fitBits f.ty f.d.bits (2 ^ f.ty.bits - 1 - p l % 2 ^ f.ty.bits))] [] .none) ∧
    (Ready (.mov f) s → Writes (.mov f) s [s.lanesWrite f.h f.d (fun l =>
      if f.ty.isInt then fitInt f.ty false f.d.bits (a l) else x l)] [] .none)

/-- ADDI, MOVI, MOVHI, MAD, SAD (R94, R95), LEA (R98), AIDX (R99; the lanes of destinations of two kinds are log 120's) and IDOT4
(R131). -/
def Obligations.ImmediateAndThreeSourceResults : Prop :=
  ∀ s : State,
    (∀ f : AddI, Ready (.addi f) s → Writes (.addi f) s [s.lanesWrite f.h f.d (fun l =>
      fitInt f.ty f.sat f.d.bits (s.intOp s.cur f.ty f.a l + intVal f.ty 32 f.imm.toNat))] [] .none) ∧
    (∀ f : MovI, Ready (.movi f) s → Writes (.movi f) s
      [s.lanesWrite f.h f.d (fun _ => fitInt f.ty false f.d.bits (intVal f.ty 32 f.imm.toNat))] [] .none) ∧
    (∀ f : MovI, Ready (.movhi f) s → Writes (.movhi f) s [s.lanesWrite f.h f.d (fun l =>
      fitInt f.ty false f.d.bits (f.imm.toNat * 2 ^ 32 + s.bitsOp s.cur f.ty f.d l % 2 ^ 32 : Nat))] [] .none) ∧
    (∀ f : Int4, Ready (.mad f) s → Writes (.mad f) s [s.lanesWrite f.h f.d (fun l => fitInt f.ty f.sat f.d.bits
      (s.intOp s.cur f.ty f.a l * s.intOp s.cur f.ty f.b l + s.intOp s.cur f.ty f.c l))] [] .none) ∧
    (∀ f : Int4, Ready (.sad f) s → Writes (.sad f) s [s.lanesWrite f.h f.d (fun l => fitInt f.ty f.sat f.d.bits
      (|s.intOp s.cur f.ty f.a l - s.intOp s.cur f.ty f.b l| + s.intOp s.cur f.ty f.c l))] [] .none) ∧
    (∀ f : LeaF, Ready (.lea f) s → Writes (.lea f) s [s.lanesWrite f.h f.d (fun l => fitInt f.ty false f.d.bits
      (s.bitsOp s.cur f.ty f.base l + (match f.index with
        | none => 0
        | some x => toInt f.ty.isSigned x.bits (s.readOp s.cur x l)) * (2 ^ f.sh.toNat : Nat) + f.disp.toInt))]
      [] .none) ∧
    (∀ f : AidxF, Ready (.aidx f) s → Writes (.aidx f) s
      [s.lanesWrite f.h f.dblk (fun l => fitBits f.ty f.dblk.bits (s.bitsOp s.cur f.ty f.j l / f.fmt.count)),
        s.lanesWrite f.h f.doff (fun l => fitBits f.ty f.doff.bits (s.bitsOp s.cur f.ty f.j l % f.fmt.count))] [] .none) ∧
    (∀ f : Int4, Ready (.idot4 f) s → Writes (.idot4 f) s [s.lanesWrite f.h f.d (fun l =>
      let e := fun (o : Opnd) n =>
        toInt f.ty.isSigned f.ty.bits (bitsAt (s.readOp s.cur o l) (n * f.ty.bits) f.ty.bits)
      let sum := toInt true 32 (s.readOp s.cur f.c l) + e f.a 0 * e f.b 0 + e f.a 1 * e f.b 1 + e f.a 2 * e f.b 2
        + e f.a 3 * e f.b 3
      ofInt 32 (if f.sat then max (-(2 ^ 31 : Nat)) (min sum ((2 ^ 31 : Nat) - 1)) else sum))] [] .none)

/-- AND, OR, XOR, ANDN, NOT (R102), the shifts and ROT (R103), BFX and BFI (R104). -/
def Obligations.BitwiseShiftAndFieldResults : Prop :=
  ∀ s : State,
    (∀ f : Int3,
      let a := s.bitsOp s.cur f.ty f.a
      let b := s.bitsOp s.cur f.ty f.b
      let w := fun (v : Nat → Nat) => [s.lanesWrite f.h f.d (fun l => fitBits f.ty f.d.bits (v l))]
      (Ready (.and f) s → Writes (.and f) s (w (fun l => a l &&& b l)) [] .none) ∧
      (Ready (.or f) s → Writes (.or f) s (w (fun l => a l ||| b l)) [] .none) ∧
      (Ready (.xor f) s → Writes (.xor f) s (w (fun l => a l ^^^ b l)) [] .none) ∧
      (Ready (.andn f) s → Writes (.andn f) s
        (w (fun l => a l &&& (2 ^ f.ty.bits - 1 - b l % 2 ^ f.ty.bits))) [] .none)) ∧
    (∀ f : Int2, Ready (.not f) s → Writes (.not f) s [s.lanesWrite f.h f.d (fun l => fitBits f.ty f.d.bits
      (2 ^ f.ty.bits - 1 - s.bitsOp s.cur f.ty f.a l % 2 ^ f.ty.bits))] [] .none) ∧
    (∀ f : ShiftF,
      let W := f.ty.bits
      let a := s.bitsOp s.cur f.ty f.a
      let n := fun l => match f.n with
        | .reg o => s.readOp s.cur o l
        | .imm v => v.toNat
      let w := fun (v : Nat → Nat) => [s.lanesWrite f.h f.d (fun l => fitBits f.ty f.d.bits (v l))]
      (Ready (.shl f) s → Writes (.shl f) s (w (fun l => a l * 2 ^ min (n l) W % 2 ^ W)) [] .none) ∧
      (Ready (.shr f) s → Writes (.shr f) s (w (fun l => a l / 2 ^ min (n l) W)) [] .none) ∧
      (Ready (.sar f) s → Writes (.sar f) s
        (w (fun l => ofInt W (toInt true W (a l) / (2 ^ min (n l) W : Nat)))) [] .none) ∧
      (Ready (.rot f) s → Writes (.rot f) s
        (w (fun l => a l * 2 ^ (n l % W) % 2 ^ W + a l / 2 ^ (W - n l % W))) [] .none)) ∧
    (∀ f : BfxF, Ready (.bfx f) s → Writes (.bfx f) s [s.lanesWrite f.h f.d (fun l => fitBits f.ty f.d.bits
      (ofInt f.ty.bits (toInt f.ty.isSigned f.len.toNat
        (bitsAt (s.bitsOp s.cur f.ty f.a l) f.pos.toNat f.len.toNat))))] [] .none) ∧
    (∀ f : BfiF, Ready (.bfi f) s → Writes (.bfi f) s [s.lanesWrite f.h f.d (fun l => fitBits f.ty f.d.bits
      (setBitsAt (s.bitsOp s.cur f.ty f.a l) f.pos.toNat f.len.toNat (s.bitsOp s.cur f.ty f.b l)))] [] .none)

/-- SEL (R106), PACK and UNPK (R107; the lanes of destinations of two kinds are log 120's), SWZ, BCAST and LROT (R108; a selector
is unsigned at its own width, log 119). -/
def Obligations.SelectionAndLaneResults : Prop :=
  ∀ s : State,
    let mv := fun (t : Ty) (d a : Opnd) (l : Nat) =>
      if t.isInt then fitInt t false d.bits (s.intOp s.cur t a l) else s.readOp s.cur a l
    let cnt := fun (k : OpImm 6) => match k with
      | .reg o => s.readOp s.cur o 0
      | .imm v => v.toNat
    (∀ f : SelF, Ready (.sel f) s → Writes (.sel f) s [s.lanesWrite f.h f.d (fun l =>
      mv f.ty f.d (if laneBit (s.me.pred f.ps.toNat) l then f.a else f.b) l)] [] .none) ∧
    (∀ f : PackF, Ready (.pack f) s → Writes (.pack f) s [s.lanesWrite f.h f.d (fun l =>
      (s.readOp s.cur f.b l + s.readOp s.cur f.a l * 2 ^ f.b.bits) % 2 ^ f.d.bits)] [] .none) ∧
    (∀ f : UnpkF, Ready (.unpk f) s → Writes (.unpk f) s
      [s.lanesWrite f.h f.d2 (fun l => bitsAt (s.readOp s.cur f.a l) 0 f.d2.bits),
        s.lanesWrite f.h f.d1 (fun l => bitsAt (s.readOp s.cur f.a l) f.d2.bits f.d1.bits)] [] .none) ∧
    (∀ f : SwzF, Ready (.swz f) s → Writes (.swz f) s
      [s.lanesWrite f.h f.d (fun l => mv f.ty f.d f.a (s.readOp s.cur f.x l % 64))] [] .none) ∧
    (∀ f : SwzMF, Ready (.swzMask f) s → Writes (.swzMask f) s
      [s.lanesWrite f.h f.d (fun l => mv f.ty f.d f.a ((l &&& f.m.toNat) ^^^ f.k.toNat))] [] .none) ∧
    (∀ f : LaneF, Ready (.bcast f) s → Writes (.bcast f) s
      [s.lanesWrite f.h f.d (fun _ => mv f.ty f.d f.a (cnt f.k % 64))] [] .none) ∧
    (∀ f : LaneF, Ready (.lrot f) s → Writes (.lrot f) s
      [s.lanesWrite f.h f.d (fun l => mv f.ty f.d f.a ((l + 64 - cnt f.k % 64) % 64))] [] .none)

/-- CMP (R100), FCMP (R120; that it may set NV is log 117's reading), predicate logic (R109), PANY, PALL and PCNT (R110, with x
truncated to the type's width by R20), BCHK (R130). -/
def Obligations.PredicateResults : Prop :=
  ∀ s : State,
    let cmp := fun (h : Hdr) (pd : Nat) (vec : Bool) (test : Nat → Bool) =>
      if vec then [(⟨pd, lanesWord (s.lanes h true), lanesWord ((s.lanes h true).filter test)⟩ : PrWrite)]
      else if s.me.guardAt h 0 = true ∧ ¬(pd = 15 ∧ test 0 = true) then
        [⟨pd, allOnes, if test 0 then allOnes else 0⟩]
      else []
    let all := fun (h : Hdr) (pd : BitVec 4) (v : Word) =>
      if s.me.guardAt h 0 = true then [(⟨pd.toNat, allOnes, v⟩ : PrWrite)] else []
    let pr := fun (n : BitVec 4) => s.me.pred n.toNat
    let seen := fun (f : PRedF) => lanes64.filter (fun l => laneBit s.me.lmask l && laneBit (pr f.pa) l)
    let hits := fun (f : PRedF) => (seen f).filter (fun l => match f.x with
      | none => true
      | some x => s.bitsOp s.cur f.ty x l ≠ 0)
    let red := fun (f : PRedF) (v : Nat) => [s.lanesWrite f.h f.d (fun _ => fitInt f.ty false f.d.bits v)]
    (∀ f : CmpF, Ready (.cmp f) s → Writes (.cmp f) s [] (cmp f.h f.pd.toNat (f.a.isVec || f.b.isVec)
      (fun l => f.cc.holds (s.intOp s.cur f.ty f.a l) (s.intOp s.cur f.ty f.b l))) .none) ∧
    (∀ f : FcmpF,
      let test := fun l =>
        f.cc.test (decodeFp f.ty.fp (s.readOp s.cur f.a l)) (decodeFp f.ty.fp (s.readOp s.cur f.b l))
      Ready (.fcmp f) s → Writes (.fcmp f) s []
        (cmp f.h f.pd.toNat (f.a.isVec || f.b.isVec) (fun l => (test l).1))
        { Flags.none with nv := (s.lanes f.h (f.a.isVec || f.b.isVec)).any (fun l => (test l).2) }) ∧
    (∀ f : Pred3, Ready (.pand f) s → Writes (.pand f) s [] (all f.h f.pd (pr f.pa &&& pr f.pb)) .none) ∧
    (∀ f : Pred3, Ready (.por f) s → Writes (.por f) s [] (all f.h f.pd (pr f.pa ||| pr f.pb)) .none) ∧
    (∀ f : Pred3, Ready (.pxor f) s → Writes (.pxor f) s [] (all f.h f.pd (pr f.pa ^^^ pr f.pb)) .none) ∧
    (∀ f : Pred2, Ready (.pnot f) s → Writes (.pnot f) s [] (all f.h f.pd (~~~(pr f.pa))) .none) ∧
    (∀ f : PRedF, Ready (.pany f) s → Writes (.pany f) s (red f (if hits f = [] then 0 else 1)) [] .none) ∧
    (∀ f : PRedF, Ready (.pall f) s → Writes (.pall f) s (red f (if hits f = seen f then 1 else 0)) [] .none) ∧
    (∀ f : PRedF, Ready (.pcnt f) s → Writes (.pcnt f) s (red f (hits f).length) [] .none) ∧
    (∀ f : BchkF, Ready (.bchk f) s →
      let gs := (List.range 4).filter (fun j => s.me.active f.h (16 * j))
      let ok := fun j => (blkFmt (s.image f.a j)).isSome
      Writes (.bchk f) s []
        [⟨f.pd.toNat, groupBits gs, groupBits (gs.filter (fun j =>
            ok j && blkByte (s.image f.a j) 3 = blkCheck (s.image f.a j)))⟩,
          ⟨f.pf.toNat, groupBits gs, groupBits (gs.filter (fun j => !ok j))⟩] .none)

/-- Floating arithmetic (R112, R113, R118, R119, R121): the rounded result of the sources as read, the union of the lanes'
flags, and the normaliser where a lane needs it (R32, R33; once an instruction, and FRED's use of it, are log 43's reading). On
finite sources the operations are exact numbers rounded once; RoundingIsNearest says what the rounding is. -/
def Obligations.FloatArithmeticResults : Prop :=
  ∀ s : State,
    let z := s.me.ftz
    let x := fun (t : Ty) (o : Opnd) l => readFp t.fp z (s.readOp s.cur o l)
    let raw := fun (o : Opnd) l => s.readOp s.cur o l
    (∀ f : Fp3,
      let two := fun (r : Nat → FpRes) l => laneRes f.ty.fp z [raw f.a l, raw f.b l] (r l)
      (Ready (.fadd f) s → LanesCompute (.fadd f) s f.d
        (two (fun l => fpAdd f.ty.fp f.rnd z (x f.ty f.a l) (x f.ty f.b l)))) ∧
      (Ready (.fsub f) s → LanesCompute (.fsub f) s f.d
        (two (fun l => fpAdd f.ty.fp f.rnd z (x f.ty f.a l) (x f.ty f.b l).negate))) ∧
      (Ready (.fmul f) s → LanesCompute (.fmul f) s f.d
        (two (fun l => fpMul f.ty.fp f.rnd z (x f.ty f.a l) (x f.ty f.b l)))) ∧
      (Ready (.fdiv f) s → LanesCompute (.fdiv f) s f.d
        (two (fun l => fpDiv f.ty.fp f.rnd z (x f.ty f.a l) (x f.ty f.b l)))) ∧
      (Ready (.fscale f) s → LanesCompute (.fscale f) s f.d (fun l => laneRes f.ty.fp z [raw f.a l]
        (fpScale f.ty.fp f.rnd z (x f.ty f.a l) (toInt true f.b.bits (raw f.b l)))))) ∧
    (∀ f : Fp4,
      let three := fun (r : Nat → FpRes) l => laneRes f.ty.fp z [raw f.a l, raw f.b l, raw f.c l] (r l)
      let fma := fun (neg : Bool) (c : Nat → Val) l =>
        fpFma f.ty.fp f.rnd z neg (x f.ty f.a l) (x f.ty f.b l) (c l)
      (Ready (.fma f) s → LanesCompute (.fma f) s f.d (three (fma false (x f.ty f.c)))) ∧
      (Ready (.fms f) s → LanesCompute (.fms f) s f.d (three (fma false (fun l => (x f.ty f.c l).negate)))) ∧
      (Ready (.fnma f) s → LanesCompute (.fnma f) s f.d (three (fma true (x f.ty f.c))))) ∧
    (∀ f : Fp2,
      let onep := fun (r : Nat → FpRes) l => laneRes f.ty.fp z [raw f.a l] (r l)
      (Ready (.fsqrt f) s → LanesCompute (.fsqrt f) s f.d (onep (fun l => fpSqrt f.ty.fp f.rnd z (x f.ty f.a l)))) ∧
      (Ready (.frcp f) s → LanesCompute (.frcp f) s f.d
        (onep (fun l => fpDiv f.ty.fp f.rnd z (.fin false 1 0) (x f.ty f.a l)))) ∧
      (Ready (.frsq f) s → LanesCompute (.frsq f) s f.d (onep (fun l => fpRsq f.ty.fp f.rnd z (x f.ty f.a l)))) ∧
      (Ready (.frnd f) s → LanesCompute (.frnd f) s f.d (onep (fun l => fpRnd f.ty.fp f.rnd (x f.ty f.a l)))) ∧
      (Ready (.fred f) s → LanesCompute (.fred f) s f.d (fun _ =>
        fredTree f.ty.fp z 6 ⟨0, .none, false⟩
          (lanes64.map (fun l => if laneBit s.me.lmask l then raw f.a l else f.ty.fp.withSign true 0))))) ∧
    (∀ (t : Ty) (r : Rnd) (u v w : Nat),
      let m := t.fp
      let a := readFp m z u
      let b := readFp m z v
      let c := readFp m z w
      a.isFin = true → b.isFin = true → c.isFin = true →
        (a.rat + b.rat ≠ 0 → Rounds m r z (a.rat + b.rat) (fpAdd m r z a b)) ∧
        (a.rat * b.rat ≠ 0 → Rounds m r z (a.rat * b.rat) (fpMul m r z a b)) ∧
        (a.rat ≠ 0 → b.rat ≠ 0 → Rounds m r z (a.rat / b.rat) (fpDiv m r z a b)) ∧
        (b.rat ≠ 0 → Rounds m r z (1 / b.rat) (fpDiv m r z (.fin false 1 0) b)) ∧
        (∀ neg : Bool,
          let p := (if neg then -1 else 1) * a.rat * b.rat
          p + c.rat ≠ 0 → Rounds m r z (p + c.rat) (fpFma m r z neg a b c)) ∧
        (0 < a.rat → RoundsRoot m r z a.rat (fpSqrt m r z a) ∧ RoundsRoot m r z (1 / a.rat) (fpRsq m r z a)) ∧
        (∀ n : Int, |n| ≤ 2 ^ 20 → a.rat ≠ 0 → Rounds m r z (a.rat * (2 : ℚ) ^ n) (fpScale m r z a n)))

/-- The transcendental instructions (R114), FMIN and FMAX (R115), FABS and FNEG (R116), FCLASS (R117). That the model's functions
round correctly is log 85's claim, and that FMIN and FMAX may set NV is log 117's; here the functions have the exact and special
cases of R114's table, for each source by its value, in whatever way it is written as a magnitude and an exponent. -/
def Obligations.TranscendentalAndEncodingResults : Prop :=
  ∀ s : State,
    let z := s.me.ftz
    (∀ f : Fp2,
      let m := f.ty.fp
      let raw := fun l => s.readOp s.cur f.a l
      let fn := fun (g : FpFmt → Bool → Val → FpRes) l => laneRes m z [raw l] (g m z (readFp m z (raw l)))
      (Ready (.fexp2 f) s → LanesCompute (.fexp2 f) s f.d (fn fpExp2)) ∧
      (Ready (.flog2 f) s → LanesCompute (.flog2 f) s f.d (fn fpLog2)) ∧
      (Ready (.fsin f) s → LanesCompute (.fsin f) s f.d (fn fpSin)) ∧
      (Ready (.fcos f) s → LanesCompute (.fcos f) s f.d (fn fpCos)) ∧
      (Ready (.ftanh f) s → LanesCompute (.ftanh f) s f.d (fn fpTanh)) ∧
      (Ready (.fabs f) s → Writes (.fabs f) s [s.lanesWrite f.h f.d (fun l => raw l % 2 ^ m.signAt)] [] .none) ∧
      (Ready (.fneg f) s → Writes (.fneg f) s [s.lanesWrite f.h f.d (fun l => raw l ^^^ 2 ^ m.signAt)] [] .none) ∧
      (Ready (.fclass f) s → Writes (.fclass f) s
        [s.lanesWrite f.h f.d (fun l => fpClass m (raw l) % 2 ^ f.d.bits)] [] .none)) ∧
    (∀ f : Fp3,
      let mm := fun (least : Bool) l =>
        let r := fpMinMax f.ty.fp least (s.readOp s.cur f.a l) (s.readOp s.cur f.b l)
        (⟨r.bits, r.fl, false⟩ : LaneRes)
      (Ready (.fmin f) s → LanesCompute (.fmin f) s f.d (mm true)) ∧
      (Ready (.fmax f) s → LanesCompute (.fmax f) s f.d (mm false))) ∧
    (∀ t : Ty,
      let m := t.fp
      let ok := fun (b : Nat) => (⟨b, .none⟩ : FpRes)
      let zero := fun (n : Bool) (e : Int) => Val.fin n 0 e
      let unit := fun (n : Bool) => m.withSign n (m.bias.toNat * 2 ^ m.m)
      m.kind = .ieee → m.m ≠ 2 →
        (∀ g : FpFmt → Bool → Val → FpRes, g = fpExp2 ∨ g = fpLog2 ∨ g = fpSin ∨ g = fpCos ∨ g = fpTanh →
          ∀ sig, g m z (.nan sig) = ⟨m.nan, if sig then flagNV else .none⟩) ∧
        (∀ n e, fpExp2 m z (zero n e) = ok (unit false) ∧ fpLog2 m z (zero n e) = ⟨m.infBits true, flagDZ⟩ ∧
          fpSin m z (zero n e) = ok (m.withSign n 0) ∧ fpCos m z (zero n e) = ok (unit false) ∧
          fpTanh m z (zero n e) = ok (m.withSign n 0)) ∧
        (∀ n, fpExp2 m z (.inf n) = ok (if n then 0 else m.infBits false) ∧
          fpLog2 m z (.inf n) = (if n then ⟨m.nan, flagNV⟩ else ok (m.infBits false)) ∧
          fpSin m z (.inf n) = ⟨m.nan, flagNV⟩ ∧ fpCos m z (.inf n) = ⟨m.nan, flagNV⟩ ∧
          fpTanh m z (.inf n) = ok (unit n)) ∧
        (∀ k e, k ≠ 0 → fpLog2 m z (.fin true k e) = ⟨m.nan, flagNV⟩) ∧
        (∀ (v : Val) (a : Int), v.isFin = true → v.rat = (a : ℚ) → Rounds m .rne z ((2 : ℚ) ^ a) (fpExp2 m z v)) ∧
        (∀ v : Val, v.isFin = true → v.rat = 1 → fpLog2 m z v = ok 0) ∧
        (∀ (v : Val) (k : Int), v.isFin = true → v.rat = (2 : ℚ) ^ k → k ≠ 0 → Rounds m .rne z (k : ℚ) (fpLog2 m z v)) ∧
        (∀ (n : Bool) (k : Nat) (e : Int), k ≠ 0 →
          (if m.m = 23 then 19 / 2 else 19 / 4) ≤ |(Val.fin n k e).rat| → fpTanh m z (.fin n k e) = ⟨unit n, flagNX⟩))

/-- CVT and CVTS (R122 to R124) with the generator's step (R79), QBLK (R127), DQBLK (R129), BHDR and BSET (R130), and their
BLOCK_FORMAT traps (R126). BHDR's byte 2 is 0 in a format other than E2M1 (log 134). DQBLK's use of the normaliser, once an instruction, is log 43's reading, and that E2M1 may set UF is
log 87's. -/
def Obligations.ConversionAndBlockResults : Prop :=
  ∀ s : State,
    let gs := fun (h : Hdr) => (List.range 4).filter (fun j => s.me.active h (16 * j))
    (∀ (f : CvtF) (i : Instr), i = .cvt f ∨ i = .cvts f → Ready i s →
      let k := (cvtCount f).getD 1
      let l := s.lanes f.h f.d.isVec
      let r := fun n => cvtLane f s.me.ftz k (s.readOp s.cur f.a n) k 0 ⟨0, .none, false⟩ (Tab.get 0 s.me.srs n)
      let sub := l.any (fun n => (r n).1.sub)
      ∃ t, exec i s = .next t ∧ Produced i s t (s.past i)
        (s.wbOf i s.nextId false [s.lanesWrite f.h f.d (fun n => (r n).1.bits)] []
          (Flags.all (l.map (fun n => (r n).1.fl))))
        (fun x => { x with
          forfeits := if sub then 3 else x.forfeits
          srs := if f.rnd = .rs then Tab.setMany 0 x.srs (l.map (fun n => (n, (r n).2))) else x.srs })
        (fun c => if sub then { c with perf := Tab.set 0 c.perf 2 (Tab.get 0 c.perf 2 + 1) } else c) s.fresh) ∧
    (∀ f : QblkF, Ready (.qblk f) s →
      Computes (.qblk f) s [blkWrite f.d ((gs f.h).flatMap (fun j => imageLanes j (s.qGroup f j).bits))]
        (Flags.all ((gs f.h).map (fun j => (s.qGroup f j).fl))) ((gs f.h).any (fun j => (s.qGroup f j).sub))) ∧
    (∀ (f : Fp2) (m : Nat → BFmt), Ready (.dqblk f) s →
      (∀ j ∈ gs f.h, blkFmt (s.image f.a j) = some (m j) ∧ f.d.width = (m j).perLane * f.ty.slices) →
      let rs := (gs f.h).flatMap (fun j => dqLanes f s.me.ftz j (s.image f.a j) (m j))
      Computes (.dqblk f) s [blkWrite f.d (rs.map (fun r => (r.1, r.2.bits)))]
        (Flags.all (rs.map (fun r => r.2.fl))) (rs.any (fun r => r.2.sub))) ∧
    (∀ f : BhdrF, Ready (.bhdr f) s →
      Writes (.bhdr f) s [blkWrite f.d ((gs f.h).map (fun j =>
        (16 * j, sealed (setBlkByte (setBlkByte (setBlkByte (s.image f.d j) 0 f.fmt.code) 1 (s.param f.sc 8 j)) 2
          (if f.fmt = .e2m1 then s.param f.sp 8 j % 128 else 0)) % 2 ^ 32)))] [] .none) ∧
    (∀ (f : BsetF) (m : Nat → BFmt), Ready (.bset f) s → (∀ j ∈ gs f.h, blkFmt (s.image f.d j) = some (m j)) →
      Writes (.bset f) s [blkWrite f.d ((gs f.h).flatMap (fun j =>
        let n := s.param f.i 8 j
        imageLanes j (sealed (if n < (m j).count then
          putElem (m j) (s.image f.d j) n (s.param f.c (m j).bits j) else s.image f.d j))))] [] .none) ∧
    (∀ (f : Fp2) (j : Nat), Ready (.dqblk f) s → j ∈ gs f.h → blkFmt (s.image f.a j) = none →
      (∀ i ∈ gs f.h, i < j → (blkFmt (s.image f.a i)).isSome) →
      (∀ i ∈ gs f.h, ∀ m, blkFmt (s.image f.a i) = some m → f.d.width = m.perLane * f.ty.slices) →
      TrapsAs (.dqblk f) s (tBlockFormat 0 (blkByte (s.image f.a j) 0))) ∧
    (∀ (f : BsetF) (j : Nat), Ready (.bset f) s → j ∈ gs f.h → blkFmt (s.image f.d j) = none →
      (∀ i ∈ gs f.h, i < j → (blkFmt (s.image f.d i)).isSome) →
      TrapsAs (.bset f) s (tBlockFormat 0 (blkByte (s.image f.d j) 0)))

/-- R70: the multiple of the grid that each mode picks for an exact magnitude, in rational arithmetic; and R71 and R72: what
rounding into a format makes of it, UF just where the result is inexact and tiny, rounded as if exponents had no bound. That
65520 is no overflow to FP16 under .RTZ, its rounded value being in range, is log 86's reading, and E2M1's UF is log 87's. -/
def Obligations.RoundingIsNearest : Prop :=
  (∀ (neg : Bool) (m : Nat) (e q : Int),
    let v : ℚ := m * (2 : ℚ) ^ e
    let u : ℚ := (2 : ℚ) ^ q
    let r := fun (mode : Rnd) => roundAt (.det mode) neg ⟨m, e, false⟩ q
    let k := fun (mode : Rnd) => (((r mode).1 : Nat) : ℚ)
    ((k .rtz) * u ≤ v ∧ v < (k .rtz + 1) * u) ∧
    (|(k .rne) * u - v| ≤ u / 2 ∧ (|(k .rne) * u - v| = u / 2 → (r .rne).1 % 2 = 0)) ∧
    (|(k .rna) * u - v| ≤ u / 2 ∧ (|(k .rna) * u - v| = u / 2 → v < (k .rna) * u)) ∧
    (if neg then (r .rup).1 = (r .rtz).1 else (v ≤ (k .rup) * u ∧ (k .rup - 1) * u < v)) ∧
    (if neg then (v ≤ (k .rdn) * u ∧ (k .rdn - 1) * u < v) else (r .rdn).1 = (r .rtz).1) ∧
    ∀ mode, ((r mode).2 = true ↔ (k .rtz) * u ≠ v)) ∧
  ∀ (t : Ty) (mode : Rnd) (z neg : Bool) (x : Mag),
    let f := t.fp
    let high : Int := bitLen x.m - 1 + x.e
    let q := max high f.emin - f.m
    let k := roundAt (.det mode) neg x q
    let v : ℚ := k.1 * (2 : ℚ) ^ q
    let free : ℚ := (roundAt (.det mode) neg x (high - f.m)).1 * (2 : ℚ) ^ (high - f.m)
    let res := roundFp f (.det mode) z neg x
    x.m ≠ 0 → (x.more = true → 2 ^ (f.m + 2) ≤ x.m) → (z = false ∨ f.emin ≤ high) →
      if f.topVal.1 * (2 : ℚ) ^ f.topVal.2 < v then res = ⟨overflowTo f (.det mode) neg, flagOF⟩
      else
        (∃ n m e, decodeFp f res.bits = .fin n m e ∧ m * (2 : ℚ) ^ e = v ∧ (m ≠ 0 → n = neg)) ∧
        res.fl.nx = k.2 ∧ res.fl.uf = (k.2 && decide (free < (2 : ℚ) ^ f.emin)) ∧ res.fl.of = false ∧ res.fl.dz = false ∧ res.fl.nv = false

/-- LD (R139), CNTRD (R162), GATH (R141) and LDF (R147): one read a lane, at the place its address translates to.
Check 9f of GATH waits for the context's own stores to the block (log 44). -/
def Obligations.LoadsAreSent : Prop :=
  ∀ s : State,
    let load := fun (i : Instr) (f : MemF) (op : FlOp) (parts : List Part) =>
      { s.flightOf i op parts with
        dst := some f.data, isLoad := true, acquire := f.q.order = .sync, scope := f.q.scope, hint := f.q.hint
        home := f.q.order = .home }
    let fails := fun (i : Instr) (e : TrapInfo) => (e.isMiss = false → TrapsAs i s e) ∧ (e.isMiss = true → Misses i s e)
    let odd := fun (i : Instr) (l : List (Nat × Word)) (n : Nat) => ∀ a e b, l = a ++ e :: b →
      (∀ x ∈ a, x.2.toNat % n = 0) → e.2.toNat % n ≠ 0 → TrapsAs i s (tAlign e.2 n)
    (∀ f : MemF, Ready (.ld f) s →
      (s.memEas f = [] → Writes (.ld f) s [] [] .none) ∧ odd (.ld f) (s.memEas f) (memSize f) ∧
      (∀ e, s.memEas f ≠ [] → (∀ e ∈ s.memEas f, e.2.toNat % memSize f = 0) →
        s.placeLanes .ld (memSize f) (s.memEas f) = .error e → fails (.ld f) e) ∧
      ∀ a, s.memEas f ≠ [] → (∀ e ∈ s.memEas f, e.2.toNat % memSize f = 0) →
        s.placeLanes .ld (memSize f) (s.memEas f) = .ok a →
        ∃ t, exec (.ld f) s = .next t ∧ t.mem = s.mem ∧
          SentLoad (.ld f) s t (s.past (.ld f)) (load (.ld f) f .load (a.map (fun e =>
            { e.part (memSize f) with b := s.loadBits e.pl (qualL1 f.q) (f.q.order = .home) (qualAlloc f.q) }))) id) ∧
    (∀ f : MemF, Ready (.cntrd f) s →
      (s.memEas f = [] → Writes (.cntrd f) s [] [] .none) ∧ odd (.cntrd f) (s.memEas f) 8 ∧
      (∀ e, s.memEas f ≠ [] → (∀ e ∈ s.memEas f, e.2.toNat % 8 = 0) →
        s.placeLanes .counter 8 (s.memEas f) = .error e → fails (.cntrd f) e) ∧
      ∀ a, s.memEas f ≠ [] → (∀ e ∈ s.memEas f, e.2.toNat % 8 = 0) →
        s.placeLanes .counter 8 (s.memEas f) = .ok a →
        ∃ t, exec (.cntrd f) s = .next t ∧ t.mem = s.mem ∧
          SentLoad (.cntrd f) s t (s.past (.cntrd f))
            (load (.cntrd f) f .cntrd (a.map (fun e => e.part 8))) id) ∧
    (∀ f : ElemF, Ready (.gath f) s →
      (s.lanes f.h f.data.isVec = [] → Writes (.gath f) s [] [] .none) ∧
      (∀ e, s.lanes f.h f.data.isVec ≠ [] → s.elemAccs f .gath = .error e → fails (.gath f) e) ∧
      ∀ a, s.lanes f.h f.data.isVec ≠ [] → s.elemAccs f .gath = .ok a →
        (s.ownBlock a = true → Forfeits (.gath f) s) ∧
        (s.ownBlock a = false → ¬s.Asks (headPieces a) → Refused (.gath f) s (headPieces a)) ∧
        (s.ownBlock a = false → s.Asks (headPieces a) → Cached s (s.headed a) ∧
          (∀ e, (s.headed a).badFormat a = some e → TrapsFrom (.gath f) s (s.headed a) e) ∧
          ((s.headed a).badFormat a = none → ∃ t, exec (.gath f) s = .next t ∧ t.mem = (s.headed a).mem ∧
            SentLoad (.gath f) (s.headed a) t (s.past (.gath f))
              { s.flightOf (.gath f) (.gath f.ty f.rnd s.me.ftz) (a.map (fun e =>
                  { e.acc.part 64 with a := e.fmt.code, c := e.elem })) with
                dst := some f.data, isLoad := true, acquire := f.q.order = .sync, scope := f.q.scope, hint := f.q.hint
                home := f.q.order = .home } id))) ∧
    ∀ (f : MemF) (i : Instr) (clr : Bool), (i = .ldfWf f ∧ clr = false) ∨ (i = .ldfWfc f ∧ clr = true) → Ready i s →
      (s.memEas f = [] → Writes i s [] [] .none) ∧
      ∀ a, s.memEas f ≠ [] → s.pendingFor s.cur = false →
        (∀ e ∈ s.memEas f, e.2.toNat % 16 + memSize f ≤ 16) →
        s.placeLanes .granuleRd (memSize f) (s.memEas f) = .ok a →
        ∃ t, exec i s = .next t ∧ t.mem = s.mem ∧
          SentLoad i s t (s.asleepIn i (.flight s.nextId))
            (load i f (.ldf clr) (a.map (fun e => e.part (memSize f)))) id

/-- ST (R140), SCAT (R141), AGST (R145), STF (R148), FEMARK (R149) and CNTADD (R161) at issue. An instruction takes one entry
of the store queue (log 46), and finds it full before its addresses are checked (log 20). A SCAT whose check of a block waits
for a store of the context itself holds (log 44). -/
def Obligations.StoresAreQueued : Prop :=
  ∀ s : State,
    let store := fun (i : Instr) (q : Qual) (op : FlOp) (parts : List Part) =>
      { s.flightOf i op parts with
        isStore := true, colour := some q.colour.toNat, scope := q.scope, hint := q.hint, home := q.order = .home
        release := if q.order = .sync then some (1#8 <<< q.colour.toNat) else none }
    let fails := fun (i : Instr) (e : TrapInfo) => (e.isMiss = false → TrapsAs i s e) ∧ (e.isMiss = true → Misses i s e)
    let odd := fun (i : Instr) (l : List (Nat × Word)) (n : Nat) => ∀ a e b, l = a ++ e :: b →
      (∀ x ∈ a, x.2.toNat % n = 0) → e.2.toNat % n ≠ 0 → TrapsAs i s (tAlign e.2 n)
    let stripped := fun (lines : List Nat) (g : Flight) =>
      match g.op with
      | .agld .. =>
        if coreDie g.core = coreDie (s.cur / 16) ∧ g.parts.any (fun q => decide (q.key / 256 ∈ lines)) then
          { g with parts := g.parts.map (fun q => { q with a := 1 }) }
        else g
      | _ => g
    let datum := fun (d : Opnd) (n : Nat) (e : LaneAcc) =>
      { e.part n with bytes := keyed e.pl.key (leBytes n (s.readOp s.cur d e.lane)) }
    (∀ f : MemF, Ready (.st f) s →
      (s.memEas f = [] → Passes (.st f) s) ∧
      (s.memEas f ≠ [] → s.queueFull s.cur = true → Forfeits (.st f) s) ∧
      (s.queueFull s.cur = false → odd (.st f) (s.memEas f) (memSize f)) ∧
      (∀ e, s.memEas f ≠ [] → s.queueFull s.cur = false → (∀ e ∈ s.memEas f, e.2.toNat % memSize f = 0) →
        s.placeLanes .st (memSize f) (s.memEas f) = .error e → fails (.st f) e) ∧
      ∀ a, s.memEas f ≠ [] → s.queueFull s.cur = false → (∀ e ∈ s.memEas f, e.2.toNat % memSize f = 0) →
        s.placeLanes .st (memSize f) (s.memEas f) = .ok a →
        ∃ t, exec (.st f) s = .next t ∧ t.mem = s.mem ∧ SentStore (.st f) s t (s.past (.st f))
          (store (.st f) f.q .store (a.map (datum f.data (memSize f)))) (fun k => k.dropLines (linesOf a (memSize f)))) ∧
    (∀ f : ElemF, Ready (.scat f) s →
      (s.lanes f.h f.data.isVec = [] → Passes (.scat f) s) ∧
      (s.lanes f.h f.data.isVec ≠ [] → s.queueFull s.cur = true → Forfeits (.scat f) s) ∧
      (∀ e, s.lanes f.h f.data.isVec ≠ [] → s.queueFull s.cur = false → s.elemAccs f .scat = .error e →
        fails (.scat f) e) ∧
      ∀ a, s.lanes f.h f.data.isVec ≠ [] → s.queueFull s.cur = false → s.elemAccs f .scat = .ok a →
        (s.ownBlock a = true → Forfeits (.scat f) s) ∧
        (s.ownBlock a = false → ¬s.Asks (headPieces a) → Refused (.scat f) s (headPieces a)) ∧
        (s.ownBlock a = false → s.Asks (headPieces a) → Cached s (s.headed a) ∧
          (∀ e, (s.headed a).badFormat a = some e → TrapsFrom (.scat f) s (s.headed a) e) ∧
          ((s.headed a).badFormat a = none → ∃ t, exec (.scat f) s = .next t ∧ t.mem = (s.headed a).mem ∧
            SentStore (.scat f) (s.headed a) t (s.past (.scat f))
              (store (.scat f) f.q (.scat f.ty f.rnd s.me.ftz) (a.map (fun e =>
                { e.acc.part 64 with
                  a := e.fmt.code, b := s.readOp s.cur f.data e.acc.lane, c := e.elem })))
              (fun k => k.dropLines (linesOf (a.map (fun e => e.acc)) 64))))) ∧
    (∀ f : MemF, Ready (.agst f) s →
      (s.me.active f.h 0 = false → Passes (.agst f) s) ∧
      (s.me.active f.h 0 = true → s.queueFull s.cur = true → Forfeits (.agst f) s) ∧
      ∀ e, s.me.active f.h 0 = true → s.queueFull s.cur = false →
        (s.ea f.base f.index (memSize f) f.disp.toInt 0).toNat % 64 = 0 →
        s.placeLanes .agst 64 [(0, s.ea f.base f.index (memSize f) f.disp.toInt 0)] = .ok [e] →
        ∃ t, exec (.agst f) s = .next t ∧ t.mem = s.mem ∧
          Went (.agst f) s t (s.past (.agst f)) id
            (fun k => (k.dropLines (linesOf [e] 64)).tlbOf (t.core (s.cur / 16)))
            { s with
              flights := s.flights.map (stripped (linesOf [e] 64)) ++ [store (.agst f) f.q (.agst s.me.itr)
                [{ e.part 64 with bytes := keyed e.pl.key (s.block64 f.data) }]]
              nextId := s.nextId + 1, dies := t.dies } ∧
          (∀ d, t.die d = (s.die d).cachesOf (t.die d)) ∧
          ∀ l ∈ linesOf [e] 64, ∀ m ∈ (t.die (coreDie (s.cur / 16))).mirror, m.line ≠ l) ∧
    (∀ f : MemF, Ready (.stf f) s →
      (s.memEas f = [] → Passes (.stf f) s) ∧
      (s.memEas f ≠ [] → s.queueFull s.cur = true → Forfeits (.stf f) s) ∧
      ∀ a, s.memEas f ≠ [] → s.queueFull s.cur = false → (∀ e ∈ s.memEas f, e.2.toNat % 16 + memSize f ≤ 16) →
        s.placeLanes .granuleWr (memSize f) (s.memEas f) = .ok a →
        ∃ t, exec (.stf f) s = .next t ∧ t.mem = s.mem ∧ SentStore (.stf f) s t (s.past (.stf f))
          (store (.stf f) f.q .stf (a.map (datum f.data (memSize f)))) id) ∧
    (∀ (f : FemarkF) (i : Instr) (full : Bool),
      (i = .femarkFull f ∧ full = true) ∨ (i = .femarkEmpty f ∧ full = false) → Ready i s →
      (s.me.guardAt f.h 0 = false → Passes i s) ∧
      (s.me.guardAt f.h 0 = true → s.queueFull s.cur = true → Forfeits i s) ∧
      (s.me.guardAt f.h 0 = true → s.queueFull s.cur = false → (s.t64 f.base).toNat % 16 = 0 → s.opImm s.cur f.n ≠ 0 →
        2 ^ 17 < s.opImm s.cur f.n ∨ s.overEdge (s.t64 f.base) (16 * s.opImm s.cur f.n) = true →
        TrapsAs i s (tStraddle (s.t64 f.base))) ∧
      ∀ a, s.me.guardAt f.h 0 = true → s.queueFull s.cur = false → (s.t64 f.base).toNat % 16 = 0 →
        s.opImm s.cur f.n ≠ 0 → s.opImm s.cur f.n ≤ 2 ^ 17 → s.overEdge (s.t64 f.base) (16 * s.opImm s.cur f.n) = false →
        s.placeLanes .granuleWr (16 * s.opImm s.cur f.n) [(0, s.t64 f.base)] = .ok a →
        ∃ t, exec i s = .next t ∧ t.mem = s.mem ∧ SentStore i s t (s.past i)
          { s.flightOf i (.femark full) (a.map (fun e => e.part (16 * s.opImm s.cur f.n))) with
            isStore := true, colour := some 0 } id) ∧
    ∀ (f : CntAddF) (i : Instr) (err : Bool),
      (i = .cntadd f ∧ err = false) ∨ (i = .cntaddErr f ∧ err = true) → Ready i s →
      (s.me.guardAt f.h 0 = false → Passes i s) ∧
      (s.me.guardAt f.h 0 = true → s.queueFull s.cur = true → Forfeits i s) ∧
      ∀ e, s.me.guardAt f.h 0 = true → s.queueFull s.cur = false → (s.t64 f.base).toNat % 8 = 0 →
        s.placeLanes .atomic 8 [(0, s.t64 f.base)] = .ok [e] → isHost e.pl.key = false →
        ∃ t, exec i s = .next t ∧ t.mem = s.mem ∧
          Went i s t (s.past i) id (fun k => (k.dropLines (linesOf [e] 8)).tlbOf (t.core (s.cur / 16)))
            { s with
              flights := s.flights ++ [{ s.flightOf i (.cntadd err) [{ e.part 8 with
                  a := if err then s.u64 s.cur f.n % 128 else s.u64 s.cur f.n % 2 ^ 56 }] with
                isStore := true, release := some f.mask, scope := f.scope }]
              nextId := s.nextId + 1, dies := t.dies } ∧
          ∀ d, t.die d = (s.die d).cachesOf (t.die d)

/-- The atomics at issue (R155 to R158); one with no destination waits for room in the store queue (R138), one entry an
instruction (log 46), which it finds full before its addresses are checked (log 20). -/
def Obligations.AtomicsAreSent : Prop :=
  ∀ (s : State) (i : Instr) (op : AtOp) (ty : Ty) (d : Option Opnd) (base b : Opnd) (nv : Option Opnd) (order : AOrder)
    (scope : Scope) (mask : BitVec 8),
    ((∃ f : AtomF, ty = f.ty ∧ d = f.d ∧ base = f.base ∧ b = f.b ∧ nv = none ∧ order = f.order ∧ scope = f.scope ∧
        mask = f.mask ∧
        ((i = .atadd f ∧ op = .add) ∨ (i = .atmin f ∧ op = .min) ∨ (i = .atmax f ∧ op = .max) ∨
          (i = .atand f ∧ op = .and) ∨ (i = .ator f ∧ op = .or) ∨ (i = .atxor f ∧ op = .xor) ∨
          (i = .atxch f ∧ op = .xch) ∨ (i = .atfadd f ∧ op = .fadd) ∨ (i = .atinc f ∧ op = .inc) ∨
          (i = .atdec f ∧ op = .dec))) ∨
      ∃ f : CasF, i = .atcas f ∧ op = .cas ∧ ty = f.ty ∧ d = f.d ∧ base = f.base ∧ b = f.c ∧ nv = some f.nv ∧
        order = f.order ∧ scope = f.scope ∧ mask = f.mask) →
    Ready i s →
    let vec := (d.map Opnd.isVec).getD false || base.isVec || b.isVec || (nv.map Opnd.isVec).getD false
    let l := (s.lanes i.hdr vec).map (fun k => (k, BitVec.ofNat 64 (s.readOp s.cur base k)))
    let n := ty.bits / 8
    let val := fun (o : Opnd) k => if ty = .f32 then s.readOp s.cur o k else s.bitsOp s.cur ty o k
    (l = [] → d.isSome = true → Writes i s [] [] .none) ∧
    (l = [] → d = none → Passes i s) ∧
    (l ≠ [] → d = none → s.queueFull s.cur = true → Forfeits i s) ∧
    ∀ a, l ≠ [] → (d = none → s.queueFull s.cur = false) → (∀ e ∈ l, e.2.toNat % n = 0) →
      s.placeLanes .atomic n l = .ok a → (op = .add ∨ op = .xch ∨ op = .cas ∨ ∀ e ∈ a, isHost e.pl.key = false) →
      let g := { s.flightOf i (.atom op ty) (a.map (fun e =>
          { e.part n with a := val b e.lane, b := (nv.map (fun o => val o e.lane)).getD 0 })) with
        dst := d, isLoad := true, isStore := true, acquire := order = .acquire || order = .acqRel
        release := if order = .release ∨ order = .acqRel then some mask else none, scope := scope }
      ∃ t, exec i s = .next t ∧ t.mem = s.mem ∧ (∀ c, t.die c = (s.die c).cachesOf (t.die c)) ∧
        (d.isSome = true → Produced i s t (s.past i) (s.wbOf i (s.nextId + 1) true [] [] .none) id
          (fun k => (k.dropLines (linesOf a n)).tlbOf (t.core (s.cur / 16)))
          { s with
            flights := s.flights ++ [{ g with wb := some (s.nextId + 1) }], nextId := s.nextId + 2, dies := t.dies }) ∧
        (d = none → Went i s t (s.past i) id (fun k => (k.dropLines (linesOf a n)).tlbOf (t.core (s.cur / 16)))
          { s with flights := s.flights ++ [g], nextId := s.nextId + 1, dies := t.dies })

/-- WAITC (R160), WAITF (R163) and AGLD (R143, R144) at issue. -/
def Obligations.WaitsSleep : Prop :=
  ∀ s : State,
    let wait := fun (i : Instr) (op : FlOp) (n : Nat) (sc : Scope) (e : LaneAcc) =>
      { s.flightOf i op [e.part n] with isLoad := true, acquire := true, scope := sc }
    (∀ f : WaitcF, Ready (.waitc f) s →
      (s.me.guardAt f.h 0 = false → Passes (.waitc f) s) ∧
      ∀ e, s.me.guardAt f.h 0 = true → s.pendingFor s.cur = false → (s.t64 f.base).toNat % 8 = 0 →
        s.placeLanes .counter 8 [(0, s.t64 f.base)] = .ok [e] →
        ∃ t, exec (.waitc f) s = .next t ∧ SentStore (.waitc f) s t (s.asleepIn (.waitc f) (.flight s.nextId))
          (wait (.waitc f) (.waitc (s.u64 s.cur f.target) none) 8 f.scope e) id) ∧
    (∀ f : WaitcNtF, Ready (.waitcNt f) s →
      (s.me.guardAt f.h 0 = false → Writes (.waitcNt f) s [] [] .none) ∧
      ∀ e, s.me.guardAt f.h 0 = true → s.pendingFor s.cur = false → (s.t64 f.base).toNat % 8 = 0 →
        s.placeLanes .counter 8 [(0, s.t64 f.base)] = .ok [e] →
        ∃ t, exec (.waitcNt f) s = .next t ∧ SentLoad (.waitcNt f) s t (s.asleepIn (.waitcNt f) (.flight s.nextId))
          (wait (.waitcNt f) (.waitc (s.u64 s.cur f.target) (some f.pn.toNat)) 8 f.scope e) id) ∧
    (∀ f : WaitfF, Ready (.waitf f) s →
      let n := f.ty.bits / 8
      let m := match f.m with
        | none => 2 ^ f.ty.bits - 1
        | some o => s.bitsOp s.cur f.ty o 0
      (s.me.guardAt f.h 0 = false → Passes (.waitf f) s) ∧
      ∀ e, s.me.guardAt f.h 0 = true → s.pendingFor s.cur = false → (s.t64 f.base).toNat % n = 0 →
        s.placeLanes .counter n [(0, s.t64 f.base)] = .ok [e] →
        ∃ t, exec (.waitf f) s = .next t ∧ SentStore (.waitf f) s t (s.asleepIn (.waitf f) (.flight s.nextId))
          (wait (.waitf f) (.waitf f.ty f.cc (s.bitsOp s.cur f.ty f.v 0) m) n f.scope e) id) ∧
    ∀ (f : AgldF) (i : Instr) (blocks : Bool), (i = .agldWait f ∧ blocks = true) ∨ (i = .agldTry f ∧ blocks = false) →
      Ready i s →
      let va := s.ea f.base none 0 f.disp.toInt 0
      (s.me.active f.h 0 = false → Writes i s [] [] .none) ∧
      ∀ e, s.me.active f.h 0 = true → s.pendingFor s.cur = false → va.toNat % 64 = 0 →
        s.placeLanes .agld 64 [(0, va)] = .ok [e] →
        ∃ t n, exec i s = .next t ∧
          SentLoad i s t (if blocks then s.asleepIn i (.flight s.nextId) else s.past i)
            { s.flightOf i (.agld blocks s.me.itr f.lag.toNat f.pf.toNat f.pa.toNat f.da
                (lanesWord (s.me.activeLanes f.h))) [{ e.part 64 with b := n }] with
              dst := some f.dv, isLoad := true } id

/-- SPILL and FILL (R150 to R152) and PREF (R142); PREF reads its line when it issues (log 103), tests
its guard once (log 116), and asks the slices of its lines for room (log 39). -/
def Obligations.SpillFillAndPrefetch : Prop :=
  ∀ s : State,
    (∀ f : BlkF, Ready (.spill f) s →
      let i := Instr.spill f
      let q := s.me.spx.toNat
      (s.me.guardAt f.h 0 = false → Passes i s) ∧
      (s.me.guardAt f.h 0 = true → (s.t64 f.base).toNat % 32 = 0 → f.count.toNat ≤ q →
        ∃ t, exec i s = .next t ∧ Went i s t (s.past i) (fun x => { x with spx := 0 }) id s) ∧
      ∀ a, s.me.guardAt f.h 0 = true → (s.t64 f.base).toNat % 32 = 0 → q < f.count.toNat →
        (∀ o ∈ blkOctets f q, s.octetEmpty s.cur o = false) → s.ueIn s.cur (blkOctets f q) = false → s.queueFull s.cur = false → blkPlace f s .st q = .ok a →
        let g := { s.flightOf i .store (a.map (fun e => { e.part 32 with
            bytes := keyed e.pl.key (leBytes 32 ((s.window s.cur f.file).read e.lane (64 * (f.first.toNat + q)) 64)) })) with
          isStore := true, colour := some f.colour.toNat, lines := blkShared f s q a }
        ∃ t, exec i s = .next t ∧ t.mem = s.mem ∧ t.flights = s.flights ++ [g] ∧
          (q + 1 = f.count.toNat → t.ctx s.cur = { s.past i with spx := 0 }) ∧
          (q + 1 < f.count.toNat → t.ctx s.cur = { s.entered i with spx := BitVec.ofNat 6 (q + 1) }) ∧
          (∀ p, p ≠ s.cur → t.ctx p = s.ctx p) ∧ (∀ e, t.window s.cur e = s.window s.cur e)) ∧
    (∀ f : BlkF, Ready (.fill f) s →
      let i := Instr.fill f
      let n := f.count.toNat - s.me.spx.toNat
      (s.me.guardAt f.h 0 = false → Passes i s) ∧
      (s.me.guardAt f.h 0 = true → (s.t64 f.base).toNat % 32 = 0 → (fillPlaces f s n s.me.spx.toNat).2 = none →
        ∃ t, exec i s = .next t ∧ t.mem = s.mem ∧
          t.ctx s.cur = { s.past i with spx := 0, v := (t.ctx s.cur).v, s := (t.ctx s.cur).s } ∧
          (t.flights.drop s.flights.length).map (fun g => g.op) =
            (List.range n).map (fun j => FlOp.fill f.file (f.first.toNat + (s.me.spx.toNat + j))) ∧
          (∀ p, p ≠ s.cur → t.ctx p = s.ctx p) ∧
          ∀ e, (t.window s.cur e).lanes = (s.window s.cur e).lanes) ∧
      ∀ k e, s.me.guardAt f.h 0 = true → (s.t64 f.base).toNat % 32 = 0 →
        (fillPlaces f s n s.me.spx.toNat).2 = some (k, e) →
        (e.isMiss = true → Misses i s e) ∧
        (e.isMiss = false → ∃ u : State, exec i s = .next (u.raise s.cur e) ∧ u.mem = s.mem ∧
          (u.ctx s.cur).spx = BitVec.ofNat 6 k ∧ (u.ctx s.cur).pc = s.me.pc)) ∧
    ∀ f : PrefF, Ready (.pref f) s →
      let i := Instr.pref f
      let l := if s.me.guardAt f.h 0 then
          s.laneEas { f.h with guard := none } (vecTerms f.base f.index) f.base f.index 64 f.disp.toInt
        else []
      (∀ e, s.prefMiss l = some e → Misses i s e) ∧
      (s.prefMiss l = none → ¬s.Asks (s.prefPieces l) → Refused i s (s.prefPieces l)) ∧
      (s.prefMiss l = none → s.Asks (s.prefPieces l) → (∀ e ∈ l, ∀ pl, s.prefPlace e.2 = .ok pl →
          s.badBytes (keysOf (256 * (pl.key / 256)) 256) = none) → ∃ t, exec i s = .next t ∧ s.Untouched t ∧ t.ctx s.cur = s.past i ∧
        (∀ p, p ≠ s.cur → t.ctx p = s.ctx p) ∧ (∀ e, t.window s.cur e = s.window s.cur e) ∧
        (t.core (s.cur / 16)).l1 = s.mine.l1 ∧
        ∀ va pl, l = [(0, va)] → s.place (s.who s.cur) .ld va 64 = .ok pl →
          (∃ q, s.place (s.who s.cur) .ld (va + 63) 1 = .ok q) → isGlobal pl.key = true →
          s.isAged pl.key = false →
          (f.byp = false → s.mine.holdsL1 (pl.key / 256) = false → s.storeHeld (s.cur / 16) (pl.key / 256) = false →
            ∃ x ∈ (t.core (s.cur / 16)).fills,
              x.line = pl.key / 256 ∧ x.data = s.line (pl.key / 256) ∧ x.cancelled = false) ∧
          (f.byp = true ∨ s.mine.holdsL1 (pl.key / 256) = true → (t.core (s.cur / 16)).fills = s.mine.fills))

/-- FENCE (R153, R154) and IFLUSH (R63, R164). -/
def Obligations.FencesAndFlush : Prop :=
  ∀ s : State,
    (∀ (f : FenceF) (i : Instr) (loads stores : Bool),
      (i = .fenceLL f ∧ loads = true ∧ stores = false) ∨ (i = .fenceSL f ∧ loads = false ∧ stores = true) ∨
        (i = .fenceSS f ∧ loads = false ∧ stores = true) ∨ (i = .fenceFull f ∧ loads = true ∧ stores = true) →
      Ready i s →
      let ok := (loads = true → ∀ g ∈ s.earlier s.cur s.nextId, g.isLoad = true → g.allDone = true) ∧
        (stores = true → ∀ g ∈ s.earlier s.cur s.nextId, g.owed f.mask f.scope = false)
      (s.me.guardAt f.h 0 = false → Passes i s) ∧
      (s.me.guardAt f.h 0 = true → ok →
        ∃ t, exec i s = .next t ∧ Went i s t (s.past i) id (fun k => if loads then k.acquired else k) s) ∧
      (s.me.guardAt f.h 0 = true → ¬ok →
        Forfeits i s)) ∧
    ∀ f : NulF, Ready (.iflush f) s →
      let ok := ∀ g ∈ s.earlier s.cur s.nextId, g.isStore = true → g.allDone = true
      (s.me.guardAt f.h 0 = false → Passes (.iflush f) s) ∧
      (s.me.guardAt f.h 0 = true → ok →
        ∃ t, exec (.iflush f) s = .next t ∧ Went (.iflush f) s t (s.past (.iflush f)) (fun x => { x with fetch := none })
          (fun k => { k with l0 := [] }) s) ∧
      (s.me.guardAt f.h 0 = true → ¬ok →
        Forfeits (.iflush f) s)

/-- Transfers (R38, R168) and NOP64 (R52). ALIGN before XLATE, and no check of a target that is not taken, are log 133's
readings. -/
def Obligations.TransfersOfControl : Prop :=
  ∀ s : State,
    let near := fun (off : BitVec 28) => s.me.pc + BitVec.ofInt 64 (8 * off.toInt)
    let far := fun (o : Opnd) => BitVec.ofNat 64 (s.u64 s.cur o)
    let goes := fun (i : Instr) (pc : Word) => ∃ t, exec i s = .next t ∧ Went i s t (s.pastTo i pc) id id s
    let calls := fun (i : Instr) (pc : Word) (sl : SlWrite) =>
      ∃ t, exec i s = .next t ∧ Produced i s t (s.pastTo i pc) (s.wbOf i s.nextId false [sl] [] .none) id id s.fresh
    let bad := fun (i : Instr) (pc : Word) => canonical pc = false → TrapsAs i s (tXlate pc 0xF 7)
    (∀ f : NulF, Ready (.nop64 f) s → Passes (.nop64 f) s) ∧
    (∀ f : BrF, Ready (.br f) s →
      (s.me.guardAt f.h 0 = false → Passes (.br f) s) ∧
      (s.me.guardAt f.h 0 = true → canonical (near f.off) = true → goes (.br f) (near f.off)) ∧
      (s.me.guardAt f.h 0 = true → bad (.br f) (near f.off))) ∧
    (∀ f : BrcF, Ready (.brc f) s →
      (s.me.guardAt f.h 0 = false ∨ s.readOp s.cur f.c 0 = 0 → Passes (.brc f) s) ∧
      (s.me.guardAt f.h 0 = true → s.readOp s.cur f.c 0 ≠ 0 →
        (canonical (near f.off) = true → goes (.brc f) (near f.off)) ∧ bad (.brc f) (near f.off))) ∧
    (∀ (f : JmpF) (i : Instr), i = .jmp f ∨ i = .ret f → Ready i s →
      (s.me.guardAt f.h 0 = false → Passes i s) ∧
      (s.me.guardAt f.h 0 = true →
        ((far f.t).toNat % 4 ≠ 0 → TrapsAs i s (tAlign (far f.t) 4)) ∧
        ((far f.t).toNat % 4 = 0 → (canonical (far f.t) = true → goes i (far f.t)) ∧ bad i (far f.t)))) ∧
    (∀ f : BrcF, Ready (.call f) s →
      let lk := s.lanesWrite f.h f.c (fun _ => (s.pcAfter (.call f)).toNat)
      (s.me.guardAt f.h 0 = false → Writes (.call f) s [lk] [] .none) ∧
      (s.me.guardAt f.h 0 = true →
        (canonical (near f.off) = true → calls (.call f) (near f.off) lk) ∧ bad (.call f) (near f.off))) ∧
    (∀ f : CalliF, Ready (.calli f) s →
      let lk := s.lanesWrite f.h f.lk (fun _ => (s.pcAfter (.calli f)).toNat)
      (s.me.guardAt f.h 0 = false → Writes (.calli f) s [lk] [] .none) ∧
      (s.me.guardAt f.h 0 = true →
        ((far f.t).toNat % 4 ≠ 0 → TrapsAs (.calli f) s (tAlign (far f.t) 4)) ∧
        ((far f.t).toNat % 4 = 0 →
          (canonical (far f.t) = true → calls (.calli f) (far f.t) lk) ∧ bad (.calli f) (far f.t)))) ∧
    ∀ f : BrcF, Ready (.loop f) s →
      let n := (s.readOp s.cur f.c 0 + 2 ^ f.c.bits - 1) % 2 ^ f.c.bits
      let ct := s.lanesWrite f.h f.c (fun _ => n)
      (s.me.guardAt f.h 0 = false ∨ n = 0 → Writes (.loop f) s [ct] [] .none) ∧
      (s.me.guardAt f.h 0 = true → n ≠ 0 →
        (canonical (near f.off) = true → calls (.loop f) (near f.off) ct) ∧ bad (.loop f) (near f.off))

/-- SAFE (R169, R342 to R344, R347) and RBDONE (R170). That parking waits for producers of fixed latency too is the model's
reading (log 23), and that the record is read as memory stands then is log 101's. -/
def Obligations.SafePointsAndStubs : Prop :=
  ∀ s : State,
    (∀ f : BrF, Ready (.safe f) s →
      let i := Instr.safe f
      let r := s.me.pc + BitVec.ofInt 64 (8 * f.off.toInt)
      let idle := s.me.guardAt f.h 0 = false ∨ s.me.xact = true ∨ s.me.stub.isSome = true
      (idle → Passes i s) ∧
      (¬idle → r.toNat % 16 ≠ 0 → TrapsAs i s (tAlign r 16)) ∧
      (¬idle → r.toNat % 16 = 0 → s.pendingFor s.cur = false →
        ∃ t, exec i s = .next t ∧ Went i s t (s.past i) (fun x => { x with sra := r, spc := 0 }) id s) ∧
      (¬idle → r.toNat % 16 = 0 → s.pendingFor s.cur = true →
        (s.hasWB s.cur = true → ∃ t, exec i s = .next t ∧
          Went i s t (s.entered i) (fun x => { x with run := .asleep (.parkDrain false r) s.cycle }) id s) ∧
        let q := s.askRecord s.cur r
        (∀ e, s.hasWB s.cur = false → s.readRecord s.cur r = .error e →
          (e.isMiss = false → q.1 = true → TrapsFrom i s (q.2.touchRecord s.cur r) e) ∧ (e.isMiss = true → Misses i s e)) ∧
        (s.hasWB s.cur = false → q.1 = false → ∃ t, exec i s = .next t ∧
          Went i s t (s.entered i)
            (fun x => { x with run := .asleep (.parkDrain false r) s.cycle, hold := (t.ctx s.cur).hold }) id
            { s with slices := t.slices }) ∧
        ∀ v, s.hasWB s.cur = false → q.1 = true → s.readRecord s.cur r = .ok v →
          let live := ∃ k ∈ ctxNums, ctxId s.curCore k ≠ s.cur ∧
            ((s.ctx (ctxId s.curCore k)).run = .awake ∨ ∃ w n, (s.ctx (ctxId s.curCore k)).run = .asleep w n)
          ∃ t, exec i s = .next t ∧
            (live → Went i s t (s.entered i)
              (fun x => { x with
                run := .parked false r v.vec v.sca, stalled := none, held := false, xl := [], walking := none, hold := .none })
              (fun k => k.tlbOf (t.core (s.cur / 16)))
              { q.2.touchRecord s.cur r with ctxs := s.ctxs, cores := s.cores }) ∧
            (¬live → (t.ctx s.cur).run = .parked false r v.vec v.sca ∧ (t.ctx s.cur).pc = s.me.pc ∧ s.Untouched t ∧
              ∀ m ∈ (t.core s.curCore).mats, s.mine.task.map (fun k => k.uid) = some m.uid → m.over = true))) ∧
    ∀ f : NulF, Ready (.rbdone f) s →
      let i := Instr.rbdone f
      (s.me.stub = none → TrapsAs i s tUndef) ∧
      ∀ pc again, s.me.stub = some (pc, again) →
        ∃ t, exec i s = .next t ∧ Went i s t (s.pastTo i pc) (fun x => { x with stub := none, counted := again })
          Core.acquired s

/-- YIELD (R171), DONE (R175) and HJOIN (R174). The model's readings: DONE waits for producers of fixed latency too (log 23), a
helper's power is returned at its DONE (log 95), and a freed context has the registers of log 12. -/
def Obligations.YieldDoneAndJoin : Prop :=
  ∀ s : State,
    (∀ f : OneF 12, Ready (.yield f) s →
      (s.me.guardAt f.h 0 = false → Passes (.yield f) s) ∧
      (s.me.guardAt f.h 0 = true → ∃ t, exec (.yield f) s = .next t ∧
        Went (.yield f) s t (s.past (.yield f))
          (fun x => { x with run := .asleep (.yield (s.cycle + s.opImm s.cur f.v % 2 ^ 16)) s.cycle }) id s)) ∧
    (∀ f : NulF, Ready (.done f) s →
      let i := Instr.done f
      let fin := s.hasWB s.cur = false ∧ s.settled 0xFF (if s.curCtx = 0 then .pkg else .core)
      (s.me.guardAt f.h 0 = false → Passes i s) ∧
      (s.me.guardAt f.h 0 = true → s.curCtx ≠ 0 → fin → s.pendingFor s.cur = false →
        ∃ t, exec i s = .next t ∧ t.ctx s.cur = Ctx.idle ∧
          (t.die (coreDie s.curCore)).used = (s.die (coreDie s.curCore)).used - 10 * s.me.credits ∧
          (∀ p, p ≠ s.cur → t.ctx p = s.ctx p) ∧ (t.core s.curCore).task = s.mine.task ∧ t.mem = s.mem ∧
          t.flights = s.flights) ∧
      (s.me.guardAt f.h 0 = true → s.curCtx ≠ 0 → ¬fin →
        ∃ t, exec i s = .next t ∧
          Went i s t (s.entered i) (fun x => { x with run := .asleep .doneDrain s.cycle }) id s) ∧
      (s.me.guardAt f.h 0 = true → s.curCtx = 0 → s.helpersFree s.curCore = false → s.pendingFor s.cur = false →
        ∃ t, exec i s = .next t ∧ Went i s t (s.asleepIn i .helpers) id id s) ∧
      (s.me.guardAt f.h 0 = true → s.curCtx = 0 → s.helpersFree s.curCore = true → ¬fin →
        ∃ t, exec i s = .next t ∧
          Went i s t (s.entered i) (fun x => { x with run := .asleep .doneDrain s.cycle }) id s) ∧
      (s.me.guardAt f.h 0 = true → s.curCtx = 0 → s.helpersFree s.curCore = true → fin → s.mine.task.isSome = true →
        ∃ t, exec i s = .next t ∧ (t.core s.curCore).task = none ∧
          (∀ k, k < 11 → t.ctx (ctxId s.curCore k) = Ctx.idle) ∧ (t.core s.curCore).mats = s.mine.mats)) ∧
    ∀ f : OneF 10, Ready (.hjoin f) s →
      let i := Instr.hjoin f
      let m := match f.v with
        | .reg o => s.u64 s.cur o
        | .imm v => 2 * v.toNat
      (s.me.guardAt f.h 0 = false → Passes i s) ∧
      let met := ∀ k, 1 ≤ k → k < 11 → k ≠ s.curCtx → bitAt m k = true → s.isFree s.curCore k = true
      (s.me.guardAt f.h 0 = true → s.pendingFor s.cur = false ∨ met →
        ∃ t, exec i s = .next t ∧ Went i s t (s.asleepIn i (.join m)) id id s ∧
          (met →
            ((t.drainOne s.cur).ctx s.cur).run = .awake ∧
            ((t.drainOne s.cur).ctx s.cur).pc = s.pcAfter i ∧
            (∀ l ∈ ((t.drainOne s.cur).core s.curCore).l1, l.flagged = false)))

/-- HSTART (R172, R173): the helpers of the mask in ascending order, each counted after those started before it. -/
def Obligations.HelpersStart : Prop :=
  ∀ (f : HstartF) (s : State), Ready (.hstart f) s → s.me.run = .awake →
    let i := Instr.hstart f
    let pc := BitVec.ofNat 64 (s.u64 s.cur f.entry)
    let named := match f.mask with
      | .reg o => s.u64 s.cur o
      | .imm v => 2 * v.toNat
    let live := fun (w : Ctx → Window) =>
      ((ctxNums.filter (fun k => !s.isFree s.curCore k)).map (fun k => (w (s.ctx (ctxId s.curCore k))).blocks)).sum
    let started := fun (m k : Nat) => ((List.range k).filter (fun j => bitAt m j)).length
    let busy := ∃ w ∈ s.mine.wbs, w.ctx = s.cur ∧ w.long = true ∧ ∃ o ∈ w.octs, o.1 = .g ∨ o.1 = .h
    (busy → Forfeits i s) ∧
    (¬busy → pc.toNat % 4 ≠ 0 → TrapsAs i s (tAlign pc 4)) ∧
    (¬busy → pc.toNat % 4 = 0 →
      ∃ (t : State) (m : Nat) (w : WB), exec i s = .next t ∧ t.mem = s.mem ∧ t.flights = s.flights ∧
        t.ctx s.cur = (s.past i).windowsOf (t.ctx s.cur) ∧
        (t.core s.curCore).wbs = s.mine.wbs ++ [w] ∧
        w.sl = [s.lanesWrite f.h f.d (fun _ => fitBits .n16 f.d.bits m)] ∧ w.due = s.cycle + 4 ∧ w.missing = false ∧
        (∀ k, bitAt m k = true ↔ 1 ≤ k ∧ k ≤ 10 ∧ s.me.guardAt f.h 0 = true ∧ bitAt named k = true ∧
          s.isFree s.curCore k = true ∧
          s.mine.g.blocks + live Ctx.v + (started m k + 1) * f.vblk.toNat ≤ 128 ∧
          s.mine.h.blocks + live Ctx.s + (started m k + 1) * f.sblk.toNat ≤ 128) ∧
        (∀ k, bitAt m k = true →
          t.ctx (ctxId s.curCore k) = { Ctx.idle with
            run := .awake, joinAt := s.cycle + 5, pc := pc, itr := s.me.itr
            wlim := (s.mine.task.map (fun a => a.eff.wlim)).getD 0, ftz := (s.mine.task.map (fun a => a.eff.ftz)).getD false
            priv := (s.mine.task.map (fun a => decide (a.region = 0))).getD s.me.priv, lmask := BitVec.allOnes 64
            srs := seedStates 0, v := .alloc f.vblk.toNat, s := .alloc f.sblk.toNat, shadow := shadowStart
            floor := (s.cur, s.nextId) :: s.me.floor }) ∧
        (∀ k, bitAt m k = false → ctxId s.curCore k ≠ s.cur → k < 16 → t.ctx (ctxId s.curCore k) = s.ctx (ctxId s.curCore k)) ∧
        ∀ p, p / 16 ≠ s.curCore → t.ctx p = s.ctx p)

/-- SPAWN (R176). The model's readings: the TCB and the chain are read in one step as memory stands then (logs 84, 101), the
scratchpad's own peer window names its bytes too (log 96), and a bound TCB that names no die finds none (log 62). -/
def Obligations.SpawnQueuesOneTask : Prop :=
  ∀ (f : SpawnF) (s : State), Ready (.spawn f) s →
    let i := Instr.spawn f
    let va := BitVec.ofNat 64 (s.u64 s.cur f.tcb)
    let free := s.settled 0xFF .pkg
    let wbs := fun (v : Nat) => match f.d with
      | none => []
      | some d => [s.wbOf i s.nextId false [s.lanesWrite f.h d (fun _ => fit64 d v)] [] .none]
    let same := fun (t : State) (p : Nat) => t.ctx p = { s.ctx p with xl := (t.ctx p).xl, walking := (t.ctx p).walking }
    let ask := s.askTcb s.cur va
    let w := ask.2.touchSpawn s.cur va
    let tries := s.me.guardAt f.h 0 = false ∨ free
    (s.me.guardAt f.h 0 = true → ¬free → Forfeits i s) ∧
    (tries → ask.1 = false →
      exec i s = .next (((s.setCtx s.cur (s.me.setLen i)).askTcb s.cur va).2.count s.curCore 1 1)) ∧
    (∀ e, tries → ask.1 = true → s.spawnTask s.cur va = .error e →
      (e.isMiss = false → TrapsFrom i s w e) ∧ (e.isMiss = true → Misses i s e)) ∧
    (∀ r, s.me.guardAt f.h 0 = false → ask.1 = true → s.spawnTask s.cur va = .ok r →
      s.Untouched w ∧ (∀ p, p ≠ s.cur → same w p) ∧
      (f.d = none → ∃ t, exec i s = .next t ∧ Went i w t (s.past i) id id w) ∧
      (f.d.isSome = true → ∃ t, exec i s = .next t ∧
        Produced i w t (s.past i) (w.wbOf i w.nextId false [] [] .none) id id w.fresh)) ∧
    (∀ pl l k, s.me.guardAt f.h 0 = true → free → ask.1 = true → s.spawnTask s.cur va = .ok (pl, l, k) →
      (s.dieFor k (coreDie s.curCore) = none → ∃ t, exec i s = .next t ∧ s.Untouched t ∧
        (∀ d, (t.die d).queue = (s.die d).queue) ∧ (t.core s.curCore).wbs = s.mine.wbs ++ wbs 0 ∧
        t.ctx s.cur = (s.past i).windowsOf (t.ctx s.cur) ∧ ∀ p, p ≠ s.cur → same t p) ∧
      ∀ d, s.dieFor k (coreDie s.curCore) = some d → ∃ (u : State) (e : QEntry),
        exec i s = .next ((((u.liveUp (coreDie s.curCore) k.chain).checkPreempt d).modCtx s.cur
          (fun x => x.goTo (s.pcAfter i))).issued s.curCore i.shape.added) ∧
        s.Untouched u ∧ (u.die d).queue = (s.die d).queue ++ [e] ∧ e.task = k ∧ e.firstQ = s.cycle ∧ e.suspended = false ∧
        e.level = k.prio ∧ (∀ c, c ≠ d → (u.die c).queue = (s.die c).queue) ∧
        (u.core s.curCore).wbs = s.mine.wbs ++ wbs (0x100 + d) ∧
        u.ctx s.cur = { (s.entered i).windowsOf (u.ctx s.cur) with
          xl := (u.ctx s.cur).xl, walking := (u.ctx s.cur).walking, hold := .none } ∧ ∀ p, p ≠ s.cur → same u p)

/-- IDRD (R177), ITRD, ITSET, ITINC (R178) and SEED (R179). -/
def Obligations.IdentityIterationAndSeed : Prop :=
  ∀ s : State,
    let task := fun (g : Task → Nat) => (s.mine.task.map g).getD 0
    let sets := fun (i : Instr) (h : Hdr) (g : Ctx → Ctx) =>
      (s.me.guardAt h 0 = false → Passes i s) ∧
      (s.me.guardAt h 0 = true → ∃ t, exec i s = .next t ∧ Went i s t (s.past i) g id s)
    (∀ (f : IdrdF) (v : Nat → Nat), Ready (.idrd f) s →
      (∀ l, (f.sel.toNat = 0 → v l = s.curCtx) ∧ (f.sel.toNat = 1 → v l = s.curCore % 144) ∧
        (f.sel.toNat = 2 → v l = s.curCore / 144) ∧ (f.sel.toNat = 3 → v l = l) ∧
        (f.sel.toNat = 4 → v l = task (fun t => t.tcb.toNat)) ∧ (f.sel.toNat = 5 → v l = task (fun t => t.arg.toNat)) ∧
        (f.sel.toNat = 6 → v l = task (fun t => t.region)) ∧ (f.sel.toNat = 7 → v l = task (fun t => t.asid))) →
      Writes (.idrd f) s [s.lanesWrite f.h f.d (fun l => fitBits .n64 f.d.bits (v l))] [] .none) ∧
    (∀ f : DstF, Ready (.itrd f) s →
      Writes (.itrd f) s [s.lanesWrite f.h f.d (fun _ => fitBits .n32 f.d.bits s.me.itr.toNat)] [] .none) ∧
    (∀ f : OneF 12, Ready (.itset f) s →
      sets (.itset f) f.h (fun x => { x with itr := BitVec.ofNat 32 (s.opImm s.cur f.v) })) ∧
    (∀ f : OneF 12, Ready (.itinc f) s →
      sets (.itinc f) f.h (fun x => { x with itr := x.itr + BitVec.ofNat 32 (s.opImm s.cur f.v) })) ∧
    ∀ f : OneF 12, Ready (.seed f) s →
      sets (.seed f) f.h (fun x => { x with srs := seedStates (s.opImm s.cur f.v) })

/-- TRAP (R180), TRET and TRET.NEXT (R182, R380). Where XPC is no multiple of 4 it is used as it stands (log 111); that a TRET waits for
writes of the handler to block 0 and LMASK is among its checks (log 128). -/
def Obligations.SoftTrapsAndReturns : Prop :=
  ∀ s : State,
    (∀ f : TrapF, Ready (.trap f) s →
      (s.me.guardAt f.h 0 = false → Passes (.trap f) s) ∧
      (s.me.guardAt f.h 0 = true → TrapsAs (.trap f) s (tSoft f.code))) ∧
    ∀ (f : NulF) (i : Instr) (next : Bool), (i = .tret f ∧ next = false) ∨ (i = .tretNext f ∧ next = true) → Ready i s →
      (s.me.xact = false → TrapsAs i s tUndef) ∧
      (s.me.xact = true → s.me.guardAt f.h 0 = false → Passes i s) ∧
      (s.me.xact = true → s.me.guardAt f.h 0 = true →
        let step := if next = true then (if s.me.xlen.toNat = 3 then 0 else 8 + 4 * s.me.xlen.toNat) else 0
        ∃ t, exec i s = .next t ∧
          Went i s t (s.entered i) (fun x => { x with
            pc := s.me.xpc + BitVec.ofNat 64 step, lmask := s.me.xlm, priv := s.me.xpm, xact := false, xl := [], walking := none
            counted := s.me.xcounted && !next, s := (t.ctx s.cur).s }) id { s with ueRegs := t.ueRegs } ∧
          (∀ k, Tab.get false t.ueRegs k =
            (Tab.get false s.ueRegs k && !(decide (1024 * s.cur ≤ k) && decide (k < 1024 * s.cur + 8)))) ∧
          (t.ctx s.cur).s.blocks = s.me.s.blocks ∧
          (∀ q, q < 4 → (t.ctx s.cur).s.read 0 (16 * q) 16 = (Tab.get 0 s.me.xb q).toNat) ∧
          (∀ l a n, 64 ≤ a ∨ l ≠ 0 → a + n ≤ 2048 → (t.ctx s.cur).s.read l a n = s.me.s.read l a n) ∧
          ∀ o, o < 256 → (t.ctx s.cur).s.isEmpty o = (decide (8 ≤ o) && s.me.s.isEmpty o))

/-- Taking a trap (R181). It waits for every writeback of its context, those of fixed latency too: the model's reading
(log 23). -/
def Obligations.TrapEntry : Prop :=
  ∀ (s : State) (p : Nat) (e : TrapInfo), e.event = none →
    let x := s.ctx p
    let word := fun q => BitVec.ofNat 64 (x.s.read 0 (16 * q) 16)
    ((∃ w ∈ (s.core (p / 16)).wbs, w.ctx = p) →
      s.raise p e = s.setCtx p { x with run := .asleep (.trapDrain e) s.cycle, stalled := none }) ∧
    ((∀ w ∈ (s.core (p / 16)).wbs, w.ctx ≠ p) →
      (∀ n, x.run = .asleep (.trapDrain e) n → s.drainOne p = s.raise p e) ∧
      (x.xact = true ∨ x.s.blocks = 0 → s.raise p e = s.taskFault (p / 16)) ∧
      let bad := s.ueIn p ((List.range 8).map (fun o => (FileId.s, o)))
      (x.xact = false → x.s.blocks ≠ 0 → bad = true → s.raise p e = s.consumeBad 1 (p / 16) 0 0) ∧
      (x.xact = false → x.s.blocks ≠ 0 → bad = false →
        ∃ b, s.raise p e = s.setCtx p { x with
            run := .awake, joinAt := (if x.run = .awake then x.joinAt else s.cycle + 1)
            xpc := x.pc, xlen := x.ilen, xcode := BitVec.ofNat 8 e.code, xaddr := e.addr, xinfo := e.info
            xlm := x.lmask, xb := b, xpm := x.priv, xact := true, priv := true, lmask := BitVec.allOnes 64
            pc := (((s.core (p / 16)).task.map (fun t => t.eff.handler)).getD 0), counted := false
            xcounted := x.counted, stalled := none, held := false, xl := [], walking := none, hold := .none } ∧
          ∀ q, Tab.get 0 b q = if q < 4 then word q else 0))

/-- SYSRD (R183) and PERF (R187). The model's readings: a form that executes in no lane clears nothing (log 32), and SYSRD of
SPC counts itself (log 91). -/
def Obligations.SystemRegisterReads : Prop :=
  ∀ s : State,
    let x := s.me
    let k := s.mine
    let d := s.die (coreDie s.curCore)
    let bit := fun (b : Bool) n => if b then 2 ^ n else 0
    let num := fun (n : Nat) => BitVec.ofNat 64 n
    let settled := (∀ w ∈ k.wbs, w.ctx ≠ s.cur) ∧
      ∀ g ∈ s.earlier s.cur s.nextId, ∀ ty r z, g.op = .scat ty r z → g.allDone = true
    let flg := num (bit x.ftz 8 + bit x.flags.nx 4 + bit x.flags.uf 3 + bit x.flags.of 2 + bit x.flags.dz 1 + bit x.flags.nv 0)
    let count := fun (n : Nat) => if n = 9 then d.overflow else if n = 10 then d.agedDiscard else Tab.get 0 k.perf n
    let val := fun (r : SysReg) => match r with
      | .cwin => num (x.v.blocks + x.s.blocks * 2 ^ 8 + k.g.blocks * 2 ^ 16 + k.h.blocks * 2 ^ 24)
      | .wlim => num x.wlim.toNat
      | .flg => flg
      | .spx => num x.spx.toNat
      | .spc => num x.spc.toNat
      | .splim => num ((k.task.map (fun t : Task => t.eff.splim.toNat)).getD 65536)
      | .sra => x.sra
      | .wsp => (k.task.map (fun t : Task => t.wsp)).getD 0
      | .rpr => num k.rpr.toNat
      | .xstate => num (bit x.xpm 1 + bit x.xact 0)
      | .xpc => x.xpc
      | .xcause => num (x.xlen.toNat * 2 ^ 16 + x.xcode.toNat)
      | .xaddr => x.xaddr
      | .xinfo => x.xinfo
      | .xlm => x.xlm
      | .xb q => Tab.get 0 x.xb q.toNat
      | .cycle => num (s.cycle - k.cycle0)
      | .efcr => k.efcr
      | .efca => k.efca
      | .efmr => k.efmr
      | .efma => k.efma
      | .rtn n => (Tab.get Rtn.free d.rtn n.toNat).val
      | .atbl => d.atbl
      | .shst => d.shst
      | .evbase => s.evbase
      | .evctl => s.evctl
      | .hcfg => d.hcfg
      | .iocfg n => Tab.get 0 s.iocfg n.val
      | .inga n => Tab.get 0 s.inga n.toNat
      | .ingl n => Tab.get 0 s.ingl n.toNat
      | .ingc n => Tab.get 0 s.ingc n.toNat
      | .gov => num (d.used % 2 ^ 16 + d.budget % 2 ^ 16 * 2 ^ 16 + d.basel % 2 ^ 16 * 2 ^ 32)
      | .kreq => num s.keyReq.toNat
    (∀ f : SysRdF, Ready (.sysrd f) s →
      (f.reg = .flg → ¬settled → Forfeits (.sysrd f) s) ∧
      (f.reg = .flg → settled →
        Writes (.sysrd f) s [s.lanesWrite f.h f.d (fun _ => fitBits .n64 f.d.bits flg.toNat)] [] .none) ∧
      (f.reg ≠ .flg →
        Writes (.sysrd f) s [s.lanesWrite f.h f.d (fun _ => fitBits .n64 f.d.bits (val f.reg).toNat)] [] .none)) ∧
    (∀ f : DstF, Ready (.sysrdClr f) s →
      let sl := [s.lanesWrite f.h f.d (fun _ => fitBits .n64 f.d.bits flg.toNat)]
      (¬settled → Forfeits (.sysrdClr f) s) ∧
      (settled → ∃ t, exec (.sysrdClr f) s = .next t ∧
        Produced (.sysrdClr f) s t (s.past (.sysrdClr f)) (s.wbOf (.sysrdClr f) s.nextId false sl [] .none)
          (fun x => if s.lanes f.h f.d.isVec = [] then x else { x with flags := .none }) id s.fresh)) ∧
    (∀ f : PerfF, Ready (.perf f) s →
      Writes (.perf f) s [s.lanesWrite f.h f.d (fun _ => fitBits .n64 f.d.bits (count f.ev.toNat).toNat)] [] .none) ∧
    ∀ f : PerfF, Ready (.perfClr f) s →
      let sl := [s.lanesWrite f.h f.d (fun _ => fitBits .n64 f.d.bits (count f.ev.toNat).toNat)]
      ∃ t, exec (.perfClr f) s = .next t ∧
        Produced (.perfClr f) s t (s.past (.perfClr f)) (s.wbOf (.perfClr f) s.nextId false sl [] .none) id
          (fun k => if s.lanes f.h f.d.isVec = [] then k
            else { k with perf := Tab.set 0 k.perf f.ev.toNat 0 }) s.fresh

/-- SYSWR in its five rows (R183, R225, R226, R349, R368, R376). The model's readings: SYSWR of FLG waits for earlier flags
(log 31), a Mirror beyond 16 GiB traps as one beyond the die's memory does (log 121), and KREQ's hold is a number of forfeited
slots (log 126). Lines that leave a slice for a new retention may post events (R362). -/
def Obligations.SystemRegisterWrites : Prop :=
  ∀ s : State,
    let a := fun (o : Opnd) => BitVec.ofNat 64 (s.u64 s.cur o)
    let d := coreDie s.curCore
    let settled := (∀ w ∈ s.mine.wbs, w.ctx ≠ s.cur) ∧
      ∀ g ∈ s.earlier s.cur s.nextId, ∀ ty r z, g.op = .scat ty r z → g.allDone = true
    let ctx := fun (i : Instr) (g : Ctx → Ctx) => ∃ t, exec i s = .next t ∧ Went i s t (s.past i) g id s
    let core := fun (i : Instr) (g : Core → Core) => ∃ t, exec i s = .next t ∧ Went i s t (s.past i) id g s
    let rest := fun (i : Instr) (u : State) => ∃ t, exec i s = .next t ∧ Went i s t (s.past i) id id u
    (∀ f : SysWrF, Ready (.syswr f) s →
      let i := Instr.syswr f
      let w := a f.a
      (f.reg = .flg → ¬settled → Forfeits i s) ∧
      (f.reg ≠ .flg ∨ settled →
        (s.me.guardAt f.h 0 = false → Passes i s) ∧
        (s.me.guardAt f.h 0 = true →
          (f.reg = .wlim → ctx i (fun x => { x with wlim := w.setWidth 32 })) ∧
          (f.reg = .flg → ctx i (fun x => { x with ftz := w[8], flags := ⟨w[4], w[3], w[2], w[1], w[0]⟩ })) ∧
          (f.reg = .spx → ctx i (fun x => { x with spx := w.setWidth 6 })) ∧
          (f.reg = .spc → ctx i (fun x => { x with spc := w.setWidth 25 })) ∧
          (f.reg = .wsp → core i (fun k => { k with task := k.task.map (fun t => { t with wsp := w }) })) ∧
          (f.reg = .rpr → core i (fun k => { k with rpr := w.setWidth 6 })) ∧
          (f.reg = .xstate → ctx i (fun x => { x with xpm := w[1] })) ∧
          (f.reg = .xpc → ctx i (fun x => { x with xpc := w, xcounted := x.xcounted && decide (w = x.xpc) })) ∧
          (f.reg = .xlm → ctx i (fun x => { x with xlm := w })) ∧
          (∀ q, f.reg = .xb q → ctx i (fun x => { x with xb := Tab.set 0 x.xb q.toNat w })) ∧
          (f.reg = .efcr → core i (fun k => { k with efcr := w &&& 0xC000000FFF00FFFF })) ∧
          (f.reg = .efca → core i (fun k => { k with efca := w })) ∧
          (f.reg = .efmr → core i (fun k => { k with efmr := w &&& 0xC000000FFF00001F })) ∧
          (f.reg = .efma → core i (fun k => { k with efma := w })) ∧
          (f.reg = .atbl → rest i (s.setDie d { s.die d with atbl := w &&& 0x0000FFFFFFFF8001 })) ∧
          (f.reg = .evbase → rest i { s with evbase := w &&& 0xFFFFFFFFFFFFFFC0 }) ∧
          (f.reg = .evctl → rest i { s with evctl := w &&& 0x11F }) ∧
          (∀ n, f.reg = .iocfg n → rest i { s with iocfg := Tab.set 0 s.iocfg n.val (w &&& 0xC000000000000FFF) }) ∧
          (∀ n, f.reg = .inga n → rest i { s with inga := Tab.set 0 s.inga n.toNat (w &&& 0x81FFFFFFFFF00000) }) ∧
          (∀ n, f.reg = .ingl n → rest i { s with ingl := Tab.set 0 s.ingl n.toNat w }) ∧
          (∀ n, f.reg = .ingc n → rest i { s with ingc := Tab.set 0 s.ingc n.toNat w })))) ∧
    (∀ f : SysWrRtnF, Ready (.syswrRtn f) s →
      let i := Instr.syswrRtn f
      let r : Rtn := ⟨a f.a &&& 0xF1FFFFFFFFFFFFFF, (s.mine.task.map (fun t => t.region)).getD 0,
        (s.mine.task.map (fun t => t.asid)).getD 0, 0⟩
      let tab := Tab.set Rtn.free (s.die d).rtn f.n.toNat r
      let ways := ((List.range 8).map (fun n => (Tab.get Rtn.free tab n).ways)).sum
      (8 < ways → TrapsAs i s (tProt 0 10)) ∧
      (ways ≤ 8 → (s.me.guardAt f.h 0 = false → Passes i s) ∧
        (s.me.guardAt f.h 0 = true → ∃ t, exec i s = .next t ∧
          (∃ moved, Went i s t (s.past i) id id (State.postMoved { s with dies := t.dies, l2 := t.l2 } moved) ∧
            ∀ n ∈ moved, ∃ x ∈ s.l2, x.1 / 16384 = d ∧ ∃ y ∈ x.2.ways,
              y.2.line = some (n / 4) ∧ bitAt y.2.dirty.toNat (n % 4) = true) ∧
          t.die d = { s.die d with rtn := (t.die d).rtn } ∧ (∀ e, e ≠ d → t.die e = s.die e) ∧
          ∀ n, let r := Tab.get Rtn.free (t.die d).rtn n
            { r with first := 0 } = { Tab.get Rtn.free tab n with first := 0 } ∧
            (n < 8 → r.ways ≠ 0 → r.first = ((List.range n).map (fun j => (Tab.get Rtn.free tab j).ways)).sum)))) ∧
    (∀ f : SrcF, Ready (.syswrHcfg f) s →
      let i := Instr.syswrHcfg f
      let v := (a f.a &&& 0x3F00) ||| ((s.die d).hcfg &&& 0x7F)
      let ok := bitsAt v.toNat 8 6 ≤ 16 ∧ bitsAt v.toNat 0 7 + bitsAt v.toNat 8 6 ≤ 96
      (¬ok → TrapsAs i s (tProt 0 10)) ∧
      (ok → (s.me.guardAt f.h 0 = false → Passes i s) ∧
        (s.me.guardAt f.h 0 = true →
          let x := s.die d
          let same := bitsAt x.hcfg.toNat 8 6 = bitsAt v.toNat 8 6
          rest i (s.setDie d (if same then { x with hcfg := v } else { x with
            hcfg := v, mirror := [], mfills := x.mfills.map (fun m => { m with cancelled := true }) }))))) ∧
    (∀ f : SrcF, Ready (.syswrShst f) s →
      let i := Instr.syswrShst f
      let v := a f.a &&& 0x0000FFFFFFE00FFF
      let base := bitsAt v.toNat 21 27 * 2 ^ 21
      let n := bitsAt v.toNat 0 12
      let ok := n = 0 ∨ (2 ^ 44 + d * 2 ^ 40 ≤ base ∧ base + n * 2 ^ 21 ≤ 2 ^ 44 + d * 2 ^ 40 + s.localShare d)
      (¬ok → TrapsAs i s (tProt 0 10)) ∧
      (ok → (s.me.guardAt f.h 0 = false → Passes i s) ∧
        (s.me.guardAt f.h 0 = true → rest i (s.setDie d { s.die d with shst := v })))) ∧
    ∀ f : SrcF, Ready (.syswrKreq f) s →
      let i := Instr.syswrKreq f
      (s.me.guardAt f.h 0 = false → Passes i s) ∧
      (s.me.guardAt f.h 0 = true → ∃ t n, exec i s = .next t ∧
        let key := (a f.a).setWidth 12
        Went i s t (s.past i) (fun x => { x with forfeits := 1 + n }) id
          { s with keyReq := key, stale := t.stale, freeCtr := s.freeCtr + 1, dies := t.dies } ∧
        (∀ q, (q, some key) ∈ s.keyIdx → Tab.get none s.stale q = none → Tab.get none t.stale q = some s.freeCtr) ∧
        (∀ q, (q, some key) ∉ s.keyIdx ∨ (Tab.get none s.stale q).isSome = true →
          Tab.get none t.stale q = Tab.get none s.stale q) ∧
        ∀ e, t.die e = { s.die e with mirror := (t.die e).mirror, mfills := (t.die e).mfills } ∧
          (e < 8 → (t.die e).mirror = (s.die e).mirror.map (fun m => m.rekey key s.freeCtr)))

/-- GENB (R186), UNPIN (R188) and TLBI (R184, R337). An access that is still to perform with a matching translation is one of
a context (R337) or of an engine (R184). A retention register is free only with all its fields zero (log 137). -/
def Obligations.GenerationsRetentionAndTlbs : Prop :=
  ∀ s : State,
    let d := coreDie s.curCore
    (∀ f : NulF, Ready (.genb f) s →
      let x := s.die d
      (s.me.guardAt f.h 0 = false → Passes (.genb f) s) ∧
      (s.me.guardAt f.h 0 = true → ∃ t, exec (.genb f) s = .next t ∧ Went (.genb f) s t (s.past (.genb f)) id id
        (s.setDie d { x with gen := x.gen + 1, mirror := if x.gen + 1 = 0 then [] else x.mirror }))) ∧
    (∀ f : OneF 3, Ready (.unpin f) s →
      let n := s.opImm s.cur f.v % 8
      let r := Tab.get Rtn.free (s.die d).rtn n
      let other := r ≠ Rtn.free ∧ r.region ≠ (s.mine.task.map (fun t => t.region)).getD 0
      (other → TrapsAs (.unpin f) s (tProt 0 9)) ∧
      (¬other → (s.me.guardAt f.h 0 = false → Passes (.unpin f) s) ∧
        (s.me.guardAt f.h 0 = true → ∃ t, exec (.unpin f) s = .next t ∧ Went (.unpin f) s t (s.past (.unpin f)) id id
          (s.setDie d { s.die d with rtn := Tab.set Rtn.free (s.die d).rtn n Rtn.free })))) ∧
    ∀ (i : Instr) (h : Hdr) (sc : Scope) (hits : TlbEntry → Prop) (sel : TlbSel),
      (∃ f : TlbiAllF, i = .tlbiAll f ∧ h = f.h ∧ sc = f.scope ∧ sel = .all ∧ ∀ e, hits e ↔ True) ∨
      (∃ f : TlbiAsidF, i = .tlbiAsid f ∧ h = f.h ∧ sc = f.scope ∧ sel = .asid (s.u64 s.cur f.asid % 4096) ∧
        ∀ e, hits e ↔ e.asid = s.u64 s.cur f.asid % 4096) ∨
      (∃ f : TlbiVaF, i = .tlbiVa f ∧ h = f.h ∧ sc = f.scope ∧
        sel = .va (s.u64 s.cur f.asid % 4096) (BitVec.ofNat 64 (s.u64 s.cur f.va)) ∧
        ∀ e, hits e ↔ e.serves (s.u64 s.cur f.asid % 4096) (BitVec.ofNat 64 (s.u64 s.cur f.va)) = true) →
      Ready i s →
      let held := (∃ g ∈ s.earlier s.cur s.nextId, g.isStore = true ∧ g.allDone = false) ∨
        (∃ g ∈ s.flights, inScope sc s.curCore g.core = true ∧ ∃ q ∈ g.parts, q.done = false ∧ ∃ e, q.page = some e ∧ hits e) ∨
        (∃ k ∈ s.cores, inScope sc s.curCore k.1 = true ∧ ∃ q ∈ k.2.packets, (∃ e, q.dstPage = some e ∧ hits e) ∨
          (q.stage = .issued ∧ ∃ e ∈ q.srcPages, hits e))
      let within := fun e => sc = .die ∧ e = d ∨ sc = .pkg ∨ sc = .sys
      (s.me.guardAt h 0 = false → Passes i s) ∧
      (s.me.guardAt h 0 = true → held → Forfeits i s) ∧
      (s.me.guardAt h 0 = true → ¬held → ∃ t, exec i s = .next t ∧
        { t with ctxs := s.ctxs, cores := s.cores, dies := s.dies, ctrUps := s.ctrUps } = s ∧
        t.ctx s.cur = s.past i ∧
        (∀ p, p ≠ s.cur → t.ctx p = { s.ctx p with xl := (t.ctx p).xl } ∧ ∀ r ∈ (t.ctx p).xl, r ∈ (s.ctx p).xl) ∧
        (∀ k ∈ s.ctxs, inScope sc s.curCore (k.1 / 16) = true → ∀ r ∈ (t.ctx k.1).xl, ∀ e, r.leaf = some e → ¬hits e) ∧
        (∀ c, (∃ k ∈ s.cores, k.1 = c) → inScope sc s.curCore c = true →
          (∀ e, e ∈ (t.core c).tlb ↔ e ∈ (s.core c).tlb ∧ ¬hits e)) ∧
        (∀ c, inScope sc s.curCore c = true → (∀ m ∈ (t.core c).copies, ∀ r ∈ m.xl, ∀ e, r.leaf = some e → ¬hits e) ∧
          ∀ m ∈ (t.core c).mats, ∀ r ∈ m.xl, ∀ e, r.leaf = some e → ¬hits e) ∧
        (∀ c,
          let k := if c = s.cur / 16 then (s.core c).left i else s.core c
          t.core c = if inScope sc s.curCore c then k.forget sel else k) ∧
        t.ctrUps = s.ctrUps.map (fun u => u.forget sc s.curCore sel) ∧
        (∀ u ∈ t.ctrUps, ∀ c, u.core = some c → inScope sc s.curCore c = true → ∀ r ∈ u.xl, ∀ e, r.leaf = some e → ¬hits e) ∧
        (∀ e, e < 8 → within e →
          (∀ y, y ∈ (t.die e).tlb ↔ y ∈ (s.die e).tlb ∧ ¬hits y) ∧ ∀ w ∈ (t.die e).walks, sel.walks w = false) ∧
        (∀ e, ¬within e → (t.die e).tlb = (s.die e).tlb) ∧
        ∀ e, t.die e = { s.die e with tlb := (t.die e).tlb, walks := (t.die e).walks } ∧
          (∀ w ∈ (t.die e).walks, w ∈ (s.die e).walks) ∧
          ∀ w ∈ (s.die e).walks, sel.walks w = false → w ∈ (t.die e).walks)

/-- OBJDEF and OBJDEF.CLR (R185, R213, R214, R253). The model's readings: the record is read as memory stands then
(log 101), the owner's control blocks in one step (log 84), an object's ranges are found page by page, 64 KiB at a time (log 29), and every L1 line of them goes,
flagged or not (log 30). -/
def Obligations.ObjectsAreDefinedAndCleared : Prop :=
  ∀ s : State,
    let d := coreDie s.curCore
    (∀ f : ObjdefF, Ready (.objdef f) s →
      let i := Instr.objdef f
      let rc := BitVec.ofNat 64 (s.u64 s.cur f.rcd)
      let id := s.u64 s.cur f.id % 65536
      (rc.toNat % 64 ≠ 0 → TrapsAs i s (tAlign rc 64)) ∧
      (∀ e, rc.toNat % 64 = 0 → s.place (s.who s.cur) .ld rc 64 = .error e →
        (e.isMiss = false → TrapsAs i s e) ∧ (e.isMiss = true → Misses i s e)) ∧
      ∀ pl, rc.toNat % 64 = 0 → s.place (s.who s.cur) .ld rc 64 = .ok pl →
        let b : Block := ⟨rc, s.word pl.key 64⟩
        let o := s.objOf d b
        let ask := s.askShape rc
        let w := ask.2.touchShape rc
        let same := fun (t : State) (p : Nat) =>
          t.ctx p = { s.ctx p with xl := (t.ctx p).xl, walking := (t.ctx p).walking }
        (ask.1 = false → exec i s = .next (((s.setCtx s.cur (s.me.setLen i)).askShape rc).2.count s.curCore 1 1)) ∧
        (ask.1 = true → s.Untouched w ∧ (∀ p, p ≠ s.cur → same w p) ∧
        (∀ k, s.badSector (pl.key / 64) = some k →
          exec i s = .next ((w.setCtx s.cur (w.me.setLen i)).consumeBad k s.curCore
            (BitVec.ofNat 64 pl.key).toNat rc.toNat)) ∧
        (∀ n, s.badSector (pl.key / 64) = none → s.shapeErr d b = some n →
          n < 60 ∨ s.ownerBad d (b.at 60 16) = none → TrapsFrom i s w (tField rc n)) ∧
        (∀ e, s.badSector (pl.key / 64) = none → s.ownerBad d (b.at 60 16) = some e →
          (∀ n, s.shapeErr d b = some n → 60 ≤ n) → TrapsFrom i s w e) ∧
        (s.badSector (pl.key / 64) = none → s.shapeErr d b = none → s.ownerBad d (b.at 60 16) = none →
          let fresh := s.overlapsObj o = false ∧ Tab.get none s.objs id = none
          (s.overlapsObj o = true → TrapsFrom i s w (tProt rc 12)) ∧
          (s.overlapsObj o = false → (Tab.get none s.objs id).isSome = true → TrapsFrom i s w (tProt rc 13)) ∧
          (fresh → s.me.guardAt f.h 0 = false → ∃ t, exec i s = .next t ∧ Went i w t (s.past i) (fun x => x) (fun k => k) w) ∧
          (∀ e, fresh → s.me.guardAt f.h 0 = true → o.aged = true → s.objHeld o = some e →
            (e.isMiss = true → Misses i s e) ∧ (e.isMiss = false → TrapsFrom i s w e)) ∧
          (fresh → s.me.guardAt f.h 0 = true → o.aged = false ∨ s.objHeld o = none →
            o.base = BitVec.ofNat 64 (b.at 0 64) ∧ o.size = b.extent ∧ o.asid = b.at 62 12 ∧
            o.writable = bitAt (b.at 57 8) 0 ∧ o.aged = bitAt (b.at 57 8) 1 ∧ o.mirrorable = bitAt (b.at 57 8) 2 ∧
            ∃ t, exec i s = .next t ∧ s.Untouched t ∧ t.ctx s.cur = s.past i ∧ (∀ p, p ≠ s.cur → same t p) ∧
              Tab.get none t.objs id = some o ∧ (∀ n, n ≠ id → Tab.get none t.objs n = Tab.get none s.objs n) ∧
              (o.aged = false → t.aged = s.aged ∧ t.stamps = s.stamps) ∧
              (o.aged = true → ∀ x ∈ o.pages, ∀ e, s.findXlat (s.objWho o) x.1 = .ok e → s.inDevice (e.pa_ x.1) = true →
                (⟨id, e.pa_ x.1, x.2⟩ : AgedRange) ∈ t.aged ∧
                ∀ n, e.pa_ x.1 ≤ 64 * n → 64 * n < e.pa_ x.1 + x.2 → Tab.get 0 t.stamps n = 0))))) ∧
    ∀ f : SrcF, Ready (.objdefClr f) s →
      let i := Instr.objdefClr f
      let id := s.u64 s.cur f.a % 65536
      (s.me.guardAt f.h 0 = false → Passes i s) ∧
      (Tab.get none s.objs id = none → Passes i s) ∧
      ∀ o, s.me.guardAt f.h 0 = true → Tab.get none s.objs id = some o →
        (∀ e, s.objHeld o = some e → (e.isMiss = true → Misses i s e) ∧ (e.isMiss = false → TrapsAs i s e)) ∧
        (s.objHeld o = none → ∃ t, exec i s = .next t ∧ t.mem = s.mem ∧ t.ctx s.cur = s.past i ∧ (∀ p, p ≠ s.cur → t.ctx p = s.ctx p) ∧
          Tab.get none t.objs id = none ∧ (∀ n, n ≠ id → Tab.get none t.objs n = Tab.get none s.objs n) ∧
          (∀ r ∈ s.objRanges id o, ∀ c ∈ s.coreNums, ∀ l ∈ (t.core c).l1,
            overlaps r.start r.len (256 * l.line) 256 = false) ∧
          (∀ r ∈ s.objRanges id o, ∀ e, e < 8 → ∀ m ∈ (t.die e).mirror,
            overlaps r.start r.len (256 * m.line) 256 = false) ∧
          (o.aged = true → (∀ r ∈ t.aged, r.obj ≠ id) ∧
            ∀ r ∈ s.aged, r.obj = id → ∀ n, r.holds (64 * n) = true → Tab.get 0 t.stamps n = 0))

/-- CPSET (R189, R190), CPGO (R191), CPRED (R194). A launch whose transfer id goes to a vector is performed where some lane
executes (log 114), and its checks are made under a failed guard too (log 20). -/
def Obligations.CopyLaunches : Prop :=
  ∀ s : State,
    let x := s.me
    let k := s.mine
    let sh := fun (r pos n : Nat) => bitsAt (Tab.get 0 x.shadow r).toNat pos n
    let esz := sh 9 20 4
    let bytes := sh 2 0 32 * sh 3 0 32 * sh 4 0 32 * 2 ^ esz
    let ctr := Tab.get 0 x.shadow 8
    (∀ f : CpsetF, Ready (.cpset f) s →
      let r := f.reg.toNat
      let mask : Word := if r = 2 ∨ r = 3 ∨ r = 4 then 0xFFFFFFFF else if r = 9 then 0x00F3FF07 else BitVec.allOnes 64
      (s.me.guardAt f.h 0 = false → Passes (.cpset f) s) ∧
      (s.me.guardAt f.h 0 = true → ∃ t, exec (.cpset f) s = .next t ∧ Went (.cpset f) s t (s.past (.cpset f))
        (fun x => { x with shadow := Tab.set 0 x.shadow r (BitVec.ofNat 64 (s.opImm s.cur f.a) &&& mask) }) id s)) ∧
    ∀ (i : Instr) (d : Option Opnd) (red : Option (Ty × Option (Nat × Nat))),
      ((∃ f : CpgoF, i = .cpgo f ∧ d = f.d ∧ red = none) ∨ (∃ f : CpredF, i = .cpred f ∧ d = f.d ∧ red = some (f.ty, none)) ∨
        ∃ f : CpredRF, i = .cpredRanked f ∧ d = f.d ∧ red = some (f.ty, some (f.rank.toNat, f.rmax.toNat))) →
      Ready i s →
      let room := s.entryFree s.cur false
      let tooBig := 8 < esz ∨ 2 ^ 40 < bytes
      let runs := match d with
        | none => s.me.guardAt i.hdr 0 = true
        | some o => s.lanes i.hdr o.isVec ≠ []
      let badTy := ∃ ty q, red = some (ty, q) ∧ 8 * 2 ^ esz ≠ ty.bits
      (room = false →
        exec i s = .next (((s.setCtx s.cur (x.setLen i)).modCtx s.cur (stallOn false s.cycle)).count s.curCore 1 1)) ∧
      (room = true → tooBig → TrapsAs i s (tEngineFault 1)) ∧
      (room = true → ¬tooBig → badTy → TrapsAs i s (tEngineFault 2)) ∧
      (room = true → ¬tooBig → ¬badTy → ctr.toNat % 8 ≠ 0 → TrapsAs i s (tAlign ctr 8)) ∧
      (room = true → ¬tooBig → ¬badTy → ctr.toNat % 8 = 0 →
        ∃ (t : State) (l : List WB), exec i s = .next t ∧ t.mem = s.mem ∧ t.flights = s.flights ∧
          (∀ p, p ≠ s.cur → t.ctx p = s.ctx p) ∧ (∀ c, c ≠ s.curCore → t.core c = s.core c) ∧
          (t.core s.curCore).wbs = k.wbs ++ l ∧
          l.map (fun w => w.sl) = (match d with
            | none => []
            | some d => [[s.lanesWrite i.hdr d (fun _ => fitBits .n64 d.bits k.xid)]]) ∧
          (¬runs → (t.core s.curCore).copies = k.copies ∧ (t.core s.curCore).xid = k.xid ∧
            (t.core s.curCore).statuses = k.statuses ∧ t.ctx s.cur = (s.past i).windowsOf (t.ctx s.cur)) ∧
          (runs → (t.core s.curCore).xid = (if k.xid = 0xFFFF then 1 else k.xid + 1) ∧
            (t.core s.curCore).statuses.head? = some ⟨k.xid, decide (bytes = 0), 0⟩ ∧
            (bytes = 0 → (t.core s.curCore).copies = k.copies ∧ t.ctx s.cur = (s.past i).windowsOf (t.ctx s.cur)) ∧
            (bytes ≠ 0 →
              let heavy := 2 ^ 20 < bytes
              (t.ctx s.cur = { (s.past i).windowsOf (t.ctx s.cur) with
                credits := if heavy ∧ x.credits ≠ 0 then x.credits - 1 else x.credits }) ∧
              ∃ m : CopyCmd, (t.core s.curCore).copies = k.copies ++ [m] ∧ m.xid = k.xid ∧ m.id = s.nextId ∧
                m.core = s.curCore ∧ m.ctx = s.curCtx ∧ m.uid = (k.task.map (fun a => a.uid)).getD 0 ∧
                m.asid = (k.task.map (fun a => a.asid)).getD 0 ∧ m.priv = x.priv ∧ m.src = Tab.get 0 x.shadow 0 ∧
                m.dst = Tab.get 0 x.shadow 1 ∧ m.len0 = sh 2 0 32 ∧ m.len1 = sh 3 0 32 ∧ m.len2 = sh 4 0 32 ∧
                m.ss0 = toInt true 32 (sh 5 0 32) ∧ m.ss1 = toInt true 32 (sh 6 0 32) ∧ m.ss2 = toInt true 32 (sh 7 0 32) ∧
                m.ds0 = toInt true 32 (sh 5 32 32) ∧ m.ds1 = toInt true 32 (sh 6 32 32) ∧
                m.ds2 = toInt true 32 (sh 7 32 32) ∧ m.counter = ctr ∧ m.esz = esz ∧ m.fe = bitAt (sh 9 0 1) 0 ∧
                m.red = red ∧ m.next = 0 ∧ m.started = false ∧ m.issued = false ∧ m.open_ = 0 ∧ m.fault = none ∧
                m.leave = (if heavy ∧ x.credits = 0 then .needed else .notNeeded) ∧
                m.allowance = (if heavy ∧ x.credits ≠ 0 then 3 else 0))))

/-- CPQ and CPQ.COUNT (R195). -/
def Obligations.CopyStatusReads : Prop :=
  ∀ s : State,
    let status := fun (xid : Nat) => match s.mine.statuses.find? (fun t => t.xid = xid) with
      | none => 0xF
      | some t =>
        if t.done = true then (if t.code = 0 then 0 else 3 + 16 * t.code)
        else if s.mine.copies.any (fun m => m.xid = xid && m.started) then 2 else 1
    (∀ f : CpqF, Ready (.cpq f) s → Writes (.cpq f) s
      [s.lanesWrite f.h f.d (fun l => fitBits .n64 f.d.bits (status (s.readOp s.cur f.x l % 65536)))] [] .none) ∧
    ∀ f : DstF, Ready (.cpqCount f) s →
      Writes (.cpqCount f) s [s.lanesWrite f.h f.d (fun _ => fitBits .n64 f.d.bits s.mine.copies.length)] [] .none

/-- MMCFG (R196), MMA and MMW (R197). The model's readings: a misaligned stride is reported as XADDR (log 41), a first row at or
beyond m takes a credit (log 61), and the checks are made under a failed guard too (log 20). -/
def Obligations.MatrixLaunches : Prop :=
  ∀ s : State,
    let x := s.me
    let k := s.mine
    let reg := fun (o : Opnd) => BitVec.ofNat 64 (s.u64 s.cur o)
    let off := fun (v n : Nat) => if v % n ≠ 0 then some (tAlign (BitVec.ofNat 64 v) n) else none
    (∀ f : MmcfgF, Ready (.mmcfg f) s →
      let i := Instr.mmcfg f
      let kk := s.u64 s.cur f.k
      let st := fun n => bitsAt (s.readOp s.cur f.s 0) (32 * n) 32
      let ctr := match f.ctr with
        | none => 0
        | some o => s.u64 s.cur o
      let cb := match f.fc with
        | none => 1
        | some c => c.bytes
      let badK := kk % f.fa.count ≠ 0 ∨ kk / f.fa.count < 1 ∨ 65536 < kk / f.fa.count
      let bad := [off (st 0) 64, off (st 1) 64, off (st 2) cb, off (st 3) f.fd.bytes, off ctr 8].findSome? id
      (badK → TrapsAs i s (tEngineFault 3)) ∧
      (∀ e, ¬badK → bad = some e → TrapsAs i s e) ∧
      (¬badK → bad = none →
        (s.me.guardAt f.h 0 = false → Passes i s) ∧
        (s.me.guardAt f.h 0 = true → ∃ t, exec i s = .next t ∧ Went i s t (s.past i) (fun x => { x with mm :=
          { k := kk, sa := st 0, sb := st 1, sc := st 2, sd := st 3, ctr := BitVec.ofNat 64 ctr, m := f.m1.toNat + 1
            n := f.n1.toNat + 1, fa := f.fa, fb := f.fb, fc := f.fc, fd := f.fd, mask := f.mask } }) id s))) ∧
    ∀ (i : Instr) (h : Hdr) (a b : Opnd) (c : Option Opnd) (d : Opnd) (row : Nat) (waits : Bool),
      ((∃ f : MmaF, h = f.h ∧ a = f.a ∧ b = f.b ∧ c = f.c ∧ d = f.d ∧ row = f.row.toNat ∧
          ((i = .mma f ∧ waits = false) ∨ (i = .mmw f ∧ waits = true))) ∨
        ∃ f : MmaRpF, h = f.h ∧ a = f.a ∧ b = f.b ∧ c = f.c ∧ d = f.d ∧ row = k.rpr.toNat ∧
          ((i = .mmaRp f ∧ waits = false) ∨ (i = .mmwRp f ∧ waits = true))) →
      Ready i s →
      let room := s.entryFree s.cur true
      let cv := match c with
        | none => 0
        | some o => reg o
      let cb := match x.mm.fc with
        | none => 1
        | some e => e.bytes
      let at_ := fun (v : Word) (n : Nat) => if v.toNat % n ≠ 0 then some (tAlign v n) else none
      let bad := [at_ (reg a) 64, at_ (reg b) 64, at_ cv cb, at_ (reg d) x.mm.fd.bytes].findSome? id
      (room = false →
        exec i s = .next (((s.setCtx s.cur (x.setLen i)).modCtx s.cur (stallOn true s.cycle)).count s.curCore 1 1)) ∧
      (room = true → c.isSome ≠ x.mm.fc.isSome → TrapsAs i s (tEngineFault 4)) ∧
      (∀ e, room = true → c.isSome = x.mm.fc.isSome → bad = some e → TrapsAs i s e) ∧
      (room = true → c.isSome = x.mm.fc.isSome → bad = none →
        (s.me.guardAt h 0 = false → Passes i s) ∧
        (s.me.guardAt h 0 = true → x.mm.m ≤ row → ∃ t, exec i s = .next t ∧ t.mem = s.mem ∧
          (t.core s.curCore).mats = k.mats ∧
          t.ctx s.cur = { s.past i with credits := x.credits - 1 } ∧ ∀ p, p ≠ s.cur → t.ctx p = s.ctx p) ∧
        (s.me.guardAt h 0 = true → row < x.mm.m → (waits = true → s.pendingFor s.cur = false) →
          ∃ t, exec i s = .next t ∧ t.mem = s.mem ∧ (∀ p, p ≠ s.cur → t.ctx p = s.ctx p) ∧
            (waits = false → t.ctx s.cur = { s.past i with credits := x.credits - 1 }) ∧
            (waits = true → t.ctx s.cur =
              { s.asleepIn i (.mmw s.nextId) with credits := x.credits - 1, stalled := none }) ∧
            ∃ m : MatCmd, (t.core s.curCore).mats = k.mats ++ [m] ∧ m.id = s.nextId ∧ m.core = s.curCore ∧
              m.ctx = s.curCtx ∧ m.uid = (k.task.map (fun a => a.uid)).getD 0 ∧
              m.asid = (k.task.map (fun a => a.asid)).getD 0 ∧ m.priv = x.priv ∧ m.a = reg a ∧ m.b = reg b ∧ m.c = cv ∧
              m.d = reg d ∧ m.cfg = x.mm ∧ m.first = row ∧ m.row = row ∧ m.wait = waits ∧ m.begun = false ∧
              m.fault = none ∧ m.leave = (if x.credits = 0 then .needed else .notNeeded) ∧
              m.allowance = (if x.credits = 0 then 0 else 10)))

/-- MMRP (R199). -/
def Obligations.NextRowReads : Prop :=
  (∀ (f : DstF) (s : State), Ready (.mmrp f) s →
    let i := Instr.mmrp f
    let live := ∃ m ∈ s.mine.mats, m.ctx = s.curCtx
    let runs := s.lanes f.h f.d.isVec ≠ []
    (¬runs → Writes i s [] [] .none) ∧
    (runs → ¬live →
      Writes i s [s.lanesWrite f.h f.d (fun _ => fitBits .n64 f.d.bits s.mine.rpr.toNat)] [] .none) ∧
    (runs → live → s.pendingFor s.cur = false → ∃ t, exec i s = .next t ∧
      Produced i s t (s.asleepIn i .mmrp) (s.wbOf i s.nextId true [s.lanesWrite f.h f.d (fun _ => 0)] [] .none)
        id id s.fresh)) ∧
  ∀ (s : State) (p since : Nat) (ws : List WB) (w : WB), (s.ctx p).run = .asleep .mmrp since →
    (∀ m ∈ (s.core (p / 16)).mats, m.ctx ≠ p % 16) → (s.core (p / 16)).wbs = ws ++ [w] → w.ctx = p →
    (∀ v ∈ ws, v.id ≠ w.id) →
    let t := s.drainOne p
    (t.ctx p).run = .awake ∧ (t.ctx p).pc = (s.ctx p).pc + BitVec.ofNat 64 (lenBytes (s.ctx p).ilen) ∧
    (∀ q, q ≠ p → t.ctx q = s.ctx q) ∧
    ∃ n, (t.core (p / 16)).wbs = ws ++ [{ w with
      missing := false, due := s.cycle + 1 + n, pr := [], flags := .none
      sl := w.sl.map (fun y =>
        { y with vals := y.vals.map (fun v => (v.1, (s.core (p / 16)).rpr.toNat % 2 ^ (4 * y.width))) }) }]

/-- PRENT (R200), PRRES (R201), PRREL (R202) and LEAVE (R203, R204). The model's readings: PRENT, PRRES and PRREL make their
checks whatever the guard (log 20), and PRRES gives the latch's HELD bit as it was latched (log 89). -/
def Obligations.PrismAndLeaveRequests : Prop :=
  ∀ s : State,
    let uid := (s.mine.task.map (fun t => t.uid)).getD 0
    let may := fun (c : Nat) => match s.mine.task with
      | none => false
      | some t => c ≠ 15 && (if c = 14 then t.region = 0 else bitAt t.eff.grant.toNat c)
    (∀ (f : PrentF) (i : Instr) (hold : Bool), (i = .prentOnce f ∧ hold = false) ∨ (i = .prentHold f ∧ hold = true) →
      Ready i s →
      let c := f.c.toNat
      (may c = false → TrapsAs i s (tProt 0 7)) ∧
      (may c = true → s.me.guardAt f.h 0 = false → Writes i s [] [] .none) ∧
      (may c = true → s.me.guardAt f.h 0 = true → s.pendingFor s.cur = false → ∃ t, exec i s = .next t ∧
        Produced i s t (s.asleepIn i (.prent (s.nextId + 1)))
          (s.wbOf i s.nextId true [⟨f.d.file, f.d.start.toNat, f.d.width, [(0, 0)]⟩] [] .none) id id
          { s.setContest c { s.contest c with entries := (s.contest c).entries ++
            [{ id := s.nextId + 1, die := coreDie s.curCore, core := s.curCore, ctx := s.curCtx
               key := BitVec.ofNat 32 (s.opImm s.cur f.key), hold := hold, gov := false, uid := uid, wb := s.nextId
               pw := f.pw, sentAt := s.planeCycle, regAt := none, withdraw := none, nextPc := s.pcAfter i
               region := (s.mine.task.map (fun t => t.region)).getD 0 }] } with
            nextId := s.nextId + 2 })) ∧
    (∀ f : PrresF, Ready (.prres f) s →
      (may f.c.toNat = false → TrapsAs (.prres f) s (tProt 0 7)) ∧
      (may f.c.toNat = true → Writes (.prres f) s
        [s.lanesWrite f.h f.d (fun _ => fitBits .n64 f.d.bits (s.contest f.c.toNat).latched.toNat)] [] .none)) ∧
    (∀ f : PrrelF, Ready (.prrel f) s →
      let c := f.c.toNat
      let mine := ∃ h, (s.contest c).holder = some h ∧ h.uid = uid
      let free := s.settled 0xFF .pkg
      (¬mine → TrapsAs (.prrel f) s (tPrismOwner c)) ∧
      (mine → s.me.guardAt f.h 0 = false → Passes (.prrel f) s) ∧
      (s.me.guardAt f.h 0 = true → mine → ¬free → Forfeits (.prrel f) s) ∧
      (s.me.guardAt f.h 0 = true → mine → free → ∃ t, exec (.prrel f) s = .next t ∧
        Went (.prrel f) s t (s.past (.prrel f)) id id (s.setContest c { s.contest c with holder := none }))) ∧
    ∀ f : OneF 8, Ready (.leave f) s →
      let n := s.opImm s.cur f.v % 256
      let d := coreDie s.curCore
      (s.me.guardAt f.h 0 = false ∨ n = 0 → Passes (.leave f) s) ∧
      (s.me.guardAt f.h 0 = true → n ≠ 0 → s.pendingFor s.cur = false → ∃ t, exec (.leave f) s = .next t ∧
        Went (.leave f) s t (s.asleepIn (.leave f) (.leave s.nextId)) id id
          { s.setDie d { s.die d with reqs := (s.die d).reqs ++
            [{ id := s.nextId, who := .leave s.curCore s.curCtx n, cost := 10 * n
               prio := (s.mine.task.map (fun t => t.eff.prio)).getD 0, withdraw := none }] } with
            nextId := s.nextId + 1 })

/-- FIXED_WRITEBACK and LONG_WRITEBACK (R12, R25, R30). That a register error goes with the octet's contents is log 107's reading. -/
def Obligations.WritebacksLand : Prop :=
  ∀ (s : State) (c id : Nat) (long : Bool) (w : WB), (s.core c).wbs.find? (fun v => v.id = id) = some w → w.ctx / 16 = c →
    let i := if long = true then Instr.longWriteback c id else Instr.fixedWriteback c id
    (w.long ≠ long ∨ w.missing = true ∨ s.cycle < w.due → exec i s = .next s) ∧
    (w.long = long → w.missing = false → w.due ≤ s.cycle →
      ∃ v : State, exec i s = .next (v.wakeOctets c) ∧
        (v.core c).wbs = (s.core c).wbs.filter (fun u => u.id ≠ id) ∧
        (v.ctx w.ctx).flags = (s.ctx w.ctx).flags.or w.flags ∧
        (∀ n, (v.ctx w.ctx).pred n = (w.pr.filter (fun q => q.n = n)).foldl
          (fun old q => (old &&& ~~~q.mask) ||| (q.val &&& q.mask)) ((s.ctx w.ctx).pred n)) ∧
        (∀ a x b l y, w.sl = a ++ x :: b → x.vals.lookup l = some y → (x.vals.map (fun e => e.1)).Nodup →
          x.start + x.width ≤ 2048 →
          (∀ z ∈ b, z.file = x.file → z.start + z.width ≤ 2048 ∧
            ((∀ e ∈ z.vals, e.1 ≠ l) ∨ overlaps z.start z.width x.start x.width = false)) →
          (v.window w.ctx x.file).read l x.start x.width = y % 2 ^ (4 * x.width)) ∧
        (∀ f l a n, a + n ≤ 2048 →
          (∀ x ∈ w.sl, x.file = f → x.start + x.width ≤ 2048 ∧
            ((∀ e ∈ x.vals, e.1 ≠ l) ∨ overlaps x.start x.width a n = false)) →
          (v.window w.ctx f).read l a n = (s.window w.ctx f).read l a n) ∧
        (∀ f o, o < 256 → (∀ y ∈ w.octs, y.2 < 256) →
          v.octetEmpty w.ctx (f, o) = (s.octetEmpty w.ctx (f, o) && !(long && w.octs.contains (f, o)))) ∧
        (∀ q, q ≠ w.ctx → v.ctx q = s.ctx q) ∧ (∀ k, k ≠ c → v.core k = s.core k) ∧
        { v with ctxs := s.ctxs, cores := s.cores, ueRegs := s.ueRegs } = s ∧
        (∀ q, Tab.get false v.ueRegs q =
          (Tab.get false s.ueRegs q && !(w.sl.flatMap SlWrite.wholeOctets).any (fun o => regKey w.ctx o = q))) ∧
        ∀ k ∈ ctxNums, ∀ n,
          (∀ l, (v.ctx (ctxId c k)).run = .asleep (.octets l) n → (∀ o ∈ l, v.octetEmpty (ctxId c k) o = false) →
            ((v.wakeOctets c).ctx (ctxId c k)).run = .awake) ∧
          ((v.ctx (ctxId c k)).run = .asleep (.landing id) n → ((v.wakeOctets c).ctx (ctxId c k)).run = .awake))

/-- YIELD_EXPIRY (R171) and WAIT_LIMIT_EXPIRY (R28, R381). Which sleeps trap at once and which send a withdrawal is log 81's
reading, and XINFO of a WLIM of 0 log 102's. -/
def Obligations.WaitsEnd : Prop :=
  ∀ (s : State) (c k : Nat),
    let p := ctxId c k
    let x := s.ctx p
    (∀ at_ since, x.run = .asleep (.yield at_) since →
      (s.cycle < at_ → exec (.yieldExpiry c k) s = .next s) ∧
      (at_ ≤ s.cycle → exec (.yieldExpiry c k) s =
        .next (s.setCtx p { x with run := .awake, joinAt := s.cycle + 1 }))) ∧
    ∀ w since, x.run = .asleep w since →
      let met := since + max x.wlim.toNat 1 ≤ s.cycle
      let open_ := (∃ l, w = .octets l ∧ ∃ o ∈ l, s.octetEmpty p o = true) ∨
        (∃ m, w = .join m ∧ s.joined (p / 16) (p % 16) m = false) ∨ (w = .helpers ∧ s.helpersFree (p / 16) = false)
      (¬met → exec (.waitLimitExpiry c k) s = .next s) ∧
      (met → open_ → exec (.waitLimitExpiry c k) s = .next (s.raise p (tWaitLimit x.wlim))) ∧
      (∀ id f, met → w = .flight id → s.flight id = some f → f.withdraw = none →
        ∃ t : State, exec (.waitLimitExpiry c k) s = .next t ∧ t.flight id = some { f with withdraw := some .limit } ∧
          (∀ n, n ≠ id → t.flight n = s.flight n) ∧ { t with flights := s.flights } = s) ∧
      (∀ id e n, met → w = .prent id → e ∈ s.contests.map (fun y => y.1) → n ∈ (s.contest e).entries → n.id = id →
        n.withdraw = none → ∃ t : State, exec (.waitLimitExpiry c k) s = .next t ∧
          { n with withdraw := some .limit } ∈ (t.contest e).entries ∧ { t with contests := s.contests } = s ∧
          ∀ y, t.contest y = { s.contest y with entries := (s.contest y).entries.map (fun m =>
            if m.id = id then { m with withdraw := some (m.withdraw.getD .limit) } else m) }) ∧
      (∀ id r, met → w = .leave id → r ∈ (s.die (coreDie (p / 16))).reqs → r.id = id → r.withdraw = none →
        let d := coreDie (p / 16)
        exec (.waitLimitExpiry c k) s = .next (s.setDie d { s.die d with reqs := (s.die d).reqs.map (fun m =>
          if m.id = id then { m with withdraw := some (m.withdraw.getD .limit) } else m) })) ∧
      (met → ¬open_ → (∀ id, w ≠ .flight id ∧ w ≠ .prent id ∧ w ≠ .leave id) → exec (.waitLimitExpiry c k) s = .next s)

/-- FETCH_BLOCK_READ (R61) and TABLE_WALK (R330 to R335). L0 keeps a block until an IFLUSH or a start: the model's choice
(log 110); a context keeps a walk's result till it leaves its instruction (log 123); a read
ahead of need is sent only to a slice that takes it (log 39). -/
def Obligations.BlocksAndWalks : Prop :=
  ∀ s : State,
    (∀ (c k : Nat) (a : Word), k < 16 →
      let p := ctxId c k
      let va := BitVec.ofNat 64 (a.toNat / 32 * 32)
      let reached := (s.ctx p).run = .awake ∧ BitVec.ofNat 64 ((s.ctx p).pc.toNat / 32 * 32) = va
      (∀ e, s.fetchPlace p va = .error e → exec (.fetchBlockRead c k a) s = .next s) ∧
      ∀ pl, s.fetchPlace p va = .ok pl →
        ((∃ n ∈ keysOf pl.key 32, s.badSector (n / 64) ≠ none) → ¬reached → exec (.fetchBlockRead c k a) s = .next s) ∧
        let ask := s.askBlock p va pl (decide reached)
        (ask.1 = false → (¬reached → exec (.fetchBlockRead c k a) s = .next s) ∧
          (reached → exec (.fetchBlockRead c k a) s = .next ask.2)) ∧
        (∀ n, ask.1 = true → reached → s.badBytes (keysOf pl.key 32) = some n →
          exec (.fetchBlockRead c k a) s = .next (ask.2.consumeBad n c (s.badKey (keysOf pl.key 32)) va.toNat)) ∧
        (ask.1 = true → (∀ n ∈ keysOf pl.key 32, s.badSector (n / 64) = none) →
          ∃ t : State, exec (.fetchBlockRead c k a) s = .next t ∧ s.Untouched t ∧
            (∀ n, n ≠ c → t.core n = s.core n) ∧ (∀ q, q ≠ p → t.ctx q = s.ctx q) ∧
            (reached → t.ctx p =
              { s.ctx p with fetch := some ⟨pl.key, s.bytes pl.key 32⟩, fhold := some (va, pl.key, .none) }) ∧
            (¬reached → t.ctx p = s.ctx p) ∧
            t.core c = { s.core c with
              tlb := (t.core c).tlb
              l0 := ⟨pl.key, s.bytes pl.key 32⟩ :: (s.core c).l0.filter (fun y => y.key ≠ pl.key) })) ∧
    ∀ (d asid : Nat) (va : Word),
      let page := va.toNat / 65536
      ((∀ w ∈ (s.die d).walks, w.asid ≠ asid ∨ w.page ≠ page) → (s.die d).walks.length < 128 →
        exec (.tableWalk d asid va) s = .next { s.setDie d { s.die d with
          walks := (s.die d).walks ++ [⟨s.nextId, asid, page, none, [], .none⟩] } with nextId := s.nextId + 1 }) ∧
      ∀ w, (s.die d).walks.find? (fun x => x.asid = asid && x.page = page) = some w →
        let here := BitVec.ofNat 64 (w.page * 65536)
        let found := match w.next with
          | none => s.walkRoot d asid here
          | some (level, tbl) => s.walkEntry asid here level tbl
        let told := fun (t : State) (q : Walker) (r : WalkRes) => match q with
          | .ctx _ => True
          | .copy c i => ∀ m ∈ (t.core c).copies, m.id = i → r ∈ m.xl
          | .mat c i => ∀ m ∈ (t.core c).mats, m.id = i → r ∈ m.xl
          | .ctr i => ∀ u ∈ t.ctrUps, u.id = i → r ∈ u.xl
        let enter := s.enterSlices (.walk d w.id) (walkPort d) (s.walkSlices d w)
        (s.mayWalk d w = false → exec (.tableWalk d asid va) s = .next s) ∧
        (s.mayWalk d w = true → enter.1 = false → exec (.tableWalk d asid va) s = .next enter.2) ∧
        (s.mayWalk d w = true → enter.1 = true → ∃ t : State, exec (.tableWalk d asid va) s = .next t ∧ s.Untouched t ∧
          (∀ level tbl, found = .next level tbl →
            (t.die d).walks = (s.die d).walks.map (fun x => if x.id = w.id then { x with next := some (level, tbl), hold := .none } else x) ∧
            (t.die d).tlb = (s.die d).tlb ∧ t.ctxs = s.ctxs) ∧
          (∀ e, found = .leaf e → e ∈ (t.die d).tlb ∧
            (∀ x ∈ (t.die d).walks, x ∈ (s.die d).walks ∧
              (x.asid = asid → e.serves asid (BitVec.ofNat 64 (x.page * 65536)) = false)) ∧
            ∀ x ∈ (s.die d).walks, x.asid = asid → e.serves asid (BitVec.ofNat 64 (x.page * 65536)) = true →
              (∀ q ∈ x.waiters, told t q ⟨asid, x.page, some e, 0, 0⟩) ∧
              ((∀ y ∈ (s.die d).walks, y.id = x.id → y = x) → ∀ p, Walker.ctx p ∈ x.waiters → (s.ctx p).walking = some x.id →
                (t.ctx p).xl = ⟨asid, x.page, some e, 0, 0⟩ :: (s.ctx p).xl ∧ (t.ctx p).walking = none)) ∧
          ∀ e, found = .fail e → (t.die d).walks = (s.die d).walks.filter (fun x => x.id ≠ w.id) ∧
            (t.die d).tlb = (s.die d).tlb ∧ (∀ q ∈ w.waiters, told t q ⟨asid, w.page, none, e.level, e.cause⟩) ∧
            ∀ p, Walker.ctx p ∈ w.waiters → (s.ctx p).walking = some w.id →
              (t.ctx p).xl = ⟨asid, w.page, none, e.level, e.cause⟩ :: (s.ctx p).xl ∧ (t.ctx p).walking = none)

/-- HOME_READ and HOST_READ_COMPLETION (R209, R217, R222, R224, R232 to R234). The model's readings: accesses to one line
perform as one event (log 22); a load looks into L1 and reads the line past it in that event, its fill in flight from then on, and no
fill is asked for while a store of the core to the line is queued (log 127); a no-allocate hint allocates nothing in L1 (log 45). -/
def Obligations.ReadsPerformAtTheirHomes : Prop :=
  ∀ (s : State) (id n : Nat) (f : Flight) (p : Part), s.flight id = some f → f.part n = some p → p.done = false →
    s.mayRead f p = true → isWatch f.op = false → s.reaches f p.key = true →
    let i := if isHost p.key = true then Instr.hostReadCompletion id n else Instr.homeRead id n
    let line := p.key / 256
    let cached := fun (d : BitVec 2048) (q : Part) => d.toNat / 2 ^ (8 * (q.key % 256)) % 2 ^ (8 * q.len)
    let mate := fun (q : Part) => q.done = false ∧ q.key / 256 = line ∧ s.ready f q = true ∧ s.forward f q = .clear
    let l1 := (s.core f.core).l1.find? (fun l => l.line = line)
    let copy := (s.die (coreDie f.core)).mirror.find? (fun m => m.line = line && m.gen = (s.die (coreDie f.core)).gen)
    let inL1 := p.mayL1 = true ∧ l1.isSome = true
    let inMirror := ¬inL1 ∧ p.mayMirror = true ∧ copy.isSome = true
    let held := ∃ h ∈ s.flights, h.core = f.core ∧ h.isStore = true ∧ ∃ q ∈ h.parts, q.done = false ∧ q.key / 256 = line
    let same := fun (v : State) => v.ctxs = s.ctxs ∧ v.mem = s.mem ∧ v.emptyTags = s.emptyTags ∧
      ∀ k, k ≠ id → v.flight k = s.flight k
    let took := fun (v : State) (on : Part → Prop) (w : Part → Nat) => ∃ h : Flight, v.flight id = some h ∧
      { h with parts := f.parts }.plain = f.plain ∧ h.parts.length = f.parts.length ∧
      ∀ (j : Nat) (q : Part), f.parts[j]? = some q → (on q → h.parts[j]? = some { q with done := true, res := w q }) ∧
        (¬on q → h.parts[j]? = some q)
    (∀ x, s.forward f p = .value x → (∀ g ∈ s.flights, g.id ∉ s.ueCmds) → ∃ v : State, exec i s = .next v.settle ∧ same v ∧
      took v (fun q => q.done = false ∧ q.key = p.key) (fun _ => x)) ∧
    (isHost p.key = false → s.forward f p = .clear →
      (∀ l, inL1 → l1 = some l → ∃ v : State, exec i s = .next v.settle ∧ same v ∧ took v mate (cached l.data) ∧
        (v.core f.core).l1 = l :: (s.core f.core).l1.filter (fun y => y.line ≠ line)) ∧
      (∀ m, inMirror → copy = some m → (∀ ks, m.badAt s.cycle ks = none) →
        ∃ v : State, exec i s = .next v.settle ∧ same v ∧ took v mate (cached m.data)) ∧
      (¬inL1 → ¬inMirror → (∀ k, s.partSlice f p = some k → s.room k (.part id n)) → (∀ k, s.badSector k = none) →
        ∃ v : State, exec i s = .next v.settle ∧ same v ∧
          took v mate (if p.allocs = true ∨ p.mayMirror = true then cached (s.line line) else fun q => s.word q.key q.len) ∧
          (p.allocs = true → ¬held →
            ∃ a ∈ (v.core f.core).fills, a.line = line ∧ a.data = s.line line ∧ a.flagged = p.flagged ∧ a.cancelled = false) ∧
          (p.allocs = false ∨ held → (v.core f.core).fills = (s.core f.core).fills))) ∧
    (isHost p.key = true → s.forward f p = .clear →
      ∃ v : State, exec i s = .next v.settle ∧ v.ctxs = s.ctxs ∧ v.emptyTags = s.emptyTags ∧
        took v mate (fun q => v.word q.key q.len) ∧ (∀ k, k ≠ id → v.flight k = s.flight k) ∧
        ∀ k, (∀ q ∈ f.parts, mate q → k < q.key ∨ q.key + q.len ≤ k) → v.byte k = s.byte k)

/-- HOME_WRITE (R140, R141, R149, R217) and ZERO_LENGTH_READ_DONE (R240, R306). The model's readings: stores to one line are one
event (log 22), a SCAT whose block names another readable format by then takes that one (log 44), FTZ flushes SCAT's
source and element and a block that is NaN already sets no flag (log 130), and a host store is visible
below SYS when it is posted (log 99). The link numbers are log 8's. -/
def Obligations.WritesPerformAtTheirHomes : Prop :=
  ∀ s : State,
    (∀ (id n : Nat) (f : Flight) (p : Part), s.flight id = some f → f.part n = some p → p.done = false →
      s.mayWrite f n p = true →
      (id ∈ s.ueCmds → exec (.homeWrite id n) s = .next
        (State.discardFor { s with ueCmds := s.ueCmds.filter (fun x => x ≠ id) } 1 (coreDie f.core) 0xFF f.region f.asid
          scratchBase 0 f.fdom).settle) ∧ (
      id ∉ s.ueCmds → s.reaches f p.key = true → (∀ k, s.badSector k = none) →
      (∀ k, s.partSlice f p = some k → s.room k (.part id n)) →
      let mate := fun (q : Part) => q.done = false ∧ q.key / 256 = p.key / 256 ∧ s.ready f q = true
      let bs := (f.parts.filter (fun q => !q.done && q.key / 256 = p.key / 256 && s.ready f q)).flatMap (fun q => q.bytes)
      (f.op = .store → ∃ v : State, exec (.homeWrite id n) s = .next v.settle ∧ v.ctxs = s.ctxs ∧
        v.emptyTags = s.emptyTags ∧ (∀ x, v.storedCheck x = v.checkValue x) ∧
        (∀ k, (∀ e ∈ bs, e.1 ≠ k) → v.byte k = s.byte k) ∧
        (∀ l r k b, bs = l ++ (k, b) :: r → (∀ e ∈ r, e.1 ≠ k) → v.byte k = b) ∧
        ∃ h : Flight, v.flight id = some h ∧ h.hostPend = (f.hostPend || isHost p.key) ∧
          ∀ (j : Nat) (q : Part), f.parts[j]? = some q → (mate q → h.parts[j]? = some { q with done := true, res := 0 }) ∧
            (¬mate q → h.parts[j]? = some q)) ∧
      (∀ full, f.op = .femark full →
        let marked := s.setFlight (f.setPart n { p with a := p.a + 1, done := decide (p.len ≤ 16 * (p.a + 1)) })
        exec (.homeWrite id n) s = .next (if full = true then marked.fillGranule (granule p.key + p.a)
          else { marked with emptyTags := Tab.set false s.emptyTags (granule p.key + p.a) true }).settle) ∧
      (∀ ty rnd z, f.op = .scat ty rnd z → p.key % 64 = 0 →
        ∃ v : State, exec (.homeWrite id n) s = .next v.settle ∧ v.emptyTags = s.emptyTags ∧
          (v.flight id).map Flight.plain = some (f.setPart n { p with done := true }).plain ∧
          (∀ k, k < p.key ∨ p.key + 64 ≤ k → v.byte k = s.byte k) ∧
          (scatBlock ty rnd z p (s.word p.key 64) = none → v.mem = s.mem ∧ v.ctxs = s.ctxs) ∧
          ∀ r, scatBlock ty rnd z p (s.word p.key 64) = some r →
            (∀ j, j < 64 → v.byte (p.key + j) = BitVec.ofNat 8 (blkByte r.blk j)) ∧
            let q := ctxId f.core f.ctx
            let lives := (s.owner f.core).1 = f.uid ∧ (s.core f.core).task.isSome = true ∧ (s.ctx q).run ≠ .free
            (lives → v.ctx q = { s.ctx q with flags := (s.ctx q).flags.or r.fl }) ∧ (¬lives → v.ctx q = s.ctx q) ∧
            ∀ c, c ≠ q → v.ctx c = s.ctx c))) ∧
    ∀ port,
      let down := s.linkDown (if port = 0 then 10 else 11) = true
      (down → exec (.zeroLengthReadDone port) s = .next s) ∧
      (¬down → ∃ v : State, exec (.zeroLengthReadDone port) s = .next (if port = 0 then v.settle else v) ∧ v.mem = s.mem ∧
        ((∀ c, (s.core c).packets = []) → v.ctrUps = s.ctrUps) ∧
        (∀ f ∈ v.flights, port = 0 → f.allDone = true → f.hostPend = false) ∧
        ∀ c k m, c ∈ s.coreNums → (s.core c).packets = [k] → (∀ d, d ≠ c → (s.core d).packets = []) →
          s.copy c k.cmd = some m → m.core = c → k.stage = .hostPosted → (isHost k.dstKey = true ↔ port = 0) →
          (v.core c).packets = [] ∧ (m.counter ≠ 0 →
            ∃ u, v.ctrUps = s.ctrUps ++ [u] ∧ u.va = m.counter ∧ u.act = .add 1 ∧ u.asid = m.asid))

/-- ATOMIC_POINT_EVENT (R155, R156, R282), HOST_ATOMIC_COMPLETION (R285) and COUNTER_UPDATE (R161, R275, R279). That lanes on one word
are an event each is log 131's reading; what becomes of the other lanes of a refused host atomic is log 124's. -/
def Obligations.AtomicPointsAndCounters : Prop :=
  ∀ s : State,
    let rule := fun (op : AtOp) (ty : Ty) (w a b : Nat) =>
      let W := ty.bits
      match op with
      | .add => (w + a) % 2 ^ W
      | .min => if toInt ty.isSigned W a < toInt ty.isSigned W w then a else w
      | .max => if toInt ty.isSigned W w < toInt ty.isSigned W a then a else w
      | .and => w &&& a
      | .or => w ||| a
      | .xor => w ^^^ a
      | .xch => a
      | .cas => if w = a then b else w
      | .fadd => (fpAdd Ty.f32.fp .rne false (decodeFp Ty.f32.fp w) (decodeFp Ty.f32.fp a)).bits
      | .inc => if a ≤ w then 0 else w + 1
      | .dec => if w = 0 ∨ a < w then a else w - 1
    let counted := fun (act : CtrAct) (w : Nat) => match act with
      | .add n => w / 2 ^ 56 * 2 ^ 56 + (w + n) % 2 ^ 56
      | .err c => if w / 2 ^ 63 % 2 = 1 then w else w % 2 ^ 56 + (128 + c % 128) * 2 ^ 56
    let outside := fun (v : State) (k n : Nat) => ∀ j, j < k ∨ k + n ≤ j → v.byte j = s.byte j
    let room := fun (f : Flight) (n : Nat) (p : Part) => ∀ k, s.partSlice f p = some k → s.room k (.part f.id n)
    (∀ (id n : Nat) (f : Flight) (p : Part) (op : AtOp) (ty : Ty), s.flight id = some f → f.part n = some p →
      p.done = false → f.op = .atom op ty → isHost p.key = false →
      ((∃ q ∈ f.parts.take n, q.done = false ∧ q.key = p.key) → exec (.atomicPointEvent id n) s = .next s.settle) ∧
      ((∀ q ∈ f.parts.take n, q.done = true ∨ q.key ≠ p.key) → id ∉ s.ueCmds → sent f p = true → s.ready f p = true →
        room f n p → s.reaches f p.key = true → (∀ k, s.badSector k = none) →
        ∃ v : State, exec (.atomicPointEvent id n) s = .next v.settle ∧ v.ctxs = s.ctxs ∧ outside v p.key p.len ∧
          v.word p.key p.len = rule op ty (s.word p.key p.len) p.a p.b % 2 ^ (8 * p.len) ∧
          (v.flight id).map Flight.plain =
            some (f.setPart n { p with done := true, res := s.word p.key p.len }).plain)) ∧
    (∀ (id n : Nat) (f : Flight) (p : Part) (op : AtOp) (ty : Ty), s.flight id = some f → f.part n = some p →
      p.done = false → f.op = .atom op ty → isHost p.key = true → f.hostTurn n = true → s.ready f p = true →
      id ∉ s.ueCmds →
      (∀ old : Word, ∃ v : State, exec (.hostAtomicCompletion id n (.success old)) s = .next v.settle ∧ v.ctxs = s.ctxs ∧
        outside v p.key p.len ∧
        v.word p.key p.len = rule op ty (old.toNat % 2 ^ ty.bits) p.a p.b % 2 ^ (8 * p.len) ∧
        v.flight id = some (f.setPart n { p with done := true, res := old.toNat % 2 ^ ty.bits })) ∧
      ∀ st, st = .unsupported ∨ st = .abort →
        exec (.hostAtomicCompletion id n st) s = .next (s.trapLeaving f (tProt p.va 5)
          (f.parts.filter (fun q => !isHost q.key && sent f q && s.ready f q))).settle) ∧
    (∀ (id : Nat) (f : Flight) (p : Part) (err : Bool), (∀ u ∈ s.ctrUps, u.id ≠ id) → s.flight id = some f →
      f.parts = [p] → p.done = false → f.op = .cntadd err → id ∉ s.ueCmds → sent f p = true → s.ready f p = true → room f 0 p →
      s.reaches f p.key = true → (∀ k, s.badSector k = none) →
      ∃ v : State, exec (.counterUpdate id) s = .next v.settle ∧ v.ctxs = s.ctxs ∧ outside v p.key 8 ∧
        v.word p.key 8 = counted (if err = true then .err p.a else .add p.a) (s.word p.key 8) ∧
        (v.flight id).map Flight.plain = some (f.setPart 0 { p with done := true }).plain) ∧
    ∀ (u : CtrUp) (pl : Place), s.ctrUps.find? (fun x => x.id = u.id) = some u → s.mayUpdate u = true →
      s.ctrPlace u = .ok pl → (∀ k ∈ s.pieceSlices u.asid [⟨u.va, pl.key, 8⟩], s.room k (.update u.id)) →
      s.maySend u.hold u.port (.update u.id) (s.pieceSlices u.asid [⟨u.va, pl.key, 8⟩]) = true →
      (∀ k, s.badSector k = none) →
      ∃ v : State, exec (.counterUpdate u.id) s = .next (v.ctrAfter u).settle ∧ outside v pl.key 8 ∧
        v.word pl.key 8 = counted u.act (s.word pl.key 8) ∧ v.ctrUps = s.ctrUps.filter (fun x => x.id ≠ u.id)

/-- WATCH_REREAD, WATCH_WITHDRAWAL (R160, R163, R276 to R278), LDF_AT_SCRATCHPAD, LDF_RESEND, STF_AT_SCRATCHPAD and
GRANULE_WITHDRAWAL (R147, R148, R270 to R273). -/
def Obligations.WatchesAndGranules : Prop :=
  (∀ (s : State) (g : Nat),
    let waits := s.flights.filter (fun f =>
      f.parked.isSome && !f.allDone && isLdf f.op && f.parts.any (fun p => granule p.key = g))
    let t := s.fillGranule g
    (∀ k, s.badSector k = none) → (s.flights.map (fun f => f.id)).Nodup → (waits.map (fun f => f.parked)).Nodup →
    (∀ f ∈ waits, ∃ p, f.parts = [p] ∧ s.reaches f p.key = true) →
    { t with flights := s.flights, emptyTags := s.emptyTags } = s ∧
    (∀ h, h ≠ g → t.tagFull (16 * h) = s.tagFull (16 * h)) ∧
    (t.tagFull (16 * g) = true ↔ ∀ f ∈ waits, f.op ≠ .ldf true) ∧
    (∀ f ∈ s.flights, f ∉ waits → t.flight f.id = some f) ∧
    ∀ f ∈ waits, ∀ p, f.parts = [p] →
      let taken := ∃ h ∈ waits, h.op = .ldf true ∧ h.parked.getD 0 < f.parked.getD 0
      (taken → t.flight f.id = some f) ∧
      (¬taken → t.flight f.id = some { f with
        resendAt := none, parts := [{ p with done := true, res := s.word p.key p.len }] })) ∧
  ∀ (s : State) (id : Nat) (f : Flight) (p : Part), s.flight id = some f → f.parts = [p] → p.done = false →
    (∀ k, s.badSector k = none) →
    let waiting := fun (kind : FlOp → Bool) => (s.flights.filter (fun g => kind g.op && g.parked.isSome && !g.allDone &&
      g.parts.any (fun q => s.homeId g q = s.homeId f p))).length
    let is := fun (v : State) (g : Flight) => (v.flight id).map Flight.plain = some g.plain
    let refused := fun (v : State) => is v { f with resendAt := some (s.cycle + 256) }
    let entered := fun (v : State) => ∃ n, s.nextId ≤ n ∧ is v { f with parked := some n, resendAt := none }
    let same := fun (v : State) => v.ctxs = s.ctxs ∧ v.mem = s.mem ∧ ∀ k, k ≠ id → v.flight k = s.flight k
    let w := s.word p.key p.len
    let masked := fun (ty : Ty) (m x : Nat) => toInt ty.isSigned ty.bits (Nat.land x m)
    let passes : Option Nat := match f.op with
      | .waitc target _ =>
        if w / 2 ^ 63 % 2 = 1 then some (1 + w / 2 ^ 56 % 128)
        else if target % 2 ^ 56 ≤ w % 2 ^ 56 then some 0 else none
      | .waitf ty cc x m =>
        let a := masked ty m w
        let b := masked ty m x
        if (match cc with
          | .eq => decide (a = b)
          | .ne => decide (a ≠ b)
          | .lt => decide (a < b)
          | .le => decide (a ≤ b)
          | .gt => decide (b < a)
          | .ge => decide (b ≤ a)) = true then some 0 else none
      | _ => none
    (∀ i, isWatch f.op = true → s.reaches f p.key = true →
      (i = Instr.homeRead id 0 ∧ s.mayRead f p = true ∧ isHost p.key = false ∧ s.forward f p = .clear ∨
        i = .watchReread id ∧ s.resendNow f = true) →
      (∀ k, s.partSlice f p = some k → s.room k (.part id 0)) →
      ∃ v : State, exec i s = .next v.settle ∧ same v ∧ v.emptyTags = s.emptyTags ∧
        (∀ r, passes = some r → is v { f with resendAt := none, parts := [{ p with done := true, code := r }] }) ∧
        (passes = none → (waiting isWatch < 64 → entered v) ∧ (64 ≤ waiting isWatch → refused v))) ∧
    (∀ i clr, f.op = .ldf clr → s.reaches f p.key = true →
      (i = Instr.ldfAtScratchpad id ∧ sent f p = true ∧ s.ready f p = true ∨ i = .ldfResend id ∧ s.resendNow f = true) →
      ∃ v : State, exec i s = .next v.settle ∧ same v ∧
        (s.tagFull p.key = true →
          is v { f with resendAt := none, parts := [{ p with done := true, res := w }] } ∧
          ∀ g, v.tagFull (16 * g) = (s.tagFull (16 * g) && !(clr && g = granule p.key))) ∧
        (s.tagFull p.key = false → v.emptyTags = s.emptyTags ∧
          (waiting isLdf < 64 → entered v) ∧ (64 ≤ waiting isLdf → refused v))) ∧
    (∀ i, s.reaches f p.key = false → f.isLoad = true → f.isStore = false →
      (i = Instr.homeRead id 0 ∧ isWatch f.op = true ∧ s.mayRead f p = true ∧ isHost p.key = false ∨
        i = .watchReread id ∧ isWatch f.op = true ∧ s.resendNow f = true ∨
        i = .ldfAtScratchpad id ∧ isLdf f.op = true ∧ sent f p = true ∧ s.ready f p = true ∨
        i = .ldfResend id ∧ isLdf f.op = true ∧ s.resendNow f = true) →
      exec i s = .next (s.trapFlight f (tProt p.va 8)).settle) ∧
    (f.op = .stf → id ∉ s.ueCmds → sent f p = true → s.ready f p = true → s.reaches f p.key = true → (p.bytes.map (fun e => e.1)).Nodup →
      ∃ v : State, exec (.stfAtScratchpad id) s = .next (v.fillGranule (granule p.key)).settle ∧ v.ctxs = s.ctxs ∧
        v.emptyTags = s.emptyTags ∧ v.flight id = some (f.setPart 0 { p with done := true }) ∧
        (∀ e ∈ p.bytes, v.byte e.1 = e.2) ∧ (∀ k, (∀ e ∈ p.bytes, e.1 ≠ k) → v.byte k = s.byte k)) ∧
    (∀ r, isWatch f.op = true → f.arrived = true → f.withdraw.isSome = true → s.reaches f p.key = true → passes = some r →
      exec (.watchWithdrawal id) s =
        .next (s.setFlight { f with resendAt := none, parts := [{ p with done := true, code := r }] }).settle) ∧
    ∀ i, (i = Instr.watchWithdrawal id ∧ isWatch f.op = true ∧ passes = none ∨
        i = .granuleWithdrawal id ∧ isLdf f.op = true) →
      f.arrived = true →
      let c := ctxId f.core f.ctx
      let gone := (f.wb.map (fun w => (s.dropFlight f.id).cancelWB f.core w)).getD (s.dropFlight f.id)
      (f.withdraw = some .limit → exec i s = .next (gone.raise c (tWaitLimit (s.ctx c).wlim)).settle) ∧
      (f.withdraw = some .preempt → exec i s = .next (gone.park c true (gone.ctx c).sra).settle)

/-- AGLD_HOME_REQUEST, AGST_AT_HOME and AGED_WITHDRAWAL (R143 to R145, R255 to R261). -/
def Obligations.AgedBlocksAtTheirHomes : Prop :=
  ∀ (s : State) (id : Nat) (f : Flight) (p : Part), s.flight id = some f → f.parts = [p] → p.done = false →
    (∀ k, s.badSector k = none) →
    (∀ k, s.partSlice f p = some k → s.room k (.part id 0)) →
    let st : BitVec 32 := Tab.get 0 s.stamps (p.key / 64)
    (∀ itr, f.op = .agst itr → id ∉ s.ueCmds → sent f p = true → s.ready f p = true → p.key % 64 = 0 →
      let late := s.isAged p.key = false ∨ 2 ^ 31 ≤ (itr - st).toNat
      (late → ∃ v : State, exec (.agstAtHome id) s = .next v.settle ∧ v.ctxs = s.ctxs ∧ v.mem = s.mem ∧
        v.stamps = s.stamps ∧ v.flight id = some (f.setPart 0 { p with done := true }) ∧
        (v.die (homeDie p.key)).agedDiscard = (s.die (homeDie p.key)).agedDiscard + 1) ∧
      (¬late → (p.bytes.map (fun e => e.1)).Nodup → (∀ e ∈ p.bytes, e.1 / 64 = p.key / 64) →
        ∃ v : State, exec (.agstAtHome id) s = .next (v.answerParked p.key).settle ∧ v.ctxs = s.ctxs ∧
          (∀ e ∈ p.bytes, v.byte e.1 = e.2) ∧ (∀ k, (∀ e ∈ p.bytes, e.1 ≠ k) → v.byte k = s.byte k) ∧
          (∀ b, Tab.get 0 v.stamps b = if b = p.key / 64 then itr else Tab.get 0 s.stamps b) ∧
          v.flight id = some (f.setPart 0 { p with done := true }))) ∧
    (∀ wait itr lag pf pa da act m, f.op = .agld wait itr lag pf pa da act → sent f p = true → s.ready f p = true →
      s.forward f p = .clear → bitAt p.b 0 = false → bitAt p.b 1 = true →
      (s.die (coreDie f.core)).current (p.key / 256) = some m → m.stamps ≠ [] → m.badAt s.cycle [p.key] = none →
      let near : BitVec 32 := m.stamps.getD (p.key / 64 % 4) 0
      freshFor near itr lag = true → ∃ v : State, exec (.agldHomeRequest id) s = .next v.settle ∧ v.ctxs = s.ctxs ∧
        v.mem = s.mem ∧ v.flight id = some { f with parts := [{ p with
          done := true, code := 1, res := m.data.toNat / 2 ^ (8 * (p.key % 256)) % 2 ^ (8 * p.len), c := near.toNat }] }) ∧
    (∀ wait itr lag pf pa da act, f.op = .agld wait itr lag pf pa da act → sent f p = true → s.ready f p = true →
      s.forward f p = .clear → bitAt p.b 1 = false →
      let q := { p with b := if bitAt p.b 0 = true then p.b else p.b + 1 }
      let is := fun (v : State) (g : Flight) => (v.flight id).map Flight.plain = some g.plain
      let fresh := lag = 65535 ∨ (itr - st).toNat ≤ lag ∨ (1 ≤ (st - itr).toNat ∧ (st - itr).toNat < 2 ^ 31)
      let takes := fun (c : Nat) => ∃ v : State, exec (.agldHomeRequest id) s = .next v.settle ∧ v.ctxs = s.ctxs ∧
        v.mem = s.mem ∧ v.stamps = s.stamps ∧
        is v { f with parts := [{ q with done := true, res := s.word p.key 64, code := c, c := st.toNat }] }
      (s.isAged p.key = false → ∃ v : State, exec (.agldHomeRequest id) s = .next v.settle ∧ v.mem = s.mem ∧
        is v { f with parts := [{ q with done := true, code := 2 }] }) ∧
      (s.isAged p.key = true → fresh → takes 1) ∧
      (s.isAged p.key = true → ¬fresh → wait = false → takes 0) ∧
      (s.isAged p.key = true → ¬fresh → wait = true →
        (∀ k, s.partSlice f p = some k → 
          s.parkedAt k + (s.slice k).waitHeld.length + (s.slice k).waitTickets.length < 32) →
        (s.partSlice f p).isSome = true →
        ∃ (v : State) (n : Nat), exec (.agldHomeRequest id) s = .next v.settle ∧ v.ctxs = s.ctxs ∧ v.mem = s.mem ∧
          is v { f with parked := some n, parts := [{ q with noticed := false }] })) ∧
    ∀ wait itr lag pf pa da act, f.op = .agld wait itr lag pf pa da act → f.arrived = true →
      let c := ctxId f.core f.ctx
      let gone := (f.wb.map (fun w => (s.dropFlight f.id).cancelWB f.core w)).getD (s.dropFlight f.id)
      (f.withdraw = some .limit → exec (.agedWithdrawal id) s = .next (gone.raise c (tAgeTimeout p.va itr lag)).settle) ∧
      (f.withdraw = some .preempt → exec (.agedWithdrawal id) s = .next (gone.park c true (gone.ctx c).sra).settle)

/-- L1_FILL (R209, R233), MIRROR_FILL (R222, R223, R263), REQUEST_RESEND and TICKET_NOTICE (R220). Which lines of a set stay is
log 16's choice. -/
def Obligations.FillsAndRefusals : Prop :=
  ∀ s : State,
    (∀ (c k : Nat) (g : L1FillReq), (s.core c).fills.find? (fun x => x.id = k) = some g →
      let x := s.core c
      let queued := ∃ h ∈ s.flights, h.core = c ∧ h.isStore = true ∧ ∃ q ∈ h.parts, q.done = false ∧ q.key / 256 = g.line
      ∃ y : Core, exec (.l1Fill c k) s = .next (s.setCore c y) ∧ y.fills = x.fills.filter (fun a => a.id ≠ k) ∧
        { y with fills := x.fills, l1 := x.l1 } = x ∧
        (g.cancelled = true ∨ queued ∨ x.holdsL1 g.line = true → y.l1 = x.l1) ∧
        (g.cancelled = false → ¬queued → x.holdsL1 g.line = false →
          (0 < x.l1ways → ⟨g.line, g.data, g.flagged⟩ ∈ y.l1 ∧ ∀ l ∈ y.l1, l.line = g.line → l = ⟨g.line, g.data, g.flagged⟩) ∧
          (y.l1.filter (fun l => l.line % 1024 = g.line % 1024)).length ≤ x.l1ways ∧
          ∀ l, l.line % 1024 ≠ g.line % 1024 → (l ∈ y.l1 ↔ l ∈ x.l1))) ∧
    (∀ (d k : Nat) (g : MirrorFillReq), (s.die d).mfills.find? (fun x => x.id = k) = some g →
      let x := s.die d
      ∃ y : Die, exec (.mirrorFill d k) s = .next (s.setDie d y) ∧ y.mfills = x.mfills.filter (fun a => a.id ≠ k) ∧
        { y with mfills := x.mfills, mirror := x.mirror } = x ∧
        (g.cancelled = true ∨ g.copy.gen ≠ x.gen → y.mirror = x.mirror) ∧
        (g.cancelled = false → g.copy.gen = x.gen → 0 < bitsAt x.hcfg.toNat 8 6 →
          y.mirror.head? = some g.copy ∧ ∀ m ∈ y.mirror, m = g.copy ∨ (m ∈ x.mirror ∧ m.line ≠ g.copy.line))) ∧
    ∀ (id n : Nat) (f : Flight) (p : Part), s.flight id = some f → f.part n = some p → p.done = false →
      (s.resendDue f n p = true →
        exec (.requestResend id n) s = .next (s.setFlight (f.setPart n { p with sendAt := none })).settle) ∧
      (s.resendDue f n p = false → exec (.requestResend id n) s = .next s.settle) ∧
      (p.ticket = true → p.noticed = true →
        exec (.ticketNotice id n) s = .next (s.setFlight (f.setPart n { p with ticket := false })).settle)

/-- COPY_PACKET_ISSUE, COPY_PACKET_LAND, PEER_ACK (R192 to R194, R272, R305 to R307, R370) and RANKED_STAGING (R289). Reading line
after line is log 50's, staging keyed without the type, and the sum of the type and offset of rank 0, log 57's, a peer's class of refusal log 60's, and the order of reads
and the answer of a peer are free (log 13). -/
def Obligations.CopyPacketsIssueAndLand : Prop :=
  ∀ (s : State) (core : Nat),
    let errs := fun (c : CopyCmd) (code : Nat) => { c.update (.err code) with xl := c.xl }
    (∀ c, s.copyHead core = some c → c.core = core → s.mayIssue c = true → c.id ∉ s.ueCmds →
      (∀ d ∈ (s.core core).copies, d.id = c.id → d = c) →
      (∀ pl d, s.checkPacket c c.nextPieces = .ok (pl, d) →
        let n := (c.nextPieces.map (fun x => x.2)).sum
        ∃ (v : State) (k : Packet), exec (.copyPacketIssue core) s = .next v ∧ v.mem = s.mem ∧ v.ctxs = s.ctxs ∧
          (v.core core).packets = (s.core core).packets ++ [k] ∧ k.id = s.nextId ∧ k.cmd = c.id ∧ k.dstKey = d.key ∧
          k.dstVa = c.dstByte c.next ∧ k.len = n ∧ k.off = c.next % 2 ^ c.esz ∧ k.stage = .issued ∧
          k.src = (pl.zip c.nextPieces).map (fun x => ⟨x.1.key, x.2.2, x.2.1, none⟩) ∧
          (v.core core).pktAt = s.cycle + 1 ∧
          (v.core core).copies = (s.core core).copies.map (fun x => if x.id = c.id then { x with
            started := true, open_ := x.open_ + 1, next := x.next + n, issued := decide (c.total ≤ c.next + n)
            xl := [] } else x)) ∧
      ∀ e, s.checkPacket c c.nextPieces = .error e → e.event = none → e.isMiss = false →
        let u := errs c e.code
        (∀ t, c.counter ≠ 0 → s.ctrPlace u = .error t → t.isMiss = true →
          exec (.copyPacketIssue core) s = .next (s.askWalk u.die u.asid t.info [.copy core c.id])) ∧
        (c.counter = 0 ∨ (∃ pl, s.ctrPlace u = .ok pl) → (∀ k, s.badSector k = none) →
          ∃ v : State, exec (.copyPacketIssue core) s = .next v.settle ∧ v.ctxs = s.ctxs ∧ v.ctrUps = s.ctrUps ∧
            (v.core core).packets = (s.core core).packets ∧ (c.counter = 0 → v.mem = s.mem) ∧
            (∀ pl, c.counter ≠ 0 → s.ctrPlace u = .ok pl →
              (∀ k, k < pl.key ∨ pl.key + 8 ≤ k → v.byte k = s.byte k) ∧
              v.word pl.key 8 = (let w := s.word pl.key 8
                if w / 2 ^ 63 % 2 = 1 then w else w % 2 ^ 56 + (128 + e.code % 128) * 2 ^ 56)) ∧
            (v.core core).efca = e.addr ∧
            (v.core core).efcr = BitVec.ofNat 64 (2 ^ 63 + (if bitAt (s.core core).efcr.toNat 63 = true then 2 ^ 62 else 0) +
              c.ctx % 16 * 2 ^ 32 + e.code % 256 * 2 ^ 24 + c.xid % 2 ^ 16) ∧
            (v.core core).copies = ((s.core core).copies.map (fun x => if x.id = c.id then { x with
              started := true, fault := some e.code } else x)).filter (fun x => !x.over))) ∧
    (∀ (p : Packet) (c : CopyCmd), s.packet core p.id = some p → s.copy core p.cmd = some c → c.core = core →
      (∀ k, s.badSector k = none) → s.packetFree c p = true →
      let near := fun (k : Nat) => isGlobal k = true ∨ isScratch k = true
      let room := fun (q : Piece) => ∀ k, s.pieceSlice c.asid q = some k → s.room k (.packet core p.id)
      (p.stage = .issued → p.unread ≠ [] →
        (∀ x ∈ p.unread, s.shareOk c.who c.uid x.va x.key = true ∧ near x.key ∧ room ⟨x.va, x.key, x.len⟩) →
        ∃ (v : State) (q : SrcPiece), q ∈ p.unread ∧ exec (.copyPacketLand core p.id) s = .next v ∧ v.mem = s.mem ∧
          v.ctxs = s.ctxs ∧
          let src := p.src.map (fun x => if x.got = none ∧ x.key / 256 = q.key / 256 then
            { x with got := some (s.bytes x.key x.len) } else x)
          v.packet core p.id = some (if src.all (fun x => x.got.isSome) = true then { p with
            src := src, hold := .none, stage := .ready, data := src.flatMap (fun x => x.got.getD []) }
            else { p with src := src, hold := .none })) ∧
      (p.stage = .ready → c.ranked = none → near p.dstKey → s.shareOk c.who c.uid p.dstVa p.dstKey = true → room p.dst →
        p.data.length = p.len →
        ∃ v : State, exec (.copyPacketLand core p.id) s = .next (v.landed c p).settle ∧
          (∀ k, k < p.dstKey ∨ p.dstKey + p.len ≤ k → v.byte k = s.byte k) ∧
          (c.fe = false ∨ isScratch p.dstKey = false → v.emptyTags = s.emptyTags) ∧
          (c.fe = true → isScratch p.dstKey = true → 0 < p.len →
            ∃ u : State, u.emptyTags = s.emptyTags ∧ u.flights = s.flights ∧ u.ctxs = s.ctxs ∧
              (∀ k, u.byte k = v.byte k) ∧
              v = (List.range (granule (p.dstKey + p.len - 1) + 1 - granule p.dstKey)).foldl
                (fun t j => t.fillGranule (granule p.dstKey + j)) u) ∧
          (c.red = none → v.bytes p.dstKey p.len = p.data) ∧
          ∀ ty, c.red = some (ty, none) →
            ∀ e, p.off ≤ e * (ty.bits / 8) → e * (ty.bits / 8) - p.off + ty.bits / 8 ≤ p.len →
              let st := e * (ty.bits / 8) - p.off
              v.word (p.dstKey + st) (ty.bits / 8) = redAdd ty (s.word (p.dstKey + st) (ty.bits / 8))
                (leVal ((p.data.drop st).take (ty.bits / 8))) % 2 ^ (8 * (ty.bits / 8))) ∧
      (p.stage = .ready → c.ranked = none → isHost p.dstKey = true → s.linkDown hostLink = false → p.data.length = p.len →
        ∃ v : State, exec (.copyPacketLand core p.id) s = .next v ∧ v.bytes p.dstKey p.len = p.data ∧
          v.packet core p.id = some { p with stage := .hostPosted }) ∧
      (p.stage = .ready → c.ranked = none → isHost p.dstKey = false → ¬near p.dstKey →
        s.linkDown (portOf p.dstKey + 10) = false →
        ∃ v : State, exec (.copyPacketLand core p.id) s = .next v ∧ v.mem = s.mem ∧
          v.out = s.out ++ [.write (portOf p.dstKey) (portAddr p.dstKey) p.data] ∧
          v.packet core p.id = some { p with stage := if bitsAt p.dstKey 44 4 = 2 then .peerSent else .hostPosted }) ∧
      (p.stage = .peerSent → s.linkUp p.dstKey = true →
        let u := { s with freeCtr := s.freeCtr + 1 }
        exec (.peerAck core p.id) s = .next (u.landed c p) ∨
          ∃ e, (e = 0x09 ∨ e = 0x0A) ∧ exec (.peerAck core p.id) s = .next (u.failPacket c p.id e p.dstVa)) ∧
      (∀ e va, c.counter = 0 ∨ (∀ t, s.ctrPlace (errs c e) = .error t → t.isMiss = false) →
        s.failPacket c p.id e va = ((s.dropPacket core p.id).failCopy c e va).settle) ∧
      (p.stage = .peerSent → s.linkUp p.dstKey = false → exec (.peerAck core p.id) s = .next s) ∧
      (s.landed c p).packet core p.id = none ∧
      (c.counter ≠ 0 → ∃ u, (s.landed c p).ctrUps = s.ctrUps ++ [u] ∧ u.va = c.counter ∧ u.act = .add 1 ∧ u.asid = c.asid) ∧
      ∀ ty r m, c.ranked = some (ty, r, m) → p.stage = .ready → r ≤ m →
        let part : Partial := ⟨r, core, c.id, p.id, c.region, ty, p.off, p.data⟩
        ((∃ e ∈ s.staging, e.key / 256 = p.dstKey / 256 ∧ e.rmax ≠ m) →
          exec (.rankedStaging core p.id) s = .next (s.failPacket c p.id 0x0F p.dstVa)) ∧
        (room p.dst → (∀ e ∈ s.staging, e.key / 256 ≠ p.dstKey / 256) → 0 < m →
          let sl := (s.pieceSlice c.asid p.dst).getD 0
          s.stagedAt sl + (s.slice sl).stageHeld.length + (s.slice sl).stageTickets.length < 64 →
          ∃ v : State, exec (.rankedStaging core p.id) s = .next v ∧ v.mem = s.mem ∧
            v.staging = s.staging ++ [⟨sl, p.dstKey, p.len, m, [part]⟩]) ∧
        ∀ e, room p.dst → (∀ g ∈ s.staging, g.key / 256 = p.dstKey / 256 → g.rmax = m) →
          s.staging.find? (fun g => g.key = p.dstKey && g.len = p.len && g.rmax = m) = some e →
          (∀ q ∈ e.parts, q.rank ≠ r) →
          let all := { e with parts := e.parts ++ [part] }
          let adds := (List.range (m + 1)).map (fun j =>
            ((all.parts.find? (fun q => q.rank = j)).map (fun q => q.data)).getD [])
          (all.full = false → ∃ v : State, exec (.rankedStaging core p.id) s = .next v ∧ v.mem = s.mem ∧
            v.staging = s.staging.map (fun x => if x = e then all else x)) ∧
          (all.full = true → ∃ v : State, exec (.rankedStaging core p.id) s = .next (v.countParts all.parts).settle ∧
            all ∉ v.staging ∧ (∀ k, k < e.key ∨ e.key + e.len ≤ k → v.byte k = s.byte k) ∧
            ∀ z ∈ all.parts, all.parts.find? (fun q => q.rank = 0) = some z →
              ∀ i, z.off ≤ i * (z.ty.bits / 8) → i * (z.ty.bits / 8) - z.off + z.ty.bits / 8 ≤ e.len →
                let st := i * (z.ty.bits / 8) - z.off
                v.word (e.key + st) (z.ty.bits / 8) = adds.foldl (fun x a =>
                  redAdd z.ty x (leVal ((a.drop st).take (z.ty.bits / 8)))) (s.word (e.key + st) (z.ty.bits / 8)) %
                  2 ^ (8 * (z.ty.bits / 8))))

/-- HEAVY_LEAVE_REQUEST, GOVERNOR_GRANT and LEAVE_WITHDRAWAL (R204, R312, R378, R379, R381). That a withdrawal first grants the
requests that come in turn is log 125's choice. -/
def Obligations.LeaveIsAskedAndGranted : Prop :=
  ∀ s : State,
    (∀ (core : Nat) (c : CopyCmd), s.copyHead core = some c →
      (c.leave ≠ .needed → exec (.heavyLeaveRequest core false) s = .next s) ∧
      (c.leave = .needed → ∃ t : State, exec (.heavyLeaveRequest core false) s = .next t ∧
        (t.core core).copies = (s.core core).copies.map (fun x => if x.id = c.id then { x with leave := .asked } else x) ∧
        (t.die (coreDie core)).reqs = (s.die (coreDie core)).reqs ++ [⟨s.nextId, .copy core c.id, 3, c.prio, none⟩] ∧
        { t with cores := s.cores, dies := s.dies } = s.fresh)) ∧
    (∀ (core : Nat) (m : MatCmd), s.matHead core = some m →
      (m.leave ≠ .needed → exec (.heavyLeaveRequest core true) s = .next s) ∧
      (m.leave = .needed → ∃ t : State, exec (.heavyLeaveRequest core true) s = .next t ∧
        (t.core core).mats = (s.core core).mats.map (fun x => if x.id = m.id then { x with leave := .asked } else x) ∧
        (t.die (coreDie core)).reqs = (s.die (coreDie core)).reqs ++ [⟨s.nextId, .mat core m.id, 10, m.prio, none⟩] ∧
        { t with cores := s.cores, dies := s.dies } = s.fresh)) ∧
    (∀ d : Nat, (s.die d).phase ≠ .trained → exec (.governorGrant d) s = .next s) ∧
    (∀ (d n : Nat), (s.die d).reqs = [] → s.grantAll d n = s) ∧
    (∀ (d : Nat) (r : GovReq) (l q : List GovReq), (s.die d).reqs = l ++ r :: q → (∀ x ∈ l, x.prio < r.prio) →
      (∀ x ∈ q, x.prio ≤ r.prio) → (s.die d).phase = .trained →
      let x := s.die d
      let own : Nat := match r.who with
        | .leave c k _ => 10 * (s.ctx (ctxId c k)).credits
        | _ => 0
      let fits := (r.cost : Int) ≤ (x.budget : Int) - x.basel - x.used + own
      s.grantAll d 0 = s ∧ (¬fits → ∀ n, s.grantAll d n = s) ∧
      (fits → ∃ t : State, exec (.governorGrant d) s = .next t ∧ (∀ n, s.grantAll d (n + 1) = t.grantAll d n) ∧
        t.die d = { x with reqs := x.reqs.filter (fun y => y.id ≠ r.id), used := x.used + r.cost - own } ∧
        (∀ c id, r.who = .copy c id → t.ctxs = s.ctxs ∧ (t.core c).copies = (s.core c).copies.map (fun m =>
          if m.id = id then { m with leave := .granted, allowance := r.cost } else m)) ∧
        (∀ c id, r.who = .mat c id → t.ctxs = s.ctxs ∧ (t.core c).mats = (s.core c).mats.map (fun m =>
          if m.id = id then { m with leave := .granted, allowance := r.cost } else m)) ∧
        (∀ c k n, r.who = .leave c k n →
          let p := ctxId c k
          t.ctx p = { s.ctx p with
            credits := n, pc := (s.ctx p).nextPc, counted := false, run := .awake, joinAt := s.cycle + 1 } ∧
          t.cores = s.cores ∧ ∀ e, e ≠ p → t.ctx e = s.ctx e)) ∧
      (¬fits → (∃ e ∈ (s.contest 15).entries, e.gov = true ∧ e.die = d) → exec (.governorGrant d) s = .next s) ∧
      (¬fits → (∀ e ∈ (s.contest 15).entries, e.gov = true → e.die ≠ d) → ∃ (t : State) (e : PrismEntry),
        exec (.governorGrant d) s = .next t ∧ (t.contest 15).entries = (s.contest 15).entries ++ [e] ∧ e.gov = true ∧
        e.die = d ∧ e.hold = false ∧ e.key = BitVec.ofNat 32 (r.prio * 2 ^ 28 +
          ((r.cost : Int) - ((x.budget : Int) - x.basel - x.used) - own).toNat) ∧ t.dies = s.dies ∧ t.ctxs = s.ctxs)) ∧
    ∀ (c k n : Nat) (r : GovReq) (w : Why), r ∈ (s.die (coreDie c)).reqs → r.who = .leave c k n → r.withdraw = some w →
      (∀ q ∈ (s.die (coreDie c)).reqs, (∃ m, q.who = .leave c k m) → q = r) →
      let p := ctxId c k
      let d := coreDie c
      let g := if (s.die d).phase = .trained then s.grantAll d (s.die d).reqs.length else s
      let t := g.setDie d { g.die d with reqs := (g.die d).reqs.filter (fun q => q.id ≠ r.id) }
      ((∀ q ∈ (g.die d).reqs, q.id ≠ r.id) → exec (.leaveWithdrawal c k) s = .next g) ∧
      ((∃ q ∈ (g.die d).reqs, q.id = r.id) → exec (.leaveWithdrawal c k) s = .next (match w with
        | .limit => t.raise p (tWaitLimit (g.ctx p).wlim)
        | .preempt => t.park p true (g.ctx p).sra))

/-- MATRIX_ROW (R88, R197, R198, R310). -/
def Obligations.MatrixRowsComplete : Prop :=
  ∀ (s : State) (core : Nat) (m : MatCmd), s.matHead core = some m → m.core = core → s.mayRow m = true →
    (∀ n ∈ (s.core core).mats, n.id = m.id → n = m) → m.id ∉ s.ueCmds →
    let nb := m.cfg.k / m.cfg.fa.count
    let n := m.cfg.fd.bytes
    (∀ p, s.checkRow m m.row = .ok p → (∀ k, s.badSector k = none) →
      (∀ q ∈ m.reads p ++ m.writes p, ∀ k, s.pieceSlice m.asid q = some k → s.room k (.row core m.id)) →
      s.maySend m.hold (matPort core) (.row core m.id) (s.pieceSlices m.asid (m.reads p ++ m.writes p)) = true →
      let elem := fun (j : Nat) =>
        let c := match m.cfg.fc, p.c[j]? with
          | some f, some q => cToF32 f (s.word q.key f.bytes)
          | _, _ => 0
        f32ToD m.cfg.fd (((p.a.zip ((p.b.drop (j * nb)).take nb))).foldl (fun v x =>
          add32 v (dotBlocks m.cfg.fa m.cfg.fb (s.word x.1.key 64) (s.word x.2.key 64))) c)
      let bs := (p.d.zip ((List.range m.cfg.n).map elem)).flatMap (fun x => keyed x.1.key (leBytes n x.2))
      ∃ v : State, exec (.matrixRow core) s = .next ((v.countMat m m.row (.add 1) true).matRetire core).settle ∧
        v.ctxs = s.ctxs ∧ (∀ k, (∀ e ∈ bs, e.1 ≠ k) → v.byte k = s.byte k) ∧
        (∀ l r k b, bs = l ++ (k, b) :: r → (∀ e ∈ r, e.1 ≠ k) → v.byte k = b) ∧
        (v.core core).rpr = BitVec.ofNat 6 (m.row + 1) ∧
        (v.core core).mats = (s.core core).mats.map (fun x => if x.id = m.id then { x with
          row := m.row + 1, begun := true, xl := [], hold := .none } else x)) ∧
    ∀ e, s.checkRow m m.row = .error e → e.event = none → e.isMiss = false →
      let behind := ((s.core core).mats.dropWhile (fun x => x.id ≠ m.id)).drop 1
      let errs := s.rowErrors m e.code
      let errored := fun (w code : Nat) => if w / 2 ^ 63 % 2 = 1 then w else w % 2 ^ 56 + (128 + code % 128) * 2 ^ 56
      (∀ l x r t, errs = l ++ x :: r → (∀ y ∈ l, ∀ t, s.ctrPlace y.2 = .error t → t.isMiss = false) →
        s.ctrPlace x.2 = .error t → t.isMiss = true →
        exec (.matrixRow core) s = .next (s.askWalk x.2.die x.2.asid t.info [x.1])) ∧
      (errs.map (fun x => (x.2.va, x.2.act)) = (if m.cfg.ctr = 0 then [] else [(m.cfg.ctr, CtrAct.err e.code)]) ++
        (behind.filter (fun b => b.cfg.ctr ≠ 0)).map (fun b => (b.cfg.ctr, CtrAct.err 0x7F))) ∧
      ((∀ x ∈ errs, ∃ pl, s.ctrPlace x.2 = .ok pl ∧ pl.key % 8 = 0) → (∀ k, s.badSector k = none) →
        ∃ v : State, exec (.matrixRow core) s = .next (v.matRetire core).settle ∧ v.ctxs = s.ctxs ∧ v.ctrUps = s.ctrUps ∧
          (v.core core).rpr = BitVec.ofNat 6 m.row ∧ (v.core core).efma = e.addr ∧
          (v.core core).efmr = BitVec.ofNat 64 (2 ^ 63 + (if bitAt (s.core core).efmr.toNat 63 = true then 2 ^ 62 else 0) +
            m.ctx % 16 * 2 ^ 32 + e.code % 256 * 2 ^ 24 + m.row % 32) ∧
          (∀ x ∈ (v.core core).mats, x.id = m.id → x.fault = some e.code) ∧
          (∀ x ∈ (v.core core).mats, (∃ b ∈ behind, b.id = x.id) → x.id ≠ m.id → x.fault.isSome = true) ∧
          (∀ k, (∀ x ∈ errs, ∀ pl, s.ctrPlace x.2 = .ok pl → k < pl.key ∨ pl.key + 8 ≤ k) → v.byte k = s.byte k) ∧
          (∀ x r pl, errs = x :: r → s.ctrPlace x.2 = .ok pl →
            v.word pl.key 8 = errored (s.word pl.key 8) (if m.cfg.ctr = 0 then 0x7F else e.code)) ∧
          ∀ x ∈ errs, ∀ pl, s.ctrPlace x.2 = .ok pl → v.word pl.key 8 / 2 ^ 63 % 2 = 1)

/-- PRISM_ENTRY_REGISTER, PRISM_ROUND_START, PRISM_LATCH and PRISM_WITHDRAWAL (R200, R291 to R300, R379). The cycle of a writeback
within its span is free (log 13). -/
def Obligations.PrismRoundsDecide : Prop :=
  ∀ (s : State) (c : Nat),
    let x := s.contest c
    let due : Prop := x.holder = none ∧ x.round = none ∧ s.planeCycle % 128 = 0 ∧
      (∃ e ∈ x.entries, ∃ t, e.regAt = some t ∧ t < s.planeCycle)
    let word := fun (key : BitVec 32) (die core : Nat) (win held : Bool) => BitVec.ofNat 64 (key.toNat + die * 2 ^ 32 +
      core % 144 * 2 ^ 35 + (if win then 2 ^ 48 else 0) + (if held then 2 ^ 49 else 0))
    (∀ k e, x.entries.find? (fun e => e.id = k && e.regAt.isNone) = some e →
      let reg := s.setContest c { x with entries := x.entries.map (fun n =>
        if n.id = k then { n with regAt := some s.planeCycle } else n) }
      (x.holder = none → exec (.prismEntryRegister c k) s = .next reg) ∧
      ∀ h, x.holder = some h →
        let mine := e.gov = false ∧ h.uid = e.uid
        (mine → exec (.prismEntryRegister c k) s = .next (s.prismAnswer c e (word h.key h.die h.core true true))) ∧
        (¬mine → e.hold = false →
          exec (.prismEntryRegister c k) s = .next (s.prismAnswer c e (word h.key h.die h.core false true))) ∧
        (¬mine → e.hold = true → exec (.prismEntryRegister c k) s = .next reg)) ∧
    (∀ (e : PrismEntry) (w : Word), e ∈ x.entries → e.gov = false →
      (∀ a ∈ (s.core e.core).wbs, ∀ b ∈ (s.core e.core).wbs, a.id = e.wb → b.id = e.wb → a = b) →
      let p := ctxId e.core e.ctx
      let t := s.prismAnswer c e w
      (t.contest c).entries = x.entries.filter (fun n => n.id ≠ e.id) ∧
      t.ctx p = { s.ctx p with pc := e.nextPc, counted := false, run := .awake, joinAt := s.cycle + 1 } ∧
      (∀ q, q ≠ p → t.ctx q = s.ctx q) ∧
      ∃ due, s.cycle < due ∧ due ≤ s.cycle + 64 * 45 / s.period ∧
        (t.core e.core).wbs = (s.core e.core).wbs.map (fun v => if v.id = e.wb then { v with
          missing := false, due := due, flags := .none
          sl := v.sl.map (fun y => { y with vals := y.vals.map (fun n => (n.1, w.toNat % 2 ^ (4 * y.width))) })
          pr := if e.pw = 15 then [] else [⟨e.pw.toNat, BitVec.allOnes 64, if bitAt w.toNat 48 = true then BitVec.allOnes 64 else 0⟩] }
        else v)) ∧
    ((due → ∃ r : Round, exec (.prismRoundStart c) s = .next (s.setContest c { x with round := some r }) ∧
        r.start = s.planeCycle ∧ ∀ e, e ∈ r.entries ↔ e ∈ x.entries ∧ ∃ t, e.regAt = some t ∧ t < s.planeCycle) ∧
      (¬due → exec (.prismRoundStart c) s = .next s)) ∧
    (∀ r, x.round = some r →
      (s.planeCycle < r.start + 44 → exec (.prismLatch c) s = .next s) ∧
      let drives := r.entries.filter (fun e => (s.die e.die).phase ≠ .fenced)
      (r.start + 44 ≤ s.planeCycle → drives = [] →
        exec (.prismLatch c) s = .next (s.setContest c { x with round := none })) ∧
      (r.start + 44 ≤ s.planeCycle → drives ≠ [] →
        (∀ a ∈ r.entries ++ x.entries, a.ctx < 16 ∧ ∀ v ∈ (s.core a.core).wbs, ∀ y ∈ (s.core a.core).wbs, a.gov = false →
          v.id = a.wb → y.id = a.wb → v = y) →
        (∀ a ∈ r.entries, ∀ b ∈ r.entries ++ x.entries, a.id = b.id → { a with regAt := b.regAt, withdraw := b.withdraw } = b) →
        (∀ a ∈ r.entries ++ x.entries, ∀ b ∈ r.entries ++ x.entries, a.gov = false → b.gov = false → a.core = b.core →
          a.ctx = b.ctx ∨ a.wb = b.wb → a.id = b.id) →
        (x.entries.map (fun e => e.id)).Nodup →
        let rank := fun (e : PrismEntry) =>
          ((e.key.toNat * 8 + (7 - e.die)) * 256 + (255 - e.core % 144)) * 16 + (15 - e.ctx)
        let there := fun (e : PrismEntry) => ∃ n ∈ x.entries, n.id = e.id
        let inRound := fun (e : PrismEntry) => ∃ n ∈ r.entries, n.id = e.id
        let got := fun (t : State) (e : PrismEntry) (res : Word) =>
          (t.ctx (ctxId e.core e.ctx)).run = .awake ∧ (t.ctx (ctxId e.core e.ctx)).pc = e.nextPc ∧
          ∀ y ∈ (s.core e.core).wbs, y.id = e.wb → ∃ v ∈ (t.core e.core).wbs, v.id = e.wb ∧ v.missing = false ∧
            s.cycle < v.due ∧ v.due ≤ s.cycle + 64 * 45 / s.period ∧
            v.sl = y.sl.map (fun a => { a with vals := a.vals.map (fun n => (n.1, res.toNat % 2 ^ (4 * a.width))) })
        ∃ (t : State) (w : PrismEntry), exec (.prismLatch c) s = .next t ∧ w ∈ drives ∧
          (∀ e ∈ drives, rank e ≤ rank w) ∧ (t.contest c).round = none ∧ t.mem = s.mem ∧
          (t.contest c).latched = word w.key w.die w.core false w.hold ∧
          (t.contest c).holder = (if w.hold = true ∧ there w then
            some ⟨w.uid, w.key, w.die, w.core, w.region⟩ else none) ∧
          let answered := fun (e : PrismEntry) => inRound e ∨ w.hold = true ∧ there w ∧ e.regAt.isSome = true ∧
            (e.hold = false ∨ e.gov = false ∧ e.uid = w.uid)
          (∀ e, e ∈ (t.contest c).entries ↔ e ∈ x.entries ∧ ¬answered e) ∧
          (∀ e ∈ r.entries, e.gov = false → there e → got t e (word w.key w.die w.core (e.id = w.id) w.hold)) ∧
          (∀ e ∈ x.entries, answered e → ¬inRound e → e.gov = false →
            got t e (word w.key w.die w.core (e.uid = w.uid) true)) ∧
          let givers := (List.range 8).filter (fun d => d ≠ w.die ∧ (s.die d).phase = .trained ∧ 1250 ≤ (s.die d).budget ∧
            (250 : Int) ≤ ((s.die d).budget : Int) - (s.die d).basel - (s.die d).used)
          let given := givers.take ((5000 - (s.die w.die).budget) / 250)
          (w.gov = true ∧ there w → ∀ d, t.die d = { s.die d with budget :=
            if d ∈ given then (s.die d).budget - 250
            else if d = w.die then (s.die d).budget + 250 * given.length else (s.die d).budget }) ∧
          (w.gov = false ∨ ¬there w → t.dies = s.dies))) ∧
    ∀ k e w, x.entries.find? (fun e => e.id = k) = some e → e.withdraw = some w →
      let free := e.regAt.isSome = true ∧ ∀ r, x.round = some r → ∀ n ∈ r.entries, n.id ≠ e.id
      let t := (s.setContest c { x with entries := x.entries.filter (fun n => n.id ≠ k) }).cancelWB e.core e.wb
      let p := ctxId e.core e.ctx
      (¬free → exec (.prismWithdrawal c k) s = .next s) ∧
      (free → exec (.prismWithdrawal c k) s = .next (match w with
        | .limit => t.raise p (tWaitLimit (t.ctx p).wlim)
        | .preempt => t.park p true (t.ctx p).sra))

/-- TASK_DISPATCH, PRIORITY_AGING and QUANTUM_EXPIRY (R320, R322, R327), and a task's start (R172, R268). A rejected chain or
image ending in a task fault is logs 35 and 55's choice, empty caches at a start log 36's, CMAX counted on the die log 64's,
and the times at which a request is made log 65's. -/
def Obligations.TasksAreDispatched : Prop :=
  ∀ (s : State) (d : Nat),
    let cores := (List.range 144).map (fun k => d * 144 + k)
    let idle := fun (c : Nat) => (s.core c).task = none ∧ (s.core c).resident = none
    let prio := fun (e : QEntry) => min 15 (e.task.prio + (s.cycle - e.firstQ) / 65536)
    let goes := fun (e : QEntry) (c : Nat) =>
      (∀ r, e.resident = some r → c = r ∧ (s.core r).task = none) ∧
      (e.resident = none → c ∈ cores ∧ idle c ∧ ∀ b ∈ cores, b < c → ¬idle b)
    let runs := fun (region : Nat) => ((s.runningOn d).filter (fun x => x.2.region = region)).length
    let may := fun (e : QEntry) =>
      let cmax := match s.effNow d e.task with | .ok l => (effOf l).cmax | .error _ => e.task.eff.cmax
      (∃ c, goes e c) ∧ (cmax = 0 ∨ runs e.task.region < cmax)
    let after := fun (t : State) => Host.Outcome.next (φ := Fault) (ρ := Refusal) ((t.emptied d).checkPreempt d)
    (s.phase ≠ .full ∨ (s.die d).phase ≠ .trained → exec (.taskDispatch d) s = .next s) ∧
    ((∀ e ∈ (s.die d).queue, ¬may e) → exec (.taskDispatch d) s = .next s) ∧
    (∀ l e r c, s.phase = .full → (s.die d).phase = .trained → (s.die d).queue = l ++ e :: r → may e → goes e c →
      (∀ q ∈ l, may q → prio q < prio e ∨ (prio q = prio e ∧ e.firstQ < q.firstQ)) →
      (∀ q ∈ r, may q → prio q < prio e ∨ (prio q = prio e ∧ e.firstQ ≤ q.firstQ)) →
      let q := s.setDie d { s.die d with queue := (s.die d).queue.filter (fun n => n.arrival ≠ e.arrival) }
      let read := q.touchTask d e.task
      let lost := fun (u : State) (x : TrapInfo) (v : State) =>
        (x.event = none → v = u.entryFault d e.task) ∧
        ∀ k, x.event = some k → v = u.entryBad d k x.addr.toNat x.info e.task
      (∀ x, q.effNow d e.task = .error x → ∃ v, exec (.taskDispatch d) s = after (v.idleCore d) ∧
        lost (if e.suspended = true then read.dropImage d e else read) x v) ∧
      (e.suspended = false → ∀ b, q.effNow d e.task = .ok b →
        let f := effOf b
        let own := decide (e.task.sblk ≠ 0)
        exec (.taskDispatch d) s = after (read.startTask c { e.task with
          eff := f, asid := f.asid, vblk := if own then e.task.vblk else f.vblk
          sblk := if own then e.task.sblk else f.sblk })) ∧
      (e.suspended = true → ∀ b, q.effNow d e.task = .ok b →
        let n := effOf b
        let t : Task := { e.task with
          eff := { e.task.eff with
            handler := n.handler, splim := n.splim, prio := n.prio, fdom := n.fdom, cmax := n.cmax, grant := n.grant
            quantum := n.quantum }
          started := s.cycle, pending := false, sliceOut := false }
        let ends := fun (u : State) => (u.freeCore c).dropImage d e
        (∀ u, read.restore c e t = (u, none) → exec (.taskDispatch d) s = after u) ∧
        (∀ u, read.restore c e t = (u, some .image) →
          exec (.taskDispatch d) s = after (((ends u).entryFault d t).idleCore d)) ∧
        ∀ u kind key va, read.restore c e t = (u, some (.bad kind key va)) →
          exec (.taskDispatch d) s = after (((ends u).entryBad d kind key va t).idleCore d))) ∧
    (∀ (c : Nat) (t : Task), let u := s.startTask c t; let e := t.eff
      (u.core c).task = some { t with started := s.cycle, pending := false, sliceOut := false } ∧
      (u.core c).l1ways = e.l1ways ∧ (u.core c).g = Window.alloc e.gblk ∧ (u.core c).h = Window.alloc e.hblk ∧
      (u.core c).l1 = [] ∧ (u.core c).l0 = [] ∧ (u.core c).wbs = [] ∧
      u.ctx (ctxId c 0) = { Ctx.idle with
        run := .awake, joinAt := s.cycle + 1, pc := t.entry, wlim := e.wlim, ftz := e.ftz, priv := decide (t.region = 0)
        lmask := BitVec.allOnes 64, srs := seedStates 0, v := Window.alloc t.vblk, s := Window.alloc t.sblk
        shadow := shadowStart } ∧
      (∀ p, p ≠ ctxId c 0 → u.ctx p = s.ctx p) ∧ (∀ n, n ≠ c → u.core n = s.core n) ∧
      (∀ o, o < 2097152 → u.byte (scratchKey c o) = 0 ∧ u.tagFull (scratchKey c o) = true) ∧
      ∀ k, k < scratchKey c 0 ∨ scratchKey c 2097152 ≤ k → u.byte k = s.byte k) ∧
    exec (.priorityAging d) s = .next ((s.setDie d { s.die d with
      queue := (s.die d).queue.map (fun e => { e with level := prio e }) }).checkPreempt d) ∧
    (∀ c, (s.core c).task = none → exec (.quantumExpiry c) s = .next s) ∧
    (∀ c t, (s.core c).task = some t →
      let due := t.sliceOut = false ∧ t.eff.quantum ≠ 0 ∧ t.started + t.eff.quantum * 65536 ≤ s.cycle
      (¬due → exec (.quantumExpiry c) s = .next s) ∧
      (due → exec (.quantumExpiry c) s =
        .next ((s.setCore c { s.core c with task := some { t with sliceOut := true } }).checkPreempt (coreDie c)))) ∧
    let can := fun (t : Task) => t.wsp ≠ 0 ∧
      (((∀ c ∈ cores, ¬idle c) ∧ ∃ e ∈ (s.die d).queue, t.prio < prio e) ∨
        (t.sliceOut = true ∧ ∃ e ∈ (s.die d).queue, t.prio ≤ prio e))
    ((∃ x ∈ s.runningOn d, x.2.pending = true) → s.checkPreempt d = s) ∧
    ((∀ x ∈ s.runningOn d, ¬can x.2) → s.checkPreempt d = s) ∧
    ∀ x ∈ s.runningOn d, (∀ y ∈ s.runningOn d, y.2.pending = false) → can x.2 →
      (∀ y ∈ s.runningOn d, can y.2 → y = x ∨ x.2.prio < y.2.prio ∨ (x.2.prio = y.2.prio ∧ (x.2.started < y.2.started ∨
        (x.2.started = y.2.started ∧ x.1 < y.1)))) → s.checkPreempt d = s.askPreempt x.1

/-- TASK_SUSPEND (R346 to R350) and a context's record (R341, R352). SRA and SPC of a context at a SAFE are log 42's choice, the
image's bytes 0x2300 to 0x23FF log 58's, a bad register's discard with address 0 log 107's, and the key index of its writes log 59's. -/
def Obligations.TasksAreSuspended : Prop :=
  (∀ (s : State) (c : Nat),
    let can := fun (t : Task) => t.pending = true ∧
      (∀ k, k < 11 → (s.ctx (ctxId c k)).run = .free ∨ ∃ w r v m, (s.ctx (ctxId c k)).run = .parked w r v m) ∧
      (∀ k, k < 11 → (s.ctx (ctxId c k)).run ≠ .free → s.released (ctxId c k) s.nextId allColours .pkg = true) ∧
      s.shareTo c t.uid ≠ .wait
    ((s.core c).task = none → exec (.taskSuspend c) s = .next s) ∧
    ∀ t, (s.core c).task = some t →
      (¬can t → exec (.taskSuspend c) s = .next s) ∧
      let dest := s.shareTo c t.uid
      (can t → s.badImage c = true → exec (.taskSuspend c) s = .next (s.consumeBad 1 c 0 0)) ∧
      (can t → s.badImage c = false → ∀ u k e, s.putImage c t.asid t.wsp = (u, some (k, e)) →
        exec (.taskSuspend c) s = .next (u.raise (ctxId c k) e)) ∧
      (can t → s.badImage c = false → ∀ u, s.putImage c t.asid t.wsp = (u, none) →
        let w := match dest with
          | .slot n => u.saveShare c t.asid n
          | _ => (u, none)
        (∀ e, w.2 = some e → exec (.taskSuspend c) s = .next (w.1.raise (ctxId c 0) e)) ∧
        (w.2 = none → ∀ v k e, w.1.putHeader c t.asid t.wsp dest = (v, some (k, e)) →
          exec (.taskSuspend c) s = .next (v.raise (ctxId c k) e)) ∧
        (w.2 = none → ∀ v, w.1.putHeader c t.asid t.wsp dest = (v, none) →
          ∃ (r : State) (e : QEntry), exec (.taskSuspend c) s = .next r ∧ (r.core c).task = none ∧
            (∀ k, k < 11 → r.ctx (ctxId c k) = Ctx.idle) ∧
            (r.die (coreDie c)).queue = (s.die (coreDie c)).queue ++ [e] ∧ e.suspended = true ∧ e.firstQ = s.cycle ∧
            e.task = { t with pending := false, sliceOut := false } ∧
            (∀ n, dest = .slot n → e.slot = some n ∧ n ∈ (r.die (coreDie c)).slots ∧ e.resident = none ∧
              ∀ o, o < 2097152 → r.byte (scratchKey c o) = 0) ∧
            (dest = .resident → e.slot = none ∧ e.resident = some c ∧ (r.core c).resident = some t.uid ∧
              ∀ o, r.byte (scratchKey c o) = v.byte (scratchKey c o))))) ∧
  (∀ (x : Ctx) (xids : Nat × Nat) (boff vec sca cycle srs : Nat), x.mm.k < 2 ^ 64 → x.mm.sa < 2 ^ 32 → x.mm.sb < 2 ^ 32 →
    x.mm.sc < 2 ^ 32 → x.mm.sd < 2 ^ 32 → 1 ≤ x.mm.m → x.mm.m ≤ 32 → 1 ≤ x.mm.n → x.mm.n ≤ 32 → x.v.blocks ≤ 32 →
    x.s.blocks ≤ 32 →
    let rec_ := packFields (x.header xids boff vec sca)
    let y := ctxOf rec_ srs cycle
    y.pc = x.saved.pc ∧ y.sra = x.saved.sra ∧ y.spc.toNat = x.saved.spc ∧ bitAt (recAt rec_ 37 1) 0 = x.saved.wait ∧
      y.itr = x.itr ∧ y.wlim = x.wlim ∧ y.flags = x.flags ∧ y.ftz = x.ftz ∧ y.spx = x.spx ∧ y.priv = x.priv ∧
      y.lmask = x.lmask ∧ (∀ n, n < 15 → y.pred n = x.pred n) ∧ y.v = Window.alloc x.v.blocks ∧
      y.s = Window.alloc x.s.blocks ∧ y.xpc = x.xpc ∧ y.xlen = x.xlen ∧ y.xcode = x.xcode ∧ y.xaddr = x.xaddr ∧
      y.xinfo = x.xinfo ∧ y.xlm = x.xlm ∧ y.xact = x.xact ∧ y.xpm = x.xpm ∧
      (∀ n, n < 4 → Tab.get 0 y.xb n = Tab.get 0 x.xb n) ∧ (∀ r, r < 10 → y.sh r = x.sh r) ∧ y.mm = x.mm ∧
      ∀ l, l < 64 → Tab.get 0 y.srs l = BitVec.ofNat 32 (recAt srs (4 * l) 4)) ∧
  ∀ (w z : Window) (vec : Bool) (b l : Nat), b < 32 → l < (if vec then 64 else 1) →
    ((z.loadBlock vec b (w.blockBytes vec b)).read l (64 * b) 64 = w.read l (64 * b) 64) ∧
    ∀ n, n < 32 → n ≠ b → (z.loadBlock vec b (w.blockBytes vec b)).read l (64 * n) 64 = z.read l (64 * n) 64

/-- STEAL_ATTEMPT, STEAL_RETRY and STEAL_SHIP (R325, R326). -/
def Obligations.StealsShip : Prop :=
  ∀ (s : State) (d : Nat),
    let idle := fun (v : Nat) => ∃ k, k < 144 ∧ (s.core (v * 144 + k)).task = none ∧ (s.core (v * 144 + k)).resident = none
    let prio := fun (e : QEntry) => min 15 (e.task.prio + (s.cycle - e.firstQ) / 65536)
    let fit := fun (v : Nat) => (s.die v).queue.filter (fun e => !e.suspended && !e.task.bound &&
      (decide (e.task.dies = 0) || bitAt e.task.dies.toNat d))
    let on := (s.die d).queue = [] ∧ idle d
    let ships := fun (v : Nat) => (s.die v).phase = .trained ∧ ¬idle v ∧ fit v ≠ []
    let set := fun (x : Steal) => Host.Outcome.next (φ := Fault) (ρ := Refusal) (s.setDie d { s.die d with steal := x })
    (∀ t, (s.die d).steal = .retryAt t → exec (.stealAttempt d) s = .next s) ∧
    ((s.die d).steal = .idle → exec (.stealAttempt d) s = set .idle) ∧
    (∀ l, (s.die d).steal = .asking l → ¬on → exec (.stealAttempt d) s = set .idle) ∧
    ((s.die d).steal = .asking [] → on → exec (.stealAttempt d) s = set (.retryAt (s.baseCycle + 4096))) ∧
    (∀ v r, (s.die d).steal = .asking (v :: r) → on →
      (ships v → exec (.stealAttempt d) s = .next s) ∧
      (¬ships v → r ≠ [] → exec (.stealAttempt d) s = set (.asking r)) ∧
      (¬ships v → r = [] → exec (.stealAttempt d) s = set (.retryAt (s.baseCycle + 4096)))) ∧
    ((∀ t, (s.die d).steal ≠ .retryAt t) → exec (.stealRetry d) s = .next s) ∧
    (∀ t, (s.die d).steal = .retryAt t →
      (s.baseCycle < t → exec (.stealRetry d) s = .next s) ∧
      (t ≤ s.baseCycle → ¬on → exec (.stealRetry d) s = set .idle) ∧
      (t ≤ s.baseCycle → on → exec (.stealRetry d) s = set (.asking ((List.range 8).filter (fun e =>
        decide (e % 4 = d % 4 ∧ e / 4 ≠ d / 4) || decide (e / 4 = d / 4 ∧ (e = d + 1 ∨ d = e + 1))))))) ∧
    (∀ v, (∀ r, (s.die d).steal ≠ .asking (v :: r)) ∨ ¬ships v ∨ ¬on → exec (.stealShip v d) s = .next s) ∧
    ∀ v r, (s.die d).steal = .asking (v :: r) → on → ships v → ((s.die v).queue.map (fun e => e.arrival)).Nodup →
      ∃ (n : Nat) (l m : List QEntry) (u : State), exec (.stealShip v d) s = .next (u.checkPreempt d) ∧
        let level := (fit v).filter (fun e => prio e = n)
        level ≠ [] ∧ (∀ e ∈ fit v, n ≤ prio e) ∧ l.length = min level.length 4 ∧ (∀ e ∈ l, e ∈ level) ∧
        (∀ e ∈ l, ∀ f ∈ level, f ∉ l → f.arrival < e.arrival) ∧ l.Pairwise (fun a b => a.arrival < b.arrival) ∧
        m.map (fun e => { e with arrival := 0 }) = l.map (fun e => { e with arrival := 0 }) ∧
        m.Pairwise (fun a b => a.arrival < b.arrival) ∧
        u.die v = { s.die v with queue := (s.die v).queue.filter (fun e => decide (e.arrival ∉ l.map (fun x => x.arrival))) } ∧
        u.die d = { s.die d with queue := m, steal := .idle } ∧
        (∀ e, e ≠ v → e ≠ d → u.die e = s.die e) ∧ { u with dies := s.dies, nextId := s.nextId } = s

/-- HOST_WRITE_IN, HOST_READ_IN, HOST_ATOMICOP_IN, PEER_PACKET_IN and STORAGE_INGEST_WRITE (R287, R319, R367 to R371). Lines and
blocks as units are log 68's choice, the answer to a peer's aged block log 69's, AtomicOps that are Unsupported log 70's, a
bad sector met by a port log 71's, long peer packets log 72's, storage writes and their counter log 73's, that the counter is sent the whole number where blocks are dropped log 122's, and room at the
slices log 39's. -/
def Obligations.PortsServe : Prop :=
  ∀ (s : State) (addr : Word) (data : List Byte),
    let on := fun (p : Nat) => bitAt (Tab.get 0 s.iocfg p).toNat 63 = true ∧ s.phase ≠ .reset
    let ans := fun (t : State) (o : Out) => Host.Outcome.next (φ := Fault) (ρ := Refusal) { t with out := t.out ++ [o] }
    let good := ∀ k, s.badSector k = none
    let room := fun (p : Nat) (a : Acc) (l : List (Nat × List Byte)) => ∀ q ∈ s.portPieces p a l, ∀ k,
      s.pieceSlice (s.portSpace p) q = some k → s.room k .outside
    let taken := fun (u : State) => { u with slices := s.slices, outHold := s.outHold } = s
    let free := { s with outHold := .none }
    let one := fun (a : Nat) => data ≠ [] ∧ a % 64 + data.length ≤ 64
    let kept := fun (v : State) => ∀ p, v.ctx p = { s.ctx p with xl := (v.ctx p).xl, walking := (v.ctx p).walking }
    let put := fun (v : State) (k : Nat) => kept v ∧ v.out = s.out ∧ v.bytes k data.length = data ∧
      ∀ n, n < k ∨ k + data.length ≤ n → v.byte n = s.byte n
    let n := data.length
    (∀ unit va : Nat, 0 < unit → ((cutAt unit va data).flatMap (fun x => x.2) = data ∧
      ∀ x ∈ cutAt unit va data, x.2 ≠ [] ∧ x.1 % unit + x.2.length ≤ unit)) ∧
    (∀ port va : Nat, s.portPhys port = true → va + n ≤ 2 ^ 48 → good →
      let lands := fun (a : Nat) => (∃ d o, s.target a = .global d o ∧ (s.die d).phase = .trained) ∧ s.isAged a = false
      ∃ v : State, s.portWrite port va data = v.settle ∧ v.ctxs = s.ctxs ∧
        (∀ k, k < va ∨ va + n ≤ k → v.byte k = s.byte k) ∧ ∀ x ∈ cutAt 64 va data,
          (lands x.1 → v.bytes x.1 x.2.length = x.2) ∧ (¬lands x.1 → v.bytes x.1 x.2.length = s.bytes x.1 x.2.length)) ∧
    (∀ port va : Nat, one va → good →
      (∀ k, s.agedPiece port (va, data) = some k → ∃ v : State, s.portWrite port va data = v.settle ∧ v.mem = s.mem ∧
        kept v ∧ (v.die (homeDie k)).agedDiscard = (s.die (homeDie k)).agedDiscard + 1) ∧
      (s.agedPiece port (va, data) = none →
        (∀ p, s.portPlace port .copyWr (BitVec.ofNat 64 va) n = .ok p →
          ∃ v : State, s.portWrite port va data = v.settle ∧ put v p.key) ∧
        ∀ e, s.portPlace port .copyWr (BitVec.ofNat 64 va) n = .error e → e.event = none →
          s.portWrite port va data = (s.portWalk port (BitVec.ofNat 64 va)).settle)) ∧
    (¬on 0 → exec (.hostWriteIn addr data) s = .next free) ∧
    (on 0 → room 0 .copyWr (cutAt 64 addr.toNat data) → ∃ u : State, taken u ∧ exec (.hostWriteIn addr data) s =
      .next ((cutAt 256 addr.toNat data).foldl (fun t x => t.portWrite 0 x.1 x.2) u)) ∧
    (∀ m : Nat, let l := cutAt 256 addr.toNat (List.replicate m 0)
      let r := s.portPlaces 0 .copyRd l
      (¬on 0 → exec (.hostReadIn addr m) s = ans free (.unsupported 0)) ∧
      (on 0 → room 0 .copyRd l →
        (∀ e, r = .error e → e.event = none → ∃ u : State, taken u ∧
          exec (.hostReadIn addr m) s = ans (u.portWalks 0 l) (.unsupported 0)) ∧
        (∀ q, r = .ok q → good → ∃ v : State, exec (.hostReadIn addr m) s = .next v ∧ v.mem = s.mem ∧
          kept v ∧ v.out = s.out ++ [.readData 0 (q.flatMap (fun x => s.bytes x.2.1.key x.2.2.length))]) ∧
        ∀ q, r = .ok q → (∃ x ∈ q, ∃ j, j < x.2.2.length ∧ (s.badSector ((x.2.1.key + j) / 64)).isSome = true) →
          ∃ v : State, exec (.hostReadIn addr m) s = .next v ∧ kept v ∧ v.out = s.out ++ [.abort 0])) ∧
    (∀ (op : AtomicOp) (m : Nat) (val cmp : Word),
      let i := Instr.hostAtomicopIn op addr m val cmp
      let fit := (m = 4 ∨ m = 8) ∧ addr.toNat % m = 0
      (¬on 0 → exec i s = ans free (.unsupported 0)) ∧
      (on 0 → room 0 .hostAtomic [(addr.toNat, List.replicate m 0)] →
        (¬fit → ∃ u : State, taken u ∧ exec i s = ans u (.unsupported 0)) ∧
        (fit → op = .cas128 → good → (∀ e, s.portPlace 0 .hostAtomic addr m = .error e → e.event = none) →
          ∃ u : State, taken u ∧ exec i s = ans (u.portWalk 0 addr) (.unsupported 0)) ∧
        (∀ e, fit → s.portPlace 0 .hostAtomic addr m = .error e → e.event = none →
          ∃ u : State, taken u ∧ exec i s = ans (u.portWalk 0 addr) (.unsupported 0)) ∧
        ∀ p, fit → op ≠ .cas128 → s.portPlace 0 .hostAtomic addr m = .ok p → good →
          let old := s.word p.key m
          ∃ v : State, exec i s = ans v.settle (.atomicData 0 (BitVec.ofNat 64 old)) ∧ kept v ∧ v.out = s.out ∧
            v.word p.key m = (match op with
              | .fetchAdd => (old + val.toNat) % 2 ^ (8 * m)
              | .swap => val.toNat % 2 ^ (8 * m)
              | _ => if old = cmp.toNat % 2 ^ (8 * m) then val.toNat % 2 ^ (8 * m) else old) ∧
            ∀ k, k < p.key ∨ p.key + m ≤ k → v.byte k = s.byte k)) ∧
    (∀ port : Nat, let l := cutAt 64 (bitsAt addr.toNat 0 42) data
      let i := Instr.peerPacketIn port addr data
      let aged := l.filterMap (s.agedPiece port)
      let r := s.portPlaces port .copyWr l
      (port < 2 ∨ 5 < port ∨ 256 < n → exec i s = .next s) ∧
      (2 ≤ port → port ≤ 5 → n ≤ 256 → ¬on port → exec i s = .next free) ∧
      (2 ≤ port → port ≤ 5 → n ≤ 256 → on port → room port .copyWr l →
        (aged ≠ [] → good → ∃ v : State, exec i s = ans v (.nack port 0x0A) ∧ v.mem = s.mem ∧ v.out = s.out ∧ kept v ∧
          ∀ d, (v.die d).agedDiscard = (s.die d).agedDiscard +
            BitVec.ofNat 64 (aged.filter (fun k => homeDie k = d)).length) ∧
        (∀ e, aged = [] → r = .error e → e.event = none → ∃ u : State, taken u ∧
          exec i s = ans (u.portWalks port l) (.nack port e.code)) ∧
        ∀ q, aged = [] → r = .ok q → good → ∃ v : State, exec i s = ans v.settle (.ack port) ∧ kept v ∧
          v.out = s.out ∧ (∀ k, (∀ x ∈ q, k < x.2.1.key ∨ x.2.1.key + x.2.2.length ≤ k) → v.byte k = s.byte k) ∧
          ∀ a x b, q = a ++ x :: b → (∀ y ∈ b, y.2.1.key + y.2.2.length ≤ x.2.1.key ∨
            x.2.1.key + x.2.2.length ≤ y.2.1.key) → v.bytes x.2.1.key x.2.2.length = x.2.2)) ∧
    let base := fun (w : Nat) => ((BitVec.ofNat 57 (bitsAt (Tab.get 0 s.inga w).toNat 20 37 * 2 ^ 20)).signExtend 64).toNat
    let holds := fun (w : Nat) => bitAt (Tab.get 0 s.inga w).toNat 63 = true ∧ base w ≤ addr.toNat ∧
      addr.toNat + n ≤ base w + (Tab.get 0 s.ingl w).toNat
    ((∀ w, w < 4 → ¬holds w) → exec (.storageIngestWrite addr data) s = .next s) ∧
    ∀ w, w < 4 → holds w → (∀ u, u < w → ¬holds u) →
      (¬on 1 → exec (.storageIngestWrite addr data) s = .next free) ∧
      (on 1 → room 1 .copyWr (cutAt 64 addr.toNat data) → ∃ u : State, taken u ∧
        exec (.storageIngestWrite addr data) s = .next (
          let t := u.portWrite 1 addr.toNat data
          let ctr := Tab.get 0 t.ingc w
          if ctr = 0 then t
          else t.postCtr (.of 4 (bitsAt (Tab.get 0 t.iocfg 1).toNat 0 12) ctr (.add n) .ingest true 0 0xFFFF)))

/-- LINK_FAILURE (R288, R329, R358), LINK_RETRAIN and FLIT_REPLAY (R363), LINK_WIDTH_CHANGE and LINK_FREQ_CHANGE (R364). Link
numbers and the free choice of each access's path are log 8's, the records of a failure log 74's, whether a lost access was applied log 75's,
that lanes on other paths are performed log 124's, and fencing log 76's. -/
def Obligations.LinksFailAndReturn : Prop :=
  (∀ (s : State) (n : Nat), n < 16 →
    let x := Tab.get Link.full s.links n
    let with_ := fun (y : Link) => { s with links := Tab.set Link.full s.links n y }
    (x.down = true → exec (.linkFailure n) s = .next s) ∧
    (x.down = false → ∃ (u : State) (d : Nat) (other : List (Nat × Nat)),
      { u with freeCtr := s.freeCtr } = with_ { x with down := true } ∧
      (∀ o ∈ other, ∃ t ∈ s.otherTraffic, o ∈ t.dom ∧ ∃ k ∈ t.keys, mayCross n t.die k = true) ∧
      let fl := ((s.flights.filter (s.flightCrosses n)).zipIdx).map (fun f => (f.1,
        (s.crossing n f.1).zipIdx.map (fun y => (y.1, fateOf n (s.freeCtr + 65 * f.2 + y.2))),
        if n = 10 ∧ f.1.hostPend = true then fateOf n (s.freeCtr + 65 * f.2 + 64) else .clear))
      let gone := (fl.filter (fun f => f.2.1.any (fun y => y.2 = .onLink || y.2 = .beyond && !f.1.losable) ||
        decide (f.2.2 ≠ .clear))).map (fun f => (f.1.region, f.1.fdom)) ++ other
      let v :=
        if gone = [] then u.postEvent ⟨3, 0x100, d, n, 0xFFFF, 0xFFFF, 0, 0, 0⟩
        else if gone.any (fun o => o.1 = 0) = true then
          (u.discard none).1.postEvent ⟨3, 0xFF, d, n, 0xFFFF, 0xFFFF, 0, 0, (u.discard none).2⟩
        else ((gone.map (fun o => o.2)).dedup).foldl (fun t f => t.discardFor 3 d n 0xFFFF 0xFFFF 0 0 f) u
      exec (.linkFailure n) s = .next ((fl.foldl (fun t f => t.lose f.1.id (if f.1.losable = true then
        (f.2.1.filter (fun y => y.2 = .beyond)).map (fun y => y.1) else [])) v).fenceCut.settle)) ∧
    (n ≠ 10 → exec (.linkRetrain n) s = .next (with_ { x with down := false, retrains := x.retrains + 1 })) ∧
    (n = 10 → ∃ v : State, exec (.linkRetrain n) s = .next v ∧ v.evHeld = [] ∧ v.msix = s.msix + s.evHeld.length ∧
      Tab.get Link.full v.links n = { x with down := false, retrains := x.retrains + 1 } ∧ v.ctxs = s.ctxs ∧
      v.cores = s.cores ∧ ∀ k, isHost k = false → v.byte k = s.byte k) ∧
    exec (.flitReplay n) s = .next (with_ { x with replays := x.replays + 1 }) ∧
    (∀ w, exec (.linkWidthChange n w) s = .next (with_ { x with narrowed := w })) ∧
    (10 ≤ n → ∀ k, fateOf n k ≠ .clear)) ∧
  (∀ (s : State) (d q : Nat), ∃ v : State, exec (.linkFreqChange d q) s = .next v ∧ { v with links := s.links } = s ∧
    ∀ n, let e : Nat × Nat := if n < 3 then (n, n + 1) else if n < 6 then (n + 1, n + 2) else (n - 6, n - 2)
      Tab.get Link.full v.links n = if n < 10 ∧ (e.1 = d ∨ e.2 = d) then { Tab.get Link.full s.links n with freq := q }
        else Tab.get Link.full s.links n) ∧
  (∀ (s : State) (f : Flight) (p : Part) (m : List Part), s.flight f.id = some f →
    let lanes := (p :: m).map (fun q => q.lane)
    ∃ u : State, s.lose f.id (p :: m) = u.trapLeaving f (tAtomLost p.va (lanesWord lanes))
        ((s.lanesLeft f).filter (fun q => decide (q.lane ∉ lanes))) ∧
      u.ctxs = s.ctxs ∧ u.flights.map (fun g => g.id) = s.flights.map (fun g => g.id) ∧
      ∀ k, (∀ q ∈ p :: m, k < q.key ∨ q.key + q.len ≤ k) → u.byte k = s.byte k) ∧
  (∀ s : State, (∀ d, d < 8 → (s.die d).phase = .trained → d ∈ s.reach 8 [0]) → s.fenceCut = s) ∧
  ∀ (s : State) (d : Nat), let v := s.fence d
    (v.die d).phase = .fenced ∧ (v.die d).steal = .idle ∧ (v.die d).reqs = [] ∧
      (∀ e ∈ (v.contest 15).entries, e.gov = true → e.die ≠ d) ∧
      Tab.get 0 v.measurements 10 = BitVec.ofNat 384 v.fencedMask.toNat ∧
      (d < 8 → (v.die d).queue = [] ∧ bitAt v.fencedMask.toNat d = true) ∧
      ∀ e ∈ s.cores, coreDie e.1 = d → (v.core e.1).task = none

/-- PACKAGE_RESET, DIE_TRAINING_COMPLETE, the stewards (R318, R373, R374) and the nine SPDM requests (R375). What a package reset
keeps is log 9's choice, a die's generation log 10's, the boundary at which the clocks double log 105's, answers before dim
service log 78's, stewards log 79's, the event of a steward's bad sector log 143's, preload sections log 80's, a record's MIRR
above 16 log 132's, and which slices are spares log 135's. -/
def Obligations.PackageBoots : Prop :=
  ∀ s : State,
    let works := fun (n : Nat) (w : Nat) => (List.range n).filter (fun k => bitAt w k)
    let up := fun (i : DieImage) => Config.signatureOk i.bytes i.sig = true ∧
      144 ≤ (works 152 i.cfg.cores.toNat).length ∧ 512 ≤ (works 528 i.cfg.slices.toNat).length
    (∃ v : State, exec .packageReset s = .next v ∧ v.phase = .reset ∧ v.flash = s.flash ∧ v.ctxs = [] ∧ v.cores = [] ∧
      v.flights = [] ∧ (∀ k, v.byte k = if isHost k = true then s.byte k else 0) ∧
      (Config.loupeFirmwareOk = false → (∀ d, (v.die d).phase = .held) ∧ v.measurements = []) ∧
      (Config.loupeFirmwareOk = true →
        Tab.get 0 v.measurements 1 = Config.sha384 Config.loupeFirmware ∧
        Tab.get 0 v.measurements 10 = BitVec.ofNat 384 v.fencedMask.toNat ∧
        ∀ d, d < 8 →
          (∀ i, Tab.get none s.flash d = some i → Tab.get 0 v.measurements (2 + d) = Config.sha384 i.bytes) ∧
          bitAt v.fencedMask.toNat d = decide ((v.die d).phase = .fenced) ∧
          (∀ i, Tab.get none s.flash d = some i → up i →
            let x := v.die d
            x.phase = .training ∧ x.rootAsid = i.cfg.rootAsid.toNat ∧
            x.stewardTcb = i.cfg.stewardTcb ∧ x.budget = i.cfg.budget.toNat ∧ x.basel = i.cfg.basel.toNat ∧ x.gen = 0 ∧
            x.queue = [] ∧ x.coreMap = (works 152 i.cfg.cores.toNat).take 144 ∧ x.sliceMap.length = 512 ∧
            x.sliceMap.Nodup ∧ (∀ n ∈ x.sliceMap, n ∈ works 528 i.cfg.slices.toNat) ∧
            (∀ n, n < 512 → bitAt i.cfg.slices.toNat n = true → x.sliceMap[n]? = some n) ∧
            (x.sliceMap.filter (fun n => decide (512 ≤ n))).Pairwise (fun a b => a < b) ∧
            (∀ b, b < 64 → bitAt x.atbl.toNat b =
              (decide (b = 0 ∨ 15 ≤ b ∧ b < 48) && bitAt i.cfg.atbl.toNat b)) ∧
            ∀ b, b < 64 → bitAt x.hcfg.toNat b =
              if b < 7 then bitAt (((Tab.get none s.flash 0).map (fun (j : DieImage) => j.cfg.hcfg)).getD 0).toNat b
              else decide (8 ≤ b) && decide (b < 14) && bitAt i.cfg.hcfg.toNat b) ∧
          ((∀ i, Tab.get none s.flash d = some i → ¬up i) → (v.die d).phase = .fenced))) ∧
    (∀ d, (s.die d).phase ≠ .training → exec (.dieTrainingComplete d) s = .next s) ∧
    (∀ d, (s.die d).phase = .training →
      let serves := fun (u : State) =>
        let phase := if s.phase = .reset ∧ (u.die 0).phase = .trained then .dim else s.phase
        let all := (u.die 0).phase = .trained ∧ ∀ e, e < 8 → (u.die e).phase = .trained ∨ (u.die e).phase = .fenced
        (phase = .dim → all → exec (.dieTrainingComplete d) s = .next (((List.range 8).filter (fun e =>
          (u.die e).phase = .trained)).foldl (fun t e => t.startSteward e)
            { u with phase := .full, fullAt := (s.cycle / 4 + 1) * 4 })) ∧
        (¬(phase = .dim ∧ all) → exec (.dieTrainingComplete d) s = .next { u with phase := phase })
      let own := fun (k : Nat) => ∃ o, s.target k = .global d o
      let measured := fun (i : DieImage) => Tab.get none s.flash d = some i ∧ up i ∧
        Config.sha384 i.bytes = Tab.get 0 s.measurements (2 + d)
      (∀ i, measured i → ∃ u : State, serves u ∧ u.ctxs = s.ctxs ∧ u.cores = s.cores ∧
        u.dies = (s.setDie d { s.die d with phase := .trained }).dies ∧ u.phase = s.phase ∧
        (∀ k, ¬own k ∨ (∀ x ∈ i.cfg.preload, k < x.1 ∨ x.1 + x.2.length ≤ k) → u.byte k = s.byte k) ∧
        ∀ a x b, i.cfg.preload = a ++ x :: b → ∀ j, j < x.2.length → own (x.1 + j) →
          (∀ y ∈ b, x.1 + j < y.1 ∨ y.1 + y.2.length ≤ x.1 + j) → some (u.byte (x.1 + j)) = x.2[j]?) ∧
      ((∀ i, ¬measured i) →
        let m := s.fencedMask ||| BitVec.ofNat 8 (2 ^ d)
        serves { s.setDie d { s.die d with phase := .fenced } with
          fencedMask := m, measurements := Tab.set 0 s.measurements 10 (m.setWidth 384) })) ∧
    (∀ d, (s.idleCores d = [] → s.startSteward d = s) ∧
      (∀ e, s.steward d = .error e → s.idleCores d ≠ [] →
        (e.event = none → s.startSteward d = s.touchSteward d) ∧
        ∀ k, e.event = some k → s.startSteward d = (s.touchSteward d).postEvent
          ⟨k, 0x100, d, 0xFF, 0, (s.die d).rootAsid, e.addr.toNat, e.info.toNat, 0⟩) ∧
      ∀ t, s.steward d = .ok t → t.prio = 15 ∧ t.wsp = 0 ∧ t.bound = true ∧ t.region = 0 ∧ t.steward = true ∧
        t.tcb = (s.die d).stewardTcb ∧
        ∀ c l, s.idleCores d = c :: l →
          s.startSteward d = ((s.touchSteward d).fresh.liveUp d t.chain).startTask c t) ∧
    let tells := fun (i : Instr) (m : SpdmMsg) =>
      (s.phase = .reset → exec i s = .next s) ∧ (s.phase ≠ .reset → exec i s = .next { s with spdm := s.spdm ++ [m] })
    let signs := fun (i : Instr) (f : List Byte → SpdmMsg) =>
      ∃ (t : State) (sig : List Byte), exec i s = .next t ∧ { t with freeCtr := s.freeCtr } =
        if s.phase = .reset then s else { s with spdm := s.spdm ++ [f sig] }
    tells .getVersion (.version 1 3) ∧ tells .getCapabilities .capabilities ∧
      tells .negotiateAlgorithms (.algorithms .sha384 [.ecdsaBrainpoolP384r1]) ∧
      tells .getDigests (.digests (Config.sha384 Config.certificate)) ∧
      tells .getCertificate (.certificate Config.certificate) ∧ signs .challenge .challengeAuth ∧
      tells .getMeasurements (.measurements ((List.range 10).map (fun n => (n + 1, Tab.get 0 s.measurements (n + 1))))) ∧
      signs .keyExchange .keyExchange ∧ tells .finish .finish

/-- The checks of R34 before an instruction's own part. The position that DQBLK's width reports is log 17's choice, LMASK
as busy for any vector operand log 20's, SPC's count at a sleep of check 8 log 24's, positions in XINFO logs 25 and 100's, scalar
operands of the system classes log 26's, that the next reader meets a register's error log 107's, no added cycles at a sleep log 113's,
and TRET's wait for writes to the block it restores log 128's. -/
def Obligations.ChecksComeInOrder : Prop :=
  ∀ (i : Instr) (s : State), i.IsInstruction → s.curCtx < 16 →
    let sh := i.shape
    let x := s.me
    let out := fun (o : Nat × Opnd) => 64 * (s.window s.cur o.2.file).blocks < o.2.start.toNat + o.2.width ∨
      (o ∈ sh.scal ∧ o.2.isVec = true) ∨ (o ∈ sh.vect ∧ o.2.isVec = false) ∨
      (sh.vs = false ∧ o.2.isVec = true ∧ o ∈ sh.sources ∧ ∃ d ∈ sh.dsts, d.2.isVec = false)
    let range := ∃ r, sh.range = some r ∧ (s.window s.cur r.1).blocks < r.2.1 + r.2.2
    let wide := fun (n : Nat) => ∃ e ∈ sh.widths, e.1 = n ∧ e.2.1.width ∉ e.2.2
    let alias_ := ∃ a b, sh.dsts = [a, b] ∧ a.2.file = b.2.file ∧ a.2.start.toNat < b.2.start.toNat + b.2.width ∧
      b.2.start.toNat < a.2.start.toNat + a.2.width
    let ok1 := i.WellFormed
    let ok2 := ok1 ∧ (sh.priv = true → x.priv = true)
    let ok3 := ok2 ∧ (∀ o ∈ sh.fields, ¬out o) ∧ ¬range
    let ok4 := ok3 ∧ ∀ n, ¬wide n
    let odd := ∃ f, i = .dqblk f ∧ s.dqWide f = false
    let ok5 := ok4 ∧ ¬alias_ ∧ ¬odd
    let wbs := s.mine.wbs.filter (fun w => w.ctx = s.cur)
    let named := (i.hdr.guard.map (fun g => g.pred.val)).toList ++ sh.prd ++ sh.pwr
    let busy := (∃ o ∈ octs sh.fields ++ sh.rangeOctets ++ sh.more, ∃ w ∈ wbs, w.long = false ∧ o ∈ w.octs) ∨
      (∃ n ∈ named, ∃ w ∈ wbs, n ∈ w.preds) ∨
      ((∃ w ∈ wbs, 15 ∈ w.preds) ∧ (sh.vdata = true ∨ ∃ o ∈ sh.fields, o.2.isVec = true))
    let ok6 := ok5 ∧ ¬busy
    let lim := s.splim (s.cur / 16)
    let dry := x.uncounted = false ∧ lim ≤ x.spc.toNat ∧ i.isSafe = false
    let empty := fun (n : Nat) => ∃ o : Opnd, (∃ p, sh.srcs[n - 1]? = some (p, some o)) ∧ 1 ≤ n ∧
      ∃ q ∈ o.octets, s.octetEmpty s.cur q = true
    let waited := fun (o : Opnd) => (∃ q ∈ o.octets, s.octetEmpty s.cur q = true) ∧
      ((∃ n p, sh.srcs[n]? = some (p, some o) ∧ i.hdr.ea (n + 1) = false) ∨ ∃ r ∈ sh.reads, r.2 = o)
    let written := octs sh.dsts ++ sh.more ++ (if sh.kind = .late then sh.rangeOctets else [])
    let sleeps := fun (q : FileId × Nat) => (∃ o, waited o ∧ q ∈ o.octets) ∨
      (q ∈ written ∧ s.octetEmpty s.cur q = true ∧ ∃ w ∈ wbs, w.long = true ∧ q ∈ w.octs)
    (∀ q, q ∈ sh.more ↔ (∃ f, i = .tret f ∨ i = .tretNext f) ∧ q.1 = .s ∧ q.2 < 8) ∧
    (¬ok1 → TrapsAs i s tUndef) ∧ (ok1 → sh.priv = true → x.priv = false → TrapsAs i s tPriv) ∧
    (∀ n, ok2 → (∃ o ∈ sh.fields, o.1 = n ∧ out o) → (∀ o ∈ sh.fields, out o → n ≤ o.1) → TrapsAs i s (tSliceRange n)) ∧
    (ok2 → (∀ o ∈ sh.fields, ¬out o) → range → TrapsAs i s (tSliceRange 0)) ∧
    (∀ n, ok3 → wide n → (∀ m, wide m → n ≤ m) → TrapsAs i s (tSliceWidth n)) ∧
    (ok4 → alias_ → TrapsAs i s tSliceAlias) ∧ (ok4 → ¬alias_ → odd → TrapsAs i s (tSliceWidth 1)) ∧
    (ok5 → busy → Forfeits i s) ∧
    (ok6 → dry → TrapsAs i s (tSafeDrought (BitVec.ofNat 25 lim))) ∧
    (∀ n, ok6 → ¬dry → empty n → i.hdr.ea n = true → (∀ m, m < n → empty m → i.hdr.ea m = false) →
      TrapsAs i s (tEmptyRead n)) ∧
    (ok6 → ¬dry → (∀ n, empty n → i.hdr.ea n = false) → (∃ q, sleeps q) →
      ∃ (t : State) (l : List (FileId × Nat)), exec i s = .next t ∧ (∀ q, q ∈ l ↔ sleeps q) ∧ t.ctx s.cur = { x with
          ilen := BitVec.ofNat 2 i.hdr.len.code, spc := x.spcAfter lim, counted := true
          run := .asleep (.octets l) s.cycle } ∧
        (∀ q, q ≠ s.cur → t.ctx q = s.ctx q) ∧ { t with ctxs := s.ctxs } = s) ∧
    (ok6 → ¬dry → (∀ n, empty n → i.hdr.ea n = false) → (∀ q, ¬sleeps q) →
      (s.badReg s.cur sh = false → Ready i s) ∧
      (s.badReg s.cur sh = true → ¬odd → exec i s = .next ((s.setCtx s.cur (x.setLen i)).consumeBad 1 (s.cur / 16) 0 0)))

/-- What becomes of an operation all of whose accesses are performed (R25, R138, R160, R237, R241, R257, R271). -/
def Obligations.FinishedOperationsDeliver : Prop :=
  ∀ (s : State) (f : Flight), s.flight f.id = some f → f.ctx < 16 →
    let p := ctxId f.core f.ctx
    (f.allDone = false → s.finish f = s) ∧
    (f.allDone = true → f.lateTrap = none → f.acquire = false → f.hostPend = false →
      let t := s.finish f
      t.flights = s.flights.filter (fun g => g.id ≠ f.id) ∧ t.mem = s.mem ∧
      (∃ due, s.cycle < due ∧ (t.core f.core).wbs = (s.core f.core).wbs.map (fun w => if f.wb = some w.id then { w with
        missing := false, due := due, sl := f.results.1, pr := f.results.2.1, flags := f.results.2.2 } else w)) ∧
      (∀ since, (s.ctx p).run = .asleep (.flight f.id) since →
        (f.landing = none → t.ctx p = { s.ctx p with
          pc := f.nextPc, counted := false, run := .awake, joinAt := s.cycle + 1 }) ∧
        ∀ w, f.landing = some w → t.ctx p = { s.ctx p with
          pc := f.nextPc, counted := false, run := .asleep (.landing w) since }) ∧
      ((∀ since, (s.ctx p).run ≠ .asleep (.flight f.id) since) → t.ctx p = s.ctx p) ∧
      ∀ q, q ≠ p → t.ctx q = s.ctx q) ∧
    (∀ w, f.landing = some w ↔ f.wb = some w ∧ ∃ itr lag pf pa da act, f.op = .agld true itr lag pf pa da act) ∧
    (f.allDone = true → f.lateTrap = none → f.acquire = true →
      s.finish f = (s.setCore f.core (s.core f.core).acquired).finish { f with acquire := false }) ∧
    (∀ e, f.allDone = true → f.lateTrap = some e → s.finish f =
      (if f.acquire = true ∧ e.code = 0x0F then s.setCore f.core (s.core f.core).acquired else s).trapFlight f e) ∧
    (∀ d : Opnd, f.dst = some d → (f.op = .load ∨ f.op = .cntrd ∨ (∃ c, f.op = .ldf c) ∨ ∃ o ty, f.op = .atom o ty) →
      f.results = ([⟨d.file, d.start.toNat, d.width, f.parts.map (fun q => (q.lane, q.res))⟩], [], Flags.none)) ∧
    (∀ file b, f.op = .fill file b →
      f.results = ([⟨file, 64 * b, 64, f.parts.map (fun q => (q.lane, q.res))⟩], [], Flags.none)) ∧
    (∀ (d : Opnd) ty rnd ftz, f.dst = some d → f.op = .gath ty rnd ftz →
      let r := fun (q : Part) => match blkFmt q.res with
        | none => invalid ty.fp
        | some m => if m.code = q.a then convFp ty.fp (.det rnd) ftz (blkVal m q.res q.c) else invalid ty.fp
      f.results = ([⟨d.file, d.start.toNat, d.width, f.parts.map (fun q => (q.lane, (r q).bits))⟩], [],
        Flags.all (f.parts.map (fun q => (r q).fl)))) ∧
    (∀ (d da : Opnd) wait itr lag pf pa act q, f.dst = some d → f.op = .agld wait itr lag pf pa da act → f.parts = [q] →
      let st := BitVec.ofNat 32 q.c
      let ahead := decide (1 ≤ (st - itr).toNat) && decide ((st - itr).toNat < 2 ^ 31)
      let all := fun (n : Nat) (b : Bool) => if n = 15 then [] else [(⟨n, BitVec.allOnes 64, if b then BitVec.allOnes 64 else 0⟩ : PrWrite)]
      f.results = ([⟨d.file, d.start.toNat, d.width, ((List.range (512 / d.bits)).filter (fun l => laneBit act l)).map
        (fun l => (l, bitsAt q.res (l * d.bits) d.bits))⟩,
        ⟨da.file, da.start.toNat, da.width, [(0, if ahead then 0 else min (itr - st).toNat 0xFFFF)]⟩],
        all pf (q.code = 1) ++ all pa ahead, Flags.none) ∧ (q.code = 2 → f.lateTrap = some (tProt q.va 6))) ∧
    ∀ target q, f.parts = [q] →
      (∀ nt, f.op = .waitc target nt → q.code = noShareCode → f.lateTrap = some (tProt q.va 8)) ∧
      (f.op = .waitc target none → q.code ≠ 0 → q.code ≠ noShareCode → f.lateTrap = some (tEngineFault (q.code - 1))) ∧
      (f.op = .waitc target none → q.code = 0 → f.lateTrap = none) ∧
      ∀ n, f.op = .waitc target (some n) → q.code ≠ noShareCode → f.lateTrap = none ∧ f.results.2.1 =
        [⟨n, BitVec.allOnes 64, if q.code = 0 then BitVec.allOnes 64 else 0⟩]

/-- A step runs the instruction at the program counter (R9, R39, R61). Which of the events that may come is taken is a free
choice (log 13). That a failed check of the fetch reports the program counter is log 33's choice; what the end of a cycle checks is
logs 65 and 107's. -/
def Obligations.StepRunsTheDecodedInstruction : Prop :=
  let ends := fun (s w : State) =>
    (∀ i r, w.limitsDue = i :: r → step s = exec i { w with closing := true }) ∧
    (w.limitsDue = [] → step s = .next (
      let z := w.drainAll.settle.dropFetches.freeSlices.ctlErrors.restartStewards.checkAll
      { z with cycle := z.cycle + 1, closing := false
               time := z.time + (if z.phase = .full ∧ z.fullAt ≤ z.cycle then 16 else 32) }))
  (∀ s : State, s.closing = true → ends s s) ∧
  ∀ s : State, s.closing = false → s.inputs = [] → s.timed = [] →
    let n := s.untimed.length
    (n = 0 ∨ (s.sweep = [] ∧ s.cycle < s.sweepAt ∧ Config.freeChoice s.freeCtr % (n + 1) = n)) →
    let u := if n = 0 then s else { s with freeCtr := s.freeCtr + 1 }
    let starts := fun (x : Core) => x.rot = [] ∧ x.rotAt ≤ s.cycle ∧ (s.cycle - x.rotAt) % 4 = 0
    let awake := fun (c : Nat) => (List.range 11).filter (fun k =>
      decide ((s.ctx (ctxId c k)).run = .awake) && decide ((s.ctx (ctxId c k)).joinAt ≤ s.cycle))
    let slot := fun (c k : Nat) (y : Core) => let x := s.core c
      (∃ r, x.rot = k :: r ∧ x.slotAt ≤ s.cycle ∧ y = { x with rot := r, slotAt := s.cycle + 1 }) ∨
      (starts x ∧ ∃ r, awake c = k :: r ∧
        y = { x with rot := r, slotAt := s.cycle + 1, rotAt := s.cycle + max 4 (r.length + 1) })
    let none_ := fun (c : Nat) => ∀ k y, ¬slot c k y
    let lost := fun (y : Core) => { y with perf := Tab.set 0 y.perf 1 (Tab.get 0 y.perf 1 + 1) }
    ((∀ c ∈ s.coreNums, none_ c) → ends s u.drainAll.settle) ∧
    ∀ l c r k y, s.coreNums = l ++ c :: r → (∀ b ∈ l, none_ b) → slot c k y → k < 16 →
      let p := ctxId c k
      let x := s.ctx p
      let v := { u.setCore c y with curCore := c, curCtx := k }
      (x.run ≠ .awake → step s = .next (u.setCore c y)) ∧
      (x.run = .awake → x.forfeits ≠ 0 →
        step s = .next ((u.setCore c (lost y)).setCtx p { x with forfeits := x.forfeits - 1 })) ∧
      (x.run = .awake → x.forfeits = 0 →
        (∀ e, v.fetchPlace p (BitVec.ofNat 64 (x.pc.toNat / 32 * 32)) = .error e → e.isMiss = false → e.event = none →
          step s = .next ((v.setCtx p { x with ilen := 3 }).raise p { e with addr := x.pc })) ∧
        ∀ pl, v.fetchPlace p (BitVec.ofNat 64 (x.pc.toNat / 32 * 32)) = .ok pl →
          let held := (x.fetch.filter (fun b => b.key = pl.key)).or ((s.core c).l0.find? (fun b => b.key = pl.key))
          let at_ := fun (t : State) (z : Core) (f : Option CodeBlock) => t.cur = p ∧ t.ctx p = { x with fetch := f } ∧
            (∀ q, q ≠ p → t.ctx q = s.ctx q) ∧ t.core c = { z with tlb := (t.core c).tlb } ∧
            (∀ b, b ≠ c → t.core b = s.core b) ∧ (∀ d, t.die d = { s.die d with tlb := (t.die d).tlb }) ∧
            { t with ctxs := s.ctxs, cores := s.cores, dies := s.dies, curCore := s.curCore, curCtx := s.curCtx } = u
          (held = none → ∃ t : State, step s = .next t ∧ at_ t (lost y) x.fetch) ∧
          ∀ b, held = some b → let code := b.bytes.drop (x.pc.toNat % 32)
            (∀ i m, decode code = .ok (i, m) → ∃ t : State, step s = exec i t ∧ at_ t y (some b)) ∧
            ∀ e, decode code = .error e → ∃ t : State, step s = .next (t.raise p tUndef) ∧ (t.ctx p).pc = x.pc ∧
              t.mem = s.mem)

/-- Worked encodings of the spec's tables (R36 to R57). -/
def Obligations.WordsDecode : Prop :=
  let h := fun (l : Len) => (⟨l, none, false, false, false⟩ : Hdr)
  let o := fun (f : FileId) (a : Nat) (w : WCode) => (⟨f, w, BitVec.ofNat 11 a⟩ : Opnd)
  let is := fun (n w : Nat) (i : Instr) => decode (leBytes n w) = .ok (i, [])
  is 8 0x000FFFFFFFF0FC24 (.nop64 ⟨h .b8⟩) ∧
  is 12 0x00001022014080A18000F001 (.add ⟨h .b12, .i8, true, false, o .v 0 .w4, o .v 10 .w2, o .v 20 .w6⟩) ∧
  is 16 0x0000000001128582850284828404340E (.fma ⟨⟨.b16, some ⟨3, false⟩, false, true, false⟩, .f32, .rne, false,
    o .v 64 .w8, o .v 72 .w8, o .v 80 .w8, o .v 88 .w8⟩) ∧
  is 12 0x50500202814700028080F801 (.ld ⟨h .b12, o .v 8 .w8, o .s 0 .w16, some (o .v 20 .w8), 32,
    ⟨.die, .sync, 0, true, .evictFirst⟩⟩) ∧
  is 8 0xFFFFFFCFFFF0FC00 (.br ⟨h .b8, BitVec.ofInt 28 (-4)⟩) ∧
  is 12 0x000BC06FFFF280828000F04D (.cmp ⟨h .b12, .i32, .lt, 15, o .v 0 .w8, o .v 8 .w8⟩) ∧
  is 12 0x0004432FFFF280818000F601 (.cvt ⟨h .b12, .f16, .f32, .rtz, false, false, o .v 0 .w4, o .v 8 .w8⟩) ∧
  is 16 0x0000000000EFFFF6808701068000FA02 (.atadd ⟨h .b16, .n32, false, some (o .s 0 .w8), o .s 16 .w16, o .s 8 .w8,
    .relaxed, .core, 0⟩) ∧
  is 8 0x400FFFFFFFF0FC50 (.tretNext ⟨h .b8⟩) ∧
  is 16 0x00000000001FFFFFFFFFFFF70100FE02 (.cpset ⟨h .b16, 1, .reg (o .s 16 .w16)⟩) ∧
  is 16 0x000000005E3FFFFFFFF681070000FE22 (.prentHold ⟨h .b16, false, o .s 0 .w16, 3, .reg (o .s 16 .w8), 15⟩) ∧
  ∀ b r, b.toNat % 4 = 3 → ∀ i m, decode (b :: r) ≠ .ok (i, m)

/-- The decoder and the encoder agree both ways (R36 to R51). -/
def Obligations.EncodingsRoundTrip : Prop :=
  (∀ (i : Instr) (r : List Byte), i.WellFormed → decode (encode i ++ r) = .ok (i, r)) ∧
  ∀ (l r : List Byte) (i : Instr), decode l = .ok (i, r) → i.WellFormed ∧ l = encode i ++ r

/-- An invariant of every step. The memory's canonical form and the turn marker are the model's own (log 1, log 4). -/
def Obligations.EveryStepGoesOnAndKeepsTheMachine : Prop :=
  let inv := fun (s : State) => Memory.wf s.mem = true ∧ s.curCtx < 11 ∧ ∀ e ∈ s.cores, ∀ k ∈ e.2.rot, k < 11
  (∀ s : State, ∃ t, step s = .next t ∧ (inv s → inv t)) ∧ Safety.Safe State.reset ∧
    ∀ n t, Safety.run n State.reset = some t → inv t

/-- The machine right after reset (R373). Registers the spec gives no reset value hold the model's (log 7, log 12). -/
def Obligations.ResetState : Prop :=
  let s := State.reset
  (∀ d, s.die d = Die.held ∧ (s.die d).phase = .held) ∧ (∀ c, (s.core c).task = none ∧ (s.core c).copies = [] ∧
    (s.core c).mats = [] ∧ (s.core c).xid = 1) ∧
  (∀ p, s.ctx p = Ctx.idle ∧ (s.ctx p).run = .free) ∧ s.flights = [] ∧ s.ctrUps = [] ∧ s.staging = [] ∧
  (∀ c, (s.contest c).entries = [] ∧ (s.contest c).holder = none ∧ (s.contest c).latched = 0) ∧ s.evSeq = 0 ∧
  (∀ k, s.byte k = 0 ∧ s.tagFull k = true) ∧ Memory.wf s.mem = true ∧ s.curCtx < 11 ∧ (∀ e ∈ s.cores, ∀ k ∈ e.2.rot, k < 11) ∧
  step s = .next { s with cycle := 1, time := 32 } ∧ s.out = [] ∧ s.spdm = [] ∧ (∀ x, s.storedCheck x = s.checkValue x) ∧
  crc32c ((List.range 9).map (fun n => BitVec.ofNat 8 (0x31 + n))) = 0xE3069283
end

