-- ==== Sys2Proof/Laws/Home.lean ====
section
/-! SUPPORT. The stored check value of a sector, and what a sector that verifies is (R358, R361, R362). -/

namespace Sys2Proof.Laws

open Machine

/-- A stored check value is the CRC-32C of what it covers exactly where the state keeps no difference. -/
theorem storedCheck_eq_iff (s : State) (x : Nat) : s.storedCheck x = s.checkValue x ↔ Tab.get 0 s.checkDiff x = 0 := by
  simp only [State.storedCheck]
  constructor
  · intro h
    have := congrArg (s.checkValue x ^^^ ·) h
    simpa [← BitVec.xor_assoc] using this
  · intro h
    rw [h]
    simp

/-- A sector is sound exactly where it holds no uncorrectable error, its check value is that of its bytes, and its key has not
been replaced, or is still cached. -/
theorem badSector_eq_none_iff (s : State) (x : Nat) : s.badSector x = none ↔
    Tab.get false s.ueSectors x = false ∧ s.storedCheck x = s.checkValue x ∧
      staleNow (Tab.get none s.stale x) x s.cycle = false := by
  rw [storedCheck_eq_iff]
  simp only [State.badSector]
  cases Tab.get false s.ueSectors x <;> cases staleNow (Tab.get none s.stale x) x s.cycle <;> simp

end Sys2Proof.Laws
end

