-- ==== Sys2Proof/Laws/Tab.lean ====
section
/-! SUPPORT. Laws of tables: reading after writing, and that every operation keeps the canonical form. -/

namespace Sys2Proof

@[simp] theorem Tab.get_nil {α : Type} {d : α} (k : Nat) : Tab.get d [] k = d := rfl

variable {α : Type} [DecidableEq α] {d : α}

omit [DecidableEq α] in
/-- A dropped entry reads as the default, and every other entry as before. -/
theorem Tab.get_drop (p : Nat → Bool) (t : Tab α) (k : Nat) :
    Tab.get d (Tab.drop p t) k = if p k then d else Tab.get d t k := by
  induction t with
  | nil => simp [Tab.drop, Tab.get]
  | cons e r ih =>
    obtain ⟨a, v⟩ := e
    simp only [Tab.drop, List.filter_cons, Tab.get] at ih ⊢
    by_cases h : a = k
    · subst h; cases hp : p a <;> simp_all [Tab.get]
    · cases p a <;> simp_all [Tab.get]

/-- The entry just set reads as it was set. -/
@[simp] theorem Tab.get_set_self (t : Tab α) (k : Nat) (v : α) : Tab.get d (Tab.set d t k v) k = v := by
  induction t with
  | nil => by_cases h : v = d <;> simp [Tab.set, Tab.get, h]
  | cons e r ih =>
    obtain ⟨a, w⟩ := e
    simp only [Tab.set]
    split
    · rename_i h; simp [Tab.get, ih, Nat.ne_of_lt h]
    · split
      · rename_i h; simp [Tab.get_drop, h]
      · split <;> simp [Tab.get]

/-- Setting one entry leaves every other as it was. -/
theorem Tab.get_set_ne (t : Tab α) {k j : Nat} (v : α) (h : j ≠ k) :
    Tab.get d (Tab.set d t k v) j = Tab.get d t j := by
  induction t with
  | nil => by_cases hv : v = d <;> simp [Tab.set, Tab.get, hv]; intro hk; exact absurd hk.symm h
  | cons e r ih =>
    obtain ⟨a, w⟩ := e
    simp only [Tab.set]
    split
    · simp [Tab.get, ih]
    · split
      · simp [Tab.get_drop, h]
      · split
        · rename_i ha; subst ha; simp [Tab.get, Ne.symm h]
        · simp [Tab.get, Ne.symm h]

theorem Tab.get_set (t : Tab α) (k j : Nat) (v : α) :
    Tab.get d (Tab.set d t k v) j = if j = k then v else Tab.get d t j := by
  by_cases h : j = k
  · subst h; simp
  · simp [h, Tab.get_set_ne]

/-! The canonical form. -/

@[simp] theorem Tab.wf_nil : Tab.wf d [] = true := rfl

theorem Tab.wf_cons {a : Nat} {v : α} {r : Tab α} :
    Tab.wf d ((a, v) :: r) = true ↔ v ≠ d ∧ (∀ e ∈ r, a < e.1) ∧ Tab.wf d r = true := by
  simp [Tab.wf, and_assoc]

theorem Tab.wf_filter (p : Nat × α → Bool) {t : Tab α} (h : Tab.wf d t = true) : Tab.wf d (t.filter p) = true := by
  induction t with
  | nil => rfl
  | cons e r ih =>
    obtain ⟨a, v⟩ := e
    obtain ⟨hv, ha, hr⟩ := Tab.wf_cons.mp h
    simp only [List.filter_cons]
    split
    · exact Tab.wf_cons.mpr ⟨hv, fun e he => ha e (List.mem_of_mem_filter he), ih hr⟩
    · exact ih hr

theorem Tab.wf_drop (p : Nat → Bool) {t : Tab α} (h : Tab.wf d t = true) : Tab.wf d (Tab.drop p t) = true :=
  Tab.wf_filter _ h

/-- The numbers of a table after a set are those before it and the number set. -/
theorem Tab.mem_set {t : Tab α} {k : Nat} {v : α} {e : Nat × α} (h : e ∈ Tab.set d t k v) : e.1 = k ∨ e ∈ t := by
  induction t with
  | nil => simp only [Tab.set] at h; split at h <;> simp_all
  | cons x r ih =>
    obtain ⟨a, w⟩ := x
    simp only [Tab.set] at h
    split at h
    · rcases List.mem_cons.mp h with h | h
      · exact .inr (h ▸ List.mem_cons_self)
      · exact (ih h).imp_right (List.mem_cons_of_mem _)
    · split at h
      · exact .inr (List.mem_of_mem_filter h)
      · split at h <;> rcases List.mem_cons.mp h with h | h
        · exact .inl (h ▸ rfl)
        · exact .inr (List.mem_cons_of_mem _ h)
        · exact .inl (h ▸ rfl)
        · exact .inr h

/-- Setting an entry keeps the canonical form. -/
theorem Tab.wf_set {t : Tab α} (h : Tab.wf d t = true) (k : Nat) (v : α) : Tab.wf d (Tab.set d t k v) = true := by
  induction t with
  | nil => simp only [Tab.set]; split <;> simp_all [Tab.wf]
  | cons x r ih =>
    obtain ⟨a, w⟩ := x
    obtain ⟨hw, ha, hr⟩ := Tab.wf_cons.mp h
    simp only [Tab.set]
    split
    · rename_i hk
      refine Tab.wf_cons.mpr ⟨hw, fun e he => ?_, ih hr⟩
      exact (Tab.mem_set he).elim (fun q => q ▸ hk) (ha e)
    · rename_i hk
      split
      · exact Tab.wf_drop _ h
      · rename_i hv
        split
        · rename_i q; exact Tab.wf_cons.mpr ⟨hv, fun e he => q ▸ ha e he, hr⟩
        · rename_i q
          have hlt : k < a := by omega
          refine Tab.wf_cons.mpr ⟨hv, fun e he => ?_, h⟩
          rcases List.mem_cons.mp he with he | he
          · exact he ▸ hlt
          · exact Nat.lt_trans hlt (ha e he)

theorem Tab.wf_setMany {t : Tab α} (h : Tab.wf d t = true) (l : List (Nat × α)) : Tab.wf d (Tab.setMany d t l) = true := by
  induction l generalizing t with
  | nil => exact h
  | cons e r ih => exact ih (Tab.wf_set h e.1 e.2)

theorem Tab.wf_setList {t : Tab α} (h : Tab.wf d t = true) (k : Nat) (l : List α) :
    Tab.wf d (Tab.setList d t k l) = true := by
  induction l generalizing t k with
  | nil => exact h
  | cons v r ih => exact ih (Tab.wf_set h k v) (k + 1)

/-- An entry not named by a list of sets reads as before. -/
theorem Tab.get_setMany_ne (t : Tab α) (l : List (Nat × α)) {k : Nat} (h : ∀ e ∈ l, e.1 ≠ k) :
    Tab.get d (Tab.setMany d t l) k = Tab.get d t k := by
  induction l generalizing t with
  | nil => rfl
  | cons e r ih =>
    obtain ⟨a, v⟩ := e
    rw [Tab.setMany, ih _ (fun x hx => h x (List.mem_cons_of_mem _ hx))]
    exact Tab.get_set_ne _ _ (fun q => h (a, v) List.mem_cons_self q.symm)

/-- Equal reads of canonical tables are equal tables. -/
theorem Tab.ext_of_get {t u : Tab α} (ht : Tab.wf d t = true) (hu : Tab.wf d u = true)
    (h : ∀ k, Tab.get d t k = Tab.get d u k) : t = u := by
  have low : ∀ {r : Tab α} {k : Nat}, (∀ e ∈ r, k < e.1) → Tab.get d r k = d := by
    intro r k hr
    induction r with
    | nil => rfl
    | cons e q ih =>
      rw [Tab.get, if_neg (Nat.ne_of_gt (hr e List.mem_cons_self)), ih (fun x hx => hr x (List.mem_cons_of_mem _ hx))]
  induction t generalizing u with
  | nil =>
    cases u with
    | nil => rfl
    | cons e r =>
      obtain ⟨a, v⟩ := e
      have := h a
      simp only [Tab.get, if_pos] at this
      exact absurd this.symm (Tab.wf_cons.mp hu).1
  | cons e r ih =>
    obtain ⟨a, v⟩ := e
    obtain ⟨hv, ha, hr⟩ := Tab.wf_cons.mp ht
    cases u with
    | nil =>
      have := h a
      simp only [Tab.get, if_pos] at this
      exact absurd this hv
    | cons f q =>
      obtain ⟨b, w⟩ := f
      obtain ⟨hw, hb, hq⟩ := Tab.wf_cons.mp hu
      have hab : a = b := by
        rcases Nat.lt_trichotomy a b with hlt | heq | hlt
        · have := h a
          simp only [Tab.get, if_pos, if_neg (Nat.ne_of_gt hlt)] at this
          rw [low (fun x hx => Nat.lt_trans hlt (hb x hx))] at this
          exact absurd this hv
        · exact heq
        · have := h b
          simp only [Tab.get, if_pos, if_neg (Nat.ne_of_gt hlt)] at this
          rw [low (fun x hx => Nat.lt_trans hlt (ha x hx))] at this
          exact absurd this.symm hw
      subst hab
      have hvw : v = w := by simpa [Tab.get] using h a
      subst hvw
      congr 1
      refine ih hr hq (fun k => ?_)
      by_cases hk : a = k
      · subst hk; rw [low ha, low hb]
      · simpa [Tab.get, hk] using h k

end Sys2Proof
end

