-- ==== Sys2Proof/Laws/State.lean ====
section
/-! SUPPORT. What each update of the state leaves in each field, and the parts of the state read after an update. -/

namespace Sys2Proof.Machine

/-! setCore. -/

@[simp] theorem State.setCore_time (s : State) (c : Nat) (x : Core) : (s.setCore c x).time = s.time := rfl
@[simp] theorem State.setCore_cycle (s : State) (c : Nat) (x : Core) : (s.setCore c x).cycle = s.cycle := rfl
@[simp] theorem State.setCore_phase (s : State) (c : Nat) (x : Core) : (s.setCore c x).phase = s.phase := rfl
@[simp] theorem State.setCore_curCore (s : State) (c : Nat) (x : Core) : (s.setCore c x).curCore = s.curCore := rfl
@[simp] theorem State.setCore_curCtx (s : State) (c : Nat) (x : Core) : (s.setCore c x).curCtx = s.curCtx := rfl
@[simp] theorem State.setCore_inputs (s : State) (c : Nat) (x : Core) : (s.setCore c x).inputs = s.inputs := rfl
@[simp] theorem State.setCore_freeCtr (s : State) (c : Nat) (x : Core) : (s.setCore c x).freeCtr = s.freeCtr := rfl
@[simp] theorem State.setCore_nextId (s : State) (c : Nat) (x : Core) : (s.setCore c x).nextId = s.nextId := rfl
@[simp] theorem State.setCore_mem (s : State) (c : Nat) (x : Core) : (s.setCore c x).mem = s.mem := rfl
@[simp] theorem State.setCore_emptyTags (s : State) (c : Nat) (x : Core) :
    (s.setCore c x).emptyTags = s.emptyTags := rfl
@[simp] theorem State.setCore_aged (s : State) (c : Nat) (x : Core) : (s.setCore c x).aged = s.aged := rfl
@[simp] theorem State.setCore_stamps (s : State) (c : Nat) (x : Core) : (s.setCore c x).stamps = s.stamps := rfl
@[simp] theorem State.setCore_keyIdx (s : State) (c : Nat) (x : Core) : (s.setCore c x).keyIdx = s.keyIdx := rfl
@[simp] theorem State.setCore_keyReq (s : State) (c : Nat) (x : Core) : (s.setCore c x).keyReq = s.keyReq := rfl
@[simp] theorem State.setCore_checkDiff (s : State) (c : Nat) (x : Core) :
    (s.setCore c x).checkDiff = s.checkDiff := rfl
@[simp] theorem State.setCore_stale (s : State) (c : Nat) (x : Core) : (s.setCore c x).stale = s.stale := rfl
@[simp] theorem State.setCore_ueRegs (s : State) (c : Nat) (x : Core) : (s.setCore c x).ueRegs = s.ueRegs := rfl
@[simp] theorem State.setCore_ueCmds (s : State) (c : Nat) (x : Core) : (s.setCore c x).ueCmds = s.ueCmds := rfl
@[simp] theorem State.setCore_ueCtl (s : State) (c : Nat) (x : Core) : (s.setCore c x).ueCtl = s.ueCtl := rfl
@[simp] theorem State.setCore_corrected (s : State) (c : Nat) (x : Core) :
    (s.setCore c x).corrected = s.corrected := rfl
@[simp] theorem State.setCore_fullAt (s : State) (c : Nat) (x : Core) : (s.setCore c x).fullAt = s.fullAt := rfl
@[simp] theorem State.setCore_sweep (s : State) (c : Nat) (x : Core) : (s.setCore c x).sweep = s.sweep := rfl
@[simp] theorem State.setCore_sweepAt (s : State) (c : Nat) (x : Core) : (s.setCore c x).sweepAt = s.sweepAt := rfl
@[simp] theorem State.setCore_closing (s : State) (c : Nat) (x : Core) : (s.setCore c x).closing = s.closing := rfl
@[simp] theorem State.setCore_outHold (s : State) (c : Nat) (x : Core) : (s.setCore c x).outHold = s.outHold := rfl
@[simp] theorem State.setCore_ueSectors (s : State) (c : Nat) (x : Core) :
    (s.setCore c x).ueSectors = s.ueSectors := rfl
@[simp] theorem State.setCore_objs (s : State) (c : Nat) (x : Core) : (s.setCore c x).objs = s.objs := rfl
@[simp] theorem State.setCore_flights (s : State) (c : Nat) (x : Core) : (s.setCore c x).flights = s.flights := rfl
@[simp] theorem State.setCore_ctrUps (s : State) (c : Nat) (x : Core) : (s.setCore c x).ctrUps = s.ctrUps := rfl
@[simp] theorem State.setCore_staging (s : State) (c : Nat) (x : Core) : (s.setCore c x).staging = s.staging := rfl
@[simp] theorem State.setCore_l2 (s : State) (c : Nat) (x : Core) : (s.setCore c x).l2 = s.l2 := rfl
@[simp] theorem State.setCore_slices (s : State) (c : Nat) (x : Core) : (s.setCore c x).slices = s.slices := rfl
@[simp] theorem State.setCore_contests (s : State) (c : Nat) (x : Core) : (s.setCore c x).contests = s.contests := rfl
@[simp] theorem State.setCore_evbase (s : State) (c : Nat) (x : Core) : (s.setCore c x).evbase = s.evbase := rfl
@[simp] theorem State.setCore_evctl (s : State) (c : Nat) (x : Core) : (s.setCore c x).evctl = s.evctl := rfl
@[simp] theorem State.setCore_evSeq (s : State) (c : Nat) (x : Core) : (s.setCore c x).evSeq = s.evSeq := rfl
@[simp] theorem State.setCore_evHeld (s : State) (c : Nat) (x : Core) : (s.setCore c x).evHeld = s.evHeld := rfl
@[simp] theorem State.setCore_msix (s : State) (c : Nat) (x : Core) : (s.setCore c x).msix = s.msix := rfl
@[simp] theorem State.setCore_iocfg (s : State) (c : Nat) (x : Core) : (s.setCore c x).iocfg = s.iocfg := rfl
@[simp] theorem State.setCore_inga (s : State) (c : Nat) (x : Core) : (s.setCore c x).inga = s.inga := rfl
@[simp] theorem State.setCore_ingl (s : State) (c : Nat) (x : Core) : (s.setCore c x).ingl = s.ingl := rfl
@[simp] theorem State.setCore_ingc (s : State) (c : Nat) (x : Core) : (s.setCore c x).ingc = s.ingc := rfl
@[simp] theorem State.setCore_links (s : State) (c : Nat) (x : Core) : (s.setCore c x).links = s.links := rfl
@[simp] theorem State.setCore_flash (s : State) (c : Nat) (x : Core) : (s.setCore c x).flash = s.flash := rfl
@[simp] theorem State.setCore_measurements (s : State) (c : Nat) (x : Core) :
    (s.setCore c x).measurements = s.measurements := rfl
@[simp] theorem State.setCore_fencedMask (s : State) (c : Nat) (x : Core) :
    (s.setCore c x).fencedMask = s.fencedMask := rfl
@[simp] theorem State.setCore_spdm (s : State) (c : Nat) (x : Core) : (s.setCore c x).spdm = s.spdm := rfl
@[simp] theorem State.setCore_out (s : State) (c : Nat) (x : Core) : (s.setCore c x).out = s.out := rfl
@[simp] theorem State.setCore_ranOn (s : State) (c : Nat) (x : Core) : (s.setCore c x).ranOn = s.ranOn := rfl
@[simp] theorem State.setCore_dies (s : State) (c : Nat) (x : Core) : (s.setCore c x).dies = s.dies := rfl
@[simp] theorem State.setCore_cores (s : State) (c : Nat) (x : Core) :
    (s.setCore c x).cores = Tab.set Core.idle s.cores c x := rfl
@[simp] theorem State.setCore_ctxs (s : State) (c : Nat) (x : Core) : (s.setCore c x).ctxs = s.ctxs := rfl

/-! setCtx. -/

@[simp] theorem State.setCtx_time (s : State) (p : Nat) (x : Ctx) : (s.setCtx p x).time = s.time := rfl
@[simp] theorem State.setCtx_cycle (s : State) (p : Nat) (x : Ctx) : (s.setCtx p x).cycle = s.cycle := rfl
@[simp] theorem State.setCtx_phase (s : State) (p : Nat) (x : Ctx) : (s.setCtx p x).phase = s.phase := rfl
@[simp] theorem State.setCtx_curCore (s : State) (p : Nat) (x : Ctx) : (s.setCtx p x).curCore = s.curCore := rfl
@[simp] theorem State.setCtx_curCtx (s : State) (p : Nat) (x : Ctx) : (s.setCtx p x).curCtx = s.curCtx := rfl
@[simp] theorem State.setCtx_inputs (s : State) (p : Nat) (x : Ctx) : (s.setCtx p x).inputs = s.inputs := rfl
@[simp] theorem State.setCtx_freeCtr (s : State) (p : Nat) (x : Ctx) : (s.setCtx p x).freeCtr = s.freeCtr := rfl
@[simp] theorem State.setCtx_nextId (s : State) (p : Nat) (x : Ctx) : (s.setCtx p x).nextId = s.nextId := rfl
@[simp] theorem State.setCtx_mem (s : State) (p : Nat) (x : Ctx) : (s.setCtx p x).mem = s.mem := rfl
@[simp] theorem State.setCtx_emptyTags (s : State) (p : Nat) (x : Ctx) : (s.setCtx p x).emptyTags = s.emptyTags := rfl
@[simp] theorem State.setCtx_aged (s : State) (p : Nat) (x : Ctx) : (s.setCtx p x).aged = s.aged := rfl
@[simp] theorem State.setCtx_stamps (s : State) (p : Nat) (x : Ctx) : (s.setCtx p x).stamps = s.stamps := rfl
@[simp] theorem State.setCtx_keyIdx (s : State) (p : Nat) (x : Ctx) : (s.setCtx p x).keyIdx = s.keyIdx := rfl
@[simp] theorem State.setCtx_keyReq (s : State) (p : Nat) (x : Ctx) : (s.setCtx p x).keyReq = s.keyReq := rfl
@[simp] theorem State.setCtx_checkDiff (s : State) (p : Nat) (x : Ctx) : (s.setCtx p x).checkDiff = s.checkDiff := rfl
@[simp] theorem State.setCtx_stale (s : State) (p : Nat) (x : Ctx) : (s.setCtx p x).stale = s.stale := rfl
@[simp] theorem State.setCtx_ueRegs (s : State) (p : Nat) (x : Ctx) : (s.setCtx p x).ueRegs = s.ueRegs := rfl
@[simp] theorem State.setCtx_ueCmds (s : State) (p : Nat) (x : Ctx) : (s.setCtx p x).ueCmds = s.ueCmds := rfl
@[simp] theorem State.setCtx_ueCtl (s : State) (p : Nat) (x : Ctx) : (s.setCtx p x).ueCtl = s.ueCtl := rfl
@[simp] theorem State.setCtx_corrected (s : State) (p : Nat) (x : Ctx) : (s.setCtx p x).corrected = s.corrected := rfl
@[simp] theorem State.setCtx_fullAt (s : State) (p : Nat) (x : Ctx) : (s.setCtx p x).fullAt = s.fullAt := rfl
@[simp] theorem State.setCtx_sweep (s : State) (p : Nat) (x : Ctx) : (s.setCtx p x).sweep = s.sweep := rfl
@[simp] theorem State.setCtx_sweepAt (s : State) (p : Nat) (x : Ctx) : (s.setCtx p x).sweepAt = s.sweepAt := rfl
@[simp] theorem State.setCtx_closing (s : State) (p : Nat) (x : Ctx) : (s.setCtx p x).closing = s.closing := rfl
@[simp] theorem State.setCtx_outHold (s : State) (p : Nat) (x : Ctx) : (s.setCtx p x).outHold = s.outHold := rfl
@[simp] theorem State.setCtx_ueSectors (s : State) (p : Nat) (x : Ctx) : (s.setCtx p x).ueSectors = s.ueSectors := rfl
@[simp] theorem State.setCtx_objs (s : State) (p : Nat) (x : Ctx) : (s.setCtx p x).objs = s.objs := rfl
@[simp] theorem State.setCtx_flights (s : State) (p : Nat) (x : Ctx) : (s.setCtx p x).flights = s.flights := rfl
@[simp] theorem State.setCtx_ctrUps (s : State) (p : Nat) (x : Ctx) : (s.setCtx p x).ctrUps = s.ctrUps := rfl
@[simp] theorem State.setCtx_staging (s : State) (p : Nat) (x : Ctx) : (s.setCtx p x).staging = s.staging := rfl
@[simp] theorem State.setCtx_l2 (s : State) (p : Nat) (x : Ctx) : (s.setCtx p x).l2 = s.l2 := rfl
@[simp] theorem State.setCtx_slices (s : State) (p : Nat) (x : Ctx) : (s.setCtx p x).slices = s.slices := rfl
@[simp] theorem State.setCtx_contests (s : State) (p : Nat) (x : Ctx) : (s.setCtx p x).contests = s.contests := rfl
@[simp] theorem State.setCtx_evbase (s : State) (p : Nat) (x : Ctx) : (s.setCtx p x).evbase = s.evbase := rfl
@[simp] theorem State.setCtx_evctl (s : State) (p : Nat) (x : Ctx) : (s.setCtx p x).evctl = s.evctl := rfl
@[simp] theorem State.setCtx_evSeq (s : State) (p : Nat) (x : Ctx) : (s.setCtx p x).evSeq = s.evSeq := rfl
@[simp] theorem State.setCtx_evHeld (s : State) (p : Nat) (x : Ctx) : (s.setCtx p x).evHeld = s.evHeld := rfl
@[simp] theorem State.setCtx_msix (s : State) (p : Nat) (x : Ctx) : (s.setCtx p x).msix = s.msix := rfl
@[simp] theorem State.setCtx_iocfg (s : State) (p : Nat) (x : Ctx) : (s.setCtx p x).iocfg = s.iocfg := rfl
@[simp] theorem State.setCtx_inga (s : State) (p : Nat) (x : Ctx) : (s.setCtx p x).inga = s.inga := rfl
@[simp] theorem State.setCtx_ingl (s : State) (p : Nat) (x : Ctx) : (s.setCtx p x).ingl = s.ingl := rfl
@[simp] theorem State.setCtx_ingc (s : State) (p : Nat) (x : Ctx) : (s.setCtx p x).ingc = s.ingc := rfl
@[simp] theorem State.setCtx_links (s : State) (p : Nat) (x : Ctx) : (s.setCtx p x).links = s.links := rfl
@[simp] theorem State.setCtx_flash (s : State) (p : Nat) (x : Ctx) : (s.setCtx p x).flash = s.flash := rfl
@[simp] theorem State.setCtx_measurements (s : State) (p : Nat) (x : Ctx) :
    (s.setCtx p x).measurements = s.measurements := rfl
@[simp] theorem State.setCtx_fencedMask (s : State) (p : Nat) (x : Ctx) :
    (s.setCtx p x).fencedMask = s.fencedMask := rfl
@[simp] theorem State.setCtx_spdm (s : State) (p : Nat) (x : Ctx) : (s.setCtx p x).spdm = s.spdm := rfl
@[simp] theorem State.setCtx_out (s : State) (p : Nat) (x : Ctx) : (s.setCtx p x).out = s.out := rfl
@[simp] theorem State.setCtx_ranOn (s : State) (p : Nat) (x : Ctx) : (s.setCtx p x).ranOn = s.ranOn := rfl
@[simp] theorem State.setCtx_dies (s : State) (p : Nat) (x : Ctx) : (s.setCtx p x).dies = s.dies := rfl
@[simp] theorem State.setCtx_cores (s : State) (p : Nat) (x : Ctx) : (s.setCtx p x).cores = s.cores := rfl
@[simp] theorem State.setCtx_ctxs (s : State) (p : Nat) (x : Ctx) :
    (s.setCtx p x).ctxs = Tab.set Ctx.idle s.ctxs p x := rfl

/-! setDie. -/

@[simp] theorem State.setDie_time (s : State) (d : Nat) (x : Die) : (s.setDie d x).time = s.time := rfl
@[simp] theorem State.setDie_cycle (s : State) (d : Nat) (x : Die) : (s.setDie d x).cycle = s.cycle := rfl
@[simp] theorem State.setDie_phase (s : State) (d : Nat) (x : Die) : (s.setDie d x).phase = s.phase := rfl
@[simp] theorem State.setDie_curCore (s : State) (d : Nat) (x : Die) : (s.setDie d x).curCore = s.curCore := rfl
@[simp] theorem State.setDie_curCtx (s : State) (d : Nat) (x : Die) : (s.setDie d x).curCtx = s.curCtx := rfl
@[simp] theorem State.setDie_inputs (s : State) (d : Nat) (x : Die) : (s.setDie d x).inputs = s.inputs := rfl
@[simp] theorem State.setDie_freeCtr (s : State) (d : Nat) (x : Die) : (s.setDie d x).freeCtr = s.freeCtr := rfl
@[simp] theorem State.setDie_nextId (s : State) (d : Nat) (x : Die) : (s.setDie d x).nextId = s.nextId := rfl
@[simp] theorem State.setDie_mem (s : State) (d : Nat) (x : Die) : (s.setDie d x).mem = s.mem := rfl
@[simp] theorem State.setDie_emptyTags (s : State) (d : Nat) (x : Die) : (s.setDie d x).emptyTags = s.emptyTags := rfl
@[simp] theorem State.setDie_aged (s : State) (d : Nat) (x : Die) : (s.setDie d x).aged = s.aged := rfl
@[simp] theorem State.setDie_stamps (s : State) (d : Nat) (x : Die) : (s.setDie d x).stamps = s.stamps := rfl
@[simp] theorem State.setDie_keyIdx (s : State) (d : Nat) (x : Die) : (s.setDie d x).keyIdx = s.keyIdx := rfl
@[simp] theorem State.setDie_keyReq (s : State) (d : Nat) (x : Die) : (s.setDie d x).keyReq = s.keyReq := rfl
@[simp] theorem State.setDie_checkDiff (s : State) (d : Nat) (x : Die) : (s.setDie d x).checkDiff = s.checkDiff := rfl
@[simp] theorem State.setDie_stale (s : State) (d : Nat) (x : Die) : (s.setDie d x).stale = s.stale := rfl
@[simp] theorem State.setDie_ueRegs (s : State) (d : Nat) (x : Die) : (s.setDie d x).ueRegs = s.ueRegs := rfl
@[simp] theorem State.setDie_ueCmds (s : State) (d : Nat) (x : Die) : (s.setDie d x).ueCmds = s.ueCmds := rfl
@[simp] theorem State.setDie_ueCtl (s : State) (d : Nat) (x : Die) : (s.setDie d x).ueCtl = s.ueCtl := rfl
@[simp] theorem State.setDie_corrected (s : State) (d : Nat) (x : Die) : (s.setDie d x).corrected = s.corrected := rfl
@[simp] theorem State.setDie_fullAt (s : State) (d : Nat) (x : Die) : (s.setDie d x).fullAt = s.fullAt := rfl
@[simp] theorem State.setDie_sweep (s : State) (d : Nat) (x : Die) : (s.setDie d x).sweep = s.sweep := rfl
@[simp] theorem State.setDie_sweepAt (s : State) (d : Nat) (x : Die) : (s.setDie d x).sweepAt = s.sweepAt := rfl
@[simp] theorem State.setDie_closing (s : State) (d : Nat) (x : Die) : (s.setDie d x).closing = s.closing := rfl
@[simp] theorem State.setDie_outHold (s : State) (d : Nat) (x : Die) : (s.setDie d x).outHold = s.outHold := rfl
@[simp] theorem State.setDie_ueSectors (s : State) (d : Nat) (x : Die) : (s.setDie d x).ueSectors = s.ueSectors := rfl
@[simp] theorem State.setDie_objs (s : State) (d : Nat) (x : Die) : (s.setDie d x).objs = s.objs := rfl
@[simp] theorem State.setDie_flights (s : State) (d : Nat) (x : Die) : (s.setDie d x).flights = s.flights := rfl
@[simp] theorem State.setDie_ctrUps (s : State) (d : Nat) (x : Die) : (s.setDie d x).ctrUps = s.ctrUps := rfl
@[simp] theorem State.setDie_staging (s : State) (d : Nat) (x : Die) : (s.setDie d x).staging = s.staging := rfl
@[simp] theorem State.setDie_l2 (s : State) (d : Nat) (x : Die) : (s.setDie d x).l2 = s.l2 := rfl
@[simp] theorem State.setDie_slices (s : State) (d : Nat) (x : Die) : (s.setDie d x).slices = s.slices := rfl
@[simp] theorem State.setDie_contests (s : State) (d : Nat) (x : Die) : (s.setDie d x).contests = s.contests := rfl
@[simp] theorem State.setDie_evbase (s : State) (d : Nat) (x : Die) : (s.setDie d x).evbase = s.evbase := rfl
@[simp] theorem State.setDie_evctl (s : State) (d : Nat) (x : Die) : (s.setDie d x).evctl = s.evctl := rfl
@[simp] theorem State.setDie_evSeq (s : State) (d : Nat) (x : Die) : (s.setDie d x).evSeq = s.evSeq := rfl
@[simp] theorem State.setDie_evHeld (s : State) (d : Nat) (x : Die) : (s.setDie d x).evHeld = s.evHeld := rfl
@[simp] theorem State.setDie_msix (s : State) (d : Nat) (x : Die) : (s.setDie d x).msix = s.msix := rfl
@[simp] theorem State.setDie_iocfg (s : State) (d : Nat) (x : Die) : (s.setDie d x).iocfg = s.iocfg := rfl
@[simp] theorem State.setDie_inga (s : State) (d : Nat) (x : Die) : (s.setDie d x).inga = s.inga := rfl
@[simp] theorem State.setDie_ingl (s : State) (d : Nat) (x : Die) : (s.setDie d x).ingl = s.ingl := rfl
@[simp] theorem State.setDie_ingc (s : State) (d : Nat) (x : Die) : (s.setDie d x).ingc = s.ingc := rfl
@[simp] theorem State.setDie_links (s : State) (d : Nat) (x : Die) : (s.setDie d x).links = s.links := rfl
@[simp] theorem State.setDie_flash (s : State) (d : Nat) (x : Die) : (s.setDie d x).flash = s.flash := rfl
@[simp] theorem State.setDie_measurements (s : State) (d : Nat) (x : Die) :
    (s.setDie d x).measurements = s.measurements := rfl
@[simp] theorem State.setDie_fencedMask (s : State) (d : Nat) (x : Die) :
    (s.setDie d x).fencedMask = s.fencedMask := rfl
@[simp] theorem State.setDie_spdm (s : State) (d : Nat) (x : Die) : (s.setDie d x).spdm = s.spdm := rfl
@[simp] theorem State.setDie_out (s : State) (d : Nat) (x : Die) : (s.setDie d x).out = s.out := rfl
@[simp] theorem State.setDie_ranOn (s : State) (d : Nat) (x : Die) : (s.setDie d x).ranOn = s.ranOn := rfl
@[simp] theorem State.setDie_dies (s : State) (d : Nat) (x : Die) :
    (s.setDie d x).dies = Tab.set Die.held s.dies d x := rfl
@[simp] theorem State.setDie_cores (s : State) (d : Nat) (x : Die) : (s.setDie d x).cores = s.cores := rfl
@[simp] theorem State.setDie_ctxs (s : State) (d : Nat) (x : Die) : (s.setDie d x).ctxs = s.ctxs := rfl

/-! setContest. -/

@[simp] theorem State.setContest_time (s : State) (c : Nat) (x : Contest) : (s.setContest c x).time = s.time := rfl
@[simp] theorem State.setContest_cycle (s : State) (c : Nat) (x : Contest) : (s.setContest c x).cycle = s.cycle := rfl
@[simp] theorem State.setContest_phase (s : State) (c : Nat) (x : Contest) : (s.setContest c x).phase = s.phase := rfl
@[simp] theorem State.setContest_curCore (s : State) (c : Nat) (x : Contest) :
    (s.setContest c x).curCore = s.curCore := rfl
@[simp] theorem State.setContest_curCtx (s : State) (c : Nat) (x : Contest) :
    (s.setContest c x).curCtx = s.curCtx := rfl
@[simp] theorem State.setContest_inputs (s : State) (c : Nat) (x : Contest) :
    (s.setContest c x).inputs = s.inputs := rfl
@[simp] theorem State.setContest_freeCtr (s : State) (c : Nat) (x : Contest) :
    (s.setContest c x).freeCtr = s.freeCtr := rfl
@[simp] theorem State.setContest_nextId (s : State) (c : Nat) (x : Contest) :
    (s.setContest c x).nextId = s.nextId := rfl
@[simp] theorem State.setContest_mem (s : State) (c : Nat) (x : Contest) : (s.setContest c x).mem = s.mem := rfl
@[simp] theorem State.setContest_emptyTags (s : State) (c : Nat) (x : Contest) :
    (s.setContest c x).emptyTags = s.emptyTags := rfl
@[simp] theorem State.setContest_aged (s : State) (c : Nat) (x : Contest) : (s.setContest c x).aged = s.aged := rfl
@[simp] theorem State.setContest_stamps (s : State) (c : Nat) (x : Contest) :
    (s.setContest c x).stamps = s.stamps := rfl
@[simp] theorem State.setContest_keyIdx (s : State) (c : Nat) (x : Contest) :
    (s.setContest c x).keyIdx = s.keyIdx := rfl
@[simp] theorem State.setContest_keyReq (s : State) (c : Nat) (x : Contest) :
    (s.setContest c x).keyReq = s.keyReq := rfl
@[simp] theorem State.setContest_checkDiff (s : State) (c : Nat) (x : Contest) :
    (s.setContest c x).checkDiff = s.checkDiff := rfl
@[simp] theorem State.setContest_stale (s : State) (c : Nat) (x : Contest) : (s.setContest c x).stale = s.stale := rfl
@[simp] theorem State.setContest_ueRegs (s : State) (c : Nat) (x : Contest) :
    (s.setContest c x).ueRegs = s.ueRegs := rfl
@[simp] theorem State.setContest_ueCmds (s : State) (c : Nat) (x : Contest) :
    (s.setContest c x).ueCmds = s.ueCmds := rfl
@[simp] theorem State.setContest_ueCtl (s : State) (c : Nat) (x : Contest) : (s.setContest c x).ueCtl = s.ueCtl := rfl
@[simp] theorem State.setContest_corrected (s : State) (c : Nat) (x : Contest) :
    (s.setContest c x).corrected = s.corrected := rfl
@[simp] theorem State.setContest_fullAt (s : State) (c : Nat) (x : Contest) :
    (s.setContest c x).fullAt = s.fullAt := rfl
@[simp] theorem State.setContest_sweep (s : State) (c : Nat) (x : Contest) : (s.setContest c x).sweep = s.sweep := rfl
@[simp] theorem State.setContest_sweepAt (s : State) (c : Nat) (x : Contest) :
    (s.setContest c x).sweepAt = s.sweepAt := rfl
@[simp] theorem State.setContest_closing (s : State) (c : Nat) (x : Contest) :
    (s.setContest c x).closing = s.closing := rfl
@[simp] theorem State.setContest_outHold (s : State) (c : Nat) (x : Contest) :
    (s.setContest c x).outHold = s.outHold := rfl
@[simp] theorem State.setContest_ueSectors (s : State) (c : Nat) (x : Contest) :
    (s.setContest c x).ueSectors = s.ueSectors := rfl
@[simp] theorem State.setContest_objs (s : State) (c : Nat) (x : Contest) : (s.setContest c x).objs = s.objs := rfl
@[simp] theorem State.setContest_flights (s : State) (c : Nat) (x : Contest) :
    (s.setContest c x).flights = s.flights := rfl
@[simp] theorem State.setContest_ctrUps (s : State) (c : Nat) (x : Contest) :
    (s.setContest c x).ctrUps = s.ctrUps := rfl
@[simp] theorem State.setContest_staging (s : State) (c : Nat) (x : Contest) :
    (s.setContest c x).staging = s.staging := rfl
@[simp] theorem State.setContest_l2 (s : State) (c : Nat) (x : Contest) : (s.setContest c x).l2 = s.l2 := rfl
@[simp] theorem State.setContest_slices (s : State) (c : Nat) (x : Contest) :
    (s.setContest c x).slices = s.slices := rfl
@[simp] theorem State.setContest_contests (s : State) (c : Nat) (x : Contest) :
    (s.setContest c x).contests = Tab.set Contest.none s.contests c x := rfl
@[simp] theorem State.setContest_evbase (s : State) (c : Nat) (x : Contest) :
    (s.setContest c x).evbase = s.evbase := rfl
@[simp] theorem State.setContest_evctl (s : State) (c : Nat) (x : Contest) : (s.setContest c x).evctl = s.evctl := rfl
@[simp] theorem State.setContest_evSeq (s : State) (c : Nat) (x : Contest) : (s.setContest c x).evSeq = s.evSeq := rfl
@[simp] theorem State.setContest_evHeld (s : State) (c : Nat) (x : Contest) :
    (s.setContest c x).evHeld = s.evHeld := rfl
@[simp] theorem State.setContest_msix (s : State) (c : Nat) (x : Contest) : (s.setContest c x).msix = s.msix := rfl
@[simp] theorem State.setContest_iocfg (s : State) (c : Nat) (x : Contest) : (s.setContest c x).iocfg = s.iocfg := rfl
@[simp] theorem State.setContest_inga (s : State) (c : Nat) (x : Contest) : (s.setContest c x).inga = s.inga := rfl
@[simp] theorem State.setContest_ingl (s : State) (c : Nat) (x : Contest) : (s.setContest c x).ingl = s.ingl := rfl
@[simp] theorem State.setContest_ingc (s : State) (c : Nat) (x : Contest) : (s.setContest c x).ingc = s.ingc := rfl
@[simp] theorem State.setContest_links (s : State) (c : Nat) (x : Contest) : (s.setContest c x).links = s.links := rfl
@[simp] theorem State.setContest_flash (s : State) (c : Nat) (x : Contest) : (s.setContest c x).flash = s.flash := rfl
@[simp] theorem State.setContest_measurements (s : State) (c : Nat) (x : Contest) :
    (s.setContest c x).measurements = s.measurements := rfl
@[simp] theorem State.setContest_fencedMask (s : State) (c : Nat) (x : Contest) :
    (s.setContest c x).fencedMask = s.fencedMask := rfl
@[simp] theorem State.setContest_spdm (s : State) (c : Nat) (x : Contest) : (s.setContest c x).spdm = s.spdm := rfl
@[simp] theorem State.setContest_out (s : State) (c : Nat) (x : Contest) : (s.setContest c x).out = s.out := rfl
@[simp] theorem State.setContest_ranOn (s : State) (c : Nat) (x : Contest) : (s.setContest c x).ranOn = s.ranOn := rfl
@[simp] theorem State.setContest_dies (s : State) (c : Nat) (x : Contest) : (s.setContest c x).dies = s.dies := rfl
@[simp] theorem State.setContest_cores (s : State) (c : Nat) (x : Contest) : (s.setContest c x).cores = s.cores := rfl
@[simp] theorem State.setContest_ctxs (s : State) (c : Nat) (x : Contest) : (s.setContest c x).ctxs = s.ctxs := rfl

/-! setByte. -/

@[simp] theorem State.setByte_time (s : State) (k : Nat) (b : Byte) : (s.setByte k b).time = s.time := rfl
@[simp] theorem State.setByte_cycle (s : State) (k : Nat) (b : Byte) : (s.setByte k b).cycle = s.cycle := rfl
@[simp] theorem State.setByte_phase (s : State) (k : Nat) (b : Byte) : (s.setByte k b).phase = s.phase := rfl
@[simp] theorem State.setByte_curCore (s : State) (k : Nat) (b : Byte) : (s.setByte k b).curCore = s.curCore := rfl
@[simp] theorem State.setByte_curCtx (s : State) (k : Nat) (b : Byte) : (s.setByte k b).curCtx = s.curCtx := rfl
@[simp] theorem State.setByte_inputs (s : State) (k : Nat) (b : Byte) : (s.setByte k b).inputs = s.inputs := rfl
@[simp] theorem State.setByte_freeCtr (s : State) (k : Nat) (b : Byte) : (s.setByte k b).freeCtr = s.freeCtr := rfl
@[simp] theorem State.setByte_nextId (s : State) (k : Nat) (b : Byte) : (s.setByte k b).nextId = s.nextId := rfl
@[simp] theorem State.setByte_mem (s : State) (k : Nat) (b : Byte) :
    (s.setByte k b).mem = Tab.set Memory.unlisted s.mem k b := rfl
@[simp] theorem State.setByte_emptyTags (s : State) (k : Nat) (b : Byte) :
    (s.setByte k b).emptyTags = s.emptyTags := rfl
@[simp] theorem State.setByte_aged (s : State) (k : Nat) (b : Byte) : (s.setByte k b).aged = s.aged := rfl
@[simp] theorem State.setByte_stamps (s : State) (k : Nat) (b : Byte) : (s.setByte k b).stamps = s.stamps := rfl
@[simp] theorem State.setByte_keyIdx (s : State) (k : Nat) (b : Byte) : (s.setByte k b).keyIdx = s.keyIdx := rfl
@[simp] theorem State.setByte_keyReq (s : State) (k : Nat) (b : Byte) : (s.setByte k b).keyReq = s.keyReq := rfl
@[simp] theorem State.setByte_checkDiff (s : State) (k : Nat) (b : Byte) :
    (s.setByte k b).checkDiff = s.checkDiff := rfl
@[simp] theorem State.setByte_stale (s : State) (k : Nat) (b : Byte) : (s.setByte k b).stale = s.stale := rfl
@[simp] theorem State.setByte_ueRegs (s : State) (k : Nat) (b : Byte) : (s.setByte k b).ueRegs = s.ueRegs := rfl
@[simp] theorem State.setByte_ueCmds (s : State) (k : Nat) (b : Byte) : (s.setByte k b).ueCmds = s.ueCmds := rfl
@[simp] theorem State.setByte_ueCtl (s : State) (k : Nat) (b : Byte) : (s.setByte k b).ueCtl = s.ueCtl := rfl
@[simp] theorem State.setByte_corrected (s : State) (k : Nat) (b : Byte) :
    (s.setByte k b).corrected = s.corrected := rfl
@[simp] theorem State.setByte_fullAt (s : State) (k : Nat) (b : Byte) : (s.setByte k b).fullAt = s.fullAt := rfl
@[simp] theorem State.setByte_sweep (s : State) (k : Nat) (b : Byte) : (s.setByte k b).sweep = s.sweep := rfl
@[simp] theorem State.setByte_sweepAt (s : State) (k : Nat) (b : Byte) : (s.setByte k b).sweepAt = s.sweepAt := rfl
@[simp] theorem State.setByte_closing (s : State) (k : Nat) (b : Byte) : (s.setByte k b).closing = s.closing := rfl
@[simp] theorem State.setByte_outHold (s : State) (k : Nat) (b : Byte) : (s.setByte k b).outHold = s.outHold := rfl
@[simp] theorem State.setByte_ueSectors (s : State) (k : Nat) (b : Byte) :
    (s.setByte k b).ueSectors = s.ueSectors := rfl
@[simp] theorem State.setByte_objs (s : State) (k : Nat) (b : Byte) : (s.setByte k b).objs = s.objs := rfl
@[simp] theorem State.setByte_flights (s : State) (k : Nat) (b : Byte) : (s.setByte k b).flights = s.flights := rfl
@[simp] theorem State.setByte_ctrUps (s : State) (k : Nat) (b : Byte) : (s.setByte k b).ctrUps = s.ctrUps := rfl
@[simp] theorem State.setByte_staging (s : State) (k : Nat) (b : Byte) : (s.setByte k b).staging = s.staging := rfl
@[simp] theorem State.setByte_l2 (s : State) (k : Nat) (b : Byte) : (s.setByte k b).l2 = s.l2 := rfl
@[simp] theorem State.setByte_slices (s : State) (k : Nat) (b : Byte) : (s.setByte k b).slices = s.slices := rfl
@[simp] theorem State.setByte_contests (s : State) (k : Nat) (b : Byte) : (s.setByte k b).contests = s.contests := rfl
@[simp] theorem State.setByte_evbase (s : State) (k : Nat) (b : Byte) : (s.setByte k b).evbase = s.evbase := rfl
@[simp] theorem State.setByte_evctl (s : State) (k : Nat) (b : Byte) : (s.setByte k b).evctl = s.evctl := rfl
@[simp] theorem State.setByte_evSeq (s : State) (k : Nat) (b : Byte) : (s.setByte k b).evSeq = s.evSeq := rfl
@[simp] theorem State.setByte_evHeld (s : State) (k : Nat) (b : Byte) : (s.setByte k b).evHeld = s.evHeld := rfl
@[simp] theorem State.setByte_msix (s : State) (k : Nat) (b : Byte) : (s.setByte k b).msix = s.msix := rfl
@[simp] theorem State.setByte_iocfg (s : State) (k : Nat) (b : Byte) : (s.setByte k b).iocfg = s.iocfg := rfl
@[simp] theorem State.setByte_inga (s : State) (k : Nat) (b : Byte) : (s.setByte k b).inga = s.inga := rfl
@[simp] theorem State.setByte_ingl (s : State) (k : Nat) (b : Byte) : (s.setByte k b).ingl = s.ingl := rfl
@[simp] theorem State.setByte_ingc (s : State) (k : Nat) (b : Byte) : (s.setByte k b).ingc = s.ingc := rfl
@[simp] theorem State.setByte_links (s : State) (k : Nat) (b : Byte) : (s.setByte k b).links = s.links := rfl
@[simp] theorem State.setByte_flash (s : State) (k : Nat) (b : Byte) : (s.setByte k b).flash = s.flash := rfl
@[simp] theorem State.setByte_measurements (s : State) (k : Nat) (b : Byte) :
    (s.setByte k b).measurements = s.measurements := rfl
@[simp] theorem State.setByte_fencedMask (s : State) (k : Nat) (b : Byte) :
    (s.setByte k b).fencedMask = s.fencedMask := rfl
@[simp] theorem State.setByte_spdm (s : State) (k : Nat) (b : Byte) : (s.setByte k b).spdm = s.spdm := rfl
@[simp] theorem State.setByte_out (s : State) (k : Nat) (b : Byte) : (s.setByte k b).out = s.out := rfl
@[simp] theorem State.setByte_ranOn (s : State) (k : Nat) (b : Byte) : (s.setByte k b).ranOn = s.ranOn := rfl
@[simp] theorem State.setByte_dies (s : State) (k : Nat) (b : Byte) : (s.setByte k b).dies = s.dies := rfl
@[simp] theorem State.setByte_cores (s : State) (k : Nat) (b : Byte) : (s.setByte k b).cores = s.cores := rfl
@[simp] theorem State.setByte_ctxs (s : State) (k : Nat) (b : Byte) : (s.setByte k b).ctxs = s.ctxs := rfl

/-! setBytes. -/

@[simp] theorem State.setBytes_time (s : State) (l : List (Nat × Byte)) : (s.setBytes l).time = s.time := rfl
@[simp] theorem State.setBytes_cycle (s : State) (l : List (Nat × Byte)) : (s.setBytes l).cycle = s.cycle := rfl
@[simp] theorem State.setBytes_phase (s : State) (l : List (Nat × Byte)) : (s.setBytes l).phase = s.phase := rfl
@[simp] theorem State.setBytes_curCore (s : State) (l : List (Nat × Byte)) : (s.setBytes l).curCore = s.curCore := rfl
@[simp] theorem State.setBytes_curCtx (s : State) (l : List (Nat × Byte)) : (s.setBytes l).curCtx = s.curCtx := rfl
@[simp] theorem State.setBytes_inputs (s : State) (l : List (Nat × Byte)) : (s.setBytes l).inputs = s.inputs := rfl
@[simp] theorem State.setBytes_freeCtr (s : State) (l : List (Nat × Byte)) : (s.setBytes l).freeCtr = s.freeCtr := rfl
@[simp] theorem State.setBytes_nextId (s : State) (l : List (Nat × Byte)) : (s.setBytes l).nextId = s.nextId := rfl
@[simp] theorem State.setBytes_mem (s : State) (l : List (Nat × Byte)) :
    (s.setBytes l).mem = Tab.setMany Memory.unlisted s.mem l := rfl
@[simp] theorem State.setBytes_emptyTags (s : State) (l : List (Nat × Byte)) :
    (s.setBytes l).emptyTags = s.emptyTags := rfl
@[simp] theorem State.setBytes_aged (s : State) (l : List (Nat × Byte)) : (s.setBytes l).aged = s.aged := rfl
@[simp] theorem State.setBytes_stamps (s : State) (l : List (Nat × Byte)) : (s.setBytes l).stamps = s.stamps := rfl
@[simp] theorem State.setBytes_keyIdx (s : State) (l : List (Nat × Byte)) : (s.setBytes l).keyIdx = s.keyIdx := rfl
@[simp] theorem State.setBytes_keyReq (s : State) (l : List (Nat × Byte)) : (s.setBytes l).keyReq = s.keyReq := rfl
@[simp] theorem State.setBytes_checkDiff (s : State) (l : List (Nat × Byte)) :
    (s.setBytes l).checkDiff = s.checkDiff := rfl
@[simp] theorem State.setBytes_stale (s : State) (l : List (Nat × Byte)) : (s.setBytes l).stale = s.stale := rfl
@[simp] theorem State.setBytes_ueRegs (s : State) (l : List (Nat × Byte)) : (s.setBytes l).ueRegs = s.ueRegs := rfl
@[simp] theorem State.setBytes_ueCmds (s : State) (l : List (Nat × Byte)) : (s.setBytes l).ueCmds = s.ueCmds := rfl
@[simp] theorem State.setBytes_ueCtl (s : State) (l : List (Nat × Byte)) : (s.setBytes l).ueCtl = s.ueCtl := rfl
@[simp] theorem State.setBytes_corrected (s : State) (l : List (Nat × Byte)) :
    (s.setBytes l).corrected = s.corrected := rfl
@[simp] theorem State.setBytes_fullAt (s : State) (l : List (Nat × Byte)) : (s.setBytes l).fullAt = s.fullAt := rfl
@[simp] theorem State.setBytes_sweep (s : State) (l : List (Nat × Byte)) : (s.setBytes l).sweep = s.sweep := rfl
@[simp] theorem State.setBytes_sweepAt (s : State) (l : List (Nat × Byte)) : (s.setBytes l).sweepAt = s.sweepAt := rfl
@[simp] theorem State.setBytes_closing (s : State) (l : List (Nat × Byte)) : (s.setBytes l).closing = s.closing := rfl
@[simp] theorem State.setBytes_outHold (s : State) (l : List (Nat × Byte)) : (s.setBytes l).outHold = s.outHold := rfl
@[simp] theorem State.setBytes_ueSectors (s : State) (l : List (Nat × Byte)) :
    (s.setBytes l).ueSectors = s.ueSectors := rfl
@[simp] theorem State.setBytes_objs (s : State) (l : List (Nat × Byte)) : (s.setBytes l).objs = s.objs := rfl
@[simp] theorem State.setBytes_flights (s : State) (l : List (Nat × Byte)) : (s.setBytes l).flights = s.flights := rfl
@[simp] theorem State.setBytes_ctrUps (s : State) (l : List (Nat × Byte)) : (s.setBytes l).ctrUps = s.ctrUps := rfl
@[simp] theorem State.setBytes_staging (s : State) (l : List (Nat × Byte)) : (s.setBytes l).staging = s.staging := rfl
@[simp] theorem State.setBytes_l2 (s : State) (l : List (Nat × Byte)) : (s.setBytes l).l2 = s.l2 := rfl
@[simp] theorem State.setBytes_slices (s : State) (l : List (Nat × Byte)) : (s.setBytes l).slices = s.slices := rfl
@[simp] theorem State.setBytes_contests (s : State) (l : List (Nat × Byte)) :
    (s.setBytes l).contests = s.contests := rfl
@[simp] theorem State.setBytes_evbase (s : State) (l : List (Nat × Byte)) : (s.setBytes l).evbase = s.evbase := rfl
@[simp] theorem State.setBytes_evctl (s : State) (l : List (Nat × Byte)) : (s.setBytes l).evctl = s.evctl := rfl
@[simp] theorem State.setBytes_evSeq (s : State) (l : List (Nat × Byte)) : (s.setBytes l).evSeq = s.evSeq := rfl
@[simp] theorem State.setBytes_evHeld (s : State) (l : List (Nat × Byte)) : (s.setBytes l).evHeld = s.evHeld := rfl
@[simp] theorem State.setBytes_msix (s : State) (l : List (Nat × Byte)) : (s.setBytes l).msix = s.msix := rfl
@[simp] theorem State.setBytes_iocfg (s : State) (l : List (Nat × Byte)) : (s.setBytes l).iocfg = s.iocfg := rfl
@[simp] theorem State.setBytes_inga (s : State) (l : List (Nat × Byte)) : (s.setBytes l).inga = s.inga := rfl
@[simp] theorem State.setBytes_ingl (s : State) (l : List (Nat × Byte)) : (s.setBytes l).ingl = s.ingl := rfl
@[simp] theorem State.setBytes_ingc (s : State) (l : List (Nat × Byte)) : (s.setBytes l).ingc = s.ingc := rfl
@[simp] theorem State.setBytes_links (s : State) (l : List (Nat × Byte)) : (s.setBytes l).links = s.links := rfl
@[simp] theorem State.setBytes_flash (s : State) (l : List (Nat × Byte)) : (s.setBytes l).flash = s.flash := rfl
@[simp] theorem State.setBytes_measurements (s : State) (l : List (Nat × Byte)) :
    (s.setBytes l).measurements = s.measurements := rfl
@[simp] theorem State.setBytes_fencedMask (s : State) (l : List (Nat × Byte)) :
    (s.setBytes l).fencedMask = s.fencedMask := rfl
@[simp] theorem State.setBytes_spdm (s : State) (l : List (Nat × Byte)) : (s.setBytes l).spdm = s.spdm := rfl
@[simp] theorem State.setBytes_out (s : State) (l : List (Nat × Byte)) : (s.setBytes l).out = s.out := rfl
@[simp] theorem State.setBytes_ranOn (s : State) (l : List (Nat × Byte)) : (s.setBytes l).ranOn = s.ranOn := rfl
@[simp] theorem State.setBytes_dies (s : State) (l : List (Nat × Byte)) : (s.setBytes l).dies = s.dies := rfl
@[simp] theorem State.setBytes_cores (s : State) (l : List (Nat × Byte)) : (s.setBytes l).cores = s.cores := rfl
@[simp] theorem State.setBytes_ctxs (s : State) (l : List (Nat × Byte)) : (s.setBytes l).ctxs = s.ctxs := rfl

/-! setTag. -/

@[simp] theorem State.setTag_time (s : State) (k : Nat) (b : Bool) : (s.setTag k b).time = s.time := rfl
@[simp] theorem State.setTag_cycle (s : State) (k : Nat) (b : Bool) : (s.setTag k b).cycle = s.cycle := rfl
@[simp] theorem State.setTag_phase (s : State) (k : Nat) (b : Bool) : (s.setTag k b).phase = s.phase := rfl
@[simp] theorem State.setTag_curCore (s : State) (k : Nat) (b : Bool) : (s.setTag k b).curCore = s.curCore := rfl
@[simp] theorem State.setTag_curCtx (s : State) (k : Nat) (b : Bool) : (s.setTag k b).curCtx = s.curCtx := rfl
@[simp] theorem State.setTag_inputs (s : State) (k : Nat) (b : Bool) : (s.setTag k b).inputs = s.inputs := rfl
@[simp] theorem State.setTag_freeCtr (s : State) (k : Nat) (b : Bool) : (s.setTag k b).freeCtr = s.freeCtr := rfl
@[simp] theorem State.setTag_nextId (s : State) (k : Nat) (b : Bool) : (s.setTag k b).nextId = s.nextId := rfl
@[simp] theorem State.setTag_mem (s : State) (k : Nat) (b : Bool) : (s.setTag k b).mem = s.mem := rfl
@[simp] theorem State.setTag_emptyTags (s : State) (k : Nat) (b : Bool) :
    (s.setTag k b).emptyTags = Tab.set false s.emptyTags (granule k) (!b) := rfl
@[simp] theorem State.setTag_aged (s : State) (k : Nat) (b : Bool) : (s.setTag k b).aged = s.aged := rfl
@[simp] theorem State.setTag_stamps (s : State) (k : Nat) (b : Bool) : (s.setTag k b).stamps = s.stamps := rfl
@[simp] theorem State.setTag_keyIdx (s : State) (k : Nat) (b : Bool) : (s.setTag k b).keyIdx = s.keyIdx := rfl
@[simp] theorem State.setTag_keyReq (s : State) (k : Nat) (b : Bool) : (s.setTag k b).keyReq = s.keyReq := rfl
@[simp] theorem State.setTag_checkDiff (s : State) (k : Nat) (b : Bool) : (s.setTag k b).checkDiff = s.checkDiff := rfl
@[simp] theorem State.setTag_stale (s : State) (k : Nat) (b : Bool) : (s.setTag k b).stale = s.stale := rfl
@[simp] theorem State.setTag_ueRegs (s : State) (k : Nat) (b : Bool) : (s.setTag k b).ueRegs = s.ueRegs := rfl
@[simp] theorem State.setTag_ueCmds (s : State) (k : Nat) (b : Bool) : (s.setTag k b).ueCmds = s.ueCmds := rfl
@[simp] theorem State.setTag_ueCtl (s : State) (k : Nat) (b : Bool) : (s.setTag k b).ueCtl = s.ueCtl := rfl
@[simp] theorem State.setTag_corrected (s : State) (k : Nat) (b : Bool) : (s.setTag k b).corrected = s.corrected := rfl
@[simp] theorem State.setTag_fullAt (s : State) (k : Nat) (b : Bool) : (s.setTag k b).fullAt = s.fullAt := rfl
@[simp] theorem State.setTag_sweep (s : State) (k : Nat) (b : Bool) : (s.setTag k b).sweep = s.sweep := rfl
@[simp] theorem State.setTag_sweepAt (s : State) (k : Nat) (b : Bool) : (s.setTag k b).sweepAt = s.sweepAt := rfl
@[simp] theorem State.setTag_closing (s : State) (k : Nat) (b : Bool) : (s.setTag k b).closing = s.closing := rfl
@[simp] theorem State.setTag_outHold (s : State) (k : Nat) (b : Bool) : (s.setTag k b).outHold = s.outHold := rfl
@[simp] theorem State.setTag_ueSectors (s : State) (k : Nat) (b : Bool) : (s.setTag k b).ueSectors = s.ueSectors := rfl
@[simp] theorem State.setTag_objs (s : State) (k : Nat) (b : Bool) : (s.setTag k b).objs = s.objs := rfl
@[simp] theorem State.setTag_flights (s : State) (k : Nat) (b : Bool) : (s.setTag k b).flights = s.flights := rfl
@[simp] theorem State.setTag_ctrUps (s : State) (k : Nat) (b : Bool) : (s.setTag k b).ctrUps = s.ctrUps := rfl
@[simp] theorem State.setTag_staging (s : State) (k : Nat) (b : Bool) : (s.setTag k b).staging = s.staging := rfl
@[simp] theorem State.setTag_l2 (s : State) (k : Nat) (b : Bool) : (s.setTag k b).l2 = s.l2 := rfl
@[simp] theorem State.setTag_slices (s : State) (k : Nat) (b : Bool) : (s.setTag k b).slices = s.slices := rfl
@[simp] theorem State.setTag_contests (s : State) (k : Nat) (b : Bool) : (s.setTag k b).contests = s.contests := rfl
@[simp] theorem State.setTag_evbase (s : State) (k : Nat) (b : Bool) : (s.setTag k b).evbase = s.evbase := rfl
@[simp] theorem State.setTag_evctl (s : State) (k : Nat) (b : Bool) : (s.setTag k b).evctl = s.evctl := rfl
@[simp] theorem State.setTag_evSeq (s : State) (k : Nat) (b : Bool) : (s.setTag k b).evSeq = s.evSeq := rfl
@[simp] theorem State.setTag_evHeld (s : State) (k : Nat) (b : Bool) : (s.setTag k b).evHeld = s.evHeld := rfl
@[simp] theorem State.setTag_msix (s : State) (k : Nat) (b : Bool) : (s.setTag k b).msix = s.msix := rfl
@[simp] theorem State.setTag_iocfg (s : State) (k : Nat) (b : Bool) : (s.setTag k b).iocfg = s.iocfg := rfl
@[simp] theorem State.setTag_inga (s : State) (k : Nat) (b : Bool) : (s.setTag k b).inga = s.inga := rfl
@[simp] theorem State.setTag_ingl (s : State) (k : Nat) (b : Bool) : (s.setTag k b).ingl = s.ingl := rfl
@[simp] theorem State.setTag_ingc (s : State) (k : Nat) (b : Bool) : (s.setTag k b).ingc = s.ingc := rfl
@[simp] theorem State.setTag_links (s : State) (k : Nat) (b : Bool) : (s.setTag k b).links = s.links := rfl
@[simp] theorem State.setTag_flash (s : State) (k : Nat) (b : Bool) : (s.setTag k b).flash = s.flash := rfl
@[simp] theorem State.setTag_measurements (s : State) (k : Nat) (b : Bool) :
    (s.setTag k b).measurements = s.measurements := rfl
@[simp] theorem State.setTag_fencedMask (s : State) (k : Nat) (b : Bool) :
    (s.setTag k b).fencedMask = s.fencedMask := rfl
@[simp] theorem State.setTag_spdm (s : State) (k : Nat) (b : Bool) : (s.setTag k b).spdm = s.spdm := rfl
@[simp] theorem State.setTag_out (s : State) (k : Nat) (b : Bool) : (s.setTag k b).out = s.out := rfl
@[simp] theorem State.setTag_ranOn (s : State) (k : Nat) (b : Bool) : (s.setTag k b).ranOn = s.ranOn := rfl
@[simp] theorem State.setTag_dies (s : State) (k : Nat) (b : Bool) : (s.setTag k b).dies = s.dies := rfl
@[simp] theorem State.setTag_cores (s : State) (k : Nat) (b : Bool) : (s.setTag k b).cores = s.cores := rfl
@[simp] theorem State.setTag_ctxs (s : State) (k : Nat) (b : Bool) : (s.setTag k b).ctxs = s.ctxs := rfl

/-! fresh. -/

@[simp] theorem State.fresh_time (s : State) : s.fresh.time = s.time := rfl
@[simp] theorem State.fresh_cycle (s : State) : s.fresh.cycle = s.cycle := rfl
@[simp] theorem State.fresh_phase (s : State) : s.fresh.phase = s.phase := rfl
@[simp] theorem State.fresh_curCore (s : State) : s.fresh.curCore = s.curCore := rfl
@[simp] theorem State.fresh_curCtx (s : State) : s.fresh.curCtx = s.curCtx := rfl
@[simp] theorem State.fresh_inputs (s : State) : s.fresh.inputs = s.inputs := rfl
@[simp] theorem State.fresh_freeCtr (s : State) : s.fresh.freeCtr = s.freeCtr := rfl
@[simp] theorem State.fresh_nextId (s : State) : s.fresh.nextId = s.nextId + 1 := rfl
@[simp] theorem State.fresh_mem (s : State) : s.fresh.mem = s.mem := rfl
@[simp] theorem State.fresh_emptyTags (s : State) : s.fresh.emptyTags = s.emptyTags := rfl
@[simp] theorem State.fresh_aged (s : State) : s.fresh.aged = s.aged := rfl
@[simp] theorem State.fresh_stamps (s : State) : s.fresh.stamps = s.stamps := rfl
@[simp] theorem State.fresh_keyIdx (s : State) : s.fresh.keyIdx = s.keyIdx := rfl
@[simp] theorem State.fresh_keyReq (s : State) : s.fresh.keyReq = s.keyReq := rfl
@[simp] theorem State.fresh_checkDiff (s : State) : s.fresh.checkDiff = s.checkDiff := rfl
@[simp] theorem State.fresh_stale (s : State) : s.fresh.stale = s.stale := rfl
@[simp] theorem State.fresh_ueRegs (s : State) : s.fresh.ueRegs = s.ueRegs := rfl
@[simp] theorem State.fresh_ueCmds (s : State) : s.fresh.ueCmds = s.ueCmds := rfl
@[simp] theorem State.fresh_ueCtl (s : State) : s.fresh.ueCtl = s.ueCtl := rfl
@[simp] theorem State.fresh_corrected (s : State) : s.fresh.corrected = s.corrected := rfl
@[simp] theorem State.fresh_fullAt (s : State) : s.fresh.fullAt = s.fullAt := rfl
@[simp] theorem State.fresh_sweep (s : State) : s.fresh.sweep = s.sweep := rfl
@[simp] theorem State.fresh_sweepAt (s : State) : s.fresh.sweepAt = s.sweepAt := rfl
@[simp] theorem State.fresh_closing (s : State) : s.fresh.closing = s.closing := rfl
@[simp] theorem State.fresh_outHold (s : State) : s.fresh.outHold = s.outHold := rfl
@[simp] theorem State.fresh_ueSectors (s : State) : s.fresh.ueSectors = s.ueSectors := rfl
@[simp] theorem State.fresh_objs (s : State) : s.fresh.objs = s.objs := rfl
@[simp] theorem State.fresh_flights (s : State) : s.fresh.flights = s.flights := rfl
@[simp] theorem State.fresh_ctrUps (s : State) : s.fresh.ctrUps = s.ctrUps := rfl
@[simp] theorem State.fresh_staging (s : State) : s.fresh.staging = s.staging := rfl
@[simp] theorem State.fresh_l2 (s : State) : s.fresh.l2 = s.l2 := rfl
@[simp] theorem State.fresh_slices (s : State) : s.fresh.slices = s.slices := rfl
@[simp] theorem State.fresh_contests (s : State) : s.fresh.contests = s.contests := rfl
@[simp] theorem State.fresh_evbase (s : State) : s.fresh.evbase = s.evbase := rfl
@[simp] theorem State.fresh_evctl (s : State) : s.fresh.evctl = s.evctl := rfl
@[simp] theorem State.fresh_evSeq (s : State) : s.fresh.evSeq = s.evSeq := rfl
@[simp] theorem State.fresh_evHeld (s : State) : s.fresh.evHeld = s.evHeld := rfl
@[simp] theorem State.fresh_msix (s : State) : s.fresh.msix = s.msix := rfl
@[simp] theorem State.fresh_iocfg (s : State) : s.fresh.iocfg = s.iocfg := rfl
@[simp] theorem State.fresh_inga (s : State) : s.fresh.inga = s.inga := rfl
@[simp] theorem State.fresh_ingl (s : State) : s.fresh.ingl = s.ingl := rfl
@[simp] theorem State.fresh_ingc (s : State) : s.fresh.ingc = s.ingc := rfl
@[simp] theorem State.fresh_links (s : State) : s.fresh.links = s.links := rfl
@[simp] theorem State.fresh_flash (s : State) : s.fresh.flash = s.flash := rfl
@[simp] theorem State.fresh_measurements (s : State) : s.fresh.measurements = s.measurements := rfl
@[simp] theorem State.fresh_fencedMask (s : State) : s.fresh.fencedMask = s.fencedMask := rfl
@[simp] theorem State.fresh_spdm (s : State) : s.fresh.spdm = s.spdm := rfl
@[simp] theorem State.fresh_out (s : State) : s.fresh.out = s.out := rfl
@[simp] theorem State.fresh_ranOn (s : State) : s.fresh.ranOn = s.ranOn := rfl
@[simp] theorem State.fresh_dies (s : State) : s.fresh.dies = s.dies := rfl
@[simp] theorem State.fresh_cores (s : State) : s.fresh.cores = s.cores := rfl
@[simp] theorem State.fresh_ctxs (s : State) : s.fresh.ctxs = s.ctxs := rfl

/-! useFree. -/

@[simp] theorem State.useFree_time (s : State) : s.useFree.time = s.time := rfl
@[simp] theorem State.useFree_cycle (s : State) : s.useFree.cycle = s.cycle := rfl
@[simp] theorem State.useFree_phase (s : State) : s.useFree.phase = s.phase := rfl
@[simp] theorem State.useFree_curCore (s : State) : s.useFree.curCore = s.curCore := rfl
@[simp] theorem State.useFree_curCtx (s : State) : s.useFree.curCtx = s.curCtx := rfl
@[simp] theorem State.useFree_inputs (s : State) : s.useFree.inputs = s.inputs := rfl
@[simp] theorem State.useFree_freeCtr (s : State) : s.useFree.freeCtr = s.freeCtr + 1 := rfl
@[simp] theorem State.useFree_nextId (s : State) : s.useFree.nextId = s.nextId := rfl
@[simp] theorem State.useFree_mem (s : State) : s.useFree.mem = s.mem := rfl
@[simp] theorem State.useFree_emptyTags (s : State) : s.useFree.emptyTags = s.emptyTags := rfl
@[simp] theorem State.useFree_aged (s : State) : s.useFree.aged = s.aged := rfl
@[simp] theorem State.useFree_stamps (s : State) : s.useFree.stamps = s.stamps := rfl
@[simp] theorem State.useFree_keyIdx (s : State) : s.useFree.keyIdx = s.keyIdx := rfl
@[simp] theorem State.useFree_keyReq (s : State) : s.useFree.keyReq = s.keyReq := rfl
@[simp] theorem State.useFree_checkDiff (s : State) : s.useFree.checkDiff = s.checkDiff := rfl
@[simp] theorem State.useFree_stale (s : State) : s.useFree.stale = s.stale := rfl
@[simp] theorem State.useFree_ueRegs (s : State) : s.useFree.ueRegs = s.ueRegs := rfl
@[simp] theorem State.useFree_ueCmds (s : State) : s.useFree.ueCmds = s.ueCmds := rfl
@[simp] theorem State.useFree_ueCtl (s : State) : s.useFree.ueCtl = s.ueCtl := rfl
@[simp] theorem State.useFree_corrected (s : State) : s.useFree.corrected = s.corrected := rfl
@[simp] theorem State.useFree_fullAt (s : State) : s.useFree.fullAt = s.fullAt := rfl
@[simp] theorem State.useFree_sweep (s : State) : s.useFree.sweep = s.sweep := rfl
@[simp] theorem State.useFree_sweepAt (s : State) : s.useFree.sweepAt = s.sweepAt := rfl
@[simp] theorem State.useFree_closing (s : State) : s.useFree.closing = s.closing := rfl
@[simp] theorem State.useFree_outHold (s : State) : s.useFree.outHold = s.outHold := rfl
@[simp] theorem State.useFree_ueSectors (s : State) : s.useFree.ueSectors = s.ueSectors := rfl
@[simp] theorem State.useFree_objs (s : State) : s.useFree.objs = s.objs := rfl
@[simp] theorem State.useFree_flights (s : State) : s.useFree.flights = s.flights := rfl
@[simp] theorem State.useFree_ctrUps (s : State) : s.useFree.ctrUps = s.ctrUps := rfl
@[simp] theorem State.useFree_staging (s : State) : s.useFree.staging = s.staging := rfl
@[simp] theorem State.useFree_l2 (s : State) : s.useFree.l2 = s.l2 := rfl
@[simp] theorem State.useFree_slices (s : State) : s.useFree.slices = s.slices := rfl
@[simp] theorem State.useFree_contests (s : State) : s.useFree.contests = s.contests := rfl
@[simp] theorem State.useFree_evbase (s : State) : s.useFree.evbase = s.evbase := rfl
@[simp] theorem State.useFree_evctl (s : State) : s.useFree.evctl = s.evctl := rfl
@[simp] theorem State.useFree_evSeq (s : State) : s.useFree.evSeq = s.evSeq := rfl
@[simp] theorem State.useFree_evHeld (s : State) : s.useFree.evHeld = s.evHeld := rfl
@[simp] theorem State.useFree_msix (s : State) : s.useFree.msix = s.msix := rfl
@[simp] theorem State.useFree_iocfg (s : State) : s.useFree.iocfg = s.iocfg := rfl
@[simp] theorem State.useFree_inga (s : State) : s.useFree.inga = s.inga := rfl
@[simp] theorem State.useFree_ingl (s : State) : s.useFree.ingl = s.ingl := rfl
@[simp] theorem State.useFree_ingc (s : State) : s.useFree.ingc = s.ingc := rfl
@[simp] theorem State.useFree_links (s : State) : s.useFree.links = s.links := rfl
@[simp] theorem State.useFree_flash (s : State) : s.useFree.flash = s.flash := rfl
@[simp] theorem State.useFree_measurements (s : State) : s.useFree.measurements = s.measurements := rfl
@[simp] theorem State.useFree_fencedMask (s : State) : s.useFree.fencedMask = s.fencedMask := rfl
@[simp] theorem State.useFree_spdm (s : State) : s.useFree.spdm = s.spdm := rfl
@[simp] theorem State.useFree_out (s : State) : s.useFree.out = s.out := rfl
@[simp] theorem State.useFree_ranOn (s : State) : s.useFree.ranOn = s.ranOn := rfl
@[simp] theorem State.useFree_dies (s : State) : s.useFree.dies = s.dies := rfl
@[simp] theorem State.useFree_cores (s : State) : s.useFree.cores = s.cores := rfl
@[simp] theorem State.useFree_ctxs (s : State) : s.useFree.ctxs = s.ctxs := rfl

/-! addFlight. -/

@[simp] theorem State.addFlight_time (s : State) (f : Flight) : (s.addFlight f).time = s.time := rfl
@[simp] theorem State.addFlight_cycle (s : State) (f : Flight) : (s.addFlight f).cycle = s.cycle := rfl
@[simp] theorem State.addFlight_phase (s : State) (f : Flight) : (s.addFlight f).phase = s.phase := rfl
@[simp] theorem State.addFlight_curCore (s : State) (f : Flight) : (s.addFlight f).curCore = s.curCore := rfl
@[simp] theorem State.addFlight_curCtx (s : State) (f : Flight) : (s.addFlight f).curCtx = s.curCtx := rfl
@[simp] theorem State.addFlight_inputs (s : State) (f : Flight) : (s.addFlight f).inputs = s.inputs := rfl
@[simp] theorem State.addFlight_freeCtr (s : State) (f : Flight) : (s.addFlight f).freeCtr = s.freeCtr := rfl
@[simp] theorem State.addFlight_nextId (s : State) (f : Flight) : (s.addFlight f).nextId = s.nextId := rfl
@[simp] theorem State.addFlight_mem (s : State) (f : Flight) : (s.addFlight f).mem = s.mem := rfl
@[simp] theorem State.addFlight_emptyTags (s : State) (f : Flight) : (s.addFlight f).emptyTags = s.emptyTags := rfl
@[simp] theorem State.addFlight_aged (s : State) (f : Flight) : (s.addFlight f).aged = s.aged := rfl
@[simp] theorem State.addFlight_stamps (s : State) (f : Flight) : (s.addFlight f).stamps = s.stamps := rfl
@[simp] theorem State.addFlight_keyIdx (s : State) (f : Flight) : (s.addFlight f).keyIdx = s.keyIdx := rfl
@[simp] theorem State.addFlight_keyReq (s : State) (f : Flight) : (s.addFlight f).keyReq = s.keyReq := rfl
@[simp] theorem State.addFlight_checkDiff (s : State) (f : Flight) : (s.addFlight f).checkDiff = s.checkDiff := rfl
@[simp] theorem State.addFlight_stale (s : State) (f : Flight) : (s.addFlight f).stale = s.stale := rfl
@[simp] theorem State.addFlight_ueRegs (s : State) (f : Flight) : (s.addFlight f).ueRegs = s.ueRegs := rfl
@[simp] theorem State.addFlight_ueCmds (s : State) (f : Flight) : (s.addFlight f).ueCmds = s.ueCmds := rfl
@[simp] theorem State.addFlight_ueCtl (s : State) (f : Flight) : (s.addFlight f).ueCtl = s.ueCtl := rfl
@[simp] theorem State.addFlight_corrected (s : State) (f : Flight) : (s.addFlight f).corrected = s.corrected := rfl
@[simp] theorem State.addFlight_fullAt (s : State) (f : Flight) : (s.addFlight f).fullAt = s.fullAt := rfl
@[simp] theorem State.addFlight_sweep (s : State) (f : Flight) : (s.addFlight f).sweep = s.sweep := rfl
@[simp] theorem State.addFlight_sweepAt (s : State) (f : Flight) : (s.addFlight f).sweepAt = s.sweepAt := rfl
@[simp] theorem State.addFlight_closing (s : State) (f : Flight) : (s.addFlight f).closing = s.closing := rfl
@[simp] theorem State.addFlight_outHold (s : State) (f : Flight) : (s.addFlight f).outHold = s.outHold := rfl
@[simp] theorem State.addFlight_ueSectors (s : State) (f : Flight) : (s.addFlight f).ueSectors = s.ueSectors := rfl
@[simp] theorem State.addFlight_objs (s : State) (f : Flight) : (s.addFlight f).objs = s.objs := rfl
@[simp] theorem State.addFlight_flights (s : State) (f : Flight) : (s.addFlight f).flights = s.flights ++ [f] := rfl
@[simp] theorem State.addFlight_ctrUps (s : State) (f : Flight) : (s.addFlight f).ctrUps = s.ctrUps := rfl
@[simp] theorem State.addFlight_staging (s : State) (f : Flight) : (s.addFlight f).staging = s.staging := rfl
@[simp] theorem State.addFlight_l2 (s : State) (f : Flight) : (s.addFlight f).l2 = s.l2 := rfl
@[simp] theorem State.addFlight_slices (s : State) (f : Flight) : (s.addFlight f).slices = s.slices := rfl
@[simp] theorem State.addFlight_contests (s : State) (f : Flight) : (s.addFlight f).contests = s.contests := rfl
@[simp] theorem State.addFlight_evbase (s : State) (f : Flight) : (s.addFlight f).evbase = s.evbase := rfl
@[simp] theorem State.addFlight_evctl (s : State) (f : Flight) : (s.addFlight f).evctl = s.evctl := rfl
@[simp] theorem State.addFlight_evSeq (s : State) (f : Flight) : (s.addFlight f).evSeq = s.evSeq := rfl
@[simp] theorem State.addFlight_evHeld (s : State) (f : Flight) : (s.addFlight f).evHeld = s.evHeld := rfl
@[simp] theorem State.addFlight_msix (s : State) (f : Flight) : (s.addFlight f).msix = s.msix := rfl
@[simp] theorem State.addFlight_iocfg (s : State) (f : Flight) : (s.addFlight f).iocfg = s.iocfg := rfl
@[simp] theorem State.addFlight_inga (s : State) (f : Flight) : (s.addFlight f).inga = s.inga := rfl
@[simp] theorem State.addFlight_ingl (s : State) (f : Flight) : (s.addFlight f).ingl = s.ingl := rfl
@[simp] theorem State.addFlight_ingc (s : State) (f : Flight) : (s.addFlight f).ingc = s.ingc := rfl
@[simp] theorem State.addFlight_links (s : State) (f : Flight) : (s.addFlight f).links = s.links := rfl
@[simp] theorem State.addFlight_flash (s : State) (f : Flight) : (s.addFlight f).flash = s.flash := rfl
@[simp] theorem State.addFlight_measurements (s : State) (f : Flight) :
    (s.addFlight f).measurements = s.measurements := rfl
@[simp] theorem State.addFlight_fencedMask (s : State) (f : Flight) : (s.addFlight f).fencedMask = s.fencedMask := rfl
@[simp] theorem State.addFlight_spdm (s : State) (f : Flight) : (s.addFlight f).spdm = s.spdm := rfl
@[simp] theorem State.addFlight_out (s : State) (f : Flight) : (s.addFlight f).out = s.out := rfl
@[simp] theorem State.addFlight_ranOn (s : State) (f : Flight) : (s.addFlight f).ranOn = s.ranOn := rfl
@[simp] theorem State.addFlight_dies (s : State) (f : Flight) : (s.addFlight f).dies = s.dies := rfl
@[simp] theorem State.addFlight_cores (s : State) (f : Flight) : (s.addFlight f).cores = s.cores := rfl
@[simp] theorem State.addFlight_ctxs (s : State) (f : Flight) : (s.addFlight f).ctxs = s.ctxs := rfl

/-! setFlight. -/

@[simp] theorem State.setFlight_time (s : State) (f : Flight) : (s.setFlight f).time = s.time := rfl
@[simp] theorem State.setFlight_cycle (s : State) (f : Flight) : (s.setFlight f).cycle = s.cycle := rfl
@[simp] theorem State.setFlight_phase (s : State) (f : Flight) : (s.setFlight f).phase = s.phase := rfl
@[simp] theorem State.setFlight_curCore (s : State) (f : Flight) : (s.setFlight f).curCore = s.curCore := rfl
@[simp] theorem State.setFlight_curCtx (s : State) (f : Flight) : (s.setFlight f).curCtx = s.curCtx := rfl
@[simp] theorem State.setFlight_inputs (s : State) (f : Flight) : (s.setFlight f).inputs = s.inputs := rfl
@[simp] theorem State.setFlight_freeCtr (s : State) (f : Flight) : (s.setFlight f).freeCtr = s.freeCtr := rfl
@[simp] theorem State.setFlight_nextId (s : State) (f : Flight) : (s.setFlight f).nextId = s.nextId := rfl
@[simp] theorem State.setFlight_mem (s : State) (f : Flight) : (s.setFlight f).mem = s.mem := rfl
@[simp] theorem State.setFlight_emptyTags (s : State) (f : Flight) : (s.setFlight f).emptyTags = s.emptyTags := rfl
@[simp] theorem State.setFlight_aged (s : State) (f : Flight) : (s.setFlight f).aged = s.aged := rfl
@[simp] theorem State.setFlight_stamps (s : State) (f : Flight) : (s.setFlight f).stamps = s.stamps := rfl
@[simp] theorem State.setFlight_keyIdx (s : State) (f : Flight) : (s.setFlight f).keyIdx = s.keyIdx := rfl
@[simp] theorem State.setFlight_keyReq (s : State) (f : Flight) : (s.setFlight f).keyReq = s.keyReq := rfl
@[simp] theorem State.setFlight_checkDiff (s : State) (f : Flight) : (s.setFlight f).checkDiff = s.checkDiff := rfl
@[simp] theorem State.setFlight_stale (s : State) (f : Flight) : (s.setFlight f).stale = s.stale := rfl
@[simp] theorem State.setFlight_ueRegs (s : State) (f : Flight) : (s.setFlight f).ueRegs = s.ueRegs := rfl
@[simp] theorem State.setFlight_ueCmds (s : State) (f : Flight) : (s.setFlight f).ueCmds = s.ueCmds := rfl
@[simp] theorem State.setFlight_ueCtl (s : State) (f : Flight) : (s.setFlight f).ueCtl = s.ueCtl := rfl
@[simp] theorem State.setFlight_corrected (s : State) (f : Flight) : (s.setFlight f).corrected = s.corrected := rfl
@[simp] theorem State.setFlight_fullAt (s : State) (f : Flight) : (s.setFlight f).fullAt = s.fullAt := rfl
@[simp] theorem State.setFlight_sweep (s : State) (f : Flight) : (s.setFlight f).sweep = s.sweep := rfl
@[simp] theorem State.setFlight_sweepAt (s : State) (f : Flight) : (s.setFlight f).sweepAt = s.sweepAt := rfl
@[simp] theorem State.setFlight_closing (s : State) (f : Flight) : (s.setFlight f).closing = s.closing := rfl
@[simp] theorem State.setFlight_outHold (s : State) (f : Flight) : (s.setFlight f).outHold = s.outHold := rfl
@[simp] theorem State.setFlight_ueSectors (s : State) (f : Flight) : (s.setFlight f).ueSectors = s.ueSectors := rfl
@[simp] theorem State.setFlight_objs (s : State) (f : Flight) : (s.setFlight f).objs = s.objs := rfl
@[simp] theorem State.setFlight_flights (s : State) (f : Flight) :
    (s.setFlight f).flights = s.flights.map (fun g => if g.id = f.id then f else g) := rfl
@[simp] theorem State.setFlight_ctrUps (s : State) (f : Flight) : (s.setFlight f).ctrUps = s.ctrUps := rfl
@[simp] theorem State.setFlight_staging (s : State) (f : Flight) : (s.setFlight f).staging = s.staging := rfl
@[simp] theorem State.setFlight_l2 (s : State) (f : Flight) : (s.setFlight f).l2 = s.l2 := rfl
@[simp] theorem State.setFlight_slices (s : State) (f : Flight) : (s.setFlight f).slices = s.slices := rfl
@[simp] theorem State.setFlight_contests (s : State) (f : Flight) : (s.setFlight f).contests = s.contests := rfl
@[simp] theorem State.setFlight_evbase (s : State) (f : Flight) : (s.setFlight f).evbase = s.evbase := rfl
@[simp] theorem State.setFlight_evctl (s : State) (f : Flight) : (s.setFlight f).evctl = s.evctl := rfl
@[simp] theorem State.setFlight_evSeq (s : State) (f : Flight) : (s.setFlight f).evSeq = s.evSeq := rfl
@[simp] theorem State.setFlight_evHeld (s : State) (f : Flight) : (s.setFlight f).evHeld = s.evHeld := rfl
@[simp] theorem State.setFlight_msix (s : State) (f : Flight) : (s.setFlight f).msix = s.msix := rfl
@[simp] theorem State.setFlight_iocfg (s : State) (f : Flight) : (s.setFlight f).iocfg = s.iocfg := rfl
@[simp] theorem State.setFlight_inga (s : State) (f : Flight) : (s.setFlight f).inga = s.inga := rfl
@[simp] theorem State.setFlight_ingl (s : State) (f : Flight) : (s.setFlight f).ingl = s.ingl := rfl
@[simp] theorem State.setFlight_ingc (s : State) (f : Flight) : (s.setFlight f).ingc = s.ingc := rfl
@[simp] theorem State.setFlight_links (s : State) (f : Flight) : (s.setFlight f).links = s.links := rfl
@[simp] theorem State.setFlight_flash (s : State) (f : Flight) : (s.setFlight f).flash = s.flash := rfl
@[simp] theorem State.setFlight_measurements (s : State) (f : Flight) :
    (s.setFlight f).measurements = s.measurements := rfl
@[simp] theorem State.setFlight_fencedMask (s : State) (f : Flight) : (s.setFlight f).fencedMask = s.fencedMask := rfl
@[simp] theorem State.setFlight_spdm (s : State) (f : Flight) : (s.setFlight f).spdm = s.spdm := rfl
@[simp] theorem State.setFlight_out (s : State) (f : Flight) : (s.setFlight f).out = s.out := rfl
@[simp] theorem State.setFlight_ranOn (s : State) (f : Flight) : (s.setFlight f).ranOn = s.ranOn := rfl
@[simp] theorem State.setFlight_dies (s : State) (f : Flight) : (s.setFlight f).dies = s.dies := rfl
@[simp] theorem State.setFlight_cores (s : State) (f : Flight) : (s.setFlight f).cores = s.cores := rfl
@[simp] theorem State.setFlight_ctxs (s : State) (f : Flight) : (s.setFlight f).ctxs = s.ctxs := rfl

/-! dropFlight. -/

@[simp] theorem State.dropFlight_time (s : State) (n : Nat) : (s.dropFlight n).time = s.time := rfl
@[simp] theorem State.dropFlight_cycle (s : State) (n : Nat) : (s.dropFlight n).cycle = s.cycle := rfl
@[simp] theorem State.dropFlight_phase (s : State) (n : Nat) : (s.dropFlight n).phase = s.phase := rfl
@[simp] theorem State.dropFlight_curCore (s : State) (n : Nat) : (s.dropFlight n).curCore = s.curCore := rfl
@[simp] theorem State.dropFlight_curCtx (s : State) (n : Nat) : (s.dropFlight n).curCtx = s.curCtx := rfl
@[simp] theorem State.dropFlight_inputs (s : State) (n : Nat) : (s.dropFlight n).inputs = s.inputs := rfl
@[simp] theorem State.dropFlight_freeCtr (s : State) (n : Nat) : (s.dropFlight n).freeCtr = s.freeCtr := rfl
@[simp] theorem State.dropFlight_nextId (s : State) (n : Nat) : (s.dropFlight n).nextId = s.nextId := rfl
@[simp] theorem State.dropFlight_mem (s : State) (n : Nat) : (s.dropFlight n).mem = s.mem := rfl
@[simp] theorem State.dropFlight_emptyTags (s : State) (n : Nat) : (s.dropFlight n).emptyTags = s.emptyTags := rfl
@[simp] theorem State.dropFlight_aged (s : State) (n : Nat) : (s.dropFlight n).aged = s.aged := rfl
@[simp] theorem State.dropFlight_stamps (s : State) (n : Nat) : (s.dropFlight n).stamps = s.stamps := rfl
@[simp] theorem State.dropFlight_keyIdx (s : State) (n : Nat) : (s.dropFlight n).keyIdx = s.keyIdx := rfl
@[simp] theorem State.dropFlight_keyReq (s : State) (n : Nat) : (s.dropFlight n).keyReq = s.keyReq := rfl
@[simp] theorem State.dropFlight_checkDiff (s : State) (n : Nat) : (s.dropFlight n).checkDiff = s.checkDiff := rfl
@[simp] theorem State.dropFlight_stale (s : State) (n : Nat) : (s.dropFlight n).stale = s.stale := rfl
@[simp] theorem State.dropFlight_ueRegs (s : State) (n : Nat) : (s.dropFlight n).ueRegs = s.ueRegs := rfl
@[simp] theorem State.dropFlight_ueCmds (s : State) (n : Nat) : (s.dropFlight n).ueCmds = s.ueCmds := rfl
@[simp] theorem State.dropFlight_ueCtl (s : State) (n : Nat) : (s.dropFlight n).ueCtl = s.ueCtl := rfl
@[simp] theorem State.dropFlight_corrected (s : State) (n : Nat) : (s.dropFlight n).corrected = s.corrected := rfl
@[simp] theorem State.dropFlight_fullAt (s : State) (n : Nat) : (s.dropFlight n).fullAt = s.fullAt := rfl
@[simp] theorem State.dropFlight_sweep (s : State) (n : Nat) : (s.dropFlight n).sweep = s.sweep := rfl
@[simp] theorem State.dropFlight_sweepAt (s : State) (n : Nat) : (s.dropFlight n).sweepAt = s.sweepAt := rfl
@[simp] theorem State.dropFlight_closing (s : State) (n : Nat) : (s.dropFlight n).closing = s.closing := rfl
@[simp] theorem State.dropFlight_outHold (s : State) (n : Nat) : (s.dropFlight n).outHold = s.outHold := rfl
@[simp] theorem State.dropFlight_ueSectors (s : State) (n : Nat) : (s.dropFlight n).ueSectors = s.ueSectors := rfl
@[simp] theorem State.dropFlight_objs (s : State) (n : Nat) : (s.dropFlight n).objs = s.objs := rfl
@[simp] theorem State.dropFlight_flights (s : State) (n : Nat) :
    (s.dropFlight n).flights = s.flights.filter (fun f => f.id ≠ n) := rfl
@[simp] theorem State.dropFlight_ctrUps (s : State) (n : Nat) : (s.dropFlight n).ctrUps = s.ctrUps := rfl
@[simp] theorem State.dropFlight_staging (s : State) (n : Nat) : (s.dropFlight n).staging = s.staging := rfl
@[simp] theorem State.dropFlight_l2 (s : State) (n : Nat) : (s.dropFlight n).l2 = s.l2 := rfl
@[simp] theorem State.dropFlight_slices (s : State) (n : Nat) : (s.dropFlight n).slices = s.slices := rfl
@[simp] theorem State.dropFlight_contests (s : State) (n : Nat) : (s.dropFlight n).contests = s.contests := rfl
@[simp] theorem State.dropFlight_evbase (s : State) (n : Nat) : (s.dropFlight n).evbase = s.evbase := rfl
@[simp] theorem State.dropFlight_evctl (s : State) (n : Nat) : (s.dropFlight n).evctl = s.evctl := rfl
@[simp] theorem State.dropFlight_evSeq (s : State) (n : Nat) : (s.dropFlight n).evSeq = s.evSeq := rfl
@[simp] theorem State.dropFlight_evHeld (s : State) (n : Nat) : (s.dropFlight n).evHeld = s.evHeld := rfl
@[simp] theorem State.dropFlight_msix (s : State) (n : Nat) : (s.dropFlight n).msix = s.msix := rfl
@[simp] theorem State.dropFlight_iocfg (s : State) (n : Nat) : (s.dropFlight n).iocfg = s.iocfg := rfl
@[simp] theorem State.dropFlight_inga (s : State) (n : Nat) : (s.dropFlight n).inga = s.inga := rfl
@[simp] theorem State.dropFlight_ingl (s : State) (n : Nat) : (s.dropFlight n).ingl = s.ingl := rfl
@[simp] theorem State.dropFlight_ingc (s : State) (n : Nat) : (s.dropFlight n).ingc = s.ingc := rfl
@[simp] theorem State.dropFlight_links (s : State) (n : Nat) : (s.dropFlight n).links = s.links := rfl
@[simp] theorem State.dropFlight_flash (s : State) (n : Nat) : (s.dropFlight n).flash = s.flash := rfl
@[simp] theorem State.dropFlight_measurements (s : State) (n : Nat) :
    (s.dropFlight n).measurements = s.measurements := rfl
@[simp] theorem State.dropFlight_fencedMask (s : State) (n : Nat) : (s.dropFlight n).fencedMask = s.fencedMask := rfl
@[simp] theorem State.dropFlight_spdm (s : State) (n : Nat) : (s.dropFlight n).spdm = s.spdm := rfl
@[simp] theorem State.dropFlight_out (s : State) (n : Nat) : (s.dropFlight n).out = s.out := rfl
@[simp] theorem State.dropFlight_ranOn (s : State) (n : Nat) : (s.dropFlight n).ranOn = s.ranOn := rfl
@[simp] theorem State.dropFlight_dies (s : State) (n : Nat) : (s.dropFlight n).dies = s.dies := rfl
@[simp] theorem State.dropFlight_cores (s : State) (n : Nat) : (s.dropFlight n).cores = s.cores := rfl
@[simp] theorem State.dropFlight_ctxs (s : State) (n : Nat) : (s.dropFlight n).ctxs = s.ctxs := rfl

/-! Parts of the state after an update. -/

@[simp] theorem State.modCore_eq (s : State) (c : Nat) (f : Core → Core) : s.modCore c f = s.setCore c (f (s.core c)) := rfl
@[simp] theorem State.modCtx_eq (s : State) (p : Nat) (f : Ctx → Ctx) : s.modCtx p f = s.setCtx p (f (s.ctx p)) := rfl
@[simp] theorem State.modDie_eq (s : State) (d : Nat) (f : Die → Die) : s.modDie d f = s.setDie d (f (s.die d)) := rfl

@[simp] theorem State.core_setCore_self (s : State) (c : Nat) (x : Core) : ((s.setCore c x).core c) = x := Tab.get_set_self _ _ _
theorem State.core_setCore (s : State) (c : Nat) (x : Core) (n : Nat) : (s.setCore c x).core n = if n = c then x else s.core n :=
  Tab.get_set _ _ _ _
theorem State.core_setCore_ne (s : State) {n c : Nat} (x : Core) (h : n ≠ c) : (s.setCore c x).core n = s.core n :=
  Tab.get_set_ne _ _ h
@[simp] theorem State.ctx_setCore (s : State) (c : Nat) (x : Core) (n : Nat) : (s.setCore c x).ctx n = s.ctx n := rfl
@[simp] theorem State.die_setCore (s : State) (c : Nat) (x : Core) (n : Nat) : (s.setCore c x).die n = s.die n := rfl
@[simp] theorem State.contest_setCore (s : State) (c : Nat) (x : Core) (n : Nat) : (s.setCore c x).contest n = s.contest n := rfl
@[simp] theorem State.byte_setCore (s : State) (c : Nat) (x : Core) (n : Nat) : (s.setCore c x).byte n = s.byte n := rfl
@[simp] theorem State.core_setCtx (s : State) (p : Nat) (x : Ctx) (n : Nat) : (s.setCtx p x).core n = s.core n := rfl
@[simp] theorem State.ctx_setCtx_self (s : State) (p : Nat) (x : Ctx) : ((s.setCtx p x).ctx p) = x := Tab.get_set_self _ _ _
theorem State.ctx_setCtx (s : State) (p : Nat) (x : Ctx) (n : Nat) : (s.setCtx p x).ctx n = if n = p then x else s.ctx n :=
  Tab.get_set _ _ _ _
theorem State.ctx_setCtx_ne (s : State) {n p : Nat} (x : Ctx) (h : n ≠ p) : (s.setCtx p x).ctx n = s.ctx n :=
  Tab.get_set_ne _ _ h
@[simp] theorem State.die_setCtx (s : State) (p : Nat) (x : Ctx) (n : Nat) : (s.setCtx p x).die n = s.die n := rfl
@[simp] theorem State.contest_setCtx (s : State) (p : Nat) (x : Ctx) (n : Nat) : (s.setCtx p x).contest n = s.contest n := rfl
@[simp] theorem State.byte_setCtx (s : State) (p : Nat) (x : Ctx) (n : Nat) : (s.setCtx p x).byte n = s.byte n := rfl
@[simp] theorem State.core_setDie (s : State) (d : Nat) (x : Die) (n : Nat) : (s.setDie d x).core n = s.core n := rfl
@[simp] theorem State.ctx_setDie (s : State) (d : Nat) (x : Die) (n : Nat) : (s.setDie d x).ctx n = s.ctx n := rfl
@[simp] theorem State.die_setDie_self (s : State) (d : Nat) (x : Die) : ((s.setDie d x).die d) = x := Tab.get_set_self _ _ _
theorem State.die_setDie (s : State) (d : Nat) (x : Die) (n : Nat) : (s.setDie d x).die n = if n = d then x else s.die n :=
  Tab.get_set _ _ _ _
theorem State.die_setDie_ne (s : State) {n d : Nat} (x : Die) (h : n ≠ d) : (s.setDie d x).die n = s.die n :=
  Tab.get_set_ne _ _ h
@[simp] theorem State.contest_setDie (s : State) (d : Nat) (x : Die) (n : Nat) : (s.setDie d x).contest n = s.contest n := rfl
@[simp] theorem State.byte_setDie (s : State) (d : Nat) (x : Die) (n : Nat) : (s.setDie d x).byte n = s.byte n := rfl
@[simp] theorem State.core_setContest (s : State) (c : Nat) (x : Contest) (n : Nat) : (s.setContest c x).core n = s.core n := rfl
@[simp] theorem State.ctx_setContest (s : State) (c : Nat) (x : Contest) (n : Nat) : (s.setContest c x).ctx n = s.ctx n := rfl
@[simp] theorem State.die_setContest (s : State) (c : Nat) (x : Contest) (n : Nat) : (s.setContest c x).die n = s.die n := rfl
@[simp] theorem State.contest_setContest_self (s : State) (c : Nat) (x : Contest) : ((s.setContest c x).contest c) = x := Tab.get_set_self _ _ _
theorem State.contest_setContest (s : State) (c : Nat) (x : Contest) (n : Nat) : (s.setContest c x).contest n = if n = c then x else s.contest n :=
  Tab.get_set _ _ _ _
theorem State.contest_setContest_ne (s : State) {n c : Nat} (x : Contest) (h : n ≠ c) : (s.setContest c x).contest n = s.contest n :=
  Tab.get_set_ne _ _ h
@[simp] theorem State.byte_setContest (s : State) (c : Nat) (x : Contest) (n : Nat) : (s.setContest c x).byte n = s.byte n := rfl
@[simp] theorem State.core_setByte (s : State) (k : Nat) (b : Byte) (n : Nat) : (s.setByte k b).core n = s.core n := rfl
@[simp] theorem State.ctx_setByte (s : State) (k : Nat) (b : Byte) (n : Nat) : (s.setByte k b).ctx n = s.ctx n := rfl
@[simp] theorem State.die_setByte (s : State) (k : Nat) (b : Byte) (n : Nat) : (s.setByte k b).die n = s.die n := rfl
@[simp] theorem State.contest_setByte (s : State) (k : Nat) (b : Byte) (n : Nat) : (s.setByte k b).contest n = s.contest n := rfl
@[simp] theorem State.byte_setByte_self (s : State) (k : Nat) (b : Byte) : (s.setByte k b).byte k = b := Tab.get_set_self _ _ _
theorem State.byte_setByte_ne (s : State) {n k : Nat} (b : Byte) (h : n ≠ k) : (s.setByte k b).byte n = s.byte n :=
  Tab.get_set_ne _ _ h
@[simp] theorem State.core_setBytes (s : State) (l : List (Nat × Byte)) (n : Nat) : (s.setBytes l).core n = s.core n := rfl
@[simp] theorem State.ctx_setBytes (s : State) (l : List (Nat × Byte)) (n : Nat) : (s.setBytes l).ctx n = s.ctx n := rfl
@[simp] theorem State.die_setBytes (s : State) (l : List (Nat × Byte)) (n : Nat) : (s.setBytes l).die n = s.die n := rfl
@[simp] theorem State.contest_setBytes (s : State) (l : List (Nat × Byte)) (n : Nat) : (s.setBytes l).contest n = s.contest n := rfl
theorem State.byte_setBytes_ne (s : State) (l : List (Nat × Byte)) {k : Nat} (h : ∀ e ∈ l, e.1 ≠ k) :
    (s.setBytes l).byte k = s.byte k := Tab.get_setMany_ne _ _ h
@[simp] theorem State.core_setTag (s : State) (k : Nat) (b : Bool) (n : Nat) : (s.setTag k b).core n = s.core n := rfl
@[simp] theorem State.ctx_setTag (s : State) (k : Nat) (b : Bool) (n : Nat) : (s.setTag k b).ctx n = s.ctx n := rfl
@[simp] theorem State.die_setTag (s : State) (k : Nat) (b : Bool) (n : Nat) : (s.setTag k b).die n = s.die n := rfl
@[simp] theorem State.contest_setTag (s : State) (k : Nat) (b : Bool) (n : Nat) : (s.setTag k b).contest n = s.contest n := rfl
@[simp] theorem State.byte_setTag (s : State) (k : Nat) (b : Bool) (n : Nat) : (s.setTag k b).byte n = s.byte n := rfl
@[simp] theorem State.core_fresh (s : State) (n : Nat) : s.fresh.core n = s.core n := rfl
@[simp] theorem State.ctx_fresh (s : State) (n : Nat) : s.fresh.ctx n = s.ctx n := rfl
@[simp] theorem State.die_fresh (s : State) (n : Nat) : s.fresh.die n = s.die n := rfl
@[simp] theorem State.contest_fresh (s : State) (n : Nat) : s.fresh.contest n = s.contest n := rfl
@[simp] theorem State.byte_fresh (s : State) (n : Nat) : s.fresh.byte n = s.byte n := rfl
@[simp] theorem State.core_useFree (s : State) (n : Nat) : s.useFree.core n = s.core n := rfl
@[simp] theorem State.ctx_useFree (s : State) (n : Nat) : s.useFree.ctx n = s.ctx n := rfl
@[simp] theorem State.die_useFree (s : State) (n : Nat) : s.useFree.die n = s.die n := rfl
@[simp] theorem State.contest_useFree (s : State) (n : Nat) : s.useFree.contest n = s.contest n := rfl
@[simp] theorem State.byte_useFree (s : State) (n : Nat) : s.useFree.byte n = s.byte n := rfl
@[simp] theorem State.core_addFlight (s : State) (f : Flight) (n : Nat) : (s.addFlight f).core n = s.core n := rfl
@[simp] theorem State.ctx_addFlight (s : State) (f : Flight) (n : Nat) : (s.addFlight f).ctx n = s.ctx n := rfl
@[simp] theorem State.die_addFlight (s : State) (f : Flight) (n : Nat) : (s.addFlight f).die n = s.die n := rfl
@[simp] theorem State.contest_addFlight (s : State) (f : Flight) (n : Nat) : (s.addFlight f).contest n = s.contest n := rfl
@[simp] theorem State.byte_addFlight (s : State) (f : Flight) (n : Nat) : (s.addFlight f).byte n = s.byte n := rfl
@[simp] theorem State.core_setFlight (s : State) (f : Flight) (n : Nat) : (s.setFlight f).core n = s.core n := rfl
@[simp] theorem State.ctx_setFlight (s : State) (f : Flight) (n : Nat) : (s.setFlight f).ctx n = s.ctx n := rfl
@[simp] theorem State.die_setFlight (s : State) (f : Flight) (n : Nat) : (s.setFlight f).die n = s.die n := rfl
@[simp] theorem State.contest_setFlight (s : State) (f : Flight) (n : Nat) : (s.setFlight f).contest n = s.contest n := rfl
@[simp] theorem State.byte_setFlight (s : State) (f : Flight) (n : Nat) : (s.setFlight f).byte n = s.byte n := rfl
@[simp] theorem State.core_dropFlight (s : State) (n m : Nat) : (s.dropFlight n).core m = s.core m := rfl
@[simp] theorem State.ctx_dropFlight (s : State) (n m : Nat) : (s.dropFlight n).ctx m = s.ctx m := rfl
@[simp] theorem State.die_dropFlight (s : State) (n m : Nat) : (s.dropFlight n).die m = s.die m := rfl
@[simp] theorem State.contest_dropFlight (s : State) (n m : Nat) : (s.dropFlight n).contest m = s.contest m := rfl
@[simp] theorem State.byte_dropFlight (s : State) (n m : Nat) : (s.dropFlight n).byte m = s.byte m := rfl

/-! Memory keeps its canonical form. -/

theorem State.setByte_wf (s : State) (k : Nat) (b : Byte) (h : Memory.wf s.mem) : Memory.wf (s.setByte k b).mem :=
  Tab.wf_set h k b

theorem State.setBytes_wf (s : State) (l : List (Nat × Byte)) (h : Memory.wf s.mem) : Memory.wf (s.setBytes l).mem :=
  Tab.wf_setMany h l

theorem State.clearShare_wf (s : State) (c : Nat) (h : Memory.wf s.mem) : Memory.wf (s.clearShare c).mem := by
  simpa only [State.clearShare] using Tab.wf_drop _ h

theorem State.reset_wf : Memory.wf State.reset.mem := rfl

end Sys2Proof.Machine
end

