-- ==== Sys2Proof/Laws/Issue.lean ====
section
/-! SUPPORT. Issue: what an instruction's own part finds, and what issue answers for each thing the part may answer. -/

namespace Sys2Proof.Machine

/-! Entering an instruction changes the current context's length bits and counts, and nothing an operand reads. -/

theorem State.enter_def (s : State) (i : Instr) : s.enter i = s.setCtx s.cur (s.entered i) := rfl

section Enter

variable (s : State) (i : Instr)

@[simp] theorem State.me_def : s.ctx s.cur = s.me := rfl
@[simp] theorem State.cur_setCtx (p : Nat) (x : Ctx) : (s.setCtx p x).cur = s.cur := rfl
@[simp] theorem State.cur_setCore (p : Nat) (x : Core) : (s.setCore p x).cur = s.cur := rfl
@[simp] theorem State.cur_fresh : s.fresh.cur = s.cur := rfl
@[simp] theorem State.enter_cur : (s.enter i).cur = s.cur := rfl
@[simp] theorem State.enter_me : (s.enter i).me = s.entered i := Tab.get_set_self _ _ _
@[simp] theorem State.enter_core (c : Nat) : (s.enter i).core c = s.core c := rfl
@[simp] theorem State.enter_die (d : Nat) : (s.enter i).die d = s.die d := rfl
@[simp] theorem State.enter_cycle : (s.enter i).cycle = s.cycle := rfl
@[simp] theorem State.enter_nextId : (s.enter i).nextId = s.nextId := rfl

@[simp] theorem State.enter_ctx : (s.enter i).ctx s.cur = s.entered i := Tab.get_set_self _ _ _

theorem State.enter_ctx_ne {q : Nat} (h : q ≠ s.cur) : (s.enter i).ctx q = s.ctx q := Tab.get_set_ne _ _ h

/-- A context's windows outlast any update of it that keeps them. -/
theorem State.window_setCtx {p : Nat} {x : Ctx} (hv : x.v = (s.ctx p).v) (hs : x.s = (s.ctx p).s) (q : Nat) (f : FileId) :
    (s.setCtx p x).window q f = s.window q f := by
  cases f <;> simp only [State.window, State.ctx_setCtx] <;> first | rfl | (split <;> simp_all)

@[simp] theorem State.enter_window (q : Nat) (f : FileId) : (s.enter i).window q f = s.window q f :=
  State.window_setCtx s (p := s.cur) (x := s.entered i) rfl rfl q f

@[simp] theorem State.enter_octetEmpty (q : Nat) (o : FileId × Nat) : (s.enter i).octetEmpty q o = s.octetEmpty q o := by
  simp [State.octetEmpty]

@[simp] theorem State.enter_readOp (q : Nat) (o : Opnd) (l : Nat) : (s.enter i).readOp q o l = s.readOp q o l := by
  simp [State.readOp]

@[simp] theorem State.enter_intOp (q : Nat) (t : Ty) (o : Opnd) (l : Nat) : (s.enter i).intOp q t o l = s.intOp q t o l := by
  simp [State.intOp]

@[simp] theorem State.enter_bitsOp (q : Nat) (t : Ty) (o : Opnd) (l : Nat) : (s.enter i).bitsOp q t o l = s.bitsOp q t o l := by
  simp [State.bitsOp]

@[simp] theorem State.enter_u64 (q : Nat) (o : Opnd) : (s.enter i).u64 q o = s.u64 q o := by simp [State.u64]

@[simp] theorem State.enter_opImm {n : Nat} (q : Nat) (x : OpImm n) : (s.enter i).opImm q x = s.opImm q x := by
  cases x <;> simp [State.opImm]

@[simp] theorem State.entered_pred (n : Nat) : (s.entered i).pred n = s.me.pred n := rfl
@[simp] theorem State.entered_guardAt (h : Hdr) (l : Nat) : (s.entered i).guardAt h l = s.me.guardAt h l := rfl
@[simp] theorem State.entered_activeLanes (h : Hdr) : (s.entered i).activeLanes h = s.me.activeLanes h := rfl
@[simp] theorem State.entered_active (h : Hdr) (l : Nat) : (s.entered i).active h l = s.me.active h l := rfl

@[simp] theorem State.enter_lanes (h : Hdr) (v : Bool) : (s.enter i).lanes h v = s.lanes h v := by
  show ((s.enter i).ctx s.cur).lanes h v = _
  rw [State.enter_ctx]; rfl

@[simp] theorem State.enter_guarded (h : Hdr) : (s.enter i).guarded h = s.guarded h := by simp [State.guarded]

@[simp] theorem State.enter_lanesWrite (h : Hdr) (d : Opnd) (f : Nat → Nat) :
    (s.enter i).lanesWrite h d f = s.lanesWrite h d f := by simp [State.lanesWrite]

@[simp] theorem State.enter_pr (n : BitVec 4) : (s.enter i).pr n = s.pr n := by simp [State.pr]
@[simp] theorem State.enter_ftz : (s.enter i).ftz = s.ftz := by
  show ((s.enter i).ctx s.cur).ftz = _
  rw [State.enter_ctx]; rfl
@[simp] theorem State.enter_t64 (o : Opnd) : (s.enter i).t64 o = s.t64 o := by simp [State.t64]
@[simp] theorem State.enter_moved (t : Ty) (d a : Opnd) : (s.enter i).moved t d a = s.moved t d a := by
  funext l; simp [State.moved]
@[simp] theorem State.enter_countOp {n : Nat} (x : OpImm n) (l : Nat) : (s.enter i).countOp x l = s.countOp x l := by
  cases x <;> simp [State.countOp]
@[simp] theorem State.enter_groups (h : Hdr) : (s.enter i).groups h = s.groups h := by
  show (List.range 4).filter (fun j => ((s.enter i).ctx s.cur).active h (16 * j)) = _
  rw [State.enter_ctx]; rfl
@[simp] theorem State.enter_image (o : Opnd) (j : Nat) : (s.enter i).image o j = s.image o j := by simp [State.image]
@[simp] theorem State.enter_cmpWrite (h : Hdr) (pd : Nat) (v : Bool) (f : Nat → Bool) :
    (s.enter i).cmpWrite h pd v f = s.cmpWrite h pd v f := by simp [State.cmpWrite]

end Enter

@[simp] theorem Ctx.setLen_priv (x : Ctx) (i : Instr) : (x.setLen i).priv = x.priv := rfl
@[simp] theorem Ctx.setLen_uncounted (x : Ctx) (i : Instr) : (x.setLen i).uncounted = x.uncounted := rfl
@[simp] theorem Ctx.setLen_spc (x : Ctx) (i : Instr) : (x.setLen i).spc = x.spc := rfl

/-- The current core, where the turn marker names a context. -/
theorem State.cur_core {s : State} (h : s.curCtx < 16) : s.cur / 16 = s.curCore := by
  simp only [State.cur, ctxId]; omega

/-! The checks before the instruction's own part read neither the length bits nor what they would change. -/

theorem State.staticTrap_setLen (s : State) (i : Instr) :
    (s.setCtx s.cur (s.me.setLen i)).staticTrap s.cur i = s.staticTrap s.cur i := by
  have w : ∀ q f, (s.setCtx s.cur (s.me.setLen i)).window q f = s.window q f :=
    State.window_setCtx s (p := s.cur) (x := s.me.setLen i) rfl rfl
  have o : (s.setCtx s.cur (s.me.setLen i)).opndBad s.cur i.shape = s.opndBad s.cur i.shape := by
    funext x; simp [State.opndBad, w]
  have r : (s.setCtx s.cur (s.me.setLen i)).rangeBad s.cur i.shape = s.rangeBad s.cur i.shape := by
    simp [State.rangeBad, w]
  simp [State.staticTrap, o, r]

theorem State.busy_setCtx (s : State) (p q : Nat) (x : Ctx) (h : Hdr) (sh : Shape) :
    (s.setCtx q x).busy p h sh = s.busy p h sh := rfl

theorem State.octetEmpty_setLen (s : State) (i : Instr) :
    (s.setCtx s.cur (s.me.setLen i)).octetEmpty s.cur = s.octetEmpty s.cur := by
  funext o
  exact congrArg (fun w => Window.isEmpty w o.2)
    (State.window_setCtx s (p := s.cur) (x := s.me.setLen i) rfl rfl s.cur o.1)

theorem State.opEmpty_setLen (s : State) (i : Instr) :
    (s.setCtx s.cur (s.me.setLen i)).opEmpty s.cur = s.opEmpty s.cur := by
  unfold State.opEmpty; rw [State.octetEmpty_setLen]

theorem State.emptySrcs_setLen (s : State) (i : Instr) (sh : Shape) :
    (s.setCtx s.cur (s.me.setLen i)).emptySrcs s.cur sh = s.emptySrcs s.cur sh := by
  unfold State.emptySrcs State.opEmpty; rw [State.octetEmpty_setLen]

theorem State.lateTrap_setLen (s : State) (i : Instr) :
    (s.setCtx s.cur (s.me.setLen i)).lateTrap s.cur i = s.lateTrap s.cur i := by
  unfold State.lateTrap; rw [State.emptySrcs_setLen, State.ctx_setCtx_self]; rfl

theorem State.sleepOctets_setLen (s : State) (i : Instr) :
    (s.setCtx s.cur (s.me.setLen i)).sleepOctets s.cur i.hdr i.shape = s.sleepOctets s.cur i.hdr i.shape := by
  unfold State.sleepOctets State.waitSrcs State.ownEmpty
  rw [State.emptySrcs_setLen, State.octetEmpty_setLen, State.opEmpty_setLen]; rfl

/-- Sources that an instruction waits for: empty ones with action 0, by their place among its source fields (R26). -/
theorem State.mem_waitSrcs (s : State) (p : Nat) (h : Hdr) (sh : Shape) (o : Opnd) :
    o ∈ s.waitSrcs p h sh ↔ s.opEmpty p o = true ∧
      ((∃ n f, sh.srcs[n]? = some (f, some o) ∧ h.ea (n + 1) = false) ∨ ∃ r ∈ sh.reads, r.2 = o) := by
  simp only [State.waitSrcs, State.emptySrcs, List.mem_append, List.mem_map, List.mem_filter, List.mem_filterMap,
    List.mem_zipIdx_iff_getElem?, Option.bind_eq_some_iff, Bool.not_eq_true', Prod.exists]
  constructor
  · rintro (⟨n, q, ⟨⟨a, b, k, hk, r, hr, hq⟩, he⟩, rfl⟩ | ⟨⟨a, b, hr, rfl⟩, he⟩)
    · split at hq
      · cases hq; cases hr
        exact ⟨‹_›, .inl ⟨k, a, hk, he⟩⟩
      · cases hq
    · exact ⟨he, .inr ⟨a, b, hr, rfl⟩⟩
  · rintro ⟨he, ⟨n, f, hn, ha⟩ | ⟨a, b, hr, rfl⟩⟩
    · exact .inl ⟨n + 1, o, ⟨⟨f, some o, n, hn, o, rfl, by rw [if_pos he]⟩, ha⟩, rfl⟩
    · exact .inr ⟨⟨a, b, hr, rfl⟩, he⟩

/-- Octets of destinations that the context's own long-latency producers still owe (R27). -/
theorem State.mem_ownEmpty (s : State) (p : Nat) (sh : Shape) (q : FileId × Nat) :
    q ∈ s.ownEmpty p sh ↔ q ∈ octs sh.dsts ++ sh.more ++ (if sh.kind = .late then sh.rangeOctets else []) ∧
      (∃ w ∈ (s.core (p / 16)).wbs, w.ctx = p ∧ w.long = true ∧ q ∈ w.octs) ∧ s.octetEmpty p q = true := by
  simp only [State.ownEmpty, List.mem_filter, Bool.and_eq_true, List.contains_iff_mem, List.mem_flatMap,
    decide_eq_true_eq, and_assoc]

/-- Check 8's list (R26, R27): every octet of a source that is waited for, and what the context's producers owe. -/
theorem State.mem_sleepOctets (s : State) (p : Nat) (h : Hdr) (sh : Shape) (q : FileId × Nat) :
    q ∈ s.sleepOctets p h sh ↔ (∃ o ∈ s.waitSrcs p h sh, q ∈ o.octets) ∨ q ∈ s.ownEmpty p sh := by
  simp only [State.sleepOctets, List.mem_append, List.mem_flatMap]

theorem State.badReg_setCtx (s : State) (p q : Nat) (x : Ctx) (sh : Shape) : (s.setCtx q x).badReg p sh = s.badReg p sh := rfl

/-! What issue answers. -/

/-- The state after an own part that performed its effect: the context goes to an address and the slot is taken. -/
def State.leave (t : State) (i : Instr) (p : Nat) (pc : Word) : State :=
  (t.modCtx p (fun x => x.goTo pc)).issued (p / 16) i.shape.added

/-- A ready instruction's issue is decided by its own part. -/
theorem Ready.issue {i : Instr} {s : State} (h : Ready i s) (act : State → Act) :
    s.issue i act =
      match act (s.enter i) with
      | .go t => t.leave i s.cur (s.pcAfter i)
      | .jump t pc => t.leave i s.cur pc
      | .wait t => t.issued (s.cur / 16) i.shape.added
      | .trap t =>
        if t.isMiss then ((s.setCtx s.cur (s.me.setLen i)).walkMiss s.cur t).forfeit (s.cur / 16)
        else (s.setCtx s.cur (s.me.setLen i)).raise s.cur t
      | .trapWith t v =>
        if t.isMiss then (v.walkMiss s.cur t).forfeit (s.cur / 16)
        else (v.modCtx s.cur (fun x => { x with spc := s.me.spc, counted := s.me.counted })).raise s.cur t
      | .again t => t
      | .stall => (s.setCtx s.cur (s.me.setLen i)).forfeit (s.cur / 16)
      | .hold f => (f (s.setCtx s.cur (s.me.setLen i))).forfeit (s.cur / 16) := by
  have hs := (s.staticTrap_setLen i).trans h.static
  have hl := (s.lateTrap_setLen i).trans h.late
  have hf := (s.sleepOctets_setLen i).trans h.full
  have hb := (s.busy_setCtx s.cur s.cur (s.me.setLen i) i.hdr i.shape).trans h.idle
  have hr := (s.badReg_setCtx s.cur s.cur (s.me.setLen i) i.shape).trans h.sound
  simp only [State.issue, State.modCtx_eq, State.me_def, hs, hl, hf, hb, hr, Bool.false_eq_true, if_false,
    State.ctx_setCtx_self, State.leave, State.pcAfter]
  rfl

theorem Ready.issue_go {i : Instr} {s t : State} (h : Ready i s) {act : State → Act} (ha : act (s.enter i) = .go t) :
    s.issue i act = t.leave i s.cur (s.pcAfter i) := by rw [h.issue, ha]

theorem Ready.issue_jump {i : Instr} {s t : State} (h : Ready i s) {act : State → Act} {pc : Word}
    (ha : act (s.enter i) = .jump t pc) : s.issue i act = t.leave i s.cur pc := by rw [h.issue, ha]

theorem Ready.issue_wait {i : Instr} {s t : State} (h : Ready i s) {act : State → Act}
    (ha : act (s.enter i) = .wait t) : s.issue i act = t.issued (s.cur / 16) i.shape.added := by rw [h.issue, ha]

/-- A failing check of 1 to 5 traps before anything else (R34). -/
theorem State.issue_static {i : Instr} {s : State} {t : TrapInfo} (h : s.staticTrap s.cur i = some t)
    (act : State → Act) :
    s.issue i act = (s.setCtx s.cur (s.me.setLen i)).raise s.cur t := by
  have hs := (s.staticTrap_setLen i).trans h
  simp only [State.issue, State.modCtx_eq, State.me_def, hs]

/-! What leaving an instruction does to the parts of the state. -/

section Leave

variable (t : State) (i : Instr) (p : Nat) (pc : Word)

theorem State.issued_ctx (c n q : Nat) : (t.issued c n).ctx q = t.ctx q := by
  unfold State.issued State.lengthen State.count; split <;> rfl

theorem State.issued_core_self (c n : Nat) :
    (t.issued c n).core c =
      { t.core c with
        slotAt := (t.core c).slotAt + n, rotAt := (t.core c).rotAt + n
        perf := Tab.set 0 (t.core c).perf 0 (Tab.get 0 (t.core c).perf 0 + 1) } := by
  unfold State.issued State.lengthen State.count
  split
  · simp [*]
  · simp

theorem State.issued_core_ne {c n d : Nat} (h : d ≠ c) : (t.issued c n).core d = t.core d := by
  unfold State.issued State.lengthen State.count
  split <;> simp [State.core_setCore_ne, h]

theorem State.issued_rest (c n : Nat) (a : Tab Core) (b : Tab Ctx) :
    { t.issued c n with ctxs := b, cores := a } = { t with ctxs := b, cores := a } := by
  unfold State.issued State.lengthen State.count; split <;> rfl

theorem State.leave_ctx_self : (t.leave i p pc).ctx p = (t.ctx p).goTo pc := by
  simp [State.leave, State.issued_ctx]

theorem State.leave_ctx_ne {q : Nat} (h : q ≠ p) : (t.leave i p pc).ctx q = t.ctx q := by
  simp [State.leave, State.issued_ctx, State.ctx_setCtx_ne, h]

theorem State.leave_core_self : (t.leave i p pc).core (p / 16) = (t.core (p / 16)).left i := by
  simp [State.leave, State.issued_core_self, Core.left]

theorem State.leave_core_ne {c : Nat} (h : c ≠ p / 16) : (t.leave i p pc).core c = t.core c := by
  simp [State.leave, State.issued_core_ne _ h]

theorem State.leave_rest (a : Tab Core) (b : Tab Ctx) :
    { t.leave i p pc with ctxs := b, cores := a } = { t with ctxs := b, cores := a } := by
  rw [State.leave, State.issued_rest]; rfl

theorem State.leave_window (q : Nat) (f : FileId) : (t.leave i p pc).window q f = t.window q f := by
  have hc : ∀ q, ((t.leave i p pc).ctx q).v = (t.ctx q).v ∧ ((t.leave i p pc).ctx q).s = (t.ctx q).s := by
    intro q
    by_cases h : q = p
    · subst h; rw [State.leave_ctx_self]; exact ⟨rfl, rfl⟩
    · rw [State.leave_ctx_ne _ _ _ _ h]; exact ⟨rfl, rfl⟩
  have hk : ∀ c, ((t.leave i p pc).core c).g = (t.core c).g ∧ ((t.leave i p pc).core c).h = (t.core c).h := by
    intro c
    by_cases h : c = p / 16
    · subst h; rw [State.leave_core_self]; exact ⟨rfl, rfl⟩
    · rw [State.leave_core_ne _ _ _ _ h]; exact ⟨rfl, rfl⟩
  cases f <;> simp [State.window, hc, hk]

end Leave

/-- What the own part of an instruction leaves, seen from before it: the shape Went asks for. -/
theorem went_leave {i : Instr} {s t : State} {pc : Word} {f : Ctx → Ctx} {g : Core → Core} {u : State}
    (hc : (t.ctx s.cur).goTo pc = f (s.pastTo i pc)) (hk : t.core (s.cur / 16) = g s.mine)
    (hx : ∀ q, q ≠ s.cur → t.ctx q = s.ctx q) (hy : ∀ c, c ≠ s.cur / 16 → t.core c = s.core c)
    (hr : { t with ctxs := s.ctxs, cores := s.cores } = u) : Went i s (t.leave i s.cur pc) (s.pastTo i pc) f g u where
  ctx := by rw [State.leave_ctx_self, hc]
  core := by rw [State.leave_core_self, hk]
  ctxs q h := by rw [State.leave_ctx_ne _ _ _ _ h, hx q h]
  cores c h := by rw [State.leave_core_ne _ _ _ _ h, hy c h]
  rest := by rw [State.leave_rest, hr]

/-- An instruction with no effect but its own going on. -/
theorem went_enter {i : Instr} {s : State} (pc : Word) : Went i s ((s.enter i).leave i s.cur pc) (s.pastTo i pc) id id s :=
  went_leave (by rw [show (s.enter i).ctx s.cur = s.entered i from s.enter_me i]; rfl) rfl
    (fun _ h => s.enter_ctx_ne i h) (fun _ _ => rfl) rfl

end Sys2Proof.Machine
end

