-- ==== Sys2Proof/Laws/Windows.lean ====
section
/-! SUPPORT. Laws of bit fields and windows: reading after writing, marks of octets, and the update of a window. -/

namespace Sys2Proof.Machine

theorem bitAt_eq_testBit (x n : Nat) : bitAt x n = x.testBit n := by
  simp [bitAt, Nat.testBit, Nat.shiftRight_eq_div_pow, Nat.one_and_eq_mod_two]
  rcases Nat.mod_two_eq_zero_or_one (x / 2 ^ n) with h | h <;> simp [h]

theorem testBit_bitsAt (x pos len n : Nat) :
    (bitsAt x pos len).testBit n = (decide (n < len) && x.testBit (pos + n)) := by
  simp [bitsAt, Nat.testBit_mod_two_pow, Nat.testBit_div_two_pow, Nat.add_comm]

/-- A bit of a value one of whose fields has been replaced. -/
theorem testBit_setBitsAt (x pos len v n : Nat) :
    (setBitsAt x pos len v).testBit n =
      if n < pos then x.testBit n else if n < pos + len then v.testBit (n - pos) else x.testBit n := by
  have h1 : x % 2 ^ pos < 2 ^ pos := Nat.mod_lt _ (Nat.two_pow_pos _)
  have h2 : v % 2 ^ len < 2 ^ len := Nat.mod_lt _ (Nat.two_pow_pos _)
  have e : setBitsAt x pos len v = 2 ^ pos * (2 ^ len * (x / 2 ^ (pos + len)) + v % 2 ^ len) + x % 2 ^ pos := by
    unfold setBitsAt; rw [Nat.pow_add]; ring
  rw [e, Nat.testBit_two_pow_mul_add _ h1]
  split
  · rename_i h; simp [Nat.testBit_mod_two_pow, h]
  · rename_i h
    rw [Nat.testBit_two_pow_mul_add _ h2]
    by_cases g : n < pos + len
    · have : n - pos < len := by omega
      simp [this, g, Nat.testBit_mod_two_pow]
    · have : ¬ n - pos < len := by omega
      simp only [this, g, if_false, Nat.testBit_div_two_pow]
      congr 1; omega

/-- A field just replaced reads as it was written. -/
theorem bitsAt_setBitsAt (x pos len v : Nat) : bitsAt (setBitsAt x pos len v) pos len = v % 2 ^ len := by
  apply Nat.eq_of_testBit_eq; intro n
  rw [testBit_bitsAt, testBit_setBitsAt, Nat.testBit_mod_two_pow]
  by_cases h : n < len
  · have h1 : ¬ pos + n < pos := by omega
    have h2 : pos + n < pos + len := by omega
    simp [h, h1]
  · simp [h]

/-- A field that does not overlap the one replaced reads as before. -/
theorem bitsAt_setBitsAt_ne (x pos len v p n : Nat) (h : p + n ≤ pos ∨ pos + len ≤ p) :
    bitsAt (setBitsAt x pos len v) p n = bitsAt x p n := by
  apply Nat.eq_of_testBit_eq; intro k
  rw [testBit_bitsAt, testBit_bitsAt, testBit_setBitsAt]
  by_cases hk : k < n
  · simp only [hk, decide_true, Bool.true_and]
    rcases h with h | h
    · simp [show p + k < pos by omega]
    · simp [show ¬ p + k < pos by omega, show ¬ p + k < pos + len by omega]
  · simp [hk]

/-! Marks. -/

@[simp] theorem Window.mark_blocks (w : Window) (o : Nat) (e : Bool) : (w.mark o e).blocks = w.blocks := rfl
@[simp] theorem Window.mark_lanes (w : Window) (o : Nat) (e : Bool) : (w.mark o e).lanes = w.lanes := rfl

/-- Marking one octet changes its own bit alone. -/
theorem Window.isEmpty_mark (w : Window) (o n : Nat) (e : Bool) (h : n < 256) :
    (w.mark o e).isEmpty n = if n = o then e else w.isEmpty n := by
  simp only [Window.isEmpty, Window.mark, bitAt_eq_testBit, BitVec.toNat_ofNat, Nat.testBit_mod_two_pow, h,
    decide_true, Bool.true_and, testBit_setBitsAt]
  by_cases g : n = o
  · subst g; cases e <;> simp
  · by_cases l : n < o
    · simp [l, g]
    · simp [l, g, show ¬ n < o + 1 by omega]

/-! Slices. -/

@[simp] theorem Window.write_blocks (w : Window) (l a n v : Nat) : (w.write l a n v).blocks = w.blocks := rfl
@[simp] theorem Window.write_empty (w : Window) (l a n v : Nat) : (w.write l a n v).empty = w.empty := rfl

/-- An operand just written in a lane reads as written, where it lies within the lane's 2048 slices. -/
theorem Window.read_write (w : Window) (l a n v : Nat) (h : a + n ≤ 2048) :
    (w.write l a n v).read l a n = v % 2 ^ (4 * n) := by
  simp only [Window.read, Window.write, Tab.get_set_self, BitVec.toNat_ofNat]
  rw [show setBitsAt (Tab.get 0 w.lanes l).toNat (4 * a) (4 * n) v % 2 ^ 8192
      = setBitsAt (Tab.get 0 w.lanes l).toNat (4 * a) (4 * n) v from ?_, bitsAt_setBitsAt]
  apply Nat.mod_eq_of_lt
  apply Nat.lt_pow_two_of_testBit
  intro k hk
  rw [testBit_setBitsAt]
  have hx : (Tab.get 0 w.lanes l).toNat.testBit k = false :=
    Nat.testBit_lt_two_pow (Nat.lt_of_lt_of_le (Tab.get 0 w.lanes l).isLt (Nat.pow_le_pow_right (by decide) hk))
  rw [if_neg (by omega), if_neg (by omega)]; exact hx

/-- A write leaves every other lane, and every operand of its own lane that it does not overlap. -/
theorem Window.read_write_lane (w : Window) {l m : Nat} (a n v b k : Nat) (h : m ≠ l) :
    (w.write l a n v).read m b k = w.read m b k := by
  simp [Window.read, Window.write, Tab.get_set_ne _ _ h]

/-! Updating a window of the state. -/

theorem State.setWindow_frame (s : State) (p : Nat) (f : FileId) (w : Window) :
    (s.setWindow p f w).ctx p = { s.ctx p with v := ((s.setWindow p f w).ctx p).v, s := ((s.setWindow p f w).ctx p).s } ∧
      (s.setWindow p f w).core (p / 16) =
        { s.core (p / 16) with
          g := ((s.setWindow p f w).core (p / 16)).g, h := ((s.setWindow p f w).core (p / 16)).h } ∧
      (∀ q, q ≠ p → (s.setWindow p f w).ctx q = s.ctx q) ∧
      (∀ c, c ≠ p / 16 → (s.setWindow p f w).core c = s.core c) ∧
      { s.setWindow p f w with ctxs := s.ctxs, cores := s.cores } = s := by
  cases f <;> simp +contextual [State.setWindow, State.ctx_setCtx_ne, State.core_setCore_ne]

theorem State.window_setWindow (s : State) (p : Nat) (f e : FileId) (w : Window) :
    (s.setWindow p f w).window p e = if e = f then w else s.window p e := by
  cases f <;> cases e <;> simp [State.setWindow, State.window]

end Sys2Proof.Machine
end

