-- ==== Sys2Proof/Laws/Produce.lean ====
section
/-! SUPPORT. Producers: what recording a writeback leaves, and how an instruction that only writes results completes. -/

namespace Sys2Proof.Machine

@[simp] theorem Ctx.windowsOf_self (x : Ctx) : x.windowsOf x = x := rfl
@[simp] theorem Core.windowsOf_self (x : Core) : x.windowsOf x = x := rfl

/-- Two states that differ in a context's windows and its core's shared ones alone. -/
structure SameButWindows (p : Nat) (s t : State) : Prop where
  ctx : t.ctx p = (s.ctx p).windowsOf (t.ctx p)
  core : t.core (p / 16) = (s.core (p / 16)).windowsOf (t.core (p / 16))
  ctxs : ∀ q, q ≠ p → t.ctx q = s.ctx q
  cores : ∀ c, c ≠ p / 16 → t.core c = s.core c
  rest : { t with ctxs := s.ctxs, cores := s.cores } = s

theorem SameButWindows.refl (p : Nat) (s : State) : SameButWindows p s s :=
  ⟨rfl, rfl, fun _ _ => rfl, fun _ _ => rfl, rfl⟩

theorem SameButWindows.trans {p : Nat} {s t u : State} (h : SameButWindows p s t) (k : SameButWindows p t u) :
    SameButWindows p s u where
  ctx := by rw [k.ctx, h.ctx]; rfl
  core := by rw [k.core, h.core]; rfl
  ctxs q n := (k.ctxs q n).trans (h.ctxs q n)
  cores c n := (k.cores c n).trans (h.cores c n)
  rest := by
    have e := congrArg (fun x : State => { x with ctxs := s.ctxs, cores := s.cores }) k.rest
    exact e.trans h.rest

theorem State.setWindow_same (s : State) (p : Nat) (f : FileId) (w : Window) : SameButWindows p s (s.setWindow p f w) :=
  let h := s.setWindow_frame p f w
  ⟨h.1, h.2.1, h.2.2.1, h.2.2.2.1, h.2.2.2.2⟩

/-- Emptying octets changes windows alone; no slice changes, and just those octets are newly empty. -/
theorem State.markOctets_spec (s : State) (p : Nat) (l : List (FileId × Nat)) :
    SameButWindows p s (s.markOctets p true l) ∧
      (∀ f, ((s.markOctets p true l).window p f).blocks = (s.window p f).blocks ∧
        ((s.markOctets p true l).window p f).lanes = (s.window p f).lanes) ∧
      ∀ f o, o < 256 → (s.markOctets p true l).octetEmpty p (f, o) = (s.octetEmpty p (f, o) || l.contains (f, o)) := by
  induction l generalizing s with
  | nil => exact ⟨.refl p s, fun _ => ⟨rfl, rfl⟩, fun f o _ => by simp [State.markOctets]⟩
  | cons x l ih =>
    obtain ⟨h1, h2, h3⟩ := ih (s.markOctet p true x)
    have e : s.markOctets p true (x :: l) = (s.markOctet p true x).markOctets p true l := rfl
    rw [e]
    refine ⟨(s.setWindow_same p x.1 _).trans h1, fun f => ?_, fun f o ho => ?_⟩
    · have g := h2 f
      rw [g.1, g.2, State.markOctet, State.window_setWindow]
      split
      · rename_i hf; subst hf; exact ⟨rfl, rfl⟩
      · exact ⟨rfl, rfl⟩
    · rw [h3 f o ho]
      have m : (s.markOctet p true x).octetEmpty p (f, o) = (s.octetEmpty p (f, o) || decide ((f, o) = x)) := by
        obtain ⟨xf, xo⟩ := x
        simp only [State.octetEmpty, State.markOctet, State.window_setWindow]
        by_cases hf : f = xf
        · subst hf
          simp only [if_true, Window.isEmpty_mark _ _ _ _ ho, Prod.mk.injEq, true_and]
          by_cases hn : o = xo <;> simp [hn]
        · simp [hf]
      rw [m, List.contains_cons]
      by_cases hx : (f, o) = x
      · simp [hx]
      · rw [beq_eq_false_iff_ne.mpr hx]; simp [hx]

/-- Recording the writeback of the current context's instruction. -/
def State.record (u s : State) (i : Instr) (missing : Bool) (sl : List SlWrite) (pr : List PrWrite) (fl : Flags) : State :=
  u.addWB s.cur i.shape.kind missing sl pr fl (octs i.shape.dsts) i.shape.pwr

theorem State.produce_eq {s u : State} (h : u.cur = s.cur) (i : Instr) (sl : List SlWrite) (pr : List PrWrite)
    (fl : Flags) : u.produce i sl pr fl = u.record s i false sl pr fl := by
  unfold State.produce State.record; rw [h]

/-- The state after a producer has recorded its writeback: its core holds it, and its octets are empty. -/
theorem State.record_spec (s u : State) (i : Instr) (missing : Bool) (sl : List SlWrite) (pr : List PrWrite) (fl : Flags)
    (hy : u.cycle = s.cycle) (hk : i.shape.kind ≠ .none) :
    ∃ v : State, SameButWindows s.cur v (u.record s i missing sl pr fl) ∧
      v = u.fresh.modCore (s.cur / 16) (fun x => { x with wbs := x.wbs ++ [s.wbOf i u.nextId missing sl pr fl] }) ∧
      (∀ f, ((u.record s i missing sl pr fl).window s.cur f).blocks = (u.window s.cur f).blocks ∧
        ((u.record s i missing sl pr fl).window s.cur f).lanes = (u.window s.cur f).lanes) ∧
      ∀ f o, o < 256 → (u.record s i missing sl pr fl).octetEmpty s.cur (f, o) =
        (u.octetEmpty s.cur (f, o) || i.shape.empties.contains (f, o)) := by
  have hw : ∀ (x : Core) f, x.g = (u.core (s.cur / 16)).g → x.h = (u.core (s.cur / 16)).h →
      (u.fresh.setCore (s.cur / 16) x).window s.cur f = u.window s.cur f := by
    intro x f hg hh
    cases f <;> simp [State.window, hg, hh]
  refine ⟨_, ?_, rfl, ?_, ?_⟩
  all_goals
    unfold State.record State.addWB
    rcases hd : i.shape.kind with _ | n | n | _
  all_goals first
    | exact absurd hd hk
    | skip
  · simp only [State.wbOf, hd, hy]; exact .refl _ _
  · simp only [State.wbOf, hd, hy, if_true]; exact (State.markOctets_spec _ _ _).1
  · simp only [State.wbOf, hd, hy, if_true]; exact (State.markOctets_spec _ _ _).1
  · intro f
    simp only [State.modCore_eq, Bool.false_eq_true, if_false, State.core_fresh]
    rw [hw]
    · exact ⟨rfl, rfl⟩
    all_goals rfl
  · intro f
    simp only [if_true]
    rw [((State.markOctets_spec _ _ _).2.1 f).1, ((State.markOctets_spec _ _ _).2.1 f).2]
    simp only [State.modCore_eq, State.core_fresh]
    rw [hw]
    · exact ⟨rfl, rfl⟩
    all_goals rfl
  · intro f
    simp only [if_true]
    rw [((State.markOctets_spec _ _ _).2.1 f).1, ((State.markOctets_spec _ _ _).2.1 f).2]
    simp only [State.modCore_eq, State.core_fresh]
    rw [hw]
    · exact ⟨rfl, rfl⟩
    all_goals rfl
  · intro f o _
    simp only [Bool.false_eq_true, if_false, State.modCore_eq, State.core_fresh, State.octetEmpty, Shape.empties, hd]
    rw [hw]
    · simp
    all_goals rfl
  · intro f o ho
    simp only [if_true]
    rw [(State.markOctets_spec _ _ _).2.2 f o ho]
    simp only [State.modCore_eq, State.core_fresh, State.octetEmpty, Shape.empties, hd]
    rw [hw] <;> rfl
  · intro f o ho
    simp only [if_true]
    rw [(State.markOctets_spec _ _ _).2.2 f o ho]
    simp only [State.modCore_eq, State.core_fresh, State.octetEmpty, Shape.empties, hd]
    rw [hw] <;> rfl

/-- Changes of a context, and of a core, that leave windows and writebacks alone. -/
structure KeepsCtx (f : Ctx → Ctx) : Prop where
  v : ∀ x, (f x).v = x.v
  s : ∀ x, (f x).s = x.s
  move : ∀ x y, f (x.windowsOf y) = (f x).windowsOf y

structure KeepsCore (f : Core → Core) : Prop where
  g : ∀ x, (f x).g = x.g
  h : ∀ x, (f x).h = x.h
  move : ∀ (x y : Core) w, f { x.windowsOf y with wbs := w } = { (f x).windowsOf y with wbs := w }

theorem KeepsCtx.id : KeepsCtx id := ⟨fun _ => rfl, fun _ => rfl, fun _ _ => rfl⟩
theorem KeepsCore.id : KeepsCore id := ⟨fun _ => rfl, fun _ => rfl, fun _ _ _ => rfl⟩

/-- t is s with the context p changed by a, its core by b, and the rest by e. -/
structure Changed (p : Nat) (s t : State) (a : Ctx → Ctx) (b : Core → Core) (e : State → State) : Prop where
  ctx : t.ctx p = a (s.ctx p)
  core : t.core (p / 16) = b (s.core (p / 16))
  ctxs : ∀ q, q ≠ p → t.ctx q = s.ctx q
  cores : ∀ c, c ≠ p / 16 → t.core c = s.core c
  rest : ∀ x y, { t with ctxs := x, cores := y } = e { s with ctxs := x, cores := y }

theorem Changed.refl (p : Nat) (s : State) : Changed p s s id id id :=
  ⟨rfl, rfl, fun _ _ => rfl, fun _ _ => rfl, fun _ _ => rfl⟩

theorem Changed.mod (p : Nat) (s : State) (a : Ctx → Ctx) (b : Core → Core) :
    Changed p s ((s.modCtx p a).modCore (p / 16) b) a b id where
  ctx := by simp
  core := by simp
  ctxs q hq := by simp [State.ctx_setCtx_ne, hq]
  cores c hc := by simp [State.core_setCore_ne, hc]
  rest _ _ := rfl

/-- A producer that records its writeback in a state v and then changes its context by a and its core by b: where v
differs from the state before it as f, g and u say, so does the state it leaves. -/
theorem produced_leave {i : Instr} {s v u t1 : State} {pc : Word} {sl : List SlWrite} {pr : List PrWrite} {fl : Flags}
    {f a : Ctx → Ctx} {g b : Core → Core} {e : State → State} {missing : Bool} (ka : KeepsCtx a) (kb : KeepsCore b)
    (hk : i.shape.kind ≠ .none) (hcy : v.cycle = s.cycle)
    (hc : (a (v.ctx s.cur)).goTo pc = f (s.pastTo i pc)) (hg : b (v.core (s.cur / 16)) = g s.mine)
    (hb : (v.core (s.cur / 16)).wbs = s.mine.wbs)
    (hx : ∀ q, q ≠ s.cur → v.ctx q = s.ctx q) (hy : ∀ c, c ≠ s.cur / 16 → v.core c = s.core c)
    (hr : e { v.fresh with ctxs := s.ctxs, cores := s.cores } = u) (hw : ∀ e, v.window s.cur e = s.window s.cur e)
    (ht : Changed s.cur (v.record s i missing sl pr fl) t1 a b e) :
    Produced i s (t1.leave i s.cur pc) (s.pastTo i pc) (s.wbOf i v.nextId missing sl pr fl) f g u := by
  obtain ⟨v1, h1, e1, h2, h3⟩ := State.record_spec s v i missing sl pr fl hcy hk
  have c1 : v1.ctx s.cur = v.ctx s.cur := by rw [e1]; rfl
  have k1 : v1.core (s.cur / 16) =
      { v.core (s.cur / 16) with wbs := s.mine.wbs ++ [s.wbOf i v.nextId missing sl pr fl] } := by
    rw [e1, State.modCore_eq, State.core_setCore_self, State.core_fresh, hb]
  generalize hp : v.record s i missing sl pr fl = t0 at h1 h2 h3 ht
  have tc := ht.ctx
  have tk := ht.core
  have tw : ∀ e, t1.window s.cur e = t0.window s.cur e := by
    intro e
    cases e
    · exact (congrArg Ctx.v tc).trans (ka.v _)
    · exact (congrArg Ctx.s tc).trans (ka.s _)
    · exact (congrArg Core.g tk).trans (kb.g _)
    · exact (congrArg Core.h tk).trans (kb.h _)
  constructor
  · apply went_leave
    · rw [tc, State.leave_ctx_self, tc, h1.ctx, c1, ka.move]
      show ((a (v.ctx s.cur)).goTo pc).windowsOf _ = _
      rw [hc]
      rfl
    · have wg : ((t1.leave i s.cur pc).core (s.cur / 16)).g
          = (t0.core (s.cur / 16)).g := by
        rw [State.leave_core_self, tk]; exact kb.g _
      have wh : ((t1.leave i s.cur pc).core (s.cur / 16)).h
          = (t0.core (s.cur / 16)).h := by
        rw [State.leave_core_self, tk]; exact kb.h _
      simp only [Core.windowsOf, wg, wh]
      rw [tk, h1.core, k1]
      show b { (v.core (s.cur / 16)).windowsOf (t0.core (s.cur / 16)) with
        wbs := s.mine.wbs ++ [s.wbOf i v.nextId missing sl pr fl] } = _
      rw [kb.move, hg]
      rfl
    · intro q hq
      rw [← hx q hq]
      rw [ht.ctxs q hq, h1.ctxs q hq, e1]; rfl
    · intro c hn
      rw [← hy c hn]
      rw [ht.cores c hn, h1.cores c hn, e1, State.modCore_eq, State.core_setCore_ne _ _ hn]; rfl
    · have r := congrArg (fun x : State => { x with ctxs := s.ctxs, cores := s.cores }) h1.rest
      rw [← hr]
      refine (ht.rest _ _).trans (congrArg e (r.trans ?_))
      rw [e1]; rfl
  · constructor
    · intro e
      rw [State.leave_window, tw, (h2 e).1, (h2 e).2, hw e]; exact ⟨rfl, rfl⟩
    · intro e o ho
      have l : (t1.leave i s.cur pc).octetEmpty s.cur (e, o) =
          t0.octetEmpty s.cur (e, o) := by
        simp only [State.octetEmpty, State.leave_window, tw]
      rw [l, h3 e o ho]
      simp only [State.octetEmpty, hw]

/-- An instruction whose own part only records a writeback completes, and changes nothing else. -/
theorem Ready.writes {i : Instr} {s : State} {sl : List SlWrite} {pr : List PrWrite} {fl : Flags} {act : State → Act}
    (h : Ready i s) (he : exec i s = .next (s.issue i act)) (hk : i.shape.kind ≠ .none)
    (ha : act (s.enter i) = .go ((s.enter i).produce i sl pr fl)) : Writes i s sl pr fl := by
  rw [State.produce_eq (s.enter_cur i)] at ha
  refine ⟨_, he.trans (congrArg _ (h.issue_go ha)), ?_⟩
  exact produced_leave (v := s.enter i) .id .id hk rfl (by rw [State.enter_ctx]; rfl) rfl rfl (fun q n => s.enter_ctx_ne i n)
    (fun _ _ => rfl) rfl (fun e => s.enter_window i _ e) (.refl _ _)

/-- What the normaliser takes of a context and counts (R32, R187). -/
theorem keepsCtx_forfeits (n : Nat) : KeepsCtx (fun x => { x with forfeits := n }) :=
  ⟨fun _ => rfl, fun _ => rfl, fun _ _ => rfl⟩

theorem keepsCore_perf (f : Tab Word → Tab Word) : KeepsCore (fun x => { x with perf := f x.perf }) :=
  ⟨fun _ => rfl, fun _ => rfl, fun _ _ _ => rfl⟩

/-- An instruction whose own part records a writeback and may need the normaliser. -/
theorem Ready.computes {i : Instr} {s : State} {sl : List SlWrite} {fl : Flags} {sub : Bool} {act : State → Act}
    (h : Ready i s) (he : exec i s = .next (s.issue i act)) (hk : i.shape.kind ≠ .none)
    (ha : act (s.enter i) = .go (((s.enter i).produce i sl [] fl).normalise sub)) : Computes i s sl fl sub := by
  have hcur : ((s.enter i).produce i sl [] fl).cur = s.cur := by
    rw [State.produce_eq (s.enter_cur i)]
    obtain ⟨v, h1, e1, -⟩ := State.record_spec s (s.enter i) i false sl [] fl rfl hk
    have := congrArg State.cur h1.rest
    refine Eq.trans (b := v.cur) this ?_
    rw [e1]; rfl
  refine ⟨_, he.trans (congrArg _ (h.issue_go ha)), ?_⟩
  cases sub
  · rw [State.normalise, if_neg (by decide), State.produce_eq (s.enter_cur i)]
    exact produced_leave (v := s.enter i) .id .id hk rfl (by rw [State.enter_ctx]; rfl) rfl rfl (fun q n => s.enter_ctx_ne i n)
      (fun _ _ => rfl) rfl (fun e => s.enter_window i _ e) (.refl _ _)
  · have c := Changed.mod s.cur ((s.enter i).produce i sl [] fl) (fun x => { x with forfeits := 3 })
      (fun x => { x with perf := Tab.set 0 x.perf 2 (Tab.get 0 x.perf 2 + 1) })
    have n : ((s.enter i).produce i sl [] fl).normalise true =
        (((s.enter i).produce i sl [] fl).modCtx s.cur (fun x => { x with forfeits := 3 })).modCore (s.cur / 16)
          (fun x => { x with perf := Tab.set 0 x.perf 2 (Tab.get 0 x.perf 2 + 1) }) := by
      rw [State.normalise, if_pos rfl, hcur]; rfl
    rw [n]
    rw [State.produce_eq (s.enter_cur i)] at c ⊢
    exact produced_leave (v := s.enter i) (f := fun x => { x with forfeits := 3 })
      (g := fun x => { x with perf := Tab.set 0 x.perf 2 (Tab.get 0 x.perf 2 + 1) }) (e := id) (keepsCtx_forfeits 3)
      (keepsCore_perf (fun t => Tab.set 0 t 2 (Tab.get 0 t 2 + 1))) hk rfl
      (by rw [State.enter_ctx]; rfl) rfl rfl (fun q n => s.enter_ctx_ne i n)
      (fun _ _ => rfl) rfl (fun e => s.enter_window i _ e) c

/-! The other answers of an own part. -/

/-- A producer that also transfers control (R168). -/
theorem Ready.calls {i : Instr} {s : State} {sl : List SlWrite} {pr : List PrWrite} {fl : Flags} {act : State → Act}
    {pc : Word} (h : Ready i s) (he : exec i s = .next (s.issue i act)) (hk : i.shape.kind ≠ .none)
    (ha : act (s.enter i) = .jump ((s.enter i).produce i sl pr fl) pc) :
    ∃ t, exec i s = .next t ∧ Produced i s t (s.pastTo i pc) (s.wbOf i s.nextId false sl pr fl) id id s.fresh := by
  rw [State.produce_eq (s.enter_cur i)] at ha
  refine ⟨_, he.trans (congrArg _ (h.issue_jump ha)), ?_⟩
  exact produced_leave (v := s.enter i) .id .id hk rfl (by rw [State.enter_ctx]; rfl) rfl rfl (fun q n => s.enter_ctx_ne i n)
    (fun _ _ => rfl) rfl (fun e => s.enter_window i _ e) (.refl _ _)

/-- An own part that does nothing. -/
theorem Ready.passes {i : Instr} {s : State} {act : State → Act} (h : Ready i s)
    (he : exec i s = .next (s.issue i act)) (ha : act (s.enter i) = .go (s.enter i)) : Passes i s :=
  ⟨_, he.trans (congrArg _ (h.issue_go ha)), went_enter _⟩

theorem Ready.goes {i : Instr} {s : State} {act : State → Act} {pc : Word} (h : Ready i s)
    (he : exec i s = .next (s.issue i act)) (ha : act (s.enter i) = .jump (s.enter i) pc) :
    ∃ t, exec i s = .next t ∧ Went i s t (s.pastTo i pc) id id s :=
  ⟨_, he.trans (congrArg _ (h.issue_jump ha)), went_enter _⟩

theorem Ready.traps {i : Instr} {s : State} {act : State → Act} {x : TrapInfo} (h : Ready i s)
    (he : exec i s = .next (s.issue i act)) (ha : act (s.enter i) = .trap x) (hm : x.isMiss = false) : TrapsAs i s x := by
  rw [TrapsAs, he, h.issue, ha]; simp only [hm, Bool.false_eq_true, if_false]

theorem Ready.forfeits {i : Instr} {s : State} {act : State → Act} (h : Ready i s)
    (he : exec i s = .next (s.issue i act)) (ha : act (s.enter i) = .stall) : Forfeits i s := by
  rw [Forfeits, he, h.issue, ha]; rfl

theorem State.rest_set (s : State) (p c : Nat) (x : Ctx) (y : Core) :
    { (s.setCtx p x).setCore c y with ctxs := s.ctxs, cores := s.cores } = s := rfl

/-- An own part that changes its context by f and its core by g alone. -/
theorem Ready.changes {i : Instr} {s : State} {act : State → Act} {f : Ctx → Ctx} {g : Core → Core} (h : Ready i s)
    (he : exec i s = .next (s.issue i act))
    (hf : (f (s.entered i)).goTo (s.pcAfter i) = f (s.past i))
    (ha : act (s.enter i) = .go (((s.enter i).modCtx s.cur f).modCore (s.cur / 16) g)) :
    ∃ t, exec i s = .next t ∧ Went i s t (s.past i) f g s := by
  refine ⟨_, he.trans (congrArg _ (h.issue_go ha)), went_leave ?_ ?_ ?_ ?_ ?_⟩
  · rw [State.modCore_eq, State.ctx_setCore, State.modCtx_eq, State.ctx_setCtx_self, State.enter_ctx]; exact hf
  · rw [State.modCore_eq, State.core_setCore_self]; rfl
  · intro q n
    rw [State.modCore_eq, State.ctx_setCore, State.modCtx_eq, State.ctx_setCtx_ne _ _ n, State.enter_ctx_ne _ _ n]
  · intro c n
    exact State.core_setCore_ne _ _ n
  · exact State.rest_set s s.cur (s.cur / 16) (f ((s.enter i).ctx s.cur)) (g (((s.enter i).modCtx s.cur f).core (s.cur / 16)))

theorem Ready.changesCtx {i : Instr} {s : State} {act : State → Act} {f : Ctx → Ctx} (h : Ready i s)
    (he : exec i s = .next (s.issue i act))
    (hf : (f (s.entered i)).goTo (s.pcAfter i) = f (s.past i))
    (ha : act (s.enter i) = .go ((s.enter i).modCtx s.cur f)) :
    ∃ t, exec i s = .next t ∧ Went i s t (s.past i) f id s := by
  refine ⟨_, he.trans (congrArg _ (h.issue_go ha)), went_leave ?_ rfl ?_ (fun _ _ => rfl) rfl⟩
  · rw [State.modCtx_eq, State.ctx_setCtx_self, State.enter_ctx]; exact hf
  · intro q n
    rw [State.modCtx_eq, State.ctx_setCtx_ne _ _ n, State.enter_ctx_ne _ _ n]

end Sys2Proof.Machine
end

