-- ==== Sys2Proof/Laws/Slices.lean ====
section
/-! SUPPORT. What a request at a slice can change (R220). -/

namespace Sys2Proof.Machine

/-- A slice that takes a request changes no other part of the state. -/
theorem State.takeEntry_eq (s : State) (k : Nat) (q : Requester) (port : Nat) :
    s.takeEntry k q port = { s with slices := (s.takeEntry k q port).slices } := by
  unfold State.takeEntry
  split <;> rfl

theorem State.takeEntries_eq (ks : List Nat) (s : State) (q : Requester) (port : Nat) :
    ks.foldl (fun t k => t.takeEntry k q port) s =
      { s with slices := (ks.foldl (fun t k => t.takeEntry k q port) s).slices } := by
  induction ks generalizing s with
  | nil => rfl
  | cons k l ih =>
    rw [List.foldl_cons, ih (s.takeEntry k q port)]
    rw [State.takeEntry_eq s k q port]

/-- A context's request changes the slices and what holds the context's requests back, and nothing else. -/
theorem State.askSlices_eq (s : State) (p asid : Nat) (l : List Piece) :
    (s.askSlices p asid l).2 = s ∨ ∃ (h : Hold) (x : Tab Slice),
      (s.askSlices p asid l).2 = { s.modCtx p (fun c => { c with hold := h }) with slices := x } := by
  unfold State.askSlices
  simp only []
  split
  · exact .inl rfl
  · right
    unfold State.enterSlices
    split
    · rw [State.takeEntries_eq]
      exact ⟨_, _, rfl⟩
    · simp only [State.refuseAt]
      split <;> exact ⟨_, _, rfl⟩

end Sys2Proof.Machine
end

