-- ==== Sys2Proof/Tests/Slice0.lean ====
section
/-! SUPPORT. Tests: words of the spec's encodings, ill-formed terms, one step on small states with results from the spec's
rules and examples, and a witness for the hypotheses of each statement. -/

namespace Sys2Proof.Tests

open Machine

-- One theorem after another: together they would need more memory.
set_option Elab.async false

/-! Headers and operands. -/

def h8 : Hdr := ⟨.b8, none, false, false, false⟩
def h12 : Hdr := ⟨.b12, none, false, false, false⟩
def h16 : Hdr := ⟨.b16, none, false, false, false⟩

/-- Guarded by a predicate. -/
def gh (h : Hdr) (p : Fin 15) : Hdr := { h with guard := some ⟨p, false⟩ }

def opv (w : WCode) (n : Nat) : Opnd := ⟨.v, w, BitVec.ofNat 11 n⟩
def v (n : Nat) : Opnd := opv .w8 n
def vw (n : Nat) : Opnd := opv .w16 n
def ops (w : WCode) (n : Nat) : Opnd := ⟨.s, w, BitVec.ofNat 11 n⟩
def s (n : Nat) : Opnd := ops .w8 n
def w (n : Nat) : Opnd := ops .w16 n
def q0 : Qual := ⟨.core, .plain, 0, false, .normal⟩

/-! Words of the spec's own encodings (02, 04, 05, 06, and the examples of each section), bit by bit. -/

def reads (n x : Nat) (i : Instr) : Bool := decide (decode (leBytes n x) = .ok (i, []))

theorem test_decode_class0 :
    reads 8 0x000FFFFFFFF0FC24 (.nop64 ⟨h8⟩) ∧
    reads 12 0x00001022014080A18000F001 (.add ⟨h12, .i8, true, false, opv .w4 0, opv .w2 10, opv .w6 20⟩) ∧
    reads 12 0x000BC06FFFF280828000F04D (.cmp ⟨h12, .i32, .lt, 15, v 0, v 8⟩) ∧
    reads 16 0x3F80000000EFFFFFFFFFFFF68000F046 (.movi ⟨h16, .n32, false, s 0, 0x3F800000⟩) := by decide +kernel

theorem test_decode_class1 :
    reads 8 0x20C5808D8002F234 (.mov ⟨⟨.b8, none, true, false, false⟩, .n16, false, true, ⟨.h, .w4, 0⟩, ops .w4 8⟩) ∧
    reads 12 0x03FF800FFFFFFFFFFFF0F251 (.pand ⟨h12, 14, 15, 15⟩) ∧
    reads 12 0x000140EFFFF280028000F215 (.shl ⟨h12, .n32, false, v 0, v 0, .imm 5⟩) ∧
    reads 12 0x00C1006FFFF280828000F225 (.bfx ⟨h12, .i32, false, v 0, v 8, 4, 12⟩) ∧
    reads 12 0x000140E2810280828000F239 (.sel ⟨h12, .n32, false, v 0, v 8, v 16, 5⟩) := by decide +kernel

theorem test_decode_class2_and_3 :
    reads 16 0x0000000001128582850284828404340E (.fma ⟨⟨.b16, some ⟨3, false⟩, false, true, false⟩, .f32, .rne, false,
      v 64, v 72, v 80, v 88⟩) ∧
    reads 12 0x0001411FFFF2800281002459 (.fcmp ⟨gh h12 2, .f32, .eq, 5, v 16, v 0⟩) ∧
    reads 8 0x011281068000F45C (.fred ⟨h8, .f32, .rne, false, s 0, v 16⟩) ∧
    reads 12 0x0004432FFFF280818000F601 (.cvt ⟨h12, .f16, .f32, .rtz, false, false, opv .w4 0, v 8⟩) := by decide +kernel

theorem test_decode_class4 :
    reads 12 0x50500202814700028080F801 (.ld ⟨h12, v 8, w 0, some (v 20), 32, ⟨.die, .sync, 0, true, .evictFirst⟩⟩) ∧
    reads 12 0x9100008FFFF700070100F805 (.st ⟨h12, w 16, w 0, none, 8, ⟨.pkg, .sync, 2, false, .normal⟩⟩) ∧
    reads 16 0x0040000242FFFFF7000582828000F812 (.agldTry ⟨h16, false, v 0, ops .w4 40, w 0, 64, 2, 1, 15⟩) ∧
    reads 12 0x0000000FFFF700028100F815 (.agst ⟨h12, v 16, w 0, none, 0, q0⟩) ∧
    reads 12 0x0800000FFFF70A0586401819 (.ldfWfc ⟨gh h12 1, ops .w4 100, w 160, none, 0, q0⟩) ∧
    reads 12 0x0C00000FFFF70B0586C0281D (.stf ⟨gh h12 2, ops .w4 108, w 176, none, 0, q0⟩) ∧
    reads 16 0x00000007000FFFFFFFFFFFF700001822 (.femarkEmpty ⟨gh h16 1, w 0, .imm 7⟩) ∧
    reads 8 0x0CAFFFFFFFF0F830 (.fenceSS ⟨h8, 0x0C, .pkg⟩) := by decide +kernel

theorem test_decode_class5 :
    reads 16 0x0000000000EFFFF6808701068000FA02 (.atadd ⟨h16, .n32, false, some (s 0), w 16, s 8, .relaxed, .core, 0⟩) ∧
    reads 16 0x00000EFF00F70307020701070000FA1E
      (.atcas ⟨h16, .n64, false, some (w 0), w 16, w 32, w 48, .acqRel, .pkg, 0xFF⟩) ∧
    reads 16 0x00000100000FFFFFFFF684070100FA2E (.waitc ⟨h16, w 16, s 64, .die⟩) ∧
    reads 16 0x000001FF000FFFFFFFF684070100FA32 (.cntadd ⟨h16, w 16, s 64, .die, 0xFF⟩) ∧
    reads 12 0x0000000FFFF702070500FA35 (.cntrd ⟨h12, w 80, w 32, none, 0, q0⟩) ∧
    reads 8 0x000FFFFFFFF0FA3C (.iflush ⟨h8⟩) := by decide +kernel

theorem test_decode_class6 :
    reads 8 0xFFFFFFCFFFF0FC00 (.br ⟨h8, BitVec.ofInt 28 (-4)⟩) ∧
    reads 8 0x00001F070000FC0C (.call ⟨h8, w 0, 0x1F0⟩) ∧
    reads 8 0xFFFFFF868080FC18 (.loop ⟨h8, s 8, BitVec.ofInt 28 (-8)⟩) ∧
    reads 8 0x0000040FFFF0FC1C (.safe ⟨h8, 0x40⟩) ∧
    reads 16 0x010407FE000FFFF7000FFFF58080FC32 (.hstart ⟨h16, false, ops .w4 8, .imm 0x3FF, w 0, 4, 1⟩) ∧
    reads 8 0x001FFFFFFFF0FC40 (.itset ⟨h8, .imm 1⟩) ∧
    reads 8 0x000FFFF68680FC44 (.itinc ⟨h8, .reg (s 104)⟩) ∧
    reads 8 0x400FFFFFFFF0FC50 (.tretNext ⟨h8⟩) ∧
    reads 16 0x00000002400FFFFFFFFFFFF70000FC56 (.sysrdClr ⟨h16, false, w 0⟩) ∧
    reads 16 0x00000040000FFFFFFFFFFFF70600FC5A (.syswrRtn ⟨h16, 0, w 96⟩) ∧
    reads 16 0x00000005400FFFFFFFFFFFF70800FC6E (.perfClr ⟨h16, false, w 128, 5⟩) ∧
    reads 8 0x000FFFFFFFF0FC70 (.unpin ⟨h8, .imm 0⟩) := by decide +kernel

theorem test_decode_class7 :
    reads 16 0x00000000001FFFFFFFFFFFF70100FE02 (.cpset ⟨h16, 1, .reg (w 16)⟩) ∧
    reads 8 0x000580870000FE0C (.cpq ⟨h8, false, w 0, ops .w4 8⟩) ∧
    reads 16 0x00459BFF000FFFF6858788068780FE12
      (.mmcfg ⟨h16, s 120, ops .w32 128, some (s 88), 0, 31, 31, .e2m1, .e2m1, some .fp32, .fp32⟩) ∧
    reads 16 0x0000000040070307020701070000FE16 (.mmaRp ⟨h16, w 0, w 16, some (w 32), w 48⟩) ∧
    reads 8 0x000FFFF68700FE1C (.mmrp ⟨h8, false, s 112⟩) ∧
    reads 16 0x00000000063FFFFFFFF6848708002E22 (.prentOnce ⟨gh h16 2, false, w 128, 3, .reg (s 72), 3⟩) ∧
    reads 16 0x000000005E3FFFFFFFF681070000FE22 (.prentHold ⟨h16, false, w 0, 3, .reg (s 16), 15⟩) := by decide +kernel

/-- Words that R50 makes undefined: length code 3, an unassigned opcode, an inverted unguarded header, appended bits of a
long form that are not 0, too few bytes. -/
theorem test_decode_refuses :
    decode (leBytes 8 0x000FFFFFFFF0FC27) = .error .reservedLength ∧
    decode (leBytes 16 0x000FFFFFFFF0FFFC) = .error .unassignedOpcode ∧
    decode (leBytes 8 0x000FFFFFFFF1FC24) = .error .guardSense ∧
    decode (leBytes 12 0x00000001000FFFFFFFF0FC25) = .error .appendedBits ∧
    decode (leBytes 4 0xFFF0FC24) = .error .crossesBlock ∧
    decode [] = .error .noBytes := by decide +kernel

theorem test_decode_long_form : reads 12 0x00000000000FFFFFFFF0FC25 (.nop64 ⟨h12⟩) := by decide +kernel

/-! Ill-formed terms, one for each check. -/

theorem test_wellformed :
    encErr (.nop64 ⟨h8⟩) = none ∧
    encErr (.add ⟨h8, .i8, false, false, v 0, v 8, v 16⟩) = some .shortForm ∧
    encErr (.nop64 ⟨⟨.b8, none, true, false, false⟩⟩) = some .emptyAction ∧
    encErr (.add ⟨h12, .f32, false, false, v 0, v 8, v 16⟩) = some .badType ∧
    encErr (.mulh ⟨h12, .i8, true, false, v 0, v 8, v 16⟩) = some .badSat ∧
    encErr (.fadd ⟨h12, .f32, .rs, false, v 0, v 8, v 16⟩) = some .badRound ∧
    encErr (.bfx ⟨h12, .i32, false, v 0, v 8, 24, 12⟩) = some .badField ∧
    encErr (.itset ⟨h8, .reg Opnd.null⟩) = some .unusedOperand ∧
    encErr (.cpgo ⟨h16, true, none⟩) = some .markedNull ∧
    encErr (.ld ⟨h12, v 0, w 0, none, 0, ⟨.die, .plain, 0, false, .normal⟩⟩) = some .badQualifier ∧
    encErr (.syswr ⟨h16, .cycle, w 0⟩) = some .badRegister ∧
    encErr (.copyPacketIssue 0) = some .notAnInstruction := by decide +kernel

/-! A sample of every instruction, ready to act in one small state: the hypotheses of the statements about results. -/

def readyB (i : Instr) (s : State) : Bool :=
  decide (s.curCtx < 16) && decide (s.staticTrap s.cur i = none) && !s.busy s.cur i.hdr i.shape &&
    decide (s.lateTrap s.cur i = none) && decide (s.sleepOctets s.cur i.hdr i.shape = []) && !s.badReg s.cur i.shape

theorem ready_iff (i : Instr) (s : State) : readyB i s = true ↔ Ready i s := by
  simp only [readyB, Bool.and_eq_true, decide_eq_true_eq, Bool.not_eq_true']
  exact ⟨fun h => ⟨h.1.1.1.1.1, h.1.1.1.1.2, h.1.1.1.2, h.1.1.2, h.1.2, h.2⟩,
    fun h => ⟨⟨⟨⟨⟨h.turn, h.static⟩, h.idle⟩, h.late⟩, h.full⟩, h.sound⟩⟩

def isOk {ε α : Type} : Except ε α → Bool
  | .ok _ => true
  | .error _ => false

theorem ok_iff {ε α : Type} (x : Except ε α) : isOk x = true ↔ ∃ a, x = .ok a := by
  cases x <;> simp [isOk]

/-- A machine that runs an instruction in context 0 of core 0 (log 19). -/
def s0 : State := State.reset.loaded (leBytes 8 0x000FFFFFFFF0FC24)

def samples0 : List Instr := [
  .add ⟨h12, .i32, false, false, (v 0), (v 8), (v 16)⟩, .sub ⟨h12, .i32, false, false, (v 0), (v 8), (v 16)⟩,
  .addi ⟨h16, .i32, false, false, (v 0), (v 8), 5⟩, .mul ⟨h12, .i32, false, false, (v 0), (v 8), (v 16)⟩,
  .mulh ⟨h12, .i32, false, false, (v 0), (v 8), (v 16)⟩, .mad ⟨h16, .i32, false, false, (v 0), (v 8), (v 16), (v 24)⟩,
  .div ⟨h12, .i32, false, false, (v 0), (v 8), (v 16)⟩, .rem ⟨h12, .i32, false, false, (v 0), (v 8), (v 16)⟩,
  .min ⟨h12, .i32, false, false, (v 0), (v 8), (v 16)⟩, .max ⟨h12, .i32, false, false, (v 0), (v 8), (v 16)⟩,
  .abs ⟨h8, .i32, false, false, (v 0), (v 8)⟩, .neg ⟨h8, .i32, false, false, (v 0), (v 8)⟩,
  .clz ⟨h8, .i32, false, false, (v 0), (v 8)⟩, .popc ⟨h8, .i32, false, false, (v 0), (v 8)⟩,
  .sad ⟨h16, .i32, false, false, (v 0), (v 8), (v 16), (v 24)⟩, .lea ⟨h16, .i64, false, (w 32), (w 0), none, 0, 8⟩,
  .aidx ⟨h12, .n32, false, (v 0), (v 8), (v 16), .e4m3⟩, .movi ⟨h16, .i32, false, (s 32), 7⟩,
  .movhi ⟨h16, .i64, false, (w 32), 7⟩, .cmp ⟨h12, .i32, .lt, 5, (v 0), (v 8)⟩,
  .and ⟨h12, .i32, false, false, (v 0), (v 8), (v 16)⟩, .or ⟨h12, .i32, false, false, (v 0), (v 8), (v 16)⟩,
  .xor ⟨h12, .i32, false, false, (v 0), (v 8), (v 16)⟩, .andn ⟨h12, .i32, false, false, (v 0), (v 8), (v 16)⟩,
  .not ⟨h8, .i32, false, false, (v 0), (v 8)⟩, .shl ⟨h12, .n32, false, (v 0), (v 8), .imm 5⟩,
  .shr ⟨h12, .n32, false, (v 0), (v 8), .imm 5⟩, .sar ⟨h12, .n32, false, (v 0), (v 8), .imm 5⟩,
  .rot ⟨h12, .n32, false, (v 0), (v 8), .imm 5⟩, .bfx ⟨h12, .i32, false, (v 0), (v 8), 4, 12⟩]

def samples1 : List Instr := [
  .bfi ⟨h12, .n32, false, (v 0), (v 8), (v 16), 4, 12⟩, .sext ⟨h8, .i32, false, false, (v 0), (v 8)⟩,
  .zext ⟨h8, .i32, false, false, (v 0), (v 8)⟩, .mov ⟨h8, .i32, false, false, (v 0), (v 8)⟩,
  .sel ⟨h12, .n32, false, (v 0), (v 8), (v 16), 5⟩, .pack ⟨h12, false, (vw 0), (v 16), (v 24)⟩,
  .unpk ⟨h12, false, (v 0), (v 8), (vw 16)⟩, .swz ⟨h16, .n32, false, (v 0), (v 8), (v 16)⟩,
  .swzMask ⟨h16, .n32, false, (v 0), (v 8), 63, 1⟩, .bcast ⟨h12, .n32, false, (v 0), (v 8), .imm 3⟩,
  .lrot ⟨h12, .n32, false, (v 0), (v 8), .imm 3⟩, .pand ⟨h12, 1, 2, 3⟩, .por ⟨h12, 1, 2, 3⟩, .pxor ⟨h12, 1, 2, 3⟩,
  .pnot ⟨h12, 1, 2⟩, .pany ⟨h12, .n32, false, (s 32), none, 2⟩, .pall ⟨h12, .n32, false, (s 32), none, 2⟩,
  .pcnt ⟨h12, .n32, false, (s 32), none, 2⟩, .fadd ⟨h12, .f32, .rne, false, (v 0), (v 8), (v 16)⟩,
  .fsub ⟨h12, .f32, .rne, false, (v 0), (v 8), (v 16)⟩, .fmul ⟨h12, .f32, .rne, false, (v 0), (v 8), (v 16)⟩,
  .fdiv ⟨h12, .f32, .rne, false, (v 0), (v 8), (v 16)⟩, .fma ⟨h16, .f32, .rne, false, (v 0), (v 8), (v 16), (v 24)⟩,
  .fms ⟨h16, .f32, .rne, false, (v 0), (v 8), (v 16), (v 24)⟩,
  .fnma ⟨h16, .f32, .rne, false, (v 0), (v 8), (v 16), (v 24)⟩, .fmin ⟨h12, .f32, .rne, false, (v 0), (v 8), (v 16)⟩,
  .fmax ⟨h12, .f32, .rne, false, (v 0), (v 8), (v 16)⟩, .fabs ⟨h8, .f32, .rne, false, (v 0), (v 8)⟩,
  .fneg ⟨h8, .f32, .rne, false, (v 0), (v 8)⟩, .fsqrt ⟨h8, .f32, .rne, false, (v 0), (v 8)⟩]

def samples2 : List Instr := [
  .frcp ⟨h8, .f32, .rne, false, (v 0), (v 8)⟩, .frsq ⟨h8, .f32, .rne, false, (v 0), (v 8)⟩,
  .fexp2 ⟨h8, .f32, .rne, false, (v 0), (v 8)⟩, .flog2 ⟨h8, .f32, .rne, false, (v 0), (v 8)⟩,
  .fsin ⟨h8, .f32, .rne, false, (v 0), (v 8)⟩, .fcos ⟨h8, .f32, .rne, false, (v 0), (v 8)⟩,
  .ftanh ⟨h8, .f32, .rne, false, (v 0), (v 8)⟩, .fclass ⟨h8, .f32, .rne, false, (v 0), (v 8)⟩,
  .fscale ⟨h12, .f32, .rne, false, (v 0), (v 8), (v 16)⟩, .frnd ⟨h8, .f32, .rne, false, (v 0), (v 8)⟩,
  .fcmp ⟨h12, .f32, .lt, 5, (v 0), (v 8)⟩, .fred ⟨h8, .f32, .rne, false, (s 32), (v 8)⟩,
  .cvt ⟨h12, .f16, .f32, .rne, false, false, ⟨.v, .w4, 0⟩, (v 8)⟩,
  .cvts ⟨h12, .f16, .f32, .rs, false, false, ⟨.v, .w4, 0⟩, (v 8)⟩,
  .qblk ⟨h16, .f32, .rne, false, (v 0), (v 64), .fp32, none, none⟩, .dqblk ⟨h16, .f32, .rne, false, (v 0), (v 8)⟩,
  .bhdr ⟨h12, false, (v 0), (v 8), (v 16), .e2m1⟩, .bset ⟨h12, false, (v 0), (v 8), (v 16)⟩, .bchk ⟨h12, 1, 2, (v 0)⟩,
  .idot4 ⟨h16, .i8, false, false, (v 0), (v 8), (v 16), (v 24)⟩, .ld ⟨h12, (s 64), (w 0), none, 0, q0⟩,
  .st ⟨h12, (s 64), (w 0), none, 0, q0⟩, .gath ⟨h12, (s 64), (w 16), some (s 40), .f32, .rne, q0⟩,
  .scat ⟨h12, (s 64), (w 16), some (s 40), .f32, .rne, q0⟩, .pref ⟨h12, (w 0), none, 0, false, .normal⟩,
  .agldWait ⟨h16, false, (v 64), ⟨.s, .w4, 80⟩, (w 0), 0, 1, 1, 2⟩,
  .agldTry ⟨h16, false, (v 64), ⟨.s, .w4, 80⟩, (w 0), 0, 1, 1, 2⟩, .agst ⟨h12, (v 64), (w 0), none, 0, q0⟩,
  .ldfWf ⟨h12, ⟨.s, .w8, 64⟩, (w 0), none, 0, q0⟩, .ldfWfc ⟨h12, ⟨.s, .w8, 64⟩, (w 0), none, 0, q0⟩]

def samples3 : List Instr := [
  .stf ⟨h12, ⟨.s, .w8, 64⟩, (w 0), none, 0, q0⟩, .femarkFull ⟨h16, (w 0), .imm 4⟩, .femarkEmpty ⟨h16, (w 0), .imm 4⟩,
  .spill ⟨h16, (w 0), .v, 2, 2, 0⟩, .fill ⟨h16, (w 0), .v, 2, 2, 0⟩, .fenceLL ⟨h8, 0, .core⟩, .fenceSL ⟨h8, 0, .core⟩,
  .fenceSS ⟨h8, 0, .core⟩, .fenceFull ⟨h8, 0, .core⟩,
  .atadd ⟨h16, .i32, false, some (s 64), (w 0), (s 72), .relaxed, .core, 0⟩,
  .atmin ⟨h16, .i32, false, some (s 64), (w 0), (s 72), .relaxed, .core, 0⟩,
  .atmax ⟨h16, .i32, false, some (s 64), (w 0), (s 72), .relaxed, .core, 0⟩,
  .atand ⟨h16, .i32, false, some (s 64), (w 0), (s 72), .relaxed, .core, 0⟩,
  .ator ⟨h16, .i32, false, some (s 64), (w 0), (s 72), .relaxed, .core, 0⟩,
  .atxor ⟨h16, .i32, false, some (s 64), (w 0), (s 72), .relaxed, .core, 0⟩,
  .atxch ⟨h16, .i32, false, some (s 64), (w 0), (s 72), .relaxed, .core, 0⟩,
  .atcas ⟨h16, .i32, false, some (s 64), (w 0), (s 72), (s 80), .relaxed, .core, 0⟩,
  .atfadd ⟨h16, .f32, false, some (s 64), (w 0), (s 72), .relaxed, .core, 0⟩,
  .atinc ⟨h16, .n32, false, some (s 64), (w 0), (s 72), .relaxed, .core, 0⟩,
  .atdec ⟨h16, .n32, false, some (s 64), (w 0), (s 72), .relaxed, .core, 0⟩, .waitc ⟨h16, (w 0), (w 64), .core⟩,
  .waitcNt ⟨h16, (w 0), (w 64), .core, 3⟩, .cntadd ⟨h16, (w 0), (w 64), .core, 0⟩,
  .cntaddErr ⟨h16, (w 0), (w 64), .core, 0⟩, .cntrd ⟨h12, (w 64), (w 0), none, 0, q0⟩,
  .waitf ⟨h16, .i32, .eq, (w 0), (s 64), none, .core⟩, .iflush ⟨h8⟩, .br ⟨h8, 2⟩, .brc ⟨h8, (s 64), 2⟩, .jmp ⟨h8, (w 0)⟩]

def samples4 : List Instr := [
  .call ⟨h8, (w 64), 2⟩, .calli ⟨h8, (w 64), (w 0)⟩, .ret ⟨h8, (w 0)⟩, .loop ⟨h8, (s 64), 2⟩, .safe ⟨h8, 2⟩, .rbdone ⟨h8⟩,
  .nop64 ⟨h8⟩, .yield ⟨h8, .imm 1⟩, .done ⟨h8⟩, .hstart ⟨h16, false, (s 64), .imm 2, (w 0), 1, 1⟩, .hjoin ⟨h8, .imm 1⟩,
  .spawn ⟨h16, false, some (s 64), (w 0)⟩, .idrd ⟨h8, false, (w 64), 1⟩, .itset ⟨h8, .imm 1⟩, .itinc ⟨h8, .imm 1⟩,
  .itrd ⟨h8, false, (w 64)⟩, .seed ⟨h8, .imm 1⟩, .trap ⟨h8, 3⟩, .tret ⟨h8⟩, .tretNext ⟨h8⟩,
  .sysrd ⟨h16, false, (w 64), .cycle⟩, .sysrdClr ⟨h16, false, (w 64)⟩, .syswr ⟨h16, .xpc, (w 64)⟩,
  .syswrRtn ⟨h16, 1, (w 64)⟩, .syswrHcfg ⟨h16, (w 64)⟩, .syswrShst ⟨h16, (w 64)⟩, .syswrKreq ⟨h16, (w 64)⟩,
  .tlbiAll ⟨h16, .pkg⟩, .tlbiAsid ⟨h16, .pkg, (s 64)⟩, .tlbiVa ⟨h16, .pkg, (s 64), (w 0)⟩]

def samples5 : List Instr := [
  .objdef ⟨h16, (s 64), (w 0)⟩, .objdefClr ⟨h16, (w 64)⟩, .genb ⟨h8⟩, .perf ⟨h16, false, (w 64), 1⟩,
  .perfClr ⟨h16, false, (w 64), 1⟩, .unpin ⟨h8, .imm 1⟩, .cpset ⟨h16, 1, .imm 64⟩, .cpgo ⟨h16, false, some (s 64)⟩,
  .cpred ⟨h16, .f32, false, some (s 64)⟩, .cpredRanked ⟨h16, .f32, false, some (s 64), 1, 3⟩,
  .cpq ⟨h8, false, (s 64), (s 72)⟩, .cpqCount ⟨h8, false, (w 64)⟩,
  .mmcfg ⟨h16, (s 64), ⟨.s, .w32, 96⟩, none, 0, 0, 0, .fp16, .fp16, none, .fp32⟩, .mma ⟨h16, (w 0), (w 0), none, (w 0), 0⟩,
  .mmaRp ⟨h16, (w 0), (w 0), none, (w 0)⟩, .mmw ⟨h16, (w 0), (w 0), none, (w 0), 0⟩,
  .mmwRp ⟨h16, (w 0), (w 0), none, (w 0)⟩, .mmrp ⟨h8, false, (w 64)⟩, .prentOnce ⟨h16, false, (w 64), 3, .imm 9, 15⟩,
  .prentHold ⟨h16, false, (w 64), 3, .imm 9, 15⟩, .prres ⟨h8, false, (w 64), 3⟩, .prrel ⟨h8, 3⟩, .leave ⟨h8, .imm 1⟩]


theorem ready_all {l : List Instr} {s : State} (h : l.all (fun i => readyB i s) = true) : ∀ i ∈ l, Ready i s :=
  fun i hi => (ready_iff i s).1 (List.all_eq_true.1 h i hi)

theorem test_ready0 : ∀ i ∈ samples0, Ready i s0 := ready_all (by decide +kernel)
theorem test_ready1 : ∀ i ∈ samples1, Ready i s0 := ready_all (by decide +kernel)
theorem test_ready2 : ∀ i ∈ samples2, Ready i s0 := ready_all (by decide +kernel)
theorem test_ready3 : ∀ i ∈ samples3, Ready i s0 := ready_all (by decide +kernel)
theorem test_ready4 : ∀ i ∈ samples4, Ready i s0 := ready_all (by decide +kernel)
theorem test_ready5 : ∀ i ∈ samples5, Ready i s0 := ready_all (by decide +kernel)

/-! Witnesses of the memory statements. -/

theorem good_of {s : State} (h : s.checkDiff = [] ∧ s.stale = [] ∧ s.ueSectors = []) (k : Nat) : s.badSector k = none := by
  simp [State.badSector, staleNow, h.1, h.2.1, h.2.2]

def obj (base : Word) (described : Option Nat) (mirrorable aged : Bool) : Obj :=
  ⟨base, 65536, described, mirrorable, aged, true, 0, 0, 0, 9⟩

def page (va pa : Nat) : TlbEntry := ⟨0, BitVec.ofNat 64 va, 65536, pa, true, true, true⟩

/-- Addresses at s0, s16, s32, s48, s240, s224 and s208: the scratchpad, plain memory, an aged object, an FP32 object whose
first block is laid out, the host, a page still to be walked for, a hole. -/
def sM : State :=
  let win := fun (x : Window) => [(0, localBase), (16, 0x10000), (32, 0x20000), (48, 0x30000), (240, 0x40000), (224, 0x50000), (208, peerBase + 150 * 2 ^ 21)].foldl
    (fun y e => y.write 0 e.1 16 e.2) x
  let t := (s0.modCtx 0 (fun x => { x with s := win x.s })).setBytes (keyed (2 ^ 44 + 0x30000) [1])
  { t.modCore 0 (fun k => { k with tlb := [page 0x10000 (2 ^ 44 + 0x10000), page 0x20000 (2 ^ 44 + 0x20000),
      page 0x30000 (2 ^ 44 + 0x30000), page 0x40000 (2 ^ 47)] }) with
    objs := [(1, some (obj 0x20000 none false true)), (2, some (obj 0x30000 (some 1) false false))]
    aged := [⟨1, 2 ^ 44 + 0x20000, 65536⟩] }

/-- Its store queue is full, and each store covers the laid out block. -/
def sQ : State :=
  let g : Flight := { sM.flightOf (.nop64 ⟨h8⟩) .store [Part.of (2 ^ 44 + 0x30000) 64 0x30000 0] with isStore := true }
  { sM with flights := (List.range 16).map (fun k => { g with id := k }), nextId := 16 }

def sQ1 : State := { sQ with flights := sQ.flights.take 1 }

theorem test_witness_store_queue : sQ.queueFull sQ.cur = true ∧ sQ1.queueFull sQ1.cur = false ∧
    (∀ i ∈ [Instr.st ⟨h12, s 64, w 0, none, 0, q0⟩, .stf ⟨h12, s 64, w 0, none, 12, q0⟩, .agst ⟨h12, v 64, w 32, none, 64, q0⟩,
      .scat ⟨h12, s 64, w 48, none, .f32, .rne, q0⟩, .femarkFull ⟨h16, w 0, .imm 4⟩, .cntadd ⟨h16, w 16, s 64, .core, 0⟩,
      .atadd ⟨h16, .n32, false, none, w 16, s 72, .relaxed, .core, 0⟩], Ready i sQ) ∧
    sQ.memEas ⟨h12, s 64, w 0, none, 12, q0⟩ ≠ [] ∧ sQ.lanes h12 false ≠ [] ∧ sQ.me.active h12 0 = true ∧
    sQ.me.guardAt h16 0 = true ∧ Ready (.gath ⟨h12, s 64, w 48, none, .f32, .rne, q0⟩) sQ1 ∧
    Ready (.scat ⟨h12, s 64, w 48, none, .f32, .rne, q0⟩) sQ1 ∧
    ∀ a ∈ [Acc.gath, .scat], (sQ1.elemAccs ⟨h12, s 64, w 48, none, .f32, .rne, q0⟩ a).toOption.map sQ1.ownBlock = some true := by
  simp only [← ready_iff]
  decide +kernel

/-- No slice of die 0 has an entry left. -/
def crowded (y : State) : State :=
  { y with slices := (List.range 512).map (fun k => (k, { Slice.empty with tracker := List.replicate 64 ⟨.outside, 0⟩ })) }

def isNone {α : Type} : Option α → Bool
  | none => true
  | some _ => false

theorem isNone_iff {α : Type} (x : Option α) : isNone x = true ↔ x = none := by cases x <;> simp [isNone]

/-- What an access meets instead of its places: whether it is a translation still to be walked for. -/
def errOf {ε : Type} : Except TrapInfo ε → Option Bool
  | .ok _ => none
  | .error t => some t.isMiss

/-- A misaligned lane; a hole; a page still to be walked for; a block that is no object's. -/
theorem test_witness_failing_accesses :
    let f := fun (o : Opnd) (d : BitVec 16) => (⟨h12, s 64, o, none, d, q0⟩ : MemF)
    let g := fun (o : Opnd) => (⟨h12, s 64, o, none, .f32, .rne, q0⟩ : ElemF)
    (∀ o ∈ [w 0, w 208, w 224], Ready (.ld (f o 0)) sM ∧ Ready (.st (f o 0)) sM) ∧
    Ready (.ld (f (w 0) 2)) sM ∧ Ready (.st (f (w 0) 2)) sM ∧
    (∀ o ∈ [w 16, w 224], Ready (.gath (g o)) sM ∧ Ready (.scat (g o)) sM) ∧
    (sM.memEas (f (w 0) 2)).map (fun e => e.2.toNat % 4) = [2] ∧
    (∀ a ∈ [Acc.ld, .st], errOf (sM.placeLanes a 4 (sM.memEas (f (w 208) 0))) = some false ∧
      errOf (sM.placeLanes a 4 (sM.memEas (f (w 224) 0))) = some true) ∧
    ∀ a ∈ [Acc.gath, .scat], errOf (sM.elemAccs (g (w 16)) a) = some false ∧
      errOf (sM.elemAccs (g (w 224)) a) = some true := by
  simp only [← ready_iff]
  decide +kernel

def ldw (i : MemF → Instr) (a : Acc) (n : Nat) (f g : MemF) : Prop :=
  Ready (i f) sM ∧ sM.memEas f = [] ∧ Ready (i g) sM ∧ sM.memEas g ≠ [] ∧ (∀ e ∈ sM.memEas g, e.2.toNat % n = 0) ∧
    (∀ e ∈ sM.memEas g, e.2.toNat % 16 + memSize g ≤ 16) ∧ (∃ r, sM.placeLanes a (memSize g) (sM.memEas g) = .ok r) ∧
    sM.pendingFor sM.cur = false ∧ sM.queueFull sM.cur = false

theorem test_witness_loads :
    ldw .ld .ld 4 ⟨gh h12 0, s 64, w 0, none, 0, q0⟩ ⟨h12, s 64, w 0, none, 0, q0⟩ ∧
    ldw .cntrd .counter 8 ⟨gh h12 0, w 64, w 16, none, 0, q0⟩ ⟨h12, w 64, w 16, none, 0, q0⟩ ∧
    ldw .ldfWf .granuleRd 1 ⟨gh h12 0, s 64, w 0, none, 0, q0⟩ ⟨h12, s 64, w 0, none, 12, q0⟩ ∧
    ldw .ldfWfc .granuleRd 1 ⟨gh h12 0, s 64, w 0, none, 0, q0⟩ ⟨h12, s 64, w 0, none, 12, q0⟩ ∧
    ldw .st .st 4 ⟨gh h12 0, s 64, w 0, none, 0, q0⟩ ⟨h12, s 64, w 0, none, 0, q0⟩ ∧
    ldw .stf .granuleWr 1 ⟨gh h12 0, s 64, w 0, none, 0, q0⟩ ⟨h12, s 64, w 0, none, 12, q0⟩ := by
  simp only [ldw, ← ready_iff, ← ok_iff]
  decide +kernel

/-- A laid out block, room at its slice or none, and a block of another format. -/
theorem test_witness_elements :
    let f : ElemF := ⟨gh h12 0, s 64, w 48, some (s 80), .f32, .rne, q0⟩
    let g : ElemF := ⟨h12, s 64, w 48, some (s 80), .f32, .rne, q0⟩
    Ready (.gath f) sM ∧ Ready (.scat f) sM ∧ sM.lanes f.h f.data.isVec = [] ∧ Ready (.gath g) sM ∧ Ready (.scat g) sM ∧
      sM.lanes g.h g.data.isVec ≠ [] ∧ Ready (.gath g) (crowded sM) ∧ Ready (.scat g) (crowded sM) ∧
      (let z := sM.setBytes (keyed (2 ^ 44 + 0x30000) [9])
       ∀ a ∈ [Acc.gath, .scat], ∀ y ∈ [(sM, true, true), (crowded sM, false, true), (z, true, false)],
        (y.1.elemAccs g a).toOption.map (fun l => (y.1.ownBlock l, (y.1.askSlices y.1.cur (y.1.who y.1.cur).asid (headPieces l)).1,
          isNone ((y.1.headed l).badFormat l))) = some (false, y.2.1, y.2.2)) := by
  simp only [← ready_iff]
  decide +kernel

def one {ε α : Type} : Except ε (List α) → Bool
  | .ok [_] => true
  | _ => false

theorem one_iff {ε α : Type} (x : Except ε (List α)) : one x = true ↔ ∃ e, x = .ok [e] := by
  rcases x with x | (_ | ⟨a, _ | ⟨b, l⟩⟩) <;> simp [one]

theorem test_witness_aged_accesses :
    let f : MemF := ⟨gh h12 0, v 64, w 32, none, 64, q0⟩
    let g : MemF := ⟨h12, v 64, w 32, none, 64, q0⟩
    let a : AgldF := ⟨gh h16 0, false, v 64, ops .w4 80, w 32, 64, 1, 1, 2⟩
    let b : AgldF := ⟨h16, false, v 64, ops .w4 80, w 32, 64, 1, 1, 2⟩
    let va := sM.ea b.base none 0 b.disp.toInt 0
    Ready (.agst f) sM ∧ sM.me.active f.h 0 = false ∧ Ready (.agst g) sM ∧ sM.me.active g.h 0 = true ∧
      sM.queueFull sM.cur = false ∧ (sM.ea g.base g.index (memSize g) g.disp.toInt 0).toNat % 64 = 0 ∧
      (∃ e, sM.placeLanes .agst 64 [(0, sM.ea g.base g.index (memSize g) g.disp.toInt 0)] = .ok [e]) ∧
      Ready (.agldWait a) sM ∧ Ready (.agldTry a) sM ∧ sM.me.active a.h 0 = false ∧ Ready (.agldWait b) sM ∧
      Ready (.agldTry b) sM ∧ sM.me.active b.h 0 = true ∧ va.toNat % 64 = 0 ∧
      ∃ e, sM.placeLanes .agld 64 [(0, va)] = .ok [e] := by
  simp only [← ready_iff, ← one_iff]
  decide +kernel

theorem test_witness_femark_and_cntadd :
    let f : FemarkF := ⟨h16, w 0, .imm 4⟩
    let z : FemarkF := ⟨gh h16 0, w 0, .imm 4⟩
    let c : CntAddF := ⟨h16, w 16, s 64, .core, 0⟩
    let d : CntAddF := ⟨gh h16 0, w 16, s 64, .core, 0⟩
    (Ready (.femarkFull f) sM ∧ Ready (.femarkEmpty f) sM ∧ sM.me.guardAt f.h 0 = true ∧ (sM.t64 f.base).toNat % 16 = 0 ∧
      sM.opImm sM.cur f.n ≠ 0 ∧ sM.opImm sM.cur f.n < 2 ^ 60 ∧ Ready (.femarkFull z) sM ∧ Ready (.femarkEmpty z) sM ∧
      sM.overEdge (sM.t64 f.base) (16 * sM.opImm sM.cur f.n) = false ∧
      Ready (.femarkFull { f with n := .reg (w 208) }) sM ∧ 2 ^ 17 < sM.opImm sM.cur (.reg (w 208) : OpImm 32) ∧
      sM.me.guardAt z.h 0 = false ∧ (∃ a, sM.placeLanes .granuleWr (16 * sM.opImm sM.cur f.n) [(0, sM.t64 f.base)] = .ok a)) ∧
    (Ready (.cntadd c) sM ∧ Ready (.cntaddErr c) sM ∧ sM.me.guardAt c.h 0 = true ∧ (sM.t64 c.base).toNat % 8 = 0 ∧
      Ready (.cntadd d) sM ∧ Ready (.cntaddErr d) sM ∧ sM.me.guardAt d.h 0 = false ∧
      (sM.placeLanes .atomic 8 [(0, sM.t64 c.base)]).toOption.map (fun l => l.map (fun e => isHost e.pl.key)) = some [false])
    := by
  simp only [← ready_iff, ← ok_iff]
  decide +kernel

/-- The atomics: in memory, on a host word for the three that it serves, and in no lane, with a destination or without. -/
theorem test_witness_atomics :
    let f := fun (h : Hdr) (ty : Ty) (d : Option Opnd) (b : Opnd) => (⟨h, ty, false, d, b, s 72, .relaxed, .core, 0⟩ : AtomF)
    let c := fun (h : Hdr) (d : Option Opnd) (b : Opnd) => (⟨h, .n32, false, d, b, s 72, s 80, .relaxed, .core, 0⟩ : CasF)
    (∀ i ∈ [Instr.atadd, .atmin, .atmax, .atand, .ator, .atxor, .atxch, .atinc, .atdec], ∀ d ∈ [none, some (s 64)],
      ∀ h ∈ [h16, gh h16 0], Ready (i (f h .n32 d (w 16))) sM) ∧
    (∀ d ∈ [none, some (s 64)], ∀ h ∈ [h16, gh h16 0],
      Ready (.atfadd (f h .f32 d (w 16))) sM ∧ Ready (.atcas (c h d (w 16))) sM) ∧
    Ready (.atadd (f h16 .n32 none (w 240))) sM ∧ Ready (.atcas (c h16 (some (s 64)) (w 240))) sM ∧
    sM.lanes (gh h16 0) false = [] ∧ sM.lanes h16 false = [0] ∧ sM.queueFull sM.cur = false ∧
    (∀ b ∈ [w 16, w 240], sM.readOp sM.cur b 0 % 4 = 0 ∧
      ∃ a, sM.placeLanes .atomic 4 [(0, BitVec.ofNat 64 (sM.readOp sM.cur b 0))] = .ok a) ∧
    (sM.placeLanes .atomic 4 [(0, BitVec.ofNat 64 (sM.readOp sM.cur (w 16) 0))]).toOption.map
      (fun l => l.map (fun e => isHost e.pl.key)) = some [false] := by
  simp only [← ready_iff, ← ok_iff]
  decide +kernel

theorem test_witness_waits :
    let c := fun h => (⟨h, w 16, w 64, .die⟩ : WaitcF)
    let n := fun h => (⟨h, w 16, w 64, .die, 3⟩ : WaitcNtF)
    let f := fun h => (⟨h, .i32, .eq, w 16, s 64, none, .die⟩ : WaitfF)
    (∀ h ∈ [h16, gh h16 0], Ready (.waitc (c h)) sM ∧ Ready (.waitcNt (n h)) sM ∧ Ready (.waitf (f h)) sM) ∧
      sM.me.guardAt h16 0 = true ∧ sM.me.guardAt (gh h16 0) 0 = false ∧ sM.pendingFor sM.cur = false ∧
      (sM.t64 (w 16)).toNat % 8 = 0 ∧ (∃ e, sM.placeLanes .counter 8 [(0, sM.t64 (w 16))] = .ok [e]) ∧
      ∃ e, sM.placeLanes .counter 4 [(0, sM.t64 (w 16))] = .ok [e] := by
  simp only [← ready_iff, ← one_iff]
  decide +kernel

/-- SPILL with a block left, with none left, at its last block; FILL; PREF of a line of memory. -/
theorem test_witness_spill_fill_pref :
    let f : BlkF := ⟨h16, w 0, .v, 2, 2, 0⟩
    let z : BlkF := ⟨gh h16 0, w 0, .v, 2, 2, 0⟩
    let p : PrefF := ⟨h12, w 16, none, 0, false, .normal⟩
    let t := sM.modCtx 0 (fun x => { x with spx := 1 })
    let u := sM.modCtx 0 (fun x => { x with spx := 2 })
    (∀ y ∈ [sM, t, u], Ready (.spill f) y ∧ Ready (.fill f) y ∧ Ready (.spill z) y ∧ y.me.guardAt f.h 0 = true ∧
      y.me.guardAt z.h 0 = false ∧ (y.t64 f.base).toNat % 32 = 0 ∧ y.queueFull y.cur = false) ∧ f.count.toNat ≤ u.me.spx.toNat ∧
    (∀ y ∈ [sM, t], y.me.spx.toNat < f.count.toNat ∧ (∀ o ∈ blkOctets f y.me.spx.toNat, y.octetEmpty y.cur o = false) ∧
      y.ueIn y.cur (blkOctets f y.me.spx.toNat) = false ∧
      (∃ a, blkPlace f y .st y.me.spx.toNat = .ok a) ∧
      (fillPlaces f y (f.count.toNat - y.me.spx.toNat) y.me.spx.toNat).2 = none) ∧
    Ready (.pref p) sM ∧ sM.laneEas p.h (vecTerms p.base p.index) p.base p.index 64 p.disp.toInt = [(0, 0x10000)] ∧
    ((sM.place (sM.who sM.cur) .ld 0x10000 64).toOption.map (fun pl => isGlobal pl.key && !sM.isAged pl.key &&
      (sM.badBytes (keysOf (256 * (pl.key / 256)) 256)).isNone)) = some true ∧
    ∃ q, sM.place (sM.who sM.cur) .ld (0x10000 + 63) 1 = .ok q := by
  simp only [← ready_iff, ← ok_iff, ← isNone_iff]
  decide +kernel

/-- A FILL that meets a hole or a page still to be walked for; a PREF of such a page, and one whose slice has no entry. -/
theorem test_witness_fill_pref_stopped :
    let f := fun (o : Opnd) => (⟨h16, o, .v, 2, 2, 0⟩ : BlkF)
    let p := fun (o : Opnd) => (⟨h12, o, none, 0, false, .normal⟩ : PrefF)
    let full := crowded sM
    let eas := fun (y : State) (o : Opnd) => y.laneEas h12 (vecTerms o none) o none 64 0
    (∀ o ∈ [w 208, w 224], Ready (.fill (f o)) sM ∧ (sM.t64 o).toNat % 32 = 0 ∧
      ((fillPlaces (f o) sM 2 0).2.map (fun x => (x.1, x.2.isMiss))) = some (0, o == w 224)) ∧
    sM.me.spx = 0 ∧ sM.me.guardAt h16 0 = true ∧ Ready (.pref (p (w 224))) sM ∧ Ready (.pref (p (w 16))) full ∧
    isNone (sM.prefMiss (eas sM (w 224))) = false ∧ isNone (full.prefMiss (eas full (w 16))) = true ∧
    (full.askSlices full.cur (full.who full.cur).asid (full.prefPieces (eas full (w 16)))).1 = false ∧
    (sM.askSlices sM.cur (sM.who sM.cur).asid (sM.prefPieces (eas sM (w 16)))).1 = true := by
  simp only [← ready_iff]
  decide +kernel

/-! Witnesses of the statements about control, contexts and system registers. -/

def settledB (y : State) (mask : BitVec 8) (scope : Scope) : Bool :=
  (y.earlier y.cur y.nextId).all (fun g => (!g.isLoad || g.allDone) && !g.owed mask scope) &&
    y.me.floor.all (fun x => (y.ofTask (y.owner (y.cur / 16)).1 x.1 x.2).all (fun g => (!g.isLoad || g.allDone) && !g.owed 0xFF .core))

theorem settled_iff (y : State) (mask : BitVec 8) (scope : Scope) : settledB y mask scope = true ↔ y.settled mask scope := by
  simp [settledB, State.settled, ← Bool.not_eq_true, Classical.or_iff_not_imp_left]

/-- s0 with a load and a store of its context under way. -/
def sOwe : State := { s0 with flights := [{ s0.flightOf (.nop64 ⟨h8⟩) .load [Part.of 0 4 0 0] with
  id := 0, isLoad := true, isStore := true, colour := some 0 }] }

theorem test_witness_fences :
    let loads := fun (y : State) => ∀ g ∈ y.earlier y.cur y.nextId, g.isLoad = true → g.allDone = true
    let stores := fun (y : State) => ∀ g ∈ y.earlier y.cur y.nextId, g.owed 1 .die = false
    let all := fun (y : State) => ∀ g ∈ y.earlier y.cur y.nextId, g.isStore = true → g.allDone = true
    (∀ y ∈ [s0, sOwe], ∀ h ∈ [h8, gh h8 0], Ready (.fenceLL ⟨h, 0, .die⟩) y ∧ Ready (.fenceSL ⟨h, 1, .die⟩) y ∧
      Ready (.fenceSS ⟨h, 1, .die⟩) y ∧ Ready (.fenceFull ⟨h, 1, .die⟩) y ∧ Ready (.iflush ⟨h⟩) y) ∧
      s0.me.guardAt h8 0 = true ∧ s0.me.guardAt (gh h8 0) 0 = false ∧ loads s0 ∧ stores s0 ∧ all s0 ∧
      sOwe.me.guardAt h8 0 = true ∧ ¬loads sOwe ∧ ¬stores sOwe ∧ ¬all sOwe := by
  simp only [← ready_iff]
  decide +kernel

/-- Targets at s0, s16 and s32: not canonical, not a multiple of 4, and an address; a counter of 2 at s64, and of 1. -/
def sJ : State := s0.modCtx 0 (fun x => { x with
  s := [(0, 2 ^ 60), (16, 0x1002), (32, 0x2000), (64, 2), (80, 1)].foldl (fun y e => y.write 0 e.1 16 e.2) x.s })
def sEdge : State := sJ.modCtx 0 (fun x => { x with pc := BitVec.ofNat 64 (2 ^ 56 - 8) })

theorem test_witness_transfers :
    let near := fun (y : State) (off : BitVec 28) => y.me.pc + BitVec.ofInt 64 (8 * off.toInt)
    let far := fun (o : Opnd) => BitVec.ofNat 64 (sJ.u64 sJ.cur o)
    (∀ y ∈ [sJ, sEdge], ∀ h ∈ [h8, gh h8 0], Ready (.br ⟨h, 1⟩) y ∧ Ready (.brc ⟨h, s 64, 1⟩) y ∧ Ready (.brc ⟨h, s 96, 1⟩) y ∧
      Ready (.call ⟨h, w 96, 1⟩) y ∧ Ready (.loop ⟨h, s 64, 1⟩) y ∧ Ready (.loop ⟨h, s 80, 1⟩) y) ∧
    (∀ o ∈ [w 0, w 16, w 32], ∀ h ∈ [h8, gh h8 0], Ready (.jmp ⟨h, o⟩) sJ ∧ Ready (.ret ⟨h, o⟩) sJ ∧
      Ready (.calli ⟨h, w 96, o⟩) sJ) ∧
    Ready (.nop64 ⟨h8⟩) sJ ∧ sJ.me.guardAt h8 0 = true ∧ sEdge.me.guardAt h8 0 = true ∧ sJ.me.guardAt (gh h8 0) 0 = false ∧
    canonical (near sJ 1) = true ∧ canonical (near sEdge 1) = false ∧ sJ.readOp sJ.cur (s 64) 0 = 2 ∧
    sJ.readOp sJ.cur (s 96) 0 = 0 ∧ sJ.readOp sJ.cur (s 80) 0 = 1 ∧ (far (w 16)).toNat % 4 ≠ 0 ∧
    (far (w 0)).toNat % 4 = 0 ∧ canonical (far (w 0)) = false ∧ (far (w 32)).toNat % 4 = 0 ∧
    canonical (far (w 32)) = true := by
  simp only [← ready_iff]
  decide +kernel

def pend (y : State) : State := y.modCore 0 (fun k => { k with task := k.task.map (fun t => { t with pending := true }) })
def aWB (long : Bool) (o : List (FileId × Nat)) : WB := ⟨0, 0, 9, long, long, [], [], .none, o, []⟩

/-- A helper's slot: context 1 of the core. -/
def sH : State := { s0.setCtx 1 { s0.me with run := .awake } with curCtx := 1 }

/-- A SAFE whose record lies at the next granule, or 8 bytes off it; idle, passed, parking at once, alone or beside a live
context, with a record of a reserved flag or on a page still to be walked for, and after a writeback. -/
theorem test_witness_safe :
    let r := fun (y : State) (off : BitVec 28) => y.me.pc + BitVec.ofInt 64 (8 * off.toInt)
    let p := pend s0
    let m := p.setCtx 1 { s0.me with run := .awake }
    let b := p.setBytes (keyed (scratchKey 0 28) [2])
    let d := p.modCore 0 (fun k => { k with wbs := [aWB false [(.v, 3)]] })
    let far := BitVec.toNat (r p 0x100000)
    let g := p.modCore 0 (fun k => { k with tlb := [page far (2 ^ 44)] })
    let live := fun (y : State) => ∃ k ∈ ctxNums, ctxId y.curCore k ≠ y.cur ∧ (y.ctx (ctxId y.curCore k)).run = .awake
    (∀ y ∈ [s0, p, m, b, d], Ready (.safe ⟨h8, 1⟩) y ∧ Ready (.safe ⟨h8, 2⟩) y ∧ Ready (.safe ⟨gh h8 0, 2⟩) y ∧
      y.me.guardAt h8 0 = true ∧ y.me.guardAt (gh h8 0) 0 = false ∧ y.me.xact = false ∧ y.me.stub.isSome = false) ∧
    (r s0 1).toNat % 16 ≠ 0 ∧ (r s0 2).toNat % 16 = 0 ∧ s0.pendingFor s0.cur = false ∧
    (∀ y ∈ [p, m, b, d], y.pendingFor y.cur = true) ∧ (∀ y ∈ [p, m, b], y.hasWB y.cur = false) ∧
    (∀ y ∈ [p, m], ∃ v, y.readRecord y.cur (r y 2) = .ok v) ∧ ¬live p ∧ live m ∧
    errOf (b.readRecord b.cur (r b 2)) = some false ∧ Ready (.safe ⟨h8, 0x100000⟩) p ∧ (r p 0x100000).toNat % 16 = 0 ∧
    errOf (p.readRecord p.cur (r p 0x100000)) = some true ∧ d.hasWB d.cur = true ∧
    (∀ y ∈ [g, crowded g], Ready (.safe ⟨h8, 0x100000⟩) y ∧ y.pendingFor y.cur = true ∧ y.hasWB y.cur = false) ∧
    (∃ v, g.readRecord g.cur (r g 0x100000) = .ok v) ∧ (g.askRecord g.cur (r g 0x100000)).1 = true ∧
    ((crowded g).askRecord (crowded g).cur (r g 0x100000)).1 = false ∧ (b.askRecord b.cur (r b 2)).1 = true := by
  simp only [← ready_iff, ← ok_iff]
  decide +kernel

theorem test_witness_rbdone :
    let y := s0.modCtx 0 (fun x => { x with stub := some (64, true) })
    Ready (.rbdone ⟨h8⟩) s0 ∧ s0.me.stub = none ∧ Ready (.rbdone ⟨h8⟩) y ∧ y.me.stub = some (64, true) := by
  simp only [← ready_iff]
  decide +kernel

theorem test_witness_yield_done_hjoin :
    let fin := fun (y : State) => y.hasWB y.cur = false ∧ y.settled 0xFF (if y.curCtx = 0 then .pkg else .core)
    let busy := s0.setCtx 1 { s0.me with run := .awake }
    let hOwe := { sH with flights := sOwe.flights.map (fun f => { f with ctx := 1 }) }
    (∀ y ∈ [s0, sH, sOwe, busy, hOwe], ∀ h ∈ [h8, gh h8 0], Ready (.yield ⟨h, .imm 9⟩) y ∧ Ready (.done ⟨h⟩) y ∧
      Ready (.hjoin ⟨h, .imm 1⟩) y) ∧
    (∀ y ∈ [s0, sH, sOwe, busy, hOwe], y.me.guardAt h8 0 = true ∧ y.me.guardAt (gh h8 0) 0 = false ∧
      y.pendingFor y.cur = false) ∧
    (sH.curCtx ≠ 0 ∧ fin sH) ∧ (hOwe.curCtx ≠ 0 ∧ ¬fin hOwe) ∧ (busy.curCtx = 0 ∧ busy.helpersFree busy.curCore = false) ∧
    (sOwe.curCtx = 0 ∧ sOwe.helpersFree sOwe.curCore = true ∧ ¬fin sOwe) ∧
    (s0.curCtx = 0 ∧ s0.helpersFree s0.curCore = true ∧ fin s0 ∧ s0.mine.task.isSome = true) ∧
    Ready (.hjoin ⟨h8, .imm 1⟩) (pend s0) ∧ (pend s0).pendingFor 0 = true ∧
    (∀ y ∈ [s0, pend s0], ∀ k, k < 11 → 1 ≤ k → k ≠ y.curCtx → bitAt 2 k = true → y.isFree y.curCore k = true) := by
  simp only [← ready_iff, ← settled_iff]
  decide +kernel

theorem test_witness_hstart :
    let f := fun (n : BitVec 10) (o : Opnd) => (⟨h16, false, ops .w4 64, .imm n, o, 1, 1⟩ : HstartF)
    let b := sJ.modCore 0 (fun k => { k with wbs := [aWB true [(.g, 3)]] })
    (∀ y ∈ [sJ, b], Ready (.hstart (f 1 (w 16))) y ∧ Ready (.hstart (f 1 (w 32))) y ∧ Ready (.hstart (f 512 (w 32))) y ∧
      y.me.run = .awake ∧ y.me.guardAt h16 0 = true) ∧
    (∃ x ∈ b.mine.wbs, x.ctx = b.cur ∧ x.long = true ∧ ∃ o ∈ x.octs, o.1 = .g ∨ o.1 = .h) ∧
    (¬∃ x ∈ sJ.mine.wbs, x.ctx = sJ.cur ∧ x.long = true ∧ ∃ o ∈ x.octs, o.1 = .g ∨ o.1 = .h) ∧
    (BitVec.ofNat 64 (sJ.u64 sJ.cur (w 16))).toNat % 4 ≠ 0 ∧ (BitVec.ofNat 64 (sJ.u64 sJ.cur (w 32))).toNat % 4 = 0 ∧
    sJ.isFree 0 1 = true ∧ sJ.isFree 0 10 = true := by
  simp only [← ready_iff]
  decide +kernel

/-- A root RCB at 0x10100, a TCB at 0x10000, one bound to no die at 0x10040, one with a bad entry address at 0x10080. -/
def sS : State :=
  let tcb := [(0x11, 0x01), (0x12, 0x01)]
  let root := [(0x10C, 0xFF), (0x10D, 0xFF), (0x125, 1)]
  let bytes := root ++ tcb ++ tcb.map (fun e => (e.1 + 0x40, e.2)) ++ [(0x69, 0x80), (0x80, 2)]
  let t := s0.setBytes (bytes.map (fun e => (2 ^ 44 + 0x10000 + e.1, BitVec.ofNat 8 e.2)))
  let t := t.modDie 0 (fun d => { d with tlb := [page 0x10000 (2 ^ 44 + 0x10000)] })
  let t := t.modCore 0 (fun k => { k with task := k.task.map (fun a => { a with rcb := 0x10100 }) })
  let win := fun (x : Window) => [(0, 0x10000), (16, 0x10040), (32, 0x10080), (48, 0x10004)].foldl
    (fun y e => y.write 0 e.1 16 e.2) x
  t.modCtx 0 (fun x => { x with s := win x.s })

theorem test_witness_spawn :
    let owe := { sS with flights := sOwe.flights }
    let free := fun (y : State) => y.settled 0xFF .pkg
    let cold := sS.modDie 0 (fun d => { d with tlb := [] })
    let die := fun (a : Word) => (sS.spawnTask sS.cur a).toOption.map (fun x => sS.dieFor x.2.2 (coreDie sS.curCore))
    (∀ y ∈ [sS, owe], ∀ h ∈ [h16, gh h16 0], ∀ o ∈ [w 0, w 16, w 32, w 48], ∀ d ∈ [none, some (s 64)],
      Ready (.spawn ⟨h, false, d, o⟩) y) ∧
    (∀ y ∈ [sS, owe], y.me.guardAt h16 0 = true ∧ y.me.guardAt (gh h16 0) 0 = false) ∧ free sS ∧ ¬free owe ∧
    Ready (.spawn ⟨h16, false, none, w 0⟩) cold ∧ Ready (.spawn ⟨gh h16 0, false, none, w 0⟩) cold ∧ free cold ∧
    errOf (cold.tcbAt cold.cur 0x10000) = some true ∧ errOf (cold.spawnTask cold.cur 0x10000) = some true ∧
    (∀ h ∈ [h16, gh h16 0], Ready (.spawn ⟨h, false, none, w 0⟩) (crowded sS)) ∧ free (crowded sS) ∧
    (sS.askTcb 0 0x10000).1 = true ∧ ((crowded sS).askTcb 0 0x10000).1 = false ∧
    (∃ p, sS.tcbAt sS.cur 0x10000 = .ok p) ∧ errOf (sS.tcbAt sS.cur 0x10004) = some false ∧
    errOf (sS.spawnTask sS.cur 0x10080) = some false ∧ die 0x10000 = some (some 0) ∧ die 0x10040 = some none := by
  simp only [← ready_iff, ← ok_iff, ← settled_iff]
  decide +kernel

def guards (y : State) : Prop := y.me.guardAt h16 0 = true ∧ y.me.guardAt (gh h16 0) 0 = false ∧ y.me.guardAt h8 0 = true

theorem test_witness_identity :
    (∀ h ∈ [h8, gh h8 0], Ready (.itset ⟨h, .imm 1⟩) s0 ∧ Ready (.itinc ⟨h, .imm 1⟩) s0 ∧ Ready (.seed ⟨h, .imm 1⟩) s0) ∧
    guards s0 ∧ (∀ n : BitVec 3, Ready (.idrd ⟨h8, false, vw 0, n⟩) s0) := by
  simp only [← ready_iff, guards]
  decide +kernel

theorem test_witness_idrd (n : Nat) (a : Nat → Nat) : ∃ f : Nat → Nat, ∀ l, (n = 0 → f l = a 0) ∧ (n = 1 → f l = a 1) ∧
    (n = 2 → f l = a 2) ∧ (n = 3 → f l = l) ∧ (n = 4 → f l = a 4) ∧ (n = 5 → f l = a 5) ∧ (n = 6 → f l = a 6) ∧
    (n = 7 → f l = a 7) :=
  ⟨fun l => if n = 3 then l else a n, fun l => by
    refine ⟨?_, ?_, ?_, ?_, ?_, ?_, ?_, ?_⟩ <;> intro h <;> subst h <;> simp⟩

theorem test_witness_traps_and_returns :
    let y := s0.modCtx 0 (fun x => { x with xact := true, xlen := 3 })
    (∀ h ∈ [h8, gh h8 0], Ready (.trap ⟨h, 9⟩) s0 ∧ Ready (.tret ⟨h⟩) s0 ∧ Ready (.tretNext ⟨h⟩) s0 ∧
      Ready (.tret ⟨h⟩) y ∧ Ready (.tretNext ⟨h⟩) y) ∧
    guards s0 ∧ guards y ∧ s0.me.xact = false ∧ y.me.xact = true := by
  simp only [← ready_iff, guards]
  decide +kernel

theorem test_witness_trap_entry :
    let b := s0.modCore 0 (fun k => { k with wbs := [aWB false []] })
    let d := s0.modCtx 0 (fun x => { x with run := .asleep (.trapDrain tUndef) 0 })
    let t := s0.modCtx 0 (fun x => { x with xact := true })
    let z := s0.modCtx 0 (fun x => { x with s := .none })
    tUndef.event = none ∧ (∃ x ∈ (b.core 0).wbs, x.ctx = 0) ∧ (∀ x ∈ (d.core 0).wbs, x.ctx ≠ 0) ∧
    (d.ctx 0).run = .asleep (.trapDrain tUndef) 0 ∧ (t.ctx 0).xact = true ∧ (z.ctx 0).s.blocks = 0 ∧
    (let block := (List.range 8).map (fun o => (FileId.s, o))
     s0.ueIn 0 block = false ∧ ({ s0 with ueRegs := [(regKey 0 (.s, 3), true)] } : State).ueIn 0 block = true) ∧
    (s0.ctx 0).xact = false ∧ (s0.ctx 0).s.blocks ≠ 0 ∧ ∀ x ∈ (s0.core 0).wbs, x.ctx ≠ 0 := by
  decide +kernel

/-- A producer of the context under way, whose octets the reads below do not touch. -/
def sWB : State := s0.modCore 0 (fun k => { k with wbs := [aWB false [(.v, 200)]] })

/-- A SCAT of the context that has written none of its elements. -/
def sSc : State := { s0 with flights := [{ s0.flightOf (.nop64 ⟨h8⟩) (.scat .f32 .rne false) [Part.of 0 4 0 0] with id := 0 }] }

def flagsSettled (y : State) : Bool :=
  y.mine.wbs.all (fun x => decide (x.ctx ≠ y.cur)) &&
    (y.earlier y.cur y.nextId).all (fun g => match g.op with | .scat _ _ _ => g.allDone | _ => true)

theorem flagsSettled_iff (y : State) : flagsSettled y = true ↔ (∀ x ∈ y.mine.wbs, x.ctx ≠ y.cur) ∧
    ∀ g ∈ y.earlier y.cur y.nextId, ∀ ty r z, g.op = .scat ty r z → g.allDone = true := by
  simp only [flagsSettled, Bool.and_eq_true, List.all_eq_true, decide_eq_true_eq]
  refine and_congr_right fun _ => forall₂_congr fun g _ => ⟨fun h ty r z e => by simpa [e] using h, fun h => ?_⟩
  split
  · exact h _ _ _ ‹_›
  · rfl

theorem test_witness_system_reads :
    let settled := fun (y : State) => (∀ x ∈ y.mine.wbs, x.ctx ≠ y.cur) ∧
      ∀ g ∈ y.earlier y.cur y.nextId, ∀ ty r z, g.op = .scat ty r z → g.allDone = true
    settled s0 ∧ ¬settled sWB ∧ ¬settled sSc ∧
    (∀ y ∈ [s0, sWB, sSc], Ready (.sysrd ⟨h16, false, w 64, .flg⟩) y ∧ Ready (.sysrd ⟨h16, false, w 64, .cycle⟩) y ∧
      Ready (.sysrdClr ⟨h16, false, w 64⟩) y ∧ Ready (.syswr ⟨h16, .flg, w 64⟩) y) ∧
    (∀ n ∈ [0, 10], Ready (.perf ⟨h16, false, w 64, n⟩) s0) ∧ ∀ n ∈ [0, 8], Ready (.perfClr ⟨h16, false, w 64, n⟩) s0 := by
  simp only [← ready_iff, ← flagsSettled_iff]
  decide +kernel

/-- At s0 and s16 a retention register of 7 ways and of 8, at s32 and s224 a MIRR of 63 GiB and of 16, at s48 one that fits no
share. -/
def sR : State :=
  let win := fun (x : Window) => [(0, 0xE000000000000000), (16, 0xF000000000000000), (32, 0x3F00), (48, 0x2000000003), (224, 0x1000)].foldl
    (fun y e => y.write 0 e.1 16 e.2) x
  (s0.modCtx 0 (fun x => { x with s := win x.s })).modDie 0 (fun d => { d with
    rtn := [(0, ⟨0x8000000000000000, 0, 0, 0⟩), (2, ⟨0x0000000000000001, 7, 0, 0⟩)], hcfg := 34 })

theorem test_witness_system_writes :
    (∀ r ∈ [SysReg.wlim, .flg, .spx, .spc, .wsp, .rpr, .xstate, .xpc, .xlm, .xb 0, .xb 3, .efcr, .efca, .efmr, .efma, .atbl,
      .evbase, .evctl, .iocfg 0, .iocfg 5, .inga 0, .ingl 3, .ingc 1], ∀ h ∈ [h16, gh h16 0], Ready (.syswr ⟨h, r, w 64⟩) s0) ∧
    guards s0 := by
  simp only [← ready_iff, guards]
  decide +kernel

theorem test_witness_system_rows :
    let a := fun (o : Opnd) => BitVec.ofNat 64 (sR.u64 sR.cur o)
    let ways := fun (o : Opnd) => ((List.range 8).map (fun n => (Tab.get Rtn.free
      (Tab.set Rtn.free (sR.die 0).rtn 1 ⟨a o &&& 0xF1FFFFFFFFFFFFFF, 0, 0, 0⟩) n).ways)).sum
    let h := fun (o : Opnd) => let x := (a o &&& 0x3F00) ||| ((sR.die 0).hcfg &&& 0x7F)
      (bitsAt x.toNat 8 6, bitsAt x.toNat 0 7 + bitsAt x.toNat 8 6)
    let sh := fun (o : Opnd) => let x := a o &&& 0x0000FFFFFFE00FFF
      bitsAt x.toNat 0 12 = 0 ∨ (2 ^ 44 ≤ bitsAt x.toNat 21 27 * 2 ^ 21 ∧
        bitsAt x.toNat 21 27 * 2 ^ 21 + bitsAt x.toNat 0 12 * 2 ^ 21 ≤ 2 ^ 44 + sR.localShare 0)
    (∀ g ∈ [h16, gh h16 0], ∀ o ∈ [w 0, w 16, w 32, w 48, w 64, w 224], Ready (.syswrRtn ⟨g, 1, o⟩) sR ∧
      Ready (.syswrHcfg ⟨g, o⟩) sR ∧ Ready (.syswrShst ⟨g, o⟩) sR ∧ Ready (.syswrKreq ⟨g, o⟩) sR) ∧ guards sR ∧
    ways (w 0) = 8 ∧ ways (w 16) = 9 ∧ h (w 32) = (63, 97) ∧ h (w 224) = (16, 50) ∧ h (w 64) = (0, 34) ∧ ¬sh (w 48) ∧ sh (w 64) := by
  simp only [← ready_iff, guards]
  decide +kernel

/-- sM with a load of context 17 under way by a translation, and with an issued packet whose source it gave. -/
def sAt : State := { sM with flights := [{ sM.flightOf (.nop64 ⟨h8⟩) .load
  [{ Part.of (2 ^ 44 + 0x10000) 4 0x10000 0 with page := some (page 0x10000 (2 ^ 44 + 0x10000)) }] with ctx := 17, core := 1 }] }
def sPk : State := sM.modCore 0 (fun k => { k with packets :=
  [⟨0, 1, 0, 0, 4, 0, [], [], .issued, none, [page 0x10000 0], .none⟩] })

/-- The stores, accesses and packets that a TLBI of every entry in the package waits for. -/
def held (y : State) (n : Nat × Nat × Nat) : Prop :=
  ((y.earlier y.cur y.nextId).filter (fun g => g.isStore && !g.allDone)).length = n.1 ∧
  (y.flights.filter (fun g => inScope .pkg y.curCore g.core && g.parts.any (fun q => !q.done && q.page.isSome))).length = n.2.1 ∧
  (y.cores.flatMap (fun k => k.2.packets.filter (fun q => q.dstPage.isSome || (q.stage == .issued && q.srcPages != [])))).length
    = n.2.2

theorem test_witness_genb_unpin_tlbi :
    let r := fun (n : Nat) => Tab.get Rtn.free (sR.die 0).rtn n
    (∀ h ∈ [h8, gh h8 0], Ready (.genb ⟨h⟩) sR ∧ Ready (.unpin ⟨h, .imm 0⟩) sR ∧ Ready (.unpin ⟨h, .imm 2⟩) sR) ∧
    (r 2 ≠ Rtn.free ∧ (r 2).region ≠ 0) ∧ (r 0).region = 0 ∧ guards sR ∧
    (∀ h ∈ [h16, gh h16 0], ∀ c ∈ [Scope.core, .die, .pkg], ∀ y ∈ [sM, sOwe, sAt, sPk], Ready (.tlbiAll ⟨h, c⟩) y ∧
      Ready (.tlbiAsid ⟨h, c, s 64⟩) y ∧ Ready (.tlbiVa ⟨h, c, s 64, w 16⟩) y) ∧
    held sOwe (1, 0, 0) ∧ held sAt (0, 1, 0) ∧ held sPk (0, 0, 1) ∧ held sM (0, 0, 0) := by
  simp only [← ready_iff, guards, held]
  decide +kernel

/-- Tables at 0x100000000000 that map the 64 KiB pages 1 to 3 of address space 0 to device memory, in every mode. -/
def tables : List (Nat × Nat) :=
  let b := 2 ^ 44
  [(b, 1 + b + 0x200000), (b + 0x200000, b + 0x3001), (b + 0x3000, b + 0x4001), (b + 0x4000, b + 0x5001),
    (b + 0x5008, b + 0x1001F), (b + 0x5010, b + 0x2001F), (b + 0x5018, b + 0x3001F)]

def sT : State :=
  let t := (sS.setBytes (tables.flatMap (fun e => keyed e.1 (leBytes 8 e.2)))).modDie 0 (fun d => { d with
    atbl := BitVec.ofNat 64 (2 ^ 44 + 1) })
  t.modCore 0 (fun k => { k with task := k.task.map (fun a => { a with chain := [(0x10100, 0)] }) })

/-- sT with a shape record of one element at 0x20000 in memory at 0x10000, its attributes a. -/
def sO (base a : Nat) : State :=
  let win := fun (x : Window) => [(0, 0x10000), (16, 0x10004), (32, 0x50000), (64, 1), (208, peerBase + 150 * 2 ^ 21)].foldl
    (fun y e => y.write 0 e.1 16 e.2) x
  let t := sT.modCtx 0 (fun x => { x with s := win x.s })
  t.setBytes (keyed (2 ^ 44 + 0x10000) (leBytes 64 (base + 2 ^ 64 + 2 ^ 96 + 2 ^ 128 + 2 ^ 160 + a * 2 ^ 456 + 255 * 2 ^ 464)))

theorem test_witness_objects :
    let rc := fun (o : Opnd) => BitVec.ofNat 64 ((sO 0x20000 1).u64 0 o)
    let blk := fun (y : State) => (⟨0x10000, y.word (2 ^ 44 + 0x10000) 64⟩ : Block)
    let y := sO 0x20000 1
    let aged := sO 0x20000 3
    let bad := sO 0x20000 2
    let taken := { y with objs := [(1, some (obj 0x40000 none false false))] }
    let across := { y with objs := [(9, some (obj 0x20000 none false false))] }
    let broken := { y with checkDiff := [((2 ^ 44 + 0x10000) / 64, 1)] }
    let walked := aged.modDie 0 (fun d => { d with tlb := page 0x20000 (2 ^ 44 + 0x20000) :: d.tlb })
    let failed := aged.modCtx 0 (fun x => { x with xl := [⟨0, pageOf 0x20000, none, 3, 0x103⟩] })
    let full := crowded y
    let ag := aged.objOf 0 (blk aged)
    let has := fun (z : State) (base : Nat) => { z with objs := [(1, some (obj (BitVec.ofNat 64 base) none false false))] }
    (∀ z ∈ [y, aged, bad, taken, across, broken, walked, failed, full, has walked 0x20000, has failed 0x20000], ∀ h ∈ [h16, gh h16 0], Ready (.objdef ⟨h, s 64, w 0⟩) z ∧
      Ready (.objdef ⟨h, s 64, w 16⟩) z ∧ Ready (.objdef ⟨h, s 64, w 32⟩) z ∧ Ready (.objdef ⟨h, s 64, w 208⟩) z ∧
      Ready (.objdefClr ⟨h, s 64⟩) z) ∧ guards y ∧
    (rc (w 16)).toNat % 64 ≠ 0 ∧ (rc (w 32)).toNat % 64 = 0 ∧ errOf (y.place (y.who 0) .ld (rc (w 32)) 64) = some true ∧
    errOf (y.place (y.who 0) .ld (rc (w 208)) 64) = some false ∧
    (y.place (y.who 0) .ld (rc (w 0)) 64).toOption.map (fun p => p.key) = some (2 ^ 44 + 0x10000) ∧
    (broken.badSector ((2 ^ 44 + 0x10000) / 64)).isSome = true ∧ (y.badSector ((2 ^ 44 + 0x10000) / 64)).isNone = true ∧
    bad.shapeErr 0 (blk bad) = some 57 ∧ y.shapeErr 0 (blk y) = none ∧ aged.shapeErr 0 (blk aged) = none ∧
    y.overlapsObj (y.objOf 0 (blk y)) = false ∧ across.overlapsObj (across.objOf 0 (blk across)) = true ∧
    taken.overlapsObj (taken.objOf 0 (blk taken)) = false ∧ (Tab.get none taken.objs 1).isSome = true ∧
    Tab.get none y.objs 1 = none ∧ (aged.objOf 0 (blk aged)).aged = true ∧ y.u64 0 (s 64) % 65536 = 1 ∧
    (y.askShape 0x10000).1 = true ∧ (full.askShape 0x10000).1 = false ∧ ag.pages.map (fun x => x.1) = [0x20000] ∧
    [aged, failed, walked].map (fun z => ((z.objHeld ag).map (fun e => e.isMiss),
      (z.findXlat (z.objWho ag) 0x20000).toOption.map (fun e => z.inDevice (e.pa_ 0x20000)))) =
      [(some true, none), (some false, none), (none, some true)] ∧
    [has y 0x20000, has failed 0x20000, has walked 0x20000].map (fun z => ((Tab.get none z.objs 1).isSome,
      (z.objHeld (obj 0x20000 none false false)).map (fun e => e.isMiss))) =
      [(true, some true), (true, some false), (true, none)] := by
  simp only [← ready_iff, guards]
  decide +kernel

/-! Witnesses of the statements about the engines and Prism. -/

def aCopy : CopyCmd :=
  { id := 5, xid := 1, core := 0, ctx := 0, uid := 0, asid := 0, region := 0, prio := 0, fdom := 0, priv := true
    src := BitVec.ofNat 64 localBase, dst := BitVec.ofNat 64 (localBase + 0x1000), len0 := 64, len1 := 1, len2 := 1, ss0 := 1
    ss1 := 0, ss2 := 0, ds0 := 1, ds1 := 0, ds2 := 0, counter := 0x10000, esz := 0, fe := false, hint := .normal
    red := none, next := 0, started := false, issued := false, open_ := 0, fault := none, leave := .notNeeded
    allowance := 0, after := [], xl := [] }

def aMat : MatCmd :=
  { id := 6, core := 0, ctx := 0, uid := 0, asid := 0, region := 0, prio := 0, fdom := 0, priv := true
    a := BitVec.ofNat 64 localBase, b := BitVec.ofNat 64 localBase, c := 0, d := BitVec.ofNat 64 (localBase + 0x1000)
    cfg := .start, first := 0, row := 0, wait := false, begun := false, fault := none, leave := .notNeeded
    allowance := 0, after := [], xl := [], hold := .none }

/-- A context with shadow registers and credits given, and two commands queued where asked. -/
def sC (len esz ctr credits : Nat) (full : Bool) : State :=
  let t := s0.modCtx 0 (fun x => { x with
    shadow := [(2, BitVec.ofNat 64 len), (3, 1), (4, 1), (5, 0x0000000100000001), (8, BitVec.ofNat 64 ctr),
      (9, BitVec.ofNat 64 (esz * 2 ^ 20))]
    credits := credits })
  t.modCore 0 (fun k => { k with copies := if full then [aCopy, aCopy] else [], mats := if full then [aMat, aMat] else [] })

theorem test_witness_copy_launches :
    let sh := fun (y : State) (r pos n : Nat) => bitsAt (Tab.get 0 y.me.shadow r).toNat pos n
    let bytes := fun (y : State) => sh y 2 0 32 * sh y 3 0 32 * sh y 4 0 32 * 2 ^ sh y 9 20 4
    let good := sC 64 2 8 0 false
    let full := sC 64 2 8 0 true
    let big := sC 64 9 8 0 false
    let odd := sC 64 2 4 0 false
    let nil := sC 0 2 8 0 false
    let heavy := fun n => sC 0x100000 2 8 n false
    (∀ y ∈ [good, full, big, odd, nil, heavy 0, heavy 2], ∀ h ∈ [h16, gh h16 0], ∀ d ∈ [none, some (s 64), some (v 64)],
      Ready (.cpgo ⟨h, false, d⟩) y ∧ Ready (.cpred ⟨h, .f32, false, d⟩) y ∧ Ready (.cpred ⟨h, .f16, false, d⟩) y ∧
      Ready (.cpredRanked ⟨h, .f32, false, d, 1, 3⟩) y) ∧ guards good ∧
    (∀ r ∈ [0, 2, 5, 9], Ready (.cpset ⟨h16, r, .imm 3⟩) s0 ∧ Ready (.cpset ⟨gh h16 0, r, .imm 3⟩) s0) ∧
    good.lanes (gh h16 0) true = [] ∧ good.lanes h16 true ≠ [] ∧
    full.entryFree full.cur false = false ∧ (∀ y ∈ [good, big, odd, nil, heavy 0, heavy 2], y.entryFree y.cur false = true) ∧
    8 < sh big 9 20 4 ∧ (∀ y ∈ [good, odd, nil, heavy 0, heavy 2], sh y 9 20 4 = 2 ∧ bytes y ≤ 2 ^ 40) ∧
    8 * 2 ^ sh good 9 20 4 = Ty.f32.bits ∧ 8 * 2 ^ sh good 9 20 4 ≠ Ty.f16.bits ∧ (Tab.get 0 odd.me.shadow 8).toNat % 8 ≠ 0 ∧
    (Tab.get 0 good.me.shadow 8).toNat % 8 = 0 ∧ bytes nil = 0 ∧ bytes good ≠ 0 ∧ ¬2 ^ 20 < bytes good ∧
    2 ^ 20 < bytes (heavy 0) ∧ (heavy 0).me.credits = 0 ∧ (heavy 2).me.credits ≠ 0 := by
  simp only [← ready_iff, guards]
  decide +kernel

/-- K = 60 and steps of 64 at s0 and s32; K = 61, K = 0 and a step of 65 at s8, s16 and s64; addresses at s96 and s112. -/
def sX : State :=
  let win := fun (x : Window) => [(0, 8, 60), (8, 8, 61), (16, 8, 0), (32, 32, 64 + 2 ^ 38 + 2 ^ 70 + 2 ^ 102),
    (64, 32, 65), (96, 16, localBase), (112, 16, localBase + 4)].foldl (fun y e => y.write 0 e.1 e.2.1 e.2.2) x
  s0.modCtx 0 (fun x => { x with s := win x.s })

theorem test_witness_matrix_configuration :
    let f := fun (h : Hdr) (k s : Opnd) => (⟨h, k, s, none, 0, 0, 0, .fp16, .fp16, some .fp32, .fp32⟩ : MmcfgF)
    let st := fun (o : Opnd) n => bitsAt (sX.readOp sX.cur o 0) (32 * n) 32
    let bad := fun (k : Opnd) => sX.u64 sX.cur k % 30 ≠ 0 ∨ sX.u64 sX.cur k / 30 < 1 ∨ 65536 < sX.u64 sX.cur k / 30
    (∀ h ∈ [h16, gh h16 0], ∀ k ∈ [s 0, s 8, s 16], ∀ o ∈ [ops .w32 32, ops .w32 64], Ready (.mmcfg (f h k o)) sX) ∧
    guards sX ∧ bad (s 8) ∧ bad (s 16) ∧ ¬bad (s 0) ∧ st (ops .w32 64) 0 % 64 ≠ 0 ∧ st (ops .w32 32) 0 % 64 = 0 ∧
    st (ops .w32 32) 1 % 64 = 0 ∧ st (ops .w32 32) 2 % 4 = 0 ∧ st (ops .w32 32) 3 % 4 = 0 := by
  simp only [← ready_iff, guards]
  decide +kernel

theorem test_witness_matrix_launches :
    let two := sX.modCore 0 (fun k => { k with mats := [aMat, aMat] })
    let withC := sX.modCtx 0 (fun x => { x with mm := { x.mm with fc := some .fp32 } })
    let f := fun (h : Hdr) (a : Opnd) (c : Option Opnd) (r : BitVec 5) => (⟨h, a, w 96, c, w 96, r⟩ : MmaF)
    (∀ y ∈ [sX, two, withC], ∀ h ∈ [h16, gh h16 0], ∀ a ∈ [w 96, w 112], ∀ c ∈ [none, some (w 96)], ∀ r ∈ [0, 1],
      Ready (.mma (f h a c r)) y ∧ Ready (.mmw (f h a c r)) y) ∧
    (∀ y ∈ [sX, two, withC], ∀ h ∈ [h16, gh h16 0], ∀ a ∈ [w 96, w 112], ∀ c ∈ [none, some (w 96)],
      Ready (.mmaRp ⟨h, a, w 96, c, w 96⟩) y ∧ Ready (.mmwRp ⟨h, a, w 96, c, w 96⟩) y) ∧ guards sX ∧
    two.entryFree two.cur true = false ∧ sX.entryFree sX.cur true = true ∧ withC.entryFree withC.cur true = true ∧
    sX.me.mm.fc = none ∧ withC.me.mm.fc.isSome = true ∧ (sX.u64 sX.cur (w 112)) % 64 ≠ 0 ∧
    (sX.u64 sX.cur (w 96)) % 64 = 0 ∧ sX.me.mm.m = 1 ∧ sX.mine.rpr.toNat = 0 ∧ sX.pendingFor sX.cur = false := by
  simp only [← ready_iff, guards]
  decide +kernel

theorem test_witness_mmrp :
    let y := s0.modCore 0 (fun k => { k with mats := [aMat] })
    let z := (s0.modCtx 0 (fun x => { x with run := .asleep .mmrp 0 })).modCore 0 (fun k => { k with
      wbs := [] ++ [aWB true [(.s, 3)]] })
    (∀ t ∈ [s0, y], ∀ h ∈ [h8, gh h8 0], ∀ d ∈ [w 64, vw 64], Ready (.mmrp ⟨h, false, d⟩) t) ∧ guards y ∧
    (∃ m ∈ y.mine.mats, m.ctx = y.curCtx) ∧ s0.mine.mats = [] ∧ y.pendingFor y.cur = false ∧
    (z.ctx 0).run = .asleep .mmrp 0 ∧ (z.core 0).mats = [] ∧ (z.core 0).wbs = [] ++ [aWB true [(.s, 3)]] ∧ (aWB true [(.s, 3)]).ctx = 0 ∧
    (∀ b ∈ [true, false], s0.lanes (gh h8 0) b = []) ∧ ∀ b ∈ [true, false], s0.lanes h8 b ≠ [] := by
  simp only [← ready_iff, guards]
  decide +kernel

/-- A task of a region that is granted contest 3 alone, and holds contest 3; a task of region 0 that does not. -/
theorem test_witness_prism_requests :
    let may := fun (y : State) (c : Nat) => match y.mine.task with
      | none => false
      | some t => c ≠ 15 && (if c = 14 then t.region = 0 else bitAt t.eff.grant.toNat c)
    let g := s0.modCore 0 (fun k => { k with
      task := k.task.map (fun t => { t with region := 7, eff := { t.eff with grant := 8 } }) })
    let held := g.setContest 3 { Contest.none with holder := some ⟨0, 1, 0, 0, 7⟩ }
    let owe := { held with flights := sOwe.flights }
    let p := fun (h : Hdr) (c : BitVec 4) => (⟨h, false, w 64, c, .imm 9, 15⟩ : PrentF)
    (∀ y ∈ [s0, g, held, owe], ∀ c ∈ [3, 4, 14, 15], ∀ h ∈ [h16, gh h16 0], Ready (.prentOnce (p h c)) y ∧
      Ready (.prentHold (p h c)) y ∧ Ready (.prres ⟨h, false, w 64, c⟩) y) ∧
    (∀ y ∈ [g, held, owe], ∀ h ∈ [h8, gh h8 0], Ready (.prrel ⟨h, 3⟩) y ∧ Ready (.leave ⟨h, .imm 2⟩) y ∧
      Ready (.leave ⟨h, .reg (s 64)⟩) y) ∧ guards g ∧ guards held ∧ g.pendingFor g.cur = false ∧
    may g 3 = true ∧ may g 4 = false ∧ may g 14 = false ∧ may s0 14 = true ∧ may s0 15 = false ∧
    (g.contest 3).holder = none ∧ ((held.contest 3).holder.map (fun h => h.uid)) = some 0 ∧
    held.settled 0xFF .pkg ∧ ¬owe.settled 0xFF .pkg ∧
    g.opImm g.cur (.imm (2 : BitVec 8)) % 256 = 2 ∧ g.opImm g.cur (.reg (s 64) : OpImm 8) % 256 = 0 := by
  simp only [← ready_iff, guards, ← settled_iff]
  decide +kernel

/-! Witnesses of the statements about writebacks, waits and events at homes. -/

theorem test_witness_writebacks :
    let u := { aWB false [(.v, 3)] with id := 1, due := 0, sl := [⟨.v, 24, 8, [(0, 5)]⟩], pr := [⟨3, 1, 1⟩] }
    let y := s0.modCore 0 (fun k => { k with wbs := [u, { aWB true [] with id := 2 }, { aWB false [] with id := 3 }] })
    let find := fun n => ((y.core 0).wbs.find? (fun x => x.id = n)).map (fun x => (x.ctx / 16, x.long, x.missing, decide (x.due ≤ y.cycle)))
    (find 1 = some (0, false, false, true) ∧ find 2 = some (0, true, true, false) ∧ find 3 = some (0, false, false, false)) ∧
    u.pr = [⟨3, 1, 1⟩] ∧ u.sl = [⟨.v, 24, 8, [(0, 5)]⟩] ∧ (∀ x ∈ u.sl, x.start + x.width ≤ 2048 ∧ (x.vals.map (fun e => e.1)).Nodup ∧ x.vals.lookup 0 = some 5) ∧
    ∀ o ∈ u.octs, o.2 < 256 := by
  decide +kernel

/-- s0 with context 0 asleep, and its core at a cycle. -/
def asleep (x : Sleep) (cycle : Nat) (y : State) : State :=
  { y.modCtx 0 (fun c => { c with run := .asleep x 0, wlim := 7 }) with cycle := cycle }

/-- A long-latency writeback wakes the context that sleeps on its octets, and the one that sleeps till it lands (R26, R257). -/
theorem test_landing_wakes :
    ∀ x ∈ [Sleep.octets [(.v, 3)], .landing 2],
      (match exec (.longWriteback 0 2) (asleep x 3 (s0.modCore 0 (fun k => { k with
          wbs := [{ aWB true [(.v, 3)] with id := 2, missing := false, due := 0 }] }))) with
        | .next t => decide ((t.ctx 0).run = .awake)
        | _ => false) = true := by
  decide +kernel

def aFlight (id : Nat) (op : FlOp) (p : Part) : Flight := { s0.flightOf (.nop64 ⟨h8⟩) op [p] with id := id }
def flying (l : List Flight) (y : State) : State := { y with flights := l, nextId := 9 }
def dev : Nat := 2 ^ 44 + 0x10000
def pad : Nat := scratchKey 0 0
def hostAt : Nat := 2 ^ 47

theorem test_witness_waits_end :
    let met := fun (y : State) => 0 + max (y.ctx 0).wlim.toNat 1 ≤ y.cycle
    let empty := (s0.setWindow 0 .v ((s0.window 0 .v).mark 3 true)).setCtx 1 { s0.me with run := .awake }
    let c := s0.setContest 3 { Contest.none with entries :=
      [{ id := 4, die := 0, core := 0, ctx := 0, key := 1, hold := false, gov := false, uid := 0, wb := 0, pw := 15, sentAt := 0
         regAt := none, withdraw := none, nextPc := 8, region := 0 }] }
    let d := s0.modDie 0 (fun x => { x with reqs := [⟨4, .leave 0 0 2, 20, 0, none⟩] })
    (asleep (.yield 5) 4 s0).cycle < 5 ∧ 5 ≤ (asleep (.yield 5) 5 s0).cycle ∧ ¬met (asleep .helpers 6 s0) ∧
    (met (asleep (.octets [(.v, 3)]) 7 empty) ∧ (asleep (.octets [(.v, 3)]) 7 empty).octetEmpty 0 (.v, 3) = true) ∧
    (met (asleep (.join 2) 7 empty) ∧ (asleep (.join 2) 7 empty).joined 0 0 2 = false) ∧
    (met (asleep .helpers 7 empty) ∧ (asleep .helpers 7 empty).helpersFree 0 = false) ∧
    (let y := asleep (.flight 0) 7 (flying [aFlight 0 .load (Part.of dev 4 0 0)] s0); met y ∧ (y.flight 0).map (fun f => f.withdraw) = some none) ∧
    (let y := asleep (.prent 4) 7 c; met y ∧ 3 ∈ y.contests.map (fun x => x.1) ∧ ∃ n ∈ (y.contest 3).entries, n.id = 4 ∧ n.withdraw = none) ∧
    (let y := asleep (.leave 4) 7 d; met y ∧ ∃ r ∈ (y.die 0).reqs, r.id = 4 ∧ r.withdraw = none) := by
  decide +kernel

/-- How a walk goes on: 0 to another table, 1 to a leaf, 2 to a failure. -/
def wayOn : WalkStep → Nat
  | .next .. => 0
  | .leaf _ => 1
  | .fail _ => 2

theorem test_witness_blocks_and_walks :
    let va := BitVec.ofNat 64 localBase
    let bad := { s0 with checkDiff := [(pad / 64, 1)] }
    let walk := fun (y : State) (page : Nat) (n : Option (Nat × Nat)) =>
      (y.modCtx 0 (fun x => { x with walking := some 7 })).modDie 0 (fun d => { d with walks := [⟨7, 0, page, n, [.ctx 0], .none⟩] })
    isOk (s0.fetchPlace 0 0x50000) = false ∧ (s0.fetchPlace 0 va).toOption.map (fun p => p.key) = some pad ∧
    (bad.fetchPlace 0 va).toOption.map (fun p => p.key) = some pad ∧ bad.badSector (pad / 64) = some 2 ∧
    (s0.checkDiff = [] ∧ s0.stale = [] ∧ s0.ueSectors = []) ∧
    ((s0.ctx 0).run = .awake ∧ (s0.ctx 0).pc = va) ∧ (s0.ctx 1).run ≠ .awake ∧
    (s0.fetchPlace 1 va).toOption.map (fun p => p.key) = some pad ∧
    (∀ w ∈ (sT.die 0).walks, w.asid ≠ 0 ∨ w.page ≠ 1) ∧ (sT.die 0).walks.length < 128 ∧
    wayOn (sT.walkRoot 0 0 0x10000) = 0 ∧ wayOn (sT.walkEntry 0 0x10000 3 (2 ^ 44 + 0x5000)) = 1 ∧
    wayOn (sT.walkEntry 0 0x50000 3 (2 ^ 44 + 0x5000)) = 2 ∧
    (∀ b ∈ [false, true], ((sM.fetchPlace 0 0x10000).toOption.map (fun p =>
      ((sM.askBlock 0 0x10000 p b).1, ((crowded sM).askBlock 0 0x10000 p b).1))) = some (true, false)) ∧
    (let y := crowded (sM.modCtx 0 (fun x => { x with pc := 0x10000 }))
     (y.ctx 0).run = .awake ∧ (y.ctx 0).pc = 0x10000 ∧ isOk (y.fetchPlace 0 0x10000) = true) ∧
    (∀ n ∈ [none, some (3, 2 ^ 44 + 0x5000)], ∀ h ∈ [Hold.none, ⟨1, some 9, false, false⟩], ∀ c ∈ [false, true],
      let w : Walk := ⟨7, 0, 1, n, [], h⟩
      let y := (if c then crowded sT else sT).modDie 0 (fun d => { d with walks := [w] })
      y.mayWalk 0 w = decide (h = .none) ∧ (h = .none → (y.enterSlices (.walk 0 7) (walkPort 0) (y.walkSlices 0 w)).1 = !c)) ∧
    (∀ e ∈ [(1, none), (1, some (3, 2 ^ 44 + 0x5000)), (5, some (3, 2 ^ 44 + 0x5000))],
      let y := walk sT e.1 e.2
      ((y.die 0).walks.find? (fun x => x.asid = 0 && x.page = e.1)).map (fun w => w.waiters) = some [.ctx 0] ∧
        (y.ctx 0).walking = some 7) := by
  decide +kernel

/-- One part of one flight: what a statement about its event assumes of it. -/
abbrev atPart (y : State) (f : Flight) (p : Part) : Prop :=
  y.flight f.id = some f ∧ f.part 0 = some p ∧ p.done = false ∧ y.reaches f p.key = true ∧
    (∀ k ∈ (y.partSlice f p).toList, (y.slice k).tracker.length + (y.slice k).tickets.length < 64) ∧
    (y.checkDiff = [] ∧ y.stale = [] ∧ y.ueSectors = [])

def aRead (key b : Nat) : Part := { Part.of key 4 0x10000 0 with b := b }
def aLoad (key b : Nat) : Flight := { aFlight 1 .load (aRead key b) with isLoad := true }

/-- A load by b at a key may perform in y, and its own queue forwards x to it. -/
abbrev loadsAt (y : State) (key b : Nat) (x : Forward) : Prop :=
  atPart y (aLoad key b) (aRead key b) ∧ y.mayRead (aLoad key b) (aRead key b) = true ∧
    y.forward (aLoad key b) (aRead key b) = x

theorem test_witness_reads :
    let st := fun key => { aFlight 0 .store { Part.of key 4 0x10000 0 with bytes := keyed key [1, 2, 3, 4] } with
      isStore := true }
    loadsAt (flying [st dev, aLoad dev 0] s0) dev 0 (.value 0x04030201) ∧
    (∀ b ∈ [0, 4, 8], loadsAt (flying [aLoad dev b] s0) dev b .clear ∧
      loadsAt (flying [st (dev + 64), aLoad dev b] s0) dev b .clear) ∧
    loadsAt (flying [aLoad hostAt 0] s0) hostAt 0 .clear ∧ isHost hostAt = true ∧ isWatch FlOp.load = false := by
  decide +kernel

theorem copy_good {m : MirrorCopy} (h : m.keys = [] ∧ m.diff = [] ∧ m.ue = []) (n : Nat) (ks : List Nat) :
    m.badAt n ks = none := by
  simp [MirrorCopy.badAt, MirrorCopy.badSector, h.1, h.2.1, h.2.2, staleNow]

theorem test_witness_cached_reads :
    let l1 := s0.modCore 0 (fun k => { k with l1 := [⟨dev / 256, 0, true⟩] })
    let m : MirrorCopy := ⟨dev / 256, 0, [], 0, [], [], []⟩
    let mir := s0.modDie 0 (fun d => { d with mirror := [m] })
    loadsAt (flying [aLoad dev 1] l1) dev 1 .clear ∧ (l1.core 0).l1.length = 1 ∧
    loadsAt (flying [aLoad dev 4] mir) dev 4 .clear ∧ (mir.die 0).current (dev / 256) = some m ∧
    (m.keys = [] ∧ m.diff = [] ∧ m.ue = []) := by
  decide +kernel

theorem test_witness_writes :
    let may := fun (f : Flight) (p : Part) => atPart (flying [f] s0) f p ∧ (flying [f] s0).mayWrite f 0 p = true
    let st := fun op p => { aFlight 0 op p with isStore := true }
    let p := { Part.of dev 4 0x10000 0 with bytes := keyed dev [1, 2, 3, 4] }
    let q := { Part.of hostAt 4 0 0 with bytes := keyed hostAt [1, 2, 3, 4] }
    let b := { Part.of dev 64 0x10000 0 with a := 1, b := 0x3F800000 }
    may (st .store p) p ∧ may (st .store q) q ∧ may (st (.femark true) (Part.of pad 64 0 0)) (Part.of pad 64 0 0) ∧
    may (st (.femark false) (Part.of pad 16 0 0)) (Part.of pad 16 0 0) ∧ may (st (.scat .f32 .rne false) b) b ∧
    b.key % 64 = 0 ∧ scatBlock .f32 .rne false b (s0.word b.key 64) = none ∧
    (let y := s0.setBytes [(dev, 1)]; (scatBlock .f32 .rne false b (y.word b.key 64)).isSome = true) ∧
    ((s0.owner 0).1 = (st (.scat .f32 .rne false) b).uid ∧ (s0.core 0).task.isSome = true ∧ (s0.ctx 0).run ≠ .free) ∧
    ({ st (.scat .f32 .rne false) b with uid := 9 }).uid ≠ (s0.owner 0).1 ∧
    (∀ e ∈ s0.cores, e.2.packets = []) ∧ (∀ n ∈ [10, 11], s0.linkDown n = false) ∧
    ({ s0 with links := [(10, { Link.full with down := true })] }).linkDown 10 = true := by
  decide +kernel

/-- A store whose entry of its queue has an uncorrectable error. -/
theorem test_witness_bad_entry :
    let p := { Part.of dev 4 0x10000 0 with bytes := keyed dev [1, 2, 3, 4] }
    let f := { aFlight 0 .store p with isStore := true }
    let y : State := { flying [f] s0 with ueCmds := [0] }
    y.flight 0 = some f ∧ y.mayWrite f 0 p = true ∧ s0.ueCmds = [] := by
  decide +kernel

theorem test_witness_posted_packets :
    let k : Packet := ⟨8, 5, 0, hostAt, 4, 0, [], [], .hostPosted, none, [], .none⟩
    let y := s0.modCore 0 (fun x => { x with copies := [aCopy], packets := [k] })
    let z := s0.modCore 0 (fun x => { x with copies := [aCopy], packets := [{ k with dstKey := 3 * 2 ^ 44 }] })
    0 ∈ y.coreNums ∧ (y.core 0).packets = [k] ∧ y.copy 0 k.cmd = some aCopy ∧ aCopy.core = 0 ∧ k.stage = .hostPosted ∧
    isHost k.dstKey = true ∧ (∀ e ∈ y.cores, e.1 = 0) ∧ aCopy.counter ≠ 0 ∧ z.copy 0 5 = some aCopy ∧
    isHost (3 * 2 ^ 44) = false := by
  decide +kernel

theorem test_witness_atomics_at_home :
    let at_ := fun (f : Flight) (p : Part) => atPart (flying [f] s0) f p ∧ sent f p = true ∧ (flying [f] s0).ready f p = true
    let p := { Part.of dev 4 0x10000 0 with a := 3 }
    let q := { Part.of hostAt 4 0 0 with a := 3 }
    let c := { Part.of dev 8 0x10000 0 with a := 3 }
    let f := fun p => { aFlight 0 (.atom .add .n32) p with isLoad := true, isStore := true }
    let g := fun e => { aFlight 0 (.cntadd e) c with isStore := true }
    at_ (f p) p ∧ isHost p.key = false ∧ at_ (f q) q ∧ isHost q.key = true ∧ (f q).hostTurn 0 = true ∧
    (∀ e ∈ [false, true], at_ (g e) c ∧ (flying [g e] s0).ctrUps = []) ∧
    (∀ act ∈ [CtrAct.add 1, .err 5],
      let u : CtrUp := ⟨3, 0, 0, 0x10000, act, .control 0, true, 0, 0, none, none, [], [], [], .none⟩
      let y := { sT with ctrUps := [u] }
      y.ctrUps.find? (fun x => x.id = u.id) = some u ∧ y.mayUpdate u = true ∧
        (y.ctrPlace u).toOption.map (fun pl => y.maySend u.hold u.port (.update u.id) (y.pieceSlices u.asid [⟨u.va, pl.key, 8⟩])
          && (y.pieceSlices u.asid [⟨u.va, pl.key, 8⟩]).all
            (fun k => decide ((y.slice k).tracker.length + (y.slice k).tickets.length < 64))) = some true) := by
  decide +kernel

/-- A vector atomic with two lanes on one word. -/
def twoLanes : Flight :=
  let p := { Part.of dev 4 0x10000 0 with a := 3 }
  { aFlight 0 (.atom .add .n32) p with isLoad := true, isStore := true, parts := [p, p] }

theorem test_witness_earlier_lane :
    (flying [twoLanes] s0).flight 0 = some twoLanes ∧ (twoLanes.part 1).map (fun p => p.key) = some dev ∧
      twoLanes.parts.take 1 ≠ [] ∧ ∀ q ∈ twoLanes.parts.take 1, q.done = false ∧ q.key = dev := by
  decide +kernel

theorem test_witness_watches :
    let wait := { aFlight 0 (.waitc 2 none) (Part.of dev 8 0x10000 0) with isLoad := true, acquire := true }
    let y := fun n => flying [wait] (s0.setBytes [(dev, n)])
    let late := fun x => { wait with resendAt := some 0, withdraw := some x }
    (∀ n ∈ [0, 2], atPart (y n) wait (Part.of dev 8 0x10000 0) ∧ (y n).mayRead wait (Part.of dev 8 0x10000 0) = true ∧
      (y n).forward wait (Part.of dev 8 0x10000 0) = .clear) ∧
    watchTest wait.op ((y 2).word dev 8) = some 0 ∧ watchTest wait.op ((y 0).word dev 8) = none ∧
    (∀ x ∈ [Why.limit, .preempt], s0.resendNow (late x) = true ∧ (late x).arrived = true ∧ (late x).withdraw = some x ∧
      s0.reaches (late x) dev = true) ∧
    (∀ x ∈ [3, 4], let g := { aFlight 0 (.waitf .n32 .eq 3 x) (Part.of dev 4 0x10000 0) with isLoad := true, acquire := true }
      atPart (flying [g] (s0.setBytes [(dev, 7)])) g (Part.of dev 4 0x10000 0) ∧
      (flying [g] (s0.setBytes [(dev, 7)])).mayRead g (Part.of dev 4 0x10000 0) = true ∧
      watchTest g.op ((s0.setBytes [(dev, 7)]).word dev 4) = if x = 3 then some 0 else none) := by
  decide +kernel

theorem test_witness_granules :
    let g := fun clr => aFlight 0 (.ldf clr) (Part.of pad 4 0 0)
    let p := { Part.of pad 4 0 0 with bytes := keyed pad [1, 2, 3, 4] }
    let f := { aFlight 0 .stf p with isStore := true }
    (∀ clr ∈ [false, true], atPart (flying [g clr] s0) (g clr) (Part.of pad 4 0 0) ∧ sent (g clr) (Part.of pad 4 0 0) = true ∧
      (flying [g clr] s0).ready (g clr) (Part.of pad 4 0 0) = true ∧
      s0.resendNow { g clr with resendAt := some 0 } = true ∧
      ∀ x ∈ [Why.limit, .preempt], ({ g clr with parked := some 0, withdraw := some x } : Flight).arrived = true) ∧
    s0.tagFull pad = true ∧ (s0.setTag pad false).tagFull pad = false ∧
    atPart (flying [f] s0) f p ∧ sent f p = true ∧ (flying [f] s0).ready f p = true ∧
    (p.bytes.map (fun e => e.1)).Pairwise (· ≠ ·) := by
  decide +kernel

/-- Two LDFs wait at a granule, the second of them before a third; one that names the share of a core with no task. -/
theorem test_witness_granule_waiters :
    let f := fun n clr => { aFlight n (.ldf clr) (Part.of pad 4 0 0) with isLoad := true, parked := some (10 - n) }
    let y := flying [f 0 false, f 1 true, f 2 false] (s0.setTag pad false)
    let waits := y.flights.filter (fun f =>
      f.parked.isSome && !f.allDone && isLdf f.op && f.parts.any (fun p => granule p.key = granule pad))
    let away := { aFlight 0 (.ldf false) (Part.of (scratchKey 1 0) 4 0 0) with isLoad := true, resendAt := some 0 }
    (y.checkDiff = [] ∧ y.stale = [] ∧ y.ueSectors = []) ∧ (y.flights.map (fun f => f.id)).Pairwise (· ≠ ·) ∧
    (waits.map (fun f => f.parked)).Pairwise (· ≠ ·) ∧ (∀ f ∈ waits, ∃ p ∈ f.parts, f.parts = [p] ∧ y.reaches f p.key = true) ∧
    (∃ h ∈ waits, h.op = .ldf true ∧ h.parked.getD 0 < (f 0 false).parked.getD 0) ∧
    (¬∃ h ∈ waits, h.op = .ldf true ∧ h.parked.getD 0 < (f 2 false).parked.getD 0) ∧
    s0.reaches away (scratchKey 1 0) = false ∧ isLdf away.op = true ∧ s0.resendNow away = true ∧ away.isLoad = true ∧
    away.isStore = false := by
  decide +kernel

/-- The table of a home with 64 waits in it: the next is refused. -/
theorem test_witness_watch_table :
    let f := fun n => { aFlight n (.waitc 2 none) (Part.of dev 8 0x10000 0) with parked := some n }
    let y := { s0 with flights := (List.range 65).map (fun n => if n = 0 then { f 0 with parked := none } else f n), nextId := 99 }
    64 ≤ (y.flights.filter (fun g => isWatch g.op && g.parked.isSome && !g.allDone &&
      g.parts.any (fun q => y.homeId g q = y.homeId (f 0) (Part.of dev 8 0x10000 0)))).length := by
  decide +kernel

def agedAt : Nat := 2 ^ 44 + 0x20000

theorem test_witness_aged_stores :
    let p := { Part.of agedAt 64 0x20000 0 with bytes := keyed agedAt (leBytes 64 7) }
    let f := fun (itr : Nat) => { aFlight 0 (.agst (BitVec.ofNat 32 itr)) p with isStore := true }
    (∀ itr ∈ [1, 0x80000000], atPart (flying [f itr] sM) (f itr) p ∧ sent (f itr) p = true ∧
      (flying [f itr] sM).ready (f itr) p = true) ∧
    sM.isAged agedAt = true ∧ p.key % 64 = 0 ∧ (p.bytes.map (fun e => e.1)).Pairwise (· ≠ ·) ∧
    (∀ e ∈ p.bytes, e.1 / 64 = p.key / 64) := by
  decide +kernel

def anAgld (wait : Bool) (itr : Nat) (p : Part) : Flight :=
  { aFlight 0 (.agld wait (BitVec.ofNat 32 itr) 1 1 2 (ops .w4 80) 1) p with isLoad := true }

/-- An AGLD by b at an aged block may be made in y. -/
abbrev agldAt (y : State) (wait : Bool) (itr b : Nat) : Prop :=
  let p := { Part.of agedAt 64 0x20000 0 with b := b }
  let f := anAgld wait itr p
  atPart (flying [f] y) f p ∧ sent f p = true ∧ (flying [f] y).ready f p = true ∧ (flying [f] y).forward f p = .clear

theorem test_witness_aged_loads :
    let m : MirrorCopy := ⟨agedAt / 256, 0, [0, 0, 0, 0], 0, [], [], []⟩
    let near := sM.modDie 0 (fun d => { d with mirror := [m] })
    let z := Part.of agedAt 64 0x20000 0
    agldAt near true 1 2 ∧ (near.die 0).current (agedAt / 256) = some m ∧ bitAt 2 0 = false ∧ bitAt 2 1 = true ∧
    freshFor 0 1 1 = true ∧ m.stamps ≠ [] ∧ (m.keys = [] ∧ m.diff = [] ∧ m.ue = []) ∧
    (∀ x ∈ [(true, 1), (true, 2), (false, 2)], agldAt sM x.1 x.2 0 ∧
      (sM.partSlice (anAgld x.1 x.2 z) z).isSome = true) ∧ bitAt 0 1 = false ∧
    (∀ k ∈ (sM.partSlice (anAgld true 2 z) z).toList,
      sM.parkedAt k + (sM.slice k).waitHeld.length + (sM.slice k).waitTickets.length < 32) ∧
    agldAt { sM with aged := [] } true 1 0 ∧ ({ sM with aged := [] }).isAged agedAt = false ∧
    freshFor 0 2 1 = false ∧ (anAgld true 2 { z with refused := 1 }).arrived = true := by
  decide +kernel

theorem test_witness_fills :
    let g : L1FillReq := ⟨3, dev / 256, 0, true, false⟩
    let y := s0.modCore 0 (fun k => { k with fills := [g, { g with id := 4, cancelled := true }] })
    let f : MirrorFillReq := ⟨3, ⟨dev / 256, 0, [], 0, [], [], []⟩, false, false⟩
    let z := s0.modDie 0 (fun d => { d with mfills := [f, { f with id := 4, cancelled := true }], hcfg := 0x100 })
    let p := { Part.of dev 4 0x10000 0 with refused := 1, sendAt := some 0 }
    let t := { Part.of dev 4 0x10000 0 with refused := 2, ticket := true, noticed := true }
    let l := fun p => { aFlight 0 .load p with isLoad := true }
    (y.core 0).fills.find? (fun x => x.id = 3) = some g ∧ ((y.core 0).fills.find? (fun x => x.id = 4)).isSome = true ∧
    0 < (y.core 0).l1ways ∧ (y.core 0).holdsL1 g.line = false ∧ y.flights = [] ∧ (z.die 0).mfills.find? (fun x => x.id = 3) = some f ∧
    ((z.die 0).mfills.find? (fun x => x.id = 4)).isSome = true ∧ f.copy.gen = (z.die 0).gen ∧
    0 < bitsAt (z.die 0).hcfg.toNat 8 6 ∧ atPart (flying [l p] s0) (l p) p ∧ (flying [l p] s0).resendDue (l p) 0 p = true ∧
    atPart (flying [l t] s0) (l t) t ∧ (flying [l t] s0).resendDue (l t) 0 t = false := by
  decide +kernel

/-! Witnesses of the statements about engine events, power, Prism, schedulers, ports, links and the boot. -/

def withCopies (l : List CopyCmd) (p : List Packet) (y : State) : State :=
  y.modCore 0 (fun k => { k with copies := l, packets := p })

def aPacket : Packet :=
  { id := 8, cmd := 5, dstVa := BitVec.ofNat 64 (localBase + 0x1000), dstKey := pad + 0x1000, len := 64, off := 0
    src := [⟨pad, 64, BitVec.ofNat 64 localBase, none⟩], data := List.replicate 64 7, stage := .ready, dstPage := none
    srcPages := [], hold := .none }

def trapOf {ε α : Type} : Except ε α → Option ε
  | .error e => some e
  | .ok _ => none

theorem test_witness_packet_issue :
    let y := withCopies [aCopy] [] s0
    let bad := { aCopy with src := BitVec.ofNat 64 (peerBase + 150 * 2 ^ 21) }
    let z := withCopies [bad] [] s0
    y.copyHead 0 = some aCopy ∧ aCopy.core = 0 ∧ y.mayIssue aCopy = true ∧ (∀ d ∈ (y.core 0).copies, d.id = aCopy.id → d = aCopy) ∧
    (∃ r, y.checkPacket aCopy aCopy.nextPieces = .ok r) ∧ z.copyHead 0 = some bad ∧ z.mayIssue bad = true ∧
    (trapOf (z.checkPacket bad bad.nextPieces)).map (fun e => (e.event, e.isMiss)) = some (none, false) ∧ bad.counter ≠ 0 ∧
    s0.ueCmds = [] := by
  simp only [← ok_iff]
  decide +kernel

/-- Its die's TLB holds the page of the engines' counter. -/
def sD : State := s0.modDie 0 (fun d => { d with tlb := [page 0x10000 (2 ^ 44 + 0x10000)] })

/-- What the counter of a failed command meets: a place, or a translation that is still to be walked for. -/
theorem test_witness_packet_failure :
    let bad := { aCopy with src := BitVec.ofNat 64 (peerBase + 150 * 2 ^ 21) }
    let cold := withCopies [bad] [] s0
    let warm := withCopies [bad] [] sD
    let up := fun (c : CopyCmd) => { c.update (.err 9) with xl := c.xl }
    (∀ y ∈ [cold, warm], y.copyHead 0 = some bad ∧ y.mayIssue bad = true ∧
      (trapOf (y.checkPacket bad bad.nextPieces)).map (fun e => (e.event, e.isMiss)) = some (none, false)) ∧
    [cold, warm].map (fun y => ((trapOf (y.ctrPlace (up bad))).map (fun e => e.isMiss), isOk (y.ctrPlace (up bad)))) =
      [(some true, false), (none, true)] ∧ bad.counter ≠ 0 ∧ (sD.checkDiff = [] ∧ sD.stale = [] ∧ sD.ueSectors = []) := by
  decide +kernel

/-- Where a packet may land or read: near the core, and with room at its slice. -/
def nearBy (y : State) (q : Piece) : Bool :=
  (isGlobal q.key || isScratch q.key) && y.shareOk aCopy.who aCopy.uid q.va q.key &&
    (y.pieceSlice aCopy.asid q).all (fun k => decide ((y.slice k).tracker.length + (y.slice k).tickets.length < 64))

theorem test_witness_packet_landing :
    let issued := { aPacket with stage := .issued, data := [] }
    let y := fun p => withCopies [aCopy] [p] s0
    let red := { aCopy with red := some (.i32, none), dst := 0x10000, esz := 2, len0 := 16 }
    let filling := { aCopy with fe := true }
    (∀ p ∈ [aPacket, issued, { aPacket with dstKey := dev }, { aPacket with dstKey := hostAt },
      { aPacket with dstKey := 2 * 2 ^ 44 }, { aPacket with dstKey := 3 * 2 ^ 44 }, { aPacket with stage := .peerSent }],
      (y p).packet 0 p.id = some p ∧ (y p).copy 0 p.cmd = some aCopy ∧ (y p).packetFree aCopy p = true) ∧
    aCopy.ranked = none ∧ issued.unread ≠ [] ∧ (∀ x ∈ issued.unread, nearBy (y issued) ⟨x.va, x.key, x.len⟩ = true) ∧
    nearBy (y aPacket) aPacket.dst = true ∧ nearBy (y aPacket) ⟨0x10000, dev, 64⟩ = true ∧
    (filling.fe = true ∧ isScratch aPacket.dstKey = true ∧ 0 < aPacket.len ∧
      (withCopies [filling] [aPacket] s0).copy 0 aPacket.cmd = some filling ∧
      (withCopies [filling] [aPacket] s0).packetFree filling aPacket = true) ∧
    aPacket.data.length = aPacket.len ∧ isHost hostAt = true ∧ s0.linkDown hostLink = false ∧
    (isHost (2 * 2 ^ 44) = false ∧ isGlobal (2 * 2 ^ 44) = false ∧ isScratch (2 * 2 ^ 44) = false) ∧
    (∀ k ∈ [2 * 2 ^ 44, 3 * 2 ^ 44], s0.linkDown (portOf k + 10) = false) ∧ s0.linkUp (2 * 2 ^ 44) = true ∧
    ({ s0 with links := [(portOf (2 * 2 ^ 44) + 10, { Link.full with down := true })] }).linkUp (2 * 2 ^ 44) = false ∧
    aCopy.counter ≠ 0 ∧ aCopy.fe = false ∧ isScratch dev = false ∧ red.ranked = none ∧ aPacket.off ≤ 15 * (32 / 8) ∧
    15 * (32 / 8) - aPacket.off + 32 / 8 ≤ aPacket.len ∧ (s0.checkDiff = [] ∧ s0.stale = [] ∧ s0.ueSectors = []) := by
  decide +kernel

theorem test_witness_ranked :
    let c := fun r m => { aCopy with red := some (.f32, some (r, m)), dst := 0x10000, esz := 2, len0 := 16 }
    let p := { aPacket with dstKey := dev, dstVa := 0x10000 }
    let y := fun r m => withCopies [c r m] [p] s0
    let sl := (s0.pieceSlice 0 p.dst).getD 0
    let e : Staging := ⟨sl, dev, 64, 1, [⟨0, 3, 9, 9, 0, .f32, 0, List.replicate 64 0⟩]⟩
    let t := { y 1 1 with staging := [e] }
    let u := { y 1 2 with staging := [{ e with rmax := 2 }] }
    (∀ x ∈ [(0, 1), (1, 1), (1, 2)], (c x.1 x.2).ranked = some (.f32, x.1, x.2) ∧ x.1 ≤ x.2 ∧ p.stage = .ready ∧
      (y x.1 x.2).packetFree (c x.1 x.2) p = true ∧ (y x.1 x.2).packet 0 p.id = some p ∧
      (y x.1 x.2).copy 0 p.cmd = some (c x.1 x.2) ∧ nearBy (y x.1 x.2) p.dst = true) ∧
    (∀ z ∈ [t, u], z.packetFree (c 1 2) p = true ∧ nearBy z p.dst = true) ∧
    ((y 0 1).staging = [] ∧ (y 0 1).stagedAt sl + ((y 0 1).slice sl).stageHeld.length +
      ((y 0 1).slice sl).stageTickets.length < 64) ∧
    (∃ g ∈ u.staging, g.key / 256 = p.dstKey / 256 ∧ g.rmax ≠ 1) ∧
    (∀ g ∈ t.staging, g.key / 256 = p.dstKey / 256 → g.rmax = 1) ∧
    t.staging.find? (fun g => g.key = p.dstKey && g.len = p.len && g.rmax = 1) = some e ∧ (∀ q ∈ e.parts, q.rank ≠ 1) ∧
    ({ e with parts := e.parts ++ [⟨1, 0, 5, 8, 0, .f32, 0, p.data⟩] } : Staging).full = true ∧
    e.parts.find? (fun q => q.rank = 0) = some ⟨0, 3, 9, 9, 0, .f32, 0, List.replicate 64 0⟩ ∧
    ({ e with rmax := 2, parts := e.parts ++ [⟨1, 0, 5, 8, 0, .f32, 0, p.data⟩] } : Staging).full = false := by
  decide +kernel

theorem test_witness_leave_and_power :
    let c := { aCopy with leave := .needed }
    let m := { aMat with leave := .needed }
    let y := withCopies [c] [] (s0.modCore 0 (fun k => { k with mats := [m] }))
    let r : GovReq := ⟨3, .leave 0 0 2, 20, 1, none⟩
    let q : GovReq := ⟨4, .copy 0 5, 3, 2, none⟩
    let x : GovReq := ⟨5, .mat 0 6, 10, 1, none⟩
    let d := fun b => s0.modDie 0 (fun d => { d with reqs := [r, q, x], budget := b })
    let wait := (d 0).setContest 15 { Contest.none with entries :=
      [⟨7, 0, 0, 0, 1, false, true, 0, 0, 15, 0, none, none, 0, 0⟩] }
    let gone := fun w => s0.modDie 0 (fun d => { d with reqs := [{ r with withdraw := some w }] })
    y.copyHead 0 = some c ∧ y.matHead 0 = some m ∧ (withCopies [aCopy] [] s0).copyHead 0 = some aCopy ∧
    aCopy.leave ≠ .needed ∧ aMat.leave ≠ .needed ∧ ((d 9).die 0).reqs = [r] ++ q :: [x] ∧ (∀ z ∈ [r], z.prio < q.prio) ∧
    (∀ z ∈ [x], z.prio ≤ q.prio) ∧ (q.cost : Int) ≤ (((d 3).die 0).budget : Int) - ((d 3).die 0).basel - ((d 3).die 0).used ∧
    ¬(q.cost : Int) ≤ (((d 2).die 0).budget : Int) - ((d 2).die 0).basel - ((d 2).die 0).used ∧
    (∃ e ∈ (wait.contest 15).entries, e.gov = true ∧ e.die = 0) ∧ ((d 0).contest 15).entries = [] ∧
    (∀ b ∈ [0, 3, 9], ((d b).die 0).phase = .trained) ∧ (State.reset.die 1).phase ≠ .trained ∧ (s0.die 0).reqs = [] ∧
    (∀ w ∈ [Why.limit, .preempt], (∃ z ∈ ((gone w).die 0).reqs, z.who = .leave 0 0 2 ∧ z.withdraw = some w) ∧
      (∃ q ∈ (((gone w).grantAll 0 1).die 0).reqs, q.id = 3) ∧
      (((((gone w).modDie 0 (fun d => { d with budget := 20 })).grantAll 0 1).die 0).reqs = [])) := by
  decide +kernel

/-- What the statement about a latch asks of a round and its contest, and who of the round still drives. -/
def latchOk (y : State) (x : Contest) (l : List PrismEntry) : Bool :=
  let all := l ++ x.entries
  let same := fun (a b : PrismEntry) => decide ({ a with regAt := b.regAt, withdraw := b.withdraw } = b)
  all.all (fun a => decide (a.ctx < 16) && decide ((y.core a.core).wbs = [])) &&
    l.all (fun a => all.all (fun b => !decide (a.id = b.id) || same a b)) &&
    all.all (fun a => all.all (fun b => a.gov || b.gov || !decide (a.core = b.core) ||
      !(decide (a.ctx = b.ctx) || decide (a.wb = b.wb)) || decide (a.id = b.id))) &&
    decide ((x.entries.map (fun e => e.id)).Nodup)

def driving (y : State) (l : List PrismEntry) : List Nat :=
  (l.filter (fun e => decide ((y.die e.die).phase ≠ .fenced))).map (fun e => e.id)

/-- A round still won; one whose die is fenced off; one that a governor wins, another die giving. -/
theorem test_witness_latch :
    let e : PrismEntry := ⟨4, 0, 0, 0, 9, false, false, 0, 2, 15, 0, some 0, none, 8, 0⟩
    let f := { e with id := 5, ctx := 1, wb := 3, hold := true, uid := 6 }
    let g := { e with id := 7, gov := true }
    let y := fun l t => { s0.setContest 3 { Contest.none with entries := [e, f, g], round := some ⟨0, l⟩ } with time := 45 * t }
    let off := State.modDie (y [f] 44) 0 (fun d => { d with phase := .fenced })
    let rich := State.modDie (y [g] 44) 1 (fun d => { d with phase := .trained, budget := 1250, basel := 0, used := 0 })
    ((y [f] 43).planeCycle < 0 + 44 ∧ 0 + 44 ≤ (y [f] 44).planeCycle ∧ 0 + 44 ≤ off.planeCycle ∧ 0 + 44 ≤ rich.planeCycle) ∧
    driving (y [e, f] 44) [e, f] = [4, 5] ∧ driving off [f] = [] ∧ driving rich [g] = [7] ∧
    latchOk (y [e, f] 44) ((y [e, f] 44).contest 3) [e, f] = true ∧ latchOk rich (rich.contest 3) [g] = true ∧
    (f.hold = true ∧ e.regAt.isSome = true ∧ e.hold = false ∧ ∃ n ∈ ((y [f] 44).contest 3).entries, n.id = f.id) ∧
    (g.gov = true ∧ ∃ n ∈ (rich.contest 3).entries, n.id = g.id) ∧ g.die ≠ 1 ∧ (rich.die 1).phase = .trained ∧
    1250 ≤ (rich.die 1).budget ∧ (250 : Int) ≤ ((rich.die 1).budget : Int) - (rich.die 1).basel - (rich.die 1).used ∧
    0 < (5000 - (rich.die 0).budget) / 250 := by
  decide +kernel

theorem test_witness_prism :
    let e : PrismEntry := ⟨4, 0, 0, 0, 9, false, false, 0, 2, 15, 0, none, none, 8, 0⟩
    let f : PrismEntry := { e with id := 5, ctx := 1, hold := true, regAt := some 0, uid := 6, withdraw := some .limit }
    let y := s0.setContest 3 { Contest.none with entries := [e, f] }
    let h := fun u => s0.setContest 3 { Contest.none with entries := [e, { e with id := 6, hold := true }], holder := some ⟨u, 1, 0, 0, 0⟩ }
    let due := { y with time := 45 * 128 }
    let r := fun t => { s0.setContest 3 { Contest.none with entries := [e, f], round := some ⟨0, [f]⟩ } with time := 45 * t }
    ((y.contest 3).entries.find? (fun e => e.id = 4 && e.regAt.isNone) = some e ∧ (y.contest 3).holder = none) ∧
    (∀ u ∈ [0, 1], ((h u).contest 3).entries.find? (fun e => e.id = 4 && e.regAt.isNone) = some e ∧
      ((h u).contest 3).entries.find? (fun e => e.id = 6 && e.regAt.isNone) = some { e with id := 6, hold := true }) ∧
    (due.planeCycle % 128 = 0 ∧ (due.contest 3).round = none ∧ ∃ n ∈ (due.contest 3).entries, n.regAt = some 0 ∧
      0 < due.planeCycle) ∧ y.planeCycle = 0 ∧ (s0.core 0).wbs = [] ∧
    (y.contest 3).entries.find? (fun e => e.id = 5) = some f ∧ f.withdraw = some .limit ∧ f.regAt.isSome = true ∧
    (y.contest 3).round = none ∧ ((r 44).contest 3).entries.find? (fun e => e.id = 5) = some f := by
  decide +kernel

def aTask (prio : Nat) : Task := (s0.mine.task.getD ⟨0, 0, 0, 0, 0, 0, 0, 0, false, 0, 0, 0, 0, 0, Eff.zero, [], false, 0, false, false⟩
  : Task) |> fun t => { t with prio := prio, rcb := 0x10100, dies := 255 }
def anEntry (n prio : Nat) : QEntry := ⟨aTask prio, 0, n, false, none, none, prio⟩

theorem test_witness_dispatch :
    let q := fun l => sS.modDie 0 (fun d => { d with queue := l })
    let y := q [anEntry 1 2, anEntry 2 5, anEntry 3 5]
    let prio := fun (e : QEntry) => min 15 (e.task.prio + (y.cycle - e.firstQ) / 65536)
    let stay := { anEntry 2 5 with resident := some 0 }
    let sus := { anEntry 2 5 with suspended := true, resident := some 1 }
    (y.phase = .full ∧ (y.die 0).phase = .trained) ∧ s0.phase ≠ .reset ∧ State.reset.phase ≠ .full ∧
    (y.die 0).queue = [anEntry 1 2] ++ anEntry 2 5 :: [anEntry 3 5] ∧
    ((y.core 0).task.isSome = true ∧ (y.core 1).task = none ∧ (y.core 1).resident = none) ∧
    (∀ e ∈ [anEntry 1 2], prio e < prio (anEntry 2 5)) ∧ (∀ e ∈ [anEntry 3 5], prio e = prio (anEntry 2 5)) ∧
    (trapOf (s0.effNow 0 (anEntry 2 5).task)).map (fun e => e.event) = some none ∧
    (trapOf (State.effNow { y with checkDiff := [((2 ^ 44 + 0x10100) / 64, 1)] } 0 (anEntry 2 5).task)).map
      (fun e => e.event.isSome) = some true ∧
    (y.effNow 0 (anEntry 2 5).task).toOption.map (fun l => (effOf l).cmax) = some 0 ∧ (q [stay]).canDispatch 0 stay = false ∧
    (q [sus]).canDispatch 0 sus = true ∧ (y.core 5).task = none := by
  decide +kernel

theorem test_witness_time_slices :
    let q := fun t n c => { s0.modCore 0 (fun k => { k with task := some t }) with cycle := c }
      |>.modDie 0 (fun d => { d with queue := [anEntry 1 n] })
    let t := { aTask 3 with wsp := 64, eff := { (aTask 3).eff with quantum := 1 } }
    let out := { t with sliceOut := true }
    (t.sliceOut = false ∧ t.eff.quantum ≠ 0 ∧ t.started + t.eff.quantum * 65536 ≤ (q t 2 65536).cycle) ∧
    ¬t.started + t.eff.quantum * 65536 ≤ (q t 2 65535).cycle ∧ (q t 2 0).runningOn 0 = [(0, t)] ∧
    (out.wsp ≠ 0 ∧ out.sliceOut = true ∧ ∃ e ∈ ((q out 3 0).die 0).queue, out.prio ≤ min 15 (e.task.prio + 0)) ∧
    (∀ e ∈ ((q out 2 0).die 0).queue, ¬out.prio ≤ min 15 (e.task.prio + 0)) ∧ out.pending = false ∧
    { t with pending := true }.pending = true := by
  decide +kernel

/-- A small task, parked, whose save area lies in plain memory. -/
def sP (wsp : Word) : State :=
  let t := sS.modCore 0 (fun k => { k with
    g := .none, h := .none, task := some { aTask 3 with wsp := wsp, pending := true } })
  t.modCtx 0 (fun x => { x with run := .parked false 0x10800 0 0, v := .none, s := Window.alloc 1 })

theorem test_witness_suspend :
    let can := fun (y : State) => decide (y.shareTo 0 0 ≠ .wait) && (List.range 11).all (fun k =>
      decide ((y.ctx (ctxId 0 k)).run = .free) || (y.released (ctxId 0 k) y.nextId allColours .pkg &&
        decide ((y.ctx (ctxId 0 k)).run = .parked false 0x10800 0 0)))
    let u := (sP 0x14000).putImage 0 0 0x14000
    can (sP 0x14000) = true ∧ can (sP 0x50000) = true ∧ s0.mine.task.isSome = true ∧ (s0.core 1).task = none ∧
    ((sP 0x50000).putImage 0 0 0x50000).2.map (fun e => e.2.code) = some 9 ∧ (sP 0x14000).shareTo 0 0 = .resident ∧
    (sP 0x14000).badImage 0 = false ∧ State.badImage { State.modCtx (sP 0x14000) 0 (fun x => { x with run := .parked false 0x10800 0 1 }) with
      ueRegs := [(regKey 0 (.s, 1), true)] } 0 = true ∧
    u.2 = none ∧ (u.1.putHeader 0 0 0x14000 .resident).2 = none := by
  decide +kernel

/-- What becomes of a resumption: 0 it goes on, 1 its image is rejected, 2 a sector does not verify. -/
def wayBack (x : State × Option Lost) : Nat :=
  match x.2 with
  | none => 0
  | some .image => 1
  | some (.bad ..) => 2

/-- A suspended task, and an image of it that is valid and holds no context. -/
def eP : QEntry := { anEntry 2 5 with task := { aTask 5 with wsp := 0x14000 }, suspended := true, resident := some 0 }
def sV : State := sS.setBytes [(2 ^ 44 + 0x14001, 1)]

theorem test_witness_resume : wayBack (sV.restore 0 eP eP.task) = 0 := by
  decide +kernel

theorem test_witness_failed_resume : wayBack (sS.restore 0 eP eP.task) = 1 ∧
    wayBack (({ sS with checkDiff := [((2 ^ 44 + 0x14000) / 64, 1)] }).restore 0 eP eP.task) = 2 := by
  decide +kernel

theorem test_witness_records :
    let x := s0.me
    x.mm.k < 2 ^ 64 ∧ x.mm.sa < 2 ^ 32 ∧ x.mm.sb < 2 ^ 32 ∧ x.mm.sc < 2 ^ 32 ∧ x.mm.sd < 2 ^ 32 ∧ 1 ≤ x.mm.m ∧ x.mm.m ≤ 32 ∧
      1 ≤ x.mm.n ∧ x.mm.n ≤ 32 ∧ x.v.blocks ≤ 32 ∧ x.s.blocks ≤ 32 := by
  decide +kernel

/-! Witnesses of the statements about steals, ports, links, boot, rows and the step. -/

theorem test_witness_steals :
    let e := { anEntry 1 3 with task := { (aTask 3) with dies := 0 } }
    let fit := fun (y : State) (v : Nat) => (y.die v).queue.filter (fun e => !e.suspended && !e.task.bound &&
      (decide (e.task.dies = 0) || bitAt e.task.dies.toNat 0))
    let y := fun x => (s0.modDie 0 (fun d => { d with steal := x })).modDie 1 (fun d => { d with phase := .trained, queue := [e] })
    let busy := fun (z : State) => { z with cores := (List.range 144).foldl (fun l k => Tab.set Core.idle l (144 + k)
      { Core.idle with resident := some 7 }) z.cores }
    let z := busy (y (.asking [1]))
    (∀ x ∈ [Steal.idle, .asking [], .asking [1, 4], .asking [1], .retryAt 3], ((y x).die 0).steal = x) ∧
    (z.die 0).steal = .asking [1] ∧ (z.die 1).phase = .trained ∧ fit z 1 = [e] ∧ (z.die 0).queue.length < 4096 ∧
    (∀ k, k < 144 → ¬((z.core (144 + k)).task = none ∧ (z.core (144 + k)).resident = none)) ∧
    ((y (.asking [4])).die 4).queue = [] ∧ ((z.die 1).queue.map (fun e => e.arrival)).Pairwise (· ≠ ·) ∧
    (y (.retryAt 3)).baseCycle < 3 ∧ 0 ≤ (y (.retryAt 0)).baseCycle ∧ ((y (.retryAt 0)).die 0).queue = [] ∧
    (((y (.retryAt 0)).core 5).task = none ∧ ((y (.retryAt 0)).core 5).resident = none) ∧
    (∀ x ∈ [Steal.asking [1], .retryAt 0], ((y x).modDie 0 (fun d => { d with queue := [e] })).die 0 =
      { (y x).die 0 with queue := [e] }) := by
  decide +kernel

/-- Ports open: 0 and 1 with physical addresses, 2 with those of address space 0. -/
def sIO : State :=
  let t := sM.modDie 0 (fun d => { d with tlb := [page 0x10000 (2 ^ 44 + 0x10000), page 0x20000 (2 ^ 44 + 0x20000)] })
  { t with iocfg := [(0, 0xC000000000000000), (1, 0xC000000000000000), (2, 0x8000000000000000)]
           inga := [(0, BitVec.ofNat 64 (2 ^ 63 + 2 ^ 44))], ingl := [(0, 0x100000)], ingc := [(0, 0x10000)] }

def four : List Byte := [1, 2, 3, 4]
def devW : Word := BitVec.ofNat 64 dev
def goesOn : Host.Outcome State Fault Refusal → Bool
  | .next _ => true
  | _ => false

/-- There is room at the slices of a port's pieces. -/
abbrev portRoom (y : State) (port : Nat) (a : Acc) (l : List (Nat × List Byte)) : Prop :=
  ∀ q ∈ y.portPieces port a l, ∀ k ∈ (y.pieceSlice (y.portSpace port) q).toList,
    (y.slice k).tracker.length + (y.slice k).tickets.length < 64

theorem test_witness_host_port :
    let agedAt := 2 ^ 44 + 0x20000
    let bad := { sIO with checkDiff := [(dev / 64, 1)] }
    let place := fun (x : Except TrapInfo Place) => x.toOption.map (fun p => p.key)
    let rd := fun (z : State) a => z.portPlaces 0 .copyRd (cutAt 256 a (List.replicate 4 0))
    bitAt (Tab.get 0 sIO.iocfg 0).toNat 63 = true ∧ bitAt (Tab.get 0 sM.iocfg 0).toNat 63 = false ∧ sIO.phase ≠ .reset ∧
    sIO.portPhys 0 = true ∧ (four ≠ [] ∧ dev % 64 + four.length ≤ 64) ∧
    (sIO.checkDiff = [] ∧ sIO.stale = [] ∧ sIO.ueSectors = []) ∧ sIO.isAged dev = false ∧ sIO.isAged agedAt = true ∧
    (match sIO.target dev with | .global d _ => decide ((sIO.die d).phase = .trained) | _ => false) = true ∧
    sIO.agedPiece 0 (dev, four) = none ∧ place (sIO.portPlace 0 .copyWr devW 4) = some dev ∧
    (trapOf (sIO.portPlace 0 .copyWr 0 4)).map (fun e => e.event) = some none ∧ sIO.agedPiece 0 (0, four) = none ∧
    sIO.agedPiece 0 (agedAt, four) = some agedAt ∧
    (∀ a ∈ [dev + 60, 2 ^ 44 + 0x20000], portRoom sIO 0 .copyWr (cutAt 64 a (four ++ four)) ∧
      portRoom sIO 0 .copyRd (cutAt 256 a (List.replicate 4 0)) ∧ portRoom sIO 0 .hostAtomic [(a, List.replicate 4 0)]) ∧
    isOk (rd sIO dev) = true ∧ (trapOf (rd sIO 0)).map (fun e => e.event) = some none ∧
    ((rd bad dev).toOption.map (fun q => q.any (fun x => decide (0 < x.2.2.length) && (bad.badSector (x.2.1.key / 64)).isSome)))
      = some true ∧ place (sIO.portPlace 0 .hostAtomic devW 4) = some dev ∧
    (trapOf (sIO.portPlace 0 .hostAtomic 0 4)).map (fun e => e.event) = some none := by
  decide +kernel

theorem test_witness_peer_and_storage_ports :
    let places := fun (a : Nat) => sIO.portPlaces 2 .copyWr (cutAt 64 a four)
    let aged := fun (a : Nat) => (cutAt 64 a four).filterMap (sIO.agedPiece 2)
    let holds := fun (addr : Word) (w : Nat) => bitAt (Tab.get 0 sIO.inga w).toNat 63 = true ∧
      bitsAt (Tab.get 0 sIO.inga w).toNat 20 37 * 2 ^ 20 ≤ addr.toNat ∧
      addr.toNat + four.length ≤ bitsAt (Tab.get 0 sIO.inga w).toNat 20 37 * 2 ^ 20 + (Tab.get 0 sIO.ingl w).toNat
    bitAt (Tab.get 0 sIO.iocfg 2).toNat 63 = true ∧ bitAt (Tab.get 0 sIO.iocfg 3).toNat 63 = false ∧
    aged 0x10000 = [] ∧ (places 0x10000).toOption.map (fun l => l.map (fun x => x.2.1.key)) = some [dev] ∧
    (trapOf (places 0x50000)).map (fun e => e.event) = some none ∧ aged 0x50000 = [] ∧ aged 0x20000 = [2 ^ 44 + 0x20000] ∧
    (∀ a ∈ [0x10000, 0x20000, 0x50000], portRoom sIO 2 .copyWr (cutAt 64 a four)) ∧
    bitAt (Tab.get 0 sIO.iocfg 1).toNat 63 = true ∧ bitAt (Tab.get 0 sM.iocfg 1).toNat 63 = false ∧ holds devW 0 ∧
    (∀ w, w < 4 → ¬holds 0 w) ∧ portRoom sIO 1 .copyWr (cutAt 64 dev four) ∧ Tab.get 0 sIO.ingc 0 ≠ 0 := by
  decide +kernel

theorem test_witness_links :
    let p := Part.of (2 ^ 44 + 2 ^ 40 + 64) 4 0x10000 0
    let f := { aFlight 1 (.atom .add .n32) p with parked := some 0, dst := some (v 0) }
    let g := { aFlight 2 .load p with parked := some 0 }
    let y := flying [f, g] s0
    Tab.get Link.full s0.links 0 = Link.full ∧ Link.full.down = false ∧
    (∀ x ∈ [f, g], y.flightCrosses 0 x = true ∧ y.crossing 0 x = [p]) ∧ f.losable = true ∧ g.losable = false ∧
    (s0.core f.core).task.isSome = true ∧ y.flight f.id = some f ∧
    (withCopies [aCopy] [{ aPacket with dstKey := 2 ^ 44 + 2 ^ 40 }] s0).otherTraffic ≠ [] := by
  decide +kernel

/-- Whatever path a request takes is one of the three. -/
theorem test_witness_fates (link n : Nat) : fateOf link n = .clear ∨ fateOf link n = .beyond ∨ fateOf link n = .onLink := by
  cases fateOf link n <;> simp

theorem test_witness_reach :
    (∀ d, d < 8 → (s0.die d).phase = .trained → d ∈ s0.reach 8 [0]) ∧ (∀ d, d < 8 → (State.reset.die d).phase ≠ .trained) := by
  decide +kernel

def anImage : DieImage :=
  ⟨[1], [2], ⟨0, 0, [], 0, 0, 0, 0, [(dev, four)], BitVec.allOnes 152, BitVec.allOnes 528⟩⟩

theorem test_witness_boot :
    let y := { State.reset with flash := [(0, some anImage)] }
    let z := { s0 with phase := .dim, dies := (List.range 8).map (fun d => (d, { s0.die d with
      phase := if d = 0 then .training else .fenced, stewardTcb := 0x10000 })) }
    let works := fun (n : Nat) (w : Nat) => (List.range n).filter (fun k => bitAt w k)
    Tab.get none y.flash 0 = some anImage ∧ Tab.get none y.flash 1 = none ∧ anImage.cfg.preload = [(dev, four)] ∧
    144 ≤ (works 152 anImage.cfg.cores.toNat).length ∧ 512 ≤ (works 528 anImage.cfg.slices.toNat).length ∧
    (z.die 0).phase = .training ∧ (s0.die 0).phase ≠ .training ∧ s0.phase ≠ .reset ∧ State.reset.phase = .reset ∧
    z.inDevice dev = true ∧ (∀ b ∈ [false, true], let y := { sS.modDie 0 (fun d => { d with stewardTcb := 0x10000 }) with
      checkDiff := if b then [((2 ^ 44 + 0x10000) / 64, 1)] else [] }
      isOk (y.steward 0) = !b ∧ (b = true → (trapOf (y.steward 0)).map (fun e => e.event) = some (some 2)) ∧ y.idleCores 0 ≠ []) ∧
    (trapOf (s0.steward 0)).map (fun e => e.event) = some none ∧ (s0.idleCores 0).head? = some 1 := by
  decide +kernel

/-- A die whose image is the measured one, and one without an image. -/
theorem test_witness_measured (h : Config.signatureOk anImage.bytes anImage.sig = true) :
    let y := { State.reset with flash := [(0, some anImage)], measurements := [(2, Config.sha384 anImage.bytes)] }
    Tab.get none y.flash 0 = some anImage ∧ Config.signatureOk anImage.bytes anImage.sig = true ∧
      Config.sha384 anImage.bytes = Tab.get 0 y.measurements (2 + 0) ∧ ∀ i : DieImage, Tab.get none y.flash 1 ≠ some i := by
  refine ⟨rfl, h, ?_, fun i e => ?_⟩
  · simp [Tab.get]
  · simp [Tab.get] at e

/-- Two FP16 blocks of zeros behind the engine's operands, and an FP32 block in lanes 0 to 15 of slices 0 to 7. -/
def sB : State :=
  let t := s0.setBytes (keyed (pad + 0x2000) [2])
  t.modCtx 0 (fun x => { x with lmask := 1, v := x.v.write 0 64 2 1 })

theorem test_witness_rows :
    let at_ := BitVec.ofNat 64 (localBase + 0x2000)
    let m := { aMat with a := at_, b := at_ }
    let y := fun (m : MatCmd) => sB.modCore 0 (fun k => { k with mats := [m, { m with id := 7 }] })
    (∀ x ∈ [m, aMat], (y x).matHead 0 = some x ∧ x.core = 0 ∧ (y x).mayRow x = true) ∧
    (∀ n ∈ ((y m).core 0).mats, n.id = m.id → n = m) ∧ isOk ((y m).checkRow m m.row) = true ∧
    ((y m).checkDiff = [] ∧ (y m).stale = [] ∧ (y m).ueSectors = [] ∧ (y m).ueCmds = []) ∧
    ((y m).checkRow m m.row).toOption.map (fun p => (m.reads p ++ m.writes p).all (fun q => (y m).pieceSlice m.asid q = none))
      = some true ∧
    (trapOf ((y aMat).checkRow aMat aMat.row)).map (fun e => (e.event, e.isMiss)) = some (none, false) := by
  decide +kernel

/-- A failed row whose counters have their places, or a translation still to be walked for. -/
theorem test_witness_failed_row :
    let m := { aMat with cfg := { MmCfg.start with ctr := 0x10000 } }
    let y := fun (t : State) => t.modCore 0 (fun k => { k with mats := [m, { m with id := 7 }] })
    (∀ t ∈ [sB, sD], (y t).matHead 0 = some m ∧ (y t).mayRow m = true ∧
      (trapOf ((y t).checkRow m m.row)).map (fun e => (e.event, e.isMiss)) = some (none, false)) ∧
    [sB, sD].map (fun t => ((y t).rowErrors m 9).map (fun x => ((trapOf ((y t).ctrPlace x.2)).map (fun e => e.isMiss),
      ((y t).ctrPlace x.2).toOption.map (fun p => p.key % 8)))) = [[(some true, none), (some true, none)], [(none, some 0), (none, some 0)]] ∧
    (sD.checkDiff = [] ∧ sD.stale = [] ∧ sD.ueSectors = [] ∧ sD.ueCmds = []) := by
  decide +kernel

theorem test_witness_blocks :
    let f : Fp2 := ⟨h16, .f32, .rne, false, v 0, v 64⟩
    let b : BsetF := ⟨h12, false, v 64, v 8, v 16⟩
    let gs := (List.range 4).filter (fun j => sB.me.active f.h (16 * j))
    Ready (.dqblk f) s0 ∧ Ready (.bset b) s0 ∧ blkFmt (s0.image f.a 0) = none ∧ blkFmt (s0.image b.d 0) = none ∧
    0 ∈ (List.range 4).filter (fun j => s0.me.active f.h (16 * j)) ∧
    Ready (.dqblk f) sB ∧ Ready (.bset b) sB ∧ gs = [0] ∧ blkFmt (sB.image f.a 0) = some .fp32 ∧
      f.d.width = BFmt.fp32.perLane * f.ty.slices ∧ blkFmt (sB.image b.d 0) = some .fp32 := by
  simp only [← ready_iff]
  decide +kernel

/-! Witnesses of the statements about checks, finished operations, the step and the codec. -/

structure Checks where
  (ok1 priv mode out range wide ovl odd busy dry empty sleeps : Bool)
deriving DecidableEq, Repr

/-- The hypotheses of the statement about checks. -/
def checksOf (i : Instr) (s : State) : Checks :=
  let sh := i.shape
  let x := s.me
  let out := fun (o : Nat × Opnd) => decide (64 * (s.window s.cur o.2.file).blocks < o.2.start.toNat + o.2.width ∨
    (o ∈ sh.scal ∧ o.2.isVec = true) ∨ (o ∈ sh.vect ∧ o.2.isVec = false) ∨
    (sh.vs = false ∧ o.2.isVec = true ∧ o ∈ sh.sources ∧ ∃ d ∈ sh.dsts, d.2.isVec = false))
  let alias_ := match sh.dsts with
    | [a, b] => decide (a.2.file = b.2.file ∧ a.2.start.toNat < b.2.start.toNat + b.2.width ∧
        b.2.start.toNat < a.2.start.toNat + a.2.width)
    | _ => false
  let odd := match i with
    | .dqblk f => !s.dqWide f
    | _ => false
  let wbs := s.mine.wbs.filter (fun w => w.ctx = s.cur)
  let named := (i.hdr.guard.map (fun g => g.pred.val)).toList ++ sh.prd ++ sh.pwr
  let busy := decide ((∃ o ∈ octs sh.fields ++ sh.rangeOctets, ∃ w ∈ wbs, w.long = false ∧ o ∈ w.octs) ∨
    (∃ n ∈ named, ∃ w ∈ wbs, n ∈ w.preds) ∨
    ((∃ w ∈ wbs, 15 ∈ w.preds) ∧ (sh.vdata = true ∨ ∃ o ∈ sh.fields, o.2.isVec = true)))
  ⟨decide i.WellFormed, sh.priv, x.priv, sh.fields.any out,
    sh.range.any (fun r => decide ((s.window s.cur r.1).blocks < r.2.1 + r.2.2)),
    sh.widths.any (fun e => decide (e.2.1.width ∉ e.2.2)), alias_, odd, busy,
    decide (x.uncounted = false ∧ s.splim (s.cur / 16) ≤ x.spc.toNat ∧ i.isSafe = false),
    sh.srcs.any (fun p => p.2.any (fun o => o.octets.any (s.octetEmpty s.cur))),
    decide (s.sleepOctets s.cur i.hdr sh ≠ [])⟩

def goes : Checks := ⟨true, false, true, false, false, false, false, false, false, false, false, false⟩

theorem test_witness_checks :
    let add := fun (h : Hdr) (w : WCode) => Instr.add ⟨h, .i32, false, false, opv w 0, v 8, v 16⟩
    let a8 := add h12 .w8
    let user := s0.modCtx 0 (fun x => { x with priv := false })
    let emp := s0.setWindow 0 .v ((s0.window 0 .v).mark 1 true)
    let wb := s0.modCore 0 (fun k => { k with wbs := [aWB false [(.v, 0)]] })
    let late := s0.modCtx 0 (fun x => { x with spc := BitVec.ofNat 25 (s0.splim 0) })
    let twice := Instr.unpk ⟨h12, false, v 0, v 4, vw 16⟩
    let fadd := Instr.fadd ⟨h12, .f32, .rne, false, opv .w4 0, v 8, v 16⟩
    let small := s0.modCtx 0 (fun x => { x with v := Window.alloc 0 })
    checksOf a8 s0 = goes ∧ (checksOf (.add ⟨h8, .i8, false, false, v 0, v 8, v 16⟩) s0).ok1 = false ∧
    checksOf (.tret ⟨h8⟩) user = { goes with priv := true, mode := false } ∧
    checksOf a8 small = { goes with out := true } ∧
    checksOf (.spill ⟨h16, w 0, .v, 2, 2, 0⟩) small = { goes with range := true } ∧
    checksOf fadd s0 = { goes with wide := true } ∧ checksOf twice s0 = { goes with ovl := true } ∧
    checksOf (.dqblk ⟨h16, .f32, .rne, false, opv .w16 0, v 64⟩) sB = { goes with odd := true } ∧
    checksOf a8 wb = { goes with busy := true } ∧ checksOf a8 late = { goes with dry := true } ∧
    checksOf (add { h12 with ea1 := true } .w8) emp = { goes with empty := true } ∧
    checksOf a8 emp = { goes with empty := true, sleeps := true } ∧
    (∀ b ∈ [false, true], let y := { s0 with ueRegs := if b then [(regKey 0 (.v, 1), true)] else [] }
      checksOf a8 y = goes ∧ y.badReg y.cur a8.shape = b) := by
  decide +kernel

theorem test_witness_finished :
    let p := { Part.of dev 4 0x10000 0 with done := true }
    let f := fun (op : FlOp) (p : Part) => { aFlight 0 op p with dst := some (v 0) }
    let y := fun (f : Flight) => asleep (.flight 0) 7 (flying [f] s0)
    let ok := fun (f : Flight) => (y f).flight f.id = some f ∧ f.ctx < 16 ∧ f.hostPend = false
    let acq := { f .load p with acquire := true }
    ok (f .load (Part.of dev 4 0x10000 0)) ∧ (f .load (Part.of dev 4 0x10000 0)).allDone = false ∧
    (∀ op ∈ [FlOp.load, .cntrd, .ldf true, .atom .add .n32, .fill .v 2, .gath .f32 .rne false, .agld true 1 1 3 15 (ops .w4 80) 1], ok (f op p) ∧ (f op p).allDone = true ∧
      (f op p).lateTrap = none ∧ (f op p).acquire = false ∧ (f op p).dst = some (v 0)) ∧
    ok acq ∧ acq.allDone = true ∧ acq.lateTrap = none ∧ acq.acquire = true ∧
    ((y acq).ctx 0).run = .asleep (.flight 0) 0 ∧ (s0.ctx 0).run = .awake ∧
    (∀ c ∈ [0, 5], let q := { p with code := c }
      (f (.waitc 3 none) q).parts = [q] ∧ (f (.waitc 3 (some 2)) q).parts = [q]) ∧
    (∀ c ∈ [5, noShareCode], let g := { f (.waitc 3 none) { p with code := c } with acquire := true }
      g.allDone = true ∧ g.acquire = true ∧ g.lateTrap.map (fun e => decide (e.code = 0x0F)) = some (decide (c = 5))) := by
  decide +kernel

/-- Nothing due, the context's slot held over, not begun, or not yet there; the block in the fetch buffer, in L0, nowhere. -/
theorem test_witness_step :
    let rot := fun l at_ => s0.modCore 0 (fun k => { k with rot := l, slotAt := at_, rotAt := 0 })
    let starts := fun (x : Core) => x.rot = [] ∧ x.rotAt ≤ s0.cycle ∧ (s0.cycle - x.rotAt) % 4 = 0
    let awake := (List.range 11).filter (fun k =>
      decide ((s0.ctx (ctxId 0 k)).run = .awake) && decide ((s0.ctx (ctxId 0 k)).joinAt ≤ s0.cycle))
    (∀ y ∈ [rot [0] 0, rot [] 0, rot [0] 1], y.inputs = [] ∧ y.timed = [] ∧ y.coreNums = [0]) ∧
    (((rot [0] 0).core 0).rot = [0] ∧ ((rot [0] 0).core 0).slotAt ≤ s0.cycle) ∧
    (starts ((rot [] 0).core 0) ∧ awake = [0]) ∧ (¬starts ((rot [0] 1).core 0) ∧ ¬((rot [0] 1).core 0).slotAt ≤ s0.cycle) ∧
    (s0.me.run = .awake ∧ s0.me.forfeits = 0 ∧ s0.me.fetch = some ⟨pad, s0.bytes pad 32⟩) ∧
    (s0.fetchPlace 0 (BitVec.ofNat 64 (s0.me.pc.toNat / 32 * 32))).toOption.map (fun p => p.key) = some pad ∧
    (decode ((s0.bytes pad 32).drop (s0.me.pc.toNat % 32))).toOption.map (fun x => x.1) = some (.nop64 ⟨h8⟩) ∧
    (decode (((State.reset.loaded [3]).bytes pad 32).drop (s0.me.pc.toNat % 32))).toOption.isSome = false := by
  decide +kernel

/-- No event may come; or one may, none swept for. A limit that has come, and a fetch that fails its checks. -/
theorem test_witness_quiet :
    let cold := (s0.modCtx 0 (fun x => { x with fetch := none })).modCore 0 (fun k => { k with l0 := [⟨pad, s0.bytes pad 32⟩] })
    let bare := cold.modCore 0 (fun k => { k with l0 := [] })
    let off := s0.modCtx 0 (fun x => { x with pc := BitVec.ofNat 64 (peerBase + 150 * 2 ^ 21), fetch := none })
    let z := (asleep (.octets [(.v, 3)]) 7 (s0.setWindow 0 .v ((s0.window 0 .v).mark 3 true))).modCore 0 (fun k => { k with rot := [] })
      |>.modDie 0 (fun d => { d with tlb := [page 0 (2 ^ 44)] })
    let later := { s0 with sweepAt := 9 }
    later.sweep = [] ∧ later.cycle < later.sweepAt ∧ (bare.core 0).l0 = [] ∧ bare.me.fetch = none ∧
    (cold.core 0).l0.any (fun b => b.key = pad) = true ∧ errOf (off.fetchPlace 0 off.me.pc) = some false ∧
    z.inputs = [] ∧ z.timed = [] ∧ z.untimed = [] ∧ z.drainAll.settle.limitsDue = [.waitLimitExpiry 0 0] ∧
    State.reset.untimed = [] := by
  decide +kernel

/-- A well-formed term, and bytes that decode. -/
theorem test_witness_codec :
    (Instr.add ⟨gh h12 3, .i8, true, true, v 0, v 8, v 16⟩).WellFormed ∧
    (decode (leBytes 8 0x000FFFFFFFF0FC24)).toOption.isSome = true := by decide +kernel

theorem test_reset_keeps_form :
    Memory.wf State.reset.mem = true ∧ State.reset.curCtx < 11 ∧ (∀ e ∈ State.reset.cores, ∀ k ∈ e.2.rot, k < 11) ∧
    Memory.wf s0.mem = true ∧ s0.curCtx < 11 ∧ ∀ e ∈ s0.cores, ∀ k ∈ e.2.rot, k < 11 := by decide +kernel

/-! One instruction each, with results that the spec works out. -/

/-- s0 with lane 0 of some vector operands. -/
def laneZero (l : List (Opnd × Nat)) : State :=
  s0.modCtx 0 (fun x => { x with v := l.foldl (fun w e => w.write 0 e.1.start.toNat e.1.width e.2) x.v })

/-- What an instruction leaves for lane 0 of its first destination, with the flags of its writeback. -/
def lane0 (i : Instr) (l : List (Opnd × Nat)) : Option (Nat × Flags) :=
  match exec i (laneZero l) with
  | .next t => (t.mine.wbs.head?).bind (fun w => (w.sl.head?).map (fun x => (Tab.get 0 x.vals 0, w.flags)))
  | _ => none

/-- R20, R21: the worked example of extension and narrowing. -/
theorem test_add :
    let add := fun t sat d => Instr.add ⟨h12, t, sat, false, d, opv .w2 10, opv .w6 20⟩
    let at_ := [(opv .w2 10, 0x7F), (opv .w6 20, 0x105)]
    (lane0 (add .i8 false (opv .w4 0)) at_).map (·.1) = some 0xFF84 ∧
    (lane0 (add .i8 true (opv .w4 0)) at_).map (·.1) = some 0x7F ∧
    (lane0 (add .i16 false (opv .w2 0)) at_).map (·.1) = some 0x84 ∧
    (lane0 (add .i16 true (opv .w2 0)) at_).map (·.1) = some 0x7F := by
  decide +kernel

/-- R95, R103 to R105. -/
theorem test_integer :
    let a := opv .w8 8
    (lane0 (.abs ⟨h8, .i8, false, false, v 0, a⟩) [(a, 0x80)]).map (·.1) = some 0xFFFFFF80 ∧
    (lane0 (.abs ⟨h8, .i8, true, false, v 0, a⟩) [(a, 0x80)]).map (·.1) = some 127 ∧
    (lane0 (.mulh ⟨h12, .i8, false, false, v 0, a, v 16⟩) [(a, 0xFF), (v 16, 1)]).map (·.1) = some 0xFFFFFFFF ∧
    (lane0 (.clz ⟨h8, .n64, false, false, v 0, opv .w16 16⟩) [(opv .w16 16, 0)]).map (·.1) = some 64 ∧
    (lane0 (.not ⟨h8, .n8, false, false, opv .w4 0, opv .w2 8⟩) [(opv .w2 8, 0x0F)]).map (·.1) = some 0x00F0 ∧
    (lane0 (.bfx ⟨h12, .i32, false, v 0, a, 4, 12⟩) [(a, 0xABC0)]).map (·.1) = some 0xFFFFFABC ∧
    (lane0 (.sar ⟨h12, .i32, false, v 0, a, .imm 40⟩) [(a, 0x80000000)]).map (·.1) = some 0xFFFFFFFF := by
  decide +kernel

/-- R118: subnormal results and ties. -/
theorem test_floating :
    let h (x : Nat) := (opv .w4 8, x)
    let f := fun r => Instr.fscale ⟨h12, .f16, r, false, opv .w4 0, opv .w4 8, opv .w8 16⟩
    let n := (opv .w8 16, 0xFFFFFFE7)
    (lane0 (f .rne) [h 0x3E00, n]).map (·.1) = some 1 ∧ (lane0 (f .rne) [h 0x3C00, n]).map (·.1) = some 0 ∧
    (lane0 (f .rna) [h 0x3C00, n]).map (fun r => (r.1, r.2.uf, r.2.nx)) = some (1, true, true) := by
  decide +kernel

/-- The conversions worked to the bit (R70 to R75, R78), and the generator's first draw (R79). -/
theorem test_convert :
    let c := fun t r d x => lane0 (.cvt ⟨h12, t, .f32, r, false, false, opv d 0, v 8⟩) [(v 8, x)]
    (c .f16 .rne .w4 0x3FAAAAAB).map (·.1) = some 0x3D55 ∧ (c .f16 .rup .w4 0x3FAAAAAB).map (·.1) = some 0x3D56 ∧
    (c .f16 .rna .w4 0x3F801000).map (·.1) = some 0x3C01 ∧ (c .f16 .rne .w4 0x3F803000).map (·.1) = some 0x3C02 ∧
    (c .f16 .rne .w4 0x477FF000).map (fun r => (r.1, r.2.of, r.2.nx)) = some (0x7C00, true, true) ∧
    (c .e4 .rne .w2 0x43E80000).map (fun r => (r.1, r.2.of)) = some (0x7E, false) ∧
    (c .e4 .rne .w2 0x7F800000).map (fun r => (r.1, r.2.nv)) = some (0x7F, true) ∧
    (c .i8 .rne .w2 0xC04CCCCD).map (·.1) = some 0xFD ∧ (c .i8 .rne .w2 0x43200000).map (·.1) = some 0x7F ∧
    seedState 0 0 = 0x9E3779B9 := by
  decide +kernel

/-- R361: the check value of the nine digits. -/
theorem test_crc32c : crc32c ((List.range 9).map (fun n => BitVec.ofNat 8 (0x31 + n))) = 0xE3069283 := by decide +kernel

/-- R92 and `.block`: the CRC-8 of the nine digits, and the check of the example block. -/
theorem test_block_check :
    crc8 ((List.range 9).map (· + 0x31)) = 0xF4 ∧ blkCheck 0xB0403800007F04 = 0x31 := by decide +kernel

/-- Sources whose values the statement about transcendental results names: 2, 1 and 10 as FP32, 5 as FP16. -/
theorem test_witness_exact_values :
    let v := fun (t : Ty) (n : Nat) => readFp t.fp false n
    (∀ x ∈ [(Ty.f32, 0x40000000), (.f32, 0x3F800000), (.f32, 0x41200000), (.f16, 0x4500)], (v x.1 x.2).isFin = true) ∧
    (v .f32 0x40000000).rat = 2 ∧ (v .f32 0x3F800000).rat = 1 ∧ (v .f32 0x41200000).rat = 10 ∧ (v .f16 0x4500).rat = 5 := by
  refine ⟨by decide +kernel, ?_⟩
  have a : readFp Ty.f32.fp false 0x40000000 = .fin false (2 ^ 23) (-22) := by decide +kernel
  have b : readFp Ty.f32.fp false 0x3F800000 = .fin false (2 ^ 23) (-23) := by decide +kernel
  have c : readFp Ty.f32.fp false 0x41200000 = .fin false (5 * 2 ^ 21) (-20) := by decide +kernel
  have d : readFp Ty.f16.fp false 0x4500 = .fin false (5 * 2 ^ 8) (-8) := by decide +kernel
  norm_num [a, b, c, d, Val.rat]

end Sys2Proof.Tests
end

section
/-! PROOF. A package with nothing placed in it, and what a step of it does; the state after reset is one. -/

namespace Sys2Proof.Machine

/-- Nothing is placed: every die is as held, every core and context idle and every contest empty, and no operation, counter
update, request to a slice or error of shared control state is there. -/
structure State.Bare (s : State) : Prop where
  dies : s.dies = []
  cores : s.cores = []
  ctxs : s.ctxs = []
  contests : s.contests = []
  flights : s.flights = []
  ctrUps : s.ctrUps = []
  slices : s.slices = []
  ueCtl : s.ueCtl = []

/-! How the plan passes on to the end of the cycle. -/

theorem State.planEnd_of_no_limit {s : State} (h : s.limitsDue = []) : s.planEnd = .now s.tick := by
  simp [State.planEnd, h]

theorem State.planSlot_of_no_slot {s : State} (h : s.nextSlot s.coreNums = none) :
    s.planSlot = s.drainAll.settle.planEnd := by
  simp [State.planSlot, h]

theorem State.planFree_of_no_event {s : State} (h : s.untimed = []) : s.planFree = s.planSlot := by
  simp [State.planFree, h]

theorem State.plan_of_nothing_due {s : State} (hc : s.closing = false) (hi : s.inputs = []) (ht : s.timed = []) :
    s.plan = s.planFree := by
  simp [State.plan, hc, hi, ht, nextInput]

namespace State.Bare

variable {s : State} (h : s.Bare)
include h

/-! No event is due and none may come. -/

theorem timed : s.timed = [] := by
  simp [State.timed, State.dueWBs, State.yieldsDue, State.prismDue, State.homeTimed, State.schedDue, h.cores, h.ctxs,
    h.contests, h.flights, h.dies]

theorem mustCome : s.mustCome = [] := by
  simp [State.mustCome, State.homeEvents, State.engineMay, State.prismMay, State.powerMay, State.schedMay, State.demands,
    State.walksOut, State.trainings, State.coreNums, h.cores, h.ctxs, h.contests, h.flights, h.ctrUps, h.dies]

theorem walksMay (hi : s.inputs = []) : s.walksMay = [] := by
  simp [State.walksMay, State.fetchPages, State.schedPages, State.portPages, h.ctxs, h.dies, h.cores, hi]

theorem untimed (hi : s.inputs = []) : s.untimed = [] := by
  simp [State.untimed, h.mustCome, h.walksMay hi, State.prefetches, h.ctxs]

theorem limitsDue : s.limitsDue = [] := by
  simp [State.limitsDue, h.ctxs]

/-! The end of a cycle finds nothing to do. -/

theorem drainAll : s.drainAll = s := by
  simp [State.drainAll, State.drainOnce, h.ctxs]

theorem settle : s.settle = s := by
  simp [State.settle, h.flights]

theorem dropFetches : s.dropFetches = s := by
  simp [State.dropFetches, h.ctxs]

theorem freeSlices : s.freeSlices = s := by
  simp [State.freeSlices, h.slices]

theorem ctlErrors : s.ctlErrors = s := by
  rw [State.ctlErrors, h.ueCtl, List.foldl_nil, ← h.ueCtl]

theorem restartStewards : s.restartStewards = s := by
  simp [State.restartStewards, h.dies]

theorem checkAll : s.checkAll = s := by
  simp [State.checkAll, h.dies]

theorem tick : s.tick = { s with cycle := s.cycle + 1, time := s.time + s.period, closing := false } := by
  simp only [State.tick, h.drainAll, h.settle, h.dropFetches, h.freeSlices, h.ctlErrors, h.restartStewards, h.checkAll]

/-- A step of a bare package that no input waits for only passes time. -/
theorem step_eq (hc : s.closing = false) (hi : s.inputs = []) :
    step s = .next { s with cycle := s.cycle + 1, time := s.time + s.period, closing := false } := by
  have hslot : s.nextSlot s.coreNums = none := by simp [State.coreNums, h.cores, State.nextSlot]
  have hplan : s.plan = .now s.tick := by
    rw [State.plan_of_nothing_due hc hi h.timed, State.planFree_of_no_event (h.untimed hi),
      State.planSlot_of_no_slot hslot, h.drainAll, h.settle, State.planEnd_of_no_limit h.limitsDue]
  simp only [step, hplan, h.tick]

/-! Every part reads as its default. -/

theorem die (d : Nat) : s.die d = Die.held := by simp [State.die, h.dies]
theorem core (c : Nat) : s.core c = Core.idle := by simp [State.core, h.cores]
theorem ctx (p : Nat) : s.ctx p = Ctx.idle := by simp [State.ctx, h.ctxs]
theorem contest (c : Nat) : s.contest c = Contest.none := by simp [State.contest, h.contests]

end State.Bare

theorem State.reset_bare : State.reset.Bare := ⟨rfl, rfl, rfl, rfl, rfl, rfl, rfl, rfl⟩

/-- The first cycle is one of 32 units: the clock runs at half its rate before full service (R374). -/
theorem State.reset_step : step State.reset = .next { State.reset with cycle := 1, time := 32 } :=
  State.reset_bare.step_eq rfl rfl

/-- No stored check value differs from that of its sector (R361). -/
theorem State.reset_storedCheck (x : Nat) : State.reset.storedCheck x = State.reset.checkValue x :=
  (Laws.storedCheck_eq_iff _ _).mpr rfl

/-- The published check value of CRC-32C, for the digits 1 to 9 in ASCII (R361). -/
theorem crc32c_nine_digits : crc32c ((List.range 9).map (fun n => BitVec.ofNat 8 (0x31 + n))) = 0xE3069283 := by
  decide +kernel

theorem State.reset_byte (k : Nat) : State.reset.byte k = 0 := rfl

theorem State.reset_tagFull (k : Nat) : State.reset.tagFull k = true := rfl

end Sys2Proof.Machine

namespace Sys2Proof

open Machine

/-- Settles O60: the state after reset is bare, so that each part reads as its default and a step only passes time. -/
theorem resetState : Obligations.ResetState := by
  unfold Obligations.ResetState
  have bare := State.reset_bare
  have die (d : Nat) : State.reset.die d = Die.held ∧ (State.reset.die d).phase = .held := ⟨bare.die d, by rw [bare.die]; rfl⟩
  have core (c : Nat) : (State.reset.core c).task = none ∧ (State.reset.core c).copies = [] ∧
      (State.reset.core c).mats = [] ∧ (State.reset.core c).xid = 1 := by simp [bare.core, Core.idle]
  have ctx (p : Nat) : State.reset.ctx p = Ctx.idle ∧ (State.reset.ctx p).run = .free := by simp [bare.ctx, Ctx.idle]
  have contest (c : Nat) : (State.reset.contest c).entries = [] ∧ (State.reset.contest c).holder = none ∧
      (State.reset.contest c).latched = 0 := by simp [bare.contest, Contest.none]
  have rot : ∀ e ∈ State.reset.cores, ∀ k ∈ e.2.rot, k < 11 := by simp [bare.cores]
  exact ⟨die, core, ctx, bare.flights, bare.ctrUps, rfl, contest, rfl, fun k => ⟨State.reset_byte k, State.reset_tagFull k⟩,
    State.reset_wf, by decide, rot, State.reset_step, rfl, rfl, State.reset_storedCheck, crc32c_nine_digits⟩

end Sys2Proof
end

section
/-! PROOF. Fields of words: packing, and the codes of the small fields with the decoder of each. -/

namespace Sys2Proof

/-! Packing (R36): a list of fields whose values fit their widths, and the word they make, say the same. -/

/-- Each value of a list of fields fits its width. -/
def Fits (fs : List (Nat × Nat)) : Prop := ∀ f ∈ fs, f.2 < 2 ^ f.1

@[simp] theorem fits_nil : Fits [] := by simp [Fits]
@[simp] theorem fits_cons (w v : Nat) (r : List (Nat × Nat)) : Fits ((w, v) :: r) ↔ v < 2 ^ w ∧ Fits r := by
  simp [Fits]

theorem packBits_lt {fs : List (Nat × Nat)} (h : Fits fs) : packBits fs < 2 ^ (fs.map Prod.fst).sum := by
  induction fs with
  | nil => simp [packBits]
  | cons f r ih =>
    obtain ⟨hv, hr⟩ := (fits_cons f.1 f.2 r).mp h
    have hp := ih hr
    simp only [packBits, List.map_cons, List.sum_cons, Nat.pow_add]
    calc f.2 + 2 ^ f.1 * packBits r < 2 ^ f.1 * (packBits r + 1) := by rw [Nat.mul_add_one]; omega
      _ ≤ _ := Nat.mul_le_mul_left _ hp

/-- The fields at the bottom of a packing. -/
theorem unpackBits_packBits_append {l : List (Nat × Nat)} (h : Fits l) (r : List (Nat × Nat)) :
    unpackBits (l.map Prod.fst) (packBits (l ++ r)) = l.map Prod.snd := by
  induction l with
  | nil => rfl
  | cons f l ih =>
    obtain ⟨hv, hl⟩ := (fits_cons f.1 f.2 l).mp h
    simp [packBits, unpackBits, Nat.mod_eq_of_lt hv, Nat.add_mul_div_left, Nat.div_eq_of_lt hv, ih hl]

theorem unpackBits_packBits {fs : List (Nat × Nat)} (h : Fits fs) :
    unpackBits (fs.map Prod.fst) (packBits fs) = fs.map Prod.snd := by
  simpa using unpackBits_packBits_append h []

theorem packBits_unpackBits {ws : List Nat} {m : Nat} (h : m < 2 ^ ws.sum) : packBits (ws.zip (unpackBits ws m)) = m := by
  induction ws generalizing m with
  | nil => simp_all [packBits]
  | cons w r ih =>
    have hr : m / 2 ^ w < 2 ^ r.sum := by
      rw [Nat.div_lt_iff_lt_mul (by positivity), Nat.mul_comm, ← Nat.pow_add]; simpa using h
    simp [unpackBits, packBits, ih hr, Nat.mod_add_div]

theorem length_unpackBits (ws : List Nat) (m : Nat) : (unpackBits ws m).length = ws.length := by
  induction ws generalizing m with
  | nil => rfl
  | cons w r ih => simp [unpackBits, ih]

/-- A word is the packing of some fields just where those are its fields. -/
theorem eq_packBits {fs : List (Nat × Nat)} {m : Nat} (hm : m < 2 ^ (fs.map Prod.fst).sum) (hf : Fits fs) :
    m = packBits fs ↔ unpackBits (fs.map Prod.fst) m = fs.map Prod.snd := by
  constructor
  · rintro rfl
    exact unpackBits_packBits hf
  · intro h
    rw [← packBits_unpackBits hm, h, ← List.unzip_fst, ← List.unzip_snd, List.zip_unzip]

/-! Outcomes of the decoder's checks. -/

@[simp] theorem bind_eq_ok {ε α β : Type} (x : Except ε α) (f : α → Except ε β) (b : β) :
    (x >>= f) = .ok b ↔ ∃ a, x = .ok a ∧ f a = .ok b := by
  cases x <;> simp [bind, Except.bind]

@[simp] theorem map_eq_ok {ε α β : Type} (x : Except ε α) (f : α → β) (b : β) :
    x.map f = .ok b ↔ ∃ a, x = .ok a ∧ f a = b := by
  cases x <;> simp [Except.map]

@[simp] theorem need_eq_ok (c : Bool) (e : DecErr) (u : Unit) : need c e = .ok u ↔ c = true := by cases c <;> simp [need]
@[simp] theorem zero_eq_ok (n : Nat) (u : Unit) : zero n = .ok u ↔ n = 0 := by simp [zero]
@[simp] theorem noRnd_eq_ok (n : Nat) (u : Unit) : noRnd n = .ok u ↔ n = 0 := by simp [noRnd]
@[simp] theorem noSat_eq_ok (n : Nat) (u : Unit) : noSat n = .ok u ↔ n = 0 := by simp [noSat]
@[simp] theorem unused_eq_ok (n : Nat) (u : Unit) : unused n = .ok u ↔ n = nullCode := by simp [unused]

@[simp] theorem chk_eq_none (c : Bool) (e : DecErr) : chk c e = none ↔ c = true := by cases c <;> simp [chk]
@[simp] theorem firstErr_nil : firstErr [] = none := rfl
@[simp] theorem firstErr_cons (e : Option DecErr) (l : List (Option DecErr)) :
    firstErr (e :: l) = none ↔ e = none ∧ firstErr l = none := by
  cases e <;> simp [firstErr]

/-! Codes that some numbers do not stand for: the decoder answers just the value whose code the number is. -/

@[simp] theorem lenOf_eq_some (n : Nat) (l : Len) : lenOf n = some l ↔ n = l.code := by
  constructor
  · unfold lenOf; split <;> rintro ⟨⟩ <;> rfl
  · rintro rfl; cases l <;> rfl

@[simp] theorem tyOf_eq_ok (n : Nat) (t : Ty) : tyOf n = .ok t ↔ n = t.code := by
  constructor
  · unfold tyOf; split <;> rintro ⟨⟩ <;> rfl
  · rintro rfl; cases t <;> rfl

@[simp] theorem rndOf_eq_ok (n : Nat) (r : Rnd) : rndOf n = .ok r ↔ n = r.code := by
  constructor
  · unfold rndOf; split <;> rintro ⟨⟩ <;> rfl
  · rintro rfl; cases r <;> rfl

@[simp] theorem ccOf_eq_ok (n : Nat) (c : CC) : ccOf n = .ok c ↔ n = c.code := by
  constructor
  · unfold ccOf; split <;> rintro ⟨⟩ <;> rfl
  · rintro rfl; cases c <;> rfl

@[simp] theorem bfmtOf_eq_ok (n : Nat) (f : BFmt) : bfmtOf n = .ok f ↔ n = f.code := by
  constructor
  · unfold bfmtOf; split <;> rintro ⟨⟩ <;> rfl
  · rintro rfl; cases f <;> rfl

@[simp] theorem cfmtOf_eq_ok (n : Nat) (f : CFmt) : cfmtOf n = .ok f ↔ n = f.code := by
  constructor
  · unfold cfmtOf; split <;> rintro ⟨⟩ <;> rfl
  · rintro rfl; cases f <;> rfl

@[simp] theorem optCfmtOf_eq_ok (n : Nat) (f : Option CFmt) : optCfmtOf n = .ok f ↔ n = (f.map CFmt.code).getD 0 := by
  have pos : ∀ g : CFmt, g.code ≠ 0 := by intro g; cases g <;> decide
  cases f <;> by_cases h : n = 0 <;> simp [optCfmtOf, h, (pos _).symm]

@[simp] theorem morderOf_eq_ok (n : Nat) (o : MOrder) : morderOf n = .ok o ↔ n = o.code := by
  constructor
  · unfold morderOf; split <;> rintro ⟨⟩ <;> rfl
  · rintro rfl; cases o <;> rfl

@[simp] theorem sysRegOf_eq_ok (n : Nat) (r : SysReg) : sysRegOf n = .ok r ↔ n = r.code := by
  constructor
  · unfold sysRegOf; split <;> rintro ⟨⟩ <;> rfl
  · rintro rfl
    cases r with
    | xb q | rtn q | inga q | ingl q | ingc q | iocfg q => fin_cases q <;> rfl
    | _ => rfl

/-! Codes that every number of their width stands for. -/

@[simp] theorem mod_two_beq_one (n : Nat) (b : Bool) : (n % 2 == 1) = b ↔ n % 2 = boolBit b := by
  rcases Nat.mod_two_eq_zero_or_one n with h | h <;> cases b <;> simp [h, boolBit]

theorem ofNat_eq_iff {w n : Nat} (h : n < 2 ^ w) (v : BitVec w) : BitVec.ofNat w n = v ↔ n = v.toNat := by
  rw [← BitVec.toNat_inj, BitVec.toNat_ofNat, Nat.mod_eq_of_lt h]

@[simp] theorem fileOf_eq (n : Nat) (f : FileId) : fileOf n = f ↔ n % 4 = f.code := by
  have hn := Nat.mod_lt n (show 4 > 0 by decide)
  unfold fileOf
  interval_cases n % 4 <;> cases f <;> decide

@[simp] theorem wcodeOf_eq (n : Nat) (w : WCode) : wcodeOf n = w ↔ n % 8 = w.code := by
  have hn := Nat.mod_lt n (show 8 > 0 by decide)
  unfold wcodeOf
  interval_cases n % 8 <;> cases w <;> decide

@[simp] theorem scopeOf_eq (n : Nat) (s : Scope) : scopeOf n = s ↔ n % 4 = s.code := by
  have hn := Nat.mod_lt n (show 4 > 0 by decide)
  unfold scopeOf
  interval_cases n % 4 <;> cases s <;> decide

@[simp] theorem fccOf_eq (n : Nat) (c : FCC) : fccOf n = c ↔ n % 8 = c.code := by
  have hn := Nat.mod_lt n (show 8 > 0 by decide)
  unfold fccOf
  interval_cases n % 8 <;> cases c <;> decide

@[simp] theorem hintOf_eq (n : Nat) (h : Hint) : hintOf n = h ↔ n % 4 = h.code := by
  have hn := Nat.mod_lt n (show 4 > 0 by decide)
  unfold hintOf
  interval_cases n % 4 <;> cases h <;> decide

@[simp] theorem aorderOf_eq (n : Nat) (o : AOrder) : aorderOf n = o ↔ n % 4 = o.code := by
  have hn := Nat.mod_lt n (show 4 > 0 by decide)
  unfold aorderOf
  interval_cases n % 4 <;> cases o <;> decide

/-! Bounds of the codes. -/

@[simp] theorem boolBit_false : boolBit false = 0 := rfl
@[simp] theorem boolBit_true : boolBit true = 1 := rfl
@[simp] theorem boolBit_le (b : Bool) : boolBit b ≤ 1 := by cases b <;> decide
@[simp] theorem Ty.code_lt (t : Ty) : t.code < 32 := by cases t <;> decide
@[simp] theorem Rnd.code_lt (r : Rnd) : r.code < 8 := by cases r <;> decide
@[simp] theorem CC.code_lt (c : CC) : c.code < 8 := by cases c <;> decide
@[simp] theorem FCC.code_lt (c : FCC) : c.code < 8 := by cases c <;> decide
@[simp] theorem Scope.code_lt (s : Scope) : s.code < 4 := by cases s <;> decide
@[simp] theorem Hint.code_lt (h : Hint) : h.code < 4 := by cases h <;> decide
@[simp] theorem MOrder.code_lt (o : MOrder) : o.code < 4 := by cases o <;> decide
@[simp] theorem AOrder.code_lt (o : AOrder) : o.code < 4 := by cases o <;> decide
@[simp] theorem FileId.code_lt (f : FileId) : f.code < 4 := by cases f <;> decide
@[simp] theorem Len.code_lt (l : Len) : l.code < 4 := by cases l <;> decide
@[simp] theorem BFmt.code_lt (f : BFmt) : f.code < 16 := by cases f <;> decide
@[simp] theorem BFmt.code_lt_32 (f : BFmt) : f.code < 32 := f.code_lt.trans (by decide)
@[simp] theorem optCFmt_code_lt (f : Option CFmt) : (f.map CFmt.code).getD 0 < 16 := by
  rcases f with _ | f
  · decide
  · cases f <;> decide
@[simp] theorem CFmt.code_lt (f : CFmt) : f.code < 16 := optCFmt_code_lt (some f)

theorem toNat_lt {w n : Nat} (v : BitVec w) (h : 2 ^ w ≤ n) : v.toNat < n := Nat.lt_of_lt_of_le v.isLt h

@[simp] theorem SysReg.code_lt (r : SysReg) : r.code < 4096 := by
  cases r with
  | xb q | rtn q | inga q | ingl q | ingc q | iocfg q => simp only [SysReg.code]; omega
  | _ => decide

/-! Operands (R42 to R44, R167). -/

@[simp] theorem Opnd.code_lt (o : Opnd) : o.code < 65536 := by
  have := o.start.isLt
  have : o.file.code < 4 := o.file.code_lt
  have : o.w.code < 8 := by cases o.w <;> decide
  unfold Opnd.code; omega

/-- A descriptor's bits are its operand's code: all operands have a code, and each number of 16 bits is one. -/
theorem opndOf_eq {n : Nat} (h : n < 65536) (o : Opnd) : opndOf n = o ↔ n = o.code := by
  obtain ⟨f, w, s⟩ := o
  have hs := s.isLt
  have hf : f.code < 4 := f.code_lt
  have hw : w.code < 8 := by cases w <;> decide
  simp only [opndOf, Opnd.mk.injEq, fileOf_eq, wcodeOf_eq, ← BitVec.toNat_inj, BitVec.toNat_ofNat, Opnd.code]
  omega

@[simp] theorem optErr_eq_none (o : Option Opnd) : optErr o = none ↔ o ≠ some Opnd.null := by simp [optErr]

@[simp] theorem optCode_lt (o : Option Opnd) : optCode o < 65536 := by
  cases o <;> simp [optCode, nullCode]

theorem Opnd.code_eq_nullCode (o : Opnd) : o.code = nullCode ↔ o = Opnd.null := by
  rw [eq_comm, ← opndOf_eq (by decide), eq_comm]; rfl

/-- The null descriptor stands for no operand, so an operand that is there is another. -/
theorem optOf_eq {n : Nat} (h : n < 65536) (o : Option Opnd) : optOf n = o ↔ n = optCode o ∧ o ≠ some Opnd.null := by
  unfold optOf
  rcases o with _ | o
  · simp [optCode]
  · have e := o.code_eq_nullCode
    by_cases hn : n = nullCode
    · simp only [hn, if_true, optCode, Option.map_some, Option.getD_some]
      grind
    · simp [hn, opndOf_eq h, optCode]
      grind

@[simp] theorem immErr_eq_none {n : Nat} (x : OpImm n) : immErr x = none ↔ x.opnd ≠ some Opnd.null := by simp [immErr]

@[simp] theorem OpImm.codes_fst_lt {n : Nat} (x : OpImm n) : x.codes.1 < 65536 := by
  cases x <;> simp [OpImm.codes, nullCode]

theorem OpImm.codes_snd_lt {n k : Nat} (x : OpImm n) (h : 2 ^ n ≤ k) : x.codes.2 < k := by
  cases x with
  | reg o => exact (Nat.two_pow_pos n).trans_le h
  | imm v => exact toNat_lt v h

theorem opImmOf_eq_ok {n op v : Nat} (h : op < 65536) (hv : v < 2 ^ n) (x : OpImm n) :
    opImmOf n op v = .ok x ↔ op = x.codes.1 ∧ v = x.codes.2 ∧ x.opnd ≠ some Opnd.null := by
  unfold opImmOf
  cases x with
  | reg o =>
    have e := o.code_eq_nullCode
    by_cases hn : op = nullCode
    · simp [hn, OpImm.codes, OpImm.opnd]
      grind
    · by_cases hz : v = 0
      · simp [hn, hz, OpImm.codes, OpImm.opnd, opndOf_eq h]
        grind
      · simp [hn, hz, OpImm.codes]
  | imm i =>
    by_cases hn : op = nullCode
    · simp [hn, OpImm.codes, OpImm.opnd, ofNat_eq_iff hv]
    · by_cases hz : v = 0 <;> simp [hn, hz, OpImm.codes]

/-! The fields of each format (R45). -/

/-- Each field of a body fits its width. -/
def Body.Fits (b : Body) : Prop := Sys2Proof.Fits (b.fmt.widths.zip b.vals)

theorem fits_a64 (a b i : Nat) : (Body.a64 a b i).Fits ↔ a < 65536 ∧ b < 65536 ∧ i < 4096 := by
  simp [Body.Fits, Body.fmt, Fmt.widths, Body.vals]
theorem fits_j64 (a o : Nat) : (Body.j64 a o).Fits ↔ a < 65536 ∧ o < 268435456 := by
  simp [Body.Fits, Body.fmt, Fmt.widths, Body.vals]
theorem fits_b96 (a b c m : Nat) : (Body.b96 a b c m).Fits ↔ a < 65536 ∧ b < 65536 ∧ c < 65536 ∧ m < 268435456 := by
  simp [Body.Fits, Body.fmt, Fmt.widths, Body.vals]
theorem fits_m96 (d b i s q : Nat) :
    (Body.m96 d b i s q).Fits ↔ d < 65536 ∧ b < 65536 ∧ i < 65536 ∧ s < 65536 ∧ q < 4096 := by
  simp [Body.Fits, Body.fmt, Fmt.widths, Body.vals]
theorem fits_c128 (a b c d m i : Nat) :
    (Body.c128 a b c d m i).Fits ↔ a < 65536 ∧ b < 65536 ∧ c < 65536 ∧ d < 65536 ∧ m < 4096 ∧ i < 4294967296 := by
  simp [Body.Fits, Body.fmt, Fmt.widths, Body.vals]

end Sys2Proof
end

section
/-! PROOF. The decoder of each form against its encoder (R45 to R49): on fields that fit, it answers an instruction just where
the fields are that instruction's. -/

namespace Sys2Proof

/-! Parts that several forms share. -/

/-- The qualifier of M96 with its FEACT code (R49). -/
theorem qualOf_eq_ok {n : Nat} (h : n < 4096) (q : Qual) (fe : Nat) :
    qualOf n = .ok (q, fe) ↔ n = q.bits fe ∧ fe < 4 := by
  obtain ⟨s, o, c, b, k⟩ := q
  by_cases hf : fe < 4
  · simp (disch := simp [*, toNat_lt, Nat.mod_lt])
      [qualOf, qualWidths, unpackBits, Qual.bits, eq_packBits, ofNat_eq_iff, hf]
    tauto
  · have other : n / 4 / 2 / 8 % 4 ≠ fe := by omega
    simp [qualOf, qualWidths, unpackBits, hf, other]

theorem decFlagMod_eq_ok {m : Nat} (h : m < 4096) (k c : Bool) : decFlagMod m = .ok (k, c) ↔ m = flagMod k c := by
  simp (disch := simp [*]) [decFlagMod, unpackBits, flagMod, eq_packBits]
  tauto

/-- The row of SYSWR for a register: four registers have rows of their own (R183). -/
def syswrOf (h : Hdr) (r : SysReg) (a : Opnd) : Instr :=
  match r with
  | .rtn n => .syswrRtn ⟨h, n, a⟩
  | .hcfg => .syswrHcfg ⟨h, a⟩
  | .shst => .syswrShst ⟨h, a⟩
  | .kreq => .syswrKreq ⟨h, a⟩
  | r => .syswr ⟨h, r, a⟩

section

variable {h : Hdr} {b : Body} (hb : b.Fits)
include hb

/-! Classes 0 to 3. -/

theorem decInt3_eq_ok (f : Int3) : decInt3 h b = .ok f ↔ b = encInt3 f ∧ h = f.h := by
  cases b with
  | b96 a b c m =>
    obtain ⟨ha, hb, hc, hm⟩ := (fits_b96 ..).mp hb
    cases f
    simp (disch := simp [*]) [decInt3, encInt3, unpackBits, eq_packBits, stdMod, opndOf_eq]
    tauto
  | _ => simp [decInt3, encInt3]

theorem decAddI_eq_ok (f : AddI) : decAddI h b = .ok f ↔ b = encAddI f ∧ h = f.h := by
  cases b with
  | c128 a b c d m i =>
    obtain ⟨ha, hb, hc, hd, hm, hi⟩ := (fits_c128 ..).mp hb
    cases f
    simp (disch := simp [*, toNat_lt, Nat.mod_lt]) [
      decAddI, encAddI, unpackBits, eq_packBits, stdMod, opndOf_eq, ofNat_eq_iff]
    tauto
  | _ => simp [decAddI, encAddI]

theorem decInt4_eq_ok (f : Int4) : decInt4 h b = .ok f ↔ b = encInt4 f ∧ h = f.h := by
  cases b with
  | c128 a b c d m i =>
    obtain ⟨ha, hb, hc, hd, hm, hi⟩ := (fits_c128 ..).mp hb
    cases f
    simp (disch := simp [*]) [decInt4, encInt4, unpackBits, eq_packBits, stdMod, opndOf_eq]
    tauto
  | _ => simp [decInt4, encInt4]

theorem decInt2_eq_ok (f : Int2) : decInt2 h b = .ok f ↔ b = encInt2 f ∧ h = f.h := by
  cases b with
  | a64 a b m =>
    obtain ⟨ha, hb, hm⟩ := (fits_a64 ..).mp hb
    cases f
    simp (disch := simp [*]) [decInt2, encInt2, unpackBits, eq_packBits, stdMod, opndOf_eq]
    tauto
  | _ => simp [decInt2, encInt2]

theorem decLea_eq_ok (f : LeaF) : decLea h b = .ok f ↔ b = encLea f ∧ h = f.h ∧ optErr f.index = none := by
  cases b with
  | c128 a b c d m i =>
    obtain ⟨ha, hb, hc, hd, hm, hi⟩ := (fits_c128 ..).mp hb
    cases f
    simp (disch := simp [*, toNat_lt, Nat.mod_lt]) [
      decLea, encLea, unpackBits, eq_packBits, stdMod, opndOf_eq, ofNat_eq_iff, optOf_eq]
    tauto
  | _ => simp [decLea, encLea]

theorem decAidx_eq_ok (f : AidxF) : decAidx h b = .ok f ↔ b = encAidx f ∧ h = f.h := by
  cases b with
  | b96 a b c m =>
    obtain ⟨ha, hb, hc, hm⟩ := (fits_b96 ..).mp hb
    cases f
    simp (disch := simp [*]) [decAidx, encAidx, unpackBits, eq_packBits, stdMod, opndOf_eq]
    tauto
  | _ => simp [decAidx, encAidx]

theorem decMovI_eq_ok (f : MovI) : decMovI h b = .ok f ↔ b = encMovI f ∧ h = f.h := by
  cases b with
  | c128 a b c d m i =>
    obtain ⟨ha, hb, hc, hd, hm, hi⟩ := (fits_c128 ..).mp hb
    cases f
    simp (disch := simp [*, toNat_lt, Nat.mod_lt]) [
      decMovI, encMovI, unpackBits, eq_packBits, stdMod, opndOf_eq, ofNat_eq_iff]
    tauto
  | _ => simp [decMovI, encMovI]

theorem decCmp_eq_ok (f : CmpF) : decCmp h b = .ok f ↔ b = encCmp f ∧ h = f.h := by
  cases b with
  | b96 a b c m =>
    obtain ⟨ha, hb, hc, hm⟩ := (fits_b96 ..).mp hb
    cases f
    simp (disch := simp [*, toNat_lt, Nat.mod_lt]) [
      decCmp, encCmp, unpackBits, eq_packBits, stdMod, opndOf_eq, ofNat_eq_iff]
    tauto
  | _ => simp [decCmp, encCmp]

theorem decShift_eq_ok (f : ShiftF) : decShift h b = .ok f ↔ b = encShift f ∧ h = f.h ∧ immErr f.n = none := by
  cases b with
  | b96 a b c m =>
    obtain ⟨ha, hb, hc, hm⟩ := (fits_b96 ..).mp hb
    cases f
    simp (disch := simp [*, Nat.mod_lt, OpImm.codes_snd_lt]) [
      decShift, encShift, unpackBits, eq_packBits, stdMod, opndOf_eq, opImmOf_eq_ok]
    tauto
  | _ => simp [decShift, encShift]

theorem decBfx_eq_ok (f : BfxF) : decBfx h b = .ok f ↔ b = encBfx f ∧ h = f.h := by
  cases b with
  | b96 a b c m =>
    obtain ⟨ha, hb, hc, hm⟩ := (fits_b96 ..).mp hb
    cases f
    simp (disch := simp [*, toNat_lt, Nat.mod_lt]) [
      decBfx, encBfx, unpackBits, eq_packBits, stdMod, opndOf_eq, ofNat_eq_iff]
    tauto
  | _ => simp [decBfx, encBfx]

theorem decBfi_eq_ok (f : BfiF) : decBfi h b = .ok f ↔ b = encBfi f ∧ h = f.h := by
  cases b with
  | b96 a b c m =>
    obtain ⟨ha, hb, hc, hm⟩ := (fits_b96 ..).mp hb
    cases f
    simp (disch := simp [*, toNat_lt, Nat.mod_lt]) [
      decBfi, encBfi, unpackBits, eq_packBits, stdMod, opndOf_eq, ofNat_eq_iff]
    tauto
  | _ => simp [decBfi, encBfi]

theorem decSel_eq_ok (f : SelF) : decSel h b = .ok f ↔ b = encSel f ∧ h = f.h := by
  cases b with
  | b96 a b c m =>
    obtain ⟨ha, hb, hc, hm⟩ := (fits_b96 ..).mp hb
    cases f
    simp (disch := simp [*, toNat_lt, Nat.mod_lt]) [
      decSel, encSel, unpackBits, eq_packBits, stdMod, opndOf_eq, ofNat_eq_iff]
    tauto
  | _ => simp [decSel, encSel]

theorem decPack_eq_ok (f : PackF) : decPack h b = .ok f ↔ b = encPack f ∧ h = f.h := by
  cases b with
  | b96 a b c m =>
    obtain ⟨ha, hb, hc, hm⟩ := (fits_b96 ..).mp hb
    cases f
    simp (disch := simp [*]) [decPack, encPack, unpackBits, eq_packBits, stdMod, opndOf_eq]
    tauto
  | _ => simp [decPack, encPack]

theorem decUnpk_eq_ok (f : UnpkF) : decUnpk h b = .ok f ↔ b = encUnpk f ∧ h = f.h := by
  cases b with
  | b96 a b c m =>
    obtain ⟨ha, hb, hc, hm⟩ := (fits_b96 ..).mp hb
    cases f
    simp (disch := simp [*]) [decUnpk, encUnpk, unpackBits, eq_packBits, stdMod, opndOf_eq]
    tauto
  | _ => simp [decUnpk, encUnpk]

theorem decSwz_eq_ok_swz (f : SwzF) :
    decSwz h b = .ok (.swz f) ↔ b = encSwz f ∧ h = f.h ∧ optErr (some f.x) = none := by
  cases b with
  | c128 a b c d m i =>
    obtain ⟨ha, hb, hc, hd, hm, hi⟩ := (fits_c128 ..).mp hb
    have hx := f.x.code_eq_nullCode
    cases f
    by_cases hn : c = nullCode <;>
      simp (disch := simp [*]) [decSwz, encSwz, unpackBits, eq_packBits, stdMod, opndOf_eq, hn] <;> grind
  | _ => simp [decSwz, encSwz]

theorem decSwz_eq_ok_swzMask (f : SwzMF) : decSwz h b = .ok (.swzMask f) ↔ b = encSwzM f ∧ h = f.h := by
  cases b with
  | c128 a b c d m i =>
    obtain ⟨ha, hb, hc, hd, hm, hi⟩ := (fits_c128 ..).mp hb
    cases f
    by_cases hn : c = nullCode <;>
      simp (disch := simp [*, toNat_lt, Nat.mod_lt])
        [decSwz, encSwzM, unpackBits, eq_packBits, stdMod, opndOf_eq, ofNat_eq_iff, hn]
    tauto
  | _ => simp [decSwz, encSwzM]

theorem decLane_eq_ok (f : LaneF) : decLane h b = .ok f ↔ b = encLane f ∧ h = f.h ∧ immErr f.k = none := by
  cases b with
  | b96 a b c m =>
    obtain ⟨ha, hb, hc, hm⟩ := (fits_b96 ..).mp hb
    cases f
    simp (disch := simp [*, Nat.mod_lt, OpImm.codes_snd_lt]) [
      decLane, encLane, unpackBits, eq_packBits, stdMod, opndOf_eq, opImmOf_eq_ok]
    tauto
  | _ => simp [decLane, encLane]

theorem decPred3_eq_ok (f : Pred3) : decPred3 h b = .ok f ↔ b = encPred3 f ∧ h = f.h := by
  cases b with
  | b96 a b c m =>
    obtain ⟨ha, hb, hc, hm⟩ := (fits_b96 ..).mp hb
    cases f
    simp (disch := simp [*, toNat_lt, Nat.mod_lt]) [
      decPred3, encPred3, unpackBits, eq_packBits, stdMod, ofNat_eq_iff, predWidths]
    tauto
  | _ => simp [decPred3, encPred3]

theorem decPred2_eq_ok (f : Pred2) : decPred2 h b = .ok f ↔ b = encPred2 f ∧ h = f.h := by
  have e : encPred2 f = encPred3 ⟨f.h, f.pd, f.pa, 0⟩ := rfl
  obtain ⟨fh, pd, pa⟩ := f
  simp only [decPred2, bind_eq_ok, decPred3_eq_ok hb, zero_eq_ok, e, Except.ok.injEq, Pred2.mk.injEq]
  constructor
  · rintro ⟨⟨g, d, a, z⟩, ⟨rfl, rfl⟩, _, hz, rfl, rfl, rfl⟩
    have : z = 0 := BitVec.eq_of_toNat_eq hz
    simp [this]
  · rintro ⟨rfl, rfl⟩
    exact ⟨_, ⟨rfl, rfl⟩, (), rfl, rfl, rfl, rfl⟩

theorem decPRed_eq_ok (f : PRedF) : decPRed h b = .ok f ↔ b = encPRed f ∧ h = f.h ∧ optErr f.x = none := by
  cases b with
  | b96 a b c m =>
    obtain ⟨ha, hb, hc, hm⟩ := (fits_b96 ..).mp hb
    cases f
    simp (disch := simp [*, toNat_lt, Nat.mod_lt]) [
      decPRed, encPRed, unpackBits, eq_packBits, stdMod, opndOf_eq, ofNat_eq_iff, optOf_eq]
    tauto
  | _ => simp [decPRed, encPRed]

theorem decFp3_eq_ok (f : Fp3) : decFp3 h b = .ok f ↔ b = encFp3 f ∧ h = f.h := by
  cases b with
  | b96 a b c m =>
    obtain ⟨ha, hb, hc, hm⟩ := (fits_b96 ..).mp hb
    cases f
    simp (disch := simp [*]) [decFp3, encFp3, unpackBits, eq_packBits, stdMod, opndOf_eq]
    tauto
  | _ => simp [decFp3, encFp3]

theorem decFp4_eq_ok (f : Fp4) : decFp4 h b = .ok f ↔ b = encFp4 f ∧ h = f.h := by
  cases b with
  | c128 a b c d m i =>
    obtain ⟨ha, hb, hc, hd, hm, hi⟩ := (fits_c128 ..).mp hb
    cases f
    simp (disch := simp [*]) [decFp4, encFp4, unpackBits, eq_packBits, stdMod, opndOf_eq]
    tauto
  | _ => simp [decFp4, encFp4]

theorem decFp2_eq_ok (f : Fp2) : decFp2 h b = .ok f ↔ b = encFp2 f ∧ h = f.h := by
  cases b with
  | a64 a b m =>
    obtain ⟨ha, hb, hm⟩ := (fits_a64 ..).mp hb
    cases f
    simp (disch := simp [*]) [decFp2, encFp2, unpackBits, eq_packBits, stdMod, opndOf_eq]
    tauto
  | _ => simp [decFp2, encFp2]

theorem decDqblk_eq_ok (f : Fp2) : decDqblk h b = .ok f ↔ b = encDqblk f ∧ h = f.h := by
  cases b with
  | c128 a b c d m i =>
    obtain ⟨ha, hb, hc, hd, hm, hi⟩ := (fits_c128 ..).mp hb
    cases f
    simp (disch := simp [*]) [decDqblk, encDqblk, unpackBits, eq_packBits, stdMod, opndOf_eq]
    tauto
  | _ => simp [decDqblk, encDqblk]

theorem decFcmp_eq_ok (f : FcmpF) : decFcmp h b = .ok f ↔ b = encFcmp f ∧ h = f.h := by
  cases b with
  | b96 a b c m =>
    obtain ⟨ha, hb, hc, hm⟩ := (fits_b96 ..).mp hb
    cases f
    simp (disch := simp [*, toNat_lt, Nat.mod_lt]) [
      decFcmp, encFcmp, unpackBits, eq_packBits, stdMod, opndOf_eq, ofNat_eq_iff]
    tauto
  | _ => simp [decFcmp, encFcmp]

theorem decCvt_eq_ok (f : CvtF) : decCvt h b = .ok f ↔ b = encCvt f ∧ h = f.h := by
  cases b with
  | b96 a b c m =>
    obtain ⟨ha, hb, hc, hm⟩ := (fits_b96 ..).mp hb
    cases f
    simp (disch := simp [*]) [decCvt, encCvt, unpackBits, eq_packBits, stdMod, opndOf_eq]
    tauto
  | _ => simp [decCvt, encCvt]

theorem decQblk_eq_ok (f : QblkF) :
    decQblk h b = .ok f ↔ b = encQblk f ∧ h = f.h ∧ optErr f.sc = none ∧ optErr f.sp = none := by
  cases b with
  | c128 a b c d m i =>
    obtain ⟨ha, hb, hc, hd, hm, hi⟩ := (fits_c128 ..).mp hb
    cases f
    simp (disch := simp [*]) [decQblk, encQblk, unpackBits, eq_packBits, stdMod, opndOf_eq, optOf_eq]
    tauto
  | _ => simp [decQblk, encQblk]

theorem decBhdr_eq_ok (f : BhdrF) : decBhdr h b = .ok f ↔ b = encBhdr f ∧ h = f.h := by
  cases b with
  | b96 a b c m =>
    obtain ⟨ha, hb, hc, hm⟩ := (fits_b96 ..).mp hb
    cases f
    simp (disch := simp [*]) [decBhdr, encBhdr, unpackBits, eq_packBits, stdMod, opndOf_eq]
    tauto
  | _ => simp [decBhdr, encBhdr]

theorem decBset_eq_ok (f : BsetF) : decBset h b = .ok f ↔ b = encBset f ∧ h = f.h := by
  cases b with
  | b96 a b c m =>
    obtain ⟨ha, hb, hc, hm⟩ := (fits_b96 ..).mp hb
    cases f
    simp (disch := simp [*]) [decBset, encBset, unpackBits, eq_packBits, stdMod, opndOf_eq]
    tauto
  | _ => simp [decBset, encBset]

theorem decBchk_eq_ok (f : BchkF) : decBchk h b = .ok f ↔ b = encBchk f ∧ h = f.h := by
  cases b with
  | b96 a b c m =>
    obtain ⟨ha, hb, hc, hm⟩ := (fits_b96 ..).mp hb
    cases f
    simp (disch := simp [*, toNat_lt, Nat.mod_lt]) [
      decBchk, encBchk, unpackBits, eq_packBits, stdMod, opndOf_eq, ofNat_eq_iff]
    tauto
  | _ => simp [decBchk, encBchk]

/-! Classes 4 and 5. -/

theorem decMem_eq_ok (f : MemF) (fe : Nat) :
    decMem h b = .ok (f, fe) ↔ b = encMem fe f ∧ fe < 4 ∧ h = f.h ∧ optErr f.index = none := by
  cases b with
  | m96 d b i s q =>
    obtain ⟨hd, hb, hi, hs, hq⟩ := (fits_m96 ..).mp hb
    cases f
    simp (disch := simp [*]) [decMem, encMem, qualOf_eq_ok, opndOf_eq, optOf_eq, ofNat_eq_iff]
    tauto
  | _ => simp [decMem, encMem]

theorem decMemAs_eq_ok {fe : Nat} (hf : fe < 4) (f : MemF) :
    decMemAs fe h b = .ok f ↔ b = encMem fe f ∧ h = f.h ∧ optErr f.index = none := by
  simp [decMemAs, decMem_eq_ok hb, hf]

theorem decLdf_eq_ok (f : MemF) :
    (decLdf h b = .ok (.ldfWf f) ↔ b = encMem 1 f ∧ h = f.h ∧ optErr f.index = none) ∧
      (decLdf h b = .ok (.ldfWfc f) ↔ b = encMem 2 f ∧ h = f.h ∧ optErr f.index = none) := by
  simp only [decLdf, bind_eq_ok, decMem_eq_ok hb, Prod.exists]
  constructor <;> constructor
  · rintro ⟨g, fe, ⟨hbe, hfe, rfl, hi⟩, e⟩
    interval_cases fe <;> cases e
    exact ⟨hbe, rfl, hi⟩
  · rintro ⟨hbe, rfl, hi⟩
    exact ⟨f, 1, ⟨hbe, by decide, rfl, hi⟩, rfl⟩
  · rintro ⟨g, fe, ⟨hbe, hfe, rfl, hi⟩, e⟩
    interval_cases fe <;> cases e
    exact ⟨hbe, rfl, hi⟩
  · rintro ⟨hbe, rfl, hi⟩
    exact ⟨f, 2, ⟨hbe, by decide, rfl, hi⟩, rfl⟩

theorem decElem_eq_ok (f : ElemF) : decElem h b = .ok f ↔ b = encElem f ∧ h = f.h ∧ optErr f.index = none := by
  cases b with
  | m96 d b i s q =>
    obtain ⟨hd, hb, hi, hs, hq⟩ := (fits_m96 ..).mp hb
    cases f
    simp (disch := simp [*]) [decElem, encElem, unpackBits, eq_packBits, qualOf_eq_ok, opndOf_eq, optOf_eq]
    tauto
  | _ => simp [decElem, encElem]

theorem decPref_eq_ok (f : PrefF) : decPref h b = .ok f ↔ b = encPref f ∧ h = f.h ∧ optErr f.index = none := by
  cases b with
  | m96 d b i s q =>
    obtain ⟨hd, hb, hi, hs, hq⟩ := (fits_m96 ..).mp hb
    cases f
    simp (disch := simp [*]) [decPref, encPref, qualOf_eq_ok, opndOf_eq, optOf_eq, ofNat_eq_iff]
    constructor
    · rintro ⟨⟨s, o, c, y, k⟩, rfl, rfl, ⟨⟨rfl, rfl⟩, rfl⟩, rfl, rfl, ⟨rfl, hn⟩, rfl, rfl, rfl⟩
      exact ⟨⟨rfl, rfl, rfl, rfl, rfl⟩, rfl, hn⟩
    · rintro ⟨⟨rfl, rfl, rfl, rfl, rfl⟩, rfl, hn⟩
      exact ⟨_, rfl, rfl, ⟨⟨rfl, rfl⟩, rfl⟩, rfl, rfl, ⟨rfl, hn⟩, rfl, rfl, rfl⟩
  | _ => simp [decPref, encPref]

theorem decAgld_eq_ok (f : AgldF) :
    (decAgld h b = .ok (.agldWait f) ↔ b = encAgld 0 f ∧ h = f.h) ∧
      (decAgld h b = .ok (.agldTry f) ↔ b = encAgld 1 f ∧ h = f.h) := by
  cases b with
  | c128 a b c d m i =>
    obtain ⟨ha, hb, hc, hd, hm, hi⟩ := (fits_c128 ..).mp hb
    cases f
    simp (disch := simp [*, toNat_lt, Nat.mod_lt]) [decAgld, encAgld, unpackBits, eq_packBits]
    generalize m / 16 / 2 / 16 / 2 % 4 = mode
    constructor <;> split <;> simp (disch := simp [*, toNat_lt, Nat.mod_lt]) [opndOf_eq, ofNat_eq_iff] <;> tauto
  | _ => simp [decAgld, encAgld]

theorem decFemark_eq_ok (full : Bool) (f : FemarkF) : decFemark h b = .ok (if full then .femarkFull f else .femarkEmpty f) ↔
    b = encFemark full f ∧ h = f.h ∧ immErr f.n = none := by
  cases b with
  | c128 a b c d m i =>
    obtain ⟨ha, hb, hc, hd, hm, hi⟩ := (fits_c128 ..).mp hb
    cases f
    rcases Nat.mod_two_eq_zero_or_one (m / 1024) with hz | hz <;> cases full <;>
      simp (disch := simp [*, OpImm.codes_snd_lt])
        [decFemark, encFemark, unpackBits, eq_packBits, opndOf_eq, opImmOf_eq_ok, hz] <;> tauto
  | _ => simp [decFemark, encFemark]

theorem decBlk_eq_ok (f : BlkF) : decBlk h b = .ok f ↔ b = encBlk f ∧ h = f.h := by
  cases b with
  | c128 a b c d m i =>
    obtain ⟨ha, hb, hc, hd, hm, hi⟩ := (fits_c128 ..).mp hb
    cases f
    simp (disch := simp [*, toNat_lt, Nat.mod_lt]) [decBlk, encBlk, unpackBits, eq_packBits, opndOf_eq, ofNat_eq_iff]
    tauto
  | _ => simp [decBlk, encBlk]

theorem decFence_eq_ok (f : FenceF) :
    (decFence h b = .ok (.fenceLL f) ↔ b = encFence 0 f ∧ h = f.h) ∧
      (decFence h b = .ok (.fenceSL f) ↔ b = encFence 1 f ∧ h = f.h) ∧
      (decFence h b = .ok (.fenceSS f) ↔ b = encFence 2 f ∧ h = f.h) ∧
      (decFence h b = .ok (.fenceFull f) ↔ b = encFence 3 f ∧ h = f.h) := by
  cases b with
  | a64 a b m =>
    obtain ⟨ha, hb, hm⟩ := (fits_a64 ..).mp hb
    cases f
    have hk := Nat.mod_lt m (show 4 > 0 by decide)
    simp (disch := simp [*, toNat_lt]) [decFence, encFence, unpackBits, eq_packBits]
    generalize m % 4 = k at hk
    interval_cases k <;> simp (disch := simp [Nat.mod_lt]) [ofNat_eq_iff] <;> tauto
  | _ => simp [decFence, encFence]

theorem decAtom_eq_ok (f : AtomF) : decAtom h b = .ok f ↔ b = encAtom f ∧ h = f.h ∧ optErr f.d = none := by
  cases b with
  | c128 a b c d m i =>
    obtain ⟨ha, hb, hc, hd, hm, hi⟩ := (fits_c128 ..).mp hb
    cases f
    simp (disch := simp [*, toNat_lt, Nat.mod_lt]) [
      decAtom, encAtom, unpackBits, eq_packBits, stdMod, opndOf_eq, ofNat_eq_iff, optOf_eq, atomImm]
    tauto
  | _ => simp [decAtom, encAtom]

theorem decCas_eq_ok (f : CasF) : decCas h b = .ok f ↔ b = encCas f ∧ h = f.h ∧ optErr f.d = none := by
  cases b with
  | c128 a b c d m i =>
    obtain ⟨ha, hb, hc, hd, hm, hi⟩ := (fits_c128 ..).mp hb
    cases f
    simp (disch := simp [*, toNat_lt, Nat.mod_lt]) [
      decCas, encCas, unpackBits, eq_packBits, stdMod, opndOf_eq, ofNat_eq_iff, optOf_eq, atomImm]
    tauto
  | _ => simp [decCas, encCas]

theorem decWaitc_eq_ok_waitc (f : WaitcF) : decWaitc h b = .ok (.waitc f) ↔ b = encWaitc f ∧ h = f.h := by
  cases b with
  | c128 a b c d m i =>
    obtain ⟨ha, hb, hc, hd, hm, hi⟩ := (fits_c128 ..).mp hb
    cases f
    have hz : m = 0 ↔ m % 16 = 0 ∧ m / 16 % 64 = 0 ∧ m / 16 / 64 % 2 = 0 ∧ m / 16 / 64 / 2 % 2 = 0 := by omega
    rcases Nat.mod_two_eq_zero_or_one (m / 16 / 64) with hn | hn <;>
      simp (disch := simp [*]) [decWaitc, encWaitc, unpackBits, eq_packBits, scopeImm, opndOf_eq, hn, hz]
    tauto
  | _ => simp [decWaitc, encWaitc]

theorem decWaitc_eq_ok_waitcNt (f : WaitcNtF) : decWaitc h b = .ok (.waitcNt f) ↔ b = encWaitcNt f ∧ h = f.h := by
  cases b with
  | c128 a b c d m i =>
    obtain ⟨ha, hb, hc, hd, hm, hi⟩ := (fits_c128 ..).mp hb
    cases f
    by_cases hn : m / 16 / 64 % 2 = 1 <;>
      simp (disch := simp [*, toNat_lt, Nat.mod_lt])
        [decWaitc, encWaitcNt, unpackBits, eq_packBits, scopeImm, opndOf_eq, ofNat_eq_iff, hn]
    tauto
  | _ => simp [decWaitc, encWaitcNt]

theorem decCntadd_eq_ok (err : Bool) (f : CntAddF) : decCntadd h b = .ok (if err then .cntaddErr f else .cntadd f) ↔
    b = encCntadd err f ∧ h = f.h := by
  cases b with
  | c128 a b c d m i =>
    obtain ⟨ha, hb, hc, hd, hm, hi⟩ := (fits_c128 ..).mp hb
    cases f
    rcases Nat.mod_two_eq_zero_or_one (m / 1024) with hz | hz <;> cases err <;>
      simp (disch := simp [*, toNat_lt, Nat.mod_lt])
        [decCntadd, encCntadd, unpackBits, eq_packBits, opndOf_eq, ofNat_eq_iff, hz] <;> tauto
  | _ => simp [decCntadd, encCntadd]

theorem decWaitf_eq_ok (f : WaitfF) : decWaitf h b = .ok f ↔ b = encWaitf f ∧ h = f.h ∧ optErr f.m = none := by
  cases b with
  | c128 a b c d m i =>
    obtain ⟨ha, hb, hc, hd, hm, hi⟩ := (fits_c128 ..).mp hb
    cases f
    simp (disch := simp [*]) [decWaitf, encWaitf, unpackBits, eq_packBits, opndOf_eq, optOf_eq, scopeImm]
    tauto
  | _ => simp [decWaitf, encWaitf]

theorem decNul_eq_ok (f : NulF) : decNul h b = .ok f ↔ b = encNul 0 ∧ h = f.h := by
  cases b with
  | a64 a b m =>
    obtain ⟨ha, hb, hm⟩ := (fits_a64 ..).mp hb
    cases f
    simp (disch := simp [*]) [decNul, encNul]
    tauto
  | _ => simp [decNul, encNul]

/-! Class 6. -/

theorem decBr_eq_ok (f : BrF) : decBr h b = .ok f ↔ b = encBr f ∧ h = f.h := by
  cases b with
  | j64 a o =>
    obtain ⟨ha, ho⟩ := (fits_j64 ..).mp hb
    cases f
    simp (disch := simp [*, toNat_lt, Nat.mod_lt]) [decBr, encBr, ofNat_eq_iff]
    tauto
  | _ => simp [decBr, encBr]

theorem decBrc_eq_ok (f : BrcF) : decBrc h b = .ok f ↔ b = encBrc f ∧ h = f.h := by
  cases b with
  | j64 a o =>
    obtain ⟨ha, ho⟩ := (fits_j64 ..).mp hb
    cases f
    simp (disch := simp [*, toNat_lt, Nat.mod_lt]) [decBrc, encBrc, opndOf_eq, ofNat_eq_iff]
    tauto
  | _ => simp [decBrc, encBrc]

theorem decJmp_eq_ok (f : JmpF) : decJmp h b = .ok f ↔ b = encJmp f ∧ h = f.h := by
  cases b with
  | a64 a b m =>
    obtain ⟨ha, hb, hm⟩ := (fits_a64 ..).mp hb
    cases f
    simp (disch := simp [*]) [decJmp, encJmp, opndOf_eq]
    tauto
  | _ => simp [decJmp, encJmp]

theorem decCalli_eq_ok (f : CalliF) : decCalli h b = .ok f ↔ b = encCalli f ∧ h = f.h := by
  cases b with
  | a64 a b m =>
    obtain ⟨ha, hb, hm⟩ := (fits_a64 ..).mp hb
    cases f
    simp (disch := simp [*]) [decCalli, encCalli, opndOf_eq]
    tauto
  | _ => simp [decCalli, encCalli]

/-- The immediate of n bits starts at bit lo. -/
theorem decOne_eq_ok {lo n : Nat} (hn : lo + n ≤ 12) (f : OneF n) :
    decOne lo n h b = .ok f ↔ b = encOne lo f ∧ h = f.h ∧ immErr f.v = none := by
  cases b with
  | a64 a b m =>
    obtain ⟨ha, hb, hm⟩ := (fits_a64 ..).mp hb
    cases f
    have whole : lo + (n + (12 - lo - n)) = 12 := by omega
    simp (disch := simp [*, Nat.mod_lt, OpImm.codes_snd_lt]) [decOne, encOne, unpackBits, eq_packBits, opImmOf_eq_ok]
    tauto
  | _ => simp [decOne, encOne]

theorem decHstart_eq_ok (f : HstartF) : decHstart h b = .ok f ↔ b = encHstart f ∧ h = f.h ∧ immErr f.mask = none := by
  cases b with
  | c128 a b c d m i =>
    obtain ⟨ha, hb, hc, hd, hm, hi⟩ := (fits_c128 ..).mp hb
    cases f
    simp (disch := simp [*, toNat_lt, Nat.mod_lt, OpImm.codes_snd_lt]) [
      decHstart, encHstart, unpackBits, eq_packBits, stdMod, opndOf_eq, ofNat_eq_iff, opImmOf_eq_ok]
    tauto
  | _ => simp [decHstart, encHstart]

theorem decSpawn_eq_ok (f : SpawnF) : decSpawn h b = .ok f ↔ b = encSpawn f ∧ h = f.h ∧ optErr f.d = none := by
  cases b with
  | c128 a b c d m i =>
    obtain ⟨ha, hb, hc, hd, hm, hi⟩ := (fits_c128 ..).mp hb
    cases f
    simp (disch := simp [*]) [decSpawn, encSpawn, decFlagMod_eq_ok, opndOf_eq, optOf_eq, -Bool.exists_bool]
    tauto
  | _ => simp [decSpawn, encSpawn]

theorem decIdrd_eq_ok (f : IdrdF) : decIdrd h b = .ok f ↔ b = encIdrd f ∧ h = f.h := by
  cases b with
  | a64 a b m =>
    obtain ⟨ha, hb, hm⟩ := (fits_a64 ..).mp hb
    have odd : m / 8 % 64 = 0 → m / 8 % 2 = 0 := by omega
    cases f
    simp (disch := simp [*, toNat_lt, Nat.mod_lt]) [
      decIdrd, encIdrd, unpackBits, eq_packBits, opndOf_eq, ofNat_eq_iff]
    tauto
  | _ => simp [decIdrd, encIdrd]

theorem decDst_eq_ok (f : DstF) : decDst h b = .ok f ↔ b = encDst f ∧ h = f.h := by
  cases b with
  | a64 a b m =>
    obtain ⟨ha, hb, hm⟩ := (fits_a64 ..).mp hb
    cases f
    simp (disch := simp [*]) [decDst, encDst, decFlagMod_eq_ok, opndOf_eq, -Bool.exists_bool]
    tauto
  | _ => simp [decDst, encDst]

theorem decTrap_eq_ok (f : TrapF) : decTrap h b = .ok f ↔ b = encTrap f ∧ h = f.h := by
  cases b with
  | a64 a b m =>
    obtain ⟨ha, hb, hm⟩ := (fits_a64 ..).mp hb
    cases f
    simp (disch := simp [*, toNat_lt, Nat.mod_lt]) [decTrap, encTrap, unpackBits, eq_packBits, ofNat_eq_iff, encNul]
    tauto
  | _ => simp [decTrap, encTrap, encNul]

theorem decTret_eq_ok (next : Bool) (f : NulF) :
    decTret h b = .ok (if next then .tretNext f else .tret f) ↔ b = encTret next ∧ h = f.h := by
  cases b with
  | a64 a b m =>
    obtain ⟨ha, hb, hm⟩ := (fits_a64 ..).mp hb
    cases f
    cases next <;> simp (disch := simp [*]) [decTret, encTret, encNul, decFlagMod_eq_ok] <;> tauto
  | _ => simp [decTret, encTret, encNul]

theorem decSysrd_eq_ok_sysrd (f : SysRdF) : decSysrd h b = .ok (.sysrd f) ↔ b = encSysrd f ∧ h = f.h := by
  cases b with
  | c128 a b c d m i =>
    obtain ⟨ha, hb, hc, hd, hm, hi⟩ := (fits_c128 ..).mp hb
    obtain ⟨fh, k, d', r⟩ := f
    cases k <;> simp (disch := simp [*])
      [decSysrd, encSysrd, unpackBits, eq_packBits, regImm, decFlagMod_eq_ok, opndOf_eq] <;> tauto
  | _ => simp [decSysrd, encSysrd]

theorem decSysrd_eq_ok_sysrdClr (f : DstF) : decSysrd h b = .ok (.sysrdClr f) ↔ b = encSysrdClr f ∧ h = f.h := by
  cases b with
  | c128 a b c d m i =>
    obtain ⟨ha, hb, hc, hd, hm, hi⟩ := (fits_c128 ..).mp hb
    obtain ⟨fh, k, d'⟩ := f
    cases k <;> simp (disch := simp [*])
      [decSysrd, encSysrdClr, unpackBits, eq_packBits, regImm, decFlagMod_eq_ok, opndOf_eq] <;> tauto
  | _ => simp [decSysrd, encSysrdClr]

theorem decSyswr_eq_ok (i : Instr) :
    decSyswr h b = .ok i ↔ ∃ r a, i = syswrOf h r a ∧ b = encSyswr a r.code := by
  cases b with
  | c128 a b c d m i =>
    obtain ⟨ha, hb, hc, hd, hm, hi⟩ := (fits_c128 ..).mp hb
    simp (disch := simp [*]) [decSyswr, encSyswr, unpackBits, eq_packBits, regImm]
    constructor
    · rintro ⟨rfl, hx, rfl, rfl, rfl, r, hr, rfl⟩
      exact ⟨r, opndOf a, by cases r <;> rfl, ((opndOf_eq ha _).mp rfl), rfl, rfl, rfl, rfl, hr, hx⟩
    · rintro ⟨r, o, rfl, ho, rfl, rfl, rfl, rfl, hr, hx⟩
      obtain rfl := (opndOf_eq ha o).mpr ho
      exact ⟨rfl, hx, rfl, rfl, rfl, r, hr, by cases r <;> rfl⟩
  | _ => simp [decSyswr, encSyswr]

theorem decTlbi_eq_ok_all (f : TlbiAllF) :
    decTlbi h b = .ok (.tlbiAll f) ↔ b = encTlbi 0 nullCode nullCode f.scope ∧ h = f.h := by
  cases b with
  | c128 a b c d m i =>
    obtain ⟨ha, hb, hc, hd, hm, hi⟩ := (fits_c128 ..).mp hb
    cases f
    simp (disch := simp [*]) [decTlbi, encTlbi, unpackBits, eq_packBits]
    generalize m / 1024 % 4 = kind
    split <;> simp <;> tauto
  | _ => simp [decTlbi, encTlbi]

theorem decTlbi_eq_ok_asid (f : TlbiAsidF) :
    decTlbi h b = .ok (.tlbiAsid f) ↔ b = encTlbi 1 f.asid.code nullCode f.scope ∧ h = f.h := by
  cases b with
  | c128 a b c d m i =>
    obtain ⟨ha, hb, hc, hd, hm, hi⟩ := (fits_c128 ..).mp hb
    cases f
    simp (disch := simp [*]) [decTlbi, encTlbi, unpackBits, eq_packBits]
    generalize m / 1024 % 4 = kind
    split <;> simp (disch := simp [*]) [opndOf_eq] <;> tauto
  | _ => simp [decTlbi, encTlbi]

theorem decTlbi_eq_ok_va (f : TlbiVaF) :
    decTlbi h b = .ok (.tlbiVa f) ↔ b = encTlbi 2 f.asid.code f.va.code f.scope ∧ h = f.h := by
  cases b with
  | c128 a b c d m i =>
    obtain ⟨ha, hb, hc, hd, hm, hi⟩ := (fits_c128 ..).mp hb
    cases f
    simp (disch := simp [*]) [decTlbi, encTlbi, unpackBits, eq_packBits]
    generalize m / 1024 % 4 = kind
    split <;> simp (disch := simp [*]) [opndOf_eq] <;> tauto
  | _ => simp [decTlbi, encTlbi]

theorem decObjdef_eq_ok_objdef (f : ObjdefF) : decObjdef h b = .ok (.objdef f) ↔ b = encObjdef f ∧ h = f.h := by
  cases b with
  | c128 a b c d m i =>
    obtain ⟨ha, hb, hc, hd, hm, hi⟩ := (fits_c128 ..).mp hb
    cases f
    simp (disch := simp [*]) [decObjdef, encObjdef, decFlagMod_eq_ok, opndOf_eq]
    tauto
  | _ => simp [decObjdef, encObjdef]

theorem decObjdef_eq_ok_clr (f : SrcF) : decObjdef h b = .ok (.objdefClr f) ↔ b = encObjdefClr f ∧ h = f.h := by
  cases b with
  | c128 a b c d m i =>
    obtain ⟨ha, hb, hc, hd, hm, hi⟩ := (fits_c128 ..).mp hb
    cases f
    simp (disch := simp [*]) [decObjdef, encObjdefClr, decFlagMod_eq_ok, opndOf_eq]
    tauto
  | _ => simp [decObjdef, encObjdefClr]

theorem decPerf_eq_ok (clr : Bool) (f : PerfF) :
    decPerf h b = .ok (if clr then .perfClr f else .perf f) ↔ b = encPerf clr f ∧ h = f.h := by
  cases b with
  | c128 a b c d m i =>
    obtain ⟨ha, hb, hc, hd, hm, hi⟩ := (fits_c128 ..).mp hb
    obtain ⟨fh, k, d', e⟩ := f
    cases clr <;> cases k <;> simp (disch := simp [*, toNat_lt, Nat.mod_lt])
      [decPerf, encPerf, unpackBits, eq_packBits, decFlagMod_eq_ok, opndOf_eq, ofNat_eq_iff] <;> tauto
  | _ => simp [decPerf, encPerf]

/-! Class 7. -/

theorem decCpset_eq_ok (f : CpsetF) : decCpset h b = .ok f ↔ b = encCpset f ∧ h = f.h ∧ immErr f.a = none := by
  cases b with
  | c128 a b c d m i =>
    obtain ⟨ha, hb, hc, hd, hm, hi⟩ := (fits_c128 ..).mp hb
    cases f
    simp (disch := simp [*, toNat_lt, Nat.mod_lt, OpImm.codes_snd_lt]) [
      decCpset, encCpset, unpackBits, eq_packBits, ofNat_eq_iff, opImmOf_eq_ok]
    tauto
  | _ => simp [decCpset, encCpset]

theorem decCpgo_eq_ok (f : CpgoF) : decCpgo h b = .ok f ↔ b = encCpgo f ∧ h = f.h ∧ optErr f.d = none := by
  cases b with
  | c128 a b c d m i =>
    obtain ⟨ha, hb, hc, hd, hm, hi⟩ := (fits_c128 ..).mp hb
    cases f
    simp (disch := simp [*]) [decCpgo, encCpgo, decFlagMod_eq_ok, optOf_eq, -Bool.exists_bool]
    tauto
  | _ => simp [decCpgo, encCpgo]

theorem decCpred_eq_ok_cpred (f : CpredF) :
    decCpred h b = .ok (.cpred f) ↔ b = encCpred f ∧ h = f.h ∧ optErr f.d = none := by
  cases b with
  | c128 a b c d m i =>
    obtain ⟨ha, hb, hc, hd, hm, hi⟩ := (fits_c128 ..).mp hb
    cases f
    have hz : i = 0 ↔ i % 16 = 0 ∧ i / 16 % 16 = 0 ∧ i / 16 / 16 % 16 = 0 ∧ i / 16 / 16 / 16 % 8 = 0 ∧
        i / 16 / 16 / 16 / 8 % 2 = 0 ∧ i / 16 / 16 / 16 / 8 / 2 % 65536 = 0 := by omega
    rcases Nat.mod_two_eq_zero_or_one (i / 16 / 16 / 16 / 8) with hn | hn <;>
      simp (disch := simp [*]) [decCpred, encCpred, unpackBits, eq_packBits, stdMod, optOf_eq, hn, hz]
    tauto
  | _ => simp [decCpred, encCpred]

theorem decCpred_eq_ok_ranked (f : CpredRF) :
    decCpred h b = .ok (.cpredRanked f) ↔ b = encCpredR f ∧ h = f.h ∧ optErr f.d = none := by
  cases b with
  | c128 a b c d m i =>
    obtain ⟨ha, hb, hc, hd, hm, hi⟩ := (fits_c128 ..).mp hb
    cases f
    rcases Nat.mod_two_eq_zero_or_one (i / 16 / 16 / 16 / 8) with hn | hn <;>
      simp (disch := simp [*, toNat_lt, Nat.mod_lt])
        [decCpred, encCpredR, unpackBits, eq_packBits, stdMod, optOf_eq, ofNat_eq_iff, hn]
    tauto
  | _ => simp [decCpred, encCpredR]

theorem decCpq_eq_ok_cpq (f : CpqF) :
    decCpq h b = .ok (.cpq f) ↔ b = encCpq f ∧ h = f.h ∧ optErr (some f.x) = none := by
  cases b with
  | a64 a b m =>
    obtain ⟨ha, hb, hm⟩ := (fits_a64 ..).mp hb
    have hx := f.x.code_eq_nullCode
    obtain ⟨fh, k, d, x⟩ := f
    by_cases hn : b = nullCode <;> cases k <;>
      simp (disch := simp [*]) [decCpq, encCpq, decFlagMod_eq_ok, opndOf_eq, hn] <;> grind
  | _ => simp [decCpq, encCpq]

theorem decCpq_eq_ok_count (f : DstF) : decCpq h b = .ok (.cpqCount f) ↔ b = encDst f ∧ h = f.h := by
  cases b with
  | a64 a b m =>
    obtain ⟨ha, hb, hm⟩ := (fits_a64 ..).mp hb
    obtain ⟨fh, k, d⟩ := f
    by_cases hn : b = nullCode <;> cases k <;>
      simp (disch := simp [*]) [decCpq, encDst, decFlagMod_eq_ok, opndOf_eq, hn] <;> tauto
  | _ => simp [decCpq, encDst]

theorem decMmcfg_eq_ok (f : MmcfgF) : decMmcfg h b = .ok f ↔ b = encMmcfg f ∧ h = f.h ∧ optErr f.ctr = none := by
  cases b with
  | c128 a b c d m i =>
    obtain ⟨ha, hb, hc, hd, hm, hi⟩ := (fits_c128 ..).mp hb
    cases f
    simp (disch := simp [*, toNat_lt, Nat.mod_lt]) [
      decMmcfg, encMmcfg, unpackBits, eq_packBits, opndOf_eq, ofNat_eq_iff, optOf_eq]
    tauto
  | _ => simp [decMmcfg, encMmcfg]

theorem decMma_eq_ok (f : MmaF) (rp : Bool) : decMma h b = .ok (f, rp) ↔
    b = encMma f.a f.b f.c f.d f.row.toNat rp ∧ h = f.h ∧ optErr f.c = none ∧ (rp = true → f.row.toNat = 0) := by
  cases b with
  | c128 a b c d m i =>
    obtain ⟨ha, hb, hc, hd, hm, hi⟩ := (fits_c128 ..).mp hb
    cases f
    cases rp <;>
      simp (disch := simp [*, toNat_lt, Nat.mod_lt])
        [decMma, encMma, unpackBits, eq_packBits, opndOf_eq, optOf_eq, ofNat_eq_iff]
    · tauto
    · grind
  | _ => simp [decMma, encMma]

theorem decPrent_eq_ok (hold : Bool) (f : PrentF) : decPrent h b = .ok (if hold then .prentHold f else .prentOnce f) ↔
    b = encPrent hold f ∧ h = f.h ∧ immErr f.key = none := by
  cases b with
  | c128 a b c d m i =>
    obtain ⟨ha, hb, hc, hd, hm, hi⟩ := (fits_c128 ..).mp hb
    cases f
    rcases Nat.mod_two_eq_zero_or_one (m / 16 / 2 / 16 / 2) with hz | hz <;> cases hold <;>
      simp (disch := simp [*, toNat_lt, Nat.mod_lt, OpImm.codes_snd_lt])
        [decPrent, encPrent, unpackBits, eq_packBits, opndOf_eq, ofNat_eq_iff, opImmOf_eq_ok, hz] <;> tauto
  | _ => simp [decPrent, encPrent]

theorem decPrres_eq_ok (f : PrresF) : decPrres h b = .ok f ↔ b = encPrres f ∧ h = f.h := by
  cases b with
  | a64 a b m =>
    obtain ⟨ha, hb, hm⟩ := (fits_a64 ..).mp hb
    cases f
    simp (disch := simp [*, toNat_lt, Nat.mod_lt]) [
      decPrres, encPrres, unpackBits, eq_packBits, opndOf_eq, ofNat_eq_iff]
    tauto
  | _ => simp [decPrres, encPrres]

theorem decPrrel_eq_ok (f : PrrelF) : decPrrel h b = .ok f ↔ b = encPrrel f ∧ h = f.h := by
  cases b with
  | a64 a b m =>
    obtain ⟨ha, hb, hm⟩ := (fits_a64 ..).mp hb
    cases f
    simp (disch := simp [*, toNat_lt, Nat.mod_lt]) [decPrrel, encPrrel, unpackBits, eq_packBits, ofNat_eq_iff, encNul]
    tauto
  | _ => simp [decPrrel, encPrrel, encNul]

end

/-! The rows of the opcodes that have several. -/

section

variable {h : Hdr} {b : Body} {i : Instr}

theorem decSwz_rows (e : decSwz h b = .ok i) : (∃ f, i = .swz f) ∨ ∃ f, i = .swzMask f := by
  cases b with
  | c128 a b c d m i =>
    simp only [decSwz, unpackBits, bind_eq_ok] at e
    obtain ⟨_, -, _, -, _, -, _, -, _, -, e⟩ := e
    split at e <;> simp only [bind_eq_ok, Except.ok.injEq] at e <;> grind
  | _ => simp [decSwz] at e

theorem decAgld_rows (e : decAgld h b = .ok i) : (∃ f, i = .agldWait f) ∨ ∃ f, i = .agldTry f := by
  cases b with
  | c128 a b c d m i =>
    simp only [decAgld, unpackBits, bind_eq_ok] at e
    obtain ⟨_, -, _, -, e⟩ := e
    split at e <;> cases e <;> grind
  | _ => simp [decAgld] at e

theorem decLdf_rows (e : decLdf h b = .ok i) : (∃ f, i = .ldfWf f) ∨ ∃ f, i = .ldfWfc f := by
  simp only [decLdf, bind_eq_ok] at e
  obtain ⟨_, -, e⟩ := e
  split at e <;> cases e <;> grind

theorem decFemark_rows (e : decFemark h b = .ok i) :
    ∃ (full : Bool) (f : FemarkF), i = if full then .femarkFull f else .femarkEmpty f := by
  cases b with
  | c128 a b c d m i =>
    simp only [decFemark, unpackBits, bind_eq_ok, Except.ok.injEq] at e
    obtain ⟨_, -, _, -, _, -, _, -, n, -, rfl⟩ := e
    exact ⟨m / 2 ^ 10 % 2 ^ 1 == 1, ⟨h, opndOf a, n⟩, rfl⟩
  | _ => simp [decFemark] at e

theorem decFence_rows (e : decFence h b = .ok i) :
    (∃ f, i = .fenceLL f) ∨ (∃ f, i = .fenceSL f) ∨ (∃ f, i = .fenceSS f) ∨ ∃ f, i = .fenceFull f := by
  cases b with
  | a64 a b m =>
    simp only [decFence, unpackBits, bind_eq_ok, Except.ok.injEq] at e
    obtain ⟨_, -, _, -, rfl⟩ := e
    split <;> grind
  | _ => simp [decFence] at e

theorem decWaitc_rows (e : decWaitc h b = .ok i) : (∃ f, i = .waitc f) ∨ ∃ f, i = .waitcNt f := by
  cases b with
  | c128 a b c d m i =>
    simp only [decWaitc, unpackBits, bind_eq_ok] at e
    obtain ⟨_, -, _, -, _, -, _, -, _, -, _, -, e⟩ := e
    split at e <;> simp only [bind_eq_ok, Except.ok.injEq] at e <;> grind
  | _ => simp [decWaitc] at e

theorem decCntadd_rows (e : decCntadd h b = .ok i) :
    ∃ (err : Bool) (f : CntAddF), i = if err then .cntaddErr f else .cntadd f := by
  cases b with
  | c128 a b c d m i =>
    simp only [decCntadd, unpackBits, bind_eq_ok, Except.ok.injEq] at e
    obtain ⟨_, -, _, -, _, -, _, -, _, -, rfl⟩ := e
    exact ⟨_, _, rfl⟩
  | _ => simp [decCntadd] at e

theorem decTret_rows (e : decTret h b = .ok i) :
    ∃ (next : Bool) (f : NulF), i = if next then .tretNext f else .tret f := by
  cases b with
  | a64 a b m =>
    simp only [decTret, bind_eq_ok, Except.ok.injEq] at e
    obtain ⟨k, -, _, -, _, -, _, -, rfl⟩ := e
    exact ⟨_, _, rfl⟩
  | _ => simp [decTret] at e

theorem decSysrd_rows (e : decSysrd h b = .ok i) : (∃ f, i = .sysrd f) ∨ ∃ f, i = .sysrdClr f := by
  cases b with
  | c128 a b c d m i =>
    simp only [decSysrd, unpackBits, bind_eq_ok] at e
    obtain ⟨_, -, _, -, _, -, _, -, _, -, _, -, e⟩ := e
    split at e <;> simp only [bind_eq_ok, Except.ok.injEq] at e <;> grind
  | _ => simp [decSysrd] at e

theorem decTlbi_rows (e : decTlbi h b = .ok i) :
    (∃ f, i = .tlbiAll f) ∨ (∃ f, i = .tlbiAsid f) ∨ ∃ f, i = .tlbiVa f := by
  cases b with
  | c128 a b c d m i =>
    simp only [decTlbi, unpackBits, bind_eq_ok] at e
    obtain ⟨_, -, _, -, _, -, _, -, e⟩ := e
    split at e <;> simp only [bind_eq_ok, Except.ok.injEq, reduceCtorEq] at e <;> grind
  | _ => simp [decTlbi] at e

theorem decObjdef_rows (e : decObjdef h b = .ok i) : (∃ f, i = .objdef f) ∨ ∃ f, i = .objdefClr f := by
  cases b with
  | c128 a b c d m i =>
    simp only [decObjdef, bind_eq_ok] at e
    obtain ⟨_, -, _, -, _, -, _, -, _, -, e⟩ := e
    split at e <;> simp only [bind_eq_ok, Except.ok.injEq] at e <;> grind
  | _ => simp [decObjdef] at e

theorem decPerf_rows (e : decPerf h b = .ok i) : ∃ (clr : Bool) (f : PerfF), i = if clr then .perfClr f else .perf f := by
  cases b with
  | c128 a b c d m i =>
    simp only [decPerf, unpackBits, bind_eq_ok, Except.ok.injEq] at e
    obtain ⟨_, -, _, -, _, -, _, -, _, -, rfl⟩ := e
    exact ⟨_, _, rfl⟩
  | _ => simp [decPerf] at e

theorem decCpred_rows (e : decCpred h b = .ok i) : (∃ f, i = .cpred f) ∨ ∃ f, i = .cpredRanked f := by
  cases b with
  | c128 a b c d m i =>
    simp only [decCpred, unpackBits, bind_eq_ok] at e
    obtain ⟨_, -, _, -, _, -, _, -, _, -, _, -, _, -, _, -, _, -, _, -, e⟩ := e
    split at e <;> simp only [bind_eq_ok, Except.ok.injEq] at e <;> grind
  | _ => simp [decCpred] at e

theorem decCpq_rows (e : decCpq h b = .ok i) : (∃ f, i = .cpq f) ∨ ∃ f, i = .cpqCount f := by
  cases b with
  | a64 a b m =>
    simp only [decCpq, bind_eq_ok, Except.ok.injEq] at e
    obtain ⟨_, -, _, -, rfl⟩ := e
    split <;> grind
  | _ => simp [decCpq] at e

theorem decPrent_rows (e : decPrent h b = .ok i) :
    ∃ (hold : Bool) (f : PrentF), i = if hold then .prentHold f else .prentOnce f := by
  cases b with
  | c128 a b c d m i =>
    simp only [decPrent, unpackBits, bind_eq_ok, Except.ok.injEq] at e
    obtain ⟨_, -, _, -, _, -, _, -, _, -, rfl⟩ := e
    exact ⟨_, _, rfl⟩
  | _ => simp [decPrent] at e

end

end Sys2Proof
end

section
/-! PROOF. The opcode map (R51): decoding by opcode and fields against each instruction's own opcode and fields. -/

namespace Sys2Proof

theorem packBits_lt_of {fs : List (Nat × Nat)} {n : Nat} (h : Fits fs) (hn : 2 ^ (fs.map Prod.fst).sum ≤ n) :
    packBits fs < n :=
  (packBits_lt h).trans_le hn

/-- Every field of every instruction fits its width. -/
theorem Instr.parts_fits {i : Instr} {op : Nat} {b : Body} (hp : i.parts = some (op, b)) : b.Fits := by
  cases i <;> cases hp
  all_goals
    simp (disch := simp [toNat_lt, OpImm.codes_snd_lt]) only [fits_a64, fits_j64, fits_b96, fits_m96, fits_c128,
      packBits_lt_of, stdMod, flagMod, regImm, scopeImm, atomImm, Qual.bits, List.cons_append, List.nil_append, toNat_lt,
      OpImm.codes_snd_lt, OpImm.codes_fst_lt, Opnd.code_lt, optCode_lt, nullCode, boolBit_false, boolBit_true, and_self,
      Nat.reduceLT, encInt3, encAddI, encInt4, encInt2, encLea, encAidx, encMovI, encCmp, encShift, encBfx, encBfi,
      encSel, encPack, encUnpk, encSwz, encSwzM, encLane, encPred3, encPred2, encPRed, encFp3, encFp4, encFp2, encDqblk,
      encFcmp, encCvt, encQblk, encBhdr, encBset, encBchk, encMem, encElem, encPref, encAgld, encFemark, encBlk, encFence,
      encAtom, encCas, encWaitc, encWaitcNt, encCntadd, encWaitf, encNul, encBr, encBrc, encJmp, encCalli, encOne,
      encHstart, encSpawn, encIdrd, encDst, encTrap, encTret, encSysrd, encSysrdClr, encSyswr, encTlbi, encObjdef,
      encObjdefClr, encPerf, encCpset, encCpgo, encCpred, encCpredR, encCpq, encMmcfg, encMma, encPrent, encPrres,
      encPrrel]

/-- The format of an instruction's fields is its own and its opcode's. -/
theorem Instr.parts_fmt {i : Instr} {op : Nat} {b : Body} (hp : i.parts = some (op, b)) :
    i.fmt = some b.fmt ∧ opcodeFmt op = some b.fmt ∧ op < 1024 := by
  cases i <;> cases hp <;> exact ⟨rfl, rfl, by decide⟩

/-! An instruction that no condition of R50 makes undefined is decoded from its own opcode and fields. -/

theorem firstErr_eq_none {l : List (Option DecErr)} : firstErr l = none ↔ ∀ e ∈ l, e = none := by
  simp [firstErr]

theorem eq_ok_of_map {ε α β : Type} {x : Except ε α} {y : Except ε β} {a : α} {f : α → β} (h : x = .ok a)
    (hy : y = x.map f) : y = .ok (f a) := by
  rw [hy, h]; rfl

theorem mkErr_opt {mkd : Bool} {d : Option Opnd} (h : mkErr mkd d = none) : optErr d = none :=
  firstErr_eq_none.mp h _ (by simp)

theorem memErr_opt {x y z w : Bool} {f : MemF} (h : memErr x y z w f = none) : optErr f.index = none :=
  firstErr_eq_none.mp h _ (by simp)

theorem elemErr_opt {x y : Bool} {f : ElemF} (h : elemErr x y f = none) : optErr f.index = none :=
  firstErr_eq_none.mp h _ (by simp)

/-- SYSWR's plain row is that of the registers it may write. -/
theorem syswrOf_writable {f : SysWrF} (h : f.reg.writable = true) : Instr.syswr f = syswrOf f.h f.reg f.a := by
  obtain ⟨fh, r, a⟩ := f
  cases r with
  | rtn | hcfg | shst | kreq => cases h
  | _ => rfl

theorem parseOp_parts {i : Instr} {op : Nat} {b : Body} (hf : fieldErr i = none) (hp : i.parts = some (op, b)) :
    parseOp op i.hdr b = .ok i := by
  have hb := i.parts_fits hp
  have mem {l : List (Option DecErr)} {e : Option DecErr} (h : firstErr l = none) (he : e ∈ l) : e = none :=
    firstErr_eq_none.mp h e he
  cases i
  -- Class 0
  case add f | sub f | mul f | mulh f | div f | rem f | min f | max f | and f | or f | xor f | andn f =>
    cases hp
    exact eq_ok_of_map ((decInt3_eq_ok hb f).mpr ⟨rfl, rfl⟩) rfl
  case addi f => cases hp; exact eq_ok_of_map ((decAddI_eq_ok hb f).mpr ⟨rfl, rfl⟩) rfl
  case mad f | sad f | idot4 f => cases hp; exact eq_ok_of_map ((decInt4_eq_ok hb f).mpr ⟨rfl, rfl⟩) rfl
  case abs f | neg f | clz f | popc f | not f | sext f | zext f | mov f =>
    cases hp
    exact eq_ok_of_map ((decInt2_eq_ok hb f).mpr ⟨rfl, rfl⟩) rfl
  case lea f => cases hp; exact eq_ok_of_map ((decLea_eq_ok hb f).mpr ⟨rfl, rfl, mem hf (by simp)⟩) rfl
  case aidx f => cases hp; exact eq_ok_of_map ((decAidx_eq_ok hb f).mpr ⟨rfl, rfl⟩) rfl
  case movi f | movhi f => cases hp; exact eq_ok_of_map ((decMovI_eq_ok hb f).mpr ⟨rfl, rfl⟩) rfl
  case cmp f => cases hp; exact eq_ok_of_map ((decCmp_eq_ok hb f).mpr ⟨rfl, rfl⟩) rfl
  -- Class 1
  case shl f | shr f | sar f | rot f =>
    cases hp
    exact eq_ok_of_map ((decShift_eq_ok hb f).mpr ⟨rfl, rfl, mem hf (by simp)⟩) rfl
  case bfx f => cases hp; exact eq_ok_of_map ((decBfx_eq_ok hb f).mpr ⟨rfl, rfl⟩) rfl
  case bfi f => cases hp; exact eq_ok_of_map ((decBfi_eq_ok hb f).mpr ⟨rfl, rfl⟩) rfl
  case sel f => cases hp; exact eq_ok_of_map ((decSel_eq_ok hb f).mpr ⟨rfl, rfl⟩) rfl
  case pack f => cases hp; exact eq_ok_of_map ((decPack_eq_ok hb f).mpr ⟨rfl, rfl⟩) rfl
  case unpk f => cases hp; exact eq_ok_of_map ((decUnpk_eq_ok hb f).mpr ⟨rfl, rfl⟩) rfl
  case swz f => cases hp; exact (decSwz_eq_ok_swz hb f).mpr ⟨rfl, rfl, mem hf (by simp)⟩
  case swzMask f => cases hp; exact (decSwz_eq_ok_swzMask hb f).mpr ⟨rfl, rfl⟩
  case bcast f | lrot f => cases hp; exact eq_ok_of_map ((decLane_eq_ok hb f).mpr ⟨rfl, rfl, mem hf (by simp)⟩) rfl
  case pand f | por f | pxor f => cases hp; exact eq_ok_of_map ((decPred3_eq_ok hb f).mpr ⟨rfl, rfl⟩) rfl
  case pnot f => cases hp; exact eq_ok_of_map ((decPred2_eq_ok hb f).mpr ⟨rfl, rfl⟩) rfl
  case pany f | pall f | pcnt f =>
    cases hp
    exact eq_ok_of_map ((decPRed_eq_ok hb f).mpr ⟨rfl, rfl, mem hf (by simp)⟩) rfl
  -- Classes 2 and 3
  case fadd f | fsub f | fmul f | fdiv f | fmin f | fmax f | fscale f =>
    cases hp
    exact eq_ok_of_map ((decFp3_eq_ok hb f).mpr ⟨rfl, rfl⟩) rfl
  case fma f | fms f | fnma f => cases hp; exact eq_ok_of_map ((decFp4_eq_ok hb f).mpr ⟨rfl, rfl⟩) rfl
  case fabs f | fneg f | fsqrt f | frcp f | frsq f | fexp2 f | flog2 f | fsin f | fcos f | ftanh f | fclass f |
      frnd f | fred f =>
    cases hp
    exact eq_ok_of_map ((decFp2_eq_ok hb f).mpr ⟨rfl, rfl⟩) rfl
  case fcmp f => cases hp; exact eq_ok_of_map ((decFcmp_eq_ok hb f).mpr ⟨rfl, rfl⟩) rfl
  case cvt f | cvts f => cases hp; exact eq_ok_of_map ((decCvt_eq_ok hb f).mpr ⟨rfl, rfl⟩) rfl
  case qblk f =>
    cases hp
    exact eq_ok_of_map ((decQblk_eq_ok hb f).mpr ⟨rfl, rfl, mem hf (by simp), mem hf (by simp)⟩) rfl
  case dqblk f => cases hp; exact eq_ok_of_map ((decDqblk_eq_ok hb f).mpr ⟨rfl, rfl⟩) rfl
  case bhdr f => cases hp; exact eq_ok_of_map ((decBhdr_eq_ok hb f).mpr ⟨rfl, rfl⟩) rfl
  case bset f => cases hp; exact eq_ok_of_map ((decBset_eq_ok hb f).mpr ⟨rfl, rfl⟩) rfl
  case bchk f => cases hp; exact eq_ok_of_map ((decBchk_eq_ok hb f).mpr ⟨rfl, rfl⟩) rfl
  -- Class 4
  case ld f | st f | agst f | stf f | cntrd f =>
    cases hp
    exact eq_ok_of_map ((decMemAs_eq_ok hb (by decide) f).mpr ⟨rfl, rfl, memErr_opt hf⟩) rfl
  case gath f | scat f => cases hp; exact eq_ok_of_map ((decElem_eq_ok hb f).mpr ⟨rfl, rfl, elemErr_opt hf⟩) rfl
  case pref f => cases hp; exact eq_ok_of_map ((decPref_eq_ok hb f).mpr ⟨rfl, rfl, hf⟩) rfl
  case agldWait f => cases hp; exact (decAgld_eq_ok hb f).1.mpr ⟨rfl, rfl⟩
  case agldTry f => cases hp; exact (decAgld_eq_ok hb f).2.mpr ⟨rfl, rfl⟩
  case ldfWf f => cases hp; exact (decLdf_eq_ok hb f).1.mpr ⟨rfl, rfl, memErr_opt hf⟩
  case ldfWfc f => cases hp; exact (decLdf_eq_ok hb f).2.mpr ⟨rfl, rfl, memErr_opt hf⟩
  case femarkFull f => cases hp; exact (decFemark_eq_ok hb true f).mpr ⟨rfl, rfl, hf⟩
  case femarkEmpty f => cases hp; exact (decFemark_eq_ok hb false f).mpr ⟨rfl, rfl, hf⟩
  case spill f | fill f => cases hp; exact eq_ok_of_map ((decBlk_eq_ok hb f).mpr ⟨rfl, rfl⟩) rfl
  case fenceLL f => cases hp; exact (decFence_eq_ok hb f).1.mpr ⟨rfl, rfl⟩
  case fenceSL f => cases hp; exact (decFence_eq_ok hb f).2.1.mpr ⟨rfl, rfl⟩
  case fenceSS f => cases hp; exact (decFence_eq_ok hb f).2.2.1.mpr ⟨rfl, rfl⟩
  case fenceFull f => cases hp; exact (decFence_eq_ok hb f).2.2.2.mpr ⟨rfl, rfl⟩
  -- Class 5
  case atadd f | atmin f | atmax f | atand f | ator f | atxor f | atxch f | atfadd f | atinc f | atdec f =>
    cases hp
    exact eq_ok_of_map ((decAtom_eq_ok hb f).mpr ⟨rfl, rfl, mkErr_opt (mkd := f.mkd) (mem hf (by simp))⟩) rfl
  case atcas f =>
    cases hp
    exact eq_ok_of_map ((decCas_eq_ok hb f).mpr ⟨rfl, rfl, mkErr_opt (mkd := f.mkd) (mem hf (by simp))⟩) rfl
  case waitc f => cases hp; exact (decWaitc_eq_ok_waitc hb f).mpr ⟨rfl, rfl⟩
  case waitcNt f => cases hp; exact (decWaitc_eq_ok_waitcNt hb f).mpr ⟨rfl, rfl⟩
  case cntadd f => cases hp; exact (decCntadd_eq_ok hb false f).mpr ⟨rfl, rfl⟩
  case cntaddErr f => cases hp; exact (decCntadd_eq_ok hb true f).mpr ⟨rfl, rfl⟩
  case waitf f => cases hp; exact eq_ok_of_map ((decWaitf_eq_ok hb f).mpr ⟨rfl, rfl, mem hf (by simp)⟩) rfl
  -- Class 6
  case iflush f | rbdone f | nop64 f | done f | genb f =>
    cases hp
    exact eq_ok_of_map ((decNul_eq_ok hb f).mpr ⟨rfl, rfl⟩) rfl
  case br f | safe f => cases hp; exact eq_ok_of_map ((decBr_eq_ok hb f).mpr ⟨rfl, rfl⟩) rfl
  case brc f | call f | loop f => cases hp; exact eq_ok_of_map ((decBrc_eq_ok hb f).mpr ⟨rfl, rfl⟩) rfl
  case jmp f | ret f => cases hp; exact eq_ok_of_map ((decJmp_eq_ok hb f).mpr ⟨rfl, rfl⟩) rfl
  case calli f => cases hp; exact eq_ok_of_map ((decCalli_eq_ok hb f).mpr ⟨rfl, rfl⟩) rfl
  case yield f | hjoin f | itset f | itinc f | seed f | unpin f =>
    cases hp
    exact eq_ok_of_map ((decOne_eq_ok hb (by decide) f).mpr ⟨rfl, rfl, hf⟩) rfl
  case hstart f => cases hp; exact eq_ok_of_map ((decHstart_eq_ok hb f).mpr ⟨rfl, rfl, mem hf (by simp)⟩) rfl
  case spawn f => cases hp; exact eq_ok_of_map ((decSpawn_eq_ok hb f).mpr ⟨rfl, rfl, mkErr_opt hf⟩) rfl
  case idrd f => cases hp; exact eq_ok_of_map ((decIdrd_eq_ok hb f).mpr ⟨rfl, rfl⟩) rfl
  case itrd f | mmrp f => cases hp; exact eq_ok_of_map ((decDst_eq_ok hb f).mpr ⟨rfl, rfl⟩) rfl
  case trap f => cases hp; exact eq_ok_of_map ((decTrap_eq_ok hb f).mpr ⟨rfl, rfl⟩) rfl
  case tret f => cases hp; exact (decTret_eq_ok hb false f).mpr ⟨rfl, rfl⟩
  case tretNext f => cases hp; exact (decTret_eq_ok hb true f).mpr ⟨rfl, rfl⟩
  case sysrd f => cases hp; exact (decSysrd_eq_ok_sysrd hb f).mpr ⟨rfl, rfl⟩
  case sysrdClr f => cases hp; exact (decSysrd_eq_ok_sysrdClr hb f).mpr ⟨rfl, rfl⟩
  case syswr f => cases hp; exact (decSyswr_eq_ok hb _).mpr ⟨_, _, syswrOf_writable ((chk_eq_none ..).mp hf), rfl⟩
  case syswrRtn f => cases hp; exact (decSyswr_eq_ok hb _).mpr ⟨.rtn f.n, f.a, rfl, rfl⟩
  case syswrHcfg f => cases hp; exact (decSyswr_eq_ok hb _).mpr ⟨.hcfg, f.a, rfl, rfl⟩
  case syswrShst f => cases hp; exact (decSyswr_eq_ok hb _).mpr ⟨.shst, f.a, rfl, rfl⟩
  case syswrKreq f => cases hp; exact (decSyswr_eq_ok hb _).mpr ⟨.kreq, f.a, rfl, rfl⟩
  case tlbiAll f => cases hp; exact (decTlbi_eq_ok_all hb f).mpr ⟨rfl, rfl⟩
  case tlbiAsid f => cases hp; exact (decTlbi_eq_ok_asid hb f).mpr ⟨rfl, rfl⟩
  case tlbiVa f => cases hp; exact (decTlbi_eq_ok_va hb f).mpr ⟨rfl, rfl⟩
  case objdef f => cases hp; exact (decObjdef_eq_ok_objdef hb f).mpr ⟨rfl, rfl⟩
  case objdefClr f => cases hp; exact (decObjdef_eq_ok_clr hb f).mpr ⟨rfl, rfl⟩
  case perf f => cases hp; exact (decPerf_eq_ok hb false f).mpr ⟨rfl, rfl⟩
  case perfClr f => cases hp; exact (decPerf_eq_ok hb true f).mpr ⟨rfl, rfl⟩
  -- Class 7
  case cpset f => cases hp; exact eq_ok_of_map ((decCpset_eq_ok hb f).mpr ⟨rfl, rfl, mem hf (by simp)⟩) rfl
  case cpgo f => cases hp; exact eq_ok_of_map ((decCpgo_eq_ok hb f).mpr ⟨rfl, rfl, mkErr_opt hf⟩) rfl
  case cpred f => cases hp; exact (decCpred_eq_ok_cpred hb f).mpr ⟨rfl, rfl, mkErr_opt (mkd := f.mkd) (mem hf (by simp))⟩
  case cpredRanked f =>
    cases hp
    exact (decCpred_eq_ok_ranked hb f).mpr ⟨rfl, rfl, mkErr_opt (mkd := f.mkd) (mem hf (by simp))⟩
  case cpq f => cases hp; exact (decCpq_eq_ok_cpq hb f).mpr ⟨rfl, rfl, hf⟩
  case cpqCount f => cases hp; exact (decCpq_eq_ok_count hb f).mpr ⟨rfl, rfl⟩
  case mmcfg f => cases hp; exact eq_ok_of_map ((decMmcfg_eq_ok hb f).mpr ⟨rfl, rfl, mem hf (by simp)⟩) rfl
  case mma f =>
    cases hp
    exact eq_ok_of_map (f := mmaOf false) ((decMma_eq_ok hb f false).mpr ⟨rfl, rfl, hf, nofun⟩) rfl
  case mmaRp f =>
    cases hp
    exact eq_ok_of_map (f := mmaOf false) ((decMma_eq_ok hb ⟨f.h, f.a, f.b, f.c, f.d, 0⟩ true).mpr
      ⟨rfl, rfl, hf, fun _ => rfl⟩) rfl
  case mmw f =>
    cases hp
    exact eq_ok_of_map (f := mmaOf true) ((decMma_eq_ok hb f false).mpr ⟨rfl, rfl, hf, nofun⟩) rfl
  case mmwRp f =>
    cases hp
    exact eq_ok_of_map (f := mmaOf true) ((decMma_eq_ok hb ⟨f.h, f.a, f.b, f.c, f.d, 0⟩ true).mpr
      ⟨rfl, rfl, hf, fun _ => rfl⟩) rfl
  case prentOnce f => cases hp; exact (decPrent_eq_ok hb false f).mpr ⟨rfl, rfl, hf⟩
  case prentHold f => cases hp; exact (decPrent_eq_ok hb true f).mpr ⟨rfl, rfl, hf⟩
  case prres f => cases hp; exact eq_ok_of_map ((decPrres_eq_ok hb f).mpr ⟨rfl, rfl⟩) rfl
  case prrel f => cases hp; exact eq_ok_of_map ((decPrrel_eq_ok hb f).mpr ⟨rfl, rfl⟩) rfl
  case leave f => cases hp; exact eq_ok_of_map ((decOne_eq_ok hb (by decide) f).mpr ⟨rfl, rfl, mem hf (by simp)⟩) rfl
  -- An event has no fields.
  all_goals cases hp

/-! What is decoded has the opcode and fields that it was decoded from. -/

section

variable {h : Hdr} {b : Body} {i : Instr} {k : Nat} (hb : b.Fits)
include hb

theorem parse0_parts (e : parse0 k h b = .ok i) : i.parts = some (128 * 0 + k, b) ∧ h = i.hdr := by
  unfold parse0 at e
  split at e
  all_goals
    simp only [map_eq_ok, reduceCtorEq, decInt3_eq_ok hb, decAddI_eq_ok hb, decInt4_eq_ok hb, decInt2_eq_ok hb,
      decLea_eq_ok hb, decAidx_eq_ok hb, decMovI_eq_ok hb, decCmp_eq_ok hb] at e
  all_goals
    obtain ⟨f, hr, rfl⟩ := e
    simp only [hr]
    exact ⟨rfl, rfl⟩

theorem decSwz_parts (e : decSwz h b = .ok i) : i.parts = some (0x091, b) ∧ h = i.hdr := by
  rcases decSwz_rows e with ⟨f, rfl⟩ | ⟨f, rfl⟩
  · obtain ⟨rfl, rfl, -⟩ := (decSwz_eq_ok_swz hb f).mp e
    exact ⟨rfl, rfl⟩
  · obtain ⟨rfl, rfl⟩ := (decSwz_eq_ok_swzMask hb f).mp e
    exact ⟨rfl, rfl⟩

theorem parse1_parts (e : parse1 k h b = .ok i) : i.parts = some (128 * 1 + k, b) ∧ h = i.hdr := by
  unfold parse1 at e
  split at e
  case h_18 => exact decSwz_parts hb e
  all_goals
    simp only [map_eq_ok, reduceCtorEq, decInt3_eq_ok hb, decInt2_eq_ok hb, decShift_eq_ok hb, decBfx_eq_ok hb,
      decBfi_eq_ok hb, decSel_eq_ok hb, decPack_eq_ok hb, decUnpk_eq_ok hb, decLane_eq_ok hb, decPred3_eq_ok hb,
      decPred2_eq_ok hb, decPRed_eq_ok hb] at e
  all_goals
    obtain ⟨f, hr, rfl⟩ := e
    simp only [hr]
    exact ⟨rfl, rfl⟩

theorem parse2_parts (e : parse2 k h b = .ok i) : i.parts = some (128 * 2 + k, b) ∧ h = i.hdr := by
  unfold parse2 at e
  split at e
  all_goals
    simp only [map_eq_ok, reduceCtorEq, decFp3_eq_ok hb, decFp4_eq_ok hb, decFp2_eq_ok hb, decFcmp_eq_ok hb] at e
  all_goals
    obtain ⟨f, hr, rfl⟩ := e
    simp only [hr]
    exact ⟨rfl, rfl⟩

theorem parse3_parts (e : parse3 k h b = .ok i) : i.parts = some (128 * 3 + k, b) ∧ h = i.hdr := by
  unfold parse3 at e
  split at e
  all_goals
    simp only [map_eq_ok, reduceCtorEq, decCvt_eq_ok hb, decQblk_eq_ok hb, decDqblk_eq_ok hb, decBhdr_eq_ok hb,
      decBset_eq_ok hb, decBchk_eq_ok hb, decInt4_eq_ok hb] at e
  all_goals
    obtain ⟨f, hr, rfl⟩ := e
    simp only [hr]
    exact ⟨rfl, rfl⟩

theorem decAgld_parts (e : decAgld h b = .ok i) : i.parts = some (0x204, b) ∧ h = i.hdr := by
  rcases decAgld_rows e with ⟨f, rfl⟩ | ⟨f, rfl⟩
  · obtain ⟨rfl, rfl⟩ := (decAgld_eq_ok hb f).1.mp e
    exact ⟨rfl, rfl⟩
  · obtain ⟨rfl, rfl⟩ := (decAgld_eq_ok hb f).2.mp e
    exact ⟨rfl, rfl⟩

theorem decLdf_parts (e : decLdf h b = .ok i) : i.parts = some (0x206, b) ∧ h = i.hdr := by
  rcases decLdf_rows e with ⟨f, rfl⟩ | ⟨f, rfl⟩
  · obtain ⟨rfl, rfl, -⟩ := (decLdf_eq_ok hb f).1.mp e
    exact ⟨rfl, rfl⟩
  · obtain ⟨rfl, rfl, -⟩ := (decLdf_eq_ok hb f).2.mp e
    exact ⟨rfl, rfl⟩

theorem decFemark_parts (e : decFemark h b = .ok i) : i.parts = some (0x208, b) ∧ h = i.hdr := by
  obtain ⟨full, f, rfl⟩ := decFemark_rows e
  obtain ⟨rfl, rfl, -⟩ := (decFemark_eq_ok hb full f).mp e
  cases full <;> exact ⟨rfl, rfl⟩

theorem decFence_parts (e : decFence h b = .ok i) : i.parts = some (0x20C, b) ∧ h = i.hdr := by
  rcases decFence_rows e with ⟨f, rfl⟩ | ⟨f, rfl⟩ | ⟨f, rfl⟩ | ⟨f, rfl⟩
  · obtain ⟨rfl, rfl⟩ := (decFence_eq_ok hb f).1.mp e
    exact ⟨rfl, rfl⟩
  · obtain ⟨rfl, rfl⟩ := (decFence_eq_ok hb f).2.1.mp e
    exact ⟨rfl, rfl⟩
  · obtain ⟨rfl, rfl⟩ := (decFence_eq_ok hb f).2.2.1.mp e
    exact ⟨rfl, rfl⟩
  · obtain ⟨rfl, rfl⟩ := (decFence_eq_ok hb f).2.2.2.mp e
    exact ⟨rfl, rfl⟩

theorem parse4_parts (e : parse4 k h b = .ok i) : i.parts = some (128 * 4 + k, b) ∧ h = i.hdr := by
  unfold parse4 at e
  split at e
  case h_5 => exact decAgld_parts hb e
  case h_7 => exact decLdf_parts hb e
  case h_9 => exact decFemark_parts hb e
  case h_13 => exact decFence_parts hb e
  all_goals
    simp only [map_eq_ok, reduceCtorEq, decMemAs_eq_ok hb (show 0 < 4 by decide), decMemAs_eq_ok hb (show 3 < 4 by decide),
      decElem_eq_ok hb, decBlk_eq_ok hb, decPref_eq_ok hb] at e
  all_goals
    obtain ⟨f, hr, rfl⟩ := e
    simp only [hr]
    exact ⟨rfl, rfl⟩

theorem decWaitc_parts (e : decWaitc h b = .ok i) : i.parts = some (0x28B, b) ∧ h = i.hdr := by
  rcases decWaitc_rows e with ⟨f, rfl⟩ | ⟨f, rfl⟩
  · obtain ⟨rfl, rfl⟩ := (decWaitc_eq_ok_waitc hb f).mp e
    exact ⟨rfl, rfl⟩
  · obtain ⟨rfl, rfl⟩ := (decWaitc_eq_ok_waitcNt hb f).mp e
    exact ⟨rfl, rfl⟩

theorem decCntadd_parts (e : decCntadd h b = .ok i) : i.parts = some (0x28C, b) ∧ h = i.hdr := by
  obtain ⟨err, f, rfl⟩ := decCntadd_rows e
  obtain ⟨rfl, rfl⟩ := (decCntadd_eq_ok hb err f).mp e
  cases err <;> exact ⟨rfl, rfl⟩

theorem parse5_parts (e : parse5 k h b = .ok i) : i.parts = some (128 * 5 + k, b) ∧ h = i.hdr := by
  unfold parse5 at e
  split at e
  case h_12 => exact decWaitc_parts hb e
  case h_13 => exact decCntadd_parts hb e
  all_goals
    simp only [map_eq_ok, reduceCtorEq, decAtom_eq_ok hb, decCas_eq_ok hb, decMemAs_eq_ok hb (show 0 < 4 by decide),
      decWaitf_eq_ok hb, decNul_eq_ok hb] at e
  all_goals
    obtain ⟨f, hr, rfl⟩ := e
    simp only [hr]
    exact ⟨rfl, rfl⟩

theorem decTret_parts (e : decTret h b = .ok i) : i.parts = some (0x314, b) ∧ h = i.hdr := by
  obtain ⟨next, f, rfl⟩ := decTret_rows e
  obtain ⟨rfl, rfl⟩ := (decTret_eq_ok hb next f).mp e
  cases next <;> exact ⟨rfl, rfl⟩

theorem decSysrd_parts (e : decSysrd h b = .ok i) : i.parts = some (0x315, b) ∧ h = i.hdr := by
  rcases decSysrd_rows e with ⟨f, rfl⟩ | ⟨f, rfl⟩
  · obtain ⟨rfl, rfl⟩ := (decSysrd_eq_ok_sysrd hb f).mp e
    exact ⟨rfl, rfl⟩
  · obtain ⟨rfl, rfl⟩ := (decSysrd_eq_ok_sysrdClr hb f).mp e
    exact ⟨rfl, rfl⟩

theorem decSyswr_parts (e : decSyswr h b = .ok i) : i.parts = some (0x316, b) ∧ h = i.hdr := by
  obtain ⟨r, a, rfl, rfl⟩ := (decSyswr_eq_ok hb i).mp e
  cases r <;> exact ⟨rfl, rfl⟩

theorem decTlbi_parts (e : decTlbi h b = .ok i) : i.parts = some (0x317, b) ∧ h = i.hdr := by
  rcases decTlbi_rows e with ⟨f, rfl⟩ | ⟨f, rfl⟩ | ⟨f, rfl⟩
  · obtain ⟨rfl, rfl⟩ := (decTlbi_eq_ok_all hb f).mp e
    exact ⟨rfl, rfl⟩
  · obtain ⟨rfl, rfl⟩ := (decTlbi_eq_ok_asid hb f).mp e
    exact ⟨rfl, rfl⟩
  · obtain ⟨rfl, rfl⟩ := (decTlbi_eq_ok_va hb f).mp e
    exact ⟨rfl, rfl⟩

theorem decObjdef_parts (e : decObjdef h b = .ok i) : i.parts = some (0x318, b) ∧ h = i.hdr := by
  rcases decObjdef_rows e with ⟨f, rfl⟩ | ⟨f, rfl⟩
  · obtain ⟨rfl, rfl⟩ := (decObjdef_eq_ok_objdef hb f).mp e
    exact ⟨rfl, rfl⟩
  · obtain ⟨rfl, rfl⟩ := (decObjdef_eq_ok_clr hb f).mp e
    exact ⟨rfl, rfl⟩

theorem decPerf_parts (e : decPerf h b = .ok i) : i.parts = some (0x31B, b) ∧ h = i.hdr := by
  obtain ⟨clr, f, rfl⟩ := decPerf_rows e
  obtain ⟨rfl, rfl⟩ := (decPerf_eq_ok hb clr f).mp e
  cases clr <;> exact ⟨rfl, rfl⟩

theorem parse6_parts (e : parse6 k h b = .ok i) : i.parts = some (128 * 6 + k, b) ∧ h = i.hdr := by
  unfold parse6 at e
  split at e
  case h_21 => exact decTret_parts hb e
  case h_22 => exact decSysrd_parts hb e
  case h_23 => exact decSyswr_parts hb e
  case h_24 => exact decTlbi_parts hb e
  case h_25 => exact decObjdef_parts hb e
  case h_28 => exact decPerf_parts hb e
  all_goals
    simp only [map_eq_ok, reduceCtorEq, decBr_eq_ok hb, decBrc_eq_ok hb, decJmp_eq_ok hb, decCalli_eq_ok hb,
      decNul_eq_ok hb, decOne_eq_ok hb (show 0 + 12 ≤ 12 by decide), decOne_eq_ok hb (show 1 + 10 ≤ 12 by decide),
      decOne_eq_ok hb (show 0 + 3 ≤ 12 by decide), decHstart_eq_ok hb, decSpawn_eq_ok hb, decIdrd_eq_ok hb,
      decDst_eq_ok hb, decTrap_eq_ok hb] at e
  all_goals
    obtain ⟨f, hr, rfl⟩ := e
    simp only [hr]
    exact ⟨rfl, rfl⟩

theorem decCpred_parts (e : decCpred h b = .ok i) : i.parts = some (0x382, b) ∧ h = i.hdr := by
  rcases decCpred_rows e with ⟨f, rfl⟩ | ⟨f, rfl⟩
  · obtain ⟨rfl, rfl, -⟩ := (decCpred_eq_ok_cpred hb f).mp e
    exact ⟨rfl, rfl⟩
  · obtain ⟨rfl, rfl, -⟩ := (decCpred_eq_ok_ranked hb f).mp e
    exact ⟨rfl, rfl⟩

theorem decCpq_parts (e : decCpq h b = .ok i) : i.parts = some (0x383, b) ∧ h = i.hdr := by
  rcases decCpq_rows e with ⟨f, rfl⟩ | ⟨f, rfl⟩
  · obtain ⟨rfl, rfl, -⟩ := (decCpq_eq_ok_cpq hb f).mp e
    exact ⟨rfl, rfl⟩
  · obtain ⟨rfl, rfl⟩ := (decCpq_eq_ok_count hb f).mp e
    exact ⟨rfl, rfl⟩

/-- MMA and MMW, the one at opcode 0x385 and the other at 0x386. -/
theorem decMma_parts (wait : Bool) (e : (decMma h b).map (mmaOf wait) = .ok i) :
    i.parts = some (if wait then 0x386 else 0x385, b) ∧ h = i.hdr := by
  obtain ⟨⟨f, rp⟩, hr, rfl⟩ := (map_eq_ok ..).mp e
  obtain ⟨rfl, rfl, -, h0⟩ := (decMma_eq_ok hb f rp).mp hr
  cases rp with
  | false => cases wait <;> exact ⟨rfl, rfl⟩
  | true => rw [h0 rfl]; cases wait <;> exact ⟨rfl, rfl⟩

theorem decPrent_parts (e : decPrent h b = .ok i) : i.parts = some (0x388, b) ∧ h = i.hdr := by
  obtain ⟨hold, f, rfl⟩ := decPrent_rows e
  obtain ⟨rfl, rfl, -⟩ := (decPrent_eq_ok hb hold f).mp e
  cases hold <;> exact ⟨rfl, rfl⟩

theorem parse7_parts (e : parse7 k h b = .ok i) : i.parts = some (128 * 7 + k, b) ∧ h = i.hdr := by
  unfold parse7 at e
  split at e
  case h_3 => exact decCpred_parts hb e
  case h_4 => exact decCpq_parts hb e
  case h_6 => exact decMma_parts hb false e
  case h_7 => exact decMma_parts hb true e
  case h_9 => exact decPrent_parts hb e
  all_goals
    simp only [map_eq_ok, reduceCtorEq, decCpset_eq_ok hb, decCpgo_eq_ok hb, decMmcfg_eq_ok hb, decDst_eq_ok hb,
      decPrres_eq_ok hb, decPrrel_eq_ok hb, decOne_eq_ok hb (show 0 + 8 ≤ 12 by decide)] at e
  all_goals
    obtain ⟨f, hr, rfl⟩ := e
    simp only [hr]
    exact ⟨rfl, rfl⟩

theorem parts_of_parseOp {op : Nat} (e : parseOp op h b = .ok i) : i.parts = some (op, b) ∧ h = i.hdr := by
  rw [← Nat.div_add_mod op 128]
  unfold parseOp at e
  split at e
  case h_1 hc => rw [hc]; exact parse0_parts hb e
  case h_2 hc => rw [hc]; exact parse1_parts hb e
  case h_3 hc => rw [hc]; exact parse2_parts hb e
  case h_4 hc => rw [hc]; exact parse3_parts hb e
  case h_5 hc => rw [hc]; exact parse4_parts hb e
  case h_6 hc => rw [hc]; exact parse5_parts hb e
  case h_7 hc => rw [hc]; exact parse6_parts hb e
  case h_8 hc => rw [hc]; exact parse7_parts hb e
  case h_9 => cases e

end

end Sys2Proof
end

section
/-! PROOF. Words and bytes (R36, R40): what decodes, and from what; the round trip of decoder and encoder. -/

namespace Sys2Proof

/-! Words. -/

theorem packBits_append (l r : List (Nat × Nat)) :
    packBits (l ++ r) = packBits l + 2 ^ (l.map Prod.fst).sum * packBits r := by
  induction l with
  | nil => simp [packBits]
  | cons f l ih => simp [packBits, ih, Nat.pow_add]; ring

theorem unpackBits_append (a b : List Nat) (n : Nat) :
    unpackBits (a ++ b) n = unpackBits a n ++ unpackBits b (n / 2 ^ a.sum) := by
  induction a generalizing n with
  | nil => simp [unpackBits]
  | cons w a ih => simp [unpackBits, ih, Nat.div_div_eq_div_mul, Nat.pow_add]

theorem fits_unpackBits (ws : List Nat) (n : Nat) : Fits (ws.zip (unpackBits ws n)) := by
  induction ws generalizing n with
  | nil => simp [unpackBits]
  | cons w ws ih => simpa [unpackBits, ih] using Nat.mod_lt _ (by positivity)

theorem guardCode_of_guardOf {g s : Nat} (hg : g < 16) (hs : s < 2) {x : Option Guard} (h : guardOf g s = .ok x) :
    guardCode x = (g, s) := by
  unfold guardOf at h
  split at h
  · cases h
    interval_cases s <;> rfl
  · split at h
    · cases h
      exact Prod.ext (by simp only [guardCode]; omega) (by simp only [guardCode]; omega)
    · cases h

theorem guardOf_guardCode (x : Option Guard) : guardOf (guardCode x).1 (guardCode x).2 = .ok x := by
  rcases x with _ | ⟨p, v⟩
  · rfl
  · cases v <;> simp [guardOf, guardCode, boolBit]

theorem bodyOf_eq_some (f : Fmt) (vs : List Nat) (b : Body) : bodyOf f vs = some b ↔ f = b.fmt ∧ vs = b.vals := by
  constructor
  · unfold bodyOf
    split <;> rintro ⟨⟩ <;> exact ⟨rfl, rfl⟩
  · rintro ⟨rfl, rfl⟩
    cases b <;> rfl

theorem Body.length_vals (b : Body) : b.vals.length = b.fmt.widths.length := by cases b <;> rfl

/-- A format's header and fields fill its bytes (R37, R45). -/
theorem Fmt.sum_widths (f : Fmt) : headWidths.sum + f.widths.sum = 8 * f.bytes := by cases f <;> rfl

theorem headFields_fits (h : Hdr) {op : Nat} (ho : op < 1024) : Fits (headFields h op) := by
  have hg : (guardCode h.guard).1 < 16 ∧ (guardCode h.guard).2 < 2 := by
    rcases h.guard with _ | ⟨p, v⟩
    · decide
    · exact ⟨p.isLt.trans (by decide), Nat.lt_succ_of_le (boolBit_le v)⟩
  simp [headFields, ho, hg]

theorem encErr_eq_none {i : Instr} : encErr i = none ↔
    lenErr i.hdr i.fmt = none ∧ eaErr i.hdr i.shape.srcs = none ∧ nullErr i.shape = none ∧ fieldErr i = none := by
  simp [encErr]

theorem encodeWord_eq {i : Instr} {op : Nat} {b : Body} (hp : i.parts = some (op, b)) :
    encodeWord i = packBits (headFields i.hdr op ++ b.fmt.widths.zip b.vals) := by
  simp [encodeWord, hp]

/-- Only an event has no opcode, and it has no format. -/
theorem Instr.fmt_eq_none {i : Instr} (h : i.parts = none) : i.fmt = none := by
  cases i <;> cases h
  all_goals rfl

/-- A well-formed instruction has an opcode and fields, and its length is no shorter than their format's. -/
theorem Instr.WellFormed.parts {i : Instr} (h : i.WellFormed) :
    ∃ op b, i.parts = some (op, b) ∧ b.fmt.bytes ≤ i.hdr.len.bytes ∧ fieldErr i = none := by
  obtain ⟨hl, -, -, hf⟩ := encErr_eq_none.mp h
  rcases hp : i.parts with _ | ⟨op, b⟩
  · simp [lenErr, Instr.fmt_eq_none hp] at hl
  · exact ⟨op, b, rfl, by simpa [lenErr, (i.parts_fmt hp).1] using hl, hf⟩

section

variable (h : Hdr) (op : Nat) (b : Body)

theorem map_fst_headFields : (headFields h op).map Prod.fst = headWidths := rfl
theorem map_fst_fields : (b.fmt.widths.zip b.vals).map Prod.fst = b.fmt.widths :=
  List.map_fst_zip (by rw [b.length_vals])
theorem map_snd_fields : (b.fmt.widths.zip b.vals).map Prod.snd = b.vals :=
  List.map_snd_zip (by rw [b.length_vals])

end

/-- The word of an instruction is as long as its natural form. -/
theorem encodeWord_lt {i : Instr} {op : Nat} {b : Body} (hp : i.parts = some (op, b)) :
    encodeWord i < 2 ^ (8 * b.fmt.bytes) := by
  have hfit : Fits (headFields i.hdr op ++ b.fmt.widths.zip b.vals) := by
    intro f hf
    rcases List.mem_append.mp hf with hf | hf
    · exact headFields_fits i.hdr (i.parts_fmt hp).2.2 f hf
    · exact i.parts_fits hp f hf
  have := packBits_lt hfit
  rwa [List.map_append, map_fst_headFields, map_fst_fields, List.sum_append, Fmt.sum_widths, ← encodeWord_eq hp] at this

/-- A well-formed instruction is decoded from its own word. -/
theorem decodeWord_encodeWord {i : Instr} (hi : i.WellFormed) : decodeWord i.hdr.len (encodeWord i) = .ok i := by
  obtain ⟨op, b, hp, hlen, hf⟩ := hi.parts
  obtain ⟨-, hfmt, hop⟩ := i.parts_fmt hp
  have head : unpackBits headWidths (encodeWord i) = (headFields i.hdr op).map Prod.snd := by
    rw [encodeWord_eq hp, ← map_fst_headFields i.hdr op]
    exact unpackBits_packBits_append (headFields_fits i.hdr hop) _
  have body : unpackBits b.fmt.widths (encodeWord i / 2 ^ 20) = b.vals := by
    have low : packBits (headFields i.hdr op) / 2 ^ 20 = 0 :=
      Nat.div_eq_of_lt (packBits_lt (headFields_fits i.hdr hop))
    rw [encodeWord_eq hp, packBits_append, map_fst_headFields, show headWidths.sum = 20 from rfl,
      Nat.add_mul_div_left _ _ (by positivity), low, Nat.zero_add]
    have fields := unpackBits_packBits (i.parts_fits hp)
    rwa [map_fst_fields, map_snd_fields] at fields
  have top : encodeWord i / 2 ^ (8 * b.fmt.bytes) = 0 := Nat.div_eq_of_lt (encodeWord_lt hp)
  have guard := guardOf_guardCode i.hdr.guard
  have parse := parseOp_parts hf hp
  have ones (x : Bool) : (boolBit x == 1) = x := by cases x <;> rfl
  simp only [decodeWord, head, headFields, List.map_cons, List.map_nil, hfmt, Nat.not_lt.mpr hlen, if_false, top,
    ne_eq, not_true, body, (bodyOf_eq_some ..).mpr ⟨rfl, rfl⟩, ones, bind_eq_ok]
  exact ⟨_, guard, i, parse, by rw [hi]⟩

theorem boolBit_mod_two_beq_one (n : Nat) : boolBit (n % 2 == 1) = n % 2 := ((mod_two_beq_one n _).mp rfl).symm

/-- A word of n bytes decodes only to a well-formed instruction of n bytes, and is that instruction's word. -/
theorem decodeWord_ok {len : Len} {w : Nat} {i : Instr} (hl : w % 4 = len.code) (e : decodeWord len w = .ok i) :
    i.WellFormed ∧ i.hdr.len = len ∧ w = encodeWord i := by
  simp only [decodeWord, headWidths, unpackBits] at e
  split at e
  · cases e
  rename_i fmt hfmt
  split at e
  · cases e
  split at e
  · cases e
  rename_i hs ht
  simp only [bind_eq_ok] at e
  obtain ⟨gd, hg, e⟩ := e
  split at e
  · cases e
  rename_i b hb
  simp only [bind_eq_ok] at e
  obtain ⟨j, hj, e⟩ := e
  split at e
  next hwf =>
    cases e
    have hb' : b.Fits := by
      have := fits_unpackBits fmt.widths (w / 2 ^ 20)
      obtain ⟨rfl, hv⟩ := (bodyOf_eq_some ..).mp hb
      rwa [hv] at this
    obtain ⟨hp, hh⟩ := parts_of_parseOp hb' hj
    obtain ⟨rfl, hv⟩ := (bodyOf_eq_some ..).mp hb
    refine ⟨hwf, by rw [← hh], ?_⟩
    have head : headFields i.hdr (w / 2 ^ 2 % 2 ^ 10) = headWidths.zip (unpackBits headWidths w) := by
      have g := guardCode_of_guardOf (Nat.mod_lt _ (by decide)) (Nat.mod_lt _ (by decide)) hg
      simp [← hh, headFields, headWidths, unpackBits, boolBit_mod_two_beq_one, g, ← hl]
    have short : w < 2 ^ (headWidths ++ b.fmt.widths).sum := by
      rw [List.sum_append, Fmt.sum_widths]
      exact Nat.lt_of_div_eq_zero (by positivity) (by simpa using ht)
    rw [encodeWord_eq hp, head, ← hv, ← List.zip_append (by rw [length_unpackBits]),
      show w / 2 ^ 20 = w / 2 ^ headWidths.sum from rfl, ← unpackBits_append, packBits_unpackBits short]
  · cases e

/-! Bytes. -/

theorem length_leBytes (n v : Nat) : (leBytes n v).length = n := by
  induction n generalizing v with
  | zero => rfl
  | succ n ih => simp [leBytes, ih]

theorem leVal_leBytes (n v : Nat) : leVal (leBytes n v) = v % 256 ^ n := by
  induction n generalizing v with
  | zero => simp [leBytes, leVal, Nat.mod_one]
  | succ n ih =>
    simp only [leBytes, leVal, ih, BitVec.toNat_ofNat]
    rw [pow_succ' 256 n, Nat.mod_mul, show 2 ^ 8 = 256 from rfl]

theorem leVal_append (a b : List Byte) : leVal (a ++ b) = leVal a + 256 ^ a.length * leVal b := by
  induction a with
  | nil => simp [leVal]
  | cons x a ih => simp only [List.cons_append, leVal, ih, List.length_cons, pow_succ']; ring

theorem leBytes_leVal (l : List Byte) : leBytes l.length (leVal l) = l := by
  induction l with
  | nil => rfl
  | cons b l ih =>
    have hb := b.isLt
    simp only [List.length_cons, leBytes, leVal, Nat.add_mul_div_left _ _ (show 0 < 256 by decide),
      Nat.div_eq_of_lt hb, Nat.zero_add, ih, List.cons.injEq, and_true]
    exact BitVec.eq_of_toNat_eq (by simp; omega)

/-- What the decoder reads at the front of some bytes: a word of the length that its lowest two bits say (R36). -/
theorem decode_eq_ok (bs r : List Byte) (i : Instr) : decode bs = .ok (i, r) ↔
    ∃ len : Len, leVal bs % 4 = len.code ∧ len.bytes ≤ bs.length ∧
      decodeWord len (leVal (bs.take len.bytes)) = .ok i ∧ r = bs.drop len.bytes := by
  cases bs with
  | nil =>
    have pos (len : Len) : 0 < len.bytes := by cases len <;> decide
    simp [decode, (pos _).ne']
  | cons b l =>
    have low : leVal (b :: l) % 4 = b.toNat % 4 := by simp only [leVal]; omega
    have bits (len : Len) : lenBits b = some len ↔ leVal (b :: l) % 4 = len.code := by rw [low, lenBits, lenOf_eq_some]
    constructor
    · intro e
      simp only [decode] at e
      split at e
      · cases e
      rename_i len hlen
      split at e
      · cases e
      rename_i hshort
      obtain ⟨j, hj, he⟩ := (map_eq_ok ..).mp e
      cases he
      exact ⟨len, (bits len).mp hlen, Nat.le_of_not_lt hshort, hj, rfl⟩
    · rintro ⟨len, hlen, hlong, hj, rfl⟩
      simp only [decode, (bits len).mpr hlen, Nat.not_lt.mpr hlong, if_false, hj]
      rfl

/-! The round trip. -/

theorem encode_eq {i : Instr} (hi : i.WellFormed) : encode i = leBytes i.hdr.len.bytes (encodeWord i) := by
  obtain ⟨op, b, hp, -, -⟩ := hi.parts
  simp [encode, hp]

theorem Len.four_dvd (len : Len) : 4 ∣ 256 ^ len.bytes := by cases len <;> decide

/-- The length bits of some bytes lie in the word at their front. -/
theorem leVal_append_mod_four {len : Len} {a : List Byte} (h : a.length = len.bytes) (b : List Byte) :
    leVal (a ++ b) % 4 = leVal a % 4 := by
  obtain ⟨k, hk⟩ := len.four_dvd
  rw [leVal_append, h, hk, Nat.mul_assoc, Nat.add_mul_mod_self_left]

theorem encodeWord_mod_four {i : Instr} (hi : i.WellFormed) : encodeWord i % 4 = i.hdr.len.code := by
  obtain ⟨op, b, hp, -, -⟩ := hi.parts
  rw [encodeWord_eq hp]
  simp only [headFields, List.cons_append, packBits]
  have := i.hdr.len.code_lt
  omega

theorem decode_encode {i : Instr} (hi : i.WellFormed) (r : List Byte) : decode (encode i ++ r) = .ok (i, r) := by
  obtain ⟨op, b, hp, hlen, -⟩ := hi.parts
  have n := length_leBytes i.hdr.len.bytes (encodeWord i)
  have lt : encodeWord i < 256 ^ i.hdr.len.bytes := by
    rw [show 256 = 2 ^ 8 from rfl, ← Nat.pow_mul]
    exact (encodeWord_lt hp).trans_le (Nat.pow_le_pow_right (by decide) (by omega))
  have word : leVal (leBytes i.hdr.len.bytes (encodeWord i)) = encodeWord i := by
    rw [leVal_leBytes, Nat.mod_eq_of_lt lt]
  rw [encode_eq hi, decode_eq_ok]
  refine ⟨i.hdr.len, ?_, by simp [n], ?_, ?_⟩
  · rw [leVal_append_mod_four n, word, encodeWord_mod_four hi]
  · rw [List.take_left' n, word]
    exact decodeWord_encodeWord hi
  · rw [List.drop_left' n]

theorem encode_decode {l r : List Byte} {i : Instr} (e : decode l = .ok (i, r)) : i.WellFormed ∧ l = encode i ++ r := by
  obtain ⟨len, hlen, hlong, hw, rfl⟩ := (decode_eq_ok l r i).mp e
  have bits : leVal (l.take len.bytes) % 4 = len.code := by
    rw [← hlen, ← leVal_append_mod_four (List.length_take_of_le hlong) (l.drop len.bytes), List.take_append_drop]
  obtain ⟨hi, rfl, he⟩ := decodeWord_ok bits hw
  have n : (l.take i.hdr.len.bytes).length = i.hdr.len.bytes := List.length_take_of_le hlong
  have front : encode i = l.take i.hdr.len.bytes := by
    rw [encode_eq hi, ← he]
    conv_rhs => rw [← leBytes_leVal (l.take i.hdr.len.bytes), n]
  exact ⟨hi, by rw [front, List.take_append_drop]⟩

/-- Settles O58: an instruction's bytes are its fields packed, each field is read back from them, and what each form of the
decoder accepts is what its encoder makes. -/
theorem encodingsRoundTrip : Obligations.EncodingsRoundTrip :=
  ⟨fun _ r hi => decode_encode hi r, fun _ _ _ e => encode_decode e⟩

end Sys2Proof
end

section
/-! PROOF. Worked words (R36 to R57). -/

namespace Sys2Proof

/-- A first byte with length bits 11 begins no instruction (R36). -/
theorem decode_reserved_length {b : Byte} (hb : b.toNat % 4 = 3) (r : List Byte) (x : Instr × List Byte) :
    decode (b :: r) ≠ .ok x := by
  intro e
  obtain ⟨len, hlen, -⟩ := (decode_eq_ok (b :: r) x.2 x.1).mp e
  have low : leVal (b :: r) % 4 = 3 := by simp only [leVal]; omega
  have other : len.code ≠ 3 := by cases len <;> decide
  exact other (hlen.symm.trans low)

/-- Settles O57: the decoder evaluates on each worked word, and a length of code 3 is none. -/
theorem wordsDecode : Obligations.WordsDecode := by
  unfold Obligations.WordsDecode
  exact ⟨by decide +kernel, by decide +kernel, by decide +kernel, by decide +kernel, by decide +kernel, by decide +kernel,
    by decide +kernel, by decide +kernel, by decide +kernel, by decide +kernel, by decide +kernel,
    fun _ r hb i m => decode_reserved_length hb r (i, m)⟩

end Sys2Proof
end

section
/-! PROOF. FENCE (R153, R154) and IFLUSH (R63, R164): the conditions they hold their context for, and their effects. -/

namespace Sys2Proof.Machine

theorem State.loadsDone_iff (s : State) (p : Nat) :
    s.loadsDone p = true ↔ ∀ g ∈ s.earlier p s.nextId, g.isLoad = true → g.allDone = true := by
  simp [State.loadsDone, imp_iff_not_or]

theorem State.storesOut_iff (s : State) (p : Nat) (mask : BitVec 8) (scope : Scope) :
    s.storesOut p mask scope = true ↔ ∀ g ∈ s.earlier p s.nextId, g.owed mask scope = false := by
  simp [State.storesOut]

theorem State.drained_iff (s : State) (p : Nat) :
    s.drained p = true ↔ ∀ g ∈ s.earlier p s.nextId, g.isStore = true → g.allDone = true := by
  simp [State.drained, imp_iff_not_or]

section

variable (s : State) (i : Instr)

@[simp] theorem State.enter_loadsDone (p : Nat) : (s.enter i).loadsDone p = s.loadsDone p := rfl
@[simp] theorem State.enter_storesOut (p : Nat) (m : BitVec 8) (c : Scope) :
    (s.enter i).storesOut p m c = s.storesOut p m c := rfl
@[simp] theorem State.enter_drained (p : Nat) : (s.enter i).drained p = s.drained p := rfl

end

theorem State.acquire_eq (s : State) (p : Nat) : s.acquire p = s.modCore (p / 16) Core.acquired := rfl

/-- An own part that changes its core by g alone. -/
theorem Ready.changesCore {i : Instr} {s : State} {act : State → Act} {g : Core → Core} (h : Ready i s)
    (he : exec i s = .next (s.issue i act)) (ha : act (s.enter i) = .go ((s.enter i).modCore (s.cur / 16) g)) :
    ∃ t, exec i s = .next t ∧ Went i s t (s.past i) id g s := by
  refine ⟨_, he.trans (congrArg _ (h.issue_go ha)), went_leave ?_ ?_ ?_ ?_ rfl⟩
  · rw [State.modCore_eq, State.ctx_setCore, State.enter_ctx]; rfl
  · rw [State.modCore_eq, State.core_setCore_self]; rfl
  · intro q n
    rw [State.modCore_eq, State.ctx_setCore, State.enter_ctx_ne _ _ n]
  · intro c n
    exact State.core_setCore_ne _ _ n

/-- FENCE of loads, of stores, or of both. -/
theorem Ready.fences {f : FenceF} {i : Instr} {loads stores : Bool} {s : State} (h : Ready i s)
    (he : exec i s = .next (s.issue i (fenceAct f loads stores))) :
    let ok := (loads = true → ∀ g ∈ s.earlier s.cur s.nextId, g.isLoad = true → g.allDone = true) ∧
      (stores = true → ∀ g ∈ s.earlier s.cur s.nextId, g.owed f.mask f.scope = false)
    (s.me.guardAt f.h 0 = false → Passes i s) ∧
      (s.me.guardAt f.h 0 = true → ok →
        ∃ t, exec i s = .next t ∧ Went i s t (s.past i) id (fun k => if loads then k.acquired else k) s) ∧
      (s.me.guardAt f.h 0 = true → ¬ok → Forfeits i s) := by
  intro ok
  have held : ok ↔ ((loads && !s.loadsDone s.cur) || (stores && !s.storesOut s.cur f.mask f.scope)) = false := by
    simp only [ok, ← State.loadsDone_iff, ← State.storesOut_iff]
    cases loads <;> cases stores <;> simp
  refine ⟨fun hg => h.passes he ?_, fun hg hok => ?_, fun hg hn => h.forfeits he ?_⟩
  · simp [fenceAct, State.guarded, hg]
  · have ha : fenceAct f loads stores (s.enter i) = .go (if loads then (s.enter i).acquire s.cur else s.enter i) := by
      simp [fenceAct, State.guarded, hg, held.mp hok]
    cases loads with
    | false => exact h.passes he ha
    | true => exact h.changesCore he ha
  · simp only [held, Bool.not_eq_false] at hn
    simp [fenceAct, State.guarded, hg, hn]

theorem Ready.iflushes {f : NulF} {s : State} (h : Ready (.iflush f) s) :
    let ok := ∀ g ∈ s.earlier s.cur s.nextId, g.isStore = true → g.allDone = true
    (s.me.guardAt f.h 0 = false → Passes (.iflush f) s) ∧
      (s.me.guardAt f.h 0 = true → ok →
        ∃ t, exec (.iflush f) s = .next t ∧ Went (.iflush f) s t (s.past (.iflush f)) (fun x => { x with fetch := none })
          (fun k => { k with l0 := [] }) s) ∧
      (s.me.guardAt f.h 0 = true → ¬ok → Forfeits (.iflush f) s) := by
  intro ok
  have held : ok ↔ s.drained s.cur = true := (s.drained_iff s.cur).symm
  refine ⟨fun hg => h.passes rfl ?_, fun hg hok => h.changes rfl rfl ?_, fun hg hn => h.forfeits rfl ?_⟩
  · simp [State.guarded, hg]
  · simp [State.guarded, hg, held.mp hok, State.cur_core h.turn]; rfl
  · simp [State.guarded, hg, mt held.mpr hn]

/-- Settles O17: each form's condition is what its rule says, and its effect is an acquire or the empty L0 and fetch buffer. -/
theorem fencesAndFlush : Obligations.FencesAndFlush := by
  refine fun s => ⟨fun f i loads stores hi h => h.fences ?_, fun f h => h.iflushes⟩
  rcases hi with ⟨rfl, rfl, rfl⟩ | ⟨rfl, rfl, rfl⟩ | ⟨rfl, rfl, rfl⟩ | ⟨rfl, rfl, rfl⟩ <;> rfl

end Sys2Proof.Machine
end

section
/-! PROOF. Transfers of control (R38, R168) and NOP64 (R52): what the check of a target answers, and each form's own part in
terms of it. -/

namespace Sys2Proof.Machine

@[simp] theorem State.enter_target64 (s : State) (i : Instr) (off : BitVec 28) :
    (s.enter i).target64 off = s.target64 off := by simp [State.target64]; rfl

theorem State.nextOf_enter (s : State) (i : Instr) : (s.enter i).nextOf i.hdr = s.pcAfter i := by simp [State.nextOf]; rfl

/-- The link of a call is the address after it, in the lanes that its guard lets write. -/
theorem State.link_enter (s : State) (i : Instr) (lk : Opnd) :
    (s.enter i).link i lk = (s.enter i).produce i [s.lanesWrite i.hdr lk (fun _ => (s.pcAfter i).toNat)] [] .none := by
  rw [State.link, State.nextOf_enter, State.enter_lanesWrite]

/-! The check of a target (R38). -/

theorem goTo_misaligned {w : Word} (s : State) (h : w.toNat % 4 ≠ 0) : goTo s w true = .trap (tAlign w 4) := by
  simp [goTo, h]

theorem goTo_aligned {w : Word} (s : State) (h : w.toNat % 4 = 0) (reg : Bool) : goTo s w reg = goTo s w false := by
  simp [goTo, h]

theorem goTo_canonical {w : Word} (s : State) (h : canonical w = true) : goTo s w false = .jump s w := by simp [goTo, h]

theorem goTo_not_canonical {w : Word} (s : State) (h : canonical w = false) : goTo s w false = .trap (tXlate w 0xF 7) := by
  simp [goTo, h]

section

variable {i : Instr} {s : State} {act : State → Act} {w : Word} (h : Ready i s) (he : exec i s = .next (s.issue i act))
include h he

theorem Ready.trapsAlign {t : State} (ha : act (s.enter i) = goTo t w true) (hw : w.toNat % 4 ≠ 0) :
    TrapsAs i s (tAlign w 4) :=
  h.traps he (ha.trans (goTo_misaligned t hw)) rfl

/-- A transfer to a target goes there, or traps where the target is not canonical. -/
theorem Ready.transfers (ha : act (s.enter i) = goTo (s.enter i) w false) :
    (canonical w = true → ∃ t, exec i s = .next t ∧ Went i s t (s.pastTo i w) id id s) ∧
      (canonical w = false → TrapsAs i s (tXlate w 0xF 7)) :=
  ⟨fun hw => h.goes he (ha.trans (goTo_canonical _ hw)), fun hw => h.traps he (ha.trans (goTo_not_canonical _ hw)) rfl⟩

/-- A transfer with a writeback: the writeback is under way where the target is reached, and there is none where it traps. -/
theorem Ready.transfersWriting {sl : List SlWrite} (hk : i.shape.kind ≠ .none)
    (ha : act (s.enter i) = goTo ((s.enter i).produce i sl [] .none) w false) :
    (canonical w = true → ∃ t, exec i s = .next t ∧
        Produced i s t (s.pastTo i w) (s.wbOf i s.nextId false sl [] .none) id id s.fresh) ∧
      (canonical w = false → TrapsAs i s (tXlate w 0xF 7)) :=
  ⟨fun hw => h.calls he hk (ha.trans (goTo_canonical _ hw)), fun hw => h.traps he (ha.trans (goTo_not_canonical _ hw)) rfl⟩

end

/-! Each form. -/

/-- JMP and RET go to a register's target. -/
theorem jumps {f : JmpF} {i : Instr} {s : State} (hi : i = .jmp f ∨ i = .ret f) (h : Ready i s) :
    (s.me.guardAt f.h 0 = false → Passes i s) ∧
      (s.me.guardAt f.h 0 = true →
        ((s.t64 f.t).toNat % 4 ≠ 0 → TrapsAs i s (tAlign (s.t64 f.t) 4)) ∧
        ((s.t64 f.t).toNat % 4 = 0 →
          (canonical (s.t64 f.t) = true → ∃ t, exec i s = .next t ∧ Went i s t (s.pastTo i (s.t64 f.t)) id id s) ∧
            (canonical (s.t64 f.t) = false → TrapsAs i s (tXlate (s.t64 f.t) 0xF 7)))) := by
  have he : exec i s = .next (s.issue i (fun s => if s.guarded f.h then goTo s (s.t64 f.t) true else .go s)) := by
    rcases hi with rfl | rfl <;> rfl
  refine ⟨fun hg => h.passes he (by simp [State.guarded, hg]),
    fun hg => ⟨h.trapsAlign he (t := s.enter i) ?_, fun ha => h.transfers he ?_⟩⟩
  · simp [State.guarded, hg]
  · simp [State.guarded, hg, goTo_aligned _ ha true]

/-- CALL and CALLI link, and go to their target. -/
theorem calls_link {i : Instr} {lk : Opnd} {s : State} {w : Word} {t : State → Word} {reg : Bool} (h : Ready i s)
    (he : exec i s = .next (s.issue i (callTo i lk t reg))) (hk : i.shape.kind ≠ .none) (ht : t (s.enter i) = w) :
    let link := s.lanesWrite i.hdr lk (fun _ => (s.pcAfter i).toNat)
    (s.me.guardAt i.hdr 0 = false → Writes i s [link] [] .none) ∧
      (s.me.guardAt i.hdr 0 = true →
        (reg = true → w.toNat % 4 ≠ 0 → TrapsAs i s (tAlign w 4)) ∧
        ((reg = true → w.toNat % 4 = 0) →
          (canonical w = true → ∃ t, exec i s = .next t ∧
            Produced i s t (s.pastTo i w) (s.wbOf i s.nextId false [link] [] .none) id id s.fresh) ∧
          (canonical w = false → TrapsAs i s (tXlate w 0xF 7)))) := by
  have skip (hg : s.me.guardAt i.hdr 0 = false) : callTo i lk t reg (s.enter i) = .go ((s.enter i).link i lk) := by
    simp [callTo, State.guarded, hg]
  have take (hg : s.me.guardAt i.hdr 0 = true) : callTo i lk t reg (s.enter i) = goTo ((s.enter i).link i lk) w reg := by
    simp [callTo, State.guarded, hg, ht]
  simp only [State.link_enter] at skip take
  refine ⟨fun hg => h.writes he hk (skip hg), fun hg => ⟨?_, fun ha => h.transfersWriting he hk ?_⟩⟩
  · rintro rfl hw
    exact h.trapsAlign he (take hg) hw
  · cases reg with
    | false => exact take hg
    | true => rw [take hg, goTo_aligned _ (ha rfl)]

/-- Settles O18: each form's own part is the check of its target where the transfer is performed, and leaves the state else. -/
theorem transfersOfControl : Obligations.TransfersOfControl := by
  intro s near far goes calls bad
  refine ⟨fun f h => h.passes rfl rfl, fun f h => ?br, fun f h => ?brc, fun f i hi h => jumps hi h, fun f h => ?call,
    fun f h => ?calli, fun f h => ?loop⟩
  case br =>
    have take (hg : s.me.guardAt f.h 0 = true) := h.transfers rfl (w := s.target64 f.off) (by simp [State.guarded, hg])
    exact ⟨fun hg => h.passes rfl (by simp [State.guarded, hg]), fun hg => (take hg).1, fun hg => (take hg).2⟩
  case brc =>
    refine ⟨fun hn => h.passes rfl ?_, fun hg hc => h.transfers rfl (w := s.target64 f.off) ?_⟩
    · rcases hn with hg | hc
      · simp [State.guarded, hg]
      · simp [hc]
    · simp [State.guarded, hg, hc]
  case call =>
    obtain ⟨skip, take⟩ := calls_link (w := s.target64 f.off) h rfl nofun (s.enter_target64 _ f.off)
    exact ⟨skip, fun hg => (take hg).2 nofun⟩
  case calli =>
    obtain ⟨skip, take⟩ := calls_link (w := s.t64 f.t) h rfl nofun (s.enter_t64 _ f.t)
    exact ⟨skip, fun hg => ⟨(take hg).1 rfl, fun ha => (take hg).2 (fun _ => ha)⟩⟩
  case loop =>
    intro n ct
    refine ⟨fun hn => h.writes rfl nofun ?_, fun hg hc => h.transfersWriting rfl nofun (w := s.target64 f.off) ?_⟩
    · rcases hn with hg | hc
      · simp [State.guarded, hg, ct, n]
      · simp [ct, n, show (s.readOp s.cur f.c 0 + 2 ^ f.c.bits - 1) % 2 ^ f.c.bits = 0 from hc]
    · simp [State.guarded, hg, ct, n, show (s.readOp s.cur f.c 0 + 2 ^ f.c.bits - 1) % 2 ^ f.c.bits ≠ 0 from hc]

end Sys2Proof.Machine
end

section
/-! PROOF. LD, CNTRD, GATH and LDF at issue: a state against which the statement fails. -/

namespace Sys2Proof.Machine

/-- A GATH of one element by scalar operands of the shared windows. -/
def sharedGath : ElemF :=
  ⟨⟨.b12, none, false, false, false⟩, ⟨.h, .w8, 16⟩, ⟨.h, .w16, 0⟩, none, .f32, .rne,
    ⟨.core, .plain, 0, false, .normal⟩⟩

/-- The address of a described object's block, whose bytes are all 0, and the page that maps it. -/
def blankBlock : Word := 0x30000
def blankPage : TlbEntry := ⟨0, blankBlock, 65536, 2 ^ 44 + 0x30000, true, true, true⟩
def blankObj : Obj := ⟨blankBlock, 64, some 1, false, false, false, 0, 0, 0, 9⟩

/-- A state whose table of contexts lists context 0 twice, each time at the table's default: it is in no canonical form. The
context executes sharedGath with another writeback under way. -/
def doublyListed : State :=
  { State.reset with
    ctxs := [(0, Ctx.idle), (0, Ctx.idle)]
    cores := [(0, { Core.idle with
      h := (Window.alloc 1).write 0 0 16 blankBlock.toNat, tlb := [blankPage]
      wbs := [⟨0, 0, 9, false, false, [], [], .none, [(.v, 3)], []⟩] })]
    objs := [(1, some blankObj)] }

/-- The one access that the GATH makes there. -/
def blankElem : ElemAcc := ⟨⟨0, blankBlock, ⟨2 ^ 44 + 0x30000, some blankPage, some (1, blankObj)⟩⟩, .fp32, 0⟩

/-- Its request is accepted. -/
def acceptedList : State := doublyListed.headed [blankElem]

theorem doublyListed_ready : Ready (.gath sharedGath) doublyListed where
  turn := by decide
  static := by decide +kernel
  idle := by decide +kernel
  late := by decide +kernel
  full := by decide +kernel
  sound := by decide +kernel

theorem doublyListed_elemAccs : doublyListed.elemAccs sharedGath .gath = .ok [blankElem] := by decide +kernel

theorem doublyListed_asks : doublyListed.Asks (headPieces [blankElem]) := by
  unfold State.Asks
  decide +kernel

/-- The block's first byte names no format (R141). -/
theorem doublyListed_badFormat : acceptedList.badFormat [blankElem] = some (tBlockFormat blankBlock 0) := by
  decide +kernel

/-- The trap that the instruction takes leaves both entries of context 0. -/
theorem doublyListed_after {t : State} (h : exec (.gath sharedGath) doublyListed = .next t) : t.ctxs.length = 2 := by
  have run : (match exec (.gath sharedGath) doublyListed with
      | .next t => t.ctxs.length
      | _ => 0) = 2 := by decide +kernel
  rwa [h] at run

/-- The state that the statement names lists it once: accepting the request sets the context to the table's default, which
drops every entry of its number. -/
theorem acceptedList_after :
    ((acceptedList.setCtx 0 (acceptedList.me.setLen (.gath sharedGath))).raise 0
      (tBlockFormat blankBlock 0)).ctxs.length = 1 := by
  decide +kernel

/-- Refutes O12: the statement ranges over every State, and one whose table of contexts is not in canonical form is its
counterexample. At doublyListed a GATH meets a block that names no format: its trap leaves the second entry of context 0, and
the state that the statement compares it with has lost that entry. -/
theorem not_loadsAreSent : ¬ Obligations.LoadsAreSent := by
  intro h
  obtain ⟨-, -, gath, -⟩ := h doublyListed
  obtain ⟨-, -, sent⟩ := gath sharedGath doublyListed_ready
  obtain ⟨-, -, asked⟩ := sent [blankElem] (by decide +kernel) doublyListed_elemAccs
  obtain ⟨-, traps, -⟩ := asked (by decide +kernel) doublyListed_asks
  have trapped : TrapsFrom (.gath sharedGath) doublyListed acceptedList (tBlockFormat blankBlock 0) :=
    traps _ doublyListed_badFormat
  exact absurd ((doublyListed_after trapped).symm.trans acceptedList_after) (by decide)

end Sys2Proof.Machine
end

section
/-! PROOF. Addresses and places that an instruction's own part finds: they do not depend on what entering it has changed. -/

namespace Sys2Proof.Machine

/-! A translation reads no context but the accessor's (R334, R335). -/

theorem State.walkFrom_ctxs (s : State) (x : Tab Ctx) (asid : Nat) (va : Word) (n : Nat) (w : WalkStep) :
    State.walkFrom { s with ctxs := x } asid va n w = State.walkFrom s asid va n w := by
  induction n generalizing w with
  | zero => cases w <;> rfl
  | succ n ih =>
    cases w with
    | next level tbl => exact ih _
    | leaf | fail => rfl

theorem State.findXlat_ctxs (s : State) (x : Tab Ctx) (w : Who) (va : Word) :
    State.findXlat { s with ctxs := x } w va = s.findXlat w va := by
  simp only [State.findXlat, State.walk, State.walkFrom_ctxs]
  rfl

theorem State.place_ctxs (s : State) (x : Tab Ctx) (w : Who) (a : Acc) (va : Word) (n : Nat) :
    State.place { s with ctxs := x } w a va n = s.place w a va n := by
  simp only [State.place, State.findXlat_ctxs]
  rfl

section

variable (s : State) (i : Instr)

@[simp] theorem State.enter_place (w : Who) (a : Acc) (va : Word) (n : Nat) : (s.enter i).place w a va n = s.place w a va n :=
  s.place_ctxs _ w a va n

@[simp] theorem State.enter_who : (s.enter i).who s.cur = s.who s.cur := by
  simp only [State.who, State.enter_ctx]
  rfl

@[simp] theorem State.enter_placeLanes (a : Acc) (n : Nat) (l : List (Nat × Word)) :
    (s.enter i).placeLanes a n l = s.placeLanes a n l := by simp [State.placeLanes]

@[simp] theorem State.enter_queueFull (p : Nat) : (s.enter i).queueFull p = s.queueFull p := rfl

/-- The operation that an instruction forms (R36, R380): its context goes on after it. -/
@[simp] theorem State.enter_newFlight (op : FlOp) (l : List Part) : (s.enter i).newFlight s.cur op l = s.flightOf i op l := by
  have next : (s.entered i).nextPc = s.pcAfter i := by
    have len : lenBytes (BitVec.ofNat 2 i.hdr.len.code) = i.hdr.len.bytes := by cases i.hdr.len <;> rfl
    simp only [Ctx.nextPc, State.entered, Ctx.enter, Ctx.setLen, Ctx.countSpc, len]
    rfl
  simp only [State.newFlight, State.enter_ctx, next]
  rfl

end

theorem misaligned_eq_none {n : Nat} {l : List (Nat × Word)} (h : ∀ e ∈ l, e.2.toNat % n = 0) : misaligned n l = none := by
  simpa [misaligned] using h

/-! What is left of the state where an operation is sent. -/

/-- v is s with the current context as an instruction enters it and its core changed by g; translations may have come to its
TLBs, and copies may have left its dies' carves. -/
structure Readied (i : Instr) (s v : State) (g : Core → Core) : Prop where
  ctx : v.ctx s.cur = s.entered i
  ctxs : ∀ q, q ≠ s.cur → v.ctx q = s.ctx q
  core : v.core (s.cur / 16) = (g s.mine).tlbOf (v.core (s.cur / 16))
  cores : ∀ c, c ≠ s.cur / 16 → v.core c = s.core c
  dies : ∀ d, v.die d = (s.die d).cachesOf (v.die d)
  rest : { v with ctxs := s.ctxs, cores := s.cores, dies := s.dies } = s

theorem Readied.enter (i : Instr) (s : State) : Readied i s (s.enter i) id :=
  ⟨s.enter_ctx i, fun _ h => s.enter_ctx_ne i h, rfl, fun _ _ => rfl, fun _ => rfl, rfl⟩

section

variable {i : Instr} {s v : State} {g : Core → Core} (h : Readied i s v g)
include h

theorem Readied.cur : v.cur = s.cur := by
  have e := congrArg State.cur h.rest
  exact e

theorem Readied.modDie {d : Nat} {f : Die → Die} (hf : ∀ x, f x = x.cachesOf (f x)) : Readied i s (v.modDie d f) g where
  ctx := h.ctx
  ctxs := h.ctxs
  core := h.core
  cores := h.cores
  dies c := by
    by_cases hc : c = d
    · subst hc
      rw [State.modDie_eq, State.die_setDie_self, hf, h.dies]
      rfl
    · rw [State.modDie_eq, State.die_setDie_ne _ _ hc]
      exact h.dies c
  rest := h.rest

theorem Readied.modCore {f k : Core → Core}
    (hf : ∀ x, f ((g s.mine).tlbOf x) = (k s.mine).tlbOf (f ((g s.mine).tlbOf x))) :
    Readied i s (v.modCore (s.cur / 16) f) k where
  ctx := h.ctx
  ctxs := h.ctxs
  core := by
    rw [State.modCore_eq, State.core_setCore_self, h.core]
    exact hf _
  cores c hc := (State.core_setCore_ne _ _ hc).trans (h.cores c hc)
  dies := h.dies
  rest := h.rest

theorem Readied.keepXlat (d : Nat) (e : TlbEntry) : Readied i s (v.keepXlat (some (s.cur / 16)) d e) g :=
  (h.modDie (f := fun x => { x with tlb := tlbAdd dieTlbSize x.tlb e }) fun _ => rfl).modCore (k := g)
    (f := fun x => { x with tlb := tlbAdd l0TlbSize x.tlb e }) fun _ => rfl

theorem Readied.keepPlace (p : Place) : Readied i s (v.keepPlace (v.who v.cur) p) g := by
  have who : (v.who v.cur).engine = false ∧ (v.who v.cur).core = s.cur / 16 := by
    rw [h.cur]
    simp only [State.who]
    split <;> exact ⟨rfl, rfl⟩
  unfold State.keepPlace
  split
  · exact h
  · rw [who.1, who.2]
    exact h.keepXlat _ _

theorem Readied.keepLanes (l : List LaneAcc) : Readied i s (v.keepLanes l) g := by
  induction l generalizing v with
  | nil => exact h
  | cons e l ih => exact ih (h.keepPlace e.pl)

/-- A store's lines leave the L1 (R210). -/
theorem Readied.dropL1 (lines : List Nat) : Readied i s (v.dropL1 (s.cur / 16) lines) (fun k => (g k).dropLines lines) :=
  h.modCore fun _ => rfl

/-- The die's own copies of lines leave its carve (R222). -/
theorem Readied.ownCopy (d line : Nat) (l : Option (Nat × List (Nat × Byte))) : Readied i s (v.ownCopy d line l) g :=
  h.modDie fun _ => rfl

theorem Readied.dropMirror (l : List LaneAcc) : Readied i s (v.dropMirror l) g := by
  unfold State.dropMirror
  generalize l.filter (fun e => isGlobal e.pl.key) = m
  have all (m : List LaneAcc) (c : Nat) {u : State} (hu : Readied i s u g) :
      Readied i s (m.foldl (fun t e => t.ownCopy c (e.pl.key / 256) none) u) g := by
    induction m generalizing u with
    | nil => exact hu
    | cons e m ih => exact ih (hu.ownCopy _ _ _)
  exact all m _ h

end

end Sys2Proof.Machine
end

section
/-! PROOF. What sending an operation leaves (R25, R138). -/

namespace Sys2Proof.Machine

/-- An instruction's end leaves its core's translations and the dies as they are. -/
theorem State.leave_tlb (t : State) (i : Instr) (p : Nat) (pc : Word) :
    ((t.leave i p pc).core (p / 16)).tlb = (t.core (p / 16)).tlb := by
  rw [State.leave_core_self]
  rfl

theorem State.leave_dies (t : State) (i : Instr) (p : Nat) (pc : Word) : (t.leave i p pc).dies = t.dies := by
  unfold State.leave State.issued State.lengthen
  split <;> rfl

section Record

variable {s u : State} (i : Instr) (missing : Bool) (sl : List SlWrite) (pr : List PrWrite) (fl : Flags)
  (hy : u.cycle = s.cycle) (hk : i.shape.kind ≠ .none)
include hy hk

theorem State.record_tlb :
    ((u.record s i missing sl pr fl).core (s.cur / 16)).tlb = (u.core (s.cur / 16)).tlb := by
  obtain ⟨w, same, rfl, -⟩ := State.record_spec s u i missing sl pr fl hy hk
  rw [same.core, State.modCore_eq, State.core_setCore_self]
  rfl

theorem State.record_dies : (u.record s i missing sl pr fl).dies = u.dies := by
  obtain ⟨w, same, rfl, -⟩ := State.record_spec s u i missing sl pr fl hy hk
  have e := congrArg State.dies same.rest
  exact e

end Record

section

variable {i : Instr} {s v : State} {g : Core → Core} (h : Readied i s v g)
include h

theorem Readied.rest_dies : { v with ctxs := s.ctxs, cores := s.cores } = { s with dies := v.dies } := by
  have e := congrArg (fun x : State => { x with dies := v.dies }) h.rest
  exact e

theorem Readied.dies_of {t : State} (ht : t.dies = v.dies) (d : Nat) : t.die d = (s.die d).cachesOf (t.die d) := by
  have e : t.die d = v.die d := by rw [State.die, State.die, ht]
  rw [e]
  exact h.dies d

theorem Readied.nextId : v.nextId = s.nextId := by
  have e := congrArg State.nextId h.rest
  exact e

theorem Readied.cycle : v.cycle = s.cycle := by
  have e := congrArg State.cycle h.rest
  exact e

theorem Readied.window (hg : ∀ k : Core, (g k).g = k.g ∧ (g k).h = k.h) (e : FileId) :
    v.window s.cur e = s.window s.cur e := by
  obtain ⟨hgg, hgh⟩ := hg s.mine
  have vs := congrArg Ctx.v h.ctx
  have ss := congrArg Ctx.s h.ctx
  have gs := (congrArg Core.g h.core).trans hgg
  have hs := (congrArg Core.h h.core).trans hgh
  cases e with
  | v => exact vs
  | s => exact ss
  | g => exact gs
  | h => exact hs

/-- An operation with no writeback is sent. -/
theorem Readied.went (f : Flight) (pc : Word) {t : State} (ht : (v.send f).leave i s.cur pc = t) :
    (∀ d, t.die d = (s.die d).cachesOf (t.die d)) ∧
      Went i s t (s.pastTo i pc) id (fun k => (g k).tlbOf (t.core (s.cur / 16)))
      { s with flights := s.flights ++ [{ f with id := s.nextId }], nextId := s.nextId + 1, dies := t.dies } := by
  have dies : t.dies = v.dies := by rw [← ht, State.leave_dies]; rfl
  have tlb : (t.core (s.cur / 16)).tlb = (v.core (s.cur / 16)).tlb := by rw [← ht, State.leave_tlb]; rfl
  have ctx : ((v.send f).ctx s.cur).goTo pc = id (s.pastTo i pc) := congrArg (Ctx.goTo · pc) h.ctx
  have core : (v.send f).core (s.cur / 16) = (g s.mine).tlbOf (t.core (s.cur / 16)) := by
    rw [Core.tlbOf, tlb]
    exact h.core
  have rest := congrArg (fun x => State.send x f) h.rest_dies
  refine ⟨h.dies_of dies, ?_⟩
  subst ht
  rw [dies]
  exact went_leave ctx core h.ctxs h.cores rest

/-- An operation is sent whose writeback waits for it. -/
theorem Readied.produced (hk : i.shape.kind = .late)
    (hg : ∀ k : Core, (g k).g = k.g ∧ (g k).h = k.h ∧ (g k).wbs = k.wbs)
    (f : Flight) (pc : Word) {t : State} (ht : (v.sendWB i s.cur f).leave i s.cur pc = t) :
    (∀ d, t.die d = (s.die d).cachesOf (t.die d)) ∧
      Produced i s t (s.pastTo i pc) (s.wbOf i (s.nextId + 1) true [] [] .none) id
      (fun k => (g k).tlbOf (t.core (s.cur / 16)))
      { s with
        flights := s.flights ++ [{ f with id := s.nextId, wb := some (s.nextId + 1) }], nextId := s.nextId + 2
        dies := t.dies } := by
  have late : i.shape.kind ≠ .none := hk ▸ nofun
  have sent : v.sendWB i s.cur f =
      (v.fresh.record s i true [] [] .none).addFlight { f with id := s.nextId, wb := some (s.nextId + 1) } := by
    unfold State.sendWB State.record
    rw [hk, ← h.nextId]
    rfl
  have dies : t.dies = v.dies := by
    rw [← ht, State.leave_dies, sent]
    exact State.record_dies i true [] [] .none h.cycle late
  have tlb : (t.core (s.cur / 16)).tlb = (v.core (s.cur / 16)).tlb := by
    rw [← ht, State.leave_tlb, sent]
    exact State.record_tlb i true [] [] .none h.cycle late
  have core : v.fresh.core (s.cur / 16) = (g s.mine).tlbOf (t.core (s.cur / 16)) := by
    rw [Core.tlbOf, tlb]
    exact h.core
  have wbs : (v.fresh.core (s.cur / 16)).wbs = s.mine.wbs := (congrArg Core.wbs h.core).trans (hg s.mine).2.2
  have ctx : (v.fresh.ctx s.cur).goTo pc = id (s.pastTo i pc) := congrArg (Ctx.goTo · pc) h.ctx
  have window (e : FileId) : v.fresh.window s.cur e = s.window s.cur e := h.window (fun k => ⟨(hg k).1, (hg k).2.1⟩) e
  have rest := congrArg (fun x => State.addFlight x.fresh.fresh { f with id := s.nextId, wb := some (s.nextId + 1) })
    h.rest_dies
  have next : v.fresh.nextId = s.nextId + 1 := congrArg (· + 1) h.nextId
  refine ⟨h.dies_of dies, ?_⟩
  rw [← ht, sent] at core
  rw [dies, ← ht, sent]
  generalize ({ f with id := s.nextId, wb := some (s.nextId + 1) } : Flight) = sentFlight at core rest ⊢
  rw [← next]
  exact produced_leave (v := v.fresh) (a := id) (b := id) (e := fun x => x.addFlight sentFlight) .id .id late h.cycle ctx
    core wbs h.ctxs h.cores rest window ⟨rfl, rfl, fun _ _ => rfl, fun _ _ => rfl, fun _ _ => rfl⟩

end

end Sys2Proof.Machine
end

section
/-! PROOF. The atomics at issue (R155 to R158). -/

namespace Sys2Proof.Machine

/-- The addresses of an atomic's executing lanes. -/
def AtomArgs.eas (x : AtomArgs) (h : Hdr) (s : State) : List (Nat × Word) :=
  (s.lanes h x.vec).map (fun k => (k, BitVec.ofNat 64 (s.readOp s.cur x.base k)))

/-- An operation with an atomic's destination and ordering. -/
def AtomArgs.ordered (x : AtomArgs) (f : Flight) : Flight :=
  { f with
    dst := x.d, isLoad := true, isStore := true, acquire := ordAcq x.order
    release := if ordRel x.order then some x.mask else none, scope := x.scope }

/-- The operation that an atomic sends. -/
def AtomArgs.flight (x : AtomArgs) (i : Instr) (s : State) (a : List LaneAcc) : Flight :=
  x.ordered (s.flightOf i (.atom x.op x.ty) (x.parts s a))

/-- The state from which it sends it: its lines have left the L1 and the die's copies. -/
def AtomArgs.cleared (x : AtomArgs) (i : Instr) (s : State) (a : List LaneAcc) : State :=
  (((s.enter i).keepLanes a).dropL1 (s.cur / 16) (linesOf a (x.ty.bits / 8))).dropMirror a

theorem hostTrap_eq_none {ok : Bool} {l : List LaneAcc} (h : ok = true ∨ ∀ e ∈ l, isHost e.pl.key = false) :
    hostTrap ok l = none := by
  rcases h with rfl | h
  · rfl
  · have none : l.filter (fun e => isHost e.pl.key) = [] := by simpa using h
    simp [hostTrap, none]

@[simp] theorem AtomArgs.enter_eas (x : AtomArgs) (i : Instr) (s : State) : x.eas i.hdr (s.enter i) = x.eas i.hdr s := by
  simp [AtomArgs.eas]

@[simp] theorem AtomArgs.enter_parts (x : AtomArgs) (i : Instr) (s : State) (a : List LaneAcc) :
    x.parts (s.enter i) a = x.parts s a := by
  simp [AtomArgs.parts, AtomArgs.val]

section

variable {i : Instr} {x : AtomArgs} {s : State}

theorem AtomArgs.cleared_readied (a : List LaneAcc) :
    Readied i s (x.cleared i s a) (fun k => k.dropLines (linesOf a (x.ty.bits / 8))) :=
  (((Readied.enter i s).keepLanes a).dropL1 _).dropMirror a

/-- An atomic's own part, by its cases. -/
theorem atomAct_enter (turn : s.curCtx < 16) : atomAct i x (s.enter i) =
    if x.eas i.hdr s = [] then (s.enter i).idleProducer i
    else if x.d.isNone ∧ s.queueFull s.cur then .stall
    else
      match misaligned (x.ty.bits / 8) (x.eas i.hdr s) with
      | some t => .trap t
      | none =>
        match s.placeLanes .atomic (x.ty.bits / 8) (x.eas i.hdr s) with
        | .error t => .trap t
        | .ok a =>
          match hostTrap x.op.onHost a with
          | some t => .trap t
          | none =>
            .go (if x.d.isSome then (x.cleared i s a).sendWB i s.cur (x.flight i s a)
              else (x.cleared i s a).send (x.flight i s a)) := by
  have own (u : State) : atomAct i x u =
      if x.eas i.hdr u = [] then u.idleProducer i
      else if x.d.isNone ∧ u.queueFull u.cur then .stall
      else
        match misaligned (x.ty.bits / 8) (x.eas i.hdr u) with
        | some t => .trap t
        | none =>
          match u.placeLanes .atomic (x.ty.bits / 8) (x.eas i.hdr u) with
          | .error t => .trap t
          | .ok a =>
            match hostTrap x.op.onHost a with
            | some t => .trap t
            | none =>
              let t := ((u.keepLanes a).dropL1 u.curCore (linesOf a (x.ty.bits / 8))).dropMirror a
              .go (if x.d.isSome then t.sendWB i u.cur (x.ordered (u.newFlight u.cur (.atom x.op x.ty) (x.parts u a)))
                else t.send (x.ordered (u.newFlight u.cur (.atom x.op x.ty) (x.parts u a)))) := rfl
  simp only [own, State.enter_cur, AtomArgs.enter_eas, State.enter_queueFull, State.enter_placeLanes, AtomArgs.enter_parts,
    State.enter_newFlight, AtomArgs.cleared, AtomArgs.flight, s.cur_core turn] <;> rfl

variable (h : Ready i s) (he : exec i s = .next (s.issue i (atomAct i x)))
include h he

theorem Ready.atomic_full (hl : x.eas i.hdr s ≠ []) (hd : x.d = none) (hq : s.queueFull s.cur = true) : Forfeits i s := by
  refine h.forfeits he ?_
  rw [atomAct_enter h.turn, if_neg hl, if_pos ⟨by simp [hd], hq⟩]

variable (hk : i.shape.kind = if x.d.isSome then .late else .none)
include hk

theorem Ready.atomic_idle (hl : x.eas i.hdr s = []) :
    (x.d.isSome = true → Writes i s [] [] .none) ∧ (x.d = none → Passes i s) := by
  have ha : atomAct i x (s.enter i) = (s.enter i).idleProducer i := by rw [atomAct_enter h.turn, if_pos hl]
  constructor
  · intro hd
    exact h.writes he (by rw [hk, if_pos hd]; nofun) ha
  · intro hd
    refine h.passes he (ha.trans ?_)
    have none : i.shape.kind = .none := by simp [hk, hd]
    unfold State.idleProducer State.produce State.addWB
    rw [none]

theorem Ready.atomic_sent {a : List LaneAcc} (hl : x.eas i.hdr s ≠ []) (hq : x.d = none → s.queueFull s.cur = false)
    (hm : ∀ e ∈ x.eas i.hdr s, e.2.toNat % (x.ty.bits / 8) = 0)
    (hp : s.placeLanes .atomic (x.ty.bits / 8) (x.eas i.hdr s) = .ok a)
    (hh : x.op.onHost = true ∨ ∀ e ∈ a, isHost e.pl.key = false) :
    ∃ t, exec i s = .next t ∧ t.mem = s.mem ∧ (∀ c, t.die c = (s.die c).cachesOf (t.die c)) ∧
      (x.d.isSome = true → Produced i s t (s.past i) (s.wbOf i (s.nextId + 1) true [] [] .none) id
        (fun k => (k.dropLines (linesOf a (x.ty.bits / 8))).tlbOf (t.core (s.cur / 16)))
        { s with
          flights := s.flights ++ [{ x.flight i s a with wb := some (s.nextId + 1) }], nextId := s.nextId + 2
          dies := t.dies }) ∧
      (x.d = none → Went i s t (s.past i) id
        (fun k => (k.dropLines (linesOf a (x.ty.bits / 8))).tlbOf (t.core (s.cur / 16)))
        { s with flights := s.flights ++ [x.flight i s a], nextId := s.nextId + 1, dies := t.dies }) := by
  have ready := x.cleared_readied (i := i) (s := s) a
  have ha := atomAct_enter (i := i) (x := x) h.turn
  have free : ¬(x.d.isNone = true ∧ s.queueFull s.cur = true) := by
    rintro ⟨hd, full⟩
    simp [hq (Option.isNone_iff_eq_none.mp hd)] at full
  rw [if_neg hl, if_neg free, misaligned_eq_none hm, hp] at ha
  simp only [hostTrap_eq_none hh] at ha
  have run := he.trans (congrArg _ (h.issue_go ha))
  rcases hd : x.d with _ | d
  · rw [if_neg (by simp [hd])] at run
    generalize ht : ((x.cleared i s a).send (x.flight i s a)).leave i s.cur (s.pcAfter i) = t at run
    obtain ⟨dies, went⟩ := ready.went (x.flight i s a) (s.pcAfter i) ht
    have mem := congrArg State.mem went.rest
    exact ⟨t, run, mem, dies, nofun, fun _ => went⟩
  · rw [if_pos (by simp [hd])] at run
    generalize ht : ((x.cleared i s a).sendWB i s.cur (x.flight i s a)).leave i s.cur (s.pcAfter i) = t at run
    obtain ⟨dies, made⟩ :=
      ready.produced (by simp [hk, hd]) (fun _ => ⟨rfl, rfl, rfl⟩) (x.flight i s a) (s.pcAfter i) ht
    have mem := congrArg State.mem made.went.rest
    exact ⟨t, run, mem, dies, fun _ => made, nofun⟩

end

/-- Settles O14: each form is its own part with its operands, its rows of the shapes say whether it has a destination, and the
operation leaves from a state that differs in caches alone. -/
theorem atomicsAreSent : Obligations.AtomicsAreSent := by
  intro s i op ty d base b nv order scope mask form ready vec l n val
  obtain ⟨he, hk⟩ : exec i s = .next (s.issue i (atomAct i ⟨op, ty, d, base, b, nv, order, scope, mask⟩)) ∧
      i.shape.kind = if d.isSome then .late else .none := by
    rcases form with ⟨f, rfl, rfl, rfl, rfl, rfl, rfl, rfl, rfl, form⟩ | ⟨f, rfl, rfl, rfl, rfl, rfl, rfl, rfl, rfl, rfl, rfl⟩
    · rcases form with ⟨rfl, rfl⟩ | ⟨rfl, rfl⟩ | ⟨rfl, rfl⟩ | ⟨rfl, rfl⟩ | ⟨rfl, rfl⟩ | ⟨rfl, rfl⟩ | ⟨rfl, rfl⟩ |
        ⟨rfl, rfl⟩ | ⟨rfl, rfl⟩ | ⟨rfl, rfl⟩ <;> exact ⟨rfl, rfl⟩
    · exact ⟨rfl, rfl⟩
  refine ⟨fun hl => (ready.atomic_idle he hk hl).1, fun hl => (ready.atomic_idle he hk hl).2, ready.atomic_full he, ?_⟩
  intro a hl hq hm hp hh g
  have host : op.onHost = true ∨ ∀ e ∈ a, isHost e.pl.key = false := by
    rcases hh with rfl | rfl | rfl | hh
    · exact .inl rfl
    · exact .inl rfl
    · exact .inl rfl
    · exact .inr hh
  have sent := ready.atomic_sent he hk hl hq hm hp host
  have flight : g = AtomArgs.flight ⟨op, ty, d, base, b, nv, order, scope, mask⟩ i s a := by
    have release : (if order = .release ∨ order = .acqRel then some mask else none) =
        if ordRel order then some mask else none := by
      simp [ordRel]
    simp only [g, AtomArgs.flight, AtomArgs.ordered, release]
    rfl
  rw [flight]
  exact sent

end Sys2Proof.Machine
end

section
/-! PROOF. DIV and REM (R65, R96). -/

namespace Sys2Proof.Machine

/-- The result of a lane of DIV or REM, by whether its divisor is 0 (R65). -/
theorem fitInt_divide (t : Ty) (sat : Bool) (w : Nat) (z q b : Int) :
    fitInt t (sat && decide (b ≠ 0)) w (if b = 0 then z else q) =
      if b = 0 then fitInt t false w z else fitInt t sat w q := by
  by_cases h : b = 0 <;> simp [h]

/-- DIV and REM write what their operation gives in each lane; a zero divisor is not saturated and sets DZ (R65, R96). -/
theorem Ready.divides {i : Instr} {f : Int3} {s : State} {op : Int → Int → Int} {q z : Nat → Int} (h : Ready i s)
    (hf : i.hdr = f.h) (hk : i.shape.kind ≠ .none) (he : exec i s = .next (s.issue i (divide i f op)))
    (hop : ∀ l, op (s.intOp s.cur f.ty f.a l) (s.intOp s.cur f.ty f.b l) =
      if s.intOp s.cur f.ty f.b l = 0 then z l else q l) :
    Writes i s
      [s.lanesWrite f.h f.d (fun l =>
        if s.intOp s.cur f.ty f.b l = 0 then fitInt f.ty false f.d.bits (z l) else fitInt f.ty f.sat f.d.bits (q l))] []
      { Flags.none with dz := (s.lanes f.h f.d.isVec).any (fun l => s.intOp s.cur f.ty f.b l = 0) } := by
  refine h.writes he hk ?_
  have fl (b : Bool) : (if b = true then flagDZ else .none) = { Flags.none with dz := b } := by cases b <;> rfl
  simp only [divide, State.enter_cur, State.enter_intOp, State.enter_lanesWrite, State.enter_lanes, hf, hop, fitInt_divide, fl]

/-- Settles O2: both are one operation of the two sources, and in each lane the zero divisor decides between its two results. -/
theorem divisionResults : Obligations.DivisionResults := by
  intro f s
  refine ⟨fun h => ?_, fun h => ?_⟩
  · exact h.divides rfl nofun rfl (fun _ => rfl)
  · exact h.divides rfl nofun rfl (fun _ => rfl)

end Sys2Proof.Machine
end

section
/-! PROOF. An own part that changes its context, records a writeback and may need the normaliser (R32, R79). -/

namespace Sys2Proof.Machine

/-- What needing the normaliser does to a context and to its core (R32, R187). -/
def Ctx.normalised (sub : Bool) (x : Ctx) : Ctx := { x with forfeits := if sub then 3 else x.forfeits }
def Core.normalised (sub : Bool) (k : Core) : Core :=
  if sub then { k with perf := Tab.set 0 k.perf 2 (Tab.get 0 k.perf 2 + 1) } else k

theorem Ctx.normalised_keeps (sub : Bool) : KeepsCtx (Ctx.normalised sub) :=
  ⟨fun _ => rfl, fun _ => rfl, fun _ _ => rfl⟩

theorem Core.normalised_keeps (sub : Bool) : KeepsCore (Core.normalised sub) := by
  cases sub
  · exact .id
  · exact keepsCore_perf (fun t => Tab.set 0 t 2 (Tab.get 0 t 2 + 1))

theorem Changed.normalise {s t : State} (h : t.cur = s.cur) (sub : Bool) :
    Changed s.cur t (t.normalise sub) (Ctx.normalised sub) (Core.normalised sub) id := by
  cases sub
  · exact .refl s.cur t
  · rw [State.normalise, if_pos rfl, h]
    exact .mod s.cur t (Ctx.normalised true) (Core.normalised true)

/-- Recording a writeback does not move the turn marker. -/
theorem State.record_cur {s u : State} (i : Instr) (missing : Bool) (sl : List SlWrite) (pr : List PrWrite) (fl : Flags)
    (hy : u.cycle = s.cycle) (hk : i.shape.kind ≠ .none) : (u.record s i missing sl pr fl).cur = u.cur := by
  obtain ⟨v, same, hv, -⟩ := State.record_spec s u i missing sl pr fl hy hk
  have rest : (u.record s i missing sl pr fl).cur = v.cur := by
    have := congrArg State.cur same.rest
    exact this
  rw [rest, hv]
  rfl

/-- v is s as an instruction enters it, with the current context then changed by k. -/
structure Prepared (i : Instr) (s v : State) (k : Ctx → Ctx) : Prop where
  ctx : v.ctx s.cur = k (s.entered i)
  ctxs : ∀ q, q ≠ s.cur → v.ctx q = s.ctx q
  rest : { v with ctxs := s.ctxs } = s

theorem Prepared.enter (i : Instr) (s : State) : Prepared i s (s.enter i) id :=
  ⟨s.enter_ctx i, fun _ h => s.enter_ctx_ne i h, rfl⟩

section

variable {i : Instr} {s v : State} {k : Ctx → Ctx}

theorem Prepared.modCtx (h : Prepared i s v k) (f : Ctx → Ctx) :
    Prepared i s (v.modCtx s.cur f) (fun x => f (k x)) where
  ctx := by rw [State.modCtx_eq, State.ctx_setCtx_self, h.ctx]
  ctxs q n := by rw [State.modCtx_eq, State.ctx_setCtx_ne _ _ n, h.ctxs q n]
  rest := h.rest

theorem Prepared.cur (h : Prepared i s v k) : v.cur = s.cur := by
  have e := congrArg State.cur h.rest
  exact e

theorem Prepared.cycle (h : Prepared i s v k) : v.cycle = s.cycle := by
  have e := congrArg State.cycle h.rest
  exact e

theorem Prepared.nextId (h : Prepared i s v k) : v.nextId = s.nextId := by
  have e := congrArg State.nextId h.rest
  exact e

theorem Prepared.core (h : Prepared i s v k) (c : Nat) : v.core c = s.core c := by
  have e := congrArg (fun x : State => x.core c) h.rest
  exact e

theorem Prepared.window (h : Prepared i s v k) (kept : KeepsCtx k) (e : FileId) : v.window s.cur e = s.window s.cur e := by
  cases e with
  | v => exact (congrArg Ctx.v h.ctx).trans (kept.v _)
  | s => exact (congrArg Ctx.s h.ctx).trans (kept.s _)
  | g => exact congrArg Core.g (h.core _)
  | h => exact congrArg Core.h (h.core _)

/-- The instruction completes: beside its writeback, its context has changed by k and by what the normaliser takes. -/
theorem Prepared.computes {sl : List SlWrite} {fl : Flags} {sub : Bool} {act : State → Act} (p : Prepared i s v k)
    (kept : KeepsCtx k) (left : ∀ pc, (Ctx.normalised sub (k (s.entered i))).goTo pc = Ctx.normalised sub (k (s.pastTo i pc)))
    (h : Ready i s) (he : exec i s = .next (s.issue i act)) (hk : i.shape.kind ≠ .none)
    (ha : act (s.enter i) = .go ((v.produce i sl [] fl).normalise sub)) :
    ∃ t, exec i s = .next t ∧ Produced i s t (s.past i) (s.wbOf i s.nextId false sl [] fl)
      (fun x => Ctx.normalised sub (k x)) (Core.normalised sub) s.fresh := by
  rw [State.produce_eq p.cur] at ha
  refine ⟨_, he.trans (congrArg _ (h.issue_go ha)), ?_⟩
  rw [← p.nextId]
  have ctx : (Ctx.normalised sub (v.ctx s.cur)).goTo (s.pcAfter i) = Ctx.normalised sub (k (s.past i)) :=
    p.ctx.symm ▸ left _
  have core : Core.normalised sub (v.core (s.cur / 16)) = Core.normalised sub s.mine := congrArg _ (p.core _)
  have rest : { v.fresh with ctxs := s.ctxs, cores := s.cores } = s.fresh := by
    have e := congrArg (fun x : State => State.fresh { x with cores := s.cores }) p.rest
    exact e
  exact produced_leave (v := v) (e := id) (Ctx.normalised_keeps sub) (Core.normalised_keeps sub) hk p.cycle ctx core
    (congrArg Core.wbs (p.core _)) p.ctxs (fun c _ => p.core c) rest (p.window kept)
    (.normalise ((State.record_cur i false sl [] fl p.cycle hk).trans p.cur) sub)

end

end Sys2Proof.Machine
end

section
/-! PROOF. Conversions (R122 to R124) and block instructions (R125 to R130). -/

namespace Sys2Proof.Machine

/-! CVT and CVTS. -/

section

variable (s : State) (f : CvtF)

/-- What a conversion leaves in a lane, with the generator's state after it (R78, R79, R122). -/
def State.cvtRes (n : Nat) : LaneRes × BitVec 32 :=
  let k := (cvtCount f).getD 1
  cvtLane f s.me.ftz k (s.readOp s.cur f.a n) k 0 ⟨0, .none, false⟩ (Tab.get 0 s.me.srs n)

/-- The generator's states that a conversion leaves (R79). -/
def State.stepSrs (x : Ctx) : Ctx :=
  { x with
    srs := if f.rnd = .rs then
      Tab.setMany 0 x.srs ((s.lanes f.h f.d.isVec).map (fun n => (n, (s.cvtRes f n).2))) else x.srs }

theorem State.stepSrs_keeps : KeepsCtx (s.stepSrs f) := ⟨fun _ => rfl, fun _ => rfl, fun _ _ => rfl⟩

/-- A conversion's own part: with .RS the generators of the executing lanes step, and each of those lanes receives its elements. -/
theorem convert_enter (i : Instr) (hi : i.hdr = f.h) : ∃ v, Prepared i s v (s.stepSrs f) ∧
    convert i f (s.enter i) = .go ((v.produce i [s.lanesWrite f.h f.d (fun n => (s.cvtRes f n).1.bits)] []
      (Flags.all ((s.lanes f.h f.d.isVec).map (fun n => (s.cvtRes f n).1.fl)))).normalise
        ((s.lanes f.h f.d.isVec).any (fun n => (s.cvtRes f n).1.sub))) := by
  have run (n : Nat) : cvtLane f (s.enter i).ftz ((cvtCount f).getD 1) ((s.enter i).readOp s.cur f.a n)
      ((cvtCount f).getD 1) 0 ⟨0, .none, false⟩ (Tab.get 0 ((s.enter i).ctx s.cur).srs n) = s.cvtRes f n := by
    rw [State.enter_ftz, State.enter_ctx, State.enter_readOp]
    rfl
  have write {v : State} (p : Prepared i s v (s.stepSrs f)) : fpWrite i f.d (fun n => (s.cvtRes f n).1) v =
      .go ((v.produce i [s.lanesWrite f.h f.d (fun n => (s.cvtRes f n).1.bits)] []
        (Flags.all ((s.lanes f.h f.d.isVec).map (fun n => (s.cvtRes f n).1.fl)))).normalise
          ((s.lanes f.h f.d.isVec).any (fun n => (s.cvtRes f n).1.sub))) := by
    have lanes : v.lanes i.hdr f.d.isVec = s.lanes f.h f.d.isVec := by
      rw [hi, State.lanes, p.cur, p.ctx]
      rfl
    simp [fpWrite, lanes, State.lanesWrite, Function.comp_def, List.any_map]
  by_cases rs : f.rnd = .rs
  · have p : Prepared i s _ (s.stepSrs f) := (Prepared.enter i s).modCtx (s.stepSrs f)
    refine ⟨_, p, ?_⟩
    have step : s.stepSrs f = fun x => { x with
        srs := Tab.setMany 0 x.srs ((s.lanes f.h f.d.isVec).map (fun n => (n, (s.cvtRes f n).2))) } := by
      funext x; simp [State.stepSrs, rs]
    rw [← write p, step]
    simp only [convert, run, rs, if_true, State.enter_cur, State.enter_lanes]
  · have p : Prepared i s (s.enter i) (s.stepSrs f) := by
      have same : s.stepSrs f = id := by funext x; simp [State.stepSrs, rs]
      exact same ▸ Prepared.enter i s
    refine ⟨_, p, ?_⟩
    rw [← write p]
    simp only [convert, run, rs, if_false, State.enter_cur]

end

/-- A producer of fixed latency, marked or not, is a producer. -/
theorem Kind.mark_ne_none (n : Nat) (m : Bool) : (Kind.fixed n).mark m ≠ .none := by cases m <;> nofun

/-! Blocks of the groups that take part. -/

@[simp] theorem State.enter_param (s : State) (i : Instr) (o : Opnd) (W j : Nat) :
    (s.enter i).param o W j = s.param o W j := by simp [State.param]

@[simp] theorem State.enter_qGroup (s : State) (i : Instr) (f : QblkF) (j : Nat) :
    (s.enter i).qGroup f j = s.qGroup f j := by
  have source (n : Nat) : (s.enter i).qSource f j n = s.qSource f j n := by simp [State.qSource]
  simp [State.qGroup, funext source]

@[simp] theorem State.enter_bhdrBlk (s : State) (i : Instr) (f : BhdrF) (j : Nat) :
    (s.enter i).bhdrBlk f j = s.bhdrBlk f j := by simp [State.bhdrBlk]

@[simp] theorem State.enter_bsetBlk (s : State) (i : Instr) (f : BsetF) (j b : Nat) :
    (s.enter i).bsetBlk f j b = s.bsetBlk f j b := by simp [State.bsetBlk]

theorem State.groups_sorted (s : State) (h : Hdr) : (s.groups h).Pairwise (· < ·) := List.pairwise_lt_range.filter _

/-- A test of groups in ascending number finds the lowest that it holds for. -/
theorem find?_lowest {l : List Nat} (sorted : l.Pairwise (· < ·)) {p : Nat → Bool} {j : Nat} (hj : j ∈ l) (hp : p j = true)
    (low : ∀ i ∈ l, i < j → p i = false) : l.find? p = some j := by
  obtain ⟨a, b, rfl⟩ := List.append_of_mem hj
  refine List.find?_eq_some_iff_append.mpr ⟨hp, a, b, rfl, fun i hi => ?_⟩
  have below : i < j := (List.pairwise_append.mp sorted).2.2 i hi j List.mem_cons_self
  rw [low i (List.mem_append_left _ hi) below]
  rfl

/-- The first unreadable block of some groups, with the group whose it is (R126). -/
def firstBad (img : Nat → Nat) (l : List Nat) : Option (Nat × Nat) :=
  (l.map (fun j => (j, img j))).find? (fun x => (blkFmt x.2).isNone)

theorem firstBad_eq (img : Nat → Nat) (l : List Nat) :
    firstBad img l = (l.find? (fun j => (blkFmt (img j)).isNone)).map (fun j => (j, img j)) := List.find?_map ..

theorem firstBad_eq_none {img : Nat → Nat} {l : List Nat} (h : ∀ j ∈ l, (blkFmt (img j)).isSome = true) :
    firstBad img l = none := by
  have none : l.find? (fun j => (blkFmt (img j)).isNone) = none := by
    rw [List.find?_eq_none]
    intro j hj
    simp [Option.isSome_iff_ne_none.mp (h j hj)]
  rw [firstBad_eq, none]
  rfl

theorem firstBad_eq_some {img : Nat → Nat} {l : List Nat} (sorted : l.Pairwise (· < ·)) {j : Nat} (hj : j ∈ l)
    (bad : blkFmt (img j) = none) (low : ∀ i ∈ l, i < j → (blkFmt (img i)).isSome = true) :
    firstBad img l = some (j, img j) := by
  have first : l.find? (fun j => (blkFmt (img j)).isNone) = some j :=
    find?_lowest sorted hj (by simp [bad]) (fun i hi hlt => by rw [Option.isNone_eq_false_iff]; exact low i hi hlt)
  rw [firstBad_eq, first]
  rfl

/-- Lists that each group gives from its block. -/
theorem flatMap_images {α : Type} {img : Nat → Nat} {l : List Nat} {f : Nat × Nat → List α} {g : Nat → List α}
    (h : ∀ j ∈ l, f (j, img j) = g j) : (l.map (fun j => (j, img j))).flatMap f = l.flatMap g := by
  rw [List.flatMap_map]
  exact List.flatMap_congr h

/-! Each block instruction. -/

theorem Ready.qblk {s : State} {f : QblkF} (h : Ready (.qblk f) s) :
    Computes (.qblk f) s [blkWrite f.d ((s.groups f.h).flatMap (fun j => imageLanes j (s.qGroup f j).bits))]
      (Flags.all ((s.groups f.h).map (fun j => (s.qGroup f j).fl))) ((s.groups f.h).any (fun j => (s.qGroup f j).sub)) := by
  refine h.computes rfl (Kind.mark_ne_none 12 f.mkd) ?_
  simp only [State.enter_groups, State.enter_qGroup, List.flatMap_map, List.map_map, List.any_map, Function.comp_def]

theorem Ready.bhdr {s : State} {f : BhdrF} (h : Ready (.bhdr f) s) :
    Writes (.bhdr f) s [blkWrite f.d ((s.groups f.h).map (fun j => (16 * j, s.bhdrBlk f j)))] [] .none := by
  refine h.writes rfl (Kind.mark_ne_none 12 f.mkd) ?_
  simp only [State.enter_groups, State.enter_bhdrBlk]

section

variable {s : State} {f : BsetF} (h : Ready (.bset f) s)
include h

theorem Ready.bset (ok : ∀ j ∈ s.groups f.h, (blkFmt (s.image f.d j)).isSome = true) :
    Writes (.bset f) s [blkWrite f.d
      ((s.groups f.h).flatMap (fun j => imageLanes j (s.bsetBlk f j (s.image f.d j))))] [] .none := by
  refine h.writes rfl (Kind.mark_ne_none 12 f.mkd) ?_
  have none := firstBad_eq_none ok
  rw [firstBad] at none
  simp only [State.enter_groups, State.enter_image, State.enter_bsetBlk, none, List.flatMap_map]

theorem Ready.bset_traps {j : Nat} (bad : firstBad (s.image f.d) (s.groups f.h) = some (j, s.image f.d j)) :
    TrapsAs (.bset f) s (tBlockFormat 0 (blkByte (s.image f.d j) 0)) := by
  refine h.traps rfl ?_ rfl
  rw [firstBad] at bad
  simp only [State.enter_groups, State.enter_image, bad]

end

/-- What DQBLK makes of a readable block of a group. -/
theorem dqLanes_readable {f : Fp2} {z : Bool} {x : Nat × Nat} {m : BFmt} (h : blkFmt x.2 = some m) :
    (match blkFmt x.2 with | none => [] | some m => dqLanes f z x.1 x.2 m) = dqLanes f z x.1 x.2 m := by
  generalize dqLanes f z x.1 x.2 = lanes
  rw [h]

section

variable {s : State} {f : Fp2} (h : Ready (.dqblk f) s) (wide : s.dqWide f = true)
include wide

theorem exec_dqblk : exec (.dqblk f) s = .next (s.issue (.dqblk f) (dqblkAct f)) := by
  show execDqblk f s = _
  simp [execDqblk, wide]

include h

theorem Ready.dqblk {m : Nat → BFmt} (ok : ∀ j ∈ s.groups f.h, blkFmt (s.image f.a j) = some (m j)) :
    let rs := (s.groups f.h).flatMap (fun j => dqLanes f s.me.ftz j (s.image f.a j) (m j))
    Computes (.dqblk f) s [blkWrite f.d (rs.map (fun r => (r.1, r.2.bits)))]
      (Flags.all (rs.map (fun r => r.2.fl))) (rs.any (fun r => r.2.sub)) := by
  refine h.computes (exec_dqblk wide) (Kind.mark_ne_none 12 f.mkd) ?_
  have none := firstBad_eq_none (fun j hj => Option.isSome_iff_exists.mpr ⟨m j, ok j hj⟩)
  rw [firstBad] at none
  have ftz : s.ftz = s.me.ftz := rfl
  simp only [dqblkAct, State.enter_groups, State.enter_image, State.enter_ftz, ftz, none]
  rw [flatMap_images (fun j hj => dqLanes_readable (x := (j, s.image f.a j)) (ok j hj))]

theorem Ready.dqblk_traps {j : Nat} (bad : firstBad (s.image f.a) (s.groups f.h) = some (j, s.image f.a j)) :
    TrapsAs (.dqblk f) s (tBlockFormat 0 (blkByte (s.image f.a j) 0)) := by
  refine h.traps (exec_dqblk wide) ?_ rfl
  rw [firstBad] at bad
  simp only [dqblkAct, State.enter_groups, State.enter_image, bad]

end

theorem State.dqWide_of {s : State} {f : Fp2}
    (h : ∀ j ∈ s.groups f.h, ∀ m, blkFmt (s.image f.a j) = some m → f.d.width = m.perLane * f.ty.slices) :
    s.dqWide f = true := by
  refine List.all_eq_true.mpr fun j hj => ?_
  split
  · rfl
  · rename_i m hm
    exact decide_eq_true (h j hj m hm)

/-- BSET's block where it is readable (R130). -/
theorem State.bsetBlk_of {s : State} {f : BsetF} {j b : Nat} {m : BFmt} (h : blkFmt b = some m) :
    s.bsetBlk f j b =
      sealed (if s.param f.i 8 j < m.count then putElem m b (s.param f.i 8 j) (s.param f.c m.bits j) else b) := by
  rw [State.bsetBlk, h]

/-- Settles O10: a conversion's own part is its lanes' results with the generators' steps, and each block instruction's is what its
groups give, or the trap of the lowest unreadable block. -/
theorem conversionAndBlockResults : Obligations.ConversionAndBlockResults := by
  intro s gs
  have groups : gs = s.groups := rfl
  clear_value gs
  subst groups
  refine ⟨?cvt, fun f h => h.qblk, ?dqblk, ?bhdr, ?bset, ?dqblkTraps, ?bsetTraps⟩
  case cvt =>
    intro f i form h
    have he : exec i s = .next (s.issue i (convert i f)) ∧ i.shape.kind ≠ .none ∧ i.hdr = f.h := by
      rcases form with rfl | rfl <;> exact ⟨rfl, Kind.mark_ne_none 8 f.mkd, rfl⟩
    obtain ⟨he, hk, hh⟩ := he
    obtain ⟨v, p, ha⟩ := convert_enter s f i hh
    exact p.computes (s.stepSrs_keeps f) (fun _ => rfl) h he hk ha
  case dqblk =>
    intro f m h ok
    refine h.dqblk (State.dqWide_of fun j hj n hn => ?_) (fun j hj => (ok j hj).1)
    obtain ⟨hm, hw⟩ := ok j hj
    rw [hm] at hn
    exact (Option.some.inj hn) ▸ hw
  case bhdr =>
    intro f h
    have header := h.bhdr
    simp only [State.bhdrBlk] at header
    exact header
  case bset =>
    intro f m h ok
    have blocks := h.bset (fun j hj => Option.isSome_iff_exists.mpr ⟨m j, ok j hj⟩)
    rw [List.flatMap_congr (g := fun j => imageLanes j (sealed (if s.param f.i 8 j < (m j).count then
      putElem (m j) (s.image f.d j) (s.param f.i 8 j) (s.param f.c (m j).bits j) else s.image f.d j))) ?same] at blocks
    · exact blocks
    case same =>
      intro j hj
      rw [State.bsetBlk_of (ok j hj)]
  case dqblkTraps =>
    intro f j h hj bad low wide
    exact h.dqblk_traps (State.dqWide_of wide) (firstBad_eq_some (s.groups_sorted f.h) hj bad low)
  case bsetTraps =>
    intro f j h hj bad low
    exact h.bset_traps (firstBad_eq_some (s.groups_sorted f.h) hj bad low)

end Sys2Proof.Machine
end

section
/-! PROOF. Rounding (R70 to R72): a magnitude on a grid, in units of a part of the grid's step. -/

namespace Sys2Proof.Machine

/-- A value of N units of b, and a grid whose step is 2 * h of them. -/
structure OnGrid (v u b : ℚ) (N h : ℕ) : Prop where
  pos : 0 < b
  value : v = N * b
  step : u = (2 * h : ℕ) * b

section

variable {v u b : ℚ} {N h : ℕ} (g : OnGrid v u b N h) (k : ℕ)
include g

theorem OnGrid.mul : (k : ℚ) * u = (k * (2 * h) : ℕ) * b := by
  rw [g.step, ← mul_assoc, ← Nat.cast_mul]

theorem OnGrid.le : (k : ℚ) * u ≤ v ↔ k * (2 * h) ≤ N := by
  rw [g.mul, g.value, mul_le_mul_iff_left₀ g.pos, Nat.cast_le]

theorem OnGrid.lt : v < (k : ℚ) * u ↔ N < k * (2 * h) := by
  rw [g.mul, g.value, mul_lt_mul_iff_left₀ g.pos, Nat.cast_lt]

theorem OnGrid.ge : v ≤ (k : ℚ) * u ↔ N ≤ k * (2 * h) := by
  rw [g.mul, g.value, mul_le_mul_iff_left₀ g.pos, Nat.cast_le]

theorem OnGrid.eq : (k : ℚ) * u = v ↔ k * (2 * h) = N := by
  rw [g.mul, g.value, mul_left_inj' g.pos.ne', Nat.cast_inj]

/-- The value lies above the multiple before the k-th. -/
theorem OnGrid.pred_lt : ((k : ℚ) - 1) * u < v ↔ k * (2 * h) < N + 2 * h := by
  have e : ((k : ℚ) - 1) * u < v ↔ (k : ℚ) * u < v + u := by constructor <;> intro _ <;> linarith
  rw [e, g.mul, g.value, g.step, ← add_mul, mul_lt_mul_iff_left₀ g.pos, ← Nat.cast_add, Nat.cast_lt]

theorem OnGrid.half : u / 2 = (h : ℚ) * b := by
  rw [g.step]; push_cast; ring

theorem OnGrid.le_add_half : (k : ℚ) * u ≤ v + u / 2 ↔ k * (2 * h) ≤ N + h := by
  rw [g.half, g.mul, g.value, ← add_mul, mul_le_mul_iff_left₀ g.pos, ← Nat.cast_add, Nat.cast_le]

theorem OnGrid.le_mul_add_half : v ≤ (k : ℚ) * u + u / 2 ↔ N ≤ k * (2 * h) + h := by
  rw [g.half, g.mul, g.value, ← add_mul, mul_le_mul_iff_left₀ g.pos, ← Nat.cast_add, Nat.cast_le]

/-- Within half a step of the k-th multiple. -/
theorem OnGrid.near : |(k : ℚ) * u - v| ≤ u / 2 ↔ k * (2 * h) ≤ N + h ∧ N ≤ k * (2 * h) + h := by
  rw [← g.le_add_half, ← g.le_mul_add_half, abs_le]
  constructor <;> rintro ⟨_, _⟩ <;> constructor <;> linarith

/-- At exactly half a step, it is the upper or the lower end of the half. -/
theorem OnGrid.tie (e : |(k : ℚ) * u - v| = u / 2) : N + h ≤ k * (2 * h) ∨ k * (2 * h) + h ≤ N := by
  have pos : 0 < b := g.pos
  rcases abs_choice ((k : ℚ) * u - v) with c | c <;> rw [c, g.mul, g.half, g.value] at e
  · left
    have : ((N + h : ℕ) : ℚ) * b ≤ (k * (2 * h) : ℕ) * b := by push_cast at e ⊢; linarith
    exact_mod_cast le_of_mul_le_mul_right this pos
  · right
    have : ((k * (2 * h) + h : ℕ) : ℚ) * b ≤ (N : ℕ) * b := by push_cast at e ⊢; linarith
    exact_mod_cast le_of_mul_le_mul_right this pos

end

/-- What is kept of N units on a grid of steps of 2 * h, and whether it rounds up. -/
def roundUnits (mode : Rnd) (neg more : Bool) (N sh : ℕ) : ℕ :=
  N / 2 ^ sh + if roundsUp (.det mode) neg (N / 2 ^ sh) (N % 2 ^ sh) sh more then 1 else 0

/-- Rounding on a grid is rounding of a whole number of units, at least two in a step. -/
theorem roundAt_units (x : Mag) (q : Int) (hx : x.more = true → x.e < q) :
    ∃ (b : ℚ) (N sh : ℕ), OnGrid (x.m * (2 : ℚ) ^ x.e) ((2 : ℚ) ^ q) b N (2 ^ sh) ∧
      ∀ mode neg, roundAt (.det mode) neg x q =
        (roundUnits mode neg x.more N (sh + 1), decide (N % 2 ^ (sh + 1) ≠ 0) || x.more) := by
  by_cases hq : q ≤ x.e
  · have exact_ : x.more = false := by
      cases c : x.more
      · rfl
      · exact absurd (hx c) (not_lt.mpr hq)
    refine ⟨(2 : ℚ) ^ (q - 1), 2 * (x.m * 2 ^ (x.e - q).toNat), 0, ⟨by positivity, ?_, ?_⟩, fun mode neg => ?_⟩
    · have e : x.e = ((x.e - q).toNat : ℤ) + (q - 1) + 1 := by omega
      conv_lhs => rw [e, zpow_add₀ two_ne_zero, zpow_add₀ two_ne_zero, zpow_natCast]
      push_cast; ring
    · rw [zpow_sub₀ two_ne_zero]; push_cast; ring
    · have up : roundsUp (.det mode) neg (x.m * 2 ^ (x.e - q).toNat) 0 1 false = false := by cases mode <;> simp [roundsUp]
      simp [roundAt, hq, roundUnits, exact_, up]
  · obtain ⟨sh, hsh⟩ : ∃ sh : ℕ, (q - x.e).toNat = sh + 1 := ⟨(q - x.e).toNat - 1, by omega⟩
    refine ⟨(2 : ℚ) ^ x.e, x.m, sh, ⟨by positivity, rfl, ?_⟩, fun mode neg => ?_⟩
    · have e : q = (sh : ℤ) + 1 + x.e := by omega
      rw [e, zpow_add₀ two_ne_zero, zpow_add₀ two_ne_zero, zpow_natCast]
      push_cast; ring
    · simp [roundAt, hq, roundUnits, hsh]

section

variable (neg more : Bool) (N sh : ℕ)

/-- N units are a whole number of steps and a rest below one step. -/
theorem roundUnits_parts : ∃ kept rem : ℕ, rem < 2 * 2 ^ sh ∧ N = kept * (2 * 2 ^ sh) + rem ∧ N % 2 ^ (sh + 1) = rem ∧
    ∀ mode, roundUnits mode neg more N (sh + 1) =
      kept + if roundsUp (.det mode) neg kept rem (sh + 1) more then 1 else 0 := by
  rw [← pow_succ']
  exact ⟨N / 2 ^ (sh + 1), N % 2 ^ (sh + 1), Nat.mod_lt _ (by positivity), (Nat.div_add_mod' _ _).symm, rfl, fun _ => rfl⟩

/-- Toward zero: the lower neighbour (R70). -/
theorem roundUnits_rtz : roundUnits .rtz neg more N (sh + 1) * (2 * 2 ^ sh) ≤ N ∧
    N < (roundUnits .rtz neg more N (sh + 1) + 1) * (2 * 2 ^ sh) := by
  obtain ⟨kept, rem, hr, hN, -, hk⟩ := roundUnits_parts neg more N sh
  rw [hk]
  simp only [roundsUp, Bool.false_eq_true, if_false, Nat.add_zero, Nat.add_mul, Nat.one_mul]
  omega

/-- To nearest even: the nearer neighbour, and of two as near the even one (R70). -/
theorem roundUnits_rne :
    let k := roundUnits .rne neg false N (sh + 1)
    k * (2 * 2 ^ sh) ≤ N + 2 ^ sh ∧ N ≤ k * (2 * 2 ^ sh) + 2 ^ sh ∧
      (N + 2 ^ sh ≤ k * (2 * 2 ^ sh) ∨ k * (2 * 2 ^ sh) + 2 ^ sh ≤ N → k % 2 = 0) := by
  intro k
  obtain ⟨kept, rem, hr, hN, -, hk⟩ := roundUnits_parts neg false N sh
  have pos : 0 < 2 ^ sh := by positivity
  simp only [k, hk, roundsUp, Nat.add_sub_cancel, Bool.false_or]
  split
  · rename_i up
    simp only [Nat.add_mul, Nat.one_mul, Bool.or_eq_true, Bool.and_eq_true, decide_eq_true_eq] at up ⊢
    omega
  · rename_i up
    simp only [Bool.or_eq_true, Bool.and_eq_true, decide_eq_true_eq, Nat.add_zero] at up ⊢
    omega

/-- To nearest away: of two as near the greater (R70). -/
theorem roundUnits_rna :
    let k := roundUnits .rna neg more N (sh + 1)
    k * (2 * 2 ^ sh) ≤ N + 2 ^ sh ∧ N < k * (2 * 2 ^ sh) + 2 ^ sh := by
  intro k
  obtain ⟨kept, rem, hr, hN, -, hk⟩ := roundUnits_parts neg more N sh
  simp only [k, hk, roundsUp, Nat.add_sub_cancel, decide_eq_true_eq]
  split
  · rw [Nat.succ_mul]; omega
  · rw [Nat.add_zero]; omega

/-- Away from zero, as .RUP of a positive and .RDN of a negative value: the upper neighbour of an exact value (R70). -/
theorem roundUnits_away {mode : Rnd} (hm : mode = .rup ∧ neg = false ∨ mode = .rdn ∧ neg = true) :
    let k := roundUnits mode neg false N (sh + 1)
    N ≤ k * (2 * 2 ^ sh) ∧ k * (2 * 2 ^ sh) < N + 2 * 2 ^ sh := by
  intro k
  obtain ⟨kept, rem, hr, hN, -, hk⟩ := roundUnits_parts neg false N sh
  have up : roundsUp (.det mode) neg kept rem (sh + 1) false = decide (rem ≠ 0) := by
    rcases hm with ⟨rfl, rfl⟩ | ⟨rfl, rfl⟩ <;> simp [roundsUp]
  simp only [k, hk, up, decide_eq_true_eq]
  split
  · rw [Nat.succ_mul]; omega
  · rw [Nat.add_zero]; omega

/-- Toward zero, as .RUP of a negative and .RDN of a positive value. -/
theorem roundUnits_toward {mode : Rnd} (hm : mode = .rup ∧ neg = true ∨ mode = .rdn ∧ neg = false) :
    roundUnits mode neg more N (sh + 1) = roundUnits .rtz neg more N (sh + 1) := by
  obtain ⟨kept, rem, -, -, -, hk⟩ := roundUnits_parts neg more N sh
  rw [hk, hk]
  rcases hm with ⟨rfl, rfl⟩ | ⟨rfl, rfl⟩ <;> simp [roundsUp]

/-- The rest is 0 just where the lower neighbour is the value. -/
theorem roundUnits_exact : N % 2 ^ (sh + 1) = 0 ↔ roundUnits .rtz neg more N (sh + 1) * (2 * 2 ^ sh) = N := by
  obtain ⟨kept, rem, hr, hN, hrem, hk⟩ := roundUnits_parts neg more N sh
  rw [hrem, hk]
  simp only [roundsUp, Bool.false_eq_true, if_false, Nat.add_zero]
  omega

/-- In any mode one of the two neighbours: what lies below a multiple rounds to it at most, and what does not to it at least. -/
theorem roundUnits_bounds (mode : Rnd) (n : ℕ) :
    (N < n * (2 * 2 ^ sh) → roundUnits mode neg more N (sh + 1) ≤ n) ∧
      (n * (2 * 2 ^ sh) ≤ N → n ≤ roundUnits mode neg more N (sh + 1)) := by
  have kept : ∃ c, c ≤ 1 ∧ roundUnits mode neg more N (sh + 1) = N / (2 * 2 ^ sh) + c := by
    rw [roundUnits, pow_succ']
    split
    · exact ⟨1, le_rfl, rfl⟩
    · exact ⟨0, Nat.zero_le _, rfl⟩
  obtain ⟨c, hc, hk⟩ := kept
  have pos : 0 < 2 * 2 ^ sh := by positivity
  rw [hk, ← Nat.div_lt_iff_lt_mul pos, ← Nat.le_div_iff_mul_le pos]
  omega

end

/-- The multiple of a grid that each mode picks for an exact magnitude (R70), and the inexact mark (R72). -/
theorem roundAt_nearest (neg : Bool) (m : ℕ) (e q : ℤ) :
    let v : ℚ := m * (2 : ℚ) ^ e
    let u : ℚ := (2 : ℚ) ^ q
    let r := fun (mode : Rnd) => roundAt (.det mode) neg ⟨m, e, false⟩ q
    let k := fun (mode : Rnd) => (((r mode).1 : Nat) : ℚ)
    ((k .rtz) * u ≤ v ∧ v < (k .rtz + 1) * u) ∧
    (|(k .rne) * u - v| ≤ u / 2 ∧ (|(k .rne) * u - v| = u / 2 → (r .rne).1 % 2 = 0)) ∧
    (|(k .rna) * u - v| ≤ u / 2 ∧ (|(k .rna) * u - v| = u / 2 → v < (k .rna) * u)) ∧
    (if neg then (r .rup).1 = (r .rtz).1 else (v ≤ (k .rup) * u ∧ (k .rup - 1) * u < v)) ∧
    (if neg then (v ≤ (k .rdn) * u ∧ (k .rdn - 1) * u < v) else (r .rdn).1 = (r .rtz).1) ∧
    ∀ mode, ((r mode).2 = true ↔ (k .rtz) * u ≠ v) := by
  intro v u r k
  obtain ⟨b, N, sh, g, hr⟩ := roundAt_units ⟨m, e, false⟩ q nofun
  have hr1 (mode : Rnd) : (r mode).1 = roundUnits mode neg false N (sh + 1) := congrArg Prod.fst (hr mode neg)
  have hk (mode : Rnd) : k mode = (roundUnits mode neg false N (sh + 1) : ℕ) := congrArg Nat.cast (hr1 mode)
  have away {mode : Rnd} (hm : mode = .rup ∧ neg = false ∨ mode = .rdn ∧ neg = true) :
      v ≤ (k mode) * u ∧ (k mode - 1) * u < v := by
    obtain ⟨lo, hi⟩ := roundUnits_away neg N sh hm
    rw [hk]
    exact ⟨(g.ge _).mpr lo, (g.pred_lt _).mpr hi⟩
  refine ⟨?rtz, ?rne, ?rna, ?rup, ?rdn, fun mode => ?exact⟩
  case rtz =>
    obtain ⟨lo, hi⟩ := roundUnits_rtz neg false N sh
    rw [hk, ← Nat.cast_succ]
    exact ⟨(g.le _).mpr lo, (g.lt _).mpr hi⟩
  case rne =>
    obtain ⟨lo, hi, even⟩ := roundUnits_rne neg N sh
    rw [hk, hr1]
    exact ⟨(g.near _).mpr ⟨lo, hi⟩, fun tie => even (g.tie _ tie)⟩
  case rna =>
    obtain ⟨lo, hi⟩ := roundUnits_rna neg false N sh
    have pos : 0 < 2 ^ sh := by positivity
    rw [hk]
    refine ⟨(g.near _).mpr ⟨lo, hi.le⟩, fun tie => (g.lt _).mpr ?_⟩
    have ends := g.tie _ tie
    omega
  case rup =>
    split
    · rename_i hn; rw [hr1, hr1, roundUnits_toward neg false N sh (.inl ⟨rfl, hn⟩)]
    · rename_i hn; exact away (.inl ⟨rfl, eq_false_of_ne_true hn⟩)
  case rdn =>
    split
    · rename_i hn; exact away (.inr ⟨rfl, hn⟩)
    · rename_i hn; rw [hr1, hr1, roundUnits_toward neg false N sh (.inr ⟨rfl, eq_false_of_ne_true hn⟩)]
  case exact =>
    rw [hk, ne_eq, g.eq, ← roundUnits_exact]
    simp [r, hr]

end Sys2Proof.Machine
end

section
/-! PROOF. Rounding into a format (R71, R72): its grid, its largest value, and the encodings of the values between. -/

namespace Sys2Proof.Machine

/-! Magnitudes. -/

theorem magGt_iff (a : ℕ) (ea : ℤ) (b : ℕ) (eb : ℤ) :
    magGt a ea b eb = true ↔ (b : ℚ) * (2 : ℚ) ^ eb < a * (2 : ℚ) ^ ea := by
  have units (n : ℕ) (e : ℤ) (h : min ea eb ≤ e) :
      (n : ℚ) * (2 : ℚ) ^ e = (n * 2 ^ (e - min ea eb).toNat : ℕ) * (2 : ℚ) ^ min ea eb := by
    have s : e = ((e - min ea eb).toNat : ℤ) + min ea eb := by omega
    conv_lhs => rw [s, zpow_add₀ two_ne_zero, zpow_natCast]
    push_cast; ring
  rw [units a ea (min_le_left _ _), units b eb (min_le_right _ _), mul_lt_mul_iff_left₀ (by positivity), Nat.cast_lt]
  simp [magGt]

/-- The exponent of a magnitude's highest bit. -/
def Mag.topExp (x : Mag) : ℤ := (bitLen x.m : ℤ) - 1 + x.e

theorem Mag.topExp_bounds {x : Mag} (h : x.m ≠ 0) :
    (2 : ℚ) ^ x.topExp ≤ x.m * (2 : ℚ) ^ x.e ∧ (x.m : ℚ) * (2 : ℚ) ^ x.e < (2 : ℚ) ^ (x.topExp + 1) := by
  have top : x.topExp = (Nat.log2 x.m : ℤ) + x.e := by simp [Mag.topExp, bitLen, h]
  have lo : ((2 ^ Nat.log2 x.m : ℕ) : ℚ) ≤ x.m := Nat.cast_le.mpr (Nat.log2_self_le h)
  have hi : (x.m : ℚ) < (2 ^ (Nat.log2 x.m + 1) : ℕ) := Nat.cast_lt.mpr Nat.lt_log2_self
  have pos : (0 : ℚ) < (2 : ℚ) ^ x.e := by positivity
  push_cast at lo hi
  constructor
  · rw [top, zpow_add₀ two_ne_zero, zpow_natCast]
    exact mul_le_mul_of_nonneg_right lo pos.le
  · rw [top, show (Nat.log2 x.m : ℤ) + x.e + 1 = ((Nat.log2 x.m + 1 : ℕ) : ℤ) + x.e by push_cast; ring,
      zpow_add₀ two_ne_zero, zpow_natCast]
    exact mul_lt_mul_of_pos_right hi pos

/-- What is below 2 ^ n steps of a grid rounds to it at most, and what is not to it at least. -/
theorem roundAt_bounds {x : Mag} {q : ℤ} (hx : x.more = true → x.e < q) (mode : Rnd) (neg : Bool) (n : ℕ) :
    ((x.m : ℚ) * (2 : ℚ) ^ x.e < (2 : ℚ) ^ (q + n) → (roundAt (.det mode) neg x q).1 ≤ 2 ^ n) ∧
      ((2 : ℚ) ^ (q + n) ≤ x.m * (2 : ℚ) ^ x.e → 2 ^ n ≤ (roundAt (.det mode) neg x q).1) := by
  obtain ⟨b, N, sh, g, hr⟩ := roundAt_units x q hx
  obtain ⟨below, above⟩ := roundUnits_bounds neg x.more N sh mode (2 ^ n)
  have steps : (2 : ℚ) ^ (q + n) = (2 ^ n : ℕ) * (2 : ℚ) ^ q := by
    rw [zpow_add₀ two_ne_zero, zpow_natCast, mul_comm]; push_cast; rfl
  rw [steps, hr]
  exact ⟨fun h => below ((g.lt _).mp h), fun h => above ((g.le _).mp h)⟩

end Sys2Proof.Machine

namespace Sys2Proof

/-! Formats. -/

/-- The largest finite value of a format (R66). -/
def FpFmt.maxVal (f : FpFmt) : ℚ := f.topVal.1 * (2 : ℚ) ^ f.topVal.2

/-- What a format's codes up to that of its largest finite value have in common: none is an infinity or a NaN (R66, R67). -/
structure FpFmt.Sound (f : FpFmt) : Prop where
  wide : 2 ≤ f.e
  normal : 2 ^ f.m ≤ f.top
  fits : f.top < 2 ^ f.e * 2 ^ f.m
  ieee : f.kind = .ieee → f.top < (2 ^ f.e - 1) * 2 ^ f.m
  e4m3 : f.kind = .e4m3 → f.e = 4 ∧ f.m = 3 ∧ f.top < 127

theorem Ty.fp_sound (t : Ty) : t.fp.Sound := by
  cases t <;> exact ⟨by decide, by decide, by decide, by decide, by decide⟩

end Sys2Proof

namespace Sys2Proof.Machine

section

variable {f : FpFmt} (neg : Bool)

/-- The fields of a code (R66). -/
theorem fields_withSign {ef fr : ℕ} (hef : ef < 2 ^ f.e) (hfr : fr < 2 ^ f.m) :
    bitAt (f.withSign neg (ef * 2 ^ f.m + fr)) f.signAt = neg ∧
      expField f (f.withSign neg (ef * 2 ^ f.m + fr)) = ef ∧ fracField f (f.withSign neg (ef * 2 ^ f.m + fr)) = fr := by
  have code : f.withSign neg (ef * 2 ^ f.m + fr) = 2 ^ f.m * (2 ^ f.e * neg.toNat + ef) + fr := by
    cases neg <;> simp [FpFmt.withSign, FpFmt.signAt, pow_add] <;> ring
  have high : (2 ^ f.m * (2 ^ f.e * neg.toNat + ef) + fr) / 2 ^ f.m = 2 ^ f.e * neg.toNat + ef := by
    rw [Nat.mul_add_div (by positivity), Nat.div_eq_of_lt hfr, Nat.add_zero]
  have sign : (2 ^ f.e * neg.toNat + ef) / 2 ^ f.e = neg.toNat := by
    rw [Nat.mul_add_div (by positivity), Nat.div_eq_of_lt hef, Nat.add_zero]
  rw [code]
  refine ⟨?_, ?_, ?_⟩
  · rw [bitAt, FpFmt.signAt, Nat.add_comm f.e, pow_add, ← Nat.div_div_eq_div_mul, high, sign]
    cases neg <;> rfl
  · rw [expField, bitsAt, high, Nat.mul_add_mod, Nat.mod_eq_of_lt hef]
  · rw [fracField, Nat.mul_add_mod, Nat.mod_eq_of_lt hfr]

/-- A code up to that of the largest finite value is a number (R67). -/
theorem decodeFp_withSign (hf : f.Sound) {ef fr : ℕ} (hfr : fr < 2 ^ f.m) (hy : ef * 2 ^ f.m + fr ≤ f.top) :
    decodeFp f (f.withSign neg (ef * 2 ^ f.m + fr)) =
      if ef = 0 then .fin neg fr (f.emin - f.m) else .fin neg (fr + 2 ^ f.m) (ef - f.bias - f.m) := by
  have below {n : ℕ} (h : f.top < n * 2 ^ f.m) : ef < n := by
    by_contra c
    have := Nat.mul_le_mul_right (2 ^ f.m) (not_lt.mp c)
    omega
  obtain ⟨sign, exp, frac⟩ := fields_withSign neg (below hf.fits) hfr
  have ieee : ¬(f.kind = .ieee ∧ ef = 2 ^ f.e - 1) := by
    rintro ⟨k, h⟩
    exact absurd (below (hf.ieee k)) (by omega)
  have e4m3 : ¬(f.kind = .e4m3 ∧ f.withSign neg (ef * 2 ^ f.m + fr) % 128 = 127) := by
    rintro ⟨k, h⟩
    obtain ⟨he, hm, ht⟩ := hf.e4m3 k
    cases neg <;> simp only [FpFmt.withSign, FpFmt.signAt, he, hm, if_true, Bool.false_eq_true, if_false] at h hy <;> omega
  simp only [decodeFp, sign, exp, frac, ieee, e4m3, if_false]

/-- A multiple of a grid that is no greater than the largest finite value has a code no greater than its (R66). -/
theorem encode_le_top {ef k : ℕ} (lo : 2 ^ f.m ≤ k) (hi : k < 2 * 2 ^ f.m)
    (hmax : (k : ℚ) * (2 : ℚ) ^ (ef - f.bias - f.m : ℤ) ≤ f.maxVal) :
    ef * 2 ^ f.m + (k - 2 ^ f.m) ≤ f.top := by
  set T := f.top / 2 ^ f.m
  have units (n : ℕ) (g : ℕ) : (n : ℚ) * (2 : ℚ) ^ (g - f.bias - f.m : ℤ) =
      (n * 2 ^ g : ℕ) * (2 : ℚ) ^ (-f.bias - f.m : ℤ) := by
    rw [show (g - f.bias - f.m : ℤ) = g + (-f.bias - f.m) by ring, zpow_add₀ two_ne_zero, zpow_natCast]
    push_cast; ring
  have nat : k * 2 ^ ef ≤ (f.top % 2 ^ f.m + 2 ^ f.m) * 2 ^ T := by
    rw [FpFmt.maxVal, FpFmt.topVal, units, units] at hmax
    exact_mod_cast le_of_mul_le_mul_right hmax (by positivity)
  have frac : f.top % 2 ^ f.m < 2 ^ f.m := Nat.mod_lt _ (by positivity)
  have parts : f.top = T * 2 ^ f.m + f.top % 2 ^ f.m := (Nat.div_add_mod' _ _).symm
  have exp : ef ≤ T := by
    by_contra c
    have step : 2 ^ (T + 1) ≤ 2 ^ ef := Nat.pow_le_pow_right (by decide) (by omega)
    have big : (2 ^ f.m * 2) * 2 ^ T ≤ k * 2 ^ ef := by
      calc (2 ^ f.m * 2) * 2 ^ T = 2 ^ f.m * 2 ^ (T + 1) := by ring
        _ ≤ k * 2 ^ ef := Nat.mul_le_mul lo step
    have := le_of_mul_le_mul_right (big.trans nat) (by positivity)
    omega
  rcases Nat.eq_or_lt_of_le exp with same | less
  · rw [same] at nat ⊢
    have := le_of_mul_le_mul_right nat (by positivity)
    omega
  · have := Nat.mul_le_mul_right (2 ^ f.m) (Nat.succ_le_of_lt less)
    rw [Nat.succ_mul] at this
    omega

/-- The encoding of a multiple of a format's grid within its range reads as that number (R66, R67). -/
theorem decodeFp_encodeMag (hf : f.Sound) {k : ℕ} {q : ℤ} (hi : k < 2 * 2 ^ f.m) (hq : f.emin - f.m ≤ q)
    (low : k < 2 ^ f.m → q = f.emin - f.m) (hmax : (k : ℚ) * (2 : ℚ) ^ q ≤ f.maxVal) :
    ∃ n m e, decodeFp f (encodeMag f neg k q) = .fin n m e ∧ (m : ℚ) * (2 : ℚ) ^ e = k * (2 : ℚ) ^ q ∧ (m ≠ 0 → n = neg) := by
  by_cases hk : k < 2 ^ f.m
  · have small (neg : Bool) : decodeFp f (f.withSign neg k) = .fin neg k q := by
      have h := decodeFp_withSign neg hf (ef := 0) hk (by have := hf.normal; omega)
      rw [Nat.zero_mul, Nat.zero_add, if_pos rfl, ← low hk] at h
      exact h
    rw [encodeMag, if_pos hk]
    split
    · rename_i zero
      have h := small false
      rw [zero.2] at h
      exact ⟨false, 0, q, h, by rw [zero.2], fun c => absurd rfl c⟩
    · exact ⟨neg, k, q, small neg, rfl, fun _ => rfl⟩
  · obtain ⟨ef, hef⟩ : ∃ ef : ℕ, q + f.m + f.bias = ef ∧ ef ≠ 0 :=
      ⟨(q + f.m + f.bias).toNat, by simp only [FpFmt.emin] at hq; omega, by simp only [FpFmt.emin] at hq; omega⟩
    obtain ⟨exp, pos⟩ := hef
    have grid : q = (ef - f.bias - f.m : ℤ) := by omega
    have lo : 2 ^ f.m ≤ k := not_lt.mp hk
    have frac : k - 2 ^ f.m < 2 ^ f.m := by omega
    have top := encode_le_top lo hi (grid ▸ hmax)
    refine ⟨neg, k - 2 ^ f.m + 2 ^ f.m, q, ?_, by rw [Nat.sub_add_cancel lo], fun _ => rfl⟩
    rw [encodeMag, if_neg hk, exp, Int.toNat_natCast, decodeFp_withSign neg hf frac top, if_neg pos, ← grid]
end

/-! Rounding into a format. -/

section

variable {f : FpFmt} {x : Mag} (mode : Rnd) (neg : Bool)

/-- A magnitude that is not exact is wide enough for its grid to be coarser than its unit. -/
theorem Mag.unit_lt {q : ℤ} (wide : x.more = true → 2 ^ (f.m + 2) ≤ x.m) (hq : x.topExp - f.m ≤ q) :
    x.more = true → x.e < q := by
  intro h
  have bits : f.m + 2 ≤ Nat.log2 x.m := (Nat.le_log2 (by have := wide h; have := Nat.two_pow_pos (f.m + 2); omega)).mpr (wide h)
  have pos : x.m ≠ 0 := by have := wide h; have := Nat.two_pow_pos (f.m + 2); omega
  simp only [Mag.topExp, bitLen, pos, if_false] at hq
  push_cast at hq
  omega

variable (hm : x.m ≠ 0) (wide : x.more = true → 2 ^ (f.m + 2) ≤ x.m)
include hm wide

/-- On a grid of its own exponent or a greater one a magnitude keeps at most one bit more than the format's fraction. -/
theorem roundAt_le {q : ℤ} (hq : x.topExp - f.m ≤ q) : (roundAt (.det mode) neg x q).1 ≤ 2 ^ (f.m + 1) := by
  refine (roundAt_bounds (Mag.unit_lt wide hq) mode neg (f.m + 1)).1 ((Mag.topExp_bounds hm).2.trans_le ?_)
  exact zpow_le_zpow_right₀ one_le_two (by push_cast; omega)

/-- On the grid of its own exponent it keeps all bits of the fraction. -/
theorem le_roundAt {q : ℤ} (hq : q = x.topExp - f.m) : 2 ^ f.m ≤ (roundAt (.det mode) neg x q).1 := by
  refine (roundAt_bounds (Mag.unit_lt wide hq.ge) mode neg f.m).2 ?_
  rw [hq, sub_add_cancel]
  exact (Mag.topExp_bounds hm).1

/-- The model's test of a tiny result: rounded with no bound on its exponent it lies below the smallest normal (R72). -/
theorem tiny_iff :
    (decide (x.topExp < f.emin) && !(decide (x.topExp = f.emin - 1) &&
      decide (2 ^ (f.m + 1) ≤ (roundAt (.det mode) neg x (x.topExp - f.m)).1))) =
    decide (((roundAt (.det mode) neg x (x.topExp - f.m)).1 : ℚ) * (2 : ℚ) ^ (x.topExp - f.m) < (2 : ℚ) ^ f.emin) := by
  have lo := le_roundAt (f := f) mode neg hm wide rfl
  have hi := roundAt_le (f := f) mode neg hm wide le_rfl
  generalize (roundAt (.det mode) neg x (x.topExp - f.m)).1 = u at lo hi
  have scaled (n : ℕ) : (2 : ℚ) ^ (x.topExp - f.m + n) = (2 ^ n : ℕ) * (2 : ℚ) ^ (x.topExp - f.m) := by
    rw [zpow_add₀ two_ne_zero, zpow_natCast, mul_comm]; push_cast; rfl
  have pos : (0 : ℚ) < (2 : ℚ) ^ (x.topExp - f.m) := by positivity
  rcases lt_trichotomy x.topExp (f.emin - 1) with far | next | normal
  · have below : (u : ℚ) * (2 : ℚ) ^ (x.topExp - f.m) < (2 : ℚ) ^ f.emin := by
      calc (u : ℚ) * (2 : ℚ) ^ (x.topExp - f.m) ≤ (2 ^ (f.m + 1) : ℕ) * (2 : ℚ) ^ (x.topExp - f.m) :=
            mul_le_mul_of_nonneg_right (Nat.cast_le.mpr hi) pos.le
        _ = (2 : ℚ) ^ (x.topExp - f.m + (f.m + 1 : ℕ)) := (scaled _).symm
        _ < (2 : ℚ) ^ f.emin := zpow_lt_zpow_right₀ one_lt_two (by push_cast; omega)
    simp [below, show x.topExp < f.emin by omega, far.ne]
  · have carry : (u : ℚ) * (2 : ℚ) ^ (x.topExp - f.m) < (2 : ℚ) ^ f.emin ↔ u < 2 ^ (f.m + 1) := by
      rw [show f.emin = x.topExp - f.m + (f.m + 1 : ℕ) by push_cast; omega, scaled, mul_lt_mul_iff_left₀ pos, Nat.cast_lt]
    have less : decide (x.topExp < f.emin) = true := decide_eq_true (by omega)
    simp only [carry, less, decide_eq_true next, Bool.true_and, ← decide_not, not_le]
  · have above : (2 : ℚ) ^ f.emin ≤ (u : ℚ) * (2 : ℚ) ^ (x.topExp - f.m) := by
      calc (2 : ℚ) ^ f.emin ≤ (2 : ℚ) ^ (x.topExp - f.m + (f.m : ℕ)) := zpow_le_zpow_right₀ one_le_two (by omega)
        _ = (2 ^ f.m : ℕ) * (2 : ℚ) ^ (x.topExp - f.m) := scaled _
        _ ≤ u * (2 : ℚ) ^ (x.topExp - f.m) := mul_le_mul_of_nonneg_right (Nat.cast_le.mpr lo) pos.le
    simp [above.not_gt, show ¬x.topExp < f.emin by omega]

end

/-- The multiple that a format keeps, and its grid, once a carry has gone into the exponent. -/
theorem carried {r m : ℕ} (hr : r ≤ 2 ^ (m + 1)) (q : ℤ) :
    let k := if 2 ^ (m + 1) ≤ r then r / 2 else r
    let q' := if 2 ^ (m + 1) ≤ r then q + 1 else q
    (k : ℚ) * (2 : ℚ) ^ q' = r * (2 : ℚ) ^ q ∧ k < 2 * 2 ^ m ∧ q ≤ q' ∧ (k < 2 ^ m → q' = q ∧ r < 2 ^ m) := by
  intro k q'
  have pos : 0 < 2 ^ m := by positivity
  have double : 2 ^ (m + 1) = 2 * 2 ^ m := pow_succ' 2 m
  by_cases c : 2 ^ (m + 1) ≤ r
  · have hk : k = 2 ^ m := by simp only [k, if_pos c]; omega
    have hq : q' = q + 1 := if_pos c
    have full : r = 2 * 2 ^ m := by omega
    rw [hk, hq, full]
    refine ⟨?_, by omega, by omega, by omega⟩
    rw [zpow_add_one₀ two_ne_zero]
    push_cast; ring
  · have hk : k = r := if_neg c
    have hq : q' = q := if_neg c
    rw [hk, hq]
    exact ⟨rfl, by omega, le_rfl, fun h => ⟨rfl, h⟩⟩

/-- Rounding a magnitude into a format, a flushed one apart (R71, R72): beyond the largest finite value it overflows; else the
result is the multiple of the grid, with the marks of R72. -/
theorem roundFp_spec {f : FpFmt} (hf : f.Sound) (mode : Rnd) (z neg : Bool) (x : Mag) (hm : x.m ≠ 0)
    (wide : x.more = true → 2 ^ (f.m + 2) ≤ x.m) (flush : z = false ∨ f.emin ≤ x.topExp) :
    let q := max x.topExp f.emin - f.m
    let r := roundAt (.det mode) neg x q
    let v : ℚ := r.1 * (2 : ℚ) ^ q
    let free : ℚ := (roundAt (.det mode) neg x (x.topExp - f.m)).1 * (2 : ℚ) ^ (x.topExp - f.m)
    let res := roundFp f (.det mode) z neg x
    (f.maxVal < v → res = ⟨overflowTo f (.det mode) neg, flagOF⟩) ∧
      (¬f.maxVal < v →
        (∃ n m e, decodeFp f res.bits = .fin n m e ∧ m * (2 : ℚ) ^ e = v ∧ (m ≠ 0 → n = neg)) ∧
        res.fl = if r.2 then (if decide (free < (2 : ℚ) ^ f.emin) then flagUF else flagNX) else .none) := by
  intro q r v free res
  have bound : r.1 ≤ 2 ^ (f.m + 1) := roundAt_le mode neg hm wide (by omega)
  have low : r.1 < 2 ^ f.m → q = f.emin - f.m := by
    intro h
    by_contra c
    exact absurd (le_roundAt mode neg hm wide (q := q) (by omega)) (not_le.mpr h)
  obtain ⟨value, hi, grid, small⟩ := carried bound q
  set k := if 2 ^ (f.m + 1) ≤ r.1 then r.1 / 2 else r.1
  set q' := if 2 ^ (f.m + 1) ≤ r.1 then q + 1 else q
  replace value : (k : ℚ) * (2 : ℚ) ^ q' = v := value
  have beyond : magGt k q' f.topVal.1 f.topVal.2 = true ↔ f.maxVal < v := by
    rw [magGt_iff, value, FpFmt.maxVal]
  have tiny := tiny_iff (f := f) mode neg hm wide
  have kept : (decide (free < (2 : ℚ) ^ f.emin) && z) = false := by
    rcases flush with rfl | normal
    · exact Bool.and_false _
    · rw [← tiny, decide_eq_false (not_lt.mpr normal)]
      rfl
  have res_eq : res = if magGt k q' f.topVal.1 f.topVal.2 = true then ⟨overflowTo f (.det mode) neg, flagOF⟩
      else ⟨encodeMag f neg k q', if r.2 then (if decide (free < (2 : ℚ) ^ f.emin) then flagUF else flagNX) else .none⟩ := by
    show roundFp f (.det mode) z neg x = _
    unfold roundFp
    rw [if_neg hm]
    simp only []
    rw [show (bitLen x.m : ℤ) - 1 + x.e = x.topExp from rfl, tiny, kept]
    rfl
  constructor
  · intro h
    rw [res_eq, if_pos (beyond.mpr h)]
  · intro h
    rw [res_eq, if_neg (fun c => h (beyond.mp c))]
    refine ⟨?_, rfl⟩
    rw [← value]
    refine decodeFp_encodeMag neg hf hi (by omega) (fun c => ?_) ?_
    · obtain ⟨same, less⟩ := small c
      rw [same, low less]
    · rw [value]
      exact not_lt.mp h

/-- The flags of a result that has not overflowed: NX where it is inexact, and UF where it is tiny too (R72). -/
theorem rounded_flags (inexact tiny : Bool) :
    let fl : Flags := if inexact then (if tiny then flagUF else flagNX) else .none
    fl.nx = inexact ∧ fl.uf = (inexact && tiny) ∧ fl.of = false ∧ fl.dz = false ∧ fl.nv = false := by
  cases inexact <;> cases tiny <;> decide

/-- Settles O11: rounding on a grid is rounding of a whole number of units, and what a format keeps of a magnitude stays on its own
grid, where each multiple up to the largest finite value has a code. -/
theorem roundingIsNearest : Obligations.RoundingIsNearest := by
  refine ⟨roundAt_nearest, ?_⟩
  intro t mode z neg x f high q k v free res hm wide flush
  obtain ⟨beyond, within⟩ := roundFp_spec t.fp_sound mode z neg x hm wide flush
  split
  · rename_i h
    exact beyond h
  · rename_i h
    obtain ⟨value, marks⟩ := within h
    refine ⟨value, ?_⟩
    rw [marks]
    exact rounded_flags _ _

end Sys2Proof.Machine
end

section
/-! PROOF. Completions and leaving commands: until an event has been posted they change no byte of memory (R181, R358 to R360). -/

namespace Sys2Proof.Machine

/-- Where no event has been posted at t, none had been at s, and t's memory is that of s. -/
def Silent (s t : State) : Prop := t.evSeq = 0 → s.evSeq = 0 ∧ t.mem = s.mem

theorem Silent.refl (s : State) : Silent s s := fun h => ⟨h, rfl⟩

theorem Silent.trans {s t u : State} (h : Silent s t) (k : Silent t u) : Silent s u := fun e => by
  obtain ⟨et, mt⟩ := k e
  obtain ⟨es, ms⟩ := h et
  exact ⟨es, mt.trans ms⟩

theorem Silent.of_eq {s t : State} (he : t.evSeq = s.evSeq) (hm : t.mem = s.mem) : Silent s t := fun h => ⟨he ▸ h, hm⟩

theorem Silent.of_posted {s t : State} (h : t.evSeq ≠ 0) : Silent s t := fun e => absurd e h

theorem Silent.foldl {α : Type} {f : State → α → State} (h : ∀ t x, Silent t (f t x)) (l : List α) (s : State) :
    Silent s (l.foldl f s) := by
  induction l generalizing s with
  | nil => exact .refl s
  | cons x l ih => exact (h s x).trans (ih _)

/-! Parts of the state that are neither memory nor the count of events. -/

section

variable (s : State)

theorem Silent.modCtx (p : Nat) (f : Ctx → Ctx) : Silent s (s.modCtx p f) := .of_eq rfl rfl
theorem Silent.modCore (c : Nat) (f : Core → Core) : Silent s (s.modCore c f) := .of_eq rfl rfl
theorem Silent.modDie (d : Nat) (f : Die → Die) : Silent s (s.modDie d f) := .of_eq rfl rfl
theorem Silent.dropFlight (id : Nat) : Silent s (s.dropFlight id) := .of_eq rfl rfl
theorem Silent.setFlight (f : Flight) : Silent s (s.setFlight f) := .of_eq rfl rfl
theorem Silent.acquire (p : Nat) : Silent s (s.acquire p) := .of_eq rfl rfl
theorem Silent.complete (p : Nat) (pc : Word) : Silent s (s.complete p pc) := .of_eq rfl rfl
theorem Silent.fillWB (c id : Nat) (sl : List SlWrite) (pr : List PrWrite) (fl : Flags) :
    Silent s (s.fillWB c id sl pr fl) := .of_eq rfl rfl

theorem Silent.markOctets (p : Nat) (e : Bool) (l : List (FileId × Nat)) : Silent s (s.markOctets p e l) := by
  refine .foldl (fun t x => ?_) l s
  have same := t.setWindow_same p x.1 ((t.window p x.1).mark x.2 e)
  have seq := congrArg State.evSeq same.rest
  have mem := congrArg State.mem same.rest
  exact .of_eq seq mem

theorem Silent.wakeOctets (c : Nat) : Silent s (s.wakeOctets c) := by
  refine .foldl (fun t k => ?_) ctxNums s
  dsimp only
  split
  · split
    · exact .refl t
    · exact .modCtx t _ _
  · split
    · exact .refl t
    · exact .modCtx t _ _
  · exact .refl t

theorem Silent.cancelWB (c id : Nat) : Silent s (s.cancelWB c id) := by
  unfold State.cancelWB
  split
  · exact .refl s
  · rename_i w _
    refine Silent.trans ?_ (.wakeOctets _ c)
    refine Silent.trans ?_ (.modCore _ c _)
    split
    · exact .markOctets s _ _ _
    · exact .refl s

theorem Silent.endWaitOf (p : Nat) : Silent s (s.endWaitOf p) := by
  unfold State.endWaitOf
  split
  · split
    · exact .refl s
    · dsimp only
      split
      · exact .dropFlight s _
      · exact (Silent.dropFlight s _).trans (.cancelWB _ _ _)
  · exact .refl s

end

/-! Events. -/

theorem State.writeHome_evSeq {s t : State} {asid : Nat} {l : List (Nat × Byte)} (h : s.writeHome asid l = .ok t) :
    t.evSeq = s.evSeq := by
  unfold State.writeHome at h
  dsimp only at h
  split at h
  · cases h
  · cases h
    rfl

theorem State.putRecord_evSeq (s : State) (r : List Byte) : (s.putRecord r).evSeq = s.evSeq := by
  show (s.writeOr _ _).evSeq = _
  unfold State.writeOr
  split
  · rename_i h; exact State.writeHome_evSeq h
  · rfl

/-- Each event counts (R360). -/
theorem State.postEvent_evSeq (s : State) (e : DevEvent) : (s.postEvent e).evSeq = s.evSeq + 1 := by
  unfold State.postEvent
  dsimp only
  split
  · rfl
  · split
    · rfl
    · exact State.putRecord_evSeq _ _

section

variable (s : State)

theorem Silent.postEvent {t : State} (e : DevEvent) : Silent s (t.postEvent e) :=
  .of_posted (by rw [State.postEvent_evSeq]; exact Nat.succ_ne_zero _)

theorem Silent.consumeBad (kind c pa va : Nat) : Silent s (s.consumeBad kind c pa va) := by
  unfold State.consumeBad
  split <;> exact .postEvent s _

theorem Silent.taskFault (c : Nat) : Silent s (s.taskFault c) := by
  unfold State.taskFault
  split
  · exact .refl s
  · exact .postEvent s _

/-- A trap changes no byte, but where it ends a task or discards a domain, which posts an event (R181, R358). -/
theorem Silent.raise (p : Nat) (t : TrapInfo) : Silent s (s.raise p t) := by
  unfold State.raise State.deliver
  dsimp only
  split
  · exact .consumeBad s _ _ _ _
  · split
    · exact .modCtx s _ _
    · split
      · exact .taskFault s _
      · split
        · exact .consumeBad s _ _ _ _
        · exact .of_eq rfl rfl

/-! Completions. -/

theorem Silent.trapFlight (f : Flight) (t : TrapInfo) : Silent s (s.trapFlight f t) := by
  unfold State.trapFlight State.trapLeaving
  dsimp only
  refine Silent.trans ?_ (.raise _ _ t)
  refine Silent.trans ?_ (.modCtx _ _ _)
  refine Silent.trans ?_ (.endWaitOf _ _)
  rw [if_pos rfl]
  split
  · exact .dropFlight s _
  · exact (Silent.dropFlight s _).trans (.cancelWB _ _ _)

theorem Silent.wakeFlight (f : Flight) : Silent s (s.wakeFlight f) := by
  unfold State.wakeFlight
  dsimp only
  split
  · split
    · exact .refl s
    · split
      · exact .complete s _ _
      · exact .modCtx s _ _
  · exact .refl s

/-- The state a finished operation leaves to its result: its context's acquire is made where it makes one (R255). -/
def State.acquired (s : State) (f : Flight) : State := if f.acquires then s.acquire (ctxId f.core f.ctx) else s

/-- A finished operation leaves, but one whose host part is still to come stays without its writeback (R241). -/
def State.flightLeft (s : State) (f : Flight) : State :=
  if f.hostPend then s.setFlight { f with acquire := false, wb := none, isLoad := false } else s.dropFlight f.id

theorem State.finish_eq (f : Flight) : s.finish f =
    if !f.allDone ∨ (s.flight f.id).isNone then s
    else match f.lateTrap with
      | some t => (s.acquired f).trapFlight f t
      | none => (match f.wb with
        | none => (s.acquired f).flightLeft f
        | some w => ((s.acquired f).flightLeft f).fillWB f.core w f.results.1 f.results.2.1 f.results.2.2).wakeFlight f := rfl

theorem Silent.acquired (f : Flight) : Silent s (s.acquired f) := by
  unfold State.acquired
  split
  · exact .acquire s _
  · exact .refl s

theorem Silent.flightLeft (f : Flight) : Silent s (s.flightLeft f) := by
  unfold State.flightLeft
  split
  · exact .setFlight s _
  · exact .dropFlight s _

theorem Silent.finish (f : Flight) : Silent s (s.finish f) := by
  rw [State.finish_eq]
  split
  · exact .refl s
  · refine (Silent.acquired s f).trans ?_
    split
    · exact .trapFlight _ f _
    · refine (Silent.flightLeft _ f).trans (Silent.trans ?_ (.wakeFlight _ f))
      split
      · exact .refl _
      · exact .fillWB _ _ _ _ _ _

theorem Silent.settle : Silent s s.settle := .foldl Silent.finish s.flights s

theorem Silent.mmwEnd (m : MatCmd) : Silent s (s.mmwEnd m) := by
  unfold State.mmwEnd
  dsimp only
  split
  · split
    · exact .refl s
    · split
      · exact .raise s _ _
      · exact (Silent.acquire s _).trans (.complete _ _ _)
  · exact .refl s

theorem Silent.matRetire (c : Nat) : Silent s (s.matRetire c) := by
  unfold State.matRetire
  dsimp only
  exact ((Silent.modCore s c _).trans (.modDie _ _ _)).trans (.foldl Silent.mmwEnd _ _)

end

end Sys2Proof.Machine
end

section
/-! PROOF. Rows of matrix commands: a state against which the statement fails. -/

namespace Sys2Proof.Machine

/-- A suspended task whose saved share lies in a slot of its die's share store (R348). -/
def sharedTask (slot : Nat) : QEntry :=
  { task :=
      { uid := 7, tcb := 0, entry := 0, arg := 0, rcb := 0, wsp := 0, donectr := 0, dies := 0, bound := false, prio := 0, vblk := 0
        sblk := 0, region := 0, asid := 0, eff := Eff.zero, chain := [], steward := false, started := 0, pending := false
        sliceOut := false }
    firstQ := 0, arrival := 0, suspended := true, resident := none, slot := some slot, level := 0 }

/-- A row of that task: its block of A names no format, and its counter is in the task's share. -/
def rowBlock : Word := 0x30000
def rowPage : TlbEntry := ⟨0, rowBlock, 65536, 2 ^ 44 + 0x30000, true, true, true⟩
def rowCounter : Word := BitVec.ofNat 64 (localBase + 64)
def failingRow : MatCmd :=
  { id := 1, core := 0, ctx := 0, uid := 7, asid := 0, region := 0, prio := 0, fdom := 0, priv := true, a := rowBlock, b := 0, c := 0
    d := 0, cfg := { MmCfg.start with ctr := rowCounter }, first := 0, row := 0, wait := false, begun := false, fault := none
    leave := .notNeeded, allowance := 0, after := [], xl := [⟨0, 3, some rowPage, 0, 0⟩], hold := .none }

/-- Die 1 stands before die 0 in the table of dies, and each holds the task with another slot. The read of A's header at its home
overflows die 0's retention register, which the counted overflow moves to the front of the table. -/
def unsortedDies : State :=
  { State.reset with
    cores := [(0, { Core.idle with mats := [failingRow] })]
    l2 := [(8193, ⟨[(0, { L2Way.invalid with line := some 0, valid := 0xF })], [0]⟩)]
    dies := [(1, { Die.held with queue := [sharedTask 0] }),
      (0, { Die.held with queue := [sharedTask 1], rtn := [(0, ⟨BitVec.ofNat 64 (2 ^ 63 + 0x30000), 0, 0, 0⟩)] })] }

theorem unsortedDies_checkRow : unsortedDies.checkRow failingRow failingRow.row = .error (tBlockFormat rowBlock 0) := by
  have run : (match unsortedDies.checkRow failingRow failingRow.row with
      | .ok _ => none
      | .error e => some e) = some (tBlockFormat rowBlock 0) := by decide +kernel
  split at run
  · cases run
  · rename_i e h
    cases run
    exact h

/-- The failure's one update, by the table before the read: the counter lies in slot 0. -/
def rowUpdate : Walker × CtrUp :=
  (.mat 0 1, { failingRow.update 0 (.err (tBlockFormat rowBlock 0).code) true with xl := failingRow.xl })

theorem unsortedDies_rowErrors : unsortedDies.rowErrors failingRow (tBlockFormat rowBlock 0).code = [rowUpdate] := by
  decide +kernel

theorem unsortedDies_ctrPlace : unsortedDies.ctrPlace rowUpdate.2 = .ok ⟨64, none, none⟩ := by
  decide +kernel

/-- What the failing row leaves: no event, and the counter's error in slot 1, not in slot 0. -/
theorem unsortedDies_after {t : State} (h : exec (.matrixRow 0) unsortedDies = .next t) : t.evSeq = 0 ∧ t.word 64 8 = 0 := by
  have run : (match exec (.matrixRow 0) unsortedDies with
      | .next t => some (t.evSeq, t.word 64 8)
      | _ => none) = some (0, 0) := by decide +kernel
  rw [h] at run
  obtain ⟨seq, word⟩ := Prod.mk.inj (Option.some.inj run)
  exact ⟨seq, word⟩

theorem unsortedDies_rowUpdate_mem : rowUpdate ∈ unsortedDies.rowErrors failingRow (tBlockFormat rowBlock 0).code := by
  rw [unsortedDies_rowErrors]
  exact List.mem_singleton_self _

/-- Each counter of the failure has an aligned place before the row runs. -/
theorem unsortedDies_placed : ∀ x ∈ unsortedDies.rowErrors failingRow (tBlockFormat rowBlock 0).code,
    ∃ pl, unsortedDies.ctrPlace x.2 = .ok pl ∧ pl.key % 8 = 0 := by
  intro x hx
  rw [unsortedDies_rowErrors, List.mem_singleton] at hx
  subst hx
  exact ⟨_, unsortedDies_ctrPlace, rfl⟩

/-- Refutes O46: the statement reads a failed row's counter at its place before the step, and the step may move that place where the
table of dies is not in order. In `unsortedDies`, die 1 is listed before die 0 and holds the same task with share slot 0, which is
where the counter lies; the check of the row reads a block whose home's retention register is full, and the overflow that this counts
puts die 0 first, so the error is written to the copy in slot 1. -/
theorem not_matrixRowsComplete : ¬ Obligations.MatrixRowsComplete := by
  unfold Obligations.MatrixRowsComplete
  intro h
  obtain ⟨-, fails⟩ := h unsortedDies 0 failingRow rfl rfl (by decide +kernel) (by decide +kernel) (by decide +kernel)
  obtain ⟨-, -, written⟩ := fails _ unsortedDies_checkRow rfl rfl
  obtain ⟨v, run, -, -, -, -, -, -, -, -, -, inError⟩ :=
    written unsortedDies_placed (Sys2Proof.Tests.good_of ⟨rfl, rfl, rfl⟩)
  have error := inError rowUpdate unsortedDies_rowUpdate_mem _ unsortedDies_ctrPlace
  obtain ⟨noEvent, word⟩ := unsortedDies_after run
  obtain ⟨-, mem⟩ := (Silent.matRetire v 0).trans (.settle _) noEvent
  have same : v.word 64 8 = 0 := (congrArg (fun m => leVal (Tab.getList Memory.unlisted m 64 8)) mem).symm.trans word
  dsimp only at error
  rw [same] at error
  exact absurd error (by decide)

end Sys2Proof.Machine
end

section
/-! PROOF. Bitwise, shift and field instructions (R102 to R104), selection and lane movement (R106 to R108). -/

namespace Sys2Proof.Machine

/-- An own part that writes one destination by a function of the lane. -/
theorem Ready.writes1 {i : Instr} {s : State} {d : Opnd} {v : Nat → Nat} {act : State → Act} (h : Ready i s)
    (he : exec i s = .next (s.issue i act)) (hk : i.shape.kind ≠ .none)
    (ha : act (s.enter i) = (s.enter i).write1 i d v) : Writes i s [s.lanesWrite i.hdr d v] [] .none := by
  refine h.writes he hk ?_
  rw [ha, State.write1, State.enter_lanesWrite]

section

variable {i : Instr} {s : State} {t : Ty} {d a b : Opnd} (h : Ready i s) (hk : i.shape.kind ≠ .none)
include h hk

/-- A bitwise operation of one source (R102). -/
theorem Ready.bits1 {op : Nat → Nat} (he : exec i s = .next (s.issue i (bits1 i t d a op))) :
    Writes i s [s.lanesWrite i.hdr d (fun l => fitBits t d.bits (op (s.bitsOp s.cur t a l)))] [] .none := by
  refine h.writes1 he hk ?_
  simp only [Machine.bits1, State.enter_cur, State.enter_bitsOp]

/-- A bitwise operation of two sources (R102). -/
theorem Ready.bits2 {op : Nat → Nat → Nat} (he : exec i s = .next (s.issue i (bits2 i t d a b op))) :
    Writes i s
      [s.lanesWrite i.hdr d (fun l => fitBits t d.bits (op (s.bitsOp s.cur t a l) (s.bitsOp s.cur t b l)))] [] .none := by
  refine h.writes1 he hk ?_
  simp only [Machine.bits2, State.enter_cur, State.enter_bitsOp]

/-- A shift or rotation (R103). -/
theorem Ready.shift {f : ShiftF} {cap : Bool} {op : Nat → Nat → Nat → Nat}
    (he : exec i s = .next (s.issue i (shift i f cap op))) :
    Writes i s [s.lanesWrite i.hdr f.d (fun l => fitBits f.ty f.d.bits (op f.ty.bits (s.bitsOp s.cur f.ty f.a l)
      (if cap then min (s.countOp f.n l) f.ty.bits else s.countOp f.n l)))] [] .none := by
  refine h.writes1 he hk ?_
  simp only [Machine.shift, State.enter_cur, State.enter_bitsOp, State.enter_countOp]

end

/-- Settles O5: each instruction is one operation on bit patterns; the count of a shift alone needs care, which saturates at W for
SHL, SHR and SAR and not for ROT. -/
theorem bitwiseShiftAndFieldResults : Obligations.BitwiseShiftAndFieldResults := by
  intro s
  refine ⟨fun f => ⟨?and, ?or, ?xor, ?andn⟩, ?not, ?shifts, ?bfx, ?bfi⟩
  case and => exact fun h => h.bits2 (op := Nat.land) (Kind.mark_ne_none 4 f.mkd) rfl
  case or => exact fun h => h.bits2 (op := Nat.lor) (Kind.mark_ne_none 4 f.mkd) rfl
  case xor => exact fun h => h.bits2 (op := Nat.xor) (Kind.mark_ne_none 4 f.mkd) rfl
  case andn => exact fun h => h.bits2 (op := fun a b => Nat.land a (notBits f.ty.bits b)) (Kind.mark_ne_none 4 f.mkd) rfl
  case not => exact fun f h => h.bits1 (op := notBits f.ty.bits) (Kind.mark_ne_none 4 f.mkd) rfl
  case shifts =>
    intro f W a n
    have count : n = s.countOp f.n := by
      funext l
      show (match f.n with | .reg o => s.readOp s.cur o l | .imm v => v.toNat) = s.countOp f.n l
      cases f.n <;> rfl
    clear_value n
    subst count
    refine ⟨?shl, ?shr, ?sar, ?rot⟩
    case shl => exact fun h => h.shift (op := shl) (cap := true) (Kind.mark_ne_none 4 f.mkd) rfl
    case shr => exact fun h => h.shift (op := shr) (cap := true) (Kind.mark_ne_none 4 f.mkd) rfl
    case sar => exact fun h => h.shift (op := sar) (cap := true) (Kind.mark_ne_none 4 f.mkd) rfl
    case rot => exact fun h => h.shift (op := rot) (cap := false) (Kind.mark_ne_none 4 f.mkd) rfl
  case bfx => exact fun f h => h.bits1 (op := fun a =>
    ofInt f.ty.bits (toInt f.ty.isSigned f.len.toNat (bitsAt a f.pos.toNat f.len.toNat))) (Kind.mark_ne_none 4 f.mkd) rfl
  case bfi => exact fun f h => h.bits2 (op := fun a b => setBitsAt a f.pos.toNat f.len.toNat b) (Kind.mark_ne_none 4 f.mkd) rfl

/-! Selection and lanes. -/

/-- A value moved from the lane, or the operand, that a rule names (R105, R106, R108). -/
theorem Ready.moves {i : Instr} {s : State} {t : Ty} {d : Opnd} {a : Nat → Opnd} {lane : State → Nat → Nat}
    (h : Ready i s) (hk : i.shape.kind ≠ .none) (enter : lane (s.enter i) = lane s)
    (he : exec i s = .next (s.issue i (fun s => s.write1 i d (fun l => s.moved t d (a l) (lane s l))))) :
    Writes i s [s.lanesWrite i.hdr d (fun l => s.moved t d (a l) (lane s l))] [] .none := by
  refine h.writes1 he hk ?_
  simp only [State.enter_moved, enter]

theorem State.enter_pred (s : State) (i : Instr) (n : Nat) : ((s.enter i).ctx s.cur).pred n = s.me.pred n := by
  rw [State.enter_ctx, State.entered_pred]

/-- Settles O6: SEL, SWZ, BCAST and LROT move the value of a lane that an operand, a constant or a predicate names; PACK and UNPK
join and part the sources as they are read. -/
theorem selectionAndLaneResults : Obligations.SelectionAndLaneResults := by
  intro s mv cnt
  have moved : mv = s.moved := rfl
  have count : cnt = fun k => s.countOp k 0 := by
    funext k
    cases k <;> rfl
  clear_value mv cnt
  subst moved count
  refine ⟨?sel, ?pack, ?unpk, ?swz, ?swzMask, ?bcast, ?lrot⟩
  case sel =>
    intro f h
    refine h.writes1 (d := f.d) rfl (Kind.mark_ne_none 4 f.mkd) ?_
    simp only [State.enter_cur, State.enter_pred, State.enter_moved]
  case pack =>
    intro f h
    refine h.writes1 (d := f.d) rfl (Kind.mark_ne_none 4 f.mkd) ?_
    simp only [State.enter_cur, State.enter_readOp]
  case unpk =>
    intro f h
    refine h.writes rfl (Kind.mark_ne_none 4 f.mkd) ?_
    simp only [State.enter_cur, State.enter_readOp, State.enter_lanesWrite]
  case swz =>
    intro f h
    refine h.moves (a := fun _ => f.a) (lane := fun s l => s.readOp s.cur f.x l % 64) (Kind.mark_ne_none 4 f.mkd) ?_ rfl
    simp only [State.enter_cur, State.enter_readOp]
  case swzMask =>
    intro f h
    exact h.moves (a := fun _ => f.a) (lane := fun _ l => (l &&& f.m.toNat) ^^^ f.k.toNat) (Kind.mark_ne_none 4 f.mkd) rfl rfl
  case bcast =>
    intro f h
    refine h.moves (a := fun _ => f.a) (lane := fun s _ => s.countOp f.k 0 % 64) (Kind.mark_ne_none 4 f.mkd) ?_ rfl
    simp only [State.enter_countOp]
  case lrot =>
    intro f h
    refine h.moves (a := fun _ => f.a) (lane := fun s l => (l + 64 - s.countOp f.k 0 % 64) % 64)
      (Kind.mark_ne_none 4 f.mkd) ?_ rfl
    simp only [State.enter_countOp]

end Sys2Proof.Machine
end

section
/-! PROOF. Instructions of the floating lanes: each lane's result, its flags and the normaliser (R32, R77). -/

namespace Sys2Proof.Machine

/-- An own part that computes a result in each executing lane. -/
theorem Ready.lanesCompute {i : Instr} {s : State} {d : Opnd} {r : Nat → LaneRes} {act : State → Act} (h : Ready i s)
    (he : exec i s = .next (s.issue i act)) (hk : i.shape.kind ≠ .none)
    (ha : act (s.enter i) = fpWrite i d r (s.enter i)) : LanesCompute i s d r := by
  refine h.computes he hk ?_
  simp only [ha, fpWrite, State.enter_lanes, State.lanesWrite, List.map_map, List.any_map, Function.comp_def]

/-- Arithmetic of one source (R112 to R114). -/
theorem Ready.fp1 {i : Instr} {s : State} {t : Ty} {d a : Opnd} {op : FpFmt → Bool → Val → FpRes} (h : Ready i s)
    (hk : i.shape.kind ≠ .none) (he : exec i s = .next (s.issue i (fp1 i t d a op))) :
    LanesCompute i s d (fun l => laneRes t.fp s.me.ftz [s.readOp s.cur a l]
      (op t.fp s.me.ftz (readFp t.fp s.me.ftz (s.readOp s.cur a l)))) := by
  refine h.lanesCompute he hk ?_
  have ftz : s.ftz = s.me.ftz := rfl
  simp only [Machine.fp1, State.enter_cur, State.enter_ftz, State.enter_readOp, ftz]

/-- FMIN and FMAX (R115). -/
theorem Ready.minMax {i : Instr} {s : State} {f : Fp3} {least : Bool} (h : Ready i s) (hk : i.shape.kind ≠ .none)
    (he : exec i s = .next (s.issue i (minMax i f least))) :
    LanesCompute i s f.d (fun l =>
      let r := fpMinMax f.ty.fp least (s.readOp s.cur f.a l) (s.readOp s.cur f.b l)
      ⟨r.bits, r.fl, false⟩) := by
  refine h.lanesCompute he hk ?_
  simp only [Machine.minMax, State.enter_cur, State.enter_readOp]

end Sys2Proof.Machine
end

section
/-! PROOF. The exact and special cases of the transcendental functions (R114). -/

namespace Sys2Proof

open Machine

/-- What the exact cases need of the formats of the transcendental functions: 1 is a number of the format, and 2 to the ± 5000
lies outside its range. -/
structure FpFmt.Transcendental (f : FpFmt) : Prop where
  ieee : f.kind = .ieee
  unit : ∀ z neg, roundFp f (.det .rne) z neg ⟨1, 0, false⟩ = ⟨f.withSign neg (f.bias.toNat * 2 ^ f.m), .none⟩
  low : -5000 < f.emin - f.m - 1
  high : f.topVal.2 + f.m + 1 ≤ 5000

theorem Ty.fp_transcendental (t : Ty) (ieee : t.fp.kind = .ieee) (wide : t.fp.m ≠ 2) : t.fp.Transcendental := by
  cases t
  case e4 | q2 => exact absurd ieee (by decide)
  case e5 => exact absurd rfl wide
  all_goals exact ⟨rfl, by decide, by decide, by decide⟩

theorem FpFmt.emin_le_one (f : FpFmt) : f.emin ≤ 1 := by
  have : (0 : ℤ) < 2 ^ (f.e - 1) := by positivity
  simp only [FpFmt.emin, FpFmt.bias]
  omega

end Sys2Proof

namespace Sys2Proof.Machine

/-! Exact magnitudes and values. -/

theorem Mag.Root.exact (f : FpFmt) {m : ℕ} {e : ℤ} {v : ℚ} (h : (m : ℚ) * (2 : ℚ) ^ e = v) :
    (⟨m, e, false⟩ : Mag).Root f 1 v where
  below := by rw [pow_one]; exact h.le
  above := by
    rw [pow_one, ← h]
    exact mul_lt_mul_of_pos_right (lt_add_one _) (by positivity)
  more := by rw [pow_one]; exact ⟨nofun, fun c => absurd h c⟩
  wide := nofun

theorem Val.abs_rat (n : Bool) (m : ℕ) (e : ℤ) : |(Val.fin n m e).rat| = m * (2 : ℚ) ^ e := by
  have pos : (0 : ℚ) ≤ m * (2 : ℚ) ^ e := by positivity
  cases n <;> simp [Val.rat, abs_of_nonneg pos]

/-- A value that is a power of 2 is a positive power of 2 at its exponent. -/
theorem Val.eq_two_pow {v : Val} {k : ℤ} (fin : v.isFin = true) (h : v.rat = (2 : ℚ) ^ k) :
    ∃ (l : ℕ) (e : ℤ), v = .fin false (2 ^ l) e ∧ l + e = k := by
  obtain _ | _ | ⟨n, m, e⟩ := v
  · cases fin
  · cases fin
  have pos : (0 : ℚ) < (2 : ℚ) ^ k := by positivity
  have sign : n = false := by
    cases n
    · rfl
    · have : (0 : ℚ) ≤ m * (2 : ℚ) ^ e := by positivity
      simp only [Val.rat, if_true] at h
      linarith
  subst sign
  have hm : (m : ℚ) = (2 : ℚ) ^ (k - e) := by
    rw [zpow_sub₀ two_ne_zero, eq_div_iff (by positivity), ← h]
    simp [Val.rat]
  have one_le : (1 : ℚ) ≤ (2 : ℚ) ^ (k - e) := by
    have : m ≠ 0 := by rintro rfl; rw [Nat.cast_zero] at hm; exact absurd hm.symm (by positivity)
    rw [← hm]
    exact_mod_cast Nat.one_le_iff_ne_zero.mpr this
  have nonneg : 0 ≤ k - e := (one_le_zpow_iff_right₀ one_lt_two).mp one_le
  obtain ⟨l, hl⟩ := Int.eq_ofNat_of_zero_le nonneg
  refine ⟨l, e, ?_, by omega⟩
  rw [hl, zpow_natCast] at hm
  rw [show m = 2 ^ l by exact_mod_cast hm]

/-! Powers of 2 outside a format's range. -/

section

variable {f : FpFmt} {k : ℤ}

theorem topExp_two_pow (k : ℤ) : (⟨1, k, false⟩ : Mag).topExp = k := by
  have bits : bitLen 1 = 1 := by decide
  simp [Mag.topExp, bits]

theorem maxVal_lt (ht : f.Transcendental) : f.maxVal < (2 : ℚ) ^ (5000 : ℤ) := by
  have frac : f.topVal.1 < 2 ^ (f.m + 1) := by
    have := Nat.mod_lt f.top (Nat.two_pow_pos f.m)
    simp only [FpFmt.topVal, pow_succ]
    omega
  calc f.maxVal < (2 ^ (f.m + 1) : ℕ) * (2 : ℚ) ^ f.topVal.2 :=
        mul_lt_mul_of_pos_right (Nat.cast_lt.mpr frac) (by positivity)
    _ = (2 : ℚ) ^ (f.topVal.2 + f.m + 1) := by
        rw [add_assoc, zpow_add₀ two_ne_zero, ← Nat.cast_succ, zpow_natCast, mul_comm]
        push_cast; rfl
    _ ≤ (2 : ℚ) ^ (5000 : ℤ) := zpow_le_zpow_right₀ one_le_two ht.high

/-- Above the range it overflows, whatever the power (R71). -/
theorem roundFp_two_pow_high (hf : f.Sound) (ht : f.Transcendental) (z : Bool) (hk : 5000 ≤ k) :
    roundFp f (.det .rne) z false ⟨1, k, false⟩ = ⟨overflowTo f (.det .rne) false, flagOF⟩ := by
  have normal : f.emin ≤ k := f.emin_le_one.trans (by omega)
  have top : (⟨1, k, false⟩ : Mag).topExp = k := topExp_two_pow k
  have spec := roundFp_spec hf .rne z false ⟨1, k, false⟩ one_ne_zero nofun (.inr (normal.trans_eq top.symm))
  refine spec.1 ?_
  rw [top, max_eq_left normal]
  have kept : roundAt (.det .rne) false ⟨1, k, false⟩ (k - f.m) = (2 ^ f.m, false) := by
    simp [roundAt]
  rw [kept]
  calc f.maxVal < (2 : ℚ) ^ (5000 : ℤ) := maxVal_lt ht
    _ ≤ (2 : ℚ) ^ k := zpow_le_zpow_right₀ one_le_two hk
    _ = (2 ^ f.m : ℕ) * (2 : ℚ) ^ (k - f.m) := by
        rw [zpow_sub₀ two_ne_zero, zpow_natCast]
        push_cast; field_simp

/-- Below half of a grid's step nothing is kept. -/
theorem roundAt_two_pow_low {q : ℤ} (hq : k + 1 < q) : roundAt (.det .rne) false ⟨1, k, false⟩ q = (0, true) := by
  obtain ⟨n, hn⟩ : ∃ n : ℕ, (q - k).toNat = n + 2 := ⟨(q - k).toNat - 2, by omega⟩
  have one_lt : 1 < 2 ^ (n + 2) := Nat.one_lt_two_pow (by omega)
  have half : 1 < 2 ^ (n + 1) := Nat.one_lt_two_pow (by omega)
  simp [roundAt, show ¬q ≤ k by omega, hn, roundsUp, Nat.div_eq_of_lt one_lt, Nat.mod_eq_of_lt one_lt, half.ne,
    half.not_gt]

/-- Below the range it is a zero that has underflowed, whatever the power (R72, R73). -/
theorem roundFp_two_pow_low (ht : f.Transcendental) (z : Bool) (hk : k ≤ -5000) :
    roundFp f (.det .rne) z false ⟨1, k, false⟩ = ⟨0, flagUF⟩ := by
  have low := ht.low
  have below : k < f.emin := by omega
  have top : (bitLen 1 : ℤ) - 1 + k = k := topExp_two_pow k
  have kept : roundAt (.det .rne) false ⟨1, k, false⟩ (max k f.emin - f.m) = (0, true) :=
    roundAt_two_pow_low (by omega)
  have zero (q : ℤ) (b : ℕ) (eb : ℤ) : magGt 0 q b eb = false := by simp [magGt]
  unfold roundFp
  simp only [top, kept]
  simp [zero, below, show k ≠ f.emin - 1 by omega, encodeMag, ht.ieee, FpFmt.withSign]

end

/-! 2 to a power (R114). -/

/-- Fixed point is exact on integers. -/
theorem toFx_of_int {m : ℕ} {e A : ℤ} (h : (m : ℚ) * (2 : ℚ) ^ e = A) : toFx m e = A * fxOne := by
  by_cases he : 0 ≤ e
  · obtain ⟨n, rfl⟩ := Int.eq_ofNat_of_zero_le he
    rw [toFx, if_pos he, Int.toNat_natCast]
    rw [zpow_natCast] at h
    rw [show (m : ℤ) * 2 ^ n = A by exact_mod_cast h]
  · obtain ⟨n, hn⟩ := Int.eq_ofNat_of_zero_le (show 0 ≤ -e by omega)
    rw [toFx, if_neg he, hn, Int.toNat_natCast]
    rw [show e = -(n : ℤ) by omega, zpow_neg, zpow_natCast, ← div_eq_mul_inv, div_eq_iff (by positivity)] at h
    rw [show (m : ℤ) = A * 2 ^ n by exact_mod_cast h, mul_right_comm]
    exact Int.mul_ediv_cancel _ (by positivity)

section

variable (f : FpFmt) (z n : Bool) {m : ℕ} {e : ℤ} (hm : m ≠ 0)
include hm

theorem fpExp2_big (big : 16 < (bitLen m : ℤ) + e) :
    fpExp2 f z (.fin n m e) = roundFp f (.det .rne) z false ⟨1, if n then -5000 else 5000, false⟩ := by
  have one_ne : fxOne ≠ 0 := by rw [fxOne]; positivity
  have arg : (if n then -5000 * fxOne else 5000 * fxOne) = (if n then -5000 else 5000) * fxOne := by split <;> rfl
  simp only [fpExp2, if_neg hm, if_pos big, arg, Int.mul_emod_left, if_true, Int.mul_ediv_cancel _ one_ne]

theorem fpExp2_whole (small : ¬16 < (bitLen m : ℤ) + e) {A : ℤ} (hA : (m : ℚ) * (2 : ℚ) ^ e = A) :
    fpExp2 f z (.fin n m e) = roundFp f (.det .rne) z false ⟨1, if n then -A else A, false⟩ := by
  have one_ne : fxOne ≠ 0 := by rw [fxOne]; positivity
  have arg : (if n then -(toFx m e) else toFx m e) = (if n then -A else A) * fxOne := by
    rw [toFx_of_int hA]
    split <;> simp only [neg_mul]
  simp only [fpExp2, if_neg hm, if_neg small, arg, Int.mul_emod_left, if_true, Int.mul_ediv_cancel _ one_ne]

/-- An argument of FEXP2 that acts as one at 5000 lies beyond 5000 itself. -/
theorem le_of_big (big : 16 < (bitLen m : ℤ) + e) {A : ℤ} (hA : (m : ℚ) * (2 : ℚ) ^ e = A) : 5000 ≤ A := by
  have top := (Mag.topExp_bounds (x := ⟨m, e, false⟩) hm).1
  have pow : (2 : ℚ) ^ (16 : ℤ) ≤ (2 : ℚ) ^ (⟨m, e, false⟩ : Mag).topExp :=
    zpow_le_zpow_right₀ one_le_two (by simp only [Mag.topExp]; omega)
  have : ((5000 : ℤ) : ℚ) ≤ A := by
    rw [← hA]
    exact le_trans (by norm_num) (pow.trans top)
  exact Int.cast_le.mp this

end

/-- An integer value is a whole magnitude with a sign. -/
theorem Val.whole {n : Bool} {m : ℕ} {e a : ℤ} (h : (Val.fin n m e).rat = a) :
    ∃ A : ℤ, (m : ℚ) * (2 : ℚ) ^ e = A ∧ a = if n then -A else A := by
  cases n
  · exact ⟨a, by simpa [Val.rat] using h, rfl⟩
  · exact ⟨-a, by rw [Int.cast_neg, ← h]; simp [Val.rat], (neg_neg a).symm⟩

/-- The power of 2 that FEXP2 rounds for an integer: its own, or one as far out of every format's range. -/
theorem fpExp2_of_int {f : FpFmt} (ht : f.Transcendental) (z : Bool) {v : Val} {a : ℤ} (fin : v.isFin = true)
    (h : v.rat = a) : ∃ k : ℤ, (k = a ∨ k = 5000 ∧ 5000 ≤ a ∨ k = -5000 ∧ a ≤ -5000) ∧
      fpExp2 f z v = roundFp f (.det .rne) z false ⟨1, k, false⟩ := by
  obtain _ | _ | ⟨n, m, e⟩ := v
  · cases fin
  · cases fin
  by_cases zero : m = 0
  · have ha : a = 0 := by
      rw [zero] at h
      simpa [Val.rat, eq_comm] using h
    refine ⟨0, .inl ha.symm, ?_⟩
    simp only [fpExp2, if_pos zero, one, ht.unit]
  · obtain ⟨A, hA, rfl⟩ := Val.whole h
    by_cases big : 16 < (bitLen m : ℤ) + e
    · have far := le_of_big zero big hA
      refine ⟨if n then -5000 else 5000, .inr ?_, fpExp2_big f z n zero big⟩
      cases n
      · exact .inl ⟨rfl, far⟩
      · exact .inr ⟨rfl, neg_le_neg far⟩
    · exact ⟨_, .inl rfl, fpExp2_whole f z n zero big hA⟩

/-- FEXP2 of an integer is its power of 2, rounded once. -/
theorem fpExp2_rounds {f : FpFmt} (hf : f.Sound) (ht : f.Transcendental) (z : Bool) {v : Val} {a : ℤ}
    (fin : v.isFin = true) (h : v.rat = a) : Rounds f .rne z ((2 : ℚ) ^ a) (fpExp2 f z v) := by
  have pos : (0 : ℚ) < (2 : ℚ) ^ a := by positivity
  refine ⟨⟨1, a, false⟩, .exact f (by rw [abs_of_pos pos, Nat.cast_one, one_mul]), ?_⟩
  rw [decide_eq_false pos.not_gt]
  obtain ⟨k, same | ⟨rfl, high⟩ | ⟨rfl, low⟩, hk⟩ := fpExp2_of_int ht z fin h
  · rw [hk, same]
  · rw [hk, roundFp_two_pow_high hf ht z le_rfl, roundFp_two_pow_high hf ht z high]
  · rw [hk, roundFp_two_pow_low ht z le_rfl, roundFp_two_pow_low ht z low]

/-! The exponent of a power of 2, and saturation of the hyperbolic tangent (R114). -/

/-- FLOG2 of a power of 2 rounds its exponent, a whole number. -/
theorem fpLog2_two_pow (f : FpFmt) (z : Bool) {v : Val} {k : ℤ} (fin : v.isFin = true) (h : v.rat = (2 : ℚ) ^ k) :
    fpLog2 f z v = roundFp f (.det .rne) z (decide (k < 0)) ⟨k.natAbs, 0, false⟩ := by
  obtain ⟨l, e, rfl, rfl⟩ := Val.eq_two_pow fin h
  simp only [fpLog2, Nat.log2_two_pow, Nat.two_pow_pos l |>.ne', if_false, if_true, Bool.false_eq_true]

theorem fpLog2_one {f : FpFmt} (ht : f.Transcendental) (z : Bool) {v : Val} (fin : v.isFin = true) (h : v.rat = 1) :
    fpLog2 f z v = ⟨0, .none⟩ := by
  rw [fpLog2_two_pow f z fin (k := 0) (by rw [h, zpow_zero])]
  simp [roundFp, ht.ieee, FpFmt.withSign]

theorem fpLog2_rounds (f : FpFmt) (z : Bool) {v : Val} {k : ℤ} (fin : v.isFin = true) (h : v.rat = (2 : ℚ) ^ k) :
    Rounds f .rne z (k : ℚ) (fpLog2 f z v) := by
  refine ⟨⟨k.natAbs, 0, false⟩, .exact f (by rw [zpow_zero, mul_one, Nat.cast_natAbs, Int.cast_abs]), ?_⟩
  rw [fpLog2_two_pow f z fin h]
  simp only [Int.cast_lt_zero]

theorem one_eq {f : FpFmt} (ht : f.Transcendental) (n : Bool) (fl : Flags) :
    one f n fl = ⟨f.withSign n (f.bias.toNat * 2 ^ f.m), fl⟩ := by rw [one, ht.unit]

/-- FTANH of a magnitude from 9.5, or 4.75, on is 1 of its sign. -/
theorem fpTanh_far {f : FpFmt} (ht : f.Transcendental) (z n : Bool) {m : ℕ} (e : ℤ) (hm : m ≠ 0)
    (far : (if f.m = 23 then 19 / 2 else 19 / 4) ≤ |(Val.fin n m e).rat|) :
    fpTanh f z (.fin n m e) = ⟨f.withSign n (f.bias.toNat * 2 ^ f.m), flagNX⟩ := by
  have bound : ((19 : ℕ) : ℚ) * (2 : ℚ) ^ (if f.m = 23 then -1 else -2 : ℤ) = if f.m = 23 then 19 / 2 else 19 / 4 := by
    split <;> norm_num
  have near : magGt 19 (if f.m = 23 then -1 else -2) m e = false := by
    rw [← Bool.not_eq_true, magGt_iff, bound, ← Val.abs_rat n]
    exact far.not_gt
  simp only [fpTanh, if_neg hm, near, Bool.not_false, if_true, one_eq ht]

/-- Settles O9: in each lane the instructions compute one function of the source as read; of the transcendental functions the NaN,
infinity and zero cases are those of R114's table, an integer's power of 2 is rounded from the power itself or, out of range, from
one as far out, and a power of 2 has its exponent as logarithm. -/
theorem transcendentalAndEncodingResults : Obligations.TranscendentalAndEncodingResults := by
  intro s z
  refine ⟨fun f => ⟨?exp2, ?log2, ?sin, ?cos, ?tanh, ?abs, ?neg, ?cls⟩, fun f => ⟨?min, ?max⟩, fun t => ?values⟩
  case exp2 => exact fun h => h.fp1 nofun rfl
  case log2 => exact fun h => h.fp1 nofun rfl
  case sin => exact fun h => h.fp1 nofun rfl
  case cos => exact fun h => h.fp1 nofun rfl
  case tanh => exact fun h => h.fp1 nofun rfl
  case abs =>
    intro h
    refine h.writes1 (d := f.d) rfl (Kind.mark_ne_none 4 f.mkd) ?_
    simp only [State.enter_cur, State.enter_readOp]
  case neg =>
    intro h
    refine h.writes1 (d := f.d) rfl (Kind.mark_ne_none 4 f.mkd) ?_
    simp only [State.enter_cur, State.enter_readOp]
    rfl
  case cls =>
    intro h
    refine h.writes1 (d := f.d) rfl (Kind.mark_ne_none 4 f.mkd) ?_
    simp only [State.enter_cur, State.enter_readOp]
  case min => exact fun h => h.minMax (Kind.mark_ne_none 4 f.mkd) rfl
  case max => exact fun h => h.minMax (Kind.mark_ne_none 4 f.mkd) rfl
  case values =>
    intro m ok zero unit ieee wide
    have ht : m.Transcendental := t.fp_transcendental ieee wide
    refine ⟨?nan, ?zeros, ?infs, ?negative, fun v a fin h => fpExp2_rounds t.fp_sound ht z fin h,
      fun v fin h => fpLog2_one ht z fin h, fun v k fin h _ => fpLog2_rounds m z fin h,
      fun n k e hk far => fpTanh_far ht z n e hk far⟩
    case nan =>
      rintro g (rfl | rfl | rfl | rfl | rfl) sig <;> cases sig <;> rfl
    case zeros => exact fun n e => ⟨one_eq ht _ _, rfl, rfl, one_eq ht _ _, rfl⟩
    case infs =>
      intro n
      refine ⟨?_, ?_, rfl, rfl, one_eq ht _ _⟩ <;> cases n <;> rfl
    case negative =>
      intro k e hk
      simp only [fpLog2, if_neg hk, if_true, invalid]

end Sys2Proof.Machine
end

section
/-! PROOF. PREF: a state against which the statement fails (R142, R335). -/

namespace Sys2Proof.Machine

/-- A PREF of two lanes: their addresses lie in the shared vector window. -/
def twoLinePref : PrefF := ⟨⟨.b12, none, false, false, false⟩, ⟨.g, .w16, 0⟩, none, 0, false, .normal⟩

/-- A leaf that maps the low 2 MiB, and an older one that maps lane 1's page elsewhere. -/
def wideLeaf : TlbEntry := ⟨0, 0, 2 ^ 21, 2 ^ 44 + 2 ^ 21, true, true, true⟩
def oldLeaf : TlbEntry := ⟨0, 0x40000, 65536, 2 ^ 44 + 0x40000, true, true, true⟩

/-- Context 0 executes twoLinePref, in a task of domain 0. The core's L0 TLB holds the older leaf and the die's TLB the wide one;
of all sectors the first of the line to which the wide leaf leads lane 1 alone has an uncorrectable error. -/
def twoLeaves : State :=
  { State.reset with
    ctxs := [(0, { Ctx.idle with run := .awake, lmask := 3 })]
    cores := [(0, { Core.idle with
      task := some (sharedTask 0).task, g := ((Window.alloc 1).write 0 0 16 0x30000).write 1 0 16 0x40000, tlb := [oldLeaf] })]
    dies := [(0, { Die.held with tlb := [wideLeaf] })]
    ueSectors := [((2 ^ 44 + 2 ^ 21 + 0x40000) / 64, true)] }

/-- Its lanes, and where they lie before it issues. -/
def twoLanesOf : List (Nat × Word) := [(0, 0x30000), (1, 0x40000)]

theorem twoLeaves_ready : Ready (.pref twoLinePref) twoLeaves where
  turn := by decide
  static := by decide +kernel
  idle := by decide +kernel
  late := by decide +kernel
  full := by decide +kernel
  sound := by decide +kernel

theorem twoLeaves_lanes :
    (if twoLeaves.me.guardAt twoLinePref.h 0 then
      twoLeaves.laneEas { twoLinePref.h with guard := none } (vecTerms twoLinePref.base twoLinePref.index) twoLinePref.base
        twoLinePref.index 64 twoLinePref.disp.toInt
      else []) = twoLanesOf := by
  decide +kernel

theorem twoLeaves_noMiss : twoLeaves.prefMiss twoLanesOf = none := by decide +kernel

theorem twoLeaves_asks : twoLeaves.Asks (twoLeaves.prefPieces twoLanesOf) := by
  unfold State.Asks
  decide +kernel

/-- As the two lanes stand before the PREF issues, every sector of their lines is sound. -/
theorem twoLeaves_sound {e : Nat × Word} (he : e ∈ twoLanesOf) {pl : Place} (h : twoLeaves.prefPlace e.2 = .ok pl) :
    twoLeaves.badBytes (keysOf (256 * (pl.key / 256)) 256) = none := by
  have run : ∀ e ∈ twoLanesOf, (twoLeaves.prefPlace e.2).toOption.bind
      (fun pl => twoLeaves.badBytes (keysOf (256 * (pl.key / 256)) 256)) = none := by
    decide +kernel
  have found := run e he
  simp only [h, Except.toOption, Option.bind_some] at found
  exact found

/-- Lane 0 brings the wide leaf into the L0 TLB, lane 1's fill meets the bad sector, and the domain's discard frees the context. -/
theorem twoLeaves_after {t : State} (h : exec (.pref twoLinePref) twoLeaves = .next t) :
    (t.ctx twoLeaves.cur).lmask = 0 := by
  have run : (match exec (.pref twoLinePref) twoLeaves with
      | .next t => (t.ctx twoLeaves.cur).lmask
      | _ => 1) = 0 := by decide +kernel
  rwa [h] at run

/-- Refutes O16: a PREF translates its lanes one after another, so an earlier lane's translation may take a later lane to another
line than the one whose sectors the statement assumes sound. In `twoLeaves` the core's L0 TLB holds an older leaf for lane 1's page
than the die's TLB; lane 0 brings the die's leaf into L0, lane 1 follows it to a sector with an uncorrectable error, and the discard
of the task's domain frees the context that the statement has go on. -/
theorem not_spillFillAndPrefetch : ¬ Obligations.SpillFillAndPrefetch := by
  unfold Obligations.SpillFillAndPrefetch
  intro h
  obtain ⟨-, -, pref⟩ := h twoLeaves
  obtain ⟨-, -, goesOn⟩ := pref twoLinePref twoLeaves_ready
  rw [twoLeaves_lanes] at goesOn
  obtain ⟨t, run, -, past, -⟩ := goesOn twoLeaves_noMiss twoLeaves_asks (fun _ he _ => twoLeaves_sound he)
  have freed := twoLeaves_after run
  rw [past] at freed
  exact absurd freed (by decide +kernel)

end Sys2Proof.Machine
end

section
/-! PROOF. Events at homes: how one runs, and what is left by an access at a slice where every sector is sound (R217 to R220). -/

namespace Sys2Proof.Machine

/-! Operations in flight by number. -/

theorem find_flight_map (l : List Flight) {r : Flight → Flight} (hr : ∀ g, (r g).id = g.id) (id : Nat) :
    (l.map r).find? (fun g => g.id == id) = (l.find? (fun g => g.id == id)).map r := by
  rw [List.find?_map]
  congr 2
  funext g
  simp [hr]

section

variable {s : State} {id : Nat} {f g : Flight}

theorem State.flight_id (h : s.flight id = some f) : f.id = id := by simpa using List.find?_some h

theorem State.flight_mem (h : s.flight id = some f) : f ∈ s.flights := List.mem_of_find?_eq_some h

theorem State.flight_setFlight (s : State) (g : Flight) (k : Nat) :
    (s.setFlight g).flight k = (s.flight k).map (fun e => if e.id = g.id then g else e) :=
  find_flight_map s.flights (fun e => by split <;> simp_all) k

/-- A changed operation is found by its number, and every other as before. -/
theorem State.flight_setFlight_self (h : s.flight id = some f) (hg : g.id = id) : (s.setFlight g).flight id = some g := by
  rw [State.flight_setFlight, h, Option.map_some, if_pos ((State.flight_id h).trans hg.symm)]

theorem State.flight_setFlight_ne {k : Nat} (h : k ≠ g.id) : (s.setFlight g).flight k = s.flight k := by
  rw [State.flight_setFlight]
  cases e : s.flight k with
  | none => rfl
  | some x => rw [Option.map_some, if_neg (by rw [State.flight_id e]; exact h)]

/-- An event on a part that is still to be performed runs on that part. -/
theorem State.onPart_run {n : Nat} {p : Part} (h : s.flight id = some f) (hp : f.part n = some p) (hd : p.done = false)
    (r : Flight → Part → State) : s.onPart id n r = (r f p).settle := by
  simp [State.onPart, h, hp, hd]

/-- An event on the one part of an operation. -/
theorem State.onFlight_run {p : Part} (h : s.flight id = some f) (hp : f.parts = [p]) (hd : p.done = false)
    (r : Flight → Part → State) : s.onFlight id r = (r f p).settle :=
  State.onPart_run h (by simp [Flight.part, hp]) hd r

end

theorem Flight.note_plain (f : Flight) (p : Part) : (f.note p).plain = f.plain := by
  unfold Flight.note
  split <;> rfl

theorem Flight.note_parts (f : Flight) (p : Part) : (f.note p).parts = f.parts := by
  unfold Flight.note
  split <;> rfl

theorem Flight.note_id (f : Flight) (p : Part) : (f.note p).id = f.id := by
  unfold Flight.note
  split <;> rfl

theorem Flight.plain_setPart (f : Flight) (n : Nat) (p : Part) : (f.setPart n p).plain = f.plain.setPart n p := rfl

/-! What an operation waits for, and what its queue forwards, are decided by the operations in flight and the links. -/

theorem State.ready_congr {s t : State} (hf : t.flights = s.flights) (hl : t.links = s.links) (f : Flight) (p : Part) :
    t.ready f p = s.ready f p := by
  simp only [State.ready, State.before, State.ofTask, State.floorOf, State.quietOf, State.linkDown, hf, hl]

theorem State.forward_congr {s t : State} (hf : t.flights = s.flights) (f : Flight) (p : Part) :
    t.forward f p = s.forward f p := by
  simp only [State.forward, State.before, State.ofTask, hf]
  rfl

/-! Sound sectors. -/

/-- Every sector verifies. -/
def State.Sound (s : State) : Prop := ∀ k, s.badSector k = none

theorem State.Sound.congr {s t : State} (hs : s.Sound) (diff : t.checkDiff = s.checkDiff) (stale : t.stale = s.stale)
    (ue : t.ueSectors = s.ueSectors) (cycle : t.cycle = s.cycle) : t.Sound := fun k => by
  have same := hs k
  simp only [State.badSector, diff, stale, ue, cycle] at same ⊢
  exact same

theorem State.Sound.badBytes {s : State} (h : s.Sound) (keys : List Nat) : s.badBytes keys = none := by
  have none_ : ∀ l : List Nat, l.filterMap s.badSector = [] := fun l => List.filterMap_eq_nil_iff.mpr fun k _ => h k
  simp [State.badBytes, none_]

theorem State.Sound.postMoved {s : State} (h : s.Sound) (l : List Nat) : s.postMoved l = s := by
  simp [State.postMoved, h _]

/-! What an access at a slice leaves. -/

/-- t is s after accesses at slices: tags, entries of trackers, and counts have changed alone. -/
structure Accessed (s t : State) : Prop where
  core : ∀ c, t.core c = { s.core c with perf := (t.core c).perf }
  die : ∀ d, t.die d = { s.die d with overflow := (t.die d).overflow }
  rest : { t with l2 := s.l2, slices := s.slices, dies := s.dies, cores := s.cores } = s

theorem Accessed.refl (s : State) : Accessed s s := ⟨fun _ => rfl, fun _ => rfl, rfl⟩

theorem Accessed.trans {s t u : State} (h : Accessed s t) (k : Accessed t u) : Accessed s u where
  core c := by rw [k.core, h.core]
  die d := by rw [k.die, h.die]
  rest := (congrArg (fun x : State =>
    { x with l2 := s.l2, slices := s.slices, dies := s.dies, cores := s.cores }) k.rest :).trans h.rest

theorem Accessed.foldl {α : Type} {r : State → α → State} {P : State → Prop} (hP : ∀ {t u}, Accessed t u → P t → P u)
    (h : ∀ t x, P t → Accessed t (r t x)) (l : List α) {s : State} (hs : P s) : Accessed s (l.foldl r s) := by
  induction l generalizing s with
  | nil => exact .refl s
  | cons x l ih => exact (h s x hs).trans (ih (hP (h s x hs) hs))

theorem Accessed.count (s : State) (c e n : Nat) : Accessed s (s.count c e n) where
  core d := by
    simp only [State.count, State.modCore_eq, State.core_setCore]
    split
    · simp_all
    · rfl
  die _ := rfl
  rest := rfl

theorem Accessed.slices (s : State) (x : Tab Slice) : Accessed s { s with slices := x } := ⟨fun _ => rfl, fun _ => rfl, rfl⟩

theorem Accessed.l2 (s : State) (x : Tab L2Set) : Accessed s { s with l2 := x } := ⟨fun _ => rfl, fun _ => rfl, rfl⟩

/-- A line overflows a retention register's ways (R227). -/
theorem Accessed.overflow (s : State) (d : Nat) (n : Word) :
    Accessed s (s.modDie d (fun x => { x with overflow := x.overflow + n })) where
  core _ := rfl
  die c := by
    simp only [State.modDie_eq, State.die_setDie]
    split
    · simp_all
    · rfl
  rest := rfl

theorem Accessed.takeEntry (s : State) (k : Nat) (q : Requester) (port : Nat) : Accessed s (s.takeEntry k q port) := by
  rw [State.takeEntry_eq]
  exact .slices s _

section

variable {s t : State} (h : Accessed s t)
include h

theorem Accessed.mem : t.mem = s.mem := (congrArg State.mem h.rest :)
theorem Accessed.ctxs : t.ctxs = s.ctxs := (congrArg State.ctxs h.rest :)
theorem Accessed.flights : t.flights = s.flights := (congrArg State.flights h.rest :)
theorem Accessed.emptyTags : t.emptyTags = s.emptyTags := (congrArg State.emptyTags h.rest :)
theorem Accessed.stamps : t.stamps = s.stamps := (congrArg State.stamps h.rest :)
theorem Accessed.links : t.links = s.links := (congrArg State.links h.rest :)
theorem Accessed.nextId : t.nextId = s.nextId := (congrArg State.nextId h.rest :)
theorem Accessed.cycle : t.cycle = s.cycle := (congrArg State.cycle h.rest :)
theorem Accessed.objs : t.objs = s.objs := (congrArg State.objs h.rest :)
theorem Accessed.ctrUps : t.ctrUps = s.ctrUps := (congrArg State.ctrUps h.rest :)
theorem Accessed.checkDiff : t.checkDiff = s.checkDiff := (congrArg State.checkDiff h.rest :)

theorem Accessed.aged : t.aged = s.aged := (congrArg State.aged h.rest :)
theorem Accessed.stale : t.stale = s.stale := (congrArg State.stale h.rest :)
theorem Accessed.ueSectors : t.ueSectors = s.ueSectors := (congrArg State.ueSectors h.rest :)

theorem Accessed.l1 (c : Nat) : (t.core c).l1 = (s.core c).l1 := (congrArg Core.l1 (h.core c) :)
theorem Accessed.fills (c : Nat) : (t.core c).fills = (s.core c).fills := (congrArg Core.fills (h.core c) :)
theorem Accessed.task (c : Nat) : (t.core c).task = (s.core c).task := (congrArg Core.task (h.core c) :)

theorem Accessed.word (k n : Nat) : t.word k n = s.word k n := by simp only [State.word, State.bytes, h.mem]
theorem Accessed.line (n : Nat) : t.line n = s.line n := by simp only [State.line, State.bytes, h.mem]
theorem Accessed.ready (f : Flight) (p : Part) : t.ready f p = s.ready f p := State.ready_congr h.flights h.links f p
theorem Accessed.forward (f : Flight) (p : Part) : t.forward f p = s.forward f p := State.forward_congr h.flights f p
theorem Accessed.flight (k : Nat) : t.flight k = s.flight k := by simp only [State.flight, h.flights]

theorem Accessed.sound (hs : s.Sound) : t.Sound := hs.congr h.checkDiff h.stale h.ueSectors h.cycle

end

/-- An access at a slice, where the lines it drives out are sound (R217, R219, R362). -/
theorem Accessed.l2Access {s : State} (hs : s.Sound) (core : Option Nat) (obj : Option Obj) (asid : Nat) (va : Word)
    (keys : List Nat) (wr : Bool) (hint : Hint) (alloc : Bool) :
    Accessed s (s.l2Access core obj asid va keys wr hint alloc) := by
  have moved (x : Tab L2Set) (l : List Nat) : State.postMoved { s with l2 := x } l = { s with l2 := x } :=
    ((Accessed.l2 s x).sound hs).postMoved l
  unfold State.l2Access
  dsimp only
  split
  · exact .refl s
  · rw [moved]
    have counted (u : State) (hit : Bool) : Accessed u (match core with
        | none => u
        | some c => u.count c (if hit then 5 else 6) 1) := by
      cases core with
      | none => exact .refl u
      | some c => exact .count u c _ 1
    have overflowed (u : State) (d : Nat) (more : Bool) :
        Accessed u (if more then u.modDie d (fun x => { x with overflow := x.overflow + 1 }) else u) := by
      cases more with
      | false => exact .refl u
      | true => exact .overflow u d 1
    exact (Accessed.l2 s _).trans ((overflowed _ _ _).trans (counted _ _))

theorem Accessed.homeAccess {s : State} (hs : s.Sound) (f : Flight) (p : Part) (keys : List Nat) (wr : Bool) (hint : Hint) :
    Accessed s (s.homeAccess f p keys wr hint) := .l2Access hs ..

theorem Accessed.atomAccess {s : State} (hs : s.Sound) (f : Flight) (p : Part) (keys : List Nat) :
    Accessed s (s.atomAccess f p keys) :=
  (Accessed.homeAccess hs f p keys false .normal).trans (.l2Access ((Accessed.homeAccess hs f p keys false .normal).sound hs) ..)

/-- The pieces of an access, each line once. -/
theorem Accessed.touch {s : State} (hs : s.Sound) (asid : Nat) (l : List Piece) (wr : Bool) (hint : Hint) :
    Accessed s (s.touch asid l wr hint) := by
  refine .foldl (P := State.Sound) (fun h => h.sound) (fun t n ht => ?_) _ hs
  split
  · exact .refl t
  · exact .l2Access ht ..

theorem State.admits_of_room {s : State} {k : Nat} {q : Requester} (h : s.room k q) : s.admits k q = true := by
  obtain ⟨r, hr, e⟩ | free := h
  · exact (Bool.or_eq_true _ _).mpr (.inl (List.any_eq_true.mpr ⟨r, hr, decide_eq_true e⟩))
  · exact (Bool.or_eq_true _ _).mpr (.inr (decide_eq_true free))

/-- A slice with room takes an operation's request (R220). -/
theorem State.enterSlice_room {s : State} {f : Flight} {n : Nat} {p : Part}
    (h : ∀ k, s.partSlice f p = some k → s.room k (.part f.id n)) :
    ∃ t, s.enterSlice f n p = (true, t) ∧ Accessed s t := by
  unfold State.enterSlice
  cases e : s.partSlice f p with
  | none => exact ⟨s, rfl, .refl s⟩
  | some k =>
    have admitted : s.admits k (.part f.id n) = true := State.admits_of_room (h k e)
    exact ⟨s.takeEntry k (.part f.id n) f.core, by simp only [admitted, if_true], .takeEntry s k _ _⟩

end Sys2Proof.Machine
end

section
/-! PROOF. Writes at homes: the bytes they leave, the sectors that verify after them, and the watches that they complete (R4, R217,
R276, R361, R376). -/

namespace Sys2Proof

variable {α : Type} [DecidableEq α] {d : α}

/-- Of sets at different numbers each is read back. -/
theorem Tab.get_setMany_of_mem (t : Tab α) {l : List (Nat × α)} (hl : (l.map (fun e => e.1)).Nodup) {e : Nat × α} (he : e ∈ l) :
    Tab.get d (Tab.setMany d t l) e.1 = e.2 := by
  induction l generalizing t with
  | nil => cases he
  | cons x r ih =>
    obtain ⟨a, v⟩ := x
    obtain ⟨fresh, rest⟩ := List.nodup_cons.mp hl
    rw [Tab.setMany]
    rcases List.mem_cons.mp he with rfl | he
    · rw [Tab.get_setMany_ne _ _ fun y hy q => fresh (List.mem_map.mpr ⟨y, hy, q⟩), Tab.get_set_self]
    · exact ih _ rest he

/-- Where entries are set to one value, each entry has that value or is as before. -/
theorem Tab.get_setMany_const (t : Tab α) {l : List (Nat × α)} {v : α} (hl : ∀ e ∈ l, e.2 = v) (k : Nat) :
    Tab.get d (Tab.setMany d t l) k = v ∨ Tab.get d (Tab.setMany d t l) k = Tab.get d t k := by
  induction l generalizing t with
  | nil => exact .inr rfl
  | cons x r ih =>
    obtain ⟨a, w⟩ := x
    obtain rfl : w = v := hl (a, w) List.mem_cons_self
    rw [Tab.setMany]
    obtain same | same := ih (Tab.set d t a w) fun e he => hl e (List.mem_cons_of_mem _ he)
    · exact .inl same
    · rw [same, Tab.get_set]
      split
      · exact .inl rfl
      · exact .inr rfl

omit [DecidableEq α] in
theorem Tab.getList_eq (t : Tab α) (k n : Nat) : Tab.getList d t k n = (List.range n).map (fun j => Tab.get d t (k + j)) := by
  induction n generalizing k with
  | zero => rfl
  | succ n ih => simp [Tab.getList, ih, List.range_succ_eq_map, Nat.add_assoc, Nat.add_comm 1]

theorem leBytes_getElem? (n v j : Nat) : (leBytes n v)[j]? = if j < n then some (BitVec.ofNat 8 (v / 256 ^ j)) else none := by
  induction n generalizing v j with
  | zero => simp [leBytes]
  | succ n ih =>
    cases j with
    | zero => simp [leBytes]
    | succ j => simp [leBytes, ih, Nat.div_div_eq_div_mul, pow_succ']

end Sys2Proof

namespace Sys2Proof.Machine

/-! Bytes with their keys. -/

theorem keyed_keys (k : Nat) (l : List Byte) : (keyed k l).map (fun e => e.1) = (List.range l.length).map (fun j => k + j) := by
  refine List.ext_getElem? fun j => ?_
  simp only [keyed, List.getElem?_map, List.getElem?_zipIdx, Option.map_map]
  by_cases h : j < l.length
  · simp [h]
  · simp [h]

theorem keyed_nodup (k : Nat) (l : List Byte) : ((keyed k l).map (fun e => e.1)).Nodup := by
  rw [keyed_keys]
  exact List.nodup_range.map fun _ _ h => Nat.add_left_cancel h

theorem mem_keyed {k j : Nat} {l : List Byte} {b : Byte} (h : l[j]? = some b) : (k + j, b) ∈ keyed k l := by
  refine List.mem_map.mpr ⟨(b, j), ?_, rfl⟩
  simpa [List.mem_zipIdx_iff_getElem?] using h

theorem keyed_range {k : Nat} {l : List Byte} {e : Nat × Byte} (h : e ∈ keyed k l) : k ≤ e.1 ∧ e.1 < k + l.length := by
  have key : e.1 ∈ (keyed k l).map (fun e => e.1) := List.mem_map_of_mem h
  rw [keyed_keys, List.mem_map] at key
  obtain ⟨j, hj, e⟩ := key
  have := List.mem_range.mp hj
  omega

theorem State.word_congr {s t : State} (h : t.mem = s.mem) (k n : Nat) : t.word k n = s.word k n := by
  simp only [State.word, State.bytes, h]

theorem State.byte_congr {s t : State} (h : t.mem = s.mem) (k : Nat) : t.byte k = s.byte k := by
  simp only [State.byte, h]

theorem State.length_bytes (s : State) (k n : Nat) : (s.bytes k n).length = n := by
  simp [State.bytes, Tab.getList_eq]

theorem State.bytes_getElem? (s : State) (k n j : Nat) : (s.bytes k n)[j]? = if j < n then some (s.byte (k + j)) else none := by
  simp only [State.bytes, Tab.getList_eq, List.getElem?_map, State.byte]
  by_cases h : j < n
  · simp [h]
  · simp [h]

/-- A byte of a word in memory. -/
theorem State.byte_of_word (s : State) {k n j : Nat} (h : j < n) : s.byte (k + j) = BitVec.ofNat 8 (blkByte (s.word k n) j) := by
  have same := leBytes_leVal (s.bytes k n)
  rw [State.length_bytes] at same
  have at_ := congrArg (fun l => l[j]?) same
  simp only [leBytes_getElem?, State.bytes_getElem?, if_pos h, Option.some.injEq] at at_
  rw [← at_]
  refine BitVec.eq_of_toNat_eq ?_
  simp [blkByte, bitsAt, State.word, pow_mul]

/-- Memory is that of s but for bytes of a list, of which each has the value that it stands with. -/
structure Stored (s t : State) (l : List (Nat × Byte)) : Prop where
  at_ : ∀ e ∈ l, t.byte e.1 = e.2
  other : ∀ k, (∀ e ∈ l, e.1 ≠ k) → t.byte k = s.byte k

theorem Stored.of_mem {s t : State} {l : List (Nat × Byte)} (h : t.mem = Tab.setMany Memory.unlisted s.mem l)
    (hl : (l.map (fun e => e.1)).Nodup) : Stored s t l where
  at_ e he := by
    simp only [State.byte, h]
    exact Tab.get_setMany_of_mem _ hl he
  other k hk := by
    simp only [State.byte, h]
    exact Tab.get_setMany_ne _ _ hk

theorem Stored.congr {s t u : State} {l : List (Nat × Byte)} (h : Stored s t l) (hm : u.mem = t.mem) : Stored s u l :=
  ⟨fun e he => (State.byte_congr hm _).trans (h.at_ e he), fun k hk => (State.byte_congr hm _).trans (h.other k hk)⟩

/-- A little-endian value is read back, and the bytes beside it are as before (R4). -/
theorem Stored.word {s t : State} {k n v : Nat} (h : Stored s t (keyed k (leBytes n v))) :
    t.word k n = v % 2 ^ (8 * n) ∧ ∀ j, j < k ∨ k + n ≤ j → t.byte j = s.byte j := by
  constructor
  · have bytes : t.bytes k n = leBytes n v := by
      refine List.ext_getElem? fun j => ?_
      rw [State.bytes_getElem?]
      by_cases hj : j < n
      · have e : (leBytes n v)[j]? = some (BitVec.ofNat 8 (v / 256 ^ j)) := by rw [leBytes_getElem?, if_pos hj]
        rw [if_pos hj, e, h.at_ _ (mem_keyed e)]
      · rw [if_neg hj, leBytes_getElem?, if_neg hj]
    rw [State.word, bytes, leVal_leBytes, pow_mul, show 2 ^ 8 = 256 from rfl]
  · intro j hj
    refine h.other j fun e he q => ?_
    have r := keyed_range he
    rw [length_leBytes] at r
    omega

/-! What a write at a home leaves beside memory. -/

theorem State.retestOne_id (s : State) (keys : List Nat) (f : Flight) : (s.retestOne keys f).id = f.id := by
  unfold State.retestOne
  split
  · split
    · rfl
    · split <;> rfl
  · rfl

theorem State.retestOne_of_not_watch (s : State) (keys : List Nat) {f : Flight} (h : isWatch f.op = false) :
    s.retestOne keys f = f := by
  unfold State.retestOne
  split
  · rw [if_pos (.inl (by simp [h]))]
  · rfl

/-- t is s after writes at homes: memory, what its sectors keep beside their bytes, and watches have changed alone. -/
structure Wrote (s t : State) : Prop where
  sound : s.Sound → t.Sound
  flight : ∀ id f, s.flight id = some f → isWatch f.op = false → t.flight id = some f
  rest : { t with
    mem := s.mem, keyIdx := s.keyIdx, checkDiff := s.checkDiff, stale := s.stale, ueSectors := s.ueSectors
    flights := s.flights } = s

theorem Wrote.refl (s : State) : Wrote s s := ⟨id, fun _ _ h _ => h, rfl⟩

theorem Wrote.trans {s t u : State} (h : Wrote s t) (k : Wrote t u) : Wrote s u where
  sound hs := k.sound (h.sound hs)
  flight id f hf hw := k.flight id f (h.flight id f hf hw) hw
  rest := (congrArg (fun x : State => { x with
    mem := s.mem, keyIdx := s.keyIdx, checkDiff := s.checkDiff, stale := s.stale, ueSectors := s.ueSectors
    flights := s.flights }) k.rest :).trans h.rest

theorem State.flight_retest {s : State} {id : Nat} {f : Flight} (keys : List Nat) (h : s.flight id = some f)
    (hw : isWatch f.op = false) : (s.retest keys).flight id = some f := by
  have found := find_flight_map s.flights (s.retestOne_id keys) id
  rw [show s.flights.find? (fun g => g.id == id) = some f from h, Option.map_some, s.retestOne_of_not_watch keys hw] at found
  exact found

theorem Wrote.retest (s : State) (keys : List Nat) : Wrote s (s.retest keys) :=
  ⟨fun h => h, fun _ _ hf hw => State.flight_retest keys hf hw, rfl⟩

theorem Wrote.setBytes (s : State) (l : List (Nat × Byte)) : Wrote s (s.setBytes l) := ⟨fun h => h, fun _ _ h _ => h, rfl⟩

/-- What a write that is applied leaves before its watches retest: the bytes, and in its sectors a key index, no difference of the
check value, no replaced key and no error (R361, R376). -/
def State.stored (s : State) (asid : Nat) (l : List (Nat × Byte)) : State :=
  let secs := sectorsOf l
  let dev := secs.filter (fun x => isGlobal (64 * x))
  { s with
    mem := Tab.setMany Memory.unlisted s.mem l
    keyIdx := Tab.setMany none s.keyIdx (dev.map (fun x => (x, some (BitVec.ofNat 12 asid))))
    checkDiff := Tab.setMany 0 s.checkDiff (secs.map (fun x => (x, 0)))
    stale := Tab.setMany none s.stale (secs.map (fun x => (x, none)))
    ueSectors := Tab.setMany false s.ueSectors (secs.map (fun x => (x, false))) }

theorem State.writeHome_eq {s : State} {l : List (Nat × Byte)} (h : s.badBytes ((partSectors l).map (fun x => 64 * x)) = none)
    (asid : Nat) : s.writeHome asid l = .ok ((s.stored asid l).retest (l.map (fun e => e.1))) := by
  unfold State.writeHome
  rw [h]
  rfl

theorem State.stored_sound {s : State} (hs : s.Sound) (asid : Nat) (l : List (Nat × Byte)) : (s.stored asid l).Sound := by
  intro k
  obtain ⟨ue, check, stale⟩ := (Laws.badSector_eq_none_iff s k).mp (hs k)
  rw [Laws.storedCheck_eq_iff] at check
  rw [Laws.badSector_eq_none_iff, Laws.storedCheck_eq_iff]
  have const {α : Type} (v : α) : ∀ e ∈ (sectorsOf l).map (fun x => (x, v)), e.2 = v := fun e he => by
    obtain ⟨x, -, rfl⟩ := List.mem_map.mp he
    rfl
  have ueNow := Tab.get_setMany_const (d := false) s.ueSectors (const false) k
  have checkNow := Tab.get_setMany_const (d := 0) s.checkDiff (const 0) k
  have staleMark := Tab.get_setMany_const (d := none) s.stale (const none) k
  refine ⟨ueNow.elim id fun h => h.trans ue, checkNow.elim id fun h => h.trans check, ?_⟩
  show staleNow (Tab.get none (Tab.setMany none s.stale _) k) k s.cycle = false
  obtain h | h := staleMark <;> rw [h]
  · rfl
  · exact stale

/-- A write at a home where every sector is sound is applied, and leaves every sector so (R361, R362). -/
theorem State.writeHome_sound {s : State} (hs : s.Sound) (asid : Nat) (l : List (Nat × Byte)) :
    ∃ t, s.writeHome asid l = .ok t ∧ Wrote s t ∧ t.mem = Tab.setMany Memory.unlisted s.mem l := by
  refine ⟨_, State.writeHome_eq (hs.badBytes _) asid, Wrote.trans ?_ (.retest _ _), rfl⟩
  exact ⟨fun h => State.stored_sound h asid l, fun _ _ h _ => h, rfl⟩

theorem State.writeOr_sound {s : State} (hs : s.Sound) (asid : Nat) (l : List (Nat × Byte)) :
    Wrote s (s.writeOr asid l) ∧ (s.writeOr asid l).mem = Tab.setMany Memory.unlisted s.mem l := by
  obtain ⟨t, run, wrote, mem⟩ := State.writeHome_sound hs asid l
  rw [State.writeOr, run]
  exact ⟨wrote, mem⟩

section

variable {s t : State} (h : Wrote s t)
include h

theorem Wrote.ctxs : t.ctxs = s.ctxs := (congrArg State.ctxs h.rest :)
theorem Wrote.cores : t.cores = s.cores := (congrArg State.cores h.rest :)
theorem Wrote.dies : t.dies = s.dies := (congrArg State.dies h.rest :)
theorem Wrote.emptyTags : t.emptyTags = s.emptyTags := (congrArg State.emptyTags h.rest :)
theorem Wrote.stamps : t.stamps = s.stamps := (congrArg State.stamps h.rest :)
theorem Wrote.ctrUps : t.ctrUps = s.ctrUps := (congrArg State.ctrUps h.rest :)

end

end Sys2Proof.Machine
end

section
/-! PROOF. Reads at homes (R209, R217, R222, R224, R232 to R234). -/

namespace Sys2Proof.Machine

/-! Accesses of an operation performed together. -/

theorem Flight.perform_getElem? (f : Flight) (idx : List Nat) (w : Part → Nat) (j : Nat) :
    (f.perform idx w).parts[j]? = f.parts[j]?.map (fun q => if j ∈ idx then { q with done := true, res := w q } else q) := by
  simp only [Flight.perform, List.getElem?_map, List.getElem?_zipIdx, Option.map_map]
  cases f.parts[j]? <;> simp

/-- h is f with the parts that a test names performed, each with its value, and perhaps more lines counted (R219). -/
def Flight.Took (f h : Flight) (on : Part → Prop) (w : Part → Nat) : Prop :=
  { h with parts := f.parts }.plain = f.plain ∧ h.parts.length = f.parts.length ∧
    ∀ (j : Nat) (q : Part), f.parts[j]? = some q → (on q → h.parts[j]? = some { q with done := true, res := w q }) ∧
      (¬on q → h.parts[j]? = some q)

theorem Flight.took_perform {f g : Flight} (hg : g.plain = f.plain) {idx : List Nat} {on : Part → Prop} (w : Part → Nat)
    (hidx : ∀ j q, f.parts[j]? = some q → (j ∈ idx ↔ on q)) : f.Took (g.perform idx w) on w := by
  have parts : g.parts = f.parts := (congrArg Flight.parts hg :)
  have same : { g.plain with parts := f.parts } = { f.plain with parts := f.parts } :=
    (congrArg (fun x : Flight => { x with parts := f.parts }) hg :)
  refine ⟨same, by simp [Flight.perform, parts], fun j q hq => ?_⟩
  rw [Flight.perform_getElem?, parts, hq, Option.map_some, ← hidx j q hq]
  exact ⟨fun h => by rw [if_pos h], fun h => by rw [if_neg h]⟩

/-- Accesses of an operation to a line that can perform now. -/
theorem State.mem_mates (s : State) (f : Flight) (line : Nat) {j : Nat} {q : Part} (hq : f.parts[j]? = some q) :
    j ∈ s.mates f line ↔ q.done = false ∧ q.key / 256 = line ∧ s.ready f q = true ∧ s.forward f q = .clear := by
  simp only [State.mates, List.mem_map, List.mem_filter, List.mem_zipIdx_iff_getElem?, Prod.exists, exists_eq_right, hq,
    Option.some.injEq]
  constructor
  · rintro ⟨x, rfl, h⟩
    simpa [and_assoc] using h
  · intro h
    exact ⟨q, rfl, by simpa [and_assoc] using h⟩

theorem State.mates_congr {s t : State} (hf : t.flights = s.flights) (hl : t.links = s.links) (f : Flight) (line : Nat) :
    t.mates f line = s.mates f line := by
  simp only [State.mates, State.ready_congr hf hl, State.forward_congr hf]

/-! What a read leaves beside its operation. -/

/-- t is s but for caches, slices, counts and numbers given out. -/
def CacheOnly (s t : State) : Prop :=
  { t with l2 := s.l2, slices := s.slices, dies := s.dies, cores := s.cores, nextId := s.nextId } = s

theorem CacheOnly.trans {s t u : State} (h : CacheOnly s t) (k : CacheOnly t u) : CacheOnly s u :=
  (congrArg (fun x : State =>
    { x with l2 := s.l2, slices := s.slices, dies := s.dies, cores := s.cores, nextId := s.nextId }) k :).trans h

theorem Accessed.cacheOnly {s t : State} (h : Accessed s t) : CacheOnly s t :=
  (congrArg (fun x : State => { x with nextId := s.nextId }) h.rest :)

theorem CacheOnly.modCore (s : State) (c : Nat) (g : Core → Core) : CacheOnly s (s.modCore c g) := rfl

theorem CacheOnly.askL1 (s : State) (c line : Nat) (d : BitVec 2048) (flagged : Bool) :
    CacheOnly s (s.askL1 c line d flagged) := by
  unfold State.askL1
  split <;> rfl

theorem CacheOnly.askMirror (s : State) (d : Nat) (m : MirrorCopy) (aged : Bool) : CacheOnly s (s.askMirror d m aged) := rfl

section

variable {s t : State} (h : CacheOnly s t)
include h

theorem CacheOnly.flights : t.flights = s.flights := (congrArg State.flights h :)
theorem CacheOnly.mem : t.mem = s.mem := (congrArg State.mem h :)
theorem CacheOnly.ctxs : t.ctxs = s.ctxs := (congrArg State.ctxs h :)
theorem CacheOnly.emptyTags : t.emptyTags = s.emptyTags := (congrArg State.emptyTags h :)
theorem CacheOnly.flight (k : Nat) : t.flight k = s.flight k := by simp only [State.flight, h.flights]

/-- With its operation changed the rest of s is as it was. -/
theorem CacheOnly.setFlight {id : Nat} {g : Flight} (hg : g.id = id) :
    (t.setFlight g).ctxs = s.ctxs ∧ (t.setFlight g).mem = s.mem ∧ (t.setFlight g).emptyTags = s.emptyTags ∧
      ∀ k, k ≠ id → (t.setFlight g).flight k = s.flight k :=
  ⟨h.ctxs, h.mem, h.emptyTags, fun k hk => (State.flight_setFlight_ne (hg ▸ hk)).trans (h.flight k)⟩

theorem CacheOnly.flight_setFlight {id : Nat} {f g : Flight} (hf : s.flight id = some f) (hg : g.id = id) :
    (t.setFlight g).flight id = some g :=
  State.flight_setFlight_self ((h.flight id).trans hf) hg

end

/-! Event counts of a load (R187). -/

/-- t is s but for event counts of cores. -/
structure Counted (s t : State) : Prop where
  core : ∀ c, t.core c = { s.core c with perf := (t.core c).perf }
  rest : { t with cores := s.cores } = s

theorem Counted.refl (s : State) : Counted s s := ⟨fun _ => rfl, rfl⟩

theorem Counted.count_if (s : State) (b : Bool) (c e n : Nat) : Counted s (if b then s.count c e n else s) := by
  cases b with
  | false => exact .refl s
  | true => exact ⟨(Accessed.count s c e n).core, rfl⟩

theorem Counted.trans {s t u : State} (h : Counted s t) (k : Counted t u) : Counted s u where
  core c := by rw [k.core, h.core]
  rest := (congrArg (fun x : State => { x with cores := s.cores }) k.rest :).trans h.rest

section

variable {s t : State} (h : Counted s t)
include h

theorem Counted.dies : t.dies = s.dies := (congrArg State.dies h.rest :)
theorem Counted.slices : t.slices = s.slices := (congrArg State.slices h.rest :)
theorem Counted.objs : t.objs = s.objs := (congrArg State.objs h.rest :)

theorem Counted.accessed : Accessed s t where
  core := h.core
  die d := by simp only [State.die, h.dies]
  rest := by
    have e := congrArg (fun x : State => { x with l2 := s.l2, slices := s.slices, dies := s.dies }) h.rest
    exact e

theorem Counted.room {f : Flight} {p : Part} {q : Requester} (hr : ∀ k, s.partSlice f p = some k → s.room k q) :
    ∀ k, t.partSlice f p = some k → t.room k q := by
  intro k hk
  simp only [State.partSlice, State.object, h.objs] at hk
  have room := hr k hk
  simp only [State.room, State.slice, h.slices] at room ⊢
  exact room

end

/-! Where a load finds its line (R209, R222, R232, R233). -/

section

variable {s : State} {f : Flight} {n : Nat} {p : Part}

theorem State.loadLine_l1 {l : L1Line} (hm : p.mayL1 = true)
    (hl : (s.core f.core).l1.find? (fun l => l.line = p.key / 256) = some l) :
    s.loadLine f n p = ((if f.firstAsk p then s.count f.core 3 1 else s).modCore f.core (fun x => x.useL1 l)).setFlight
      (f.perform (s.mates f (p.key / 256)) (lineVal l.data)) := by
  simp only [State.loadLine, hm, hl, Bool.not_true, Bool.false_eq_true, if_false]
  congr 2
  exact State.mates_congr (by split <;> rfl) (by split <;> rfl) f _

theorem State.loadLine_past
    (h : ¬(p.mayL1 = true ∧ ((s.core f.core).l1.find? (fun l => l.line = p.key / 256)).isSome = true)) :
    ∃ u, Counted s u ∧ s.loadLine f n p = u.loadMirror f n p := by
  unfold State.loadLine
  by_cases hm : p.mayL1 = true
  · have none_ : (s.core f.core).l1.find? (fun l => l.line = p.key / 256) = none := by
      simpa [hm] using h
    simp only [hm, none_, Bool.not_true, Bool.false_eq_true, if_false]
    exact ⟨_, .count_if s _ _ _ _, rfl⟩
  · simp only [hm, Bool.not_false, if_true]
    exact ⟨s, .refl s, rfl⟩

theorem State.loadMirror_copy {m : MirrorCopy} (hm : p.mayMirror = true)
    (hc : (s.die (coreDie f.core)).current (p.key / 256) = some m) (hg : ∀ ks, m.badAt s.cycle ks = none) :
    ∃ u, Counted s u ∧ s.loadMirror f n p = (if p.allocs then u.askL1 f.core (p.key / 256) m.data p.flagged else u).setFlight
      (f.perform (s.mates f (p.key / 256)) (lineVal m.data)) := by
  refine ⟨_, .count_if s (f.firstAsk p) f.core 7 1, ?_⟩
  have counted := (Counted.count_if s (f.firstAsk p) f.core 7 1).accessed
  simp only [State.loadMirror, hm, hc, Bool.not_true, Bool.false_eq_true, if_false, counted.cycle, hg,
    State.mates_congr counted.flights counted.links]

theorem State.loadMirror_past (h : ¬(p.mayMirror = true ∧ ((s.die (coreDie f.core)).current (p.key / 256)).isSome = true)) :
    ∃ u, Counted s u ∧ s.loadMirror f n p = u.loadHome f n p := by
  unfold State.loadMirror
  by_cases hm : p.mayMirror = true
  · have none_ : (s.die (coreDie f.core)).current (p.key / 256) = none := by
      simpa [hm] using h
    simp only [hm, none_, Bool.not_true, Bool.false_eq_true, if_false]
    exact ⟨_, .count_if s _ _ _ _, rfl⟩
  · simp only [hm, Bool.not_false, if_true]
    exact ⟨s, .refl s, rfl⟩

/-- The fills that a read at the home sets out (R209, R222). -/
def State.askFills (u : State) (f : Flight) (p : Part) : State :=
  let line := p.key / 256
  let d := u.line line
  let v := if p.allocs then u.askL1 f.core line d p.flagged else u
  if p.mayMirror then v.askMirror (coreDie f.core) ⟨line, d, [], f.gen, v.lineKeys line, [], []⟩ false else v

theorem CacheOnly.askFills (u : State) (f : Flight) (p : Part) : CacheOnly u (u.askFills f p) := by
  unfold State.askFills
  cases p.allocs <;> cases p.mayMirror
  · rfl
  · exact .askMirror ..
  · exact .askL1 ..
  · exact (CacheOnly.askL1 ..).trans (.askMirror ..)

/-- A read at the home takes the home's bytes: of the whole line where a fill is made of it. -/
theorem State.loadHome_sound (hs : s.Sound) (room : ∀ k, s.partSlice f p = some k → s.room k (.part f.id n)) :
    ∃ u, Accessed s u ∧ s.loadHome f n p = (u.askFills f p).setFlight ((f.note p).perform (s.mates f (p.key / 256))
      (if p.allocs = true ∨ p.mayMirror = true then lineVal (s.line (p.key / 256)) else fun q => s.word q.key q.len)) := by
  obtain ⟨t, enter, entered⟩ := State.enterSlice_room room
  unfold State.loadHome
  simp only [enter, (entered.sound hs).badBytes]
  generalize hk : (if (p.allocs || p.mayMirror) = true then _ else _ : List Nat) = keys
  have access := Accessed.homeAccess (entered.sound hs) f p keys false f.hint
  have served := entered.trans access
  refine ⟨_, served, ?_⟩
  have mates := State.mates_congr entered.flights entered.links f (p.key / 256)
  have gen : (f.note p).gen = f.gen := by unfold Flight.note; split <;> rfl
  have core : (f.note p).core = f.core := by unfold Flight.note; split <;> rfl
  by_cases whole : p.allocs = true ∨ p.mayMirror = true
  · rw [if_pos (by simpa using whole), if_pos whole]
    simp only [State.askFills, mates, served.line, gen, core]
  · rw [if_neg (by simpa using whole), if_neg whole]
    obtain ⟨na, nm⟩ := not_or.mp whole
    simp only [State.askFills, na, nm, mates, served.word, Bool.false_eq_true, if_false]

/-- A load past L1 that the die's current copy serves (R222, R232). -/
theorem State.loadLine_copy {m : MirrorCopy}
    (notL1 : ¬(p.mayL1 = true ∧ ((s.core f.core).l1.find? (fun l => l.line = p.key / 256)).isSome = true)) (hm : p.mayMirror = true)
    (hc : (s.die (coreDie f.core)).current (p.key / 256) = some m) (hg : ∀ ks, m.badAt s.cycle ks = none) :
    ∃ u, CacheOnly s u ∧ s.loadLine f n p = u.setFlight (f.perform (s.mates f (p.key / 256)) (lineVal m.data)) := by
  obtain ⟨u, first, past⟩ := State.loadLine_past (n := n) notL1
  have here : (u.die (coreDie f.core)).current (p.key / 256) = some m := by rw [State.die, first.dies]; exact hc
  obtain ⟨v, again, taken⟩ := State.loadMirror_copy (n := n) hm here (by rw [first.accessed.cycle]; exact hg)
  rw [past, taken, State.mates_congr first.accessed.flights first.accessed.links]
  refine ⟨_, (first.trans again).accessed.cacheOnly.trans ?_, rfl⟩
  split
  · exact .askL1 ..
  · rfl

/-- A load that neither L1 nor a copy serves reads at the home (R217, R233). -/
theorem State.loadLine_home
    (notL1 : ¬(p.mayL1 = true ∧ ((s.core f.core).l1.find? (fun l => l.line = p.key / 256)).isSome = true))
    (noCopy : ¬(p.mayMirror = true ∧ ((s.die (coreDie f.core)).current (p.key / 256)).isSome = true)) (hs : s.Sound)
    (room : ∀ k, s.partSlice f p = some k → s.room k (.part f.id n)) :
    ∃ u, Accessed s u ∧ s.loadLine f n p = (u.askFills f p).setFlight ((f.note p).perform (s.mates f (p.key / 256))
      (if p.allocs = true ∨ p.mayMirror = true then lineVal (s.line (p.key / 256)) else fun q => s.word q.key q.len)) := by
  obtain ⟨u, first, past⟩ := State.loadLine_past (n := n) notL1
  obtain ⟨v, again, past'⟩ := State.loadMirror_past (s := u) (n := n) (p := p) (by rw [State.die, first.dies]; exact noCopy)
  have counted := first.trans again
  obtain ⟨t, access, read⟩ := State.loadHome_sound (counted.accessed.sound hs) (counted.room room)
  refine ⟨t, counted.accessed.trans access, ?_⟩
  rw [past, past', read, State.mates_congr counted.accessed.flights counted.accessed.links]
  simp only [counted.accessed.line, counted.accessed.word]

theorem State.storeHeld_iff (s : State) (c line : Nat) : s.storeHeld c line = true ↔
    ∃ h ∈ s.flights, h.core = c ∧ h.isStore = true ∧ ∃ q ∈ h.parts, q.done = false ∧ q.key / 256 = line := by
  simp [State.storeHeld, and_assoc]

/-- L1 is asked for the line of a load that allocates one, unless a store of the core to it is queued (R209, R233). -/
theorem State.askFills_fills (u : State) (f : Flight) (p : Part) :
    let line := p.key / 256
    (p.allocs = true → u.storeHeld f.core line = false →
      ⟨u.nextId, line, u.line line, p.flagged, false⟩ ∈ ((u.askFills f p).core f.core).fills) ∧
    (p.allocs = false ∨ u.storeHeld f.core line = true → ((u.askFills f p).core f.core).fills = (u.core f.core).fills) := by
  intro line
  have mirror (v : State) (m : MirrorCopy) :
      ((if p.mayMirror = true then v.askMirror (coreDie f.core) m false else v).core f.core) = v.core f.core := by
    split <;> rfl
  simp only [State.askFills, mirror]
  constructor
  · intro ha hq
    simp [ha, State.askL1, hq, line]
  · rintro (ha | hq)
    · simp [ha]
    · cases p.allocs <;> simp [State.askL1, hq, line]

end

/-! The statement. -/

section

variable {s : State} {id n : Nat} {f : Flight} {p : Part}

/-- What a read leaves beside its operation's values: no context, byte of memory, tag or other operation has changed. -/
def State.SameBut (s : State) (id : Nat) (v : State) : Prop :=
  v.ctxs = s.ctxs ∧ v.mem = s.mem ∧ v.emptyTags = s.emptyTags ∧ ∀ k, k ≠ id → v.flight k = s.flight k

/-- A read of a line, from wherever it is taken: the accesses of the operation to the line that can perform take their values. -/
theorem State.read_together {u : State} (h : CacheOnly s u) (hf : s.flight id = some f) {g : Flight} (hg : g.plain = f.plain)
    (line : Nat) (w : Part → Nat) :
    s.SameBut id (u.setFlight (g.perform (s.mates f line) w)) ∧
      ∃ r, (u.setFlight (g.perform (s.mates f line) w)).flight id = some r ∧
        f.Took r (fun q => q.done = false ∧ q.key / 256 = line ∧ s.ready f q = true ∧ s.forward f q = .clear) w := by
  have number : (g.perform (s.mates f line) w).id = id :=
    (congrArg Flight.id hg :).trans (State.flight_id hf : f.id = id)
  exact ⟨h.setFlight number, _, h.flight_setFlight hf number,
    Flight.took_perform hg w fun _ _ hq => s.mem_mates f line hq⟩

/-- A load's read from its context's own queue (R133, R234). -/
theorem State.forwarded_run {x : Nat} (hf : s.flight id = some f) (hu : ∀ g ∈ s.flights, g.id ∉ s.ueCmds) :
    s.SameBut id (s.forwarded f p x) ∧ ∃ r, (s.forwarded f p x).flight id = some r ∧
      f.Took r (fun q => q.done = false ∧ q.key = p.key) (fun _ => x) := by
  have sound : (s.before f).find? (fun e => e.isStore && !e.allDone && e.touches p.key p.len && s.badEntry e) = none := by
    refine List.find?_eq_none.mpr fun e he => ?_
    have entry := hu e (List.mem_of_mem_filter he)
    simp [State.badEntry, entry]
  have number (idx) : (f.perform idx fun _ => x).id = id := (State.flight_id hf : f.id = id)
  simp only [State.forwarded, sound, State.takeForward]
  refine ⟨(Accessed.refl s).cacheOnly.setFlight (number _), _, State.flight_setFlight_self hf (number _),
    Flight.took_perform rfl _ fun j q hq => ?_⟩
  simp [List.mem_zipIdx_iff_getElem?, hq]

/-- A read that its context's own queue answers, and one that goes to its home (R234). -/
theorem execHomeRead_value {x : Nat} (hf : s.flight id = some f) (hp : f.part n = some p) (hd : p.done = false)
    (hm : s.mayRead f p = true) (hr : s.reaches f p.key = true) (hh : isHost p.key = false) (hx : s.forward f p = .value x) :
    exec (.homeRead id n) s = .next (s.forwarded f p x).settle := by
  show execHomeRead id n s = _
  rw [execHomeRead, State.onPart_run hf hp hd]
  simp only [hm, hr, hh, hx, Bool.not_true, Bool.false_eq_true, or_self, if_false]

theorem execHomeRead_clear (hf : s.flight id = some f) (hp : f.part n = some p) (hd : p.done = false)
    (hm : s.mayRead f p = true) (hr : s.reaches f p.key = true) (hh : isHost p.key = false) (hc : s.forward f p = .clear) :
    exec (.homeRead id n) s = .next (if isWatch f.op then s.watchArrive f p else s.loadLine f n p).settle := by
  show execHomeRead id n s = _
  rw [execHomeRead, State.onPart_run hf hp hd]
  simp only [hm, hr, hh, hc, Bool.not_true, Bool.false_eq_true, or_self, if_false]

/-- A read of host memory: the bytes that the host then holds (R224). -/
def State.hostRead (s : State) (f : Flight) (p : Part) : State :=
  let idx := s.mates f (p.key / 256)
  let ps := f.parts.zipIdx.filter (fun x => x.2 ∈ idx)
  let t := s.hostDrift ((ps.flatMap (fun x => keysOf x.1.key x.1.len)).dedup)
  t.setFlight (f.perform idx (fun q => t.word q.key q.len))

theorem execHostRead_value {x : Nat} (hf : s.flight id = some f) (hp : f.part n = some p) (hd : p.done = false)
    (hm : s.mayRead f p = true) (hh : isHost p.key = true) (hx : s.forward f p = .value x) :
    exec (.hostReadCompletion id n) s = .next (s.forwarded f p x).settle := by
  show execHostReadCompletion id n s = _
  rw [execHostReadCompletion, State.onPart_run hf hp hd]
  simp only [hm, hh, hx, Bool.not_true, Bool.false_eq_true, or_self, if_false]

theorem execHostRead_clear (hf : s.flight id = some f) (hp : f.part n = some p) (hd : p.done = false)
    (hm : s.mayRead f p = true) (hh : isHost p.key = true) (hc : s.forward f p = .clear) :
    exec (.hostReadCompletion id n) s = .next (s.hostRead f p).settle := by
  show execHostReadCompletion id n s = _
  rw [execHostReadCompletion, State.onPart_run hf hp hd]
  simp only [hm, hh, hc, Bool.not_true, Bool.false_eq_true, or_self, if_false]
  exact congrArg (fun t => Host.Outcome.next (State.settle t)) rfl

/-- What the host has written by then stands in host memory, and changes those bytes alone (R224; log 14). -/
theorem State.hostDrift_eq (s : State) (keys : List Nat) :
    ∃ l : List (Nat × Byte), (∀ e ∈ l, e.1 ∈ keys) ∧ s.hostDrift keys = s.useFree.setBytes l := by
  unfold State.hostDrift
  split
  · exact ⟨[], fun e he => absurd he List.not_mem_nil, rfl⟩
  · refine ⟨_, fun e he => ?_, rfl⟩
    obtain ⟨x, hx, rfl⟩ := List.mem_map.mp he
    exact (List.mem_zipIdx hx).2.2 ▸ List.getElem_mem _

theorem State.hostRead_leaves (hf : s.flight id = some f) :
    let v := s.hostRead f p
    let on := fun (q : Part) => q.done = false ∧ q.key / 256 = p.key / 256 ∧ s.ready f q = true ∧ s.forward f q = .clear
    v.ctxs = s.ctxs ∧ v.emptyTags = s.emptyTags ∧
      (∃ r, v.flight id = some r ∧ f.Took r on (fun q => v.word q.key q.len)) ∧ (∀ k, k ≠ id → v.flight k = s.flight k) ∧
      ∀ k, (∀ q ∈ f.parts, on q → k < q.key ∨ q.key + q.len ≤ k) → v.byte k = s.byte k := by
  intro v on
  have number (idx) (w) : (f.perform idx w).id = id := (State.flight_id hf : f.id = id)
  obtain ⟨l, hl, drift⟩ := s.hostDrift_eq (((f.parts.zipIdx.filter (fun x => x.2 ∈ s.mates f (p.key / 256))).flatMap
    (fun x => keysOf x.1.key x.1.len)).dedup)
  have hv : v = (s.useFree.setBytes l).setFlight (f.perform (s.mates f (p.key / 256))
      (fun q => (s.useFree.setBytes l).word q.key q.len)) := by
    simp only [v, State.hostRead, drift]
  rw [hv]
  refine ⟨rfl, rfl, ⟨_, State.flight_setFlight_self (s := s.useFree.setBytes l) hf (number _ _),
    Flight.took_perform rfl _ fun _ _ hq => s.mem_mates f _ hq⟩,
    fun k hk => State.flight_setFlight_ne (s := s.useFree.setBytes l) (number _ _ ▸ hk), fun k hk => ?_⟩
  refine State.byte_setBytes_ne s.useFree l fun e he => ?_
  obtain ⟨x, hx, key⟩ := List.mem_flatMap.mp (List.mem_dedup.mp (hl e he))
  obtain ⟨mem, mate⟩ := List.mem_filter.mp hx
  have at_ := List.mem_zipIdx_iff_getElem?.mp mem
  have outside := hk x.1 (List.mem_of_getElem? at_) ((s.mem_mates f _ at_).mp (by simpa using mate))
  obtain ⟨j, hj, here⟩ := List.mem_map.mp key
  have := List.mem_range.mp hj
  omega

end

/-- Settles O38: each way to a line ends in the operation's accesses to it performed together, over changes of caches, slices and
counts alone; a home's read meets no bad sector, and host memory shows what the host then holds in just the bytes read. -/
theorem readsPerformAtTheirHomes : Obligations.ReadsPerformAtTheirHomes := by
  unfold Obligations.ReadsPerformAtTheirHomes
  intro s id n f p hf hp hd hm hw hr i line cached mate l1 copy inL1 inMirror held same took
  refine ⟨fun x hx hu => ?_, fun hh hc => ?_, fun hh hc => ?_⟩
  · obtain ⟨rest, taken⟩ := State.forwarded_run (p := p) (x := x) hf hu
    refine ⟨_, ?_, rest, taken⟩
    by_cases hh : isHost p.key = true
    · simp only [i, hh, if_true, execHostRead_value hf hp hd hm hh hx]
    · rw [Bool.not_eq_true] at hh
      simp only [i, hh, Bool.false_eq_true, if_false, execHomeRead_value hf hp hd hm hr hh hx]
  · have run : exec i s = .next (s.loadLine f n p).settle := by
      simp only [i, hh, hw, Bool.false_eq_true, if_false, execHomeRead_clear hf hp hd hm hr hh hc]
    rw [run]
    refine ⟨fun l hin hl => ?_, fun m hin hcopy good => ?_, fun notL1 notMirror room sound => ?_⟩
    · have counted := (Counted.count_if s (f.firstAsk p) f.core 3 1).accessed
      obtain ⟨rest, taken⟩ := State.read_together (counted.cacheOnly.trans (.modCore _ f.core (fun x => x.useL1 l))) hf rfl line
        (lineVal l.data)
      rw [State.loadLine_l1 hin.1 hl]
      refine ⟨_, rfl, rest, taken, ?_⟩
      have number : l.line = line := by simpa using List.find?_some hl
      simp only [State.core_setFlight, State.modCore_eq, State.core_setCore_self, Core.useL1, number, counted.l1]
    · obtain ⟨notL1, may, -⟩ := hin
      obtain ⟨u, changed, read⟩ := State.loadLine_copy (n := n) notL1 may hcopy good
      rw [read]
      exact ⟨_, rfl, State.read_together changed hf rfl line (lineVal m.data)⟩
    · have noCopy : ¬(p.mayMirror = true ∧ copy.isSome = true) := fun h => notMirror ⟨notL1, h⟩
      obtain ⟨t, served, read⟩ := State.loadLine_home (n := n) notL1 noCopy sound (by rw [State.flight_id hf]; exact room)
      rw [read]
      obtain ⟨rest, taken⟩ := State.read_together (served.cacheOnly.trans (.askFills t f p)) hf (Flight.note_plain f p) line
        (if p.allocs = true ∨ p.mayMirror = true then cached (s.line line) else fun q => s.word q.key q.len)
      obtain ⟨asks, stays⟩ := State.askFills_fills t f p
      have queued : t.storeHeld f.core line = true ↔ held := by
        rw [State.storeHeld_iff, served.flights]
      refine ⟨_, rfl, rest, taken, fun ha hn => ?_, fun hn => ?_⟩
      · exact ⟨_, asks ha (by simpa using mt queued.mp hn), rfl, served.line line, rfl, rfl⟩
      · exact (stays (hn.imp_right queued.mpr)).trans (served.fills f.core)
  · have run : exec i s = .next (s.hostRead f p).settle := by
      simp only [i, hh, if_true, execHostRead_clear hf hp hd hm hh hc]
    rw [run]
    obtain ⟨ctxs, tags, taken, others, bytes⟩ := State.hostRead_leaves (p := p) hf
    exact ⟨_, rfl, ctxs, tags, taken, others, bytes⟩

end Sys2Proof.Machine
end

section
/-! PROOF. What an event that writes at a home leaves: its access, its bytes, and its die's own copy (R217, R222, R276). -/

namespace Sys2Proof.Machine

/-- t is s after accesses and writes at homes: beside memory and caches, the watches of written words alone have changed. -/
structure Applied (s t : State) : Prop where
  sound : s.Sound → t.Sound
  flight : ∀ id f, s.flight id = some f → isWatch f.op = false → t.flight id = some f
  task : ∀ c, (t.core c).task = (s.core c).task
  rest : { t with
    mem := s.mem, keyIdx := s.keyIdx, checkDiff := s.checkDiff, stale := s.stale, ueSectors := s.ueSectors
    flights := s.flights, l2 := s.l2, slices := s.slices, dies := s.dies, cores := s.cores } = s

theorem Applied.trans {s t u : State} (h : Applied s t) (k : Applied t u) : Applied s u where
  sound hs := k.sound (h.sound hs)
  flight id f hf hw := k.flight id f (h.flight id f hf hw) hw
  task c := (k.task c).trans (h.task c)
  rest := (congrArg (fun x : State => { x with
    mem := s.mem, keyIdx := s.keyIdx, checkDiff := s.checkDiff, stale := s.stale, ueSectors := s.ueSectors
    flights := s.flights, l2 := s.l2, slices := s.slices, dies := s.dies, cores := s.cores }) k.rest :).trans h.rest

theorem Accessed.applied {s t : State} (h : Accessed s t) : Applied s t where
  sound := h.sound
  flight id _ hf _ := (h.flight id).trans hf
  task := h.task
  rest := (congrArg (fun x : State => { x with
    mem := s.mem, keyIdx := s.keyIdx, checkDiff := s.checkDiff, stale := s.stale, ueSectors := s.ueSectors
    flights := s.flights }) h.rest :)

theorem Wrote.applied {s t : State} (h : Wrote s t) : Applied s t where
  sound := h.sound
  flight := h.flight
  task c := by rw [State.core, h.cores]; rfl
  rest := (congrArg (fun x : State =>
    { x with l2 := s.l2, slices := s.slices, dies := s.dies, cores := s.cores }) h.rest :)

theorem Applied.ownCopy (s : State) (d line : Nat) (l : Option (Nat × List (Nat × Byte))) : Applied s (s.ownCopy d line l) :=
  ⟨fun h => h, fun _ _ h _ => h, fun _ => rfl, rfl⟩

theorem Applied.dropCopy (s : State) (f : Flight) (p : Part) : Applied s (s.dropCopy f p) := by
  unfold State.dropCopy
  split
  · exact .ownCopy s _ _ _
  · exact (Accessed.refl s).applied

theorem State.dropCopy_mem (s : State) (f : Flight) (p : Part) : (s.dropCopy f p).mem = s.mem := by
  unfold State.dropCopy
  split <;> rfl

section

variable {s t : State} (h : Applied s t)
include h

theorem Applied.ctxs : t.ctxs = s.ctxs := (congrArg State.ctxs h.rest :)
theorem Applied.emptyTags : t.emptyTags = s.emptyTags := (congrArg State.emptyTags h.rest :)
theorem Applied.stamps : t.stamps = s.stamps := (congrArg State.stamps h.rest :)

end

end Sys2Proof.Machine
end

section
/-! PROOF. Atomics and counter updates at their points (R155, R156, R161, R275, R282, R285). -/

namespace Sys2Proof.Machine

/-! Counter words. -/

theorem ctrNew_lt (act : CtrAct) {w : Nat} (hw : w < 2 ^ 64) : ctrNew act w < 2 ^ 64 := by
  cases act with
  | add n => simp only [ctrNew]; omega
  | err c =>
    simp only [ctrNew]
    split <;> omega

theorem State.word_lt (s : State) (k n : Nat) : s.word k n < 2 ^ (8 * n) := by
  have same := leVal_leBytes n (s.word k n)
  have bytes := leBytes_leVal (s.bytes k n)
  rw [State.length_bytes] at bytes
  rw [State.word, bytes] at same
  rw [State.word, same, pow_mul]
  exact Nat.mod_lt _ (by positivity)

/-- A word that a write at its home has left. -/
theorem State.word_of_write {s t : State} {k n v : Nat} (h : t.mem = Tab.setMany Memory.unlisted s.mem (keyed k (leBytes n v))) :
    t.word k n = v % 2 ^ (8 * n) ∧ ∀ j, j < k ∨ k + n ≤ j → t.byte j = s.byte j :=
  (Stored.of_mem h (keyed_nodup k _)).word

/-- A counter's word, which its new value fits. -/
theorem State.word_of_ctrNew {s t : State} {k : Nat} {act : CtrAct}
    (h : t.mem = Tab.setMany Memory.unlisted s.mem (keyed k (leBytes 8 (ctrNew act (s.word k 8))))) :
    t.word k 8 = ctrNew act (s.word k 8) ∧ ∀ j, j < k ∨ k + 8 ≤ j → t.byte j = s.byte j := by
  obtain ⟨word, outside⟩ := State.word_of_write h
  exact ⟨word.trans (Nat.mod_eq_of_lt (ctrNew_lt act (s.word_lt k 8))), outside⟩

/-! At a point in the device. -/

theorem State.plain_setFlight_note {s : State} {id : Nat} {f : Flight} (hf : s.flight id = some f) (n : Nat) (p q : Part) :
    ((s.setFlight ((f.note p).setPart n q)).flight id).map Flight.plain = some (f.setPart n q).plain := by
  have same : ((f.note p).setPart n q).id = id := (f.note_id p).trans (State.flight_id hf)
  rw [State.flight_setFlight_self hf same, Option.map_some, Flight.plain_setPart, Flight.note_plain, Flight.plain_setPart]

section

variable {s : State} {id n : Nat} {f : Flight} {p : Part}

/-- A write of a word by an operation at its atomic point: the access, the bytes, and the die's own copy. -/
theorem State.point_leaves (hs : s.Sound) (f : Flight) (p : Part) (keys : List Nat) (k m v : Nat) :
    Applied s (((s.writeOr f.asid (keyed k (wordBytes m v))).atomAccess f p keys).dropCopy f p) ∧
      (((s.writeOr f.asid (keyed k (wordBytes m v))).atomAccess f p keys).dropCopy f p).mem =
        Tab.setMany Memory.unlisted s.mem (keyed k (leBytes m v)) := by
  obtain ⟨wrote, mem⟩ := State.writeOr_sound hs f.asid (keyed k (wordBytes m v))
  have access := Accessed.atomAccess (wrote.sound hs) f p keys
  exact ⟨(wrote.applied.trans access.applied).trans (.dropCopy _ f p),
    (State.dropCopy_mem _ f p).trans (access.mem.trans mem)⟩

theorem Flight.laneTurn_iff (f : Flight) (n : Nat) (p : Part) :
    f.laneTurn n p = true ↔ ∀ q ∈ f.parts.take n, q.done = true ∨ q.key ≠ p.key := by
  simp [Flight.laneTurn]

/-- Where it is not the lane's turn nothing happens (R156). -/
theorem execAtomicPoint_waits {op : AtOp} {ty : Ty} (hf : s.flight id = some f) (hp : f.part n = some p) (hd : p.done = false)
    (hop : f.op = .atom op ty) (hm : s.mayAtom f n p = false) : exec (.atomicPointEvent id n) s = .next s.settle := by
  show execAtomicPointEvent id n s = _
  rw [execAtomicPointEvent, State.onPart_run hf hp hd]
  simp only [hop, hm, Bool.not_false, if_true]

/-- The lane's read and write at its point (R155, R282). -/
theorem execAtomicPoint_performs {op : AtOp} {ty : Ty} (hf : s.flight id = some f) (hp : f.part n = some p) (hd : p.done = false)
    (hop : f.op = .atom op ty) (hm : s.mayAtom f n p = true) (hu : id ∉ s.ueCmds) (hr : s.reaches f p.key = true)
    (room : ∀ k, s.partSlice f p = some k → s.room k (.part f.id n)) (hs : s.Sound) :
    ∃ v : State, exec (.atomicPointEvent id n) s = .next v.settle ∧ v.ctxs = s.ctxs ∧
      v.mem = Tab.setMany Memory.unlisted s.mem (keyed p.key (leBytes p.len (atomNew op ty (s.word p.key p.len) p.a p.b))) ∧
      (v.flight id).map Flight.plain = some (f.setPart n { p with done := true, res := s.word p.key p.len }).plain := by
  obtain ⟨t, enter, entered⟩ := State.enterSlice_room room
  have entry : s.badEntry f = false := by simpa [State.badEntry, State.flight_id hf] using hu
  obtain ⟨applied, mem⟩ := State.point_leaves (entered.sound hs) f p (keysOf p.key p.len) p.key p.len
    (atomNew op ty (s.word p.key p.len) p.a p.b)
  have found := applied.flight id f ((entered.flight id).trans hf) (by rw [hop]; rfl)
  have run : exec (.atomicPointEvent id n) s = .next ((((t.writeOr f.asid (keyed p.key (wordBytes p.len
      (atomNew op ty (s.word p.key p.len) p.a p.b)))).atomAccess f p (keysOf p.key p.len)).dropCopy f p).setFlight
        ((f.note p).setPart n { p with done := true, res := s.word p.key p.len })).settle := by
    show execAtomicPointEvent id n s = _
    rw [execAtomicPointEvent, State.onPart_run hf hp hd]
    simp only [hop, hm, entry, hr, enter, (entered.sound hs).badBytes, entered.word, Bool.not_true, Bool.false_eq_true, if_false]
  refine ⟨_, run, applied.ctxs.trans entered.ctxs, by rw [← entered.mem]; exact mem, State.plain_setFlight_note found n p _⟩

/-- CNTADD at its point (R161). -/
theorem execCntadd_performs {err : Bool} (hc : ∀ u ∈ s.ctrUps, u.id ≠ id) (hf : s.flight id = some f) (hp : f.parts = [p])
    (hd : p.done = false) (hop : f.op = .cntadd err) (hu : id ∉ s.ueCmds) (hsent : sent f p = true) (hready : s.ready f p = true)
    (room : ∀ k, s.partSlice f p = some k → s.room k (.part f.id 0)) (hr : s.reaches f p.key = true) (hs : s.Sound) :
    ∃ v : State, exec (.counterUpdate id) s = .next v.settle ∧ v.ctxs = s.ctxs ∧
      v.mem = Tab.setMany Memory.unlisted s.mem
        (keyed p.key (leBytes 8 (ctrNew (if err then .err p.a else .add p.a) (s.word p.key 8)))) ∧
      (v.flight id).map Flight.plain = some (f.setPart 0 { p with done := true }).plain := by
  obtain ⟨t, enter, entered⟩ := State.enterSlice_room room
  have entry : s.badEntry f = false := by simpa [State.badEntry, State.flight_id hf] using hu
  obtain ⟨applied, mem⟩ := State.point_leaves (entered.sound hs) f p (keysOf p.key 8) p.key 8
    (ctrNew (if err then .err p.a else .add p.a) (s.word p.key 8))
  have found := applied.flight id f ((entered.flight id).trans hf) (by rw [hop]; rfl)
  have run : exec (.counterUpdate id) s = .next ((((t.writeOr f.asid (keyed p.key (wordBytes 8
      (ctrNew (if err then .err p.a else .add p.a) (s.word p.key 8))))).atomAccess f p (keysOf p.key 8)).dropCopy f p).setFlight
        ((f.note p).setPart 0 { p with done := true })).settle := by
    have noUpdate : s.ctrUps.find? (fun u => u.id = id) = none :=
      List.find?_eq_none.mpr fun u hu => by simpa using hc u hu
    show execCounterUpdate id s = _
    rw [execCounterUpdate, noUpdate]
    simp only [State.onFlight_run hf hp hd, hop, State.cntAddEvent, hsent, hready, entry, hr, enter,
      (entered.sound hs).badBytes, entered.word, Bool.not_true, Bool.false_eq_true, or_self, if_false]
  refine ⟨_, run, applied.ctxs.trans entered.ctxs, by rw [← entered.mem]; exact mem, State.plain_setFlight_note found 0 p _⟩

/-! At a word in the host (R285). -/

/-- The host performed the lane's operation on the value that it held. -/
theorem execHostAtomic_success {op : AtOp} {ty : Ty} (hf : s.flight id = some f) (hp : f.part n = some p) (hd : p.done = false)
    (hop : f.op = .atom op ty) (host : isHost p.key = true) (turn : f.hostTurn n = true) (hready : s.ready f p = true)
    (hu : id ∉ s.ueCmds) (old : Word) :
    ∃ v : State, exec (.hostAtomicCompletion id n (.success old)) s = .next v.settle ∧ v.ctxs = s.ctxs ∧
      v.mem = Tab.setMany Memory.unlisted s.mem
        (keyed p.key (leBytes p.len (atomNew op ty (old.toNat % 2 ^ ty.bits) p.a p.b))) ∧
      v.flight id = some (f.setPart n { p with done := true, res := old.toNat % 2 ^ ty.bits }) := by
  have entry : s.badEntry f = false := by simpa [State.badEntry, State.flight_id hf] using hu
  let wrote := s.setBytes (keyed p.key (wordBytes p.len (atomNew op ty (old.toNat % 2 ^ ty.bits) p.a p.b)))
  let after := f.setPart n { p with done := true, res := old.toNat % 2 ^ ty.bits }
  have found : wrote.flight id = some f := hf
  have same : after.id = id := (show f.id = id from State.flight_id hf)
  refine ⟨wrote.setFlight after, ?_, rfl, rfl, State.flight_setFlight_self found same⟩
  show execHostAtomicCompletion id n (.success old) s = _
  rw [execHostAtomicCompletion, State.onPart_run hf hp hd]
  simp only [hop, host, turn, hready, entry, Bool.not_true, Bool.false_eq_true, or_self, if_false]
  rfl

/-- The host did not perform it: the instruction traps, and its lanes sent to points in the device go on there. -/
theorem execHostAtomic_refused {op : AtOp} {ty : Ty} (hf : s.flight id = some f) (hp : f.part n = some p) (hd : p.done = false)
    (hop : f.op = .atom op ty) (host : isHost p.key = true) (turn : f.hostTurn n = true) (hready : s.ready f p = true)
    (hu : id ∉ s.ueCmds) {st : HostStatus} (hst : st = .unsupported ∨ st = .abort) :
    exec (.hostAtomicCompletion id n st) s = .next (s.trapLeaving f (tProt p.va 5)
      (f.parts.filter (fun q => !isHost q.key && sent f q && s.ready f q))).settle := by
  have entry : s.badEntry f = false := by simpa [State.badEntry, State.flight_id hf] using hu
  show execHostAtomicCompletion id n st s = _
  rw [execHostAtomicCompletion, State.onPart_run hf hp hd]
  obtain rfl | rfl := hst <;>
    simp only [hop, host, turn, hready, entry, State.lanesLeft, Bool.not_true, Bool.false_eq_true, or_self, if_false]

end

/-! Updates of engines, schedulers and ports (R275, R279). -/

theorem State.keepPlace_rest (s : State) (w : Who) (p : Place) : { s.keepPlace w p with dies := s.dies, cores := s.cores } = s := by
  unfold State.keepPlace
  split
  · rfl
  · unfold State.keepXlat
    split <;> rfl

/-- An update that its slices have taken, and its translation kept. -/
def State.updateTaken (s : State) (u : CtrUp) (pl : Place) (ks : List Nat) : State :=
  (((ks.foldl (fun t k => t.takeEntry k (.update u.id) u.port) s).setHold (.update u.id) .none).dropUpdate u).keepPlace u.access pl

theorem State.updateTaken_rest (s : State) (u : CtrUp) (pl : Place) (ks : List Nat) :
    { s.updateTaken u pl ks with dies := s.dies, cores := s.cores, slices := s.slices } = s.dropUpdate u := by
  have kept := State.keepPlace_rest
    (((ks.foldl (fun t k => t.takeEntry k (.update u.id) u.port) s).setHold (.update u.id) .none).dropUpdate u) u.access pl
  rw [State.takeEntries_eq] at kept
  have dropped : (s.ctrUps.map (fun v => if v.id = u.id then { v with hold := .none } else v)).filter (fun v => v.id ≠ u.id) =
      s.ctrUps.filter (fun v => v.id ≠ u.id) := by
    induction s.ctrUps with
    | nil => rfl
    | cons v l ih => by_cases h : v.id = u.id <;> simp_all
  rw [State.updateTaken, State.takeEntries_eq]
  refine (congrArg (fun x : State => { x with dies := s.dies, cores := s.cores, slices := s.slices }) kept :).trans ?_
  simp only [State.dropUpdate, State.setHold, dropped]

/-- One update at the word's atomic point. -/
theorem State.ctrPut_sound {s : State} (hs : s.Sound) (u : CtrUp) (k : Nat) :
    ∃ v, s.ctrPut u k = .ok v ∧ v.ctrUps = s.ctrUps ∧
      v.mem = Tab.setMany Memory.unlisted s.mem (keyed k (leBytes 8 (ctrNew u.act (s.word k 8)))) := by
  obtain ⟨t, run, wrote, mem⟩ := State.writeHome_sound hs u.asid (keyed k (wordBytes 8 (ctrNew u.act (s.word k 8))))
  have read := Accessed.touch (wrote.sound hs) u.asid [⟨u.va, k, 8⟩] false .normal
  have write := Accessed.touch (read.sound (wrote.sound hs)) u.asid [⟨u.va, k, 8⟩] true .normal
  have both := read.trans write
  exact ⟨_, by rw [State.ctrPut, run], both.ctrUps.trans wrote.ctrUps, both.mem.trans mem⟩

theorem execCtrUpdate_performs {s : State} {u : CtrUp} {pl : Place} (hf : s.ctrUps.find? (fun x => x.id = u.id) = some u)
    (may : s.mayUpdate u = true) (place : s.ctrPlace u = .ok pl)
    (room : ∀ k ∈ s.pieceSlices u.asid [⟨u.va, pl.key, 8⟩], s.room k (.update u.id))
    (send : s.maySend u.hold u.port (.update u.id) (s.pieceSlices u.asid [⟨u.va, pl.key, 8⟩]) = true) (hs : s.Sound) :
    ∃ v : State, exec (.counterUpdate u.id) s = .next (v.ctrAfter u).settle ∧
      v.mem = Tab.setMany Memory.unlisted s.mem (keyed pl.key (leBytes 8 (ctrNew u.act (s.word pl.key 8)))) ∧
      v.ctrUps = s.ctrUps.filter (fun x => x.id ≠ u.id) := by
  generalize hk : s.pieceSlices u.asid [⟨u.va, pl.key, 8⟩] = ks at room send
  let taken := s.updateTaken u pl ks
  have rest := s.updateTaken_rest u pl ks
  have mem : taken.mem = s.mem := (congrArg State.mem rest :)
  have sound : taken.Sound := hs.congr (congrArg State.checkDiff rest :) (congrArg State.stale rest :)
    (congrArg State.ueSectors rest :) (congrArg State.cycle rest :)
  obtain ⟨v, put, ups, bytes⟩ := State.ctrPut_sound sound u pl.key
  have admitted : ks.find? (fun k => !s.admits k (.update u.id)) = none :=
    List.find?_eq_none.mpr fun k hk => by simp [State.admits_of_room (room k hk)]
  refine ⟨v, ?_, ?_, ups.trans (congrArg State.ctrUps rest :)⟩
  · show execCounterUpdate u.id s = _
    simp only [execCounterUpdate, hf, may, State.ctrApply, place, hk, send, State.enterSlices, admitted, State.ctrWrite, if_true,
      Bool.not_true, Bool.false_eq_true, if_false]
    simp only [taken, State.updateTaken] at put
    rw [put]
  · rw [bytes, State.word_congr mem, mem]

/-! The obligation. -/

/-- Settles O40: a point's access, bytes and lost copies leave the operation's answer alone, and the word is read back. -/
theorem atomicPointsAndCounters : Obligations.AtomicPointsAndCounters := by
  unfold Obligations.AtomicPointsAndCounters
  intro s rule counted outside room
  have ruled (op : AtOp) (ty : Ty) (w a b : Nat) : atomNew op ty w a b = rule op ty w a b := by cases op <;> rfl
  have counts (act : CtrAct) (w : Nat) : ctrNew act w = counted act w := by
    cases act with
    | add n => rfl
    | err c => simp [ctrNew, counted, bitAt]
  refine ⟨fun id n f p op ty hf hp hd hop host => ⟨fun earlier => ?_, fun turn hu hsent hready hroom hr hs => ?_⟩,
    fun id n f p op ty hf hp hd hop host turn hready hu => ⟨fun old => ?_, fun st hst => ?_⟩,
    fun id f p err hc hf hp hd hop hu hsent hready hroom hr hs => ?_, fun u pl hf may place hroom send hs => ?_⟩
  · refine execAtomicPoint_waits hf hp hd hop ?_
    obtain ⟨q, hq, open_, same⟩ := earlier
    have late : f.laneTurn n p = false := Bool.eq_false_iff.mpr fun h => by simpa [open_, same] using (f.laneTurn_iff n p).mp h q hq
    simp [State.mayAtom, late]
  · have may : s.mayAtom f n p = true := by simp [State.mayAtom, host, hsent, hready, (f.laneTurn_iff n p).mpr turn]
    obtain ⟨v, run, ctxs, mem, took⟩ := execAtomicPoint_performs hf hp hd hop may hu hr hroom hs
    obtain ⟨word, beside⟩ := State.word_of_write mem
    exact ⟨v, run, ctxs, beside, by rw [word, ruled], took⟩
  · obtain ⟨v, run, ctxs, mem, took⟩ := execHostAtomic_success hf hp hd hop host turn hready hu old
    obtain ⟨word, beside⟩ := State.word_of_write mem
    exact ⟨v, run, ctxs, beside, by rw [word, ruled], took⟩
  · exact execHostAtomic_refused hf hp hd hop host turn hready hu hst
  · obtain ⟨v, run, ctxs, mem, took⟩ := execCntadd_performs hc hf hp hd hop hu hsent hready hroom hr hs
    obtain ⟨word, beside⟩ := State.word_of_ctrNew mem
    exact ⟨v, run, ctxs, beside, by rw [word, counts], took⟩
  · obtain ⟨v, run, mem, ups⟩ := execCtrUpdate_performs hf may place hroom send hs
    obtain ⟨word, beside⟩ := State.word_of_ctrNew mem
    exact ⟨v, run, beside, by rw [word, counts], ups⟩

end Sys2Proof.Machine
end

section
/-! PROOF. Stores, SCAT and FEMARK at their homes (R133, R140, R141, R149, R217, R222). -/

namespace Sys2Proof.Machine

/-! The last value of each byte. -/

theorem lastBytes_nodup (l : List (Nat × Byte)) : ((lastBytes l).map (fun e => e.1)).Nodup := by
  rw [lastBytes, List.map_map]
  exact (List.nodup_dedup _).map fun _ _ h => h

theorem lastBytes_key {l : List (Nat × Byte)} {e : Nat × Byte} (h : e ∈ lastBytes l) : ∃ x ∈ l, x.1 = e.1 := by
  obtain ⟨k, hk, rfl⟩ := List.mem_map.mp h
  exact List.mem_map.mp (List.mem_dedup.mp hk)

theorem mem_lastBytes (l r : List (Nat × Byte)) (k : Nat) (b : Byte) (h : ∀ e ∈ r, e.1 ≠ k) :
    (k, b) ∈ lastBytes (l ++ (k, b) :: r) := by
  have none_ : r.reverse.lookup k = none :=
    List.lookup_eq_none_iff.mpr fun e he => by simpa using (h e (List.mem_reverse.mp he)).symm
  refine List.mem_map.mpr ⟨k, by simp, ?_⟩
  simp [List.lookup_append, none_]

/-! Lanes of a store on one line. -/

theorem State.mem_writeMates (s : State) (f : Flight) (line : Nat) {j : Nat} {q : Part} (hq : f.parts[j]? = some q) :
    j ∈ s.writeMates f line ↔ q.done = false ∧ q.key / 256 = line ∧ s.ready f q = true := by
  simp only [State.writeMates, List.mem_map, List.mem_filter, List.mem_zipIdx_iff_getElem?, Prod.exists, exists_eq_right, hq,
    Option.some.injEq]
  constructor
  · rintro ⟨x, rfl, h⟩
    simpa [and_assoc] using h
  · intro h
    exact ⟨q, rfl, by simpa [and_assoc] using h⟩

/-- The lanes that a store's event performs, in ascending order. -/
theorem State.writeMates_parts (s : State) (f : Flight) (line : Nat) :
    (f.parts.zipIdx.filter (fun x => x.2 ∈ s.writeMates f line)).map (fun x => x.1) =
      f.parts.filter (fun q => !q.done && q.key / 256 = line && s.ready f q) := by
  have named : f.parts.zipIdx.filter (fun x => x.2 ∈ s.writeMates f line) =
      f.parts.zipIdx.filter ((fun q => !q.done && q.key / 256 = line && s.ready f q) ∘ fun x => x.1) := by
    refine List.filter_congr fun x hx => ?_
    have mem := s.mem_writeMates f line (List.mem_zipIdx_iff_getElem?.mp hx)
    rw [Bool.eq_iff_iff, decide_eq_true_iff, mem]
    simp [and_assoc]
  rw [named, ← List.filter_map, List.zipIdx_map_fst]

/-- One lane's bytes, which the watches of their words test before the next lane's. -/
def State.writeLane (s : State) (p : Part) : State := (s.setBytes p.bytes).retest (p.bytes.map (fun e => e.1))

theorem State.writeLanes_each (ps : List Part) (s : State) :
    Wrote s (ps.foldl State.writeLane s) ∧
      ∀ k, (∀ e ∈ ps.flatMap (fun p => p.bytes), e.1 ≠ k) → (ps.foldl State.writeLane s).byte k = s.byte k := by
  induction ps generalizing s with
  | nil => exact ⟨.refl s, fun _ _ => rfl⟩
  | cons p ps ih =>
    obtain ⟨wrote, other⟩ := ih (s.writeLane p)
    refine ⟨((Wrote.setBytes s p.bytes).trans (.retest _ _)).trans wrote, fun k hk => ?_⟩
    rw [List.flatMap_cons, List.forall_mem_append] at hk
    exact (other k hk.2).trans (Tab.get_setMany_ne _ _ hk.1)

/-- A store's lanes in ascending order leave each byte with its last lane's value. -/
theorem State.writeLanes_sound {s : State} (hs : s.Sound) (asid : Nat) (ps : List Part) :
    ∃ t, s.writeLanes asid ps = .ok t ∧ Wrote s t ∧ Stored s t (lastBytes (ps.flatMap (fun p => p.bytes))) := by
  obtain ⟨first, run, -⟩ := State.writeHome_sound hs asid (lastBytes (ps.flatMap (fun p => p.bytes)))
  obtain ⟨lanes, other⟩ := State.writeLanes_each ps s
  obtain ⟨t, last, wrote, mem⟩ := State.writeHome_sound (lanes.sound hs) asid (lastBytes (ps.flatMap (fun p => p.bytes)))
  have stored := Stored.of_mem mem (lastBytes_nodup _)
  refine ⟨t, ?_, lanes.trans wrote, stored.at_, fun k hk => (stored.other k hk).trans (other k fun e he q => ?_)⟩
  · rw [State.writeLanes, run]
    exact last
  · refine hk (k, _) (List.mem_map.mpr ⟨k, List.mem_dedup.mpr ?_, rfl⟩) rfl
    exact List.mem_map.mpr ⟨e, he, q⟩

/-- The writing die's own Mirror copy, where a write changes it. -/
theorem Applied.ownCopy_if (s : State) (b : Bool) (d line : Nat) (l : Option (Nat × List (Nat × Byte))) :
    Applied s (if b then s.ownCopy d line l else s) := by
  cases b with
  | false => exact (Accessed.refl s).applied
  | true => exact .ownCopy s d line l

theorem State.ownCopy_if_mem (s : State) (b : Bool) (d line : Nat) (l : Option (Nat × List (Nat × Byte))) :
    (if b then s.ownCopy d line l else s).mem = s.mem := by
  cases b <;> rfl

/-- t is s after a store's event: its lanes on p's line performed, each byte with its last lane's value, and nothing beside. -/
structure StoreLeft (s : State) (f : Flight) (p : Part) (t : State) : Prop where
  ctxs : t.ctxs = s.ctxs
  emptyTags : t.emptyTags = s.emptyTags
  sound : t.Sound
  stored : Stored s t
    (lastBytes ((f.parts.filter (fun q => !q.done && q.key / 256 = p.key / 256 && s.ready f q)).flatMap (fun q => q.bytes)))
  flight : ∃ h : Flight, t.flight f.id = some h ∧ h.hostPend = (f.hostPend || isHost p.key) ∧
    ∀ (j : Nat) (q : Part), f.parts[j]? = some q →
      (q.done = false ∧ q.key / 256 = p.key / 256 ∧ s.ready f q = true → h.parts[j]? = some { q with done := true, res := 0 }) ∧
      (¬(q.done = false ∧ q.key / 256 = p.key / 256 ∧ s.ready f q = true) → h.parts[j]? = some q)

theorem State.storeLine_left {s : State} {n : Nat} {f : Flight} {p : Part} (hf : s.flight f.id = some f) (hop : f.op = .store)
    (hs : s.Sound) (room : ∀ k, s.partSlice f p = some k → s.room k (.part f.id n)) : StoreLeft s f p (s.storeLine f n p) := by
  obtain ⟨t, enter, entered⟩ := State.enterSlice_room room
  obtain ⟨w, lanes, wrote, stored⟩ := State.writeLanes_sound (entered.sound hs) f.asid
    (f.parts.filter (fun q => !q.done && q.key / 256 = p.key / 256 && s.ready f q))
  have before : Stored s w _ := ⟨stored.at_, fun k hk => (stored.other k hk).trans (State.byte_congr entered.mem k)⟩
  let g := { (f.note p).perform (t.writeMates f (p.key / 256)) (fun _ => 0) with hostPend := (f.note p).hostPend || isHost p.key }
  have same : g.id = f.id := f.note_id p
  have pend : g.hostPend = (f.hostPend || isHost p.key) := by
    rw [show f.hostPend = (f.note p).hostPend from (congrArg Flight.hostPend (f.note_plain p) :).symm]
  have took := (Flight.took_perform (f.note_plain p) (fun _ => 0) fun j q hq => t.mem_writeMates f (p.key / 256) hq).2.2
  simp only [entered.ready] at took
  have left (keys : List Nat) (b : Bool) (d : Nat) (l : Option (Nat × List (Nat × Byte))) : StoreLeft s f p
      ((if b then (w.homeAccess f p keys true f.hint).ownCopy d (p.key / 256) l
        else w.homeAccess f p keys true f.hint).setFlight g) := by
    have access := Accessed.homeAccess (wrote.sound (entered.sound hs)) f p keys true f.hint
    have applied := (entered.applied.trans wrote.applied).trans (access.applied.trans (.ownCopy_if _ b d (p.key / 256) l))
    have mem := (State.ownCopy_if_mem (w.homeAccess f p keys true f.hint) b d (p.key / 256) l).trans access.mem
    have found := applied.flight f.id f hf (by rw [hop]; rfl)
    exact ⟨applied.ctxs, applied.emptyTags, applied.sound hs, before.congr mem, g, State.flight_setFlight_self found same, pend,
      took⟩
  unfold State.storeLine
  simp only [enter, State.writeMates_parts, entered.ready, lanes]
  exact left _ _ _ _

section

variable {s : State} {id n : Nat} {f : Flight} {p : Part} (hf : s.flight id = some f) (hp : f.part n = some p)
  (hd : p.done = false)
include hf hp hd

/-- An uncorrectable error in the operation's queue entry is consumed in place of the write (R358). -/
theorem execHomeWrite_fails (may : s.mayWrite f n p = true) (hu : id ∈ s.ueCmds) :
    exec (.homeWrite id n) s = .next (State.discardFor { s with ueCmds := s.ueCmds.filter (fun x => x ≠ id) } 1 (coreDie f.core)
      0xFF f.region f.asid scratchBase 0 f.fdom).settle := by
  have same := State.flight_id hf
  have entry : s.badEntry f = true := by simpa [State.badEntry, same] using hu
  show execHomeWrite id n s = _
  rw [execHomeWrite, State.onPart_run hf hp hd]
  simp only [may, entry, State.failEntry, same, Bool.not_true, Bool.false_eq_true, if_false, if_true]

/-- A write with its entry sound, at a home that it reaches. -/
theorem execHomeWrite_clear (may : s.mayWrite f n p = true) (hu : id ∉ s.ueCmds) (hr : s.reaches f p.key = true) :
    (f.op = .store → exec (.homeWrite id n) s = .next (s.storeLine f n p).settle) ∧
      (∀ full, f.op = .femark full → exec (.homeWrite id n) s = .next (s.markNext f n p full).settle) ∧
      ∀ ty rnd z, f.op = .scat ty rnd z → exec (.homeWrite id n) s = .next (s.scatLane f n p ty rnd z).settle := by
  have entry : s.badEntry f = false := by simpa [State.badEntry, State.flight_id hf] using hu
  have run : exec (.homeWrite id n) s = execHomeWrite id n s := rfl
  rw [execHomeWrite, State.onPart_run hf hp hd] at run
  simp only [may, entry, hr, Bool.not_true, Bool.false_eq_true, if_false] at run
  exact ⟨fun h => by rw [run, h], fun full h => by rw [run, h], fun ty rnd z h => by rw [run, h]⟩

end

/-! FEMARK (R149). -/

theorem State.markNext_eq (s : State) (f : Flight) (n : Nat) (p : Part) (full : Bool) :
    s.markNext f n p full = if full then
        (s.setFlight (f.setPart n
          { p with a := p.a + 1, done := decide (p.len ≤ 16 * (p.a + 1)) })).fillGranule (granule p.key + p.a)
      else { s.setFlight (f.setPart n { p with a := p.a + 1, done := decide (p.len ≤ 16 * (p.a + 1)) }) with
        emptyTags := Tab.set false s.emptyTags (granule p.key + p.a) true } := by
  cases full with
  | true => rfl
  | false =>
    have same : granule (16 * (granule p.key + p.a)) = granule p.key + p.a := Nat.mul_div_cancel_left _ (by decide)
    simp only [State.markNext, State.setTag, same, Bool.false_eq_true, if_false, Bool.not_false]
    rfl

/-! SCAT (R141). -/

theorem State.orFlags_note (s : State) (f : Flight) (p : Part) (fl : Flags) : s.orFlags (f.note p) fl = s.orFlags f fl := by
  unfold Flight.note
  split <;> rfl

theorem State.orFlags_rest (s : State) (f : Flight) (fl : Flags) : { s.orFlags f fl with ctxs := s.ctxs } = s := by
  unfold State.orFlags
  dsimp only
  split <;> rfl

/-- Flags reach the context that issued the operation while its task runs there and it is live, and no other. -/
theorem State.orFlags_ctx (s : State) (f : Flight) (fl : Flags) :
    let lives := (s.owner f.core).1 = f.uid ∧ (s.core f.core).task.isSome = true ∧ (s.ctx (ctxId f.core f.ctx)).run ≠ .free
    (lives → (s.orFlags f fl).ctx (ctxId f.core f.ctx) =
        { s.ctx (ctxId f.core f.ctx) with flags := (s.ctx (ctxId f.core f.ctx)).flags.or fl }) ∧
      (¬lives → (s.orFlags f fl).ctx (ctxId f.core f.ctx) = s.ctx (ctxId f.core f.ctx)) ∧
      ∀ c, c ≠ ctxId f.core f.ctx → (s.orFlags f fl).ctx c = s.ctx c := by
  intro lives
  unfold State.orFlags
  by_cases h : lives
  · rw [if_pos h]
    exact ⟨fun _ => State.ctx_setCtx_self .., fun n => absurd h n, fun c hc => State.ctx_setCtx_ne _ _ hc⟩
  · rw [if_neg h]
    exact ⟨fun y => absurd y h, fun _ => rfl, fun _ _ => rfl⟩

/-- The bytes of a block that a changed value of it changes. -/
def changedBytes (k new old : Nat) : List (Nat × Byte) :=
  ((List.range 64).filter (fun j => blkByte new j ≠ blkByte old j)).map (fun j => (k + j, BitVec.ofNat 8 (blkByte new j)))

/-- Memory with a block's changed bytes written holds the new block, and the old bytes beside it. -/
theorem State.block_of_changed {s t : State} {k new : Nat}
    (h : t.mem = Tab.setMany Memory.unlisted s.mem (changedBytes k new (s.word k 64))) :
    (∀ j, j < 64 → t.byte (k + j) = BitVec.ofNat 8 (blkByte new j)) ∧ ∀ i, i < k ∨ k + 64 ≤ i → t.byte i = s.byte i := by
  have nodup : ((changedBytes k new (s.word k 64)).map (fun e => e.1)).Nodup := by
    rw [changedBytes, List.map_map]
    exact (List.nodup_range.filter _).map fun _ _ e => Nat.add_left_cancel e
  have stored := Stored.of_mem h nodup
  constructor
  · intro j hj
    by_cases same : blkByte new j = blkByte (s.word k 64) j
    · rw [same, ← s.byte_of_word hj]
      refine stored.other _ fun e he q => ?_
      obtain ⟨i, hi, rfl⟩ := List.mem_map.mp he
      obtain rfl : i = j := Nat.add_left_cancel q
      simp [same] at hi
    · exact stored.at_ (k + j, _) (List.mem_map.mpr ⟨j, by simp [hj, same], rfl⟩)
  · intro i hi
    refine stored.other _ fun e he q => ?_
    obtain ⟨j, hj, rfl⟩ := List.mem_map.mp he
    have := List.mem_range.mp (List.mem_of_mem_filter hj)
    dsimp only at q
    omega

section

variable {s t : State} {f : Flight} {n : Nat} {p : Part} {ty : Ty} {rnd : Rnd} {z : Bool}

/-- A lane whose block does not hold its element leaves memory and flags. -/
theorem State.scatLane_none (enter : s.enterSlice f n p = (true, t)) (ht : t.Sound)
    (hb : scatBlock ty rnd z p (t.word p.key 64) = none) :
    s.scatLane f n p ty rnd z = t.setFlight (f.setPart n { p with done := true }) := by
  simp only [State.scatLane, enter, ht.badBytes, hb]

/-- A lane whose block holds its element changes the block, and its flags are known. -/
theorem State.scatLane_some {r : BlkRes}
    (enter : s.enterSlice f n p = (true, t)) (entered : Accessed s t) (hs : s.Sound)
    (hb : scatBlock ty rnd z p (s.word p.key 64) = some r) :
    ∃ u : State, s.scatLane f n p ty rnd z = (u.orFlags f r.fl).setFlight ((f.note p).setPart n { p with done := true }) ∧
      Applied s u ∧ u.mem = Tab.setMany Memory.unlisted s.mem (changedBytes p.key r.blk (s.word p.key 64)) := by
  obtain ⟨wrote, mem⟩ := State.writeOr_sound (entered.sound hs) f.asid (changedBytes p.key r.blk (s.word p.key 64))
  have access := Accessed.homeAccess (wrote.sound (entered.sound hs)) f p [p.key] true f.hint
  generalize hx : (t.writeOr f.asid (changedBytes p.key r.blk (s.word p.key 64))).homeAccess f p [p.key] true f.hint = x at access
  have left (b : Bool) (d : Nat) (l : Option (Nat × List (Nat × Byte))) :
      Applied s (if b then x.ownCopy d (p.key / 256) l else x) ∧ (if b then x.ownCopy d (p.key / 256) l else x).mem =
        Tab.setMany Memory.unlisted s.mem (changedBytes p.key r.blk (s.word p.key 64)) :=
    ⟨(entered.applied.trans wrote.applied).trans (access.applied.trans (.ownCopy_if _ b d (p.key / 256) l)),
      (State.ownCopy_if_mem _ b d (p.key / 256) l).trans (access.mem.trans (mem.trans (by rw [entered.mem])))⟩
  simp only [State.scatLane, enter, (entered.sound hs).badBytes, entered.word, hb, State.orFlags_note]
  subst hx
  exact ⟨_, rfl, left _ _ _⟩

end

end Sys2Proof.Machine
end

section
/-! PROOF. Confirmation of host stores and posted packets by a zero-length read (R240, R306). -/

namespace Sys2Proof.Machine

/-- A packet that lands leaves memory. -/
theorem State.landed_mem (s : State) (c : CopyCmd) (k : Packet) : (s.landed c k).mem = s.mem := by
  rw [State.landed, State.countCopy]
  by_cases h : c.counter = 0
  · rw [if_pos h]
    simp [State.copySettle, State.copyRetire, State.freePower, State.dropPacket]
  · rw [if_neg h]
    rfl

/-- It leaves the packets of its core, and no other does. -/
theorem State.landed_packets (s : State) (c : CopyCmd) (k : Packet) (d : Nat) :
    ((s.landed c k).core d).packets =
      if d = c.core then (s.core d).packets.filter (fun q => q.id ≠ k.id) else (s.core d).packets := by
  have settled (t : State) (id : Nat) : ((t.copySettle c.core id).core d).packets = (t.core d).packets := by
    simp only [State.copySettle, State.copyRetire, State.freePower, State.modDie_eq, State.modCore_eq, State.core_setDie,
      State.core_setCore]
    split <;> simp_all
  have counted (t : State) : ((t.countCopy c).core d).packets = (t.core d).packets := by
    unfold State.countCopy
    split
    · exact settled t c.id
    · rfl
  rw [State.landed, counted, State.dropPacket, State.modCore_eq, State.core_setCore]
  split <;> simp_all

/-- A landed packet of a command with a counter sets its update out (R193). -/
theorem State.landed_ctrUps {s : State} {c : CopyCmd} (k : Packet) (h : c.counter ≠ 0) :
    (s.landed c k).ctrUps = s.ctrUps ++ [{ c.update (.add 1) with id := s.nextId }] := by
  rw [State.landed, State.countCopy, if_neg h]
  rfl

/-- The posted packets of one core that a port's confirmation lands. -/
def State.landCore (port : Nat) (s : State) (core : Nat) : State :=
  (s.core core).packets.foldl (fun t p =>
    match t.copy core p.cmd with
    | none => t
    | some c => if p.stage = .hostPosted ∧ (isHost p.dstKey ↔ port = 0) then t.landed c p else t) s

theorem State.landPosted_eq (s : State) (port : Nat) : s.landPosted port = s.coreNums.foldl (State.landCore port) s := rfl

theorem State.landCore_of_empty {s : State} {c : Nat} (port : Nat) (h : (s.core c).packets = []) : s.landCore port c = s := by
  rw [State.landCore, h]
  rfl

theorem State.landCores_of_empty {s : State} (port : Nat) (h : ∀ c, (s.core c).packets = []) (l : List Nat) :
    l.foldl (State.landCore port) s = s := by
  induction l with
  | nil => rfl
  | cons c l ih => rw [List.foldl_cons, State.landCore_of_empty port (h c), ih]

theorem State.landPosted_mem (s : State) (port : Nat) : (s.landPosted port).mem = s.mem := by
  have packet (l : List Packet) (core : Nat) (t : State) : (l.foldl (fun t p =>
      match t.copy core p.cmd with
      | none => t
      | some c => if p.stage = .hostPosted ∧ (isHost p.dstKey ↔ port = 0) then t.landed c p else t) t).mem = t.mem := by
    induction l generalizing t with
    | nil => rfl
    | cons p l ih =>
      rw [List.foldl_cons, ih]
      split
      · rfl
      · split
        · exact State.landed_mem t _ p
        · rfl
  have cores (l : List Nat) (t : State) : (l.foldl (State.landCore port) t).mem = t.mem := by
    induction l generalizing t with
    | nil => rfl
    | cons c l ih => rw [List.foldl_cons, ih, State.landCore, packet]
  exact cores s.coreNums s

/-- Where one core has one packet, posted over the port, and no other core has any, the confirmation lands that packet. -/
theorem State.landCores_one {s : State} {port c : Nat} {k : Packet} {m : CopyCmd} {l : List Nat} (hc : c ∈ l)
    (hk : (s.core c).packets = [k]) (others : ∀ d, d ≠ c → (s.core d).packets = []) (hm : s.copy c k.cmd = some m)
    (hcore : m.core = c) (posted : k.stage = .hostPosted) (ofPort : isHost k.dstKey = true ↔ port = 0) :
    l.foldl (State.landCore port) s = s.landed m k := by
  have gone (d : Nat) : ((s.landed m k).core d).packets = [] := by
    rw [State.landed_packets, hcore]
    split
    · subst d
      simp [hk]
    · exact others d ‹_›
  induction l with
  | nil => cases hc
  | cons d l ih =>
    rw [List.foldl_cons]
    by_cases h : d = c
    · have land : s.landCore port d = s.landed m k := by
        rw [h, State.landCore, hk, List.foldl_cons, hm]
        exact if_pos ⟨posted, ofPort⟩
      rw [land, State.landCores_of_empty port gone]
    · rw [State.landCore_of_empty port (others d h)]
      exact ih ((List.mem_cons.mp hc).resolve_left (Ne.symm h))

/-- Posted stores are confirmed. -/
theorem State.confirmHost_hostPend {s : State} {f : Flight} (h : f ∈ s.confirmHost.flights) (done : f.allDone = true) :
    f.hostPend = false := by
  obtain ⟨g, -, rfl⟩ := List.mem_map.mp h
  by_cases all : g.allDone = true
  · simp [all]
  · rw [if_neg all] at done
    exact absurd done all

/-- What the confirmation leaves: its state before operations whose accesses are all performed end. -/
def State.confirmed (s : State) (port : Nat) : State := if port = 0 then (s.landPosted port).confirmHost else s.landPosted port

theorem execZeroLengthReadDone_down {s : State} {port : Nat} (h : s.linkDown (if port = 0 then 10 else 11) = true) :
    exec (.zeroLengthReadDone port) s = .next s := by
  show execZeroLengthReadDone port s = _
  exact congrArg Host.Outcome.next (if_pos h)

theorem execZeroLengthReadDone_up {s : State} {port : Nat} (h : ¬s.linkDown (if port = 0 then 10 else 11) = true) :
    exec (.zeroLengthReadDone port) s = .next (if port = 0 then (s.confirmed port).settle else s.confirmed port) := by
  show execZeroLengthReadDone port s = _
  refine (congrArg Host.Outcome.next (if_neg h)).trans (congrArg Host.Outcome.next ?_)
  by_cases host : port = 0 <;> simp [State.confirmed, host]

theorem State.confirmed_rest (s : State) (port : Nat) :
    { s.confirmed port with flights := (s.landPosted port).flights } = s.landPosted port := by
  unfold State.confirmed
  split <;> rfl

theorem State.confirmed_hostPend {s : State} {port : Nat} {f : Flight} (h : f ∈ (s.confirmed port).flights) (host : port = 0)
    (done : f.allDone = true) : f.hostPend = false := by
  rw [State.confirmed, if_pos host] at h
  exact State.confirmHost_hostPend h done

end Sys2Proof.Machine
end

section
/-! PROOF. The obligation about writes at their homes. -/

namespace Sys2Proof.Machine

/-- Settles O39: a store's lanes leave the last value of each byte, SCAT its block and FEMARK its tag, and a confirmation lands its
port's packets. -/
theorem writesPerformAtTheirHomes : Obligations.WritesPerformAtTheirHomes := by
  unfold Obligations.WritesPerformAtTheirHomes
  intro s
  refine ⟨fun id n f p hf hp hd may => ⟨execHomeWrite_fails hf hp hd may, fun hu hr hs room => ?_⟩, fun port => ?_⟩
  · intro mate bs
    obtain rfl := State.flight_id hf
    obtain ⟨runStore, runMark, runScat⟩ := execHomeWrite_clear hf hp hd may hu hr
    refine ⟨fun hop => ?_, fun full hop => ?_, fun ty rnd z hop _ => ?_⟩
    · obtain ⟨ctxs, tags, sound, stored, flight⟩ := State.storeLine_left (n := n) hf hop hs room
      refine ⟨_, runStore hop, ctxs, tags, fun x => ?_, fun k hk => stored.other k fun e he q => ?_, fun l r k b split last => ?_,
        flight⟩
      · obtain ⟨-, check, -⟩ := (Laws.badSector_eq_none_iff _ x).mp (sound x)
        exact check
      · obtain ⟨x, hx, key⟩ := lastBytes_key he
        exact hk x hx (key.trans q)
      · refine stored.at_ (k, b) ?_
        show (k, b) ∈ lastBytes bs
        rw [split]
        exact mem_lastBytes l r k b last
    · rw [runMark full hop, State.markNext_eq]
    · obtain ⟨t, enter, entered⟩ := State.enterSlice_room room
      cases hb : scatBlock ty rnd z p (s.word p.key 64) with
      | none =>
        have same := State.scatLane_none (ty := ty) (rnd := rnd) (z := z) enter (entered.sound hs) (by rw [entered.word, hb])
        have found : t.flight f.id = some f := (entered.flight f.id).trans hf
        refine ⟨_, runScat ty rnd z hop, ?_⟩
        rw [same]
        refine ⟨entered.emptyTags, ?_, fun k _ => State.byte_congr entered.mem k, fun _ => ⟨entered.mem, entered.ctxs⟩,
          fun r hr => nomatch hr⟩
        exact congrArg (Option.map Flight.plain) (State.flight_setFlight_self found (g := f.setPart n _) rfl)
      | some r =>
        obtain ⟨u, same, applied, mem⟩ := State.scatLane_some enter entered hs hb
        obtain ⟨inside, outside⟩ := State.block_of_changed mem
        have rest := u.orFlags_rest f r.fl
        have found : (u.orFlags f r.fl).flight f.id = some f := by
          rw [State.flight, (congrArg State.flights rest :)]
          exact applied.flight f.id f hf (by rw [hop]; rfl)
        have bytes := State.byte_congr (congrArg State.mem rest :)
        refine ⟨_, runScat ty rnd z hop, ?_⟩
        rw [same]
        refine ⟨(congrArg State.emptyTags rest :).trans applied.emptyTags, State.plain_setFlight_note found n p _,
          fun k hk => (bytes k).trans (outside k hk), fun no => (nomatch no), ?_⟩
        rintro _ ⟨rfl⟩
        refine ⟨fun j hj => (bytes _).trans (inside j hj), ?_⟩
        have kept := u.orFlags_ctx f r.fl
        have owner : u.owner f.core = s.owner f.core := by simp only [State.owner, applied.task]
        have ctx (c : Nat) : u.ctx c = s.ctx c := by simp only [State.ctx, applied.ctxs]
        simp only [owner, applied.task, ctx] at kept
        exact kept
  · intro down
    refine ⟨execZeroLengthReadDone_down, fun up => ?_⟩
    have rest := s.confirmed_rest port
    have mem : (s.confirmed port).mem = (s.landPosted port).mem := (congrArg State.mem rest :)
    have ups : (s.confirmed port).ctrUps = (s.landPosted port).ctrUps := (congrArg State.ctrUps rest :)
    have cores : (s.confirmed port).cores = (s.landPosted port).cores := (congrArg State.cores rest :)
    refine ⟨s.confirmed port, execZeroLengthReadDone_up up, mem.trans (s.landPosted_mem port), fun none_ => ?_,
      fun f hf host done => State.confirmed_hostPend hf host done, fun c k m hc hk others hm hcore posted ofPort => ?_⟩
    · rw [ups, State.landPosted_eq, State.landCores_of_empty port none_]
    · have landed := State.landCores_one hc hk others hm hcore posted ofPort
      rw [ups, State.core, cores, State.landPosted_eq, landed]
      refine ⟨?_, fun counter => ⟨_, State.landed_ctrUps k counter, rfl, rfl, rfl⟩⟩
      exact (State.landed_packets s m k c).trans (by simp [hcore, hk])

end Sys2Proof.Machine
end

section
/-! PROOF. A granule that becomes full serves its waiters in their order (R147, R148, R272). -/

namespace Sys2Proof.Machine

/-- The LDFs that wait at a granule. -/
def State.granuleWaits (s : State) (g : Nat) : List Flight :=
  s.flights.filter (fun f => f.parked.isSome && !f.allDone && isLdf f.op && f.parts.any (fun p => granule p.key = g))

/-- Operations are told apart by their numbers, waiters at a granule by their entry, and each waiter has one access, which it may
make. -/
structure State.WaitsWell (s : State) (g : Nat) : Prop where
  ids : ∀ a ∈ s.flights, ∀ b ∈ s.flights, a.id = b.id → a = b
  entries : ∀ a ∈ s.granuleWaits g, ∀ b ∈ s.granuleWaits g, a.parked = b.parked → a = b
  access : ∀ f ∈ s.granuleWaits g, ∃ p, f.parts = [p] ∧ s.reaches f p.key = true

theorem State.mem_granuleWaits {s : State} {g : Nat} {f : Flight} : f ∈ s.granuleWaits g ↔
    f ∈ s.flights ∧ f.parked.isSome = true ∧ f.allDone = false ∧ isLdf f.op = true ∧ ∃ p ∈ f.parts, granule p.key = g := by
  simp [State.granuleWaits, and_assoc]

/-- A waiter of .wfc entered before f. -/
def Flight.Behind (f : Flight) (l : List Flight) : Prop := ∃ h ∈ l, h.op = .ldf true ∧ h.parked.getD 0 < f.parked.getD 0

/-- f after its one access read its bytes. -/
def Flight.readAt (f : Flight) (s : State) (p : Part) : Flight :=
  { f with resendAt := none, parts := [{ p with done := true, res := s.word p.key p.len }] }

/-- t is s after its waiters at a full granule were served. -/
structure Served (s t : State) (g : Nat) : Prop where
  rest : { t with flights := s.flights, emptyTags := s.emptyTags } = s
  others : ∀ h, h ≠ g → t.tagFull (16 * h) = s.tagFull (16 * h)
  full : t.tagFull (16 * g) = true ↔ ∀ f ∈ s.granuleWaits g, f.op ≠ .ldf true
  kept : ∀ f ∈ s.flights, f ∉ s.granuleWaits g → t.flight f.id = some f
  behind : ∀ f ∈ s.granuleWaits g, f.Behind (s.granuleWaits g) → t.flight f.id = some f
  read : ∀ f ∈ s.granuleWaits g, ∀ p, f.parts = [p] → ¬f.Behind (s.granuleWaits g) → t.flight f.id = some (f.readAt s p)

theorem granule_mul (g : Nat) : granule (16 * g) = g := Nat.mul_div_cancel_left _ (by decide)

section

variable {s : State} {g : Nat} {f : Flight}

theorem State.WaitsWell.flight (hw : s.WaitsWell g) (hf : f ∈ s.flights) : s.flight f.id = some f := by
  cases e : s.flight f.id with
  | none => exact absurd (List.find?_eq_none.mp e f hf) (by simp)
  | some x => rw [hw.ids x (State.flight_mem e) f hf (State.flight_id e)]

/-- The waiter to be served next is the one that entered first. -/
theorem State.firstWaiter_spec (hw : s.WaitsWell g) :
    (s.granuleWaits g = [] ∧ s.firstWaiter g = none) ∨
      ∃ f p, s.firstWaiter g = some (f, p) ∧ f ∈ s.granuleWaits g ∧ f.parts = [p] ∧ s.reaches f p.key = true ∧
        ∀ h ∈ s.granuleWaits g, f.parked.getD 0 ≤ h.parked.getD 0 := by
  have ordered := List.pairwise_mergeSort (le := fun a b : Flight => decide (a.parked.getD 0 ≤ b.parked.getD 0))
    (fun a b c h k => by simp at *; omega) (fun a b => by simp; omega) (s.granuleWaits g)
  have mem (x : Flight) := List.mem_mergeSort (le := fun a b : Flight => decide (a.parked.getD 0 ≤ b.parked.getD 0))
    (l := s.granuleWaits g) (a := x)
  have first : s.firstWaiter g = match (s.granuleWaits g).mergeSort (fun a b => decide (a.parked.getD 0 ≤ b.parked.getD 0)) with
    | [] => none
    | f :: _ => (f.part 0).map (fun p => (f, p)) := rfl
  generalize (s.granuleWaits g).mergeSort (fun a b => decide (a.parked.getD 0 ≤ b.parked.getD 0)) = l at ordered mem first
  cases l with
  | nil => exact .inl ⟨List.eq_nil_iff_forall_not_mem.mpr fun x hx => (nomatch (mem x).mpr hx), first⟩
  | cons f l =>
    have hf := (mem f).mp List.mem_cons_self
    obtain ⟨p, parts, reach⟩ := hw.access f hf
    refine .inr ⟨f, p, by simp [first, Flight.part, parts], hf, parts, reach, fun h hh => ?_⟩
    obtain rfl | hh := List.mem_cons.mp ((mem h).mpr hh)
    · exact le_rfl
    · simpa using (List.pairwise_cons.mp ordered).1 h hh

end

/-- LDF reads its full granule (R147). -/
theorem State.ldfRead_eq {s : State} {f : Flight} {p : Part} (hs : s.Sound) (hp : f.parts = [p]) :
    s.ldfRead f p = if f.op = .ldf true then (s.setFlight (f.readAt s p)).setTag p.key false else s.setFlight (f.readAt s p) := by
  have same : { s.gather f 0 p with resendAt := none } = f.readAt s p := by
    simp [State.gather, Flight.setPart, hp, Flight.readAt]
  simp only [State.ldfRead, hs.badBytes, same]
  split
  · simp_all
  · simp_all

section

variable {s : State} {g : Nat} {f : Flight} {p : Part}

/-- A waiter that has read waits no more. -/
theorem State.granuleWaits_read (s : State) (g : Nat) (f : Flight) (p : Part) :
    (s.setFlight (f.readAt s p)).granuleWaits g = (s.granuleWaits g).filter (fun e => e.id ≠ f.id) := by
  have done : (f.readAt s p).allDone = true := by simp [Flight.allDone, Flight.readAt]
  have number : (f.readAt s p).id = f.id := rfl
  have kept : s.flights.filter
        ((fun f => f.parked.isSome && !f.allDone && isLdf f.op && f.parts.any (fun p => granule p.key = g)) ∘ fun e =>
          if e.id = (f.readAt s p).id then f.readAt s p else e) =
      s.flights.filter (fun e => decide (e.id ≠ f.id) &&
        (e.parked.isSome && !e.allDone && isLdf e.op && e.parts.any (fun p => granule p.key = g))) := by
    refine List.filter_congr fun e _ => ?_
    by_cases same : e.id = f.id
    · simp [same, done, number]
    · simp [same, number]
  rw [State.granuleWaits, State.setFlight, List.filter_map, State.granuleWaits, List.filter_filter, kept]
  refine (List.map_congr_left fun e he => if_neg ?_).trans (List.map_id _)
  exact of_decide_eq_true ((Bool.and_eq_true _ _).mp (List.mem_filter.mp he).2).1

theorem State.WaitsWell.read (hw : s.WaitsWell g) (f : Flight) (p : Part) : (s.setFlight (f.readAt s p)).WaitsWell g where
  ids := by
    intro a ha b hb same
    obtain ⟨x, hx, rfl⟩ := List.mem_map.mp ha
    obtain ⟨y, hy, rfl⟩ := List.mem_map.mp hb
    have number (e : Flight) : (if e.id = (f.readAt s p).id then f.readAt s p else e).id = e.id := by split <;> simp_all
    rw [number, number] at same
    rw [hw.ids x hx y hy same]
  entries := by
    rw [State.granuleWaits_read]
    exact fun a ha b hb => hw.entries a (List.mem_of_mem_filter ha) b (List.mem_of_mem_filter hb)
  access := by
    rw [State.granuleWaits_read]
    exact fun e he => hw.access e (List.mem_of_mem_filter he)

/-- With no waiter nothing is served. -/
theorem Served.none_ (hw : s.WaitsWell g) (hg : s.tagFull (16 * g) = true) (h : s.granuleWaits g = []) : Served s s g where
  rest := rfl
  others _ _ := rfl
  full := by simp [hg, h]
  kept f hf _ := hw.flight hf
  behind f hf := by simp [h] at hf
  read f hf := by simp [h] at hf

/-- A first waiter, of which no other stands before it. -/
structure State.First (s : State) (g : Nat) (f : Flight) (p : Part) : Prop where
  mem : f ∈ s.granuleWaits g
  parts : f.parts = [p]
  le : ∀ h ∈ s.granuleWaits g, f.parked.getD 0 ≤ h.parked.getD 0

theorem State.First.flight_id_ne (hw : s.WaitsWell g) (hf : s.First g f p) {h : Flight} (hh : h ∈ s.flights) (n : h ≠ f) :
    h.id ≠ f.id :=
  fun e => n (hw.ids h hh f (State.mem_granuleWaits.mp hf.mem).1 e)

theorem State.First.flight (hw : s.WaitsWell g) (hf : s.First g f p) {h : Flight} (hh : h ∈ s.flights) (n : h ≠ f) :
    (s.setFlight (f.readAt s p)).flight h.id = some h :=
  (State.flight_setFlight_ne (g := f.readAt s p) (hf.flight_id_ne hw hh n)).trans (hw.flight hh)

theorem State.First.lt (hw : s.WaitsWell g) (hf : s.First g f p) {h : Flight} (hh : h ∈ s.granuleWaits g) (n : h ≠ f) :
    f.parked.getD 0 < h.parked.getD 0 := by
  refine lt_of_le_of_ne (hf.le h hh) fun e => n (hw.entries h hh f hf.mem ?_)
  obtain ⟨-, some_f, -⟩ := State.mem_granuleWaits.mp hf.mem
  obtain ⟨-, some_h, -⟩ := State.mem_granuleWaits.mp hh
  obtain ⟨a, ha⟩ := Option.isSome_iff_exists.mp some_f
  obtain ⟨b, hb⟩ := Option.isSome_iff_exists.mp some_h
  simp_all

theorem State.First.not_behind (hf : s.First g f p) : ¬f.Behind (s.granuleWaits g) :=
  fun ⟨h, hh, _, lt⟩ => absurd (hf.le h hh) (Nat.not_le.mpr lt)

/-- A first waiter of .wfc leaves the granule empty, and the others wait on. -/
theorem Served.wfc (hw : s.WaitsWell g) (hf : s.First g f p) (hop : f.op = .ldf true) (hk : granule p.key = g) :
    Served s ((s.setFlight (f.readAt s p)).setTag p.key false) g where
  rest := rfl
  others h n := by
    simp only [State.tagFull, State.setTag, granule_mul, hk]
    rw [Tab.get_set_ne _ _ n]
    rfl
  full := by
    refine iff_of_false ?_ fun all => all f hf.mem hop
    simp [State.tagFull, State.setTag, granule_mul, hk, Tab.get_set_self]
  kept h hh n := hf.flight hw hh fun e => n (e ▸ hf.mem)
  behind h hh late := by
    have ne : h ≠ f := fun e => hf.not_behind (e ▸ late)
    have mem := (State.mem_granuleWaits.mp hh).1
    exact hf.flight hw mem ne
  read h hh q hq first := by
    have same : h = f := by_contra fun n => first ⟨f, hf.mem, hop, hf.lt hw hh n⟩
    subst same
    obtain rfl : q = p := by simpa [hf.parts] using hq.symm
    exact State.flight_setFlight_self (hw.flight (State.mem_granuleWaits.mp hh).1) rfl

/-- A first waiter that leaves the granule full is served before the rest. -/
theorem Served.first {t : State} (hw : s.WaitsWell g) (hf : s.First g f p) (hop : f.op ≠ .ldf true)
    (h : Served (s.setFlight (f.readAt s p)) t g) : Served s t g := by
  have waits := State.granuleWaits_read s g f p
  have memFlights : f ∈ s.flights := (State.mem_granuleWaits.mp hf.mem).1
  have after : ∀ e ∈ s.flights, e ≠ f → e ∈ (s.setFlight (f.readAt s p)).flights := fun e he n =>
    List.mem_map.mpr ⟨e, he, if_neg (hf.flight_id_ne hw he n)⟩
  have still : ∀ e, e ∈ (s.setFlight (f.readAt s p)).granuleWaits g ↔ e ∈ s.granuleWaits g ∧ e ≠ f := by
    intro e
    rw [waits, List.mem_filter]
    refine and_congr_right fun he => ?_
    have := hf.flight_id_ne hw (State.mem_granuleWaits.mp he).1
    constructor
    · rintro n rfl
      simp at n
    · intro n
      simpa using this n
  have late : ∀ e : Flight, e.Behind (s.granuleWaits g) ↔ e.Behind ((s.setFlight (f.readAt s p)).granuleWaits g) := by
    intro e
    refine exists_congr fun x => ?_
    rw [still]
    constructor
    · rintro ⟨hx, ox, lt⟩
      exact ⟨⟨hx, fun e => hop (e ▸ ox)⟩, ox, lt⟩
    · rintro ⟨⟨hx, -⟩, ox, lt⟩
      exact ⟨hx, ox, lt⟩
  have own : t.flight f.id = some (f.readAt s p) := by
    refine h.kept (f.readAt s p) (List.mem_map.mpr ⟨f, memFlights, if_pos rfl⟩) fun hm => ?_
    have done := (State.mem_granuleWaits.mp hm).2.2.1
    simp [Flight.allDone, Flight.readAt] at done
  exact {
    rest := (congrArg (fun x : State => { x with flights := s.flights }) h.rest :)
    others := fun k n => h.others k n
    full := by
      rw [h.full]
      constructor
      · intro all e he ox
        exact all e ((still e).mpr ⟨he, fun q => hop (q ▸ ox)⟩) ox
      · exact fun all e he => all e ((still e).mp he).1
    kept := fun e he n => h.kept e (after e he fun q => n (q ▸ hf.mem)) fun m => n ((still e).mp m).1
    behind := fun e he l => h.behind e ((still e).mpr ⟨he, fun q => hf.not_behind (q ▸ l)⟩) ((late e).mp l)
    read := by
      intro e he q hq n
      by_cases same : e = f
      · subst same
        obtain rfl : q = p := by simpa [hf.parts] using hq.symm
        exact own
      · exact h.read e ((still e).mpr ⟨he, same⟩) q hq (mt (late e).mpr n) }

end

/-- Serving a full granule with fuel for each of its waiters. -/
theorem State.serve_served {g : Nat} (n : Nat) {s : State} (hs : s.Sound) (hw : s.WaitsWell g) (hg : s.tagFull (16 * g) = true)
    (hn : (s.granuleWaits g).length < n) : Served s (s.serve g n) g := by
  induction n generalizing s with
  | zero => omega
  | succ n ih =>
    have tag : Tab.get false s.emptyTags g = false := by simpa [State.tagFull, granule_mul] using hg
    rw [State.serve, tag, if_neg Bool.false_ne_true]
    obtain ⟨empty, first⟩ | ⟨f, p, first, hf, hp, hr, le⟩ := State.firstWaiter_spec hw
    · rw [first]
      exact .none_ hw hg empty
    · have isFirst : s.First g f p := ⟨hf, hp, le⟩
      have key : granule p.key = g := by
        obtain ⟨-, -, -, -, q, hq, key⟩ := State.mem_granuleWaits.mp hf
        obtain rfl : q = p := by simpa [hp] using hq
        exact key
      simp only [first, hr, if_true, State.ldfRead_eq hs hp]
      by_cases hop : f.op = .ldf true
      · rw [if_pos hop]
        have stop : State.serve ((s.setFlight (f.readAt s p)).setTag p.key false) g n =
            (s.setFlight (f.readAt s p)).setTag p.key false := by
          cases n with
          | zero => rfl
          | succ n => rw [State.serve, if_pos (by simp [State.setTag, key, Tab.get_set_self])]
        rw [stop]
        exact .wfc hw isFirst hop key
      · rw [if_neg hop]
        refine .first hw isFirst hop (ih hs (hw.read f p) hg ?_)
        rw [State.granuleWaits_read]
        have less :=
          (List.length_filter_lt_length_iff_exists (p := fun e : Flight => decide (e.id ≠ f.id))).mpr ⟨f, hf, by simp⟩
        exact lt_of_lt_of_le less (Nat.le_of_lt_succ hn)

/-- A granule that becomes full (R148, R272). -/
theorem State.fillGranule_served {s : State} {g : Nat} (hs : s.Sound) (hw : s.WaitsWell g) :
    Served (s.setTag (16 * g) true) (s.fillGranule g) g := by
  refine State.serve_served _ hs ⟨hw.ids, hw.entries, hw.access⟩ ?_ (Nat.lt_succ_of_le (List.length_filter_le _ _))
  simp [State.tagFull, State.setTag, Tab.get_set_self]

end Sys2Proof.Machine
end

section
/-! PROOF. Waits on words and granules at their homes (R147, R160, R163, R270 to R273, R276 to R278). -/

namespace Sys2Proof.Machine

theorem isWatch_iff {op : FlOp} : isWatch op = true ↔ (∃ a b, op = .waitc a b) ∨ ∃ ty cc x m, op = .waitf ty cc x m := by
  cases op <;> simp [isWatch]

theorem isLdf_iff {op : FlOp} : isLdf op = true ↔ ∃ clr, op = .ldf clr := by
  cases op <;> simp [isLdf]

/-- A home of waits is named by an address, its address space and the objects. -/
theorem State.homeId_congr {s t : State} {f g : Flight} (ho : t.objs = s.objs) (ha : g.asid = f.asid) (p : Part) :
    t.homeId g p = s.homeId f p := by
  simp only [State.homeId, State.partSlice, State.object, ho, ha]

theorem State.waitsAt_congr {s t : State} (ho : t.objs = s.objs) (hf : t.flights = s.flights) (kind : FlOp → Bool) (h : Nat) :
    t.waitsAt kind h = s.waitsAt kind h := by
  have home (g : Flight) (q : Part) : t.homeId g q = s.homeId g q := State.homeId_congr ho rfl q
  simp only [State.waitsAt, hf, home]

section

variable {s : State} {id : Nat} {f : Flight} {p : Part}

/-- What a wait's arrival leaves beside the wait: contexts, memory, tags and the other operations (R277). -/
def Beside (s v : State) (f : Flight) : Prop :=
  v.ctxs = s.ctxs ∧ v.mem = s.mem ∧ (∀ k, k ≠ f.id → v.flight k = s.flight k) ∧ v.emptyTags = s.emptyTags

/-- f stands in v as g, but for what it has counted. -/
def Stands (v : State) (f g : Flight) : Prop := (v.flight f.id).map Flight.plain = some g.plain

theorem Accessed.setFlight {t : State} {g h : Flight} (ht : Accessed s t) (hf : s.flight f.id = some f) (hg : g.plain = h.plain)
    (same : h.id = f.id) : Beside s (t.setFlight g) f ∧ Stands (t.setFlight g) f h := by
  have number : g.id = f.id := (congrArg Flight.id hg :).trans same
  refine ⟨⟨ht.ctxs, ht.mem, fun k hk => ?_, ht.emptyTags⟩, ?_⟩
  · exact (State.flight_setFlight_ne (number ▸ hk)).trans (ht.flight k)
  · rw [Stands, State.flight_setFlight_self ((ht.flight f.id).trans hf) number, Option.map_some, hg]

/-- Where the table of its home has room a wait is entered, and else it is to be sent again (R147, R277). -/
theorem Accessed.parkOr {t : State} {g : Flight} (ht : Accessed s t) (hf : s.flight f.id = some f)
    (hg : { g.plain with resendAt := none } = { f.plain with resendAt := none }) (kind : FlOp → Bool) (p : Part) :
    Beside s (t.parkOr kind g p) f ∧
      (s.waitsAt kind (s.homeId f p) < 64 →
        Stands (t.parkOr kind g p) f { f with parked := some s.nextId, resendAt := none }) ∧
      (64 ≤ s.waitsAt kind (s.homeId f p) → Stands (t.parkOr kind g p) f { f with resendAt := some (s.cycle + 256) }) := by
  have home : t.homeId g p = s.homeId f p := State.homeId_congr ht.objs (congrArg Flight.asid hg :) p
  have count : t.waitsAt kind (t.homeId g p) = s.waitsAt kind (s.homeId f p) := by
    rw [home, State.waitsAt_congr ht.objs ht.flights]
  by_cases h : s.waitsAt kind (s.homeId f p) < 64
  · rw [State.parkOr, count, if_pos h, ht.nextId]
    obtain ⟨beside, stands⟩ := ht.setFlight hf (g := { g with parked := some s.nextId, resendAt := none })
      (h := { f with parked := some s.nextId, resendAt := none })
      (congrArg (fun x : Flight => { x with parked := some s.nextId }) hg :) rfl
    exact ⟨beside, fun _ => stands, fun n => absurd h (Nat.not_lt.mpr n)⟩
  · rw [State.parkOr, count, if_neg h, ht.cycle]
    obtain ⟨beside, stands⟩ := ht.setFlight hf (g := { g with resendAt := some (s.cycle + 256) })
      (h := { f with resendAt := some (s.cycle + 256) })
      (congrArg (fun x : Flight => { x with resendAt := some (s.cycle + 256) }) hg :) rfl
    exact ⟨beside, fun y => absurd y h, fun _ => stands⟩

/-- A wait tests its word when it arrives (R160, R163). -/
theorem State.watchArrive_leaves {g : Flight} (hf : s.flight f.id = some f) (hs : s.Sound)
    (hg : { g with resendAt := none } = { f with resendAt := none })
    (room : ∀ k, s.partSlice f p = some k → s.room k (.part f.id 0)) :
    Beside s (s.watchArrive g p) f ∧
      (∀ r, watchTest f.op (s.word p.key p.len) = some r →
        Stands (s.watchArrive g p) f { f with resendAt := none, parts := [{ p with done := true, code := r }] }) ∧
      (watchTest f.op (s.word p.key p.len) = none →
        (s.waitsAt isWatch (s.homeId f p) < 64 →
          Stands (s.watchArrive g p) f { f with parked := some s.nextId, resendAt := none }) ∧
        (64 ≤ s.waitsAt isWatch (s.homeId f p) →
          Stands (s.watchArrive g p) f { f with resendAt := some (s.cycle + 256) })) := by
  have number : g.id = f.id := (congrArg Flight.id hg :)
  have space : g.asid = f.asid := (congrArg Flight.asid hg :)
  have op : g.op = f.op := (congrArg Flight.op hg :)
  have roomG : ∀ k, s.partSlice g p = some k → s.room k (.part g.id 0) := by
    simp only [State.partSlice, space, number]
    exact room
  obtain ⟨t, enter, entered⟩ := State.enterSlice_room roomG
  have access := entered.trans (.homeAccess (entered.sound hs) g p (keysOf p.key p.len) false .normal)
  have note := g.note_plain p
  have plain : { (g.note p).plain with resendAt := none } = { f.plain with resendAt := none } := by
    rw [note]
    exact (congrArg Flight.plain hg :)
  have test : watchTest (g.note p).op ((t.homeAccess g p (keysOf p.key p.len) false .normal).word p.key p.len) =
      watchTest f.op (s.word p.key p.len) := by
    rw [access.word, show (g.note p).op = f.op from (congrArg Flight.op note :).trans op]
  cases result : watchTest f.op (s.word p.key p.len) with
  | some r =>
    simp only [State.watchArrive, enter, (entered.sound hs).badBytes, test.trans result]
    obtain ⟨beside, stands⟩ := access.setFlight hf
      (g := { g.note p with resendAt := none, parts := [{ p with done := true, code := r }] })
      (h := { f with resendAt := none, parts := [{ p with done := true, code := r }] })
      (congrArg (fun x : Flight => { x with parts := [{ p with done := true, code := r }] }) plain :) rfl
    refine ⟨beside, ?_, fun no => nomatch no⟩
    rintro _ ⟨rfl⟩
    exact stands
  | none =>
    simp only [State.watchArrive, enter, (entered.sound hs).badBytes, test.trans result]
    obtain ⟨beside, stands⟩ := access.parkOr hf plain isWatch p
    exact ⟨beside, fun _ no => (nomatch no), fun _ => stands⟩

/-- A first arrival or a resending of a wait (R277). -/
theorem exec_watch_arrives {i : Instr} (hf : s.flight id = some f) (hp : f.parts = [p]) (hd : p.done = false)
    (hw : isWatch f.op = true) (hr : s.reaches f p.key = true)
    (hi : i = .homeRead id 0 ∧ s.mayRead f p = true ∧ isHost p.key = false ∧ s.forward f p = .clear ∨
      i = .watchReread id ∧ s.resendNow f = true) :
    ∃ g : Flight, { g with resendAt := none } = { f with resendAt := none } ∧ exec i s = .next (s.watchArrive g p).settle := by
  obtain ⟨rfl, may, host, clear⟩ | ⟨rfl, now⟩ := hi
  · refine ⟨f, rfl, ?_⟩
    rw [execHomeRead_clear hf (by simp [Flight.part, hp]) hd may hr host clear, if_pos hw]
  · refine ⟨{ f with resendAt := none }, rfl, ?_⟩
    show execWatchReread id s = _
    rw [execWatchReread, State.onFlight_run hf hp hd]
    simp only [hw, now, hr, Bool.and_self, Bool.not_true, Bool.false_eq_true, if_false, if_true]

/-- A first arrival or a resending of an LDF. -/
theorem exec_ldf_arrives {i : Instr} (hf : s.flight id = some f) (hp : f.parts = [p]) (hd : p.done = false)
    (hl : isLdf f.op = true)
    (hi : i = .ldfAtScratchpad id ∧ sent f p = true ∧ s.ready f p = true ∨ i = .ldfResend id ∧ s.resendNow f = true) :
    exec i s = .next (s.ldfArrive f p).settle := by
  obtain ⟨rfl, out, ready⟩ | ⟨rfl, now⟩ := hi
  · show execLdfAtScratchpad id s = _
    rw [execLdfAtScratchpad, State.onFlight_run hf hp hd]
    simp only [hl, out, ready, Bool.and_self, if_true]
  · show execLdfResend id s = _
    rw [execLdfResend, State.onFlight_run hf hp hd]
    simp only [now, if_true]

theorem State.ldfArrive_eq {clr : Bool} (hop : f.op = .ldf clr) : s.ldfArrive f p =
    if s.reaches f p.key then if s.tagFull p.key then s.ldfRead f p else s.parkOr isLdf f p else s.noShare f 0 p := by
  cases hr : s.reaches f p.key <;> simp [State.ldfArrive, hop, hr]

/-- A wait or an LDF that may not reach the share of its bytes traps (R271). -/
theorem State.noShare_wait (hl : f.isLoad = true) (hn : f.isStore = false) (hop : isWatch f.op = true ∨ isLdf f.op = true) :
    s.noShare f 0 p = s.trapFlight f (tProt p.va 8) := by
  have stop : s.fillStop f p = s := by
    unfold State.fillStop
    split
    · simp_all [isWatch, isLdf]
    · rfl
  rw [State.noShare, stop, hl, hn]
  rfl

theorem exec_wait_noShare {i : Instr} (hf : s.flight id = some f) (hp : f.parts = [p]) (hd : p.done = false)
    (hr : s.reaches f p.key = false) (hl : f.isLoad = true) (hn : f.isStore = false)
    (hi : i = .homeRead id 0 ∧ isWatch f.op = true ∧ s.mayRead f p = true ∧ isHost p.key = false ∨
      i = .watchReread id ∧ isWatch f.op = true ∧ s.resendNow f = true ∨
      i = .ldfAtScratchpad id ∧ isLdf f.op = true ∧ sent f p = true ∧ s.ready f p = true ∨
      i = .ldfResend id ∧ isLdf f.op = true ∧ s.resendNow f = true) :
    exec i s = .next (s.trapFlight f (tProt p.va 8)).settle := by
  obtain ⟨rfl, hw, may, host⟩ | ⟨rfl, hw, now⟩ | ⟨rfl, hl', out, ready⟩ | ⟨rfl, hl', now⟩ := hi
  · show execHomeRead id 0 s = _
    rw [execHomeRead, State.onPart_run hf (by simp [Flight.part, hp]) hd]
    simp only [may, host, hr, Bool.not_true, Bool.false_eq_true, or_self, if_false, Bool.not_false, if_true,
      State.noShare_wait hl hn (.inl hw)]
  · show execWatchReread id s = _
    rw [execWatchReread, State.onFlight_run hf hp hd]
    simp only [hw, now, hr, Bool.and_self, Bool.not_true, Bool.false_eq_true, if_false, State.noShare_wait hl hn (.inl hw)]
  · obtain ⟨clr, hop⟩ := isLdf_iff.mp hl'
    rw [exec_ldf_arrives hf hp hd hl' (.inl ⟨rfl, out, ready⟩), State.ldfArrive_eq hop, hr, if_neg Bool.false_ne_true,
      State.noShare_wait hl hn (.inr hl')]
  · obtain ⟨clr, hop⟩ := isLdf_iff.mp hl'
    rw [exec_ldf_arrives hf hp hd hl' (.inr ⟨rfl, now⟩), State.ldfArrive_eq hop, hr, if_neg Bool.false_ne_true,
      State.noShare_wait hl hn (.inr hl')]

/-- An LDF of a full granule takes its bytes, and under .wfc leaves the granule empty (R147). -/
theorem State.ldfRead_leaves {clr : Bool} (hf : s.flight f.id = some f) (hp : f.parts = [p]) (hs : s.Sound)
    (hop : f.op = .ldf clr) :
    (s.ldfRead f p).ctxs = s.ctxs ∧ (s.ldfRead f p).mem = s.mem ∧ (∀ k, k ≠ f.id → (s.ldfRead f p).flight k = s.flight k) ∧
      (s.ldfRead f p).flight f.id = some (f.readAt s p) ∧
      ∀ g, (s.ldfRead f p).tagFull (16 * g) = (s.tagFull (16 * g) && !(clr && g = granule p.key)) := by
  have found : (s.setFlight (f.readAt s p)).flight f.id = some (f.readAt s p) := State.flight_setFlight_self hf rfl
  have others (k : Nat) (hk : k ≠ f.id) : (s.setFlight (f.readAt s p)).flight k = s.flight k :=
    State.flight_setFlight_ne (g := f.readAt s p) hk
  rw [State.ldfRead_eq hs hp, hop]
  cases clr with
  | false => exact ⟨rfl, rfl, others, found, fun g => by simp [State.tagFull, State.setFlight]⟩
  | true =>
    refine ⟨rfl, rfl, others, found, fun g => ?_⟩
    simp only [if_true, State.tagFull, State.setTag, granule_mul, Bool.not_false, Tab.get_set, State.setFlight]
    split <;> simp_all

/-- STF writes its granule before it is made full (R148). -/
theorem execStf_writes (hf : s.flight id = some f) (hp : f.parts = [p]) (hd : p.done = false) (hop : f.op = .stf) (hs : s.Sound)
    (hu : id ∉ s.ueCmds) (out : sent f p = true) (ready : s.ready f p = true) (hr : s.reaches f p.key = true) :
    ∃ w : State, Wrote s w ∧ w.mem = Tab.setMany Memory.unlisted s.mem p.bytes ∧ exec (.stfAtScratchpad id) s =
      .next ((w.setFlight (f.setPart 0 { p with done := true })).fillGranule (granule p.key)).settle := by
  obtain ⟨w, run, wrote, mem⟩ := State.writeHome_sound hs f.asid p.bytes
  have entry : s.badEntry f = false := by simpa [State.badEntry, State.flight_id hf] using hu
  refine ⟨w, wrote, mem, ?_⟩
  show execStfAtScratchpad id s = _
  rw [execStfAtScratchpad, State.onFlight_run hf hp hd]
  simp only [hop, out, ready, entry, hr, run, ne_eq, not_true_eq_false, Bool.not_true, Bool.false_eq_true, or_self, if_false]

/-! Withdrawals. -/

/-- An operation gone with its writeback. -/
def State.goneWith (s : State) (f : Flight) : State :=
  (f.wb.map (fun w => (s.dropFlight f.id).cancelWB f.core w)).getD (s.dropFlight f.id)

/-- An arrived wait that is withdrawn traps at its limit, or parks (R261, R273, R278). -/
theorem State.withdrawn_eq (ha : f.arrived = true) (t : TrapInfo) :
    (f.withdraw = some .limit → s.withdrawn f t = (s.goneWith f).raise (ctxId f.core f.ctx) t) ∧
      (f.withdraw = some .preempt → s.withdrawn f t =
        (s.goneWith f).park (ctxId f.core f.ctx) true ((s.goneWith f).ctx (ctxId f.core f.ctx)).sra) := by
  constructor <;> intro hw <;> cases hb : f.wb <;> simp [State.withdrawn, State.goneWith, ha, hw, hb]

/-- A wait that holds when it is withdrawn completes. -/
theorem execWatchWithdrawal_holds {r : Nat} (hf : s.flight id = some f) (hp : f.parts = [p]) (hd : p.done = false) (hs : s.Sound)
    (hw : isWatch f.op = true) (ha : f.arrived = true) (why : f.withdraw.isSome = true) (hr : s.reaches f p.key = true)
    (test : watchTest f.op (s.word p.key p.len) = some r) :
    exec (.watchWithdrawal id) s =
      .next (s.setFlight { f with resendAt := none, parts := [{ p with done := true, code := r }] }).settle := by
  show execWatchWithdrawal id s = _
  rw [execWatchWithdrawal, State.onFlight_run hf hp hd]
  simp only [hw, why, ha, hr, hs.badBytes, Bool.not_true, Bool.false_eq_true, if_false, Bool.and_self, Option.isNone_none, if_true,
    test]

theorem exec_wait_withdrawn {i : Instr} (hf : s.flight id = some f) (hp : f.parts = [p]) (hd : p.done = false)
    (hi : i = .watchWithdrawal id ∧ isWatch f.op = true ∧ watchTest f.op (s.word p.key p.len) = none ∨
      i = .granuleWithdrawal id ∧ isLdf f.op = true) :
    exec i s = .next (s.withdrawn f (tWaitLimit (s.ctx (ctxId f.core f.ctx)).wlim)).settle := by
  obtain ⟨rfl, hw, test⟩ | ⟨rfl, hl⟩ := hi
  · show execWatchWithdrawal id s = _
    rw [execWatchWithdrawal, State.onFlight_run hf hp hd]
    simp only [hw, test, ite_self, Bool.not_true, Bool.false_eq_true, if_false]
    rfl
  · show execGranuleWithdrawal id s = _
    rw [execGranuleWithdrawal, State.onFlight_run hf hp hd]
    simp only [hl, if_true]
    rfl

end

/-! The obligation. -/

/-- Settles O41: the waiters of a granule by induction on those left, and each arrival, STF and withdrawal at its home. -/
theorem watchesAndGranules : Obligations.WatchesAndGranules := by
  unfold Obligations.WatchesAndGranules
  refine ⟨?_, ?_⟩
  · intro s g waits t hs ids entries access
    have well : s.WaitsWell g := ⟨fun a ha b hb => List.inj_on_of_nodup_map ids ha hb,
      fun a ha b hb => List.inj_on_of_nodup_map entries ha hb, access⟩
    obtain ⟨rest, others, full, kept, behind, read⟩ := State.fillGranule_served hs well
    refine ⟨?_, fun h n => (others h n).trans ?_, full, kept, fun f hf p hp => ⟨behind f hf, read f hf p hp⟩⟩
    · exact (congrArg (fun x : State => { x with emptyTags := s.emptyTags }) rest :)
    · simp only [State.tagFull, State.setTag, granule_mul]
      rw [Tab.get_set_ne _ _ n]
  · intro s id f p hf hp hd hs waiting is refused entered same w masked passes
    have tests : passes = watchTest f.op w := by
      cases hop : f.op with
      | waitc target up => simp [passes, hop, watchTest, bitAt, bitsAt]
      | waitf ty cc x m => cases cc <;> simp [passes, hop, watchTest, masked, CC.holds]
      | _ => simp [passes, hop, watchTest]
    obtain rfl := State.flight_id hf
    refine ⟨fun i hw hr hi room => ?_, fun i clr hop hr hi => ?_, fun i hr hl hn hi => exec_wait_noShare hf hp hd hr hl hn hi,
      fun hop hu out ready hr nodup => ?_, fun r hw ha why hr test => ?_, fun i hi ha => ?_⟩
    · obtain ⟨g, hg, run⟩ := exec_watch_arrives hf hp hd hw hr hi
      obtain ⟨⟨ctxs, mem, others, tags⟩, holds, waits⟩ := State.watchArrive_leaves hf hs hg room
      refine ⟨_, run, ⟨ctxs, mem, others⟩, tags, fun r test => holds r (tests ▸ test), fun test => ?_⟩
      obtain ⟨enters, refuses⟩ := waits (tests ▸ test)
      exact ⟨fun few => ⟨s.nextId, le_rfl, enters few⟩, refuses⟩
    · have run := exec_ldf_arrives hf hp hd (isLdf_iff.mpr ⟨clr, hop⟩) hi
      rw [State.ldfArrive_eq hop, hr, if_pos rfl] at run
      cases full : s.tagFull p.key with
      | true =>
        rw [full, if_pos rfl] at run
        obtain ⟨ctxs, mem, others, read, tags⟩ := State.ldfRead_leaves hf hp hs hop
        refine ⟨_, run, ⟨ctxs, mem, others⟩, fun _ => ⟨?_, tags⟩, fun no => nomatch no⟩
        exact congrArg (Option.map Flight.plain) read
      | false =>
        rw [full, if_neg Bool.false_ne_true] at run
        obtain ⟨⟨ctxs, mem, others, tags⟩, enters, refuses⟩ := (Accessed.refl s).parkOr hf rfl isLdf p
        refine ⟨_, run, ⟨ctxs, mem, others⟩, fun no => (nomatch no), fun _ => ⟨tags, fun few => ?_, refuses⟩⟩
        exact ⟨s.nextId, le_rfl, enters few⟩
    · obtain ⟨v, wrote, mem, run⟩ := execStf_writes hf hp hd hop hs hu out ready hr
      have stored := Stored.of_mem mem nodup
      refine ⟨_, run, wrote.ctxs, wrote.emptyTags, ?_, stored.at_, stored.other⟩
      exact State.flight_setFlight_self (g := f.setPart 0 _) (wrote.flight f.id f hf (by rw [hop]; rfl)) rfl
    · exact execWatchWithdrawal_holds hf hp hd hs hw ha why hr (tests ▸ test)
    · intro c gone
      have run := exec_wait_withdrawn (i := i) hf hp hd (by rw [← tests]; exact hi)
      obtain ⟨limit, preempt⟩ := s.withdrawn_eq ha (tWaitLimit (s.ctx (ctxId f.core f.ctx)).wlim)
      exact ⟨fun why => run.trans (by rw [limit why]; rfl), fun why => run.trans (by rw [preempt why]; rfl)⟩

end Sys2Proof.Machine
end

section
/-! PROOF. Aged blocks at their homes (R143 to R145, R255 to R261). -/

namespace Sys2Proof.Machine

/-! A request's entry leaves the aged-wait lists of the slices. -/

theorem State.takeEntry_waits (s : State) (k : Nat) (q : Requester) (port j : Nat) :
    ((s.takeEntry k q port).slice j).waitHeld = (s.slice j).waitHeld ∧
      ((s.takeEntry k q port).slice j).waitTickets = (s.slice j).waitTickets := by
  unfold State.takeEntry
  split
  · exact ⟨rfl, rfl⟩
  · simp only [State.slice, State.modSlice, Tab.get_set]
    split
    · subst j
      exact ⟨rfl, rfl⟩
    · exact ⟨rfl, rfl⟩

theorem State.enterSlice_waits {s t : State} {f : Flight} {n : Nat} {p : Part} (h : s.enterSlice f n p = (true, t)) (j : Nat) :
    (t.slice j).waitHeld = (s.slice j).waitHeld ∧ (t.slice j).waitTickets = (s.slice j).waitTickets := by
  unfold State.enterSlice at h
  split at h
  · cases h
    exact ⟨rfl, rfl⟩
  · split at h
    · cases h
      exact s.takeEntry_waits _ _ _ j
    · cases h

theorem Accessed.parkedAt {s t : State} (h : Accessed s t) (k : Nat) : t.parkedAt k = s.parkedAt k := by
  have slice (g : Flight) (q : Part) : t.partSlice g q = s.partSlice g q := by
    simp only [State.partSlice, State.object, h.objs]
  simp only [State.parkedAt, h.flights, slice]

theorem Accessed.isAged {s t : State} (h : Accessed s t) (k : Nat) : t.isAged k = s.isAged k := by
  simp only [State.isAged, h.aged]

theorem Accessed.stamp {s t : State} (h : Accessed s t) (k : Nat) : t.stamp k = s.stamp k := by
  simp only [State.stamp, h.stamps]

/-- Freshness as R144 states it. -/
theorem freshFor_iff {st itr : BitVec 32} {lag : Nat} : freshFor st itr lag = true ↔
    lag = 65535 ∨ (itr - st).toNat ≤ lag ∨ (1 ≤ (st - itr).toNat ∧ (st - itr).toNat < 2 ^ 31) := by
  simp [freshFor, aheadOf, or_assoc]

/-! AGLD. -/

/-- An access that asks its home and no longer the replica (R256). -/
def Part.atHome (p : Part) : Part := { p with b := if bitAt p.b 0 then p.b else p.b + 1 }

theorem Part.atHome_noReplica {p : Part} (h : bitAt p.b 1 = false) : bitAt p.atHome.b 1 = false := by
  simp only [bitAt, Part.atHome, pow_one, pow_zero, Nat.div_one, decide_eq_false_iff_not, decide_eq_true_eq] at h ⊢
  split
  · exact h
  · rename_i even
    omega

section

variable {s : State} {f : Flight} {p : Part}

/-- The home's answer: its block and stamp. -/
theorem Accessed.answerAged {t : State} {q : Part} (ht : Accessed s t) (hs : s.Sound) (hf : s.flight f.id = some f)
    (hq : bitAt q.b 1 = false) (c : Nat) :
    Beside s (t.answerAged f q c) f ∧ (t.answerAged f q c).stamps = s.stamps ∧ Stands (t.answerAged f q c) f
      { f with parts := [{ q with done := true, res := s.word q.key 64, code := c, c := (s.stamp q.key).toNat }] } := by
  have access := ht.trans (.homeAccess (ht.sound hs) f q (keysOf q.key 64) false .normal)
  have refresh (u : State) : u.refresh f q = u := if_pos (.inl (by simp [hq]))
  rw [State.answerAged, refresh, ht.word, ht.stamp]
  obtain ⟨beside, stands⟩ := access.setFlight hf
    (g := { f.note q with parts := [{ q with done := true, res := s.word q.key 64, code := c, c := (s.stamp q.key).toNat }] })
    (h := { f with parts := [{ q with done := true, res := s.word q.key 64, code := c, c := (s.stamp q.key).toNat }] })
    (congrArg (fun x : Flight => { x with
      parts := [{ q with done := true, res := s.word q.key 64, code := c, c := (s.stamp q.key).toNat }] }) (f.note_plain q) :) rfl
  exact ⟨beside, access.stamps, stands⟩

/-- An entry of the aged-wait list, where the list has room beside its tickets (R259). -/
theorem Accessed.parkAged {t : State} {q : Part} {k : Nat} (ht : Accessed s t) (hf : s.flight f.id = some f)
    (hk : s.partSlice f q = some k)
    (waits : (t.slice k).waitHeld = (s.slice k).waitHeld ∧ (t.slice k).waitTickets = (s.slice k).waitTickets)
    (room : s.parkedAt k + (s.slice k).waitHeld.length + (s.slice k).waitTickets.length < 32) :
    Beside s (t.parkAged f q) f ∧
      Stands (t.parkAged f q) f { f with parked := some s.nextId, parts := [{ q with noticed := false }] } := by
  have slice : t.partSlice f q = some k := by simpa only [State.partSlice, State.object, ht.objs] using hk
  have entered := ht.trans (Accessed.slices t (Tab.set Slice.empty t.slices k
    { t.slice k with waitHeld := (t.slice k).waitHeld.filter (fun r => !r.isOf f.id 0) }))
  have few : t.parkedAt k + (t.slice k).waitHeld.length + (t.slice k).waitTickets.length < waitListSize := by
    rw [ht.parkedAt, waits.1, waits.2]
    exact room
  have run : t.parkAged f q =
      (t.modSlice k (fun x => { x with waitHeld := x.waitHeld.filter (fun r => !r.isOf f.id 0) })).fresh.setFlight
        { f with parked := some s.nextId, parts := [{ q with noticed := false }] } := by
    simp only [State.parkAged, slice]
    rw [if_pos (.inr few), ← ht.nextId]
    rfl
  rw [run]
  exact entered.setFlight hf rfl rfl

end

section

variable {s : State} {f : Flight} {p : Part} {wait : Bool} {itr : BitVec 32} {lag pf pa : Nat} {da : Opnd} {act : Word}
  (hf : s.flight f.id = some f) (hp : f.parts = [p]) (hd : p.done = false)
include hf hp hd

/-- A fresh replica of the die serves the load (R256). -/
theorem execAgld_replica {m : MirrorCopy} (hop : f.op = .agld wait itr lag pf pa da act) (out : sent f p = true)
    (ready : s.ready f p = true) (clear : s.forward f p = .clear) (asks : bitAt p.b 0 = false) (may : bitAt p.b 1 = true)
    (copy : (s.die (coreDie f.core)).current (p.key / 256) = some m) (stamped : m.stamps ≠ [])
    (good : m.badAt s.cycle [p.key] = none)
    (fresh : freshFor (m.stamps.getD (p.key / 64 % 4) 0) itr lag = true) :
    exec (.agldHomeRequest f.id) s = .next (s.setFlight { f with parts := [{ p with
      done := true, code := 1, res := lineVal m.data p, c := (m.stamps.getD (p.key / 64 % 4) 0).toNat }] }).settle := by
  show execAgldHomeRequest f.id s = _
  rw [execAgldHomeRequest, State.onFlight_run hf hp hd]
  have serves : m.stamps ≠ [] ∧ freshFor (m.stamps.getD (p.key / 64 % 4) 0) itr lag = true := ⟨stamped, fresh⟩
  simp only [hop, out, ready, clear, asks, may, copy, Bool.not_true, Bool.false_eq_true, reduceCtorEq, or_self, if_false, if_true,
    if_pos serves, good]

/-- A load that no replica may serve asks its home. -/
theorem execAgld_home (hop : f.op = .agld wait itr lag pf pa da act) (out : sent f p = true)
    (ready : s.ready f p = true) (clear : s.forward f p = .clear) (may : bitAt p.b 1 = false) :
    exec (.agldHomeRequest f.id) s = .next (s.agedHome f p wait itr lag).settle := by
  show execAgldHomeRequest f.id s = _
  rw [execAgldHomeRequest, State.onFlight_run hf hp hd]
  simp [hop, out, ready, clear, may]

end

section

variable {s t : State} {f : Flight} {p : Part} {wait : Bool} {itr : BitVec 32} {lag : Nat}

/-- What the home makes of a load that it takes (R144, R256, R257). -/
theorem State.agedHome_eq (hs : s.Sound) (enter : s.enterSlice f 0 p.atHome = (true, t)) (entered : Accessed s t) :
    s.agedHome f p wait itr lag =
      if s.isAged p.key then
        if freshFor (s.stamp p.key) itr lag then t.answerAged f p.atHome 1
        else if wait then t.parkAged f p.atHome else t.answerAged f p.atHome 0
      else t.setFlight { f with parts := [{ p.atHome with done := true, code := 2 }] } := by
  unfold Part.atHome at enter ⊢
  simp only [State.agedHome, enter, (entered.sound hs).badBytes, entered.stamp, entered.isAged]
  cases s.isAged p.key <;> rfl

/-- The operation of an AGST done. -/
def State.agstDone (s : State) (f : Flight) (p : Part) : State := s.setFlight (f.setPart 0 { p with done := true })

/-- A block's new stamp. -/
def State.restamp (s : State) (key : Nat) (itr : BitVec 32) : State := { s with stamps := Tab.set 0 s.stamps (key / 64) itr }

/-- One that is accepted changes memory, its block's stamp and its operation. -/
theorem State.agstDone_restamp (s : State) (f : Flight) (p : Part) (itr : BitVec 32) :
    ((s.agstDone f p).restamp p.key itr).ctxs = s.ctxs ∧ ((s.agstDone f p).restamp p.key itr).mem = s.mem ∧
      ((s.agstDone f p).restamp p.key itr).stamps = Tab.set 0 s.stamps (p.key / 64) itr ∧
      ((s.agstDone f p).restamp p.key itr).flight f.id = (s.agstDone f p).flight f.id :=
  ⟨rfl, rfl, rfl, rfl⟩

theorem State.agstDone_flight (hf : s.flight f.id = some f) (p : Part) :
    (s.agstDone f p).flight f.id = some (f.setPart 0 { p with done := true }) :=
  State.flight_setFlight_self (g := f.setPart 0 _) hf rfl

/-- AGST with its entry sound, where its slice has room (R145, R255). -/
theorem execAgst_eq (hf : s.flight f.id = some f) (hp : f.parts = [p]) (hd : p.done = false) (hop : f.op = .agst itr)
    (hu : f.id ∉ s.ueCmds) (out : sent f p = true) (ready : s.ready f p = true) (hs : s.Sound)
    (enter : s.enterSlice f 0 p = (true, t)) (entered : Accessed s t) :
    (s.isAged p.key = false → exec (.agstAtHome f.id) s = .next ((t.agstDone f p).discardAged p.key 1).settle) ∧
      (s.isAged p.key = true → ∃ u, Accessed s u ∧
        (2 ^ 31 ≤ (itr - s.stamp p.key).toNat →
          exec (.agstAtHome f.id) s = .next ((u.agstDone f p).discardAged p.key 1).settle) ∧
        (¬2 ^ 31 ≤ (itr - s.stamp p.key).toNat → exec (.agstAtHome f.id) s =
          .next ((((u.writeOr f.asid p.bytes).agstDone f p).restamp p.key itr).answerParked p.key).settle)) := by
  have entry : s.badEntry f = false := by simpa [State.badEntry] using hu
  have run : exec (.agstAtHome f.id) s = execAgstAtHome f.id s := rfl
  rw [execAgstAtHome, State.onFlight_run hf hp hd] at run
  simp only [hop, out, ready, entry, enter, entered.isAged, Bool.not_true, Bool.false_eq_true, or_self, if_false] at run
  refine ⟨fun unmarked => ?_, fun marked => ?_⟩
  · rw [run, unmarked]
    rfl
  · have access := entered.trans (.homeAccess (entered.sound hs) f p (keysOf p.key 64) true f.hint)
    refine ⟨_, access, fun newer => ?_, fun older => ?_⟩
    · rw [run, marked, access.stamp]
      simp only [Bool.not_true, Bool.false_eq_true, if_false, if_pos newer]
      rfl
    · rw [run, marked, access.stamp]
      simp only [Bool.not_true, Bool.false_eq_true, if_false, if_neg older]
      rfl

/-- One that is discarded is counted at the home die. -/
theorem Accessed.agstDiscarded {u : State} (hu : Accessed s u) (hf : s.flight f.id = some f) :
    ((u.agstDone f p).discardAged p.key 1).ctxs = s.ctxs ∧ ((u.agstDone f p).discardAged p.key 1).mem = s.mem ∧
      ((u.agstDone f p).discardAged p.key 1).stamps = s.stamps ∧
      ((u.agstDone f p).discardAged p.key 1).flight f.id = some (f.setPart 0 { p with done := true }) ∧
      (((u.agstDone f p).discardAged p.key 1).die (homeDie p.key)).agedDiscard = (s.die (homeDie p.key)).agedDiscard + 1 := by
  refine ⟨hu.ctxs, hu.mem, hu.stamps, State.agstDone_flight ((hu.flight f.id).trans hf) p, ?_⟩
  have same : (u.die (homeDie p.key)).agedDiscard = (s.die (homeDie p.key)).agedDiscard := (congrArg Die.agedDiscard (hu.die _) :)
  rw [State.discardAged, State.modDie_eq, State.die_setDie_self, ← same]
  rfl

theorem exec_aged_withdrawn {pf pa : Nat} {da : Opnd} {act : Word} (hf : s.flight f.id = some f) (hp : f.parts = [p])
    (hd : p.done = false) (hop : f.op = .agld wait itr lag pf pa da act) :
    exec (.agedWithdrawal f.id) s = .next (s.withdrawn f (tAgeTimeout p.va itr lag)).settle := by
  show execAgedWithdrawal f.id s = _
  rw [execAgedWithdrawal, State.onFlight_run hf hp hd]
  simp only [hop]

end

/-! The obligation. -/

/-- Settles O42: what an AGST and an AGLD meet at the home decides the event, and each leaves its own operation alone. -/
theorem agedBlocksAtTheirHomes : Obligations.AgedBlocksAtTheirHomes := by
  unfold Obligations.AgedBlocksAtTheirHomes
  intro s id f p hf hp hd hs room st
  obtain rfl := State.flight_id hf
  refine ⟨fun itr hop hu out ready _ => ?_,
    fun wait itr lag pf pa da act m hop out ready clear asks may copy stamped good => ?_,
    fun wait itr lag pf pa da act hop out ready clear may => ?_, fun wait itr lag pf pa da act hop ha => ?_⟩
  · obtain ⟨t, enter, entered⟩ := State.enterSlice_room room
    obtain ⟨unmarked, marked⟩ := execAgst_eq hf hp hd hop hu out ready hs enter entered
    intro late
    refine ⟨fun h => ?_, fun h nodup _ => ?_⟩
    · cases mark : s.isAged p.key with
      | false => exact ⟨_, unmarked mark, entered.agstDiscarded hf⟩
      | true =>
        obtain ⟨u, access, newer, -⟩ := marked mark
        exact ⟨_, newer (h.resolve_left (by simp [mark])), access.agstDiscarded hf⟩
    · obtain ⟨mark, older⟩ := not_or.mp h
      obtain ⟨u, access, -, run⟩ := marked (Bool.not_eq_false _ ▸ mark)
      obtain ⟨wrote, mem⟩ := State.writeOr_sound (access.sound hs) f.asid p.bytes
      have found : (u.writeOr f.asid p.bytes).flight f.id = some f :=
        wrote.flight f.id f ((access.flight f.id).trans hf) (by rw [hop]; rfl)
      obtain ⟨ctxs, mem', stamps, flight⟩ := (u.writeOr f.asid p.bytes).agstDone_restamp f p itr
      have stored := Stored.of_mem (s := s) (mem'.trans (mem.trans (by rw [access.mem]))) nodup
      refine ⟨_, run older, ctxs.trans (wrote.ctxs.trans access.ctxs), stored.at_, stored.other, fun b => ?_,
        flight.trans (State.agstDone_flight found p)⟩
      rw [stamps, Tab.get_set, wrote.stamps, access.stamps]
  · intro near fresh
    refine ⟨_, execAgld_replica hf hp hd hop out ready clear asks may copy stamped good fresh, rfl, rfl, ?_⟩
    exact State.flight_setFlight_self hf rfl
  · intro q is fresh takes
    have roomQ : ∀ k, s.partSlice f p.atHome = some k → s.room k (.part f.id 0) := room
    obtain ⟨t, enter, entered⟩ := State.enterSlice_room roomQ
    have run := execAgld_home hf hp hd hop out ready clear may
    rw [State.agedHome_eq hs enter entered] at run
    have answer (c : Nat) (h : exec (.agldHomeRequest f.id) s = .next (t.answerAged f p.atHome c).settle) : takes c := by
      obtain ⟨⟨ctxs, mem, -, -⟩, stamps, stands⟩ := entered.answerAged hs hf (Part.atHome_noReplica may) c
      exact ⟨_, h, ctxs, mem, stamps, stands⟩
    have freshes : freshFor (s.stamp p.key) itr lag = true ↔ fresh := freshFor_iff
    refine ⟨fun mark => ?_, fun mark isFresh => ?_, fun mark old tries => ?_, fun mark old waits few global => ?_⟩
    · rw [mark, if_neg Bool.false_ne_true] at run
      obtain ⟨⟨-, mem, -, -⟩, stands⟩ := entered.setFlight (g := { f with parts := [{ p.atHome with done := true, code := 2 }] })
        hf rfl rfl
      exact ⟨_, run, mem, stands⟩
    · rw [mark, if_pos rfl, if_pos (freshes.mpr isFresh)] at run
      exact answer 1 run
    · rw [mark, if_pos rfl, if_neg (mt freshes.mp old), tries, if_neg Bool.false_ne_true] at run
      exact answer 0 run
    · rw [mark, if_pos rfl, if_neg (mt freshes.mp old), waits, if_pos rfl] at run
      obtain ⟨k, hk⟩ := Option.isSome_iff_exists.mp global
      obtain ⟨⟨ctxs, mem, -, -⟩, stands⟩ := entered.parkAged (q := p.atHome) hf hk (State.enterSlice_waits enter k) (few k hk)
      exact ⟨_, s.nextId, run, ctxs, mem, stands⟩
  · intro c gone
    have run := exec_aged_withdrawn hf hp hd hop
    obtain ⟨limit, preempt⟩ := s.withdrawn_eq ha (tAgeTimeout p.va itr lag)
    exact ⟨fun why => run.trans (by rw [limit why]; rfl), fun why => run.trans (by rw [preempt why]; rfl)⟩

end Sys2Proof.Machine
end
